-- ==== Sys2Proof/Word.lean ====
section
/-! DEFINITION. The word types of the machine: register words, bytes and instruction words. -/

namespace Sys2Proof

/-- A byte of memory (00 R3). -/
abbrev Byte := BitVec 8

/-- A 32-bit `w` register (07 R199). -/
abbrev W32 := BitVec 32

/-- A 64-bit `k` register, special register or instruction word (07 R205, R206; 08 R211). -/
abbrev W64 := BitVec 64

/-- One stream register of the pulp unit (14 R345). -/
abbrev Stream := BitVec 4096

end Sys2Proof
end

