-- ==== Sys2Proof/Machine/Bits.lean ====
section
/-! DEFINITION. Bit fields, sign extension and little-endian byte order (00 R3, R5, R8). -/

namespace Sys2Proof.Machine

/-- `x[hi:lo]` as a number: `n` bits of `x` from bit `lo`. -/
def bitsOf (x lo n : Nat) : Nat := x / 2 ^ lo % 2 ^ n

/-- Bit `i` of `x`. -/
def bitAt (x i : Nat) : Bool := x / 2 ^ i % 2 == 1

/-- The value of the low `w` bits of `x`, read as two's complement. -/
def sgn (w x : Nat) : Int :=
  let y := x % 2 ^ w
  if y < 2 ^ (w - 1) then (y : Int) else (y : Int) - 2 ^ w

/-- The low `w` bits of an integer. -/
def wrapN (w : Nat) (v : Int) : Nat := (v % (2 ^ w : Int)).toNat

/-- Number of bits of a number. -/
def bitLen (m : Nat) : Nat := if m = 0 then 0 else Nat.log2 m + 1

/-- Set bits among the low `n` bits of `x`. -/
def popN : Nat → Nat → Nat
  | 0, _ => 0
  | n + 1, x => x % 2 + popN n (x / 2)

/-- The positions below `n` at which `p` holds, ascending. -/
def idxWhere (n : Nat) (p : Nat → Bool) : List Nat := (List.range n).filter p

/-- The positions of the set bits of a 32-bit mask, ascending. -/
def maskList (m : W32) : List Nat := idxWhere 32 (fun i => m.getLsbD i)

/-- The mask of a list of positions. -/
def maskOf (l : List Nat) : W32 := l.foldl (fun m i => m ||| (1 <<< i : W32)) 0

/-- Number of set bits of a mask. -/
def maskCount (m : W32) : Nat := (maskList m).length

/-- The little-endian value of a list of bytes (R3). -/
def leNat : List Byte → Nat
  | [] => 0
  | b :: t => b.toNat + 256 * leNat t

/-- The `n` bytes of a value, little-endian (R3). -/
def leBytes : Nat → Nat → List Byte
  | 0, _ => []
  | n + 1, v => BitVec.ofNat 8 v :: leBytes n (v / 256)

/-- `n` bytes of a list from offset `o`, zeros past its end. -/
def bytesAt (l : List Byte) (o n : Nat) : List Byte := (List.range n).map (fun i => (l[o + i]?).getD 0)

/-- A little-endian field of a list of bytes. -/
def fieldAt (l : List Byte) (o n : Nat) : Nat := leNat (bytesAt l o n)

/-- Replaces the bytes of a list from offset `o`. -/
def putBytes : List Byte → Nat → List Byte → List Byte
  | l, _, [] => l
  | l, o, b :: t => putBytes (l.set o b) (o + 1) t

/-- A list of `n` zero bytes. -/
def zeros (n : Nat) : List Byte := List.replicate n 0

/-- The least number `r` with `d * r ≥ n`. -/
def ceilDiv (n d : Nat) : Nat := (n + d - 1) / d

/-- The sum of a list. -/
def sumN (l : List Nat) : Nat := l.foldl (· + ·) 0

/-- `some` of the values when every element has one. -/
def allSome {α β : Type} (f : α → Option β) : List α → Option (List β)
  | [] => some []
  | x :: t =>
    match f x, allSome f t with
    | some y, some ys => some (y :: ys)
    | _, _ => none

/-- The lowest index whose element satisfies `p`. -/
def findIdx {α : Type} (p : α → Bool) (l : List α) : Option Nat :=
  (List.range l.length).find? (fun i => (l[i]?).any p)

end Sys2Proof.Machine
end

