-- ==== Sys2Proof/Syntax.lean ====
section
/-! DEFINITION. The instructions and events of the Vrelnak VN4: one constructor of `Instr` for each row of
spec/opcode_table.json, with typed operands. Program words carry a header (switch marker and guard); packets and
events carry the agent, access or register they concern. -/

namespace Sys2Proof

/-- An operand field of R217, decoded. `wp i` is the pair `w(2i):w(2i+1)`; `im` is operand B as imm19 (R216). -/
inductive Opd where
  | w (i : BitVec 5)
  | k (i : BitVec 5)
  | q (i : BitVec 4)
  | z (i : BitVec 5)
  | sp (i : BitVec 5)
  | si (v : BitVec 5)
  | wp (i : BitVec 4)
  | im (v : BitVec 19)
  deriving DecidableEq, Repr, Inhabited

/-- The switch marker (R211) and the guard (R213, R214) of a full word. -/
structure Hdr where
  sw : Bool
  ng : Bool
  gf : Bool
  gr : BitVec 5
  gb : BitVec 5
  deriving DecidableEq, Repr, Inhabited

/-- `md` of opcodes 0x00 to 0x1B (R255). -/
structure IntMod where
  sat : Bool
  sg : Bool
  wd : Bool
  f : BitVec 3
  deriving DecidableEq, Repr, Inhabited

/-- The scalar floating-point types of R261, in the order of their codes. -/
inductive FTy where
  | f32 | f64 | f16 | bf16
  deriving DecidableEq, Repr, Inhabited

/-- The rounding codes of R171, with the generator class of R172. -/
inductive Rnd where
  | rne | rtz | rup | rdn
  | sr (c : BitVec 4)
  deriving DecidableEq, Repr, Inhabited

/-- `md` and class of the scalar floating-point forms (R261). -/
structure FpMod where
  sat : Bool
  ty : FTy
  rm : Rnd
  deriving DecidableEq, Repr, Inhabited

/-- `md` and class of the packed forms: `bf` selects `.bf16` (R261, R266). -/
structure HpMod where
  sat : Bool
  bf : Bool
  rm : Rnd
  deriving DecidableEq, Repr, Inhabited

/-- The conversion types of R270, in the order of their codes. -/
inductive CTy where
  | f32 | f64 | f16 | bf16 | e5m2 | e4m3 | e3m2 | e2m3 | e2m1 | e8m0
  | i8 | i16 | i32 | i64 | n8 | n16 | n32 | n64
  deriving DecidableEq, Repr, Inhabited

/-- The scopes of R7 and R134. -/
inductive Scope where
  | wp | wg | cl | die | fab | sys
  deriving DecidableEq, Repr, Inhabited

/-- The access sizes of R295: `i32x` is `.i32` into a 64-bit destination. -/
inductive Sz where
  | b32 | n8 | i8 | n16 | i16 | b64 | i32x
  deriving DecidableEq, Repr, Inhabited

/-- A memory operand `[base + index*scale + disp]` (R294). -/
inductive MemOp where
  | reg (base idx : Opd) (sc : BitVec 2) (disp : BitVec 9)
  | imm (base : Opd) (disp : BitVec 19)
  deriving DecidableEq, Repr, Inhabited

/-- The atomic types of R301. -/
inductive ATy where
  | i32 | n32 | i64 | n64 | f32
  deriving DecidableEq, Repr, Inhabited

/-- The order forms of R135 for atomics and of R136 for fences. -/
inductive AOrd where
  | rlx | acq | rel | ar
  deriving DecidableEq, Repr, Inhabited

/-- The atomic operations of R301. -/
inductive AOp where
  | add | min | max | and | or | xor | exch
  deriving DecidableEq, Repr, Inhabited

/-- Type, scope and order of an atomic (R301). -/
structure AtMod where
  ty : ATy
  sc : Scope
  ord : AOrd
  deriving DecidableEq, Repr, Inhabited

/-- The completion fields of an engine command (R308). -/
structure CwMod where
  cw : Bool
  sc : Scope
  deriving DecidableEq, Repr, Inhabited

/-- The directions of `cpy` (R309). -/
inductive CpyDir where
  | gg | gs | sg | ss
  deriving DecidableEq, Repr, Inhabited

/-- The half-opcodes of R223, in the order of their codes. -/
inductive Hop where
  | nop | iadd | isub | and | or | xor | shl | shr | sar | imin | imax | mov | imul
  | fadd | fsub | fmul | fmin | fmax
  | h2addF16 | h2mulF16 | h2minF16 | h2maxF16 | h2addBf16 | h2mulBf16
  deriving DecidableEq, Repr, Inhabited

/-- One half of a pair word (R220). -/
structure Half where
  op : Hop
  d : Opd
  a : Opd
  b : Opd
  deriving DecidableEq, Repr, Inhabited

/-- A PC slot of a warp: die, core, workgroup tag, warp slot, and the slot (true is S1) (R186, R189). -/
structure FragRef where
  die : Nat
  core : Nat
  wg : Nat
  warp : Nat
  s1 : Bool
  deriving DecidableEq, Repr, Inhabited

/-- A write of the host to a management register block (R52, R445): function, byte offset, value, and bytes written. -/
structure RegWr where
  fn : Nat
  off : Nat
  val : BitVec 64
  n : Nat
  deriving DecidableEq, Repr, Inhabited

/-- One constructor for each row of the opcode table. -/
inductive Instr where
  -- integer and bit instructions (R256)
  | iadd (h : Hdr) (m : IntMod) (d a b : Opd)
  | isub (h : Hdr) (m : IntMod) (d a b : Opd)
  | imul (h : Hdr) (m : IntMod) (d a b : Opd)
  | imulh (h : Hdr) (m : IntMod) (d a b : Opd)
  | imad (h : Hdr) (m : IntMod) (d a b c : Opd)
  | idiv (h : Hdr) (m : IntMod) (d a b : Opd)
  | irem (h : Hdr) (m : IntMod) (d a b : Opd)
  | imin (h : Hdr) (m : IntMod) (d a b : Opd)
  | imax (h : Hdr) (m : IntMod) (d a b : Opd)
  | iabs (h : Hdr) (m : IntMod) (d a : Opd)
  | and (h : Hdr) (m : IntMod) (d a b : Opd)
  | or (h : Hdr) (m : IntMod) (d a b : Opd)
  | xor (h : Hdr) (m : IntMod) (d a b : Opd)
  | andn (h : Hdr) (m : IntMod) (d a b : Opd)
  | shl (h : Hdr) (m : IntMod) (d a b : Opd)
  | shr (h : Hdr) (m : IntMod) (d a b : Opd)
  | sar (h : Hdr) (m : IntMod) (d a b : Opd)
  | rot (h : Hdr) (m : IntMod) (d a b : Opd)
  | bfx (h : Hdr) (m : IntMod) (d a b : Opd)
  | bfi (h : Hdr) (m : IntMod) (d a b c : Opd)
  | popc (h : Hdr) (m : IntMod) (d a : Opd)
  | clz (h : Hdr) (m : IntMod) (d a : Opd)
  | ctz (h : Hdr) (m : IntMod) (d a : Opd)
  | brev (h : Hdr) (m : IntMod) (d a : Opd)
  | mov (h : Hdr) (m : IntMod) (d a : Opd)
  | movi (h : Hdr) (m : IntMod) (d : Opd) (v : BitVec 19)
  | bperm (h : Hdr) (m : IntMod) (d a b c : Opd)
  | idot4 (h : Hdr) (m : IntMod) (d a b c : Opd)
  | guardFalseNop
  -- floating point (R262, R266)
  | fadd (h : Hdr) (m : FpMod) (d a b : Opd)
  | fsub (h : Hdr) (m : FpMod) (d a b : Opd)
  | fmul (h : Hdr) (m : FpMod) (d a b : Opd)
  | ffma (h : Hdr) (m : FpMod) (d a b c : Opd)
  | fmin (h : Hdr) (m : FpMod) (d a b : Opd)
  | fmax (h : Hdr) (m : FpMod) (d a b : Opd)
  | fdiv (h : Hdr) (m : FpMod) (d a b : Opd)
  | fsqrt (h : Hdr) (m : FpMod) (d a : Opd)
  | frcp (h : Hdr) (m : FpMod) (d a : Opd)
  | frsq (h : Hdr) (m : FpMod) (d a : Opd)
  | fexp2 (h : Hdr) (m : FpMod) (d a : Opd)
  | flog2 (h : Hdr) (m : FpMod) (d a : Opd)
  | fsin (h : Hdr) (m : FpMod) (d a : Opd)
  | fcos (h : Hdr) (m : FpMod) (d a : Opd)
  | ftanh (h : Hdr) (m : FpMod) (d a : Opd)
  | frnd (h : Hdr) (m : FpMod) (d a : Opd)
  | h2add (h : Hdr) (m : HpMod) (d a b : Opd)
  | h2mul (h : Hdr) (m : HpMod) (d a b : Opd)
  | h2fma (h : Hdr) (m : HpMod) (d a b c : Opd)
  | h2min (h : Hdr) (m : HpMod) (d a b : Opd)
  | h2max (h : Hdr) (m : HpMod) (d a b : Opd)
  | fdot2 (h : Hdr) (m : HpMod) (d a b c : Opd)
  | fscl (h : Hdr) (m : FpMod) (d a b : Opd)
  | fclass (h : Hdr) (m : FpMod) (d a : Opd)
  -- compare, select, convert, pack, trits, scale (R267 to R274)
  | icmp (h : Hdr) (cond : BitVec 3) (comb : BitVec 2) (nat w64 : Bool) (t f : BitVec 5) (d a b : Opd)
  | fcmp (h : Hdr) (cond : BitVec 3) (comb : BitVec 2) (lo hi : Bool) (t f : BitVec 5) (d a b : Opd)
  | sel (h : Hdr) (n : BitVec 5) (w64 : Bool) (d a b c : Opd)
  | cvt (h : Hdr) (rm : Rnd) (sat : Bool) (dt st : CTy) (d a : Opd)
  | pack (h : Hdr) (sz : BitVec 2) (d a b c : Opd)
  | unpk (h : Hdr) (sz : BitVec 2) (sx : Bool) (d a b : Opd)
  | t3enc (h : Hdr) (d a : Opd)
  | t3dec (h : Hdr) (d a : Opd)
  | mxscl (h : Hdr) (fmt : BitVec 3) (d a : Opd)
  -- collectives (R275 to R281)
  | shfl (h : Hdr) (mode : BitVec 2) (b64 : Bool) (d a b : Opd)
  | vote (h : Hdr) (mode : BitVec 2) (d a b : Opd)
  | redi (h : Hdr) (op : BitVec 3) (sat sg wd : Bool) (d a : Opd)
  | redf (h : Hdr) (op : BitVec 2) (ty : FTy) (d a : Opd)
  | scan (h : Hdr) (op : BitVec 3) (excl sg wd : Bool) (d a : Opd)
  | topk (h : Hdr) (ty : BitVec 2) (least : Bool) (d a b : Opd)
  | topkm (h : Hdr) (ty : BitVec 2) (least : Bool) (d a b c : Opd)
  | matchEq (h : Hdr) (b64 : Bool) (d a : Opd)
  -- control flow and windows (R282 to R291)
  | br (h : Hdr) (off : BitVec 19)
  | bru (h : Hdr) (off : BitVec 19)
  | jn (h : Hdr)
  | call (h : Hdr) (off : BitVec 19)
  | ret (h : Hdr)
  | loop (h : Hdr) (sz : BitVec 2) (cnt : Opd)
  | brl (h : Hdr) (off : BitVec 19)
  | exit (h : Hdr)
  | jmp (h : Hdr) (a : Opd)
  | calli (h : Hdr) (a : Opd)
  | rgn (h : Hdr)
  | rds (h : Hdr) (d : Opd) (ix : BitVec 5)
  | rdsId (h : Hdr) (d : Opd) (ix : BitVec 5)
  | wrs (h : Hdr) (ix : BitVec 5) (src : Opd)
  | pairWord (sw : Bool) (p0 p1 : Half)
  -- memory (R294 to R307)
  | ld (h : Hdr) (sz : Sz) (ord : Option Scope) (d : Opd) (m : MemOp)
  | st (h : Hdr) (sz : Sz) (ord : Option Scope) (d : Opd) (m : MemOp)
  | stNt (h : Hdr) (sz : Sz) (d : Opd) (m : MemOp)
  | ldk (h : Hdr) (sz : Sz) (ord : Option Scope) (d : Opd) (m : MemOp)
  | stk (h : Hdr) (sz : Sz) (ord : Option Scope) (d : Opd) (m : MemOp)
  | lds (h : Hdr) (sz : Sz) (ord : Option Scope) (d : Opd) (m : MemOp)
  | sts (h : Hdr) (sz : Sz) (ord : Option Scope) (d : Opd) (m : MemOp)
  | ldsk (h : Hdr) (sz : Sz) (ord : Option Scope) (d : Opd) (m : MemOp)
  | ldskH (h : Hdr) (d : Opd) (m : MemOp)
  | stsk (h : Hdr) (sz : Sz) (ord : Option Scope) (d : Opd) (m : MemOp)
  | atom (h : Hdr) (m : AtMod) (op : AOp) (d a b : Opd)
  | atoms (h : Hdr) (m : AtMod) (op : AOp) (d a b : Opd)
  | cas (h : Hdr) (m : AtMod) (d a b c : Opd)
  | cass (h : Hdr) (m : AtMod) (d a b c : Opd)
  | fence (h : Hdr) (form : AOrd) (sc : Scope)
  | ntdrain (h : Hdr)
  | cmntWb (h : Hdr) (a b : Opd)
  | cmntInv (h : Hdr) (a b : Opd)
  | cmntWbi (h : Hdr) (a b : Opd)
  | prf (h : Hdr) (l1 : Bool) (m : MemOp)
  -- commands, waits, handles, queues, channels (R308 to R316)
  | cpy (h : Hdr) (dir : CpyDir) (cw : CwMod) (d a b c : Opd)
  | cpyk (h : Hdr) (glob : Bool) (cw : CwMod) (d a b c : Opd)
  | waita (h : Hdr) (cond : BitVec 2) (n64 acq : Bool) (sc : Scope) (a b : Opd)
  | htest (h : Hdr) (d a : Opd)
  | hcan (h : Hdr) (a : Opd)
  | qbind (h : Hdr) (d : Opd) (a b : Opd)
  | send (h : Hdr) (ch : BitVec 6) (a : Opd)
  | recv (h : Hdr) (ch : BitVec 6) (a : Opd)
  | qlen (h : Hdr) (d a : Opd)
  -- key space and hand-over (R317 to R320)
  | kmk (h : Hdr) (d a b : Opd)
  | kpar (h : Hdr) (d a : Opd)
  | kchd (h : Hdr) (d a b : Opd)
  | knbr (h : Hdr) (d a b : Opd)
  | klv (h : Hdr) (d a : Opd)
  | kcrd (h : Hdr) (d a : Opd)
  | klook (h : Hdr) (d a e : Opd)
  | klookW (h : Hdr) (d a e : Opd)
  | kown (h : Hdr) (d a : Opd)
  | kpinR (h : Hdr) (d a e : Opd)
  | kpinW (h : Hdr) (d a e : Opd)
  | kunpinR (h : Hdr) (a : Opd)
  | kunpinW (h : Hdr) (a : Opd)
  | refine (h : Hdr) (cw : CwMod) (d a b c : Opd)
  | coarsen (h : Hdr) (cw : CwMod) (d a c : Opd)
  | rebal (h : Hdr) (cw : CwMod) (d a b c : Opd)
  | shovGive (h : Hdr) (d a : Opd)
  | shovTake (h : Hdr) (cw : CwMod) (d a c : Opd)
  -- matrix (R321 to R344)
  | mma (h : Hdr) (mc nc kind : BitVec 2) (row col : BitVec 4) (d a b : Opd)
  | mdrn (h : Hdr) (tq : Bool) (cw : CwMod) (d a : Opd)
  | acpTs (h : Hdr) (row : BitVec 4) (a nb : Opd)
  | acpFs (h : Hdr) (row : BitVec 4) (a nb : Opd)
  | acpCkTs (h : Hdr) (row : BitVec 4) (a nb : Opd)
  | acpCkFs (h : Hdr) (row : BitVec 4) (a nb : Opd)
  | mmv (h : Hdr) (cw : CwMod) (d a : Opd)
  | mzero (h : Hdr) (mc nc : BitVec 2) (i32 : Bool) (row col : BitVec 4)
  -- pulp unit (R351)
  | sgenQ (h : Hdr) (run : BitVec 2) (cls : BitVec 4) (d a : Opd)
  | sgenK (h : Hdr) (run : BitVec 2) (cls : BitVec 4) (d a : Opd)
  | sand (h : Hdr) (run : BitVec 2) (d a b : Opd)
  | sandC (h : Hdr) (run : BitVec 2) (d a b : Opd)
  | sor (h : Hdr) (run : BitVec 2) (d a b : Opd)
  | sorC (h : Hdr) (run : BitVec 2) (d a b : Opd)
  | sxor (h : Hdr) (run : BitVec 2) (d a b : Opd)
  | sxorC (h : Hdr) (run : BitVec 2) (d a b : Opd)
  | sxnor (h : Hdr) (run : BitVec 2) (d a b : Opd)
  | smux (h : Hdr) (run : BitVec 2) (d a b s : Opd)
  | sregen (h : Hdr) (run : BitVec 2) (cls : BitVec 4) (d a : Opd)
  | scnt (h : Hdr) (d a b : Opd)
  | scntr (h : Hdr) (d a : Opd)
  | sinv (h : Hdr) (run : BitVec 2) (d a : Opd)
  | slen (h : Hdr) (run : BitVec 2) (d b : Opd)
  | smovZ (h : Hdr) (run : BitVec 2) (d a : Opd)
  | smovTs (h : Hdr) (run : BitVec 2) (a b : Opd)
  | smovFs (h : Hdr) (run : BitVec 2) (d b : Opd)
  | smovSt (h : Hdr) (d a : Opd)
  -- solve region (R367, R371)
  | slvb (h : Hdr) (m : BitVec 3) (ex : Bool) (a b : Opd)
  | slvx (h : Hdr)
  -- scheduling (R405)
  | acq (h : Hdr)
  | rel (h : Hdr)
  | bar (h : Hdr) (sc : BitVec 2)
  | fetchIdx (h : Hdr) (d e : Opd)
  | fetchTask (h : Hdr) (flt : Option Opd) (d e : Opd)
  | deviceSideLaunch (h : Hdr) (d a : Opd)
  | join (h : Hdr) (d a : Opd)
  | trel (h : Hdr) (d a : Opd)
  | tabn (h : Hdr) (d a : Opd)
  -- traps and system (R435)
  | trap (h : Hdr) (n : BitVec 16)
  | tret (h : Hdr)
  | tretTo (h : Hdr) (a : Opd)
  | tretCtx (h : Hdr) (a : Opd)
  | tmskM (h : Hdr)
  | tmskU (h : Hdr)
  | brk (h : Hdr) (n : BitVec 16)
  | pmskD (h : Hdr)
  | pmskA (h : Hdr)
  | evnt (h : Hdr) (a : Opd) (n : BitVec 16)
  -- events of a fragment and of accesses in flight
  | impreciseFaultReturn (f : FragRef)
  | watchdogTrap (f : FragRef)
  | registerResultWrite (id : Nat)
  | lineFillReturn (id : Nat)
  | homeRequest (id : Nat)
  | writeAcknowledge (id : Nat)
  | notOwnerResponse (id : Nat)
  | movedResponse (id : Nat)
  | busyRetryResponse (id : Nat)
  | clusterStoreEviction (die cluster line : Nat)
  | pageWalk (id : Nat)
  | walkResume (id : Nat)
  | leaveGrant (die : Nat) (ix : Nat)
  -- hand-overs and page moves
  | handoverStart (stack : Nat)
  | handoverWriteback (stack : Nat)
  | handoverShootdown (stack : Nat)
  | ownerFlip (stack : Nat)
  | handoverFinish (stack : Nat)
  | pageMoveStart (id : Nat)
  | pageMoveRewrite (id : Nat)
  | pageMoveFinish (id : Nat)
  -- engines
  | copyCommandStart (die core : Nat)
  | gatherKeyStep (id : Nat)
  | commandComplete (id : Nat)
  | waitaWake (f : FragRef)
  | queueDead (f : FragRef)
  | barrierComplete (die core wg : Nat) (sc : BitVec 2)
  | formerStartWarp (die core wg : Nat)
  | binRipe (die core wg bin : Nat)
  | formerSwapOut (die core wg : Nat)
  | costAdd (f : FragRef)
  -- key space
  | directoryOperation (id : Nat)
  | rebalanceNotify (id : Nat)
  | rebalancePlan (sp : Nat)
  | rebalanceStops (sp : Nat)
  | patienceExpiry (sp : Nat)
  | rebalanceAbort (sp : Nat)
  | rebalanceCommit (sp : Nat)
  | deckleInvalidate (sp die : Nat)
  | deckleInstall (sp die : Nat)
  -- arbiters of a core
  | matrixLeaseGrant (die core : Nat)
  | pulpLeaseGrant (die core : Nat)
  | leasePass (die core : Nat) (pulp : Bool)
  | allotmentGrant (die core : Nat)
  | mmvStart (id : Nat)
  | calenderStep (die core wg : Nat)
  | rotation (die core : Nat)
  | preemptionRequest (die core wg : Nat)
  | preemptionHandlerEntry (die core wg warp : Nat)
  | preemptionOverdue (die core wg : Nat)
  | workgroupRestore (die core wg : Nat)
  -- packets of the host queues
  | signal (die queue : Nat) (bar : Bool) (tag : BitVec 32) (addr val : BitVec 64) (exch : Bool)
  | waitSignal (die queue : Nat) (bar : Bool) (tag : BitVec 32) (addr val : BitVec 64) (cond : BitVec 2)
  | waitSignalMet (die queue : Nat)
  | launch (die queue : Nat) (bar : Bool) (tag : BitVec 32) (rec : BitVec 64)
  | spanLaunch (bar : Bool) (tag : BitVec 32) (recs : List (BitVec 64)) (shares : List Byte)
      (n base : BitVec 64)
  | copy (die queue : Nat) (bar : Bool) (tag : BitVec 32) (dst src len cwa cwv : BitVec 64)
  | pageMove (die queue : Nat) (bar : Bool) (tag : BitVec 32) (va dst : BitVec 64) (npg : BitVec 32)
      (psz flg : Byte) (cwa cwv : BitVec 64)
  | spaceCreate (die queue : Nat) (bar : Bool) (tag : BitVec 32) (desc : BitVec 64) (sp : Byte)
  | spaceDestroy (die queue : Nat) (bar : Bool) (tag : BitVec 32) (sp : Byte)
  | eventConfig (die queue : Nat) (bar : Bool) (tag : BitVec 32) (base : BitVec 64) (lsz : Byte)
      (mask : BitVec 16)
  | nopPacket (die queue : Nat) (bar : Bool) (tag : BitVec 32)
  | gridDispatch (die ix : Nat)
  | gridComplete (die grid : Nat)
  -- host writes with a behaviour of their own
  | queueDoorbell (fn queue : Nat) (wr : BitVec 32)
  | queueEnable (fn queue : Nat) (w0 : BitVec 64)
  | queueDisable (fn queue : Nat) (w0 : BitVec 64)
  | queueReconfigure (fn queue word : Nat) (v : BitVec 64)
  | queueErrorClear (fn queue : Nat) (v : BitVec 64)
  | tlbInvalidate (die : Nat) (v : BitVec 64)
  | tlbInvalidateAll (die : Nat) (v : BitVec 64)
  | tlbInvalidateDone (die : Nat)
  | nearMemoryCounterWrite (stack ctr : Nat) (v : BitVec 64)
  | precmdAll (die : Nat)
  | debugHalt (die : Nat)
  | debugResume (die : Nat)
  | versionHandshake (die : Nat) (req : Byte)
  | eventRingConsume (die : Nat) (rd : BitVec 32)
  | eventRecordPost (die : Nat)
  | overflowRecord (die : Nat)
  | attestationRequest (nonce : List Byte)
  | registerWrite (r : RegWr)
  | inboundPostedWrite (req addr : Nat) (data : List Byte) (ro : Bool)
  | orderingPointForward (id : Nat)
  | inboundRead (req addr n : Nat)
  | multicastFork (die port : Nat)
  | feltlinkTraining (port : Nat) (maj min : Byte)
  | feltlinkFlitReceive (port : Nat) (ver : Byte) (seq : BitVec 32) (crcOk : Bool) (payload : List Byte)
  | feltlinkSlotSend (port : Nat)
  | eccError (addr : Nat) (corrected : Bool) (die core unit : Nat)
  | katDue (die core lane : Nat)
  | thermalSensorChange (die core : Nat) (temp : Nat)
  | droopEvent (die core : Nat)
  | thermalReset (die : Nat)
  | packageReset
  | feltlinkPortDown (port : Nat)
  | matrixInstructionFinish (die core : Nat)
  | pulpInstructionComplete (die core : Nat)
  deriving DecidableEq, Repr, Inhabited

end Sys2Proof
end

