-- ==== Sys2Proof/Machine/Fmt.lean ====
section
/-! DEFINITION. Number formats, exact values, rounding and narrowing (06 R163 to R175): every floating-point result of
the machine is an exact value rounded once by `roundTo`. -/

namespace Sys2Proof.Machine

/-- How a format ends: IEEE infinities and NaNs, e4m3's single NaN, or neither (R163). -/
inductive Special where
  | ieee | e4m3 | none
  deriving DecidableEq, Repr, Inhabited

/-- A floating-point format: exponent bits, mantissa bits, bias, special values (R163). -/
structure FFmt where
  eb : Nat
  mb : Nat
  bias : Nat
  sp : Special
  deriving DecidableEq, Repr, Inhabited

namespace FFmt

/-- f64. -/
def f64 : FFmt := ⟨11, 52, 1023, .ieee⟩
/-- f32. -/
def f32 : FFmt := ⟨8, 23, 127, .ieee⟩
/-- f16. -/
def f16 : FFmt := ⟨5, 10, 15, .ieee⟩
/-- bf16. -/
def bf16 : FFmt := ⟨8, 7, 127, .ieee⟩
/-- e5m2. -/
def e5m2 : FFmt := ⟨5, 2, 15, .ieee⟩
/-- e4m3. -/
def e4m3 : FFmt := ⟨4, 3, 7, .e4m3⟩
/-- e3m2. -/
def e3m2 : FFmt := ⟨3, 2, 3, .none⟩
/-- e2m3. -/
def e2m3 : FFmt := ⟨2, 3, 1, .none⟩
/-- e2m1. -/
def e2m1 : FFmt := ⟨2, 1, 1, .none⟩

/-- Width in bits. -/
def width (f : FFmt) : Nat := f.eb + f.mb + 1

/-- Encoding of the largest finite magnitude (R163). -/
def maxFin (f : FFmt) : Nat :=
  match f.sp with
  | .ieee => (2 ^ f.eb - 1) * 2 ^ f.mb - 1
  | .e4m3 => 2 ^ (f.eb + f.mb) - 2
  | .none => 2 ^ (f.eb + f.mb) - 1

/-- The canonical NaN; +0 where the format has none (R165, R175). -/
def nan (f : FFmt) : Nat :=
  match f.sp with
  | .ieee => (2 ^ f.eb - 1) * 2 ^ f.mb + 2 ^ (f.mb - 1)
  | .e4m3 => 2 ^ (f.eb + f.mb) - 1
  | .none => 0

/-- Exponent of the least significant bit of a subnormal. -/
def qmin (f : FFmt) : Int := 1 - (f.bias : Int) - f.mb

end FFmt

/-- A value: NaN, an infinity, or ±(m + ε) · 2^e with 0 < ε < 1 when `st` and ε = 0 otherwise. -/
inductive FV where
  | nan
  | inf (neg : Bool)
  | fin (neg : Bool) (m : Nat) (e : Int) (st : Bool)
  deriving DecidableEq, Repr, Inhabited

namespace FV

/-- Is it NaN? -/
def isNan : FV → Bool
  | .nan => true
  | _ => false

/-- Is it an infinity? -/
def isInf : FV → Bool
  | .inf _ => true
  | _ => false

/-- Is it a zero? -/
def isZero : FV → Bool
  | .fin _ m _ st => m == 0 && !st
  | _ => false

/-- Its sign; a NaN has none. -/
def neg? : FV → Bool
  | .nan => false
  | .inf n => n
  | .fin n _ _ _ => n

/-- The negated value. -/
def neg : FV → FV
  | .nan => .nan
  | .inf n => .inf (!n)
  | .fin n m e st => .fin (!n) m e st

/-- An integer as an exact value. -/
def ofInt (v : Int) : FV := .fin (v < 0) v.natAbs 0 false

/-- A zero. -/
def zero (n : Bool) : FV := .fin n 0 0 false

/-- The signed mantissa at exponent `q`, for an exact value with `q ≤ e`. -/
def scaledTo (n : Bool) (m : Nat) (e q : Int) : Int :=
  let a : Int := (m * 2 ^ (e - q).toNat : Nat)
  if n then -a else a

/-- Exact sum of finite exact values; the sign of an exact zero is given (RDN gives −0; R262). -/
def addFin (n1 : Bool) (m1 : Nat) (e1 : Int) (n2 : Bool) (m2 : Nat) (e2 : Int) (rdn : Bool) : FV :=
  let q := min e1 e2
  let v := scaledTo n1 m1 e1 q + scaledTo n2 m2 e2 q
  if v = 0 then
    (if m1 = 0 && m2 = 0 && n1 == n2 then .zero n1 else .zero rdn)
  else .fin (v < 0) v.natAbs q false

/-- Exact sum (IEEE 754 special cases). -/
def add (a b : FV) (rdn : Bool) : FV :=
  match a, b with
  | .nan, _ => .nan
  | _, .nan => .nan
  | .inf x, .inf y => if x == y then .inf x else .nan
  | .inf x, _ => .inf x
  | _, .inf y => .inf y
  | .fin n1 m1 e1 _, .fin n2 m2 e2 _ => addFin n1 m1 e1 n2 m2 e2 rdn

/-- Exact product. -/
def mul (a b : FV) : FV :=
  match a, b with
  | .nan, _ => .nan
  | _, .nan => .nan
  | .inf x, .inf y => .inf (x != y)
  | .inf x, .fin n m _ _ => if m = 0 then .nan else .inf (x != n)
  | .fin n m _ _, .inf x => if m = 0 then .nan else .inf (x != n)
  | .fin n1 m1 e1 _, .fin n2 m2 e2 _ => .fin (n1 != n2) (m1 * m2) (e1 + e2) false

/-- Quotient: at least 80 significant bits and a sticky. -/
def div (a b : FV) : FV :=
  match a, b with
  | .nan, _ => .nan
  | _, .nan => .nan
  | .inf _, .inf _ => .nan
  | .inf x, .fin n _ _ _ => .inf (x != n)
  | .fin n _ _ _, .inf x => .zero (n != x)
  | .fin n1 m1 e1 _, .fin n2 m2 e2 _ =>
    if m2 = 0 then (if m1 = 0 then .nan else .inf (n1 != n2))
    else
      let k := bitLen m2 + 80
      let num := m1 * 2 ^ k
      .fin (n1 != n2) (num / m2) (e1 - e2 - k) (num % m2 != 0)

/-- Integer square root of `n` below `2^(i)`, bit by bit from `r`. -/
def isqrtFrom (n : Nat) : Nat → Nat → Nat
  | 0, r => r
  | i + 1, r =>
    let r' := r + 2 ^ i
    if r' * r' ≤ n then isqrtFrom n i r' else isqrtFrom n i r

/-- Integer square root, rounded down. -/
def isqrt (n : Nat) : Nat := isqrtFrom n (bitLen n / 2 + 1) 0

/-- Square root: at least 80 significant bits and a sticky; −0 gives −0, a negative value NaN. -/
def sqrt : FV → FV
  | .nan => .nan
  | .inf n => if n then .nan else .inf false
  | .fin n m e _ =>
    if m = 0 then .zero n
    else if n then .nan
    else
      let sh : Nat := if (e % 2 = 0) then 180 else 181
      let m' := m * 2 ^ sh
      let r := isqrt m'
      .fin false r ((e - sh) / 2) (r * r != m')

/-- Comparison of two non-NaN exact values: −1, 0 or 1. -/
def cmp (a b : FV) : Int :=
  match a, b with
  | .inf x, .inf y => if x == y then 0 else if x then -1 else 1
  | .inf x, _ => if x then -1 else 1
  | _, .inf y => if y then 1 else -1
  | .fin n1 m1 e1 _, .fin n2 m2 e2 _ =>
    let q := min e1 e2
    let d := scaledTo n1 m1 e1 q - scaledTo n2 m2 e2 q
    if d < 0 then -1 else if d = 0 then 0 else 1
  | _, _ => 0

/-- Scales by a power of two. -/
def scale (a : FV) (k : Int) : FV :=
  match a with
  | .fin n m e st => .fin n m (e + k) st
  | x => x

end FV

/-- The value of an encoding (R163). -/
def fdecode (f : FFmt) (x : Nat) : FV :=
  let s := bitAt x (f.eb + f.mb)
  let e := bitsOf x f.mb f.eb
  let m := bitsOf x 0 f.mb
  if f.sp == .ieee && e == 2 ^ f.eb - 1 then (if m == 0 then .inf s else .nan)
  else if f.sp == .e4m3 && e == 2 ^ f.eb - 1 && m == 2 ^ f.mb - 1 then .nan
  else if e == 0 then .fin s m f.qmin false
  else .fin s (2 ^ f.mb + m) (f.qmin + e - 1) false

/-- A rounding mode with its stochastic value G (R171, R172). -/
structure RMode where
  rm : Rnd
  g : Nat := 0
  deriving DecidableEq, Repr, Inhabited

/-- Round to nearest even. -/
def RMode.rne : RMode := ⟨.rne, 0⟩

/-- Is the larger magnitude taken? `n` is the truncated magnitude, `r / 2^sh` the fraction, `st` its sticky (R171). -/
def roundUp (m : RMode) (neg : Bool) (n r sh : Nat) (st : Bool) : Bool :=
  let inexact := r != 0 || st
  match m.rm with
  | .rne =>
    let h := 2 ^ sh
    2 * r > h || (2 * r == h && (st || n % 2 == 1))
  | .rtz => false
  | .rup => inexact && !neg
  | .rdn => inexact && neg
  | .sr _ => inexact && r * 2 ^ 16 / 2 ^ sh > m.g

/-- The rounded magnitude as an encoding with an unbounded exponent (R171). -/
def roundMag (f : FFmt) (md : RMode) (neg : Bool) (m : Nat) (e : Int) (st : Bool) : Nat :=
  let top : Int := e + bitLen m - 1 - f.mb
  let q : Int := max f.qmin top
  let base := (q - f.qmin).toNat * 2 ^ f.mb
  if q ≤ e then
    let n := m * 2 ^ (e - q).toNat
    base + n + (if roundUp md neg n 0 0 st then 1 else 0)
  else
    let sh := (q - e).toNat
    let n := m / 2 ^ sh
    base + n + (if roundUp md neg n (m % 2 ^ sh) sh st then 1 else 0)

/-- Puts a sign on a magnitude. -/
def withSign (f : FFmt) (neg : Bool) (x : Nat) : Nat := x + (if neg then 2 ^ (f.eb + f.mb) else 0)

/-- What an overflow gives (R174). -/
def ovfResult (f : FFmt) (md : RMode) (sat neg : Bool) : Nat :=
  match f.sp with
  | .none => withSign f neg f.maxFin
  | .e4m3 => if sat then withSign f neg f.maxFin else f.nan
  | .ieee =>
    let big := withSign f neg f.maxFin
    let inf := withSign f neg ((2 ^ f.eb - 1) * 2 ^ f.mb)
    if sat then big
    else
      match md.rm with
      | .rne | .sr _ => inf
      | .rtz => big
      | .rup => if neg then big else inf
      | .rdn => if neg then inf else big

/-- A rounded result and the flags of R179 it raises. -/
structure FRes where
  bits : Nat
  ovf : Bool := false
  inv : Bool := false
  nanl : Bool := false
  deriving DecidableEq, Repr, Inhabited

/-- `round_to(fmt, mode, v)` with the overflow bit (R8, R171, R174, R175). -/
def roundTo (f : FFmt) (md : RMode) (sat : Bool) : FV → FRes
  | .nan => { bits := f.nan, nanl := f.sp == .none }
  | .inf n =>
    match f.sp with
    | .ieee => { bits := withSign f n ((2 ^ f.eb - 1) * 2 ^ f.mb) }
    | _ => { bits := ovfResult f md sat n, ovf := true }
  | .fin n m e st =>
    if m = 0 && !st then { bits := withSign f n 0 }
    else
      let r := roundMag f md n m e st
      if r > f.maxFin then { bits := ovfResult f md sat n, ovf := true }
      else { bits := withSign f n r }

/-- The value of an E8M0 scale as a power of two; `none` for NaN (R164). -/
def scaleExp (x : Byte) : Option Int := if x == 0xFF then none else some ((x.toNat : Int) - 127)

/-- Rounds an exact value to an integer under a mode (R175): the integer, before any clamp. -/
def roundInt (md : RMode) (n : Bool) (m : Nat) (e : Int) (st : Bool) : Int :=
  let mag : Nat :=
    if 0 ≤ e then
      let a := m * 2 ^ e.toNat
      a + (if roundUp md n a 0 0 st then 1 else 0)
    else
      let sh := (-e).toNat
      let a := m / 2 ^ sh
      a + (if roundUp md n a (m % 2 ^ sh) sh st then 1 else 0)
  if n then -(mag : Int) else mag

/-- `floor(log2 |v|)` of a nonzero exact value. -/
def log2Floor (m : Nat) (e : Int) : Int := e + bitLen m - 1

/-- The largest finite exponent of a block element format (R96). -/
def emaxOf (f : FFmt) : Int :=
  if f = FFmt.e4m3 then 8 else if f = FFmt.e5m2 then 15 else if f = FFmt.e3m2 then 4 else 2

/-- The scale byte of a block of exact values (R96, step 2). -/
def blockScale (f : FFmt) (vs : List FV) : Byte :=
  if vs.any (fun v => v.isNan || v.isInf) then 0xFF
  else
    let exps := vs.filterMap (fun v =>
      match v with
      | .fin _ m e _ => if m = 0 then none else some (log2Floor m e)
      | _ => none)
    match exps with
    | [] => 0
    | x :: t =>
      let s := (t.foldl max x) - emaxOf f
      BitVec.ofInt 8 (min 127 (max (-127) s) + 127)

/-- The elements of a block under its scale (R96, step 3): encodings. -/
def blockElems (f : FFmt) (sc : Byte) (vs : List FV) : List Nat :=
  match scaleExp sc with
  | none => vs.map (fun _ => f.nan)
  | some k => vs.map (fun v => (roundTo f .rne true (v.scale (-k))).bits)

/-- The value of a block element under its scale (R166). Under scale 0xFF an infinite element is NaN like the others (log entry 92). -/
def mxValue (f : FFmt) (sc : Byte) (x : Nat) : FV :=
  match scaleExp sc with
  | none => .nan
  | some k => (fdecode f x).scale k

/-- The format of a scalar floating-point type (R261). -/
def ftyFmt : FTy → FFmt
  | .f32 => .f32
  | .f64 => .f64
  | .f16 => .f16
  | .bf16 => .bf16

end Sys2Proof.Machine
end

