-- ==== Sys2Proof/Machine/Gen.lean ====
section
/-! DEFINITION. The generator classes of a core (14 R347, R348), which stochastic rounding (06 R172) and the pulp unit
share. -/

namespace Sys2Proof.Machine

/-- The feedback mask of an LFSR class (R347). -/
def lfsrPoly : Nat → Nat
  | 0 => 0x80000057
  | 1 => 0x80000062
  | 2 => 0x8000007A
  | 3 => 0x80000092
  | 4 => 0x800000B9
  | 5 => 0x800000BA
  | 6 => 0x80000106
  | _ => 0x80000114

/-- The seed of an LFSR class (R347). -/
def lfsrSeed (c : Nat) : Nat := 0x9E3779B9 ^^^ (c * 0x01010101)

/-- One step of a Galois LFSR (R347). -/
def lfsrStep (c s : Nat) : Nat := if s % 2 = 1 then (s / 2) ^^^ lfsrPoly c else s / 2

/-- A linear map of 32-bit words by the images of the 32 bits, applied. -/
def linApply (m : List Nat) (x : Nat) : Nat :=
  (m.zipIdx).foldl (fun acc p => if bitAt x p.2 then acc ^^^ p.1 else acc) 0

/-- Composition of linear maps. -/
def linMul (a b : List Nat) : List Nat := b.map (linApply a)

/-- The state after `i` steps, by squaring: `n` bits of `i` remain. -/
def lfsrJump : Nat → Nat → List Nat → Nat → Nat
  | 0, _, _, s => s
  | n + 1, i, m, s => lfsrJump n (i / 2) (linMul m m) (if i % 2 = 1 then linApply m s else s)

/-- The map of one step. -/
def lfsrMap (c : Nat) : List Nat := (List.range 32).map (fun j => lfsrStep c (2 ^ j))

/-- Degree, coefficient and initial numbers of a Sobol class (R348). -/
def sobolInit : Nat → Nat × Nat × List Nat
  | 9 => (1, 0, [1])
  | 10 => (2, 1, [1, 3])
  | 11 => (3, 1, [1, 3, 1])
  | 12 => (3, 2, [1, 1, 1])
  | 13 => (4, 1, [1, 1, 3, 3])
  | _ => (4, 4, [1, 3, 5, 13])

/-- The next number of a Sobol class from those before it, newest first (R348). -/
def sobolNext (s a : Nat) (rev : List Nat) : Nat :=
  let m (back : Nat) : Nat := (rev[back - 1]?).getD 0
  (List.range (s - 1)).foldl
    (fun acc q => if bitAt a (s - 2 - q) then acc ^^^ (m (q + 1) * 2 ^ (q + 1)) else acc)
    (m s ^^^ (m s * 2 ^ s))

/-- `n` more numbers of a Sobol class, newest first. -/
def sobolGrow (s a : Nat) : Nat → List Nat → List Nat
  | 0, rev => rev
  | n + 1, rev => sobolGrow s a n (sobolNext s a rev :: rev)

/-- The direction numbers of classes 8 to 14 (R348). -/
def sobolDirs (c : Nat) : List Nat :=
  if c = 8 then (List.range 16).map (fun j => 0x8000 / 2 ^ j)
  else
    let (s, a, ms) := sobolInit c
    (sobolGrow s a (16 - s) ms.reverse).reverse.zipIdx.map (fun p => p.1 * 2 ^ (15 - p.2))

/-- The value `G_c[i]` of a generator class (R347, R348). -/
def genVal (c i : Nat) : Nat :=
  if c < 8 then lfsrJump 32 (i % (2 ^ 32 - 1)) (lfsrMap c) (lfsrSeed c) / 2 ^ 16
  else
    (sobolDirs c).zipIdx.foldl (fun acc p => if bitAt i p.2 then acc ^^^ p.1 else acc) 0 % 2 ^ 16

/-- `n` states of an LFSR from a state. -/
def lfsrRun (c : Nat) : Nat → Nat → List Nat
  | 0, _ => []
  | n + 1, s => s / 2 ^ 16 :: lfsrRun c n (lfsrStep c s)

/-- The first `n` values of a class (R347, R348). -/
def genRun (c n : Nat) : List Nat :=
  if c < 8 then lfsrRun c n (lfsrSeed c)
  else
    let v := sobolDirs c
    (List.range n).map (fun i => v.zipIdx.foldl (fun acc p => if bitAt i p.2 then acc ^^^ p.1 else acc) 0 % 2 ^ 16)

end Sys2Proof.Machine
end

