-- ==== Sys2Proof/WellFormed.lean ====
section
/-! DEFINITION. Which instructions are legal: the operand classes, widths, guards and sub-field values that
R215 to R221 and each instruction's description allow. An illegal word raises the illegal-instruction trap (R227). -/

namespace Sys2Proof

namespace Opd

/-- A k register. -/
def isK : Opd → Bool
  | .k _ => true
  | _ => false

/-- A w register. -/
def isW : Opd → Bool
  | .w _ => true
  | _ => false

/-- A w pair. -/
def isWp : Opd → Bool
  | .wp _ => true
  | _ => false

/-- A q register. -/
def isQ : Opd → Bool
  | .q _ => true
  | _ => false

/-- A z register. -/
def isZ : Opd → Bool
  | .z _ => true
  | _ => false

/-- A small immediate. -/
def isSi : Opd → Bool
  | .si _ => true
  | _ => false

/-- An imm19 operand. -/
def isIm : Opd → Bool
  | .im _ => true
  | _ => false

/-- The field 0x00 that a form leaves unused (R232). -/
def isNone (o : Opd) : Bool := o == .w 0

/-- A destination of the given width (R217, R218, R252). -/
def okD (w64 : Bool) : Opd → Bool
  | .w _ => !w64
  | .wp _ => w64
  | .k _ => true
  | .q _ => true
  | _ => false

/-- A register source of the given width (R217, R218, R252). -/
def okS (w64 : Bool) : Opd → Bool
  | .w _ => !w64
  | .wp _ => w64
  | .k _ => true
  | .q _ => true
  | .sp _ => true
  | .si _ => true
  | _ => false

/-- Operand B, which may be imm19 (R216). -/
def okB (w64 : Bool) (o : Opd) : Bool := o.okS w64 || o.isIm

/-- A source that a uniform instruction may take (R218). -/
def okUni : Opd → Bool
  | .k _ => true
  | .sp _ => true
  | .si _ => true
  | .im _ => true
  | _ => false

end Opd

/-- The hard-wired true predicate (R215). -/
def Hdr.isTrue (h : Hdr) : Bool := h.ng && !h.gf && h.gr == 0 && h.gb == 0

/-- A guard that uniform instructions accept: a k guard or the true predicate (R215). -/
def Hdr.uni (h : Hdr) : Bool := h.gf || h.isTrue

/-- Classes and guard of a register instruction (R215, R217, R218): destination, sources. -/
def aluOk (h : Hdr) (d : Opd) (srcs : List Opd) : Bool :=
  !d.isK || (h.uni && srcs.all Opd.okUni)

/-- Two-source integer form: width by wd; imm19 allowed in B (R216, R256). -/
def int3Ok (h : Hdr) (m : IntMod) (d a b : Opd) (sat sg wd : Bool) : Bool :=
  (sat || !m.sat) && (sg || !m.sg) && (wd || !m.wd) && m.f == 0 &&
  d.okD m.wd && a.okS m.wd && b.okB m.wd && aluOk h d [a, b]

/-- Three-source integer form (R256). -/
def int4Ok (h : Hdr) (m : IntMod) (d a b c : Opd) (sat sg wd : Bool) : Bool :=
  (sat || !m.sat) && (sg || !m.sg) && (wd || !m.wd) && m.f == 0 &&
  d.okD m.wd && a.okS m.wd && b.okS m.wd && c.okS m.wd && aluOk h d [a, b, c]

/-- One-source integer form (R256). -/
def int2Ok (h : Hdr) (m : IntMod) (d a : Opd) (sat : Bool) : Bool :=
  (sat || !m.sat) && !m.sg && m.f == 0 && d.okD m.wd && a.okS m.wd && aluOk h d [a]

/-- The rounding code's class is below 15 (R172). -/
def Rnd.ok : Rnd → Bool
  | .sr c => c != 15
  | _ => true

/-- The code is 4 (R171). -/
def Rnd.isSr : Rnd → Bool
  | .sr _ => true
  | _ => false

/-- The type is 64 bits wide. -/
def FTy.w64 : FTy → Bool
  | .f64 => true
  | _ => false

/-- imm19 as a floating-point operand of the type (R216). -/
def FTy.immOk (t : FTy) : Opd → Bool
  | .im v => match t with
    | .f32 | .f64 => true
    | .f16 | .bf16 => v.extractLsb' 0 3 == 0
  | _ => true

/-- `noF64` instructions, allowed rounding codes and overflow bit of R262. -/
def FpMod.ok (m : FpMod) (f64 : Bool) (sr : Bool) (dir : Bool) (sat : Bool) : Bool :=
  (f64 || m.ty != .f64) && m.rm.ok && (sr || !m.rm.isSr) && (dir || m.rm == .rne) && (sat || !m.sat)

/-- Two-source scalar floating-point form. -/
def fp3Ok (h : Hdr) (m : FpMod) (d a b : Opd) : Bool :=
  d.okD m.ty.w64 && a.okS m.ty.w64 && b.okB m.ty.w64 && m.ty.immOk b && (!b.isIm || !m.rm.isSr) &&
  aluOk h d [a, b]

/-- Three-source scalar floating-point form. -/
def fp4Ok (h : Hdr) (m : FpMod) (d a b c : Opd) : Bool :=
  d.okD m.ty.w64 && a.okS m.ty.w64 && b.okS m.ty.w64 && c.okS m.ty.w64 && aluOk h d [a, b, c]

/-- One-source scalar floating-point form. -/
def fp2Ok (h : Hdr) (m : FpMod) (d a : Opd) : Bool :=
  d.okD m.ty.w64 && a.okS m.ty.w64 && aluOk h d [a]

/-- Packed form: imm19 under the 16-bit rule (R216, R266). -/
def hp3Ok (h : Hdr) (m : HpMod) (d a b : Opd) : Bool :=
  m.rm.ok && d.okD false && a.okS false && b.okB false && FTy.f16.immOk b && (!b.isIm || !m.rm.isSr) &&
  aluOk h d [a, b]

/-- Packed form with three sources. -/
def hp4Ok (h : Hdr) (m : HpMod) (d a b c : Opd) : Bool :=
  m.rm.ok && !m.rm.isSr && d.okD false && a.okS false && b.okS false && c.okS false && aluOk h d [a, b, c]

/-- 64-bit conversion types. -/
def CTy.w64 : CTy → Bool
  | .f64 | .i64 | .n64 => true
  | _ => false

/-- A memory operand of a per-thread form (R294). -/
def MemOp.ok (uni : Bool) : MemOp → Bool
  | .reg base idx _ _ =>
    (base.isK || (!uni && (base.isW || base.isWp))) && (idx.isK || idx.isNone || (!uni && idx.isW))
  | .imm base _ => base.isK || (!uni && (base.isW || base.isWp))

/-- An 8-byte access size (R295). -/
def Sz.is64 : Sz → Bool
  | .b64 => true
  | _ => false

/-- Destination of a per-thread load (R295, R296). -/
def ldOk (h : Hdr) (sz : Sz) (d : Opd) (m : MemOp) : Bool :=
  let _ := h
  (match sz with | .b64 | .i32x => d.isWp | _ => d.isW) && m.ok false

/-- Data operand of a per-thread store (R295, R296). -/
def stOk (h : Hdr) (sz : Sz) (d : Opd) (m : MemOp) : Bool :=
  let _ := h
  (match sz with
    | .b64 => d.isWp || d.isK
    | .b32 | .n8 | .n16 => d.isW || d.isK
    | _ => false) && m.ok false

/-- A uniform load (R296). -/
def ldkOk (h : Hdr) (d : Opd) (m : MemOp) : Bool := h.uni && d.isK && m.ok true

/-- A uniform store (R296). -/
def stkOk (h : Hdr) (sz : Sz) (d : Opd) (m : MemOp) : Bool :=
  (match sz with | .b64 | .b32 | .n8 | .n16 => true | _ => false) && h.uni && d.isK && m.ok true

/-- 64-bit atomic types (R301). -/
def ATy.w64 : ATy → Bool
  | .i64 | .n64 => true
  | _ => false

/-- A value operand of an atomic (R301): the classes that it accepts are the model's choice (log entry 112). -/
def atVal (w64 : Bool) : Opd → Bool
  | .w _ => !w64
  | .wp _ => w64
  | .k _ => true
  | .si _ => true
  | _ => false

/-- Operands of an atomic: `glob` for the global forms (R301, R303). -/
def atOk (h : Hdr) (m : AtMod) (glob : Bool) (d a : Opd) (vals : List Opd) : Bool :=
  (d.isK || (if m.ty.w64 then d.isWp else d.isW)) &&
  (a.isK || (if glob then a.isWp else a.isW)) &&
  vals.all (atVal m.ty.w64) &&
  (!d.isK || (h.uni && a.isK && vals.all Opd.okUni))

/-- The operations that a type admits (R301). -/
def atOpOk (m : AtMod) : AOp → Bool
  | .add | .min | .max | .exch => true
  | .and | .or | .xor => m.ty != .f32

/-- Completion scope: `.wg` without `.cw`, never `.wp` (R308). -/
def CwMod.ok (c : CwMod) : Bool := c.sc != .wp && (c.cw || c.sc == .wg)

/-- The register that names the completion word's offset: 0x00 without `.cw` (R319). -/
def cwReg (c : CwMod) (o : Opd) : Bool := if c.cw then o.isK else o.isNone

/-- A 64-bit key or address source (R317). -/
def kSrc (o : Opd) : Bool := o.isK || o.isWp

/-- A key-arithmetic form with a 64-bit result (R317). -/
def keyOk (h : Hdr) (d a : Opd) : Bool := kSrc d && kSrc a && (!d.isK || (h.uni && a.isK))

/-- The 32-bit second source of a key-arithmetic form (R317). -/
def key32 (d b : Opd) : Bool := (b.isW || b.isK || b.isSi || b.isIm) && (!d.isK || b.okUni)

/-- Operands of a lookup or pin (R318). -/
def lookOk (h : Hdr) (d a e : Opd) : Bool :=
  if d.isK then h.uni && a.isK && e.isK else d.isWp && kSrc a && e.isW

/-- Registers of a run (R351). -/
def runLen (r : BitVec 2) : Nat := 2 ^ r.toNat

/-- A z operand whose run does not pass z31 (R351). -/
def zOk (run : BitVec 2) : Opd → Bool
  | .z i => i.toNat + runLen run ≤ 32
  | _ => false

/-- A half's operand: classes 000, 001, 101, and the bank pairing rule (R221). -/
def halfOpd (odd : Bool) (dest : Bool) : Opd → Bool
  | .w i => i.getLsbD 0 == odd
  | .k _ => true
  | .si _ => !dest
  | _ => false

/-- The fields a half-opcode uses: destination and A, and operand B (R223). -/
def Hop.uses : Hop → Bool × Bool
  | .nop => (false, false)
  | .mov => (true, false)
  | _ => (true, true)

/-- One half obeys R218 and R221. -/
def Half.ok (p : Half) (odd : Bool) : Bool :=
  match p.op.uses with
  | (false, _) => p.d.isNone && p.a.isNone && p.b.isNone
  | (true, false) =>
    halfOpd odd true p.d && halfOpd odd false p.a && p.b.isNone && (!p.d.isK || p.a.okUni)
  | (true, true) =>
    halfOpd odd true p.d && halfOpd odd false p.a && halfOpd odd false p.b &&
    (!p.d.isK || (p.a.okUni && p.b.okUni))

/-- The two halves do not write one register (R221). -/
def pairOk (p0 p1 : Half) : Bool :=
  p0.ok false && p1.ok true && (p0.op == .nop || p1.op == .nop || p0.d != p1.d)

/-- A guard that only the true predicate satisfies (R282). -/
def Hdr.tt (h : Hdr) : Bool := h.isTrue

/-- The largest number of bytes a posted write carries (R444). -/
def maxPayload : Nat := 512

/-- The legality of an instruction (R211 to R227 and the instruction descriptions). Of a packet or an event it says that
its indices lie in the machine. -/
def Instr.wf : Instr → Bool
  | .iadd h m d a b => int3Ok h m d a b true true true
  | .isub h m d a b => int3Ok h m d a b true true true
  | .imul h m d a b => int3Ok h m d a b true true true
  | .imulh h m d a b => int3Ok h m d a b false true true
  | .imad h m d a b c => int4Ok h m d a b c true true true
  | .idiv h m d a b => int3Ok h m d a b true true true
  | .irem h m d a b => int3Ok h m d a b false true true
  | .imin h m d a b => int3Ok h m d a b false true true
  | .imax h m d a b => int3Ok h m d a b false true true
  | .iabs h m d a => int2Ok h m d a true
  | .and h m d a b => int3Ok h m d a b false false true
  | .or h m d a b => int3Ok h m d a b false false true
  | .xor h m d a b => int3Ok h m d a b false false true
  | .andn h m d a b => int3Ok h m d a b false false true
  | .shl h m d a b => int3Ok h m d a b false false true
  | .shr h m d a b => int3Ok h m d a b false false true
  | .sar h m d a b => int3Ok h m d a b false false true
  | .rot h m d a b =>
    (m.f == 0 || m.f == 1) && int3Ok h { m with f := 0 } d a b false false true
  | .bfx h m d a b => int3Ok h m d a b false true true
  | .bfi h m d a b c => int4Ok h m d a b c false false true
  | .popc h m d a => int2Ok h m d a false
  | .clz h m d a => int2Ok h m d a false
  | .ctz h m d a => int2Ok h m d a false
  | .brev h m d a => int2Ok h m d a false
  | .mov h m d a => int2Ok h m d a false
  | .movi h m d v =>
    !m.sat && !m.sg && m.f.toNat < 4 && d.okD m.wd && aluOk h d [] &&
    (m.f == 0 || (!d.isQ && v.extractLsb' 16 3 == 0)) && (m.f.toNat < 2 || m.wd)
  | .bperm h m d a b c => int4Ok h m d a b c false false false
  | .idot4 h m d a b c => int4Ok h m d a b c true true false
  | .guardFalseNop => true
  | .fadd h m d a b => m.ok true true true true && fp3Ok h m d a b
  | .fsub h m d a b => m.ok true true true true && fp3Ok h m d a b
  | .fmul h m d a b => m.ok true true true true && fp3Ok h m d a b
  | .ffma h m d a b c => m.ok true false true true && fp4Ok h m d a b c
  | .fmin h m d a b => m.ok true false false false && fp3Ok h m d a b
  | .fmax h m d a b => m.ok true false false false && fp3Ok h m d a b
  | .fdiv h m d a b => m.ok true true true true && fp3Ok h m d a b
  | .fsqrt h m d a => m.ok true true true false && fp2Ok h m d a
  | .frcp h m d a => m.ok false false true true && fp2Ok h m d a
  | .frsq h m d a => m.ok false false true false && fp2Ok h m d a
  | .fexp2 h m d a => m.ok false false true true && fp2Ok h m d a
  | .flog2 h m d a => m.ok false false true false && fp2Ok h m d a
  | .fsin h m d a => m.ok false false true false && fp2Ok h m d a
  | .fcos h m d a => m.ok false false true false && fp2Ok h m d a
  | .ftanh h m d a => m.ok false false true false && fp2Ok h m d a
  | .frnd h m d a => m.ok true false true false && fp2Ok h m d a
  | .h2add h m d a b => hp3Ok h m d a b
  | .h2mul h m d a b => hp3Ok h m d a b
  | .h2fma h m d a b c => hp4Ok h m d a b c
  | .h2min h m d a b => m.rm == .rne && !m.sat && hp3Ok h m d a b
  | .h2max h m d a b => m.rm == .rne && !m.sat && hp3Ok h m d a b
  | .fdot2 h m d a b c => hp4Ok h m d a b c
  | .fscl h m d a b =>
    m.ok true true true true && d.okD m.ty.w64 && a.okS m.ty.w64 && b.okB false &&
    (!b.isIm || !m.rm.isSr) && aluOk h d [a, b]
  | .fclass h m d a =>
    m.ok true false false false && d.okD false && a.okS m.ty.w64 && aluOk h d [a]
  | .icmp h cond _ _ w64 _ _ d a b =>
    cond.toNat < 6 && (d.isW || d.isK) && a.okS w64 && b.okS w64 && aluOk h d [a, b]
  | .fcmp h _ _ lo hi _ _ d a b =>
    let w := hi && !lo
    (d.isW || d.isK) && a.okS w && b.okS w && aluOk h d [a, b]
  | .sel h _ w64 d a b c => d.okD w64 && a.okS w64 && b.okS w64 && c.okS false && aluOk h d [a, b, c]
  | .cvt h rm _ dt sty d a => rm.ok && d.okD dt.w64 && a.okS sty.w64 && aluOk h d [a]
  | .pack h _ d a b c => d.okD false && a.okS false && b.okS false && c.okS false && aluOk h d [a, b, c]
  | .unpk h _ _ d a b => d.okD false && a.okS false && b.okB false && aluOk h d [a, b]
  | .t3enc h d a => d.okD false && (a.isWp || a.isK) && aluOk h d [a]
  | .t3dec h d a => (d.isWp || d.isK) && a.okS false && aluOk h d [a]
  | .mxscl h fmt d a => fmt.toNat < 5 && d.okD false && a.okS false && aluOk h d [a]
  | .shfl h _ b64 d a b => d.okD b64 && a.okS b64 && b.okB false && aluOk h d [a, b]
  | .vote h mode d a b => mode != 3 && d.okD false && a.okS false && b.okB false && aluOk h d [a, b]
  | .redi h op sat _ wd d a =>
    op.toNat < 6 && (!sat || op == 0) && d.okD wd && a.okS wd && aluOk h d [a]
  | .redf h op ty d a => op != 3 && d.okD ty.w64 && a.okS ty.w64 && aluOk h d [a]
  | .scan h op _ _ wd d a => op.toNat < 6 && d.okD wd && a.okS wd && aluOk h d [a]
  | .topk h ty _ d a b =>
    ty != 3 && d.okD false && a.okS false && (b.isK || b.isSi || b.isIm) && aluOk h d [a, b]
  | .topkm h ty _ d a b c =>
    ty != 3 && d.okD false && a.okS false && (b.isK || b.isSi) && c.okS false && aluOk h d [a, b, c]
  | .matchEq h b64 d a => d.okD false && a.okS b64 && aluOk h d [a]
  | .br _ _ => true
  | .bru h _ => h.uni
  | .jn h => h.tt
  | .call h _ => h.uni
  | .ret h => h.tt
  | .loop h _ cnt => h.tt && (cnt.isK || (match cnt with | .im v => !v.getLsbD 18 | _ => false))
  | .brl h _ => h.tt
  | .exit _ => true
  | .jmp h a => h.uni && a.isK
  | .calli h a => h.uni && a.isK
  | .rgn h => h.tt
  | .rds h d _ => (d.isW || d.isWp || d.isK) && (!d.isK || h.uni)
  | .rdsId h d ix => (d.isW || d.isWp || d.isK) && (!d.isK || h.uni) && ix.toNat < 2
  | .wrs h ix src => h.uni && (ix == 7 || ix == 26 || ix == 27) && (src.isK || src.isSi || src.isIm)
  | .pairWord _ p0 p1 => pairOk p0 p1
  | .ld h sz _ d m => ldOk h sz d m
  | .st h sz _ d m => stOk h sz d m
  | .stNt h sz d m => stOk h sz d m
  | .ldk h _ _ d m => ldkOk h d m
  | .stk h sz _ d m => stkOk h sz d m
  | .lds h sz _ d m => ldOk h sz d m
  | .sts h sz _ d m => stOk h sz d m
  | .ldsk h _ _ d m => ldkOk h d m
  | .ldskH h d m => ldkOk h d m
  | .stsk h sz _ d m => stkOk h sz d m
  | .atom h m op d a b => atOk h m true d a [b] && atOpOk m op
  | .atoms h m op d a b => atOk h m false d a [b] && atOpOk m op
  | .cas h m d a b c => m.ty != .f32 && atOk h m true d a [b, c]
  | .cass h m d a b c => m.ty != .f32 && atOk h m false d a [b, c]
  | .fence h form _ => h.uni && form != .rlx
  | .ntdrain h => h.uni
  | .cmntWb h a b => h.uni && a.isK && (b.isK || b.isIm)
  | .cmntInv h a b => h.uni && a.isK && (b.isK || b.isIm)
  | .cmntWbi h a b => h.uni && a.isK && (b.isK || b.isIm)
  | .prf _ _ m => m.ok false
  | .cpy h _ cw d a b c => h.uni && cw.ok && d.isK && a.isK && b.isK && c.isK
  | .cpyk h _ cw d a b c => h.uni && cw.ok && d.isK && a.isK && b.isK && c.isK
  | .waita h _ _ _ _ a b => h.uni && a.isK && (b.isK || b.isSi)
  | .htest h d a => h.uni && (d.isW || d.isK) && a.isK
  | .hcan h a => h.uni && a.isK
  | .qbind h d a b => h.uni && d.isQ && (a.isK || a.isSi) && (b.isK || b.isIm)
  | .send h _ a => h.uni && a.isK
  | .recv h _ a => h.uni && a.isK
  | .qlen h d a => h.uni && (d.isW || d.isK) && a.isQ
  | .kmk h d a b => keyOk h d a && key32 d b
  | .kpar h d a => keyOk h d a
  | .kchd h d a b => keyOk h d a && key32 d b
  | .knbr h d a b => keyOk h d a && key32 d b
  | .klv h d a => (d.isK || d.isW) && kSrc a && (!d.isK || (h.uni && a.isK))
  | .kcrd h d a => keyOk h d a
  | .klook h d a e => lookOk h d a e
  | .klookW h d a e => lookOk h d a e
  | .kown h d a => (d.isK || d.isW) && kSrc a && (!d.isK || (h.uni && a.isK))
  | .kpinR h d a e => lookOk h d a e
  | .kpinW h d a e => lookOk h d a e
  | .kunpinR h a => kSrc a && (!a.isK || h.uni)
  | .kunpinW h a => kSrc a && (!a.isK || h.uni)
  | .refine h cw d a b c =>
    h.uni && cw.ok && d.isK && a.isK && (b.isK || (b.isIm && !cw.cw)) && cwReg cw c
  | .coarsen h cw d a c => h.uni && cw.ok && d.isK && a.isK && cwReg cw c
  | .rebal h cw d a b c =>
    h.uni && cw.ok && d.isK && (a.isK || (match a with | .si v => !v.getLsbD 4 | _ => false)) && b.isK &&
    cwReg cw c
  | .shovGive h d a => h.uni && d.isK && (a.isK || a.isSi)
  | .shovTake h cw d a c => h.uni && cw.ok && d.isK && (a.isK || a.isSi) && cwReg cw c
  | .mma h _ _ kind _ _ d a b => h.uni && kind != 3 && d.isK && a.isK && b.isK
  | .mdrn h _ cw d a => h.uni && cw.ok && d.isK && a.isK
  | .acpTs h _ a nb => h.uni && a.isK && (nb.isK || nb.isSi)
  | .acpFs h _ a nb => h.uni && a.isK && (nb.isK || nb.isSi)
  | .acpCkTs h _ a nb => h.uni && a.isK && (nb.isK || nb.isSi)
  | .acpCkFs h _ a nb => h.uni && a.isK && (nb.isK || nb.isSi)
  | .mmv h cw d a => h.uni && cw.ok && d.isK && a.isK
  | .mzero h _ _ _ _ _ => h.uni
  | .sgenQ h run cls d a => h.uni && cls != 15 && zOk run d && a.isQ
  | .sgenK h run cls d a => h.uni && cls != 15 && zOk run d && a.isK
  | .sand h run d a b => h.uni && zOk run d && zOk run a && zOk run b
  | .sandC h run d a b => h.uni && zOk run d && zOk run a && zOk run b
  | .sor h run d a b => h.uni && zOk run d && zOk run a && zOk run b
  | .sorC h run d a b => h.uni && zOk run d && zOk run a && zOk run b
  | .sxor h run d a b => h.uni && zOk run d && zOk run a && zOk run b
  | .sxorC h run d a b => h.uni && zOk run d && zOk run a && zOk run b
  | .sxnor h run d a b => h.uni && zOk run d && zOk run a && zOk run b
  | .smux h run d a b s => h.uni && zOk run d && zOk run a && zOk run b && zOk run s
  | .sregen h run cls d a => h.uni && cls != 15 && zOk run d && zOk run a
  | .scnt h d a b =>
    h.uni && zOk 0 a &&
    (if d.isQ then b.isNone
     else (d.isW || d.isK) && (b.isK || (match b with | .si v => !v.getLsbD 4 | _ => false)))
  | .scntr h d a => h.uni && zOk 0 a && (d.isQ || d.isW || d.isK)
  | .sinv h run d a => h.uni && zOk run d && zOk run a
  | .slen h run d b =>
    h.uni && zOk run d && (b.isK || (match b with | .si v => v.toNat < 4 | _ => false))
  | .smovZ h run d a => h.uni && zOk run d && zOk run a
  | .smovTs h run a b => h.uni && zOk run a && b.isK
  | .smovFs h run d b => h.uni && zOk run d && b.isK
  | .smovSt h d a => h.uni && d.isK && zOk 0 a
  | .slvb h m _ a b => h.uni && m != 0 && m != 7 && a.isK && b.isK
  | .slvx h => h.uni
  | .acq h => h.uni
  | .rel h => h.uni
  | .bar h _ => h.uni
  | .fetchIdx h d e => h.uni && d.isK && e.isK
  | .fetchTask h flt d e =>
    h.uni && d.isK && e.isK && (match flt with | none => true | some b => b.isK || b.isSi)
  | .deviceSideLaunch h d a => h.uni && d.isK && a.isK
  | .join h d a => h.uni && d.isK && a.isK
  | .trel h d a => h.uni && d.isK && a.isK
  | .tabn h d a => h.uni && d.isK && a.isK
  | .trap h _ => h.uni
  | .tret h => h.uni
  | .tretTo h a => h.uni && a.isK
  | .tretCtx h a => h.uni && a.isK
  | .tmskM h => h.uni
  | .tmskU h => h.uni
  | .brk h _ => h.uni
  | .pmskD h => h.uni
  | .pmskA h => h.uni
  | .evnt h a _ => h.uni && a.isK
  | .impreciseFaultReturn f => f.die < 4 && f.core < 96
  | .watchdogTrap f => f.die < 4 && f.core < 96
  | .registerResultWrite _ => true
  | .lineFillReturn _ => true
  | .homeRequest _ => true
  | .writeAcknowledge _ => true
  | .notOwnerResponse _ => true
  | .movedResponse _ => true
  | .busyRetryResponse _ => true
  | .clusterStoreEviction die cl _ => die < 4 && cl < 12
  | .pageWalk _ => true
  | .walkResume _ => true
  | .leaveGrant die _ => die < 4
  | .handoverStart s => s < 8
  | .handoverWriteback s => s < 8
  | .handoverShootdown s => s < 8
  | .ownerFlip s => s < 8
  | .handoverFinish s => s < 8
  | .pageMoveStart _ => true
  | .pageMoveRewrite _ => true
  | .pageMoveFinish _ => true
  | .copyCommandStart die core => die < 4 && core < 97
  | .gatherKeyStep _ => true
  | .commandComplete _ => true
  | .waitaWake f => f.die < 4 && f.core < 96
  | .queueDead f => f.die < 4 && f.core < 96
  | .barrierComplete die core _ _ => die < 4 && core < 96
  | .formerStartWarp die core _ => die < 4 && core < 96
  | .binRipe die core _ bin => die < 4 && core < 96 && bin < 8
  | .formerSwapOut die core _ => die < 4 && core < 96
  | .costAdd f => f.die < 4 && f.core < 96
  | .directoryOperation _ => true
  | .rebalanceNotify _ => true
  | .rebalancePlan sp => sp < 16
  | .rebalanceStops sp => sp < 16
  | .patienceExpiry sp => sp < 16
  | .rebalanceAbort sp => sp < 16
  | .rebalanceCommit sp => sp < 16
  | .deckleInvalidate sp die => sp < 16 && die < 4
  | .deckleInstall sp die => sp < 16 && die < 4
  | .matrixLeaseGrant die core => die < 4 && core < 96
  | .pulpLeaseGrant die core => die < 4 && core < 96
  | .leasePass die core _ => die < 4 && core < 96
  | .allotmentGrant die core => die < 4 && core < 96
  | .mmvStart _ => true
  | .calenderStep die core _ => die < 4 && core < 96
  | .rotation die core => die < 4 && core < 96
  | .preemptionRequest die core _ => die < 4 && core < 96
  | .preemptionHandlerEntry die core _ warp => die < 4 && core < 96 && warp < 128
  | .preemptionOverdue die core _ => die < 4 && core < 96
  | .workgroupRestore die core _ => die < 4 && core < 96
  | .signal die q _ _ addr _ _ => die < 4 && q < 64 && addr.toNat % 8 == 0
  | .waitSignal die q _ _ addr _ _ => die < 4 && q < 64 && addr.toNat % 8 == 0
  | .waitSignalMet die q => die < 4 && q < 64
  | .launch die q _ _ _ => die < 4 && q < 64
  | .spanLaunch _ _ recs shares _ _ => recs.length == 4 && shares.length == 4
  | .copy die q _ _ _ _ len _ cwv =>
    die < 4 && q < 64 && 0 < len.toNat && len.toNat ≤ 2 ^ 31 && !cwv.getLsbD 63
  | .pageMove die q _ _ _ _ _ _ _ _ _ => die < 4 && q < 64
  | .spaceCreate die q _ _ _ sp => die < 4 && q < 64 && sp.toNat < 16
  | .spaceDestroy die q _ _ sp => die < 4 && q < 64 && sp.toNat < 16
  | .eventConfig die q _ _ _ _ _ => die < 4 && q < 64
  | .nopPacket die q _ _ => die < 4 && q < 64
  | .gridDispatch die _ => die < 4
  | .gridComplete die _ => die < 4
  | .queueDoorbell fn q _ => fn < 5 && q < 64
  | .queueEnable fn q w0 => fn < 5 && q < 64 && w0.getLsbD 63
  | .queueDisable fn q w0 => fn < 5 && q < 64 && !w0.getLsbD 63
  | .queueReconfigure fn q word _ => fn < 5 && q < 64 && word < 2
  | .queueErrorClear fn q _ => fn < 5 && q < 64
  | .tlbInvalidate die v => die < 4 && !v.getLsbD 1
  | .tlbInvalidateAll die v => die < 4 && v.getLsbD 1
  | .tlbInvalidateDone die => die < 4
  | .nearMemoryCounterWrite stack ctr _ => stack < 8 && ctr < 4096
  | .precmdAll die => die < 4
  | .debugHalt die => die < 4
  | .debugResume die => die < 4
  | .versionHandshake die _ => die < 4
  | .eventRingConsume die _ => die < 4
  | .eventRecordPost die => die < 4
  | .overflowRecord die => die < 4
  | .attestationRequest nonce => nonce.length == 48
  | .registerWrite r => r.fn < 5 && 0 < r.n && r.n ≤ 8
  | .inboundPostedWrite _ addr data _ => addr < 2 ^ 40 && data.length ≤ maxPayload
  | .orderingPointForward _ => true
  | .inboundRead _ addr n => addr < 2 ^ 40 && n ≤ maxPayload
  | .multicastFork die port => die < 4 && port < 64
  | .feltlinkTraining port _ _ => port < 12
  | .feltlinkFlitReceive port _ _ _ payload => port < 12 && payload.length == 224
  | .feltlinkSlotSend port => port < 12
  | .eccError _ _ die core _ => die < 4 && core < 96
  | .katDue die core lane => die < 4 && core < 96 && lane < 16
  | .thermalSensorChange die core _ => die < 4 && core < 96
  | .droopEvent die core => die < 4 && core < 96
  | .thermalReset die => die < 4
  | .packageReset => true
  | .feltlinkPortDown port => port < 12
  | .matrixInstructionFinish die core => die < 4 && core < 96
  | .pulpInstructionComplete die core => die < 4 && core < 96

end Sys2Proof
end

