-- ==== Sys2Proof/Decode.lean ====
section
/-! DEFINITION. Decoding of the 64-bit instruction word (08 R211 to R228), the encoder written from the same
encodings, and the decoding of the 64-byte packets of the host queues (17 R385, R386). Every word is decoded or
rejected; a rejected word raises the illegal-instruction trap (R227). -/

namespace Sys2Proof

/-- The fields of a full word after its header (R213): `lo` holds b and x, or imm19. -/
structure Raw where
  op : BitVec 8
  md : BitVec 6
  d : BitVec 8
  a : BitVec 8
  im : Bool
  lo : BitVec 19
  deriving DecidableEq, Repr

/-- Field b of a word with `im` = 0. -/
def Raw.b (r : Raw) : BitVec 8 := r.lo.extractLsb' 11 8

/-- Field x of a word with `im` = 0. -/
def Raw.x (r : Raw) : BitVec 11 := r.lo.extractLsb' 0 11

/-- The header of a full word (R213). -/
def hdrOf (w : W64) : Hdr :=
  { sw := w.getLsbD 63, ng := w.getLsbD 61, gf := w.getLsbD 60,
    gr := w.extractLsb' 55 5, gb := w.extractLsb' 50 5 }

/-- The fields of a full word (R213). -/
def rawOf (w : W64) : Raw :=
  { op := w.extractLsb' 42 8, md := w.extractLsb' 36 6, d := w.extractLsb' 28 8,
    a := w.extractLsb' 20 8, im := w.getLsbD 19, lo := w.extractLsb' 0 19 }

/-- A full word from its header and fields (R213). -/
def wordOf (h : Hdr) (r : Raw) : W64 :=
  BitVec.ofBool h.sw ++ (0 : BitVec 1) ++ BitVec.ofBool h.ng ++ BitVec.ofBool h.gf ++ h.gr ++ h.gb ++
    r.op ++ r.md ++ r.d ++ r.a ++ BitVec.ofBool r.im ++ r.lo

/-- An operand field (R217): class in [7:5], index in [4:0]. -/
def opdOf (f : BitVec 8) : Option Opd :=
  let i := f.extractLsb' 0 5
  match (f.extractLsb' 5 3).toNat with
  | 0 => some (.w i)
  | 1 => some (.k i)
  | 2 => if i.getLsbD 4 then none else some (.q (i.extractLsb' 0 4))
  | 3 => some (.z i)
  | 4 => some (.sp i)
  | 5 => some (.si i)
  | 6 => if i.getLsbD 0 then none else some (.wp (i.extractLsb' 1 4))
  | _ => none

/-- The operand field of an operand (R217). imm19 has no operand field; its place is `lo`. -/
def opdBits : Opd → BitVec 8
  | .w i => (0 : BitVec 3) ++ i
  | .k i => (1 : BitVec 3) ++ i
  | .q i => (4 : BitVec 4) ++ i
  | .z i => (3 : BitVec 3) ++ i
  | .sp i => (4 : BitVec 3) ++ i
  | .si v => (5 : BitVec 3) ++ v
  | .wp i => (6 : BitVec 3) ++ i ++ (0 : BitVec 1)
  | .im _ => 0

/-- Operand B with the extension (R216): imm19 when `im` = 1, which leaves no extension. -/
def Raw.getB (r : Raw) : Option (Opd × BitVec 11) :=
  if r.im then some (.im r.lo, 0) else (opdOf r.b).map (·, r.x)

/-- Operand B of a form that needs x or takes no immediate. -/
def Raw.getBx (r : Raw) : Option (Opd × BitVec 11) :=
  if r.im then none else (opdOf r.b).map (·, r.x)

/-- `im` and `lo` from operand B and x (R216). -/
def bx (b : Opd) (x : BitVec 11) : Bool × BitVec 19 :=
  match b with
  | .im v => (true, v)
  | o => (false, opdBits o ++ x)

/-- A word's fields from opcode, modifier, operands and x. -/
def raw (op : BitVec 8) (md : BitVec 6) (d a b : Opd) (x : BitVec 11) : Raw :=
  { op := op, md := md, d := opdBits d, a := opdBits a, im := (bx b x).1, lo := (bx b x).2 }

/-- The unused field 0x00 (R232). -/
abbrev o0 : Opd := .w 0

/-- `x` whose bits are all zero but for operand C in x[7:0] (R216). -/
def xC (c : Opd) : BitVec 11 := (0 : BitVec 3) ++ opdBits c

/-- Operand C from x[7:0], with x[10:8] zero (R216). -/
def getC (x : BitVec 11) : Option Opd :=
  if x.extractLsb' 8 3 == 0 then opdOf (x.extractLsb' 0 8) else none

/-- A condition of a decoder. -/
def need (b : Bool) : Option Unit := if b then some () else none

/-- `md` of the integer forms (R255). -/
def intModOf (md : BitVec 6) : IntMod :=
  { sat := md.getLsbD 5, sg := md.getLsbD 4, wd := md.getLsbD 3, f := md.extractLsb' 0 3 }

/-- The bits of an integer modifier (R255). -/
def intModBits (m : IntMod) : BitVec 6 :=
  BitVec.ofBool m.sat ++ BitVec.ofBool m.sg ++ BitVec.ofBool m.wd ++ m.f

/-- The scalar type of a two-bit code (R261). -/
def ftyOf (c : BitVec 2) : FTy :=
  match c.toNat with
  | 0 => .f32
  | 1 => .f64
  | 2 => .f16
  | _ => .bf16

/-- The code of a scalar type (R261). -/
def ftyBits : FTy → BitVec 2
  | .f32 => 0
  | .f64 => 1
  | .f16 => 2
  | .bf16 => 3

/-- A rounding code with its generator class; codes 5 to 7 are reserved, and the class field is zero for any other
code than 4 (R171, R261). -/
def rndOf (c : BitVec 3) (cls : BitVec 4) : Option Rnd :=
  match c.toNat with
  | 0 => if cls == 0 then some .rne else none
  | 1 => if cls == 0 then some .rtz else none
  | 2 => if cls == 0 then some .rup else none
  | 3 => if cls == 0 then some .rdn else none
  | 4 => some (.sr cls)
  | _ => none

/-- Rounding code (R171). -/
def rndBits : Rnd → BitVec 3
  | .rne => 0
  | .rtz => 1
  | .rup => 2
  | .rdn => 3
  | .sr _ => 4

/-- Generator class field (R261). -/
def rndCls : Rnd → BitVec 4
  | .sr c => c
  | _ => 0

/-- The class field of a floating-point form: x[3:0], with x[10:4] zero (R261). -/
def xCls (x : BitVec 11) : Option (BitVec 4) :=
  if x.extractLsb' 4 7 == 0 then some (x.extractLsb' 0 4) else none

/-- `md` of the scalar floating-point forms (R261). -/
def fpModOf (md : BitVec 6) (cls : BitVec 4) : Option FpMod :=
  (rndOf (md.extractLsb' 0 3) cls).map fun r =>
    { sat := md.getLsbD 5, ty := ftyOf (md.extractLsb' 3 2), rm := r }

/-- The bits of a scalar modifier (R261). -/
def fpModBits (m : FpMod) : BitVec 6 := BitVec.ofBool m.sat ++ ftyBits m.ty ++ rndBits m.rm

/-- `md` of the packed forms; type codes 2 and 3 are reserved (R261). -/
def hpModOf (md : BitVec 6) (cls : BitVec 4) : Option HpMod :=
  if md.getLsbD 4 then none
  else (rndOf (md.extractLsb' 0 3) cls).map fun r => { sat := md.getLsbD 5, bf := md.getLsbD 3, rm := r }

/-- The bits of a packed modifier (R261). -/
def hpModBits (m : HpMod) : BitVec 6 :=
  BitVec.ofBool m.sat ++ (0 : BitVec 1) ++ BitVec.ofBool m.bf ++ rndBits m.rm

/-- `x` with a generator class in x[3:0]. -/
def xOfCls (c : BitVec 4) : BitVec 11 := (0 : BitVec 7) ++ c

/-- The conversion types in code order (R270). -/
def ctyList : List CTy :=
  [.f32, .f64, .f16, .bf16, .e5m2, .e4m3, .e3m2, .e2m3, .e2m1, .e8m0, .i8, .i16, .i32, .i64, .n8, .n16, .n32, .n64]

/-- The conversion type of a code (R270). -/
def ctyOf (c : BitVec 5) : Option CTy := ctyList[c.toNat]?

/-- The code of a conversion type (R270). -/
def ctyBits : CTy → BitVec 5
  | .f32 => 0
  | .f64 => 1
  | .f16 => 2
  | .bf16 => 3
  | .e5m2 => 4
  | .e4m3 => 5
  | .e3m2 => 6
  | .e2m3 => 7
  | .e2m1 => 8
  | .e8m0 => 9
  | .i8 => 10
  | .i16 => 11
  | .i32 => 12
  | .i64 => 13
  | .n8 => 14
  | .n16 => 15
  | .n32 => 16
  | .n64 => 17

/-- The size code of R295. -/
def szOf (c : BitVec 3) : Option Sz :=
  match c.toNat with
  | 0 => some .b32
  | 1 => some .n8
  | 2 => some .i8
  | 3 => some .n16
  | 4 => some .i16
  | 5 => some .b64
  | 6 => some .i32x
  | _ => none

/-- The bits of a size (R295). -/
def szBits : Sz → BitVec 3
  | .b32 => 0
  | .n8 => 1
  | .i8 => 2
  | .n16 => 3
  | .i16 => 4
  | .b64 => 5
  | .i32x => 6

/-- The order code of R295 from 0 to 6. -/
def ordOf (c : BitVec 3) : Option (Option Scope) :=
  match c.toNat with
  | 0 => some none
  | 1 => some (some .wp)
  | 2 => some (some .wg)
  | 3 => some (some .cl)
  | 4 => some (some .die)
  | 5 => some (some .fab)
  | 6 => some (some .sys)
  | _ => none

/-- The bits of an order (R295). -/
def ordBits : Option Scope → BitVec 3
  | none => 0
  | some .wp => 1
  | some .wg => 2
  | some .cl => 3
  | some .die => 4
  | some .fab => 5
  | some .sys => 6

/-- The scope code of R301. -/
def scopeOf (c : BitVec 3) : Option Scope :=
  match c.toNat with
  | 0 => some .die
  | 1 => some .wp
  | 2 => some .wg
  | 3 => some .cl
  | 4 => some .fab
  | 5 => some .sys
  | _ => none

/-- The bits of a scope (R301). -/
def scopeBits : Scope → BitVec 3
  | .die => 0
  | .wp => 1
  | .wg => 2
  | .cl => 3
  | .fab => 4
  | .sys => 5

/-- The completion scope code of R308. -/
def cscOf (c : BitVec 3) : Option Scope :=
  match c.toNat with
  | 0 => some .wg
  | 1 => some .cl
  | 2 => some .die
  | 3 => some .fab
  | 4 => some .sys
  | _ => none

/-- The bits of a completion scope (R308); `.wp` has none. -/
def cscBits : Scope → BitVec 3
  | .wg => 0
  | .cl => 1
  | .die => 2
  | .fab => 3
  | .sys => 4
  | .wp => 7

/-- `.cw` and the completion scope in md[5:2] (R308). -/
def cwOf (md : BitVec 6) : Option CwMod :=
  (cscOf (md.extractLsb' 3 3)).map fun s => { cw := md.getLsbD 2, sc := s }

/-- `md` of a command: completion fields and md[1:0] (R308). -/
def cwBits (c : CwMod) (lo : BitVec 2) : BitVec 6 := cscBits c.sc ++ BitVec.ofBool c.cw ++ lo

/-- The atomic type of a code (R301). -/
def atyOf (c : BitVec 3) : Option ATy :=
  match c.toNat with
  | 0 => some .i32
  | 1 => some .n32
  | 2 => some .i64
  | 3 => some .n64
  | 4 => some .f32
  | _ => none

/-- The bits of an atomic type (R301). -/
def atyBits : ATy → BitVec 3
  | .i32 => 0
  | .n32 => 1
  | .i64 => 2
  | .n64 => 3
  | .f32 => 4

/-- The order of an atomic (R301). -/
def aordOf (c : BitVec 2) : AOrd :=
  match c.toNat with
  | 0 => .rlx
  | 1 => .acq
  | 2 => .rel
  | _ => .ar

/-- The bits of an atomic's order (R301). -/
def aordBits : AOrd → BitVec 2
  | .rlx => 0
  | .acq => 1
  | .rel => 2
  | .ar => 3

/-- The form of a fence (R304): 0 `.ar`, 1 `.acq`, 2 `.rel`, 3 reserved. -/
def fformOf (c : BitVec 2) : Option AOrd :=
  match c.toNat with
  | 0 => some .ar
  | 1 => some .acq
  | 2 => some .rel
  | _ => none

/-- The bits of a fence's form (R304). -/
def fformBits : AOrd → BitVec 2
  | .ar => 0
  | .acq => 1
  | .rel => 2
  | .rlx => 3

/-- The atomic operation of a code (R301). -/
def aopOf (c : BitVec 4) : Option AOp :=
  match c.toNat with
  | 0 => some .add
  | 1 => some .min
  | 2 => some .max
  | 3 => some .and
  | 4 => some .or
  | 5 => some .xor
  | 6 => some .exch
  | _ => none

/-- The bits of an atomic operation (R301). -/
def aopBits : AOp → BitVec 4
  | .add => 0
  | .min => 1
  | .max => 2
  | .and => 3
  | .or => 4
  | .xor => 5
  | .exch => 6

/-- Type and scope of an atomic in md, order in x[10:9] (R301). -/
def atModOf (md : BitVec 6) (x : BitVec 11) : Option AtMod := do
  let t ← atyOf (md.extractLsb' 3 3)
  let s ← scopeOf (md.extractLsb' 0 3)
  some { ty := t, sc := s, ord := aordOf (x.extractLsb' 9 2) }

/-- `md` of an atomic (R301). -/
def atModBits (m : AtMod) : BitVec 6 := atyBits m.ty ++ scopeBits m.sc

/-- The direction of a copy (R309). -/
def dirOf (c : BitVec 2) : CpyDir :=
  match c.toNat with
  | 0 => .gg
  | 1 => .gs
  | 2 => .sg
  | _ => .ss

/-- The bits of a copy's direction (R309). -/
def dirBits : CpyDir → BitVec 2
  | .gg => 0
  | .gs => 1
  | .sg => 2
  | .ss => 3

/-- The memory operand of a word (R294). -/
def memOf (r : Raw) : Option MemOp := do
  let base ← opdOf r.a
  if r.im then some (.imm base r.lo)
  else
    let idx ← opdOf r.b
    some (.reg base idx (r.x.extractLsb' 9 2) (r.x.extractLsb' 0 9))

/-- A word with a memory operand (R294). -/
def rawMem (op : BitVec 8) (md : BitVec 6) (d : Opd) : MemOp → Raw
  | .imm base v => { op := op, md := md, d := opdBits d, a := opdBits base, im := true, lo := v }
  | .reg base idx sc disp =>
    { op := op, md := md, d := opdBits d, a := opdBits base, im := false,
      lo := opdBits idx ++ (sc ++ disp : BitVec 11) }

/-- The half-opcodes in code order (R223). -/
def hopList : List Hop :=
  [.nop, .iadd, .isub, .and, .or, .xor, .shl, .shr, .sar, .imin, .imax, .mov, .imul, .fadd, .fsub, .fmul, .fmin,
   .fmax, .h2addF16, .h2mulF16, .h2minF16, .h2maxF16, .h2addBf16, .h2mulBf16]

/-- The half-opcode of a code (R223). -/
def hopOf (c : BitVec 7) : Option Hop := hopList[c.toNat]?

/-- The code of a half-opcode (R223). -/
def hopBits : Hop → BitVec 7
  | .nop => 0x00
  | .iadd => 0x01
  | .isub => 0x02
  | .and => 0x03
  | .or => 0x04
  | .xor => 0x05
  | .shl => 0x06
  | .shr => 0x07
  | .sar => 0x08
  | .imin => 0x09
  | .imax => 0x0A
  | .mov => 0x0B
  | .imul => 0x0C
  | .fadd => 0x0D
  | .fsub => 0x0E
  | .fmul => 0x0F
  | .fmin => 0x10
  | .fmax => 0x11
  | .h2addF16 => 0x12
  | .h2mulF16 => 0x13
  | .h2minF16 => 0x14
  | .h2maxF16 => 0x15
  | .h2addBf16 => 0x16
  | .h2mulBf16 => 0x17

/-- A half of a pair word (R220). -/
def halfOf (v : BitVec 31) : Option Half := do
  let op ← hopOf (v.extractLsb' 24 7)
  let d ← opdOf (v.extractLsb' 16 8)
  let a ← opdOf (v.extractLsb' 8 8)
  let b ← opdOf (v.extractLsb' 0 8)
  some { op := op, d := d, a := a, b := b }

/-- The bits of a half (R220). -/
def halfBits (p : Half) : BitVec 31 := hopBits p.op ++ opdBits p.d ++ opdBits p.a ++ opdBits p.b

/-- Decoder of one opcode. -/
abbrev Dec := Hdr → Raw → Option Instr

/-- Integer form `d, a, b` (R256). -/
def decI3 (mk : Hdr → IntMod → Opd → Opd → Opd → Instr) : Dec := fun h r => do
  let d ← opdOf r.d
  let a ← opdOf r.a
  let (b, x) ← r.getB
  need (x == 0)
  some (mk h (intModOf r.md) d a b)

/-- Integer form `d, a, b, c` (R256). -/
def decI4 (mk : Hdr → IntMod → Opd → Opd → Opd → Opd → Instr) : Dec := fun h r => do
  let d ← opdOf r.d
  let a ← opdOf r.a
  let (b, x) ← r.getBx
  let c ← getC x
  some (mk h (intModOf r.md) d a b c)

/-- Integer form `d, a` (R256). -/
def decI2 (mk : Hdr → IntMod → Opd → Opd → Instr) : Dec := fun h r => do
  let d ← opdOf r.d
  let a ← opdOf r.a
  need (!r.im && r.lo == 0)
  some (mk h (intModOf r.md) d a)

/-- Floating-point form `d, a, b` (R262). -/
def decF3 (mk : Hdr → FpMod → Opd → Opd → Opd → Instr) : Dec := fun h r => do
  let d ← opdOf r.d
  let a ← opdOf r.a
  let (b, x) ← r.getB
  let c ← xCls x
  let m ← fpModOf r.md c
  some (mk h m d a b)

/-- Floating-point form `d, a, b, c` (R262). -/
def decF4 (mk : Hdr → FpMod → Opd → Opd → Opd → Opd → Instr) : Dec := fun h r => do
  let d ← opdOf r.d
  let a ← opdOf r.a
  let (b, x) ← r.getBx
  let c ← getC x
  let m ← fpModOf r.md 0
  some (mk h m d a b c)

/-- Floating-point form `d, a` (R262). -/
def decF2 (mk : Hdr → FpMod → Opd → Opd → Instr) : Dec := fun h r => do
  let d ← opdOf r.d
  let a ← opdOf r.a
  need (!r.im && r.b == 0)
  let c ← xCls r.x
  let m ← fpModOf r.md c
  some (mk h m d a)

/-- Packed form `d, a, b` (R266). -/
def decH3 (mk : Hdr → HpMod → Opd → Opd → Opd → Instr) : Dec := fun h r => do
  let d ← opdOf r.d
  let a ← opdOf r.a
  let (b, x) ← r.getB
  let c ← xCls x
  let m ← hpModOf r.md c
  some (mk h m d a b)

/-- Packed form `d, a, b, c` (R266). -/
def decH4 (mk : Hdr → HpMod → Opd → Opd → Opd → Opd → Instr) : Dec := fun h r => do
  let d ← opdOf r.d
  let a ← opdOf r.a
  let (b, x) ← r.getBx
  let c ← getC x
  let m ← hpModOf r.md 0
  some (mk h m d a b c)

/-- A form `d, a` whose other fields are zero, `md` included in `mk`. -/
def decDA (mk : Hdr → BitVec 6 → Opd → Opd → Option Instr) : Dec := fun h r => do
  let d ← opdOf r.d
  let a ← opdOf r.a
  need (!r.im && r.lo == 0)
  mk h r.md d a

/-- A form `d, a, b` without x. -/
def decDAB (mk : Hdr → BitVec 6 → Opd → Opd → Opd → Option Instr) : Dec := fun h r => do
  let d ← opdOf r.d
  let a ← opdOf r.a
  let (b, x) ← r.getB
  need (x == 0)
  mk h r.md d a b

/-- A form `d, a, b, c`. -/
def decDABC (mk : Hdr → BitVec 6 → Opd → Opd → Opd → Opd → Option Instr) : Dec := fun h r => do
  let d ← opdOf r.d
  let a ← opdOf r.a
  let (b, x) ← r.getBx
  let c ← getC x
  mk h r.md d a b c

/-- A form `d, a, b` that uses x and takes no immediate. -/
def decDABX (mk : Hdr → BitVec 6 → Opd → Opd → Opd → BitVec 11 → Option Instr) : Dec := fun h r => do
  let d ← opdOf r.d
  let a ← opdOf r.a
  let (b, x) ← r.getBx
  mk h r.md d a b x

/-- A form without operands. -/
def decNone (mk : Hdr → BitVec 6 → Option Instr) : Dec := fun h r => do
  need (r.d == 0 && r.a == 0 && !r.im && r.lo == 0)
  mk h r.md

/-- A relative branch (R282). -/
def decRel (mk : Hdr → BitVec 19 → Instr) : Dec := fun h r => do
  need (r.im && r.md == 0 && r.d == 0 && r.a == 0)
  some (mk h r.lo)

/-- A load or store of R295 with an order code from 0 to 6. -/
def decMem (mk : Hdr → Sz → Option Scope → Opd → MemOp → Instr) : Dec := fun h r => do
  let d ← opdOf r.d
  let m ← memOf r
  let sz ← szOf (r.md.extractLsb' 3 3)
  let o ← ordOf (r.md.extractLsb' 0 3)
  some (mk h sz o d m)

/-- `st`, whose order code 7 is the non-temporal form (R295, R300). -/
def decSt : Dec := fun h r =>
  if r.md.extractLsb' 0 3 == 7 then do
    let d ← opdOf r.d
    let m ← memOf r
    let sz ← szOf (r.md.extractLsb' 3 3)
    some (.stNt h sz d m)
  else decMem .st h r

/-- `ldsk`, whose order code 7 is the handle form of size 5 (R295, R299). -/
def decLdsk : Dec := fun h r =>
  if r.md.extractLsb' 0 3 == 7 then do
    let d ← opdOf r.d
    let m ← memOf r
    need (r.md.extractLsb' 3 3 == 5)
    some (.ldskH h d m)
  else decMem .ldsk h r

/-- An atomic (R301). -/
def decAtom (mk : Hdr → AtMod → AOp → Opd → Opd → Opd → Instr) : Dec := fun h r => do
  let d ← opdOf r.d
  let a ← opdOf r.a
  let (b, x) ← r.getBx
  let m ← atModOf r.md x
  need (x.extractLsb' 4 5 == 0)
  let op ← aopOf (x.extractLsb' 0 4)
  some (mk h m op d a b)

/-- A compare-and-swap (R303). -/
def decCas (mk : Hdr → AtMod → Opd → Opd → Opd → Opd → Instr) : Dec := fun h r => do
  let d ← opdOf r.d
  let a ← opdOf r.a
  let (b, x) ← r.getBx
  let m ← atModOf r.md x
  need (!x.getLsbD 8)
  let c ← opdOf (x.extractLsb' 0 8)
  some (mk h m d a b c)

/-- Lookup and pin forms: e in x[7:0], b zero (R318). -/
def decLook (mk : Hdr → BitVec 6 → Opd → Opd → Opd → Option Instr) : Dec := fun h r => do
  let d ← opdOf r.d
  let a ← opdOf r.a
  need (!r.im && r.b == 0)
  let e ← getC r.x
  mk h r.md d a e

/-- A form of the trap group with an immediate of at most 65,535 (R435). -/
def decN (mk : Hdr → Opd → BitVec 16 → Option Instr) : Dec := fun h r => do
  need (r.im && r.md == 0 && r.d == 0 && r.lo.extractLsb' 16 3 == 0)
  let a ← opdOf r.a
  mk h a (r.lo.extractLsb' 0 16)

/-- Select by a flag bit of `md` that must otherwise be zero. -/
def md01 (md : BitVec 6) (i0 i1 : Instr) : Option Instr :=
  if md == 0 then some i0 else if md == 1 then some i1 else none

/-- `md` is zero. -/
def md0 (md : BitVec 6) (i : Instr) : Option Instr := if md == 0 then some i else none

/-- The run length of a pulp instruction, with md[3:0] given (R351). -/
def runMd (md : BitVec 6) (lo : BitVec 4) (i : BitVec 2 → Instr) : Option Instr :=
  if md.extractLsb' 0 4 == lo then some (i (md.extractLsb' 4 2)) else none

/-- Integer and bit opcodes (R226, R256). -/
def tableInt : List (Nat × Dec) :=
  [(0x00, decI3 .iadd), (0x01, decI3 .isub), (0x02, decI3 .imul), (0x03, decI3 .imulh), (0x04, decI4 .imad),
   (0x05, decI3 .idiv), (0x06, decI3 .irem), (0x07, decI3 .imin), (0x08, decI3 .imax), (0x09, decI2 .iabs),
   (0x0A, decI3 .and), (0x0B, decI3 .or), (0x0C, decI3 .xor), (0x0D, decI3 .andn), (0x0E, decI3 .shl),
   (0x0F, decI3 .shr), (0x10, decI3 .sar), (0x11, decI3 .rot), (0x12, decI3 .bfx), (0x13, decI4 .bfi),
   (0x14, decI2 .popc), (0x15, decI2 .clz), (0x16, decI2 .ctz), (0x17, decI2 .brev), (0x18, decI2 .mov),
   (0x19, fun h r => do
      let d ← opdOf r.d
      need (r.im && r.a == 0)
      some (.movi h (intModOf r.md) d r.lo)),
   (0x1A, decI4 .bperm), (0x1B, decI4 .idot4)]

/-- Floating-point opcodes (R226, R262, R266). -/
def tableFp : List (Nat × Dec) :=
  [(0x20, decF3 .fadd), (0x21, decF3 .fsub), (0x22, decF3 .fmul), (0x23, decF4 .ffma), (0x24, decF3 .fmin),
   (0x25, decF3 .fmax), (0x26, decF3 .fdiv), (0x27, decF2 .fsqrt), (0x28, decF2 .frcp), (0x29, decF2 .frsq),
   (0x2A, decF2 .fexp2), (0x2B, decF2 .flog2), (0x2C, decF2 .fsin), (0x2D, decF2 .fcos), (0x2E, decF2 .ftanh),
   (0x2F, decF2 .frnd), (0x30, decH3 .h2add), (0x31, decH3 .h2mul), (0x32, decH4 .h2fma), (0x33, decH3 .h2min),
   (0x34, decH3 .h2max), (0x35, decH4 .fdot2), (0x36, decF3 .fscl), (0x37, decF2 .fclass)]

/-- Compare, select, convert and collective opcodes (R226, R267 to R281). -/
def tableCmp : List (Nat × Dec) :=
  [(0x40, decDABX fun h md d a b x =>
      some (.icmp h (md.extractLsb' 3 3) (md.extractLsb' 1 2) (md.getLsbD 0) (x.getLsbD 10)
        (x.extractLsb' 0 5) (x.extractLsb' 5 5) d a b)),
   (0x41, decDABX fun h md d a b x =>
      some (.fcmp h (md.extractLsb' 3 3) (md.extractLsb' 1 2) (md.getLsbD 0) (x.getLsbD 10)
        (x.extractLsb' 0 5) (x.extractLsb' 5 5) d a b)),
   (0x42, decDABC fun h md d a b c => some (.sel h (md.extractLsb' 0 5) (md.getLsbD 5) d a b c)),
   (0x43, fun h r => do
      let d ← opdOf r.d
      let a ← opdOf r.a
      need (!r.im && r.md.extractLsb' 4 2 == 0 && r.b.extractLsb' 4 4 == 0 && !r.x.getLsbD 10)
      let rm ← rndOf (r.md.extractLsb' 0 3) (r.b.extractLsb' 0 4)
      let dt ← ctyOf (r.x.extractLsb' 0 5)
      let s ← ctyOf (r.x.extractLsb' 5 5)
      some (.cvt h rm (r.md.getLsbD 3) dt s d a)),
   (0x44, decDABC fun h md d a b c =>
      if md.extractLsb' 2 4 == 0 then some (.pack h (md.extractLsb' 0 2) d a b c) else none),
   (0x45, decDAB fun h md d a b =>
      if md.extractLsb' 3 3 == 0 then some (.unpk h (md.extractLsb' 0 2) (md.getLsbD 2) d a b) else none),
   (0x46, decDA fun h md d a => md0 md (.t3enc h d a)),
   (0x47, decDA fun h md d a => md0 md (.t3dec h d a)),
   (0x48, decDA fun h md d a =>
      if md.extractLsb' 3 3 == 0 then some (.mxscl h (md.extractLsb' 0 3) d a) else none),
   (0x50, decDAB fun h md d a b =>
      if md.extractLsb' 3 3 == 0 then some (.shfl h (md.extractLsb' 0 2) (md.getLsbD 2) d a b) else none),
   (0x51, decDAB fun h md d a b =>
      if md.extractLsb' 2 4 == 0 then some (.vote h (md.extractLsb' 0 2) d a b) else none),
   (0x52, decDA fun h md d a =>
      some (.redi h (md.extractLsb' 0 3) (md.getLsbD 5) (md.getLsbD 4) (md.getLsbD 3) d a)),
   (0x53, decDA fun h md d a =>
      if !md.getLsbD 5 && !md.getLsbD 2 then
        some (.redf h (md.extractLsb' 0 2) (ftyOf (md.extractLsb' 3 2)) d a)
      else none),
   (0x54, decDA fun h md d a =>
      some (.scan h (md.extractLsb' 0 3) (md.getLsbD 5) (md.getLsbD 4) (md.getLsbD 3) d a)),
   (0x55, decDAB fun h md d a b =>
      if md.extractLsb' 3 3 == 0 then some (.topk h (md.extractLsb' 0 2) (md.getLsbD 2) d a b) else none),
   (0x56, decDABC fun h md d a b c =>
      if md.extractLsb' 3 3 == 0 then some (.topkm h (md.extractLsb' 0 2) (md.getLsbD 2) d a b c) else none),
   (0x57, decDA fun h md d a =>
      if md.extractLsb' 1 5 == 0 then some (.matchEq h (md.getLsbD 0) d a) else none)]

/-- Control-flow opcodes (R226, R282, R291). -/
def tableCtl : List (Nat × Dec) :=
  [(0x60, decRel .br), (0x61, decRel .bru), (0x62, decNone fun h md => md0 md (.jn h)), (0x63, decRel .call),
   (0x64, decNone fun h md => md0 md (.ret h)),
   (0x65, fun h r => do
      need (r.d == 0 && r.a == 0 && r.md.extractLsb' 2 4 == 0)
      let (c, x) ← r.getB
      need (x == 0)
      some (.loop h (r.md.extractLsb' 0 2) c)),
   (0x66, decRel .brl), (0x67, decNone fun h md => md0 md (.exit h)),
   (0x68, decDA fun h md d a => if d == o0 then md0 md (.jmp h a) else none),
   (0x69, decDA fun h md d a => if d == o0 then md0 md (.calli h a) else none),
   (0x6A, decNone fun h md => md0 md (.rgn h)),
   (0x6B, decDA fun h md d a =>
      match a with
      | .sp i => md01 md (.rds h d i) (.rdsId h d i)
      | _ => none),
   (0x6C, fun h r => do
      let d ← opdOf r.d
      need (r.md == 0)
      match d with
      | .sp i =>
        if r.im then if r.a == 0 then some (.wrs h i (.im r.lo)) else none
        else do
          let s ← opdOf r.a
          need (r.lo == 0)
          some (.wrs h i s)
      | _ => none)]

/-- Memory opcodes (R226, R295 to R307). -/
def tableMem : List (Nat × Dec) :=
  [(0x70, decMem .ld), (0x71, decSt), (0x72, decMem .ldk), (0x73, decMem .stk), (0x74, decMem .lds),
   (0x75, decMem .sts), (0x76, decLdsk), (0x77, decMem .stsk), (0x78, decAtom .atom), (0x79, decAtom .atoms),
   (0x7A, decCas .cas), (0x7B, decCas .cass),
   (0x7C, decNone fun h md => do
      let f ← fformOf (md.extractLsb' 3 2)
      let s ← scopeOf (md.extractLsb' 0 3)
      need (!md.getLsbD 5)
      some (.fence h f s)),
   (0x7D, decNone fun h md => md0 md (.ntdrain h)),
   (0x7E, decDAB fun h md d a b =>
      if d == o0 then
        match md.toNat with
        | 0 => some (.cmntWb h a b)
        | 1 => some (.cmntInv h a b)
        | 2 => some (.cmntWbi h a b)
        | _ => none
      else none),
   (0x7F, fun h r => do
      let m ← memOf r
      need (r.d == 0 && r.md.extractLsb' 1 5 == 0)
      some (.prf h (r.md.getLsbD 0) m))]

/-- Command, wait, handle, queue and channel opcodes (R226, R308 to R316). -/
def tableCmd : List (Nat × Dec) :=
  [(0x90, decDABC fun h md d a b c => do
      let cw ← cwOf md
      some (.cpy h (dirOf (md.extractLsb' 0 2)) cw d a b c)),
   (0x91, decDABC fun h md d a b c => do
      let cw ← cwOf md
      need (!md.getLsbD 1)
      some (.cpyk h (md.getLsbD 0) cw d a b c)),
   (0x92, decDABX fun h md d a b x => do
      need (d == o0 && md.extractLsb' 4 2 == 0 && x.extractLsb' 3 8 == 0)
      let s ← scopeOf (x.extractLsb' 0 3)
      some (.waita h (md.extractLsb' 0 2) (md.getLsbD 2) (md.getLsbD 3) s a b)),
   (0x93, decDA fun h md d a => md0 md (.htest h d a)),
   (0x94, decDA fun h md d a => if d == o0 then md0 md (.hcan h a) else none),
   (0x95, decDAB fun h md d a b => md0 md (.qbind h d a b)),
   (0x96, decDA fun h md d a => if d == o0 then some (.send h md a) else none),
   (0x97, decDA fun h md d a => if d == o0 then some (.recv h md a) else none),
   (0x98, decDA fun h md d a => md0 md (.qlen h d a))]

/-- Key-space and hand-over opcodes (R226, R317 to R319). -/
def tableKey : List (Nat × Dec) :=
  [(0xA0, decDAB fun h md d a b => md0 md (.kmk h d a b)),
   (0xA1, decDA fun h md d a => md0 md (.kpar h d a)),
   (0xA2, decDAB fun h md d a b => md0 md (.kchd h d a b)),
   (0xA3, decDAB fun h md d a b => md0 md (.knbr h d a b)),
   (0xA4, decDA fun h md d a => md0 md (.klv h d a)),
   (0xA5, decLook fun h md d a e => md01 md (.klook h d a e) (.klookW h d a e)),
   (0xA6, decDA fun h md d a => md0 md (.kown h d a)),
   (0xA7, decLook fun h md d a e => md01 md (.kpinR h d a e) (.kpinW h d a e)),
   (0xA8, decDA fun h md d a => if d == o0 then md01 md (.kunpinR h a) (.kunpinW h a) else none),
   (0xA9, fun h r => do
      let d ← opdOf r.d
      let a ← opdOf r.a
      let cw ← cwOf r.md
      need (r.md.extractLsb' 0 2 == 0)
      let (b, x) ← r.getB
      let c ← getC x
      some (.refine h cw d a b c)),
   (0xAA, decLook fun h md d a c => do
      let cw ← cwOf md
      need (md.extractLsb' 0 2 == 0)
      some (.coarsen h cw d a c)),
   (0xAB, decDABC fun h md d a b c => do
      let cw ← cwOf md
      need (md.extractLsb' 0 2 == 0)
      some (.rebal h cw d a b c)),
   (0xAC, decLook fun h md d a c => do
      if md == 0 then if c == o0 then some (.shovGive h d a) else none
      else
        let cw ← cwOf md
        need (md.extractLsb' 0 2 == 1)
        some (.shovTake h cw d a c)),
   (0xAD, decDA fun h md d a => md0 md (.kcrd h d a))]

/-- Matrix opcodes (R226, R327 to R342). -/
def tableMx : List (Nat × Dec) :=
  [(0xB0, decDABX fun h md d a b x => do
      need (x.extractLsb' 8 3 == 0)
      some (.mma h (md.extractLsb' 0 2) (md.extractLsb' 2 2) (md.extractLsb' 4 2) (x.extractLsb' 0 4)
        (x.extractLsb' 4 4) d a b)),
   (0xB1, decDA fun h md d a => do
      let cw ← cwOf md
      need (!md.getLsbD 1)
      some (.mdrn h (md.getLsbD 0) cw d a)),
   (0xB2, decDABX fun h md d a b x => do
      need (d == o0 && x.extractLsb' 4 7 == 0)
      let row := x.extractLsb' 0 4
      match md.toNat with
      | 0 => some (.acpTs h row a b)
      | 1 => some (.acpFs h row a b)
      | 2 => some (.acpCkTs h row a b)
      | 3 => some (.acpCkFs h row a b)
      | _ => none),
   (0xB3, decDA fun h md d a => do
      let cw ← cwOf md
      need (md.extractLsb' 0 2 == 0)
      some (.mmv h cw d a)),
   (0xB4, fun h r => do
      need (r.d == 0 && r.a == 0 && !r.im && r.b == 0 && r.x.extractLsb' 8 3 == 0 && !r.md.getLsbD 5)
      some (.mzero h (r.md.extractLsb' 0 2) (r.md.extractLsb' 2 2) (r.md.getLsbD 4) (r.x.extractLsb' 0 4)
        (r.x.extractLsb' 4 4)))]

/-- Pulp-unit opcodes (R226, R351). -/
def tablePulp : List (Nat × Dec) :=
  [(0xC0, fun h r => do
      let d ← opdOf r.d
      let a ← opdOf r.a
      need (!r.im && r.b == 0 && r.md.extractLsb' 1 3 == 0)
      let c ← xCls r.x
      let run := r.md.extractLsb' 4 2
      some (if r.md.getLsbD 0 then .sgenK h run c d a else .sgenQ h run c d a)),
   (0xC1, decDABX fun h md d a b x => do
      need (x == 0)
      (runMd md 0 (.sand h · d a b)) <|> (runMd md 1 (.sandC h · d a b))),
   (0xC2, decDABX fun h md d a b x => do
      need (x == 0)
      (runMd md 0 (.sor h · d a b)) <|> (runMd md 1 (.sorC h · d a b))),
   (0xC3, decDABX fun h md d a b x => do
      need (x == 0)
      (runMd md 0 (.sxor h · d a b)) <|> (runMd md 1 (.sxorC h · d a b))),
   (0xC4, decDABX fun h md d a b x => do
      need (x == 0)
      runMd md 0 (.sxnor h · d a b)),
   (0xC5, decDABC fun h md d a b c => runMd md 0 (.smux h · d a b c)),
   (0xC6, fun h r => do
      let d ← opdOf r.d
      let a ← opdOf r.a
      need (!r.im && r.b == 0)
      let c ← xCls r.x
      runMd r.md 0 (.sregen h · c d a)),
   (0xC7, decDABX fun h md d a b x => do
      need (x == 0)
      md0 md (.scnt h d a b)),
   (0xC8, decDA fun h md d a => md0 md (.scntr h d a)),
   (0xC9, decDA fun h md d a => runMd md 0 (.sinv h · d a)),
   (0xCA, decDABX fun h md d a b x => do
      need (x == 0 && a == o0)
      runMd md 0 (.slen h · d b)),
   (0xCB, decDABX fun h md d a b x => do
      need (x == 0 && md.extractLsb' 2 2 == 0)
      let run := md.extractLsb' 4 2
      match (md.extractLsb' 0 2).toNat with
      | 0 => if b == o0 then some (.smovZ h run d a) else none
      | 1 => if d == o0 then some (.smovTs h run a b) else none
      | 2 => if a == o0 then some (.smovFs h run d b) else none
      | _ => if b == o0 && run == 0 then some (.smovSt h d a) else none)]

/-- Solve-region, scheduling and system opcodes (R226, R367, R371, R405, R435). -/
def tableSys : List (Nat × Dec) :=
  [(0xD0, decDABX fun h md d a b x => do
      need (d == o0 && x == 0 && md.extractLsb' 4 2 == 0)
      some (.slvb h (md.extractLsb' 0 3) (md.getLsbD 3) a b)),
   (0xD1, decNone fun h md => md0 md (.slvx h)),
   (0xD8, decNone fun h md => md0 md (.acq h)),
   (0xD9, decNone fun h md => md0 md (.rel h)),
   (0xDA, decNone fun h md => if md.extractLsb' 2 4 == 0 then some (.bar h (md.extractLsb' 0 2)) else none),
   (0xDB, fun h r => do
      let d ← opdOf r.d
      let (b, x) ← r.getBx
      let e ← getC x
      need (r.a == 0)
      match r.md.toNat with
      | 0 => if b == o0 then some (.fetchIdx h d e) else none
      | 1 => if b == o0 then some (.fetchTask h none d e) else none
      | 3 => some (.fetchTask h (some b) d e)
      | _ => none),
   (0xDC, decDA fun h md d a => md0 md (.deviceSideLaunch h d a)),
   (0xDD, decDA fun h md d a => md0 md (.join h d a)),
   (0xDE, decDA fun h md d a => md0 md (.trel h d a)),
   (0xDF, decDA fun h md d a => md0 md (.tabn h d a)),
   (0xE0, decN fun h a n => if a == o0 then some (.trap h n) else none),
   (0xE1, decDA fun h md d a =>
      if d == o0 then
        match md.toNat with
        | 0 => if a == o0 then some (.tret h) else none
        | 1 => some (.tretTo h a)
        | 2 => some (.tretCtx h a)
        | _ => none
      else none),
   (0xE2, decNone fun h md => md01 md (.tmskM h) (.tmskU h)),
   (0xE3, decN fun h a n => if a == o0 then some (.brk h n) else none),
   (0xE4, decNone fun h md => md01 md (.pmskD h) (.pmskA h)),
   (0xE5, decN fun h a n => some (.evnt h a n))]

/-- The opcode map (R226): every value not listed is reserved. -/
def opTable : List (Nat × Dec) :=
  tableInt ++ tableFp ++ tableCmp ++ tableCtl ++ tableMem ++ tableCmd ++ tableKey ++ tableMx ++ tablePulp ++
    tableSys

/-- A full word: the opcode's decoder, then the legality of the result (R226, R227). -/
def decodeFull (h : Hdr) (r : Raw) : Option Instr := do
  let f ← opTable.lookup r.op.toNat
  let i ← f h r
  need i.wf
  some i

/-- A pair word (R220, R221). -/
def decodePair (w : W64) : Option Instr := do
  let p0 ← halfOf (w.extractLsb' 31 31)
  let p1 ← halfOf (w.extractLsb' 0 31)
  let i := Instr.pairWord (w.getLsbD 63) p0 p1
  need i.wf
  some i

/-- The decoder of a 64-bit word (R211, R227, R228); `none` is an illegal instruction. -/
def decode (w : W64) : Option Instr :=
  if w == 0 then some .guardFalseNop
  else if w.getLsbD 62 then decodePair w
  else decodeFull (hdrOf w) (rawOf w)

/-- A 64-bit word from eight bytes, the lowest address first (R3, R211). -/
def wordOfBytes : List Byte → W64
  | [] => 0
  | b :: bs => (wordOfBytes bs <<< 8) ||| b.setWidth 64

/-- The decoder over the bytes at an address: the instruction and the rest of the bytes, or a rejection. -/
def decodeBytes (bs : List Byte) : Option (Instr × List Byte) :=
  if bs.length < 8 then none
  else (decode (wordOfBytes (bs.take 8))).map (·, bs.drop 8)

/-- The eight bytes of a word as memory holds them (R3). -/
def bytesOfWord (w : W64) : List Byte :=
  [w.extractLsb' 0 8, w.extractLsb' 8 8, w.extractLsb' 16 8, w.extractLsb' 24 8,
   w.extractLsb' 32 8, w.extractLsb' 40 8, w.extractLsb' 48 8, w.extractLsb' 56 8]

/-- The instruction read from a word numbered as the opcode table numbers it: the word is one 64-bit unit, and the
bits above `nbits` are zero. -/
def decodeTableWord (nbits w : Nat) : Option Instr :=
  (decodeBytes (bytesOfWord (BitVec.ofNat 64 (w % 2 ^ nbits)))).map (·.1)

/-! ### The encoder -/

/-- Header and fields of a full word; `none` for the pair word, the all-zero word, packets and events. -/
def encodeRaw : Instr → Option (Hdr × Raw)
  | .iadd h m d a b => some (h, raw 0x00 (intModBits m) d a b 0)
  | .isub h m d a b => some (h, raw 0x01 (intModBits m) d a b 0)
  | .imul h m d a b => some (h, raw 0x02 (intModBits m) d a b 0)
  | .imulh h m d a b => some (h, raw 0x03 (intModBits m) d a b 0)
  | .imad h m d a b c => some (h, raw 0x04 (intModBits m) d a b (xC c))
  | .idiv h m d a b => some (h, raw 0x05 (intModBits m) d a b 0)
  | .irem h m d a b => some (h, raw 0x06 (intModBits m) d a b 0)
  | .imin h m d a b => some (h, raw 0x07 (intModBits m) d a b 0)
  | .imax h m d a b => some (h, raw 0x08 (intModBits m) d a b 0)
  | .iabs h m d a => some (h, raw 0x09 (intModBits m) d a o0 0)
  | .and h m d a b => some (h, raw 0x0A (intModBits m) d a b 0)
  | .or h m d a b => some (h, raw 0x0B (intModBits m) d a b 0)
  | .xor h m d a b => some (h, raw 0x0C (intModBits m) d a b 0)
  | .andn h m d a b => some (h, raw 0x0D (intModBits m) d a b 0)
  | .shl h m d a b => some (h, raw 0x0E (intModBits m) d a b 0)
  | .shr h m d a b => some (h, raw 0x0F (intModBits m) d a b 0)
  | .sar h m d a b => some (h, raw 0x10 (intModBits m) d a b 0)
  | .rot h m d a b => some (h, raw 0x11 (intModBits m) d a b 0)
  | .bfx h m d a b => some (h, raw 0x12 (intModBits m) d a b 0)
  | .bfi h m d a b c => some (h, raw 0x13 (intModBits m) d a b (xC c))
  | .popc h m d a => some (h, raw 0x14 (intModBits m) d a o0 0)
  | .clz h m d a => some (h, raw 0x15 (intModBits m) d a o0 0)
  | .ctz h m d a => some (h, raw 0x16 (intModBits m) d a o0 0)
  | .brev h m d a => some (h, raw 0x17 (intModBits m) d a o0 0)
  | .mov h m d a => some (h, raw 0x18 (intModBits m) d a o0 0)
  | .movi h m d v => some (h, raw 0x19 (intModBits m) d o0 (.im v) 0)
  | .bperm h m d a b c => some (h, raw 0x1A (intModBits m) d a b (xC c))
  | .idot4 h m d a b c => some (h, raw 0x1B (intModBits m) d a b (xC c))
  | .fadd h m d a b => some (h, raw 0x20 (fpModBits m) d a b (xOfCls (rndCls m.rm)))
  | .fsub h m d a b => some (h, raw 0x21 (fpModBits m) d a b (xOfCls (rndCls m.rm)))
  | .fmul h m d a b => some (h, raw 0x22 (fpModBits m) d a b (xOfCls (rndCls m.rm)))
  | .ffma h m d a b c => some (h, raw 0x23 (fpModBits m) d a b (xC c))
  | .fmin h m d a b => some (h, raw 0x24 (fpModBits m) d a b (xOfCls (rndCls m.rm)))
  | .fmax h m d a b => some (h, raw 0x25 (fpModBits m) d a b (xOfCls (rndCls m.rm)))
  | .fdiv h m d a b => some (h, raw 0x26 (fpModBits m) d a b (xOfCls (rndCls m.rm)))
  | .fsqrt h m d a => some (h, raw 0x27 (fpModBits m) d a o0 (xOfCls (rndCls m.rm)))
  | .frcp h m d a => some (h, raw 0x28 (fpModBits m) d a o0 (xOfCls (rndCls m.rm)))
  | .frsq h m d a => some (h, raw 0x29 (fpModBits m) d a o0 (xOfCls (rndCls m.rm)))
  | .fexp2 h m d a => some (h, raw 0x2A (fpModBits m) d a o0 (xOfCls (rndCls m.rm)))
  | .flog2 h m d a => some (h, raw 0x2B (fpModBits m) d a o0 (xOfCls (rndCls m.rm)))
  | .fsin h m d a => some (h, raw 0x2C (fpModBits m) d a o0 (xOfCls (rndCls m.rm)))
  | .fcos h m d a => some (h, raw 0x2D (fpModBits m) d a o0 (xOfCls (rndCls m.rm)))
  | .ftanh h m d a => some (h, raw 0x2E (fpModBits m) d a o0 (xOfCls (rndCls m.rm)))
  | .frnd h m d a => some (h, raw 0x2F (fpModBits m) d a o0 (xOfCls (rndCls m.rm)))
  | .h2add h m d a b => some (h, raw 0x30 (hpModBits m) d a b (xOfCls (rndCls m.rm)))
  | .h2mul h m d a b => some (h, raw 0x31 (hpModBits m) d a b (xOfCls (rndCls m.rm)))
  | .h2fma h m d a b c => some (h, raw 0x32 (hpModBits m) d a b (xC c))
  | .h2min h m d a b => some (h, raw 0x33 (hpModBits m) d a b (xOfCls (rndCls m.rm)))
  | .h2max h m d a b => some (h, raw 0x34 (hpModBits m) d a b (xOfCls (rndCls m.rm)))
  | .fdot2 h m d a b c => some (h, raw 0x35 (hpModBits m) d a b (xC c))
  | .fscl h m d a b => some (h, raw 0x36 (fpModBits m) d a b (xOfCls (rndCls m.rm)))
  | .fclass h m d a => some (h, raw 0x37 (fpModBits m) d a o0 (xOfCls (rndCls m.rm)))
  | .icmp h cond comb nat w64 t f d a b =>
    some (h, raw 0x40 (cond ++ comb ++ BitVec.ofBool nat) d a b (BitVec.ofBool w64 ++ f ++ t))
  | .fcmp h cond comb lo hi t f d a b =>
    some (h, raw 0x41 (cond ++ comb ++ BitVec.ofBool lo) d a b (BitVec.ofBool hi ++ f ++ t))
  | .sel h n w64 d a b c => some (h, raw 0x42 (BitVec.ofBool w64 ++ n) d a b (xC c))
  | .cvt h rm sat dt s d a =>
    some (h, { op := 0x43, md := (0 : BitVec 2) ++ BitVec.ofBool sat ++ rndBits rm, d := opdBits d,
               a := opdBits a, im := false,
               lo := (0 : BitVec 4) ++ rndCls rm ++ (0 : BitVec 1) ++ ctyBits s ++ ctyBits dt })
  | .pack h sz d a b c => some (h, raw 0x44 ((0 : BitVec 4) ++ sz) d a b (xC c))
  | .unpk h sz sx d a b => some (h, raw 0x45 ((0 : BitVec 3) ++ BitVec.ofBool sx ++ sz) d a b 0)
  | .t3enc h d a => some (h, raw 0x46 0 d a o0 0)
  | .t3dec h d a => some (h, raw 0x47 0 d a o0 0)
  | .mxscl h fmt d a => some (h, raw 0x48 ((0 : BitVec 3) ++ fmt) d a o0 0)
  | .shfl h mode b64 d a b => some (h, raw 0x50 ((0 : BitVec 3) ++ BitVec.ofBool b64 ++ mode) d a b 0)
  | .vote h mode d a b => some (h, raw 0x51 ((0 : BitVec 4) ++ mode) d a b 0)
  | .redi h op sat sg wd d a =>
    some (h, raw 0x52 (BitVec.ofBool sat ++ BitVec.ofBool sg ++ BitVec.ofBool wd ++ op) d a o0 0)
  | .redf h op ty d a => some (h, raw 0x53 ((0 : BitVec 1) ++ ftyBits ty ++ (0 : BitVec 1) ++ op) d a o0 0)
  | .scan h op excl sg wd d a =>
    some (h, raw 0x54 (BitVec.ofBool excl ++ BitVec.ofBool sg ++ BitVec.ofBool wd ++ op) d a o0 0)
  | .topk h ty least d a b => some (h, raw 0x55 ((0 : BitVec 3) ++ BitVec.ofBool least ++ ty) d a b 0)
  | .topkm h ty least d a b c =>
    some (h, raw 0x56 ((0 : BitVec 3) ++ BitVec.ofBool least ++ ty) d a b (xC c))
  | .matchEq h b64 d a => some (h, raw 0x57 ((0 : BitVec 5) ++ BitVec.ofBool b64) d a o0 0)
  | .br h off => some (h, raw 0x60 0 o0 o0 (.im off) 0)
  | .bru h off => some (h, raw 0x61 0 o0 o0 (.im off) 0)
  | .jn h => some (h, raw 0x62 0 o0 o0 o0 0)
  | .call h off => some (h, raw 0x63 0 o0 o0 (.im off) 0)
  | .ret h => some (h, raw 0x64 0 o0 o0 o0 0)
  | .loop h sz cnt => some (h, raw 0x65 ((0 : BitVec 4) ++ sz) o0 o0 cnt 0)
  | .brl h off => some (h, raw 0x66 0 o0 o0 (.im off) 0)
  | .exit h => some (h, raw 0x67 0 o0 o0 o0 0)
  | .jmp h a => some (h, raw 0x68 0 o0 a o0 0)
  | .calli h a => some (h, raw 0x69 0 o0 a o0 0)
  | .rgn h => some (h, raw 0x6A 0 o0 o0 o0 0)
  | .rds h d ix => some (h, raw 0x6B 0 d (.sp ix) o0 0)
  | .rdsId h d ix => some (h, raw 0x6B 1 d (.sp ix) o0 0)
  | .wrs h ix (.im v) => some (h, raw 0x6C 0 (.sp ix) o0 (.im v) 0)
  | .wrs h ix src => some (h, raw 0x6C 0 (.sp ix) src o0 0)
  | .ld h sz ord d m => some (h, rawMem 0x70 (szBits sz ++ ordBits ord) d m)
  | .st h sz ord d m => some (h, rawMem 0x71 (szBits sz ++ ordBits ord) d m)
  | .stNt h sz d m => some (h, rawMem 0x71 (szBits sz ++ (7 : BitVec 3)) d m)
  | .ldk h sz ord d m => some (h, rawMem 0x72 (szBits sz ++ ordBits ord) d m)
  | .stk h sz ord d m => some (h, rawMem 0x73 (szBits sz ++ ordBits ord) d m)
  | .lds h sz ord d m => some (h, rawMem 0x74 (szBits sz ++ ordBits ord) d m)
  | .sts h sz ord d m => some (h, rawMem 0x75 (szBits sz ++ ordBits ord) d m)
  | .ldsk h sz ord d m => some (h, rawMem 0x76 (szBits sz ++ ordBits ord) d m)
  | .ldskH h d m => some (h, rawMem 0x76 ((5 : BitVec 3) ++ (7 : BitVec 3)) d m)
  | .stsk h sz ord d m => some (h, rawMem 0x77 (szBits sz ++ ordBits ord) d m)
  | .atom h m op d a b =>
    some (h, raw 0x78 (atModBits m) d a b (aordBits m.ord ++ (0 : BitVec 5) ++ aopBits op))
  | .atoms h m op d a b =>
    some (h, raw 0x79 (atModBits m) d a b (aordBits m.ord ++ (0 : BitVec 5) ++ aopBits op))
  | .cas h m d a b c => some (h, raw 0x7A (atModBits m) d a b (aordBits m.ord ++ (0 : BitVec 1) ++ opdBits c))
  | .cass h m d a b c => some (h, raw 0x7B (atModBits m) d a b (aordBits m.ord ++ (0 : BitVec 1) ++ opdBits c))
  | .fence h form sc => some (h, raw 0x7C ((0 : BitVec 1) ++ fformBits form ++ scopeBits sc) o0 o0 o0 0)
  | .ntdrain h => some (h, raw 0x7D 0 o0 o0 o0 0)
  | .cmntWb h a b => some (h, raw 0x7E 0 o0 a b 0)
  | .cmntInv h a b => some (h, raw 0x7E 1 o0 a b 0)
  | .cmntWbi h a b => some (h, raw 0x7E 2 o0 a b 0)
  | .prf h l1 m => some (h, rawMem 0x7F ((0 : BitVec 5) ++ BitVec.ofBool l1) o0 m)
  | .cpy h dir cw d a b c => some (h, raw 0x90 (cwBits cw (dirBits dir)) d a b (xC c))
  | .cpyk h glob cw d a b c => some (h, raw 0x91 (cwBits cw ((0 : BitVec 1) ++ BitVec.ofBool glob)) d a b (xC c))
  | .waita h cond n64 acq sc a b =>
    some (h, raw 0x92 ((0 : BitVec 2) ++ BitVec.ofBool acq ++ BitVec.ofBool n64 ++ cond) o0 a b
      ((0 : BitVec 8) ++ scopeBits sc))
  | .htest h d a => some (h, raw 0x93 0 d a o0 0)
  | .hcan h a => some (h, raw 0x94 0 o0 a o0 0)
  | .qbind h d a b => some (h, raw 0x95 0 d a b 0)
  | .send h ch a => some (h, raw 0x96 ch o0 a o0 0)
  | .recv h ch a => some (h, raw 0x97 ch o0 a o0 0)
  | .qlen h d a => some (h, raw 0x98 0 d a o0 0)
  | .kmk h d a b => some (h, raw 0xA0 0 d a b 0)
  | .kpar h d a => some (h, raw 0xA1 0 d a o0 0)
  | .kchd h d a b => some (h, raw 0xA2 0 d a b 0)
  | .knbr h d a b => some (h, raw 0xA3 0 d a b 0)
  | .klv h d a => some (h, raw 0xA4 0 d a o0 0)
  | .kcrd h d a => some (h, raw 0xAD 0 d a o0 0)
  | .klook h d a e => some (h, raw 0xA5 0 d a o0 (xC e))
  | .klookW h d a e => some (h, raw 0xA5 1 d a o0 (xC e))
  | .kown h d a => some (h, raw 0xA6 0 d a o0 0)
  | .kpinR h d a e => some (h, raw 0xA7 0 d a o0 (xC e))
  | .kpinW h d a e => some (h, raw 0xA7 1 d a o0 (xC e))
  | .kunpinR h a => some (h, raw 0xA8 0 o0 a o0 0)
  | .kunpinW h a => some (h, raw 0xA8 1 o0 a o0 0)
  | .refine h cw d a b c => some (h, raw 0xA9 (cwBits cw 0) d a b (xC c))
  | .coarsen h cw d a c => some (h, raw 0xAA (cwBits cw 0) d a o0 (xC c))
  | .rebal h cw d a b c => some (h, raw 0xAB (cwBits cw 0) d a b (xC c))
  | .shovGive h d a => some (h, raw 0xAC 0 d a o0 0)
  | .shovTake h cw d a c => some (h, raw 0xAC (cwBits cw 1) d a o0 (xC c))
  | .mma h mc nc kind row col d a b => some (h, raw 0xB0 (kind ++ nc ++ mc) d a b ((0 : BitVec 3) ++ col ++ row))
  | .mdrn h tq cw d a => some (h, raw 0xB1 (cwBits cw ((0 : BitVec 1) ++ BitVec.ofBool tq)) d a o0 0)
  | .acpTs h row a nb => some (h, raw 0xB2 0 o0 a nb (xOfCls row))
  | .acpFs h row a nb => some (h, raw 0xB2 1 o0 a nb (xOfCls row))
  | .acpCkTs h row a nb => some (h, raw 0xB2 2 o0 a nb (xOfCls row))
  | .acpCkFs h row a nb => some (h, raw 0xB2 3 o0 a nb (xOfCls row))
  | .mmv h cw d a => some (h, raw 0xB3 (cwBits cw 0) d a o0 0)
  | .mzero h mc nc i32 row col =>
    some (h, raw 0xB4 ((0 : BitVec 1) ++ BitVec.ofBool i32 ++ nc ++ mc) o0 o0 o0 ((0 : BitVec 3) ++ col ++ row))
  | .sgenQ h run cls d a => some (h, raw 0xC0 (run ++ (0 : BitVec 4)) d a o0 (xOfCls cls))
  | .sgenK h run cls d a => some (h, raw 0xC0 (run ++ (1 : BitVec 4)) d a o0 (xOfCls cls))
  | .sand h run d a b => some (h, raw 0xC1 (run ++ (0 : BitVec 4)) d a b 0)
  | .sandC h run d a b => some (h, raw 0xC1 (run ++ (1 : BitVec 4)) d a b 0)
  | .sor h run d a b => some (h, raw 0xC2 (run ++ (0 : BitVec 4)) d a b 0)
  | .sorC h run d a b => some (h, raw 0xC2 (run ++ (1 : BitVec 4)) d a b 0)
  | .sxor h run d a b => some (h, raw 0xC3 (run ++ (0 : BitVec 4)) d a b 0)
  | .sxorC h run d a b => some (h, raw 0xC3 (run ++ (1 : BitVec 4)) d a b 0)
  | .sxnor h run d a b => some (h, raw 0xC4 (run ++ (0 : BitVec 4)) d a b 0)
  | .smux h run d a b s => some (h, raw 0xC5 (run ++ (0 : BitVec 4)) d a b (xC s))
  | .sregen h run cls d a => some (h, raw 0xC6 (run ++ (0 : BitVec 4)) d a o0 (xOfCls cls))
  | .scnt h d a b => some (h, raw 0xC7 0 d a b 0)
  | .scntr h d a => some (h, raw 0xC8 0 d a o0 0)
  | .sinv h run d a => some (h, raw 0xC9 (run ++ (0 : BitVec 4)) d a o0 0)
  | .slen h run d b => some (h, raw 0xCA (run ++ (0 : BitVec 4)) d o0 b 0)
  | .smovZ h run d a => some (h, raw 0xCB (run ++ (0 : BitVec 4)) d a o0 0)
  | .smovTs h run a b => some (h, raw 0xCB (run ++ (1 : BitVec 4)) o0 a b 0)
  | .smovFs h run d b => some (h, raw 0xCB (run ++ (2 : BitVec 4)) d o0 b 0)
  | .smovSt h d a => some (h, raw 0xCB 3 d a o0 0)
  | .slvb h m ex a b => some (h, raw 0xD0 ((0 : BitVec 2) ++ BitVec.ofBool ex ++ m) o0 a b 0)
  | .slvx h => some (h, raw 0xD1 0 o0 o0 o0 0)
  | .acq h => some (h, raw 0xD8 0 o0 o0 o0 0)
  | .rel h => some (h, raw 0xD9 0 o0 o0 o0 0)
  | .bar h sc => some (h, raw 0xDA ((0 : BitVec 4) ++ sc) o0 o0 o0 0)
  | .fetchIdx h d e => some (h, raw 0xDB 0 d o0 o0 (xC e))
  | .fetchTask h none d e => some (h, raw 0xDB 1 d o0 o0 (xC e))
  | .fetchTask h (some b) d e => some (h, raw 0xDB 3 d o0 b (xC e))
  | .deviceSideLaunch h d a => some (h, raw 0xDC 0 d a o0 0)
  | .join h d a => some (h, raw 0xDD 0 d a o0 0)
  | .trel h d a => some (h, raw 0xDE 0 d a o0 0)
  | .tabn h d a => some (h, raw 0xDF 0 d a o0 0)
  | .trap h n => some (h, raw 0xE0 0 o0 o0 (.im ((0 : BitVec 3) ++ n)) 0)
  | .tret h => some (h, raw 0xE1 0 o0 o0 o0 0)
  | .tretTo h a => some (h, raw 0xE1 1 o0 a o0 0)
  | .tretCtx h a => some (h, raw 0xE1 2 o0 a o0 0)
  | .tmskM h => some (h, raw 0xE2 0 o0 o0 o0 0)
  | .tmskU h => some (h, raw 0xE2 1 o0 o0 o0 0)
  | .brk h n => some (h, raw 0xE3 0 o0 o0 (.im ((0 : BitVec 3) ++ n)) 0)
  | .pmskD h => some (h, raw 0xE4 0 o0 o0 o0 0)
  | .pmskA h => some (h, raw 0xE4 1 o0 o0 o0 0)
  | .evnt h a n => some (h, raw 0xE5 0 o0 a (.im ((0 : BitVec 3) ++ n)) 0)
  | _ => none

/-- The word of an instruction; packets and events have none. -/
def encode (i : Instr) : Option W64 :=
  match i with
  | .guardFalseNop => some 0
  | .pairWord sw p0 p1 => some (BitVec.ofBool sw ++ (1 : BitVec 1) ++ halfBits p0 ++ halfBits p1)
  | i => (encodeRaw i).map fun p => wordOf p.1 p.2

/-! ### Packets of the host queues -/

/-- `n` bytes at offset `o` of a packet or descriptor, little-endian (R3). -/
def leField (bs : List Byte) (o n : Nat) : Nat :=
  ((bs.drop o).take n).foldr (fun b acc => b.toNat + 256 * acc) 0

/-- Every byte of a range of offsets is zero. -/
def zeroBytes (bs : List Byte) (lo hi : Nat) : Bool :=
  ((bs.drop lo).take (hi - lo)).all (· == 0)

/-- Why the beater refuses a packet: a queue error code and whether its class is stopping (R385, R386, R455). -/
structure PacketErr where
  code : Nat
  stopping : Bool
  deriving DecidableEq, Repr

/-- The common header's reserved bits: flg[7:1] and byte 3 (R385). -/
def headerOk (bs : List Byte) : Bool := leField bs 2 1 < 2 && leField bs 3 1 == 0

/-- A packet of a host queue of a die (R385, R386): `lo` and `hi` are the packet versions accepted. `grp` says that
the queue is the VX group queue, the only one that takes a SPAN_LAUNCH (R392). -/
def decodePacket (die queue : Nat) (grp : Bool) (lo hi : Nat) (bs : List Byte) : Except PacketErr Instr :=
  let ty := leField bs 0 1
  let ver := leField bs 1 1
  let bar := leField bs 2 1 == 1
  let tag := BitVec.ofNat 32 (leField bs 4 4)
  let q8 := fun o => BitVec.ofNat 64 (leField bs o 8)
  let bad := Except.error { code := 3, stopping := true }
  let ok := fun (c : Bool) (i : Instr) => if c && headerOk bs then Except.ok i else bad
  if ty == 0 || 0x0B ≤ ty then .error { code := 1, stopping := true }
  else if ver < lo || hi < ver then .error { code := 2, stopping := true }
  else match ty with
  | 1 => ok (leField bs 8 8 % 8 == 0 && leField bs 24 1 < 2 && zeroBytes bs 25 64)
      (.signal die queue bar tag (q8 8) (q8 16) (leField bs 24 1 == 1))
  | 2 => ok (leField bs 8 8 % 8 == 0 && leField bs 24 1 < 4 && zeroBytes bs 25 64)
      (.waitSignal die queue bar tag (q8 8) (q8 16) (BitVec.ofNat 2 (leField bs 24 1)))
  | 3 => ok (zeroBytes bs 16 64) (.launch die queue bar tag (q8 8))
  | 4 => ok (grp && zeroBytes bs 44 48)
      (.spanLaunch bar tag [q8 8, q8 16, q8 24, q8 32]
        (((bs.drop 40).take 4)) (q8 48) (q8 56))
  | 5 => ok (0 < leField bs 24 8 && leField bs 24 8 ≤ 2 ^ 31 && leField bs 40 8 < 2 ^ 63 && zeroBytes bs 48 64 &&
        leField bs 32 8 % 8 == 0)
      (.copy die queue bar tag (q8 8) (q8 16) (q8 24) (q8 32) (q8 40))
  | 6 => ok (zeroBytes bs 30 32 && zeroBytes bs 48 64)
      (.pageMove die queue bar tag (q8 8) (q8 16) (BitVec.ofNat 32 (leField bs 24 4))
        (BitVec.ofNat 8 (leField bs 28 1)) (BitVec.ofNat 8 (leField bs 29 1)) (q8 32) (q8 40))
  | 7 => ok (leField bs 16 1 < 16 && zeroBytes bs 17 64)
      (.spaceCreate die queue bar tag (q8 8) (BitVec.ofNat 8 (leField bs 16 1)))
  | 8 => ok (leField bs 16 1 < 16 && zeroBytes bs 8 16 && zeroBytes bs 17 64)
      (.spaceDestroy die queue bar tag (BitVec.ofNat 8 (leField bs 16 1)))
  | 9 => ok (zeroBytes bs 17 18 && zeroBytes bs 20 64)
      (.eventConfig die queue bar tag (q8 8) (BitVec.ofNat 8 (leField bs 16 1)) (BitVec.ofNat 16 (leField bs 18 2)))
  | _ => ok (zeroBytes bs 8 64) (.nopPacket die queue bar tag)

end Sys2Proof
end

