-- ==== Sys2Proof/Config.lean ====
section
/-! DEFINITION. What the specification leaves free: constants without a body, so that nothing in Lean can evaluate
them. The machine applies each to a counter that State holds (log entries 2 and 3) or to the operands it depends on. -/

namespace Sys2Proof

/-! ### What a loader hands to the machine (R240, R244, R245) -/

namespace Machine

/-- A schedule table of a kernel (R240, R395). -/
structure SchTab where
  phase : Nat
  table : Nat
  shares : List Nat
  deriving DecidableEq, Repr, Inhabited

/-- A channel that an image declares (R240, R245). -/
structure ChanDecl where
  id : Nat
  slots : Nat
  prod : Nat
  cons : Nat
  deriving DecidableEq, Repr, Inhabited

/-- A key space that an image declares: its number and attributes, and the index of the kernel descriptor (R245). -/
structure SpaceDecl where
  sp : Nat
  dim : Nat
  per : Nat
  elems : Nat
  slot : Nat
  kernel : Nat
  deriving DecidableEq, Repr, Inhabited

/-- A loaded image as its loader recorded it (R244, R245): where its launch descriptors lie and their bytes, its scratch layout, its channel table,
its schedule tables and its key-space declarations. -/
structure Image where
  lo : Nat
  n : Nat
  scratch : List Byte
  chans : List ChanDecl
  sch : List SchTab
  decls : List SpaceDecl := []
  deriving DecidableEq, Repr, Inhabited

/-- The header of a firmware image (R463): component, versions, security version number, length of the body, digest of the body, and the signer's key identifier. -/
structure FwHdr where
  comp : Nat
  major : Nat
  minor : Nat
  svn : Nat
  len : Nat
  digest : List Byte
  key : List Byte
  deriving DecidableEq, Repr, Inhabited

end Machine

/-- What moves next: a fragment issues one word, one event of the opcode table happens, the loader of a die reports an image that it has
placed, or a soft error changes an accumulator element without poison (log entries 2, 54 and 100). -/
inductive Turn where
  | issue (f : FragRef)
  | ev (i : Instr)
  | load (die : Nat) (img : Machine.Image)
  | flip (die core elem : Nat) (v : W32)
  deriving DecidableEq, Repr, Inhabited

namespace Config

/-- The turn that the device takes when the agenda is empty (R131, R162, R403): free. -/
opaque turn : Nat → Turn

/-- Contents of a register that no rule states: a register of a fresh window body, an unwritten slot (log entry 3). -/
opaque freeWord : Nat → BitVec 32

/-- A choice that the specification leaves to the device (log entry 3). -/
opaque freeBool : Nat → Bool

/-- A choice among several that the specification leaves to the device (log entry 3). -/
opaque freeNat : Nat → Nat

/-- The result of a real function where the model's interval arithmetic does not decide the rounding (log entry 10). -/
opaque freeReal : Nat → Nat → Nat × Bool

/-- The encoding of a small immediate that a conversion's source type does not hold (log entry 13). -/
opaque immVal (t : CTy) (v : BitVec 5) : Nat

/-- The SHA-384 digest (R463, R464). -/
opaque sha384 : List Byte → List Byte

/-- The firmware image that a part holds for each component before any is written through the management function (R463). -/
opaque flashImage : Nat → List Byte

/-- The fields of a firmware header (R463): the rule names them and does not place them. -/
opaque fwHeader : List Byte → Machine.FwHdr

/-- The signature over an image's bytes verifies under the key of an identifier (R248, R463). -/
opaque sigOk : List Byte → List Byte → List Byte → Bool

/-- The SHA-384 digest of the root public key, from the fuses (R463). -/
opaque fuseRoot : List Byte

/-- The fused minimum of a component's security version number (R463). -/
opaque fuseSvn : Nat → Nat

/-- A major version of a component's image that its verifier knows (R463). -/
opaque majorKnown : Nat → Nat → Bool

/-- The fused device secret (R464). -/
opaque deviceSecret : List Byte

/-- The P-384 key pair that a secret gives: private and public key (R464). -/
opaque keyPair : List Byte → List Byte × List Byte

/-- The X.509 v3 certificate chain for a public key, which ends at Ilwyn's root (R464). -/
opaque certChain : List Byte → List (List Byte)

/-- The ECDSA P-384 signature of a SHA-384 digest under a private key (R464). -/
opaque sign : List Byte → List Byte → List Byte

/-- The initial value, the final mask and the bit order of the FeltLink CRC (R460): its polynomial is stated, these are not. -/
opaque crcInit : BitVec 64

@[inherit_doc crcInit]
opaque crcOut : BitVec 64

@[inherit_doc crcInit]
opaque crcLsbFirst : Bool

/-- The crossbar port of a die towards its lower neighbour (0), its upper neighbour (1) or VX (2): R14 counts the ports and R458 does not number them. -/
opaque linkPort : Nat → Nat → Nat

/-- The crossbar port of a die behind which its directory agents stand (R112, R458). -/
opaque dirPort : Nat → Nat

end Config

end Sys2Proof
end

