-- ==== Sys2Proof/Machine/Tab.lean ====
section
/-! DEFINITION. Sparse tables: lists of keyed entries in rising key order, the form in which the state holds
memories, registers and everything that is mostly absent. -/

namespace Sys2Proof.Machine

/-- A sparse table. -/
abbrev Tab (α : Type) := List (Nat × α)

/-- The entry of a key. -/
def Tab.get? {α : Type} : Tab α → Nat → Option α
  | [], _ => none
  | (k, v) :: t, i => if k = i then some v else Tab.get? t i

/-- The entry of a key, or a default. -/
def Tab.getD {α : Type} (t : Tab α) (i : Nat) (d : α) : α := (Tab.get? t i).getD d

/-- Writes an entry, keeping keys in rising order. -/
def Tab.set {α : Type} : Tab α → Nat → α → Tab α
  | [], i, x => [(i, x)]
  | (k, v) :: t, i, x =>
    if i < k then (i, x) :: (k, v) :: t
    else if k = i then (i, x) :: t
    else (k, v) :: Tab.set t i x

/-- Removes the entries of a key. -/
def Tab.erase {α : Type} : Tab α → Nat → Tab α
  | [], _ => []
  | (k, v) :: t, i => if k = i then Tab.erase t i else (k, v) :: Tab.erase t i

/-- Writes an entry, or removes it where it equals the value an absent entry reads as. -/
def Tab.put {α : Type} [DecidableEq α] (t : Tab α) (i : Nat) (x d : α) : Tab α :=
  if x = d then Tab.erase t i else Tab.set t i x

/-- Changes an entry that is present. -/
def Tab.modify {α : Type} (t : Tab α) (i : Nat) (g : α → α) : Tab α :=
  match Tab.get? t i with
  | some x => Tab.set t i (g x)
  | none => t

/-- The entries. -/
def Tab.vals {α : Type} (t : Tab α) : List α := t.map (·.2)

/-- The keys. -/
def Tab.keys {α : Type} (t : Tab α) : List Nat := t.map (·.1)

/-- Keys rise strictly, every one above `lo`. -/
def Tab.risingFrom {α : Type} : Nat → Tab α → Bool
  | _, [] => true
  | lo, (k, _) :: t => lo ≤ k && Tab.risingFrom (k + 1) t

/-- Replaces the element at an index of a list. -/
def listMod {α : Type} : List α → Nat → (α → α) → List α
  | [], _, _ => []
  | x :: t, 0, g => g x :: t
  | x :: t, i + 1, g => x :: listMod t i g

/-- Inserts before the first element that is not smaller. -/
def insertBy {α : Type} (lt : α → α → Bool) (x : α) : List α → List α
  | [] => [x]
  | y :: t => if lt y x then y :: insertBy lt x t else x :: y :: t

/-- Stable insertion sort. -/
def sortBy {α : Type} (lt : α → α → Bool) (l : List α) : List α := l.foldr (insertBy lt) []

end Sys2Proof.Machine
end

