-- ==== Sys2Proof/Machine/State.lean ====
section
/-! DEFINITION. The state of one VN4 package as plain data, the reasons a step can stop, and the state after reset. -/

namespace Sys2Proof.Machine

/-- Reasons the machine stops with a fault. No rule of the specification stops the machine (every fault it describes
is a trap, a status code or a queue error), so nothing raises this. -/
inductive Fault where
  /-- Raised by nothing; it stands for a state that no rule reaches. Safe. -/
  | impossible
  deriving DecidableEq, Repr

/-- Reasons the machine refuses an instruction. -/
inductive Refusal where
  /-- Raised by an arm of `exec` whose instruction has no meaning yet. Safe. -/
  | notModelled (mnemonic : String)
  deriving DecidableEq, Repr

/-- Why a fragment does not issue its next word (R59, R198, R403, R420). -/
inductive Wait where
  | none
  /-- stalled at issue: a pending register, a full queue, an ordering wait -/
  | stall
  /-- a walk for the fragment itself (a fetch, a spill, a fill, a maintenance page) stands at a page-busy leaf and holds a walker (R60) -/
  | walk
  /-- a pop that waits for words of a queue (R91) -/
  | pop (q : Nat)
  /-- a push that waits for room in a queue (R91) -/
  | push (q : Nat)
  /-- the binding it waited on has gone (R90, R92) -/
  | popDead (q : Nat)
  /-- a switch marker waits for results (R225) -/
  | marker
  | waita | ntdrain | cmnt | rel | join | task | dir
  | bar (sc : Nat)
  | acq
  | mxLease | puLease
  /-- a matrix instruction touches elements that an `mmv` reserves (R344) -/
  | mxRes
  | slvb | slvx
  | jn
  /-- an `smov.fs` waits for a stream set (R345) -/
  | set
  deriving DecidableEq, Repr, Inhabited

/-- An imprecise fault that has returned (R59): cause, `trapinfo`, the address of the faulting word, and the threads whose
accesses of that word have not been performed (R419). -/
structure FaultRec where
  cause : Nat
  info : W64
  word : W64
  seq : Nat
  mask : W32
  deriving DecidableEq, Repr, Inhabited

/-- What a parked `waita` watches (R85, R311): offset, bytes, comparand, condition, acquire scope. -/
structure Watch where
  off : Nat
  n : Nat
  val : W64
  cond : BitVec 2
  acq : Option Scope
  deriving DecidableEq, Repr, Inhabited

/-- A PC slot (R189). `occ` is its occupation, `uid` the fragment's identity, `seq` the number of words it has issued, `rplOn` that its replay mask is in
use (R419), `wdt` the branch whose count exceeded `wlim` (R209). `relOf` lists the stores that its cluster's tracker held when the waiting release issued (R137).
`wdHeld` is a watchdog trap that was due when another trap was taken, `iword` the word that it has fetched and that waits to issue, `prevIssue` the issue before
the one that is being tried (R403), and `kept` the wait of its word while a fetch of that word is held up again. -/
structure Frag where
  occ : Bool := false
  uid : Nat := 0
  seq : Nat := 0
  lastIssue : Nat := 0
  prevIssue : Nat := 0
  iword : Option W64 := none
  pc : W64 := 0
  am : W32 := 0
  sm : W32 := 0
  lcnt : W32 := 0
  turn : Nat := 0
  rsz : Nat := 0
  wdc : W64 := 0
  fragid : W32 := 0
  parentid : W32 := 0xFFFFFFFF
  regionpc : W64 := 0
  regioncnt : W32 := 0
  trapcause : W64 := 0
  trapinfo : W64 := 0
  inH : Bool := false
  masked : Bool := false
  pdef : Bool := false
  sys : Bool := false
  rpl : W32 := 0
  rplOn : Bool := false
  wait : Wait := .none
  kept : Wait := .none
  wdt : Option W64 := none
  wdHeld : Option W64 := none
  fault : Option FaultRec := none
  watch : Option Watch := none
  relOf : Option (List Nat) := none
  stopped : Bool := false
  deriving DecidableEq, Repr, Inhabited

/-- A thread (R187, R199, R203). `regs` and `pois` use the register keys of `regKey`; an absent register reads 0. -/
structure Thr where
  tid : Nat := 0
  live : Bool := false
  regs : Tab W32 := []
  pois : List Nat := []
  dep : Nat := 0
  res : Nat := 1
  deriving DecidableEq, Repr, Inhabited

/-- A warp slot (R187). `entered` says that it runs the pre-emption handler, `swapped` that the handler has ended; its slots as they
stopped are then `sv0` and `sv1`, and `area` numbers its save area (R421, R426). `preW` is a request for this warp alone (R195), and `wuid` the warp's identity. -/
structure Warp where
  s0 : Frag := {}
  s1 : Frag := {}
  thr : List Thr := []
  k : Tab W64 := []
  kpend : W32 := 0
  kpois : W32 := 0
  srix : W32 := 0
  fpstat : BitVec 5 := 0
  fills : W32 := 0
  spills : W32 := 0
  fragCtr : W32 := 0
  task : Option W64 := none
  bound : Option W64 := none
  issueCyc : Nat := 0
  costDue : Nat := 0
  entered : Bool := false
  swapped : Bool := false
  sv0 : Frag := {}
  sv1 : Frag := {}
  area : Nat := 0
  preW : Bool := false
  parkedAt : Nat := 0
  wuid : Nat := 0
  deriving DecidableEq, Repr, Inhabited

/-- A queue register (R90). -/
structure QReg where
  port : Nat := 0
  ring : Nat := 0
  head : Nat := 0
  tail : Nat := 0
  faulted : Bool := false
  deriving DecidableEq, Repr, Inhabited

/-- A spawn record held by a bin of the former (R192, R194): where it lies. -/
structure SpawnRec where
  inScr : Bool
  addr : Nat
  deriving DecidableEq, Repr, Inhabited

/-- A bin of the former (R194). -/
structure Bin where
  pc : W64
  lcnt : W32
  turn : Nat
  rsz : Nat
  recs : List (Nat × SpawnRec)
  last : Nat
  ripe : Bool
  deriving DecidableEq, Repr, Inhabited

/-- A barrier scope of a workgroup (R198, R408): the current instance, the fragments that have arrived, and those that departed
while their warp was saved. Fragments are named by their identities. -/
structure BarSt where
  inst : Nat := 0
  arrived : List Nat := []
  departed : List Nat := []
  deriving DecidableEq, Repr, Inhabited

/-- A warp that has arrived at `slvb` (`op`) or `slvx`: the word, its address, and the values it brings (R368, R369). -/
structure SlvArr where
  warp : Nat
  s1 : Bool
  op : Bool
  at_ : W64
  word : W64
  tau : W64 := 0
  kd : W64 := 0
  m : Nat := 0
  exc : Bool := false
  deriving DecidableEq, Repr, Inhabited

/-- The solve region of a workgroup (R365 to R378): depth, ceiling action, tolerance, the descriptor and where it lies, the address of
`slvb`, steps taken, the owner of its range-lock entries, and the warps that have arrived. -/
structure Solve where
  opened : Bool := false
  m : Nat := 0
  exc : Bool := false
  tau : W64 := 0
  desc : List Byte := []
  descAt : Nat := 0
  at_ : W64 := 0
  k : Nat := 0
  lockId : Nat := 0
  arr : List SlvArr := []
  deriving DecidableEq, Repr, Inhabited

/-- A workgroup (R187, R208, R243, R390). `outRot` numbers the rotation of its core that swapped it out (R404), and `fwalk` says that the former holds a walker
for it at a page-busy leaf (R60). -/
structure Wg where
  grid : Nat := 0
  wgid : Nat := 0
  core : Nat := 0
  resident : Bool := true
  since : Nat := 0
  outSeq : Nat := 0
  outRot : Nat := 0
  fwalk : Bool := false
  nwarp : Nat := 1
  nslot : Nat := 1
  spawnCap : Nat := 0
  conv : Bool := true
  ftz : Bool := false
  precise : Bool := false
  privcl : Bool := false
  wlim : W64 := 0
  trapv : W64 := 0
  entry : W64 := 0
  mlease : Nat := 256
  please : Nat := 4096
  nwinFull : Nat := 2
  bandsFull : Nat := 0
  prol : Nat := 0
  full : Nat := 0
  carve : Nat := 0
  bstoreBase : W64 := 0
  stride : Nat := 8
  spov : W64 := 0
  ctx : W64 := 0
  kimg : List W64 := []
  spbase : Nat := 0
  splen : Nat := 0
  nwin : Nat := 2
  bands : BitVec 16 := 0
  acqPend : Bool := false
  fullHeld : Bool := false
  queues : List QReg := []
  bins : List Bin := []
  recSeq : Nat := 0
  bars : List BarSt := []
  slv : Solve := {}
  slvk : W64 := 0
  slvnorm : W64 := 0
  warps : Tab Warp := []
  outWarps : List Warp := []
  started : Bool := true
  fetchPart : Nat := 0
  fetchAt : Nat := 0
  fetchCur : Option Nat := none
  preReq : Bool := false
  preAt : Nat := 0
  preOver : Bool := false
  restoring : Bool := false
  orphans : List W64 := []
  exited : Bool := false
  deriving DecidableEq, Repr, Inhabited

/-- A handle-table entry (R79), with the scope of its command (R144). A free entry keeps the sequence number of its last use. -/
structure HEnt where
  used : Bool := false
  seq : BitVec 23 := 0
  tag : Nat := 0
  status : Option W64 := none
  sc : Scope := .wg
  deriving DecidableEq, Repr, Inhabited

/-- A range-lock entry (R87): bytes `lo` to `hi`, in 64-byte units; `full` locks reads too; `cmd` is the owner. -/
structure Lock where
  glob : Bool
  lo : Nat
  hi : Nat
  full : Bool
  cmd : Nat
  deriving DecidableEq, Repr, Inhabited

/-- A completion word (R84). -/
structure CWord where
  off : Nat
  val : W64
  sc : Scope
  deriving DecidableEq, Repr, Inhabited

/-- What an engine command does (R74, R76, R117, R118, R122, R126, R35, R38, R335, R342, R400, R45). -/
inductive CmdKind where
  | cpy (dir : CpyDir) (dst src len : Nat)
  | cpyk (glob : Bool) (dst list cnt sp stride fmt : Nat)
  | refine (key : W64) (fmt : Nat)
  | coarsen (key : W64)
  | rebal (sp desc : Nat)
  | shovGive (s : Nat)
  | shovTake (s : Nat)
  | mdrn (desc : List Byte) (tq : Bool) (srix : W32)
  | mmv (desc : List Byte)
  | launch (rec : W64)
  | bcopy (dst src len : Nat)
  | rcopy (dst src len : Nat)
  | pmove (va dst npg psz : Nat)
  deriving DecidableEq, Repr, Inhabited

/-- Where a command stands. `next` counts the units, keys or pages already done. -/
inductive CmdSt where
  | waiting
  | leave
  | running
  | done (status : W64)
  deriving DecidableEq, Repr, Inhabited

/-- An engine command (R75, R308). `core` 96 is the beater. `next` counts what is done, or the steps of a page move; `touched`
lists the stacks of running hand-overs that it had issued a request to (R36); `out` is the payload of a drain; `walk` says that it holds a walker at a page-busy
leaf (R60), and `relOf` the stores that its cluster's tracker held when its payload ended (R84, R137); `wuid` is the identity of the warp that issued it (R179),
`keys` the list of a gather as it read it, `pinned` the record on which a gather holds its read pin (R76), and `sid` the key space that a structural command named when it
was issued (R389). -/
structure Cmd where
  id : Nat
  die : Nat
  core : Nat
  wg : Nat := 0
  frag : Option FragRef := none
  ent : Option Nat := none
  hseq : BitVec 23 := 0
  kind : CmdKind
  cw : Option CWord := none
  gcw : Option (W64 × W64) := none
  queue : Nat := 64
  tag : W32 := 0
  qrd : W32 := 0
  st : CmdSt := .waiting
  next : Nat := 0
  old : List (Nat × W64) := []
  out : List (Nat × List Byte) := []
  touched : List Nat := []
  wuid : Nat := 0
  walk : Bool := false
  relOf : Option (List Nat) := none
  sid : Option Nat := none
  keys : List (W64 × Bool) := []
  pinned : Option Nat := none
  deriving DecidableEq, Repr, Inhabited

/-- The work of a matrix-engine entry (R323): windows by row, column, rows, columns. -/
inductive MxOp where
  | none
  | mma (row col m n kind : Nat) (fb : W64) (a b : Nat)
  | mzero (row col m n : Nat) (int : Bool)
  | mdrn (cmd : Nat) (row col m n : Nat)
  | acp (fs ck : Bool) (row nb off : Nat)
  deriving DecidableEq, Repr, Inhabited

/-- A matrix or pulp instruction accepted by its engine and not finished (R323, R353): who issued it, its work, the queue it
pushes, whether that binding has gone (R90), and the words it still pushes, its scratchpad operands as offsets and lengths, the operand bytes as they stood at
issue (R324), and whether it counts against a lease (R322, R352). -/
structure EngOp where
  wg : Nat
  warp : Nat
  frag : FragRef := default
  uid : Nat := 0
  wuid : Nat := 0
  seq : Nat := 0
  word : W64 := 0
  op : MxOp := .none
  outQ : Option Nat := none
  dead : Bool := false
  push : List W32 := []
  reads : List (Nat × Nat) := []
  writes : List (Nat × Nat) := []
  snap : List Byte := []
  leased : Bool := false
  deriving DecidableEq, Repr, Inhabited

/-- A lease (R401): the holder, its counted instructions, and the workgroups that wait, in order. -/
structure Lease where
  holder : Option Nat := none
  count : Nat := 0
  waiters : List Nat := []
  deriving DecidableEq, Repr, Inhabited

/-- A stream set (R345, R346): 32 registers of 4,096 bits with their state words. -/
structure StreamSet where
  owner : Option Nat := none
  z : Tab Stream := []
  w : Tab W32 := []
  deriving DecidableEq, Repr, Inhabited

/-- A sub-tile of the accumulator store (R66). -/
structure SubTile where
  i32 : Bool := false
  sat : Bool := false
  ckv : Bool := false
  deriving DecidableEq, Repr, Inhabited

/-- A line of the L1 or of a cluster store (R65, R70): 128 bytes; `dsh` is the die-shared tag bit. -/
structure Line where
  data : List Byte
  dirty : Bool := false
  dsh : Bool := false
  pois : List Nat := []
  deriving DecidableEq, Repr, Inhabited

/-- A TLB entry (R56): the page's virtual base and size, the leaf, and where the leaf lies. -/
structure TlbEnt where
  va : Nat
  size : Nat
  leaf : W64
  at_ : Nat
  deriving DecidableEq, Repr, Inhabited

/-- What a core watches for a parked `waita` (R85): the fragment's identity, the comparison, whether a write since has satisfied it, and the first locked
byte where a write had it made in a locked range (R88). -/
structure Watcher where
  uid : Nat
  w : Watch
  hit : Bool := false
  bad : Option Nat := none
  deriving DecidableEq, Repr, Inhabited

/-- Payload that a command has put in a scratchpad: the bytes as they were before it, the scope of the command, and the warps that have acquired since
(R86, R156). -/
structure Lag where
  off : Nat
  old : List Byte
  sc : Scope
  seen : List Nat := []
  deriving DecidableEq, Repr, Inhabited

/-- A core. `rotNo` counts its rotations (R404), and `lag` is the payload that a reader without an acquire may still miss (R86). -/
structure Core where
  carve : Nat := 0
  scr : Tab Byte := []
  spois : List Nat := []
  watches : List Watcher := []
  acc : Tab W32 := []
  subt : Tab SubTile := []
  ccol : Tab W64 := []
  crow : Tab W64 := []
  accPois : List Nat := []
  handles : Tab HEnt := []
  locks : List Lock := []
  mxq : List EngOp := []
  pq : List EngOp := []
  mxLease : Lease := {}
  puLease : Lease := {}
  sets : List StreamSet := [{}, {}, {}, {}]
  l1 : List (Nat × Line) := []
  icache : Tab W64 := []
  tlb : List TlbEnt := []
  acqQ : List Nat := []
  calQ : List Nat := []
  hot : Bool := false
  temp : Nat := 0
  droops : List Nat := []
  fenced : List Nat := []
  lastRot : Nat := 0
  rotNo : Nat := 0
  lag : List Lag := []
  rotWant : Bool := false
  katAt : Tab Nat := []
  deriving DecidableEq, Repr, Inhabited

/-- A cluster: its store, its second-level TLB and its walk cache (R56, R70). Its dirty-region tracker holds the 4 KiB regions
of the cluster's accesses in flight that are marked `tracked` (R71). -/
structure Cluster where
  lines : Tab Line := []
  tlb2 : List TlbEnt := []
  big : List TlbEnt := []
  walkc : List (Nat × W64) := []
  deriving DecidableEq, Repr, Inhabited

/-- A blocked `WAIT_SIGNAL` with the tag and index of its packet; `met` once an atomic at the word's home has left a value
that satisfies it (R387). -/
structure WaitSig where
  addr : W64
  val : W64
  cond : BitVec 2
  tag : W32
  rd : W32
  met : Bool := false
  deriving DecidableEq, Repr, Inhabited

/-- A host queue (R383). `outst` holds the packets parsed and not completed. -/
structure HQueue where
  en : Bool := false
  base : W64 := 0
  lsz : BitVec 5 := 0
  wr : W32 := 0
  rd : W32 := 0
  err : BitVec 16 := 0
  stop : Bool := false
  blocked : Option WaitSig := none
  outst : List Nat := []
  deriving DecidableEq, Repr, Inhabited

/-- A channel of a grid (R316). A filled slot has 64 bytes and its poisoned units. -/
structure Chan where
  cap : Nat
  prod : Nat
  cons : Nat
  filled : List (List Byte × List Nat) := []
  closed : Bool := false
  consGone : Bool := false
  deriving DecidableEq, Repr, Inhabited

/-- A ready task of a grid (R397). -/
structure Ready where
  cluster : Nat
  tcb : W64
  prio : Nat
  key : W64
  deriving DecidableEq, Repr, Inhabited

/-- Work that a task dispenser still has to do (R121, R397, R398, R412): see whether a listed task is ready, put a ready task in a queue, record a fault,
or add a count to the record of a key. -/
inductive TaskJob where
  | look (tcb : W64)
  | enter (tcb : W64)
  | fault (tcb : W64) (wgid code : Nat)
  | cost (key : W64) (n : Nat)
  deriving DecidableEq, Repr, Inhabited

/-- Where a launch came from: a packet of a queue, a device-side launch, or neither. -/
inductive GridSrc where
  | packet (queue : Nat) (tag qrd : W32)
  | device (cmd : Nat)
  deriving DecidableEq, Repr, Inhabited

/-- A grid (R390), from its launch to its completion. -/
structure Grid where
  id : Nat
  grec : W64
  src : GridSrc := .packet 64 0 0
  dispatched : Bool := false
  span : Option Nat := none
  base? : Option (W64 × W64) := none
  desc : List Byte := []
  P : Nat := 0
  disp : Nat := 0
  cstk : Nat := 0
  ctr : Nat := 0
  nidx : Nat := 0
  ibase : W64 := 0
  minch : Nat := 1
  tlist : List W64 := []
  flist : W64 := 0
  flcap : Nat := 0
  sig : W64 := 0
  sigv : W64 := 0
  mode : BitVec 2 := 0
  wgs : List Nat := []
  chans : Tab Chan := []
  sch : List SchTab := []
  phase : Nat := 0
  curTab : Option SchTab := none
  cost : Tab Nat := []
  hadTab : Bool := false
  ready : List Ready := []
  held : List (W64 × W64) := []
  jobs : List TaskJob := []
  deriving DecidableEq, Repr, Inhabited

/-- A request for leave (R402): its class, what asks, and how many later requests have passed it. -/
inductive LeaveFor where
  | pulp (core wg : Nat)
  | matrix (core wg : Nat)
  | mmv (cmd : Nat)
  | acq (core wg : Nat)
  | give (cmd : Nat)
  deriving DecidableEq, Repr, Inhabited

/-- A `LAUNCH` that VX has written into queue 63: its record, its index there, the spanning launch, and the values that replace nidx and ibase
(R392). -/
structure SpanShare where
  rec_ : W64
  ix : W32
  span : Nat
  n : W64
  base : W64
  deriving DecidableEq, Repr, Inhabited

/-- A `SPACE_DESTROY` that has been parsed and waits (R389). -/
structure DestroyReq where
  sp : Nat
  queue : Nat
  tag : W32
  rd : W32
  deriving DecidableEq, Repr, Inhabited

/-- A flit of a multicast group at an input of a die's crossbar: its residual mask, the key space that it speaks of, and whether it installs or invalidates
(R112, R458, R459). -/
structure McFlit where
  inp : Nat
  grp : Nat
  mask : W64
  sp : Nat
  inst : Bool
  deriving DecidableEq, Repr, Inhabited

/-- A die. `cyc0` is the clock, and `tick0` the step, at which its cores' cycle counts were 0 (R206); `mcGot` holds the deckle messages that its crossbar has
delivered (R112, R459), and `grants` the inputs that its output ports have granted, newest first, each once (R457). -/
structure Die where
  pgroot : W64 := 0
  capinfo : W64 := 0
  cyc0 : Nat := 0
  tick0 : Nat := 0
  own : BitVec 8 := 0
  hov : BitVec 8 := 0
  allow : BitVec 4 := 0
  tlbinv : W64 := 0
  ckfail : W32 := 0
  ckcorr : W32 := 0
  schctl : W64 := 0
  preWant : List Nat := []
  vec : W64 := 0
  csz : BitVec 16 := 1
  dl : W32 := 0x100000
  bkh : Bool := false
  halt : Bool := false
  eccCons : BitVec 16 := 0
  eccUnc : BitVec 16 := 0
  eccCorr : BitVec 16 := 0
  katIntv : BitVec 16 := 16
  katEn : Bool := true
  katFail : W32 := 0
  rev : W64 := 0
  feat : W64 := 0
  vreq : Byte := 0
  vans : Byte := 0
  evEn : Bool := false
  evBase : W64 := 0
  evLsz : BitVec 5 := 0
  evWr : W32 := 0
  evRd : W32 := 0
  evLost : W32 := 0
  evMsk : BitVec 16 := 0x017E
  evSince : Nat := 0
  evPend : List (List Byte) := []
  omap : List Nat := [0, 0, 1, 1, 2, 2, 3, 3]
  queues : Tab HQueue := []
  beat : List (Nat × Instr) := []
  spanQ : List SpanShare := []
  destroyQ : List DestroyReq := []
  xbar : Tab W64 := []
  egress : Tab W64 := []
  mcast : List McFlit := []
  mcGot : List (Nat × Bool) := []
  grants : List (Nat × Nat) := []
  grids : List Grid := []
  images : List Image := []
  leaveQ : List (LeaveFor × Nat) := []
  cores : Tab Core := []
  clusters : Tab Cluster := []
  wgs : Tab Wg := []
  inReset : Bool := false
  deriving DecidableEq, Repr, Inhabited

/-- A hand-over in progress (R36): the command, the dies, and the last step begun. -/
structure Hov where
  cmd : Nat
  give : Nat
  take : Nat
  step : Nat
  deriving DecidableEq, Repr, Inhabited

/-- A stack with its base die, which is `down` while its firmware image is refused (R463). `busy` lists the frames that page moves hold busy, by command, and
`held` the requests in its busy table (R47, R49). -/
structure Stack where
  owner : Nat := 0
  counters : Tab W64 := []
  alias_ : Tab W64 := []
  busy : List (Nat × Nat × Nat) := []
  held : List Nat := []
  hov : Option Hov := none
  down : Bool := false
  deriving DecidableEq, Repr, Inhabited

/-- A record of a key space (R105). `part` is the segment it lies in, `slot` its data address, and `sto`, `sti` the segment and
index of its data slot. While it is moved, `newPart` is its new part, `arr` the arriving record, and `keep` says that its slot
passes on with it (R124 to R127). -/
structure KRec where
  key : W64
  part : Nat
  rix : Nat
  slot : W64
  sto : Nat
  sti : Nat
  ivm : Bool := false
  st : Nat
  otgt : Byte
  efmt : Byte
  dsize : W32
  ftgt : Byte := 0xFF
  cost : W32 := 0
  rpin : Nat := 0
  wpin : Nat := 0
  hold : List W64 := []
  per : Bool := false
  newPart : Option Nat := none
  arr : Option Nat := none
  keep : Bool := false
  deriving DecidableEq, Repr, Inhabited

/-- A part of a key space (R102, R104) with its segment: target, segment base, pools. `agent` is the part whose directory agent
holds the segment: its own until a hand-over passes the segment on (R126). -/
structure Part where
  tgt : Byte
  agent : Nat
  seg : W64
  nrec : Nat
  nslt : Nat
  recFree : List Nat
  slotFree : List (Nat × Nat)
  deriving DecidableEq, Repr, Inhabited

/-- A rebalance in progress (R122 to R128); one that has `ended` has only to resolve its handle. `moving` lists the segments that hand-overs carry, with the stack and the new part of each, and `adopt` those
that their new parts adopt at the commit (R126). -/
structure Rebal where
  cmd : Nat
  mask : BitVec 128
  h : Nat
  pat : Nat
  w : List Nat
  stage : Nat := 0
  noted : List Nat := []
  markAt : Nat := 0
  late : Bool := false
  newCuts : List W64 := []
  moving : List (Nat × Nat × Nat) := []
  adopt : List (Nat × Nat) := []
  copies : List (Nat × Nat) := []
  failed : Option W64 := none
  inv : List Nat := []
  inst : List Nat := []
  hovs : List Nat := []
  ended : Bool := false
  deriving DecidableEq, Repr, Inhabited

/-- A key space (R102). `sid` tells it from an earlier or a later space of its number (R389). -/
structure Space where
  sid : Nat := 0
  dim : Nat
  per : BitVec 3
  grp : BitVec 4
  home : Nat
  elems : Nat
  slot : Nat
  b21 : Bool
  hovOk : Bool
  efmt : Byte
  img : W64
  cuts : List W64
  parts : List Part
  recs : List (Nat × KRec) := []
  nextRec : Nat := 0
  rebal : Option Rebal := none
  inval : List Nat := []
  deriving DecidableEq, Repr, Inhabited

/-- A destination register of a variable-latency result, resolved at issue (R225): the thread and register key, or a k
register. -/
inductive Dst where
  | none
  | w (t key : Nat)
  | wp (t lo hi : Nat)
  | k (i : Nat)
  deriving DecidableEq, Repr, Inhabited

/-- An operation of a directory agent (R114, R115, R117, R118). -/
inductive DirOp where
  | look (key : W64) (wait : Bool)
  | own (key : W64)
  | pin (key : W64) (wr : Bool)
  | unpin (addr : W64) (wr : Bool)
  deriving DecidableEq, Repr, Inhabited

/-- What an access does (R297, R300, R302, R303, R307, R318). -/
inductive AKind where
  | load (sz : Sz)
  | store
  | storeNt
  | atom (ty : ATy) (op : AOp)
  | cas (cmp : W64)
  | pref (l1 : Bool)
  | dir (op : DirOp)
  /-- a value already known, waiting to be written -/
  | value
  deriving DecidableEq, Repr, Inhabited

/-- Where an access stands. -/
inductive ASt where
  /-- on its way to its scratchpad bank (R64, R131) -/
  | bank
  /-- not yet translated -/
  | walk
  /-- stalled on a page-busy leaf (R28, R60) -/
  | busyWalk
  /-- a line fill requested and not yet read at the home -/
  | fill
  /-- a line fill read at the home, on its way back -/
  | filled (data : List Byte) (pois : List Nat)
  /-- on its way to the home -/
  | home
  /-- held in the home's busy table (R47) -/
  | held
  /-- performed at the home, acknowledgement on its way -/
  | ack
  /-- answered not-owner, moved or retry -/
  | notOwner | movedResp | retry
  /-- value returned -/
  | done
  /-- faulted (R298) -/
  | bad (cause : Nat) (info : W64)
  deriving DecidableEq, Repr, Inhabited

/-- An access in flight (R130 to R138, R224), with the identity of its warp. `val` is the data of a store or atomic, and the result of a load; `sid` is the key
space that a directory operation named when it was issued (R389). -/
structure Acc where
  id : Nat
  frag : FragRef
  word : W64
  uid : Nat := 0
  wuid : Nat := 0
  seq : Nat := 0
  thr : Option Nat
  kind : AKind
  va : Nat := 0
  n : Nat := 0
  val : W64 := 0
  vpois : Bool := false
  dst : Dst := .none
  dst2 : Dst := .none
  val2 : W64 := 0
  acq : Option Scope := none
  st : ASt
  pa : Nat := 0
  sl : BitVec 2 := 0
  al : Bool := false
  route : Nat := 0
  rerouted : Bool := false
  exempt : Bool := false
  flashed : Bool := false
  tracked : Bool := false
  oldPa : Option Nat := none
  sid : Option Nat := none
  deriving DecidableEq, Repr, Inhabited

/-- Whose request a home holds or answers, beside those of threads and of the host: a command's, a hidden one of a fragment's word, the former's, or one of an agent
of a die (R48, R49). -/
inductive Asker where
  | cmd (id : Nat)
  | frag (uid seq : Nat)
  | former (die wg : Nat)
  | die (d : Nat)
  deriving DecidableEq, Repr, Inhabited

/-- Such a request: its address, the busy frame that it met, and whether it has been answered moved since (R47, R48). -/
structure HeldReq where
  who : Asker
  va : Nat
  pa : Nat
  moved : Bool := false
  deriving DecidableEq, Repr, Inhabited

/-- The completion of an inbound read: its data, or none with Unsupported Request status (R445). -/
structure Cpl where
  req : Nat
  addr : Nat
  data : Option (List Byte)
  deriving DecidableEq, Repr, Inhabited

/-- An inbound request at the ordering point (R160, R448, R449). -/
structure Inb where
  id : Nat
  req : Nat
  addr : Nat
  data : List Byte
  rd : Option Nat := none
  ro : Bool := false
  sent : Bool := false
  route : Nat := 0
  rerouted : Bool := false
  busy : Bool := false
  done : Bool := false
  deriving DecidableEq, Repr, Inhabited

/-- A FeltLink port (R460, R461): `kept` holds its last 128 flits, newest first, and `out` the flits that it has put on the link, newest first. -/
structure Port where
  crc : BitVec 16 := 0
  rply : BitVec 16 := 0
  vmaj : Byte := 0
  vmin : Byte := 0
  trn : Bool := false
  up : Bool := false
  rxSeq : W32 := 0
  txSeq : W32 := 0
  kept : List (List Byte) := []
  out : List (List Byte) := []
  deriving DecidableEq, Repr, Inhabited

/-- The machine's state: one VN4 package. `dirW` holds writes of directory agents that wait for their memory: die, address, bytes (R104). `cycs` counts the issue
cycles of each core, by 96 × die + core (R206); `hid` lists the requests of commands and agents at busy frames (R49), and `vxHome` is the home of memory that no
stack backs (R34, R47). `hist` lists the bytes that locations have held, by address, and `uses` the clusters and share levels of accesses by 64 KiB frame: frame, die, cluster,
share level (R133). `cpls` lists the completions of inbound reads (R445). `fw` holds the firmware images of components that were loaded from the management
function, `fwNew` those written there since, and `fwSel` the component being written (R463). -/
structure State where
  tick : Nat := 0
  agenda : List Turn := []
  cur : FragRef := default
  word : W64 := 0
  freeIx : Nat := 0
  nextId : Nat := 0
  clock : Nat := 0
  cycs : Tab Nat := []
  mem : List Host.Cell := []
  poison : List (Nat × Nat) := []
  dies : List Die := []
  stks : List Stack := []
  vxHome : Stack := {}
  hid : List HeldReq := []
  hist : List (Nat × List Byte) := []
  uses : List (Nat × Nat × Nat × Nat) := []
  accs : List Acc := []
  cmds : List Cmd := []
  spaces : Tab Space := []
  dirW : List (Nat × Nat × List Byte) := []
  grp : HQueue := {}
  vxmap : List Nat := [0, 0, 1, 1, 2, 2, 3, 3]
  inb : List Inb := []
  cpls : List Cpl := []
  ports : List Port := []
  attest : Option (List Byte) := none
  pmcCause : Tab Nat := []
  msix : List (Nat × Nat) := []
  aer : Nat := 0
  spanWait : List (Nat × Nat) := []
  fw : Tab (List Byte) := []
  fwNew : Tab (List Byte) := []
  fwSel : Nat := 0
  deriving DecidableEq, Repr, Inhabited

/-- The value of a byte of memory that no entry lists (log entry 6). -/
def memDefault : Byte := 0

/-- The canonical form of a memory: addresses rise strictly, and no entry equals what an unlisted address reads as. -/
def memWf (m : List Host.Cell) : Bool := Tab.risingFrom 0 m && m.all (fun c => c.2 != memDefault)

/-- The canonical form of the package's memory. -/
def Memory.wf (s : State) : Bool := memWf s.mem

/-- The capacity register of die `d` (R29): with a loft, or without one, as the die's fuses have it (R30). -/
def capOf (d : Nat) (loft : Bool) : W64 :=
  let stk : Nat := match d with
    | 0 => 0xC3
    | 1 => 0x0F
    | 2 => 0x3C
    | _ => 0xF0
  let cs : Nat := if loft then 16 else 8
  BitVec.ofNat 64 (cs * 2 ^ 40 + 12 * 2 ^ 32 + 96 * 2 ^ 24 + stk * 2 ^ 16 + 48 * 2 ^ 8 + (if loft then 1 else 0))

/-- The reset value of SCHCTL (R393). -/
def schReset : W64 := 0x0000040810045F01

/-- The reset value of REV (R446): firmware version 0 (log entry 9), packet versions 1, ISA revision 1. -/
def revReset : W64 := 0x0000000001010001

/-- Die `d` after reset, with its own loft or without, and with lofts on every die or not (R12, R29, R32, R393, R423, R431, R433, R446, R451). -/
def Die.reset (d : Nat) (loft : Bool := true) (all : Bool := true) : Die :=
  { capinfo := capOf d loft, own := BitVec.ofNat 8 (3 * 4 ^ d), schctl := schReset, rev := revReset, feat := if all then 0xFF else 0x7F }

/-- The machine right after reset, for a package whose dies have the lofts that their fuses name (R12, R30, R446). -/
def State.resetWith (loft : Nat → Bool) : State :=
  let all := loft 0 && loft 1 && loft 2 && loft 3
  { dies := [Die.reset 0 (loft 0) all, Die.reset 1 (loft 1) all, Die.reset 2 (loft 2) all, Die.reset 3 (loft 3) all]
    stks := [{ owner := 0 }, { owner := 0 }, { owner := 1 }, { owner := 1 }, { owner := 2 }, { owner := 2 },
      { owner := 3 }, { owner := 3 }]
    ports := [{}, {}, {}, {}, {}, {}, {}, {}, {}, {}, {}, {}] }

/-- The machine right after reset: a package with a loft on every die (log entry 81). -/
def State.reset : State := State.resetWith (fun _ => true)

end Sys2Proof.Machine
end

