-- ==== Sys2Proof/Machine/Mem.lean ====
section
/-! DEFINITION. Parts of the state, physical memory, page-table walks, ports, alias ranges, and whole accesses of hardware
agents through them (01 R16 to R28; 02 R31 to R44, R56 to R60; 03 R70 to R73, R93 to R96; 05 R132; 18 R430). -/

namespace Sys2Proof.Machine

namespace State

/-- A compute die. -/
def die (s : State) (d : Nat) : Die := (s.dies[d]?).getD default

/-- The cycle count of a die's agents (R206, R452; log entry 5). -/
def cyc (s : State) (d : Nat) : Nat := s.clock - (s.die d).cyc0

/-- The cycle count of a core: the steps since its die's reset, and the cycles beyond one a step that it has spent (R206; log entry 5). -/
def cycOf (s : State) (d c : Nat) : Nat := (s.tick - (s.die d).tick0) + Tab.getD s.cycs (96 * d + c) 0

/-- A core spends cycles beyond the one of its step. -/
def addCyc (s : State) (d c n : Nat) : State :=
  { s with clock := s.clock + n, cycs := Tab.set s.cycs (96 * d + c) (Tab.getD s.cycs (96 * d + c) 0 + n) }

/-- Changes a compute die. -/
def modDie (s : State) (d : Nat) (g : Die → Die) : State := { s with dies := listMod s.dies d g }

/-- A stack. -/
def stk (s : State) (i : Nat) : Stack := (s.stks[i]?).getD default

/-- Changes a stack. -/
def modStk (s : State) (i : Nat) (g : Stack → Stack) : State := { s with stks := listMod s.stks i g }

/-- A core of a die. -/
def core (s : State) (d c : Nat) : Core := Tab.getD (s.die d).cores c {}

/-- Changes a core. -/
def modCore (s : State) (d c : Nat) (g : Core → Core) : State :=
  s.modDie d (fun x => { x with cores := Tab.set x.cores c (g (Tab.getD x.cores c {})) })

/-- A cluster of a die. -/
def cluster (s : State) (d c : Nat) : Cluster := Tab.getD (s.die d).clusters c {}

/-- Changes a cluster. -/
def modCluster (s : State) (d c : Nat) (g : Cluster → Cluster) : State :=
  s.modDie d (fun x => { x with clusters := Tab.set x.clusters c (g (Tab.getD x.clusters c {})) })

/-- A free 32-bit value (log entry 3). -/
def takeWord (s : State) : W32 × State := (Config.freeWord s.freeIx, { s with freeIx := s.freeIx + 1 })

/-- A free choice (log entry 3). -/
def takeBool (s : State) : Bool × State := (Config.freeBool s.freeIx, { s with freeIx := s.freeIx + 1 })

/-- A free choice below `n` (log entry 3). -/
def takeNat (s : State) (n : Nat) : Nat × State :=
  (Config.freeNat s.freeIx % n, { s with freeIx := s.freeIx + 1 })

/-- A new identity (log entry 4). -/
def fresh (s : State) : Nat × State := (s.nextId, { s with nextId := s.nextId + 1 })

end State

/-! ### Physical memory (R17, R33, R430) -/

/-- A byte of physical memory. -/
def rdB (s : State) (pa : Nat) : Byte := Tab.getD s.mem pa memDefault

/-- Writes a byte of physical memory, keeping the canonical form. -/
def wrB (s : State) (pa : Nat) (b : Byte) : State := { s with mem := Tab.put s.mem pa b memDefault }

/-- `n` bytes of physical memory. -/
def rdBytes (s : State) (pa n : Nat) : List Byte := (List.range n).map (fun i => rdB s (pa + i))

/-- Writes bytes, and nothing else. -/
def wrRaw : State → Nat → List Byte → State
  | s, _, [] => s
  | s, pa, b :: t => wrRaw (wrB s pa b) (pa + 1) t

/-- Two byte ranges overlap. -/
def overlap (a n b m : Nat) : Bool := a < b + m && b < a + n

/-- Some byte of the range lies in a poisoned unit (R430). -/
def isPois (s : State) (pa n : Nat) : Bool := s.poison.any (fun p => overlap pa n p.1 p.2)

/-- A write clears the poison of the units it covers wholly (R430). -/
def clearPois (s : State) (pa n : Nat) : State :=
  { s with poison := s.poison.filter (fun p => !(pa ≤ p.1 && p.1 + p.2 ≤ pa + n)) }

/-- Marks the 32-byte units of memory that a range touches poisoned (R430). -/
def setPois (s : State) (pa n : Nat) : State :=
  let us := ((List.range ((pa % 32 + n + 31) / 32)).map (fun i => ((pa / 32 + i) * 32, 32))).filter (fun u => !s.poison.contains u)
  { s with poison := us ++ s.poison }

/-- Bytes have been written to a location: its history (R133). -/
def noteWrite (s : State) (pa : Nat) (bs : List Byte) : State := { s with hist := (pa, bs) :: s.hist }

/-- A write at the home (R33). What the bytes were before it stays in their history (R133). -/
def wrBytes (s : State) (pa : Nat) (bs : List Byte) : State :=
  clearPois (wrRaw (noteWrite (noteWrite s pa (rdBytes s pa bs.length)) pa bs) pa bs) pa bs.length

/-- A little-endian word of physical memory. -/
def rdN (s : State) (pa n : Nat) : Nat := leNat (rdBytes s pa n)

/-- Writes a little-endian word of physical memory. -/
def wrN (s : State) (pa n v : Nat) : State := wrBytes s pa (leBytes n v)

/-- The stack that backs a physical address (R17). -/
def stackOf (pa : Nat) : Option Nat :=
  if pa < 8 * 2 ^ 36 && pa % 2 ^ 36 < 48 * 2 ^ 30 then some (pa / 2 ^ 36) else none

/-- In VX's buffers (R17). -/
def inVx (pa : Nat) : Bool := 0x8000000000 ≤ pa && pa < 0x8001000000

/-- In host memory (R17). -/
def inHost (pa : Nat) : Bool := 2 ^ 51 ≤ pa && pa < 2 ^ 52

/-- A range that lies wholly in one backed range (R17). -/
def backed (pa n : Nat) : Bool :=
  match stackOf pa with
  | some i => stackOf (pa + n - 1) == some i
  | none => (inVx pa && inVx (pa + n - 1)) || (inHost pa && inHost (pa + n - 1))

/-- The two dies of a stack: lower first (R11). -/
def stkDies (i : Nat) : Nat × Nat := (i / 2, (i / 2 + 1) % 4)

/-- The other die of a stack. -/
def otherDie (i d : Nat) : Nat := if d = (stkDies i).1 then (stkDies i).2 else (stkDies i).1

/-- Stack `i` is attached to die `d` (R11, R29). -/
def attached (s : State) (d i : Nat) : Bool := (s.die d).capinfo.getLsbD (16 + i)

/-! ### Page tables (R18 to R28) -/

/-- What an access needs of a page (R23); `rp` is a directory agent's write of a record page, which programs may only read (R105), and `m` the maintenance
of a page that permits writes (R306). -/
inductive Want where
  | r | w | at | x | rp | m
  deriving DecidableEq, Repr, Inhabited

/-- What holds an access up: a stalled port or a full unit, a page-busy leaf (R28, R60), or the busy frame that a request of an asker meets (R47). -/
inductive Held where
  | unit
  | page
  | frame (who : Asker) (va pa : Nat)
  deriving DecidableEq, Repr, Inhabited

/-- Why an access cannot be performed (R298, R469); `busy` asks to try again later. -/
inductive AErr where
  | transl | right | notOwner | refused | noAlias | moved
  | busy (h : Held)
  deriving DecidableEq, Repr, Inhabited

/-- What a walk finds (R22, R60). -/
inductive WalkRes where
  | fault
  | busy
  | ok (t : TlbEnt) (used : List Nat) (dir : List (Nat × W64))
  deriving DecidableEq, Repr, Inhabited

/-- An entry whose `r`, `w` and `x` are all zero points to a table (R22). -/
def pteIsDir (e : W64) : Bool := !e.getLsbD 1 && !e.getLsbD 2 && !e.getLsbD 3

/-- Physical address bits [51:12] of an entry. -/
def pteAddr (e : W64) : Nat := bitsOf e.toNat 12 40 * 2 ^ 12

/-- The checks on a leaf that maps `va` (R17, R18, R22, R27, R34). -/
def leafOk (s : State) (d va size : Nat) (e : W64) : Bool :=
  let pa := pteAddr e
  let x := e.toNat
  let sl := bitsOf x 56 2
  let peer := bitAt va 56
  let stk := stackOf pa
  bitsOf x 52 4 == 0 && bitsOf x 6 6 == 0 && sl != 3 &&
  (!bitAt x 61 || stk == some (bitsOf x 58 3)) &&
  pa % size == 0 && backed pa size &&
  (!bitAt x 62 || (sl == 2 && stk.isSome)) &&
  (!peer || (sl == 2 && !bitAt x 61)) &&
  (match stk with
    | some i => peer || attached s d i
    | none => sl == 2)

/-- A table entry may be read: on a stack the die owns, in VX's buffers or in host memory (R57). -/
def tableOk (s : State) (d pa : Nat) : Bool :=
  match stackOf pa with
  | some i => (s.stk i).owner == d
  | none => inVx pa || inHost pa

/-- The walk from one level down (R19, R22): index shift, index bits, level. -/
def walkFrom (s : State) (d : Nat) (wc : List (Nat × W64)) (va : Nat) :
    List (Nat × Nat × Nat) → Nat → List Nat → List (Nat × W64) → WalkRes
  | [], _, _, _ => .fault
  | (sh, ib, lv) :: rest, base, used, dir =>
    let at_ := base + 8 * bitsOf va sh ib
    let cached := (wc.find? (fun p => p.1 == at_)).map (·.2)
    match cached with
    | some e => walkFrom s d wc va rest (pteAddr e) used dir
    | none =>
      if !tableOk s d at_ then .fault
      else
        let e : W64 := BitVec.ofNat 64 (rdN s at_ 8)
        if !e.getLsbD 0 then .fault
        else if pteIsDir e then
          if lv == 0 || (e &&& ~~~(0x000FFFFFFFFFF011 : W64)) != 0 then .fault
          else walkFrom s d wc va rest (pteAddr e) (at_ :: used) (if lv ≥ 2 then (at_, e) :: dir else dir)
        else if lv ≥ 3 then .fault
        else if !leafOk s d va (2 ^ sh) e then .fault
        else if e.getLsbD 63 then .busy
        else .ok ⟨va / 2 ^ sh * 2 ^ sh, 2 ^ sh, e, at_⟩ (at_ :: used) dir

/-- The levels of the table (R19). -/
def levels : List (Nat × Nat × Nat) := [(48, 9, 4), (39, 9, 3), (30, 9, 2), (21, 9, 1), (16, 5, 0)]

/-- The table walk of die `d` for `va` (R18 to R22), with the walk cache `wc`. -/
def walk (s : State) (d : Nat) (wc : List (Nat × W64)) (va : Nat) : WalkRes :=
  if va ≥ 2 ^ 57 || !(s.die d).pgroot.getLsbD 0 then .fault
  else walkFrom s d wc va levels (pteAddr (s.die d).pgroot) [] []

/-- Sets a bit of a table entry by an atomic OR at its home (R22). -/
def orEntry (s : State) (at_ bit : Nat) : State :=
  let e := rdN s at_ 8
  if bitAt e bit then s else wrN s at_ 8 (e + 2 ^ bit)

/-- Sets `ac` of the entries a walk used, and `dy` of the leaf on a write (R21, R22). -/
def touchEntries (s : State) (used : List Nat) (at_ : Nat) (wt : Want) : State :=
  let s := used.foldl (fun s a => orEntry s a 4) s
  match wt with
  | .w | .at | .rp => orEntry s at_ 5
  | _ => s

/-- A translated address. -/
structure Phys where
  pa : Nat
  sl : BitVec 2
  al : Bool
  peer : Bool
  deriving DecidableEq, Repr, Inhabited

/-- What a leaf gives an access: rights (R23, R27) and ownership of a tagged stack (R25). Where both fail, ownership is reported (log entry 82). -/
def leafUse (s : State) (d va : Nat) (wt : Want) (t : TlbEnt) : Except AErr Phys :=
  let e := t.leaf
  let al := e.getLsbD 62
  let okRight := match wt with
    | .r => e.getLsbD 1
    | .w | .m => e.getLsbD 2
    | .at => e.getLsbD 2 && !al
    | .x => e.getLsbD 3 && !al
    | .rp => e.getLsbD 1 && !al
  let stag := bitsOf e.toNat 58 3
  if e.getLsbD 61 && !(s.die d).own.getLsbD stag then .error .notOwner
  else if !okRight then .error .right
  else .ok ⟨pteAddr e + (va - t.va), e.extractLsb' 56 2, al, bitAt va 56⟩

/-- Translation by a fresh walk, as the beater and the directory agents make it (log entry 83). -/
def xlat (s : State) (d va : Nat) (wt : Want) : Except AErr (State × Phys) :=
  match walk s d [] va with
  | .fault => .error .transl
  | .busy => .error (.busy .page)
  | .ok t used _ =>
    match leafUse s d va wt t with
    | .error e => .error e
    | .ok p => .ok (touchEntries s used t.at_ wt, p)

/-! ### The TLBs (R56 to R60) -/

/-- A TLB entry covers an address. -/
def TlbEnt.covers (t : TlbEnt) (va : Nat) : Bool := t.va ≤ va && va < t.va + t.size

/-- The translation a core finds in its own TLB or its cluster's (R56). -/
def tlbFind (s : State) (d c va : Nat) : Option TlbEnt :=
  let cl := s.cluster d (c / 8)
  match (s.core d c).tlb.find? (·.covers va) with
  | some t => some t
  | none =>
    match cl.tlb2.find? (·.covers va) with
    | some t => some t
    | none => cl.big.find? (·.covers va)

/-- The set of a second-level entry: the low bits of its page number (R56; log entry 20). -/
def TlbEnt.set (t : TlbEnt) : Nat := t.va / t.size % 512

/-- Installs an entry in a second-level TLB of 512 sets of 16 ways: the oldest of a full set goes (R56; log entry 20). -/
def tlb2Put (l : List TlbEnt) (t : TlbEnt) : List TlbEnt :=
  let l := l.filter (fun e => e.va != t.va)
  t :: (l.filter (fun e => e.set == t.set)).take 15 ++ l.filter (fun e => e.set != t.set)

/-- Installs a translation in the core's TLB and its cluster's (R56). -/
def tlbFill (s : State) (d c : Nat) (t : TlbEnt) : State :=
  let s := s.modCore d c (fun x => { x with tlb := (t :: x.tlb.filter (fun e => e.va != t.va)).take 256 })
  s.modCluster d (c / 8) (fun x =>
    if t.size = 2 ^ 30 then { x with big := (t :: x.big.filter (fun e => e.va != t.va)).take 64 }
    else { x with tlb2 := tlb2Put x.tlb2 t })

/-- Keeps the table entries of a walk in the cluster's walk cache of 128 entries (R56). -/
def walkFill (s : State) (d c : Nat) (dir : List (Nat × W64)) : State :=
  s.modCluster d (c / 8) (fun x => { x with walkc := (dir ++ x.walkc).take 128 })

/-- The leaf was cached clean and is now written: `dy` is set at its home and in the TLBs (R21). -/
def setDirty (s : State) (d c : Nat) (t : TlbEnt) : State :=
  if t.leaf.getLsbD 5 then s
  else
    let s := orEntry s t.at_ 5
    let up (e : TlbEnt) : TlbEnt := if e.va == t.va then { e with leaf := e.leaf ||| 0x20 } else e
    let s := s.modCore d c (fun x => { x with tlb := x.tlb.map up })
    s.modCluster d (c / 8) (fun x => { x with tlb2 := x.tlb2.map up, big := x.big.map up })

/-- Does an access of this kind write through its leaf? -/
def Want.writes : Want → Bool
  | .w | .at | .rp => true
  | _ => false

/-- Walkers of a cluster that stalled walks hold: of accesses, of commands, of the former, and of fragments, each its own (R60). -/
def walkersHeld (s : State) (d cl : Nat) : Nat :=
  let held (p : Frag) : Nat := if p.occ && p.wait == .walk then 1 else 0
  (s.accs.filter (fun a => a.st == .busyWalk && a.frag.die == d && a.frag.core / 8 == cl)).length +
  (s.cmds.filter (fun c => c.die == d && c.core / 8 == cl && c.walk)).length +
  ((s.die d).wgs.filter (fun e => e.2.core / 8 == cl)).foldl (fun n e => n + (if e.2.fwalk then 1 else 0) +
    e.2.warps.foldl (fun n w => n + held w.2.s0 + held w.2.s1) 0) 0

/-! ### Hardware agents

A hardware agent is a die with a core (an engine, a spill, the former), or a die alone (the beater, a directory agent). `ex` lists the stacks whose stalled ports it may
still use (R36), `holds` says that it holds a walker (R60), `who` is its name at the homes (R48, R49), and `l1` says that its accesses pass through the
core's L1 (R193, R201). -/

/-- A hardware agent. -/
structure Agent where
  die : Nat
  core : Option Nat := none
  ex : List Nat := []
  holds : Bool := false
  who : Asker := .die die
  l1 : Bool := false
  deriving DecidableEq, Repr, Inhabited

/-- A core's agent uses a leaf (R21, R23, R25). -/
def agentLeaf (s : State) (d c va : Nat) (wt : Want) (t : TlbEnt) : Except AErr (State × Phys) :=
  match leafUse s d va wt t with
  | .error e => .error e
  | .ok p => .ok (if wt.writes then setDirty s d c t else s, p)

/-- The translation of an agent: one of a core goes through its TLBs, and past them takes a free walker of its cluster (R56, R60). -/
def xlatA (s : State) (a : Agent) (va : Nat) (wt : Want) : Except AErr (State × Phys) :=
  match a.core with
  | none => xlat s a.die va wt
  | some c =>
    if va ≥ 2 ^ 57 || !(s.die a.die).pgroot.getLsbD 0 then .error .transl
    else
      match tlbFind s a.die c va with
      | some t => agentLeaf s a.die c va wt t
      | none =>
        if !a.holds && walkersHeld s a.die (c / 8) ≥ 16 then .error (.busy .unit)
        else
          match walk s a.die (s.cluster a.die (c / 8)).walkc va with
          | .fault => .error .transl
          | .busy => .error (.busy .page)
          | .ok t used dir =>
            agentLeaf (walkFill (tlbFill (touchEntries s used t.at_ .r) a.die c t) a.die c dir) a.die c va wt t

/-! ### Ports (R31, R36, R41 to R43) -/

/-- The answer of a port. -/
inductive PortRes where
  | ok | stall | notOwner | refused
  deriving DecidableEq, Repr, Inhabited

/-- The die whose port an access of die `d` takes (R26, R41). -/
def routeOf (s : State) (d : Nat) (peer : Bool) (pa : Nat) : Nat :=
  match stackOf pa with
  | some i => if peer then ((s.die d).omap[i]?).getD d else d
  | none => d

/-- A hand-over has stalled the ports of die `r` to the stack (R36). -/
def portStalled (s : State) (r pa : Nat) : Bool :=
  match stackOf pa with
  | some i => (s.stk i).hov.any (fun h => h.give == r && 1 ≤ h.step && h.step < 5)
  | none => false

/-- The port of die `r` answers a request of die `d` (R31, R36, R43). A base die that stays in reset answers nothing (R463). -/
def port (s : State) (d r pa : Nat) (exempt : Bool) : PortRes :=
  match stackOf pa with
  | none => .ok
  | some i =>
    if (s.stk i).down || (portStalled s r pa && !exempt) then .stall
    else if (s.stk i).owner != r then .notOwner
    else if r != d && !(s.die r).allow.getLsbD d then .refused
    else .ok

/-- The home of an address: a base die, or VX for memory that no stack backs (R33, R34). -/
def homeOf (s : State) (pa : Nat) : Stack :=
  match stackOf pa with
  | some i => s.stk i
  | none => s.vxHome

/-- Changes the home of an address. -/
def modHome (s : State) (pa : Nat) (g : Stack → Stack) : State :=
  match stackOf pa with
  | some i => s.modStk i g
  | none => { s with vxHome := g s.vxHome }

/-- The frame is marked busy by a page move (R47). -/
def frameBusy (s : State) (pa : Nat) : Bool := (homeOf s pa).busy.any (fun b => b.2.1 ≤ pa && pa < b.2.2)

/-- The busy table of a base die is full: 256 requests, of threads and the host, and of commands and agents (R49, R450). -/
def busyFull (s : State) (pa : Nat) : Bool :=
  match stackOf pa with
  | some i => (s.stk i).held.length + (s.hid.filter (fun h => !h.moved && stackOf h.pa == some i)).length ≥ 256
  | none => false

/-- A request of a command or an agent that met a busy frame enters the busy table, unless it is full: then it has a retry response (R47, R49). -/
def noteHeld (s : State) : Held → State
  | .frame who va pa =>
    let hid := s.hid.filter (fun h => !(h.who == who && h.va == va && (h.moved || h.pa != pa)))
    if hid.any (fun h => h.who == who && h.va == va) then { s with hid := hid }
    else if busyFull s pa then { s with hid := hid }
    else { s with hid := hid ++ [⟨who, va, pa, false⟩] }
  | _ => s

/-- The requests that errors of an agent leave in busy tables. -/
def AErr.note (e : AErr) (s : State) : State :=
  match e with
  | .busy h => noteHeld s h
  | _ => s

/-- A request of a command or an agent has gone on. -/
def letGo (s : State) (who : Asker) (va : Nat) : State := { s with hid := s.hid.filter (fun h => !(h.who == who && h.va == va)) }

/-- A request was answered moved from this very frame (R48). -/
def movedFrom (s : State) (who : Asker) (va pa : Nat) : Bool := s.hid.any (fun h => h.moved && h.who == who && h.va == va && h.pa == pa)

/-- A whole access of a hardware agent at `va` reaches the home, or says why not; a peer access is re-routed once (R42), and one that was answered moved and
has the same frame again fails (R48). -/
def reach (s : State) (a : Agent) (va : Nat) (p : Phys) : Option AErr :=
  let d := a.die
  let ex := a.ex
  let r := routeOf s d p.peer p.pa
  let free := (stackOf p.pa).any (fun i => ex.contains i)
  let fin (r : Nat) : Option AErr :=
    match port s d r p.pa free with
    | .stall => some (.busy .unit)
    | .notOwner => some .notOwner
    | .refused => some .refused
    | .ok => if frameBusy s p.pa then some (.busy (.frame a.who va p.pa)) else none
  if movedFrom s a.who va p.pa then some .moved
  else
    match port s d r p.pa free, stackOf p.pa with
    | .notOwner, some i => if p.peer then fin (otherDie i r) else some .notOwner
    | _, _ => fin r

/-! ### Alias ranges (R93 to R96) -/

/-- An enabled alias entry: format, view base, element base, scale base. -/
structure AliasEnt where
  fmt : FFmt
  vbase : Nat
  vlen : Nat
  ebase : Nat
  sbase : Nat
  deriving DecidableEq, Repr, Inhabited

/-- The element format of a field value of R93. -/
def mxFmtOf : Nat → Option FFmt
  | 0 => some .e4m3
  | 1 => some .e5m2
  | 2 => some .e3m2
  | 3 => some .e2m3
  | 4 => some .e2m1
  | _ => none

/-- Entry `e` of a stack's alias table, when it is enabled (R93). -/
def aliasEnt (st : Stack) (e : Nat) : Option AliasEnt :=
  let w (i : Nat) : Nat := (Tab.getD st.alias_ (4 * e + i) 0).toNat
  match mxFmtOf (bitsOf (w 0) 52 4) with
  | some f =>
    if bitAt (w 0) 63 then
      some ⟨f, bitsOf (w 0) 16 36 * 2 ^ 16, bitsOf (w 1) 0 36 * 2 ^ 16, bitsOf (w 2) 0 52, bitsOf (w 3) 0 52⟩
    else none
  | none => none

/-- The entry that holds a request wholly (R94); of two that overlap, the lower-numbered one, which is the model's choice (log entry 113). -/
def aliasFind (s : State) (pa n : Nat) : Option AliasEnt :=
  match stackOf pa with
  | none => none
  | some i =>
    ((List.range 16).filterMap (aliasEnt (s.stk i))).find? (fun a => a.vbase ≤ pa && pa + n ≤ a.vbase + a.vlen)

/-- `w` bits of memory from bit `b` of the string at `base` (R94, R167). -/
def rdBits (s : State) (base b w : Nat) : Nat := rdN s (base + b / 8) 3 / 2 ^ (b % 8) % 2 ^ w

/-- Writes `w` bits of the bit string at `base`, whose bytes from `base + b / 8` it touches. -/
def wrBits (s : State) (base b w v : Nat) : State :=
  let at_ := base + b / 8
  let n := (b % 8 + w + 7) / 8
  let old := rdN s at_ n
  let cur := old / 2 ^ (b % 8) % 2 ^ w
  wrN s at_ n (old - cur * 2 ^ (b % 8) + v * 2 ^ (b % 8))

/-- The exact value of element `i` of an alias range (R94, R95). -/
def aliasElem (s : State) (a : AliasEnt) (i : Nat) : FV :=
  mxValue a.fmt (rdB s (a.sbase + i / 32)) (rdBits s a.ebase (i * a.fmt.width) a.fmt.width)

/-- An alias read: elements rounded to BF16 (R95). -/
def aliasRead (s : State) (pa n : Nat) : Option (List Byte) :=
  (aliasFind s pa n).map (fun a =>
    let el (p : Nat) : List Byte :=
      leBytes 2 (roundTo .bf16 .rne false (aliasElem s a ((p - a.vbase) / 2))).bits
    (List.range n).map (fun j => ((el (pa + j))[(pa + j) % 2]?).getD 0))

/-- The bytes behind alias bytes: the elements and their scales, of whole blocks for a write (R94, R96). -/
def AliasEnt.parts (a : AliasEnt) (pa n : Nat) (wr : Bool) : List (Nat × Nat) :=
  let i := (pa - a.vbase) / 2
  let j := (pa + n - 1 - a.vbase) / 2
  let w := a.fmt.width
  let m := j / 32 - i / 32 + 1
  let sc := (a.sbase + i / 32, m)
  if wr then [(a.ebase + 4 * w * (i / 32), 4 * w * m), sc]
  else [(a.ebase + i * w / 8, (j * w + w + 7) / 8 - i * w / 8), sc]

/-- Alias bytes lie on poisoned storage (R430, R432). -/
def aliasPois (s : State) (pa n : Nat) : Bool :=
  (aliasFind s pa n).any (fun a => (a.parts pa n false).any (fun r => isPois s r.1 r.2))

/-- Writes one block of an alias range whole (R96). An element that saturates sets no flag (log entry 84). -/
def aliasPut (s : State) (a : AliasEnt) (blk : Nat) (vs : List FV) : State :=
  let sc := blockScale a.fmt vs
  let s := wrB s (a.sbase + blk) sc
  (blockElems a.fmt sc vs).zipIdx.foldl
    (fun s p => wrBits s a.ebase ((32 * blk + p.2) * a.fmt.width) a.fmt.width p.1) s

/-- An alias write within one block (R96). A byte of an element that the write does not cover whole keeps the element (log entry 84). Poison of the data
goes into the block's storage, and poison of the storage stays unless the write covers the whole block (R430, R432). -/
def aliasWrite (s : State) (pa : Nat) (bs : List Byte) (p : Bool) : Option State :=
  (aliasFind s pa bs.length).map (fun a =>
    let i0 := (pa - a.vbase) / 2
    let blk := i0 / 32
    let vs := (List.range 32).map (fun j =>
      let i := 32 * blk + j
      if i0 ≤ i && i < i0 + bs.length / 2 then fdecode .bf16 (fieldAt bs (2 * (i - i0)) 2) else aliasElem s a i)
    let rs := a.parts pa bs.length true
    let bad := p || (bs.length < 64 && rs.any (fun r => isPois s r.1 r.2))
    rs.foldl (fun s r => if bad then setPois s r.1 r.2 else clearPois s r.1 r.2) (aliasPut s a blk vs))

/-! ### What accesses order (R132, R138) -/

/-- Is it a write of memory? -/
def AKind.writes : AKind → Bool
  | .store | .storeNt | .atom _ _ | .cas _ => true
  | _ => false

/-- Two lists of ranges share a byte. -/
def rangesHit (l m : List (Nat × Nat)) : Bool := l.any (fun x => m.any (fun y => overlap x.1 x.2 y.1 y.2))

/-- The leaf that an address has now, seen without touching it. -/
def peekLeaf (s : State) (d c va : Nat) : Option TlbEnt :=
  if va ≥ 2 ^ 57 || !(s.die d).pgroot.getLsbD 0 then none
  else
    match tlbFind s d c va with
    | some t => some t
    | none => (match walk s d (s.cluster d (c / 8)).walkc va with | .ok t _ _ => some t | _ => none)

/-- The bytes that an access orders: an alias access is one of the storage behind it, of whole blocks where it writes (R132). -/
def spanOf (s : State) (pa n : Nat) (al wr : Bool) : List (Nat × Nat) :=
  match if al then aliasFind s pa n else none with
  | some a => a.parts pa n wr
  | none => [(pa, n)]

/-- The bytes that an access to a virtual address would order. -/
def peekSpan (s : State) (d c va n : Nat) (wr : Bool) : List (Nat × Nat) :=
  match peekLeaf s d c va with
  | some t => spanOf s (pteAddr t.leaf + (va - t.va)) n (t.leaf.getLsbD 62) wr
  | none => []

/-- The access was sent to its home, and has to be sent there or elsewhere again (R42, R47 to R49). -/
def Acc.returns (a : Acc) : Bool :=
  match a.st with
  | .held | .retry | .notOwner | .movedResp => true
  | .walk | .busyWalk => a.oldPa.isSome
  | _ => false

/-- The bytes that an access in flight orders: where it goes, and, as its home may have moved under it, where its address lies now (R48, R132). -/
def Acc.spans (s : State) (a : Acc) : List (Nat × Nat) :=
  let now := peekSpan s a.frag.die a.frag.core a.va a.n a.kind.writes
  match a.st with
  | .walk | .busyWalk => now ++ (a.oldPa.map (fun p => spanOf s p a.n a.al a.kind.writes)).getD []
  | .home | .held | .retry | .notOwner | .movedResp => spanOf s a.pa a.n a.al a.kind.writes ++ now
  | _ => spanOf s a.pa a.n a.al a.kind.writes

/-- A write of a cluster that stands on the path to the home of bytes, or returns from one with bytes that they share (R138). Non-temporal stores travel
apart (R148). -/
def Acc.onPath (s : State) (x : Acc) (d cl pa : Nat) (spans : List (Nat × Nat)) : Bool :=
  x.kind.writes && x.kind != .storeNt && x.frag.die == d && x.frag.core / 8 == cl &&
  ((x.st == .home && stackOf x.pa == stackOf pa) || ((x.st == .home || x.returns) && rangesHit (x.spans s) spans))

/-! ### Pages that break their share level (R24, R133) -/

/-- A use of a frame of 64 KiB by a cluster at a share level. -/
def useOf (d cl : Nat) (p : Phys) : Nat × Nat × Nat × Nat :=
  if p.sl == 0 then (p.pa / 2 ^ 16, d, cl, 0) else (p.pa / 2 ^ 16, 0, 0, p.sl.toNat)

/-- A cluster uses a frame. -/
def noteUse (s : State) (d cl : Nat) (p : Phys) : State :=
  if p.al || s.uses.contains (useOf d cl p) then s else { s with uses := useOf d cl p :: s.uses }

/-- The frame is in use at two share levels, or, cluster-private, by two clusters (R24, R133). -/
def loose (s : State) (pa : Nat) : Bool :=
  let us := s.uses.filter (fun u => u.1 == pa / 2 ^ 16)
  us.any (fun u => us.any (fun v => u != v))

/-- The values that a byte has held. -/
def everAt (s : State) (pa : Nat) : List Byte :=
  rdB s pa :: s.hist.filterMap (fun e => if e.1 ≤ pa then e.2[pa - e.1]? else none)

/-- A read finds bytes; where the page has lost its guarantees, each of them may be any that its location ever held (R133, R162). -/
def readAs : State → Nat → List Byte → List Byte × State
  | s, _, [] => ([], s)
  | s, pa, b :: t =>
    if loose s pa then
      let l := b :: everAt s pa
      let (i, s) := s.takeNat l.length
      let (bs, s) := readAs s (pa + 1) t
      ((l[i]?).getD b :: bs, s)
    else (b :: t, s)

/-- A cluster that holds no line of a frame uses it no longer, once it has written back or invalidated its lines (R24). -/
def endUse (s : State) (d cl pa : Nat) : State :=
  if (s.cluster d cl).lines.any (fun l => l.1 / 512 == pa / 2 ^ 16) then s
  else { s with uses := s.uses.filter (fun u => u != (pa / 2 ^ 16, d, cl, 0)) }

/-! ### Lines (R65, R70 to R73, R132, R145) -/

/-- The line of a cluster store. -/
def lineAt (s : State) (d c li : Nat) : Option Line := Tab.get? (s.cluster d c).lines li

/-- A line filled from the home. -/
def lineFromHome (s : State) (li : Nat) (dsh : Bool) : Line :=
  { data := rdBytes s (128 * li) 128, dsh := dsh
    pois := (List.range 16).filter (fun u => isPois s (128 * li + 8 * u) 8) }

/-- Writes bytes of a line; a unit written whole loses its poison. -/
def Line.put (l : Line) (o : Nat) (bs : List Byte) (p : Bool) : Line :=
  let units := (List.range 16).filter (fun u => overlap (8 * u) 8 o bs.length)
  let whole := units.filter (fun u => o ≤ 8 * u && 8 * u + 8 ≤ o + bs.length)
  let ps := l.pois.filter (fun u => !whole.contains u)
  { l with data := putBytes l.data o bs, pois := if p then units ++ ps.filter (fun u => !units.contains u) else ps }

/-- A line's bytes are poisoned. -/
def Line.isPois (l : Line) (o n : Nat) : Bool := l.pois.any (fun u => overlap (8 * u) 8 o n)

/-- Writes a line back to its home (R70, R73). -/
def writeBack (s : State) (li : Nat) (l : Line) : State :=
  let s := wrBytes s (128 * li) l.data
  l.pois.foldl (fun s u => setPois s (128 * li + 8 * u) 8) s

/-- A die-shared store of the cluster to the line is not yet acknowledged, wherever a page move has taken it (R71, R138). -/
def lineTracked (s : State) (d c li : Nat) : Bool :=
  s.accs.any (fun a => a.tracked && a.frag.die == d && a.frag.core / 8 == c && rangesHit (a.spans s) [(128 * li, 128)])

/-- Changes the fills of a cluster's accesses that satisfy `p`. -/
def modFills (s : State) (d c : Nat) (p : Acc → Bool) (g : Acc → Acc) : State :=
  { s with accs := s.accs.map (fun a =>
      if a.frag.die == d && a.frag.core / 8 == c && p a then (match a.st with | .fill | .filled _ _ => g a | _ => a) else a) }

/-- Fills of reads that are under way are delivered and not installed (R65, R72, R138); a fill for a write reads the home again. -/
def flashFills (s : State) (d c : Nat) (p : Acc → Bool) : State :=
  modFills s d c p (fun a => if a.kind.writes then { a with st := .fill } else { a with flashed := true })

/-- Lines are about to leave a cluster store: fills of them that are on their way back read the home again, so that the cluster never shows an older value
than it has shown (R132, R138). -/
def refetch (s : State) (d c : Nat) (p : Nat → Bool) : State :=
  modFills s d c (fun a => p (a.pa / 128)) (fun a => { a with st := .fill })

/-- Lines leave a cluster store as they are. -/
def dropLines (s : State) (d c : Nat) (p : Nat × Line → Bool) : State :=
  let gone := ((s.cluster d c).lines.filter p).map (·.1)
  (refetch s d c (fun li => gone.contains li)).modCluster d c (fun x => { x with lines := x.lines.filter (fun l => !p l) })

/-- Lines that a cluster store of a die holds (R29, R70). -/
def csLines (s : State) (d : Nat) : Nat := bitsOf (s.die d).capinfo.toNat 40 8 * 8192

/-- A line leaves a cluster store; a dirty one is written back first (R70, R73). -/
def dropLine (s : State) (d c li : Nat) (l : Line) : State :=
  dropLines (if l.dirty then writeBack s li l else s) d c (fun e => e.1 == li)

/-- A line can leave its cluster store now: it is clean, or its home can be reached. -/
def canDrop (s : State) (d : Nat) (e : Nat × Line) : Bool := !e.2.dirty || !(portStalled s d (128 * e.1) || frameBusy s (128 * e.1))

/-- Room for a line in a cluster store (R70): a full one first drops a line of the hardware's choice; none when no line can leave. -/
def lineRoom (s : State) (d c li : Nat) : Option State :=
  let ls := (s.cluster d c).lines
  if (Tab.get? ls li).isSome || ls.length < csLines s d then some s
  else
    let vs := ls.filter (canDrop s d)
    let (i, s) := s.takeNat vs.length
    (vs[i]?).map (fun e => dropLine s d c e.1 e.2)

/-- Installs a line in a cluster store that has room for it, or leaves it out. -/
def lineInstall (s : State) (d c li : Nat) (l : Line) : State :=
  match lineRoom s d c li with
  | some s => s.modCluster d c (fun x => { x with lines := Tab.set x.lines li l })
  | none => s

/-- Installs a line in a core's L1, in the room its carve-out gives (R61, R65). -/
def l1Install (s : State) (d c li : Nat) (l : Line) : State :=
  s.modCore d c (fun x => { x with l1 := ((li, { l with dirty := false }) :: x.l1.filter (fun e => e.1 != li)).take (256 * x.carve) })

/-- A store updates a line that the L1 holds (R65). -/
def l1Put (s : State) (d c li o : Nat) (bs : List Byte) (p : Bool) : State :=
  s.modCore d c (fun x => { x with l1 := x.l1.map (fun e => if e.1 == li then (li, e.2.put o bs p) else e) })

/-! ### Whole accesses of hardware agents -/

/-- A read of a core's agent through its cluster store, which it fills as a core's read does, and through the L1 where the agent uses it (R65, R70,
R145). -/
def lineRead (s : State) (a : Agent) (c : Nat) (p : Phys) (n : Nat) : Except AErr (State × List Byte × Bool) :=
  let li := p.pa / 128
  let o := p.pa % 128
  let out (s : State) (l : Line) : State × List Byte × Bool := (s, bytesAt l.data o n, l.isPois o n)
  let near (s : State) (l : Line) : State := if a.l1 then l1Install s a.die c li l else s
  match if a.l1 then (s.core a.die c).l1.find? (fun e => e.1 == li) else none with
  | some e => .ok (out s e.2)
  | none =>
    match lineAt s a.die (c / 8) li with
    | some l => .ok (out (near s l) l)
    | none =>
      if lineTracked s a.die (c / 8) li then .error (.busy .unit)
      else
        let l := lineFromHome s li (p.sl == 1)
        .ok (out (near (lineInstall s a.die (c / 8) li l) l) l)

/-- One chunk within 64 bytes read by an agent: bytes and poison. -/
def readChunk (s : State) (a : Agent) (va n : Nat) (wt : Want) : Except AErr (State × List Byte × Bool) := do
  let (s, p) ← xlatA s a va wt
  match reach s a va p with
  | some e => throw e
  | none =>
    let s := letGo s a.who va
    if p.al then
      match aliasRead s p.pa n with
      | some bs => return (s, bs, aliasPois s p.pa n)
      | none => throw .noAlias
    else
      match a.core with
      | some c =>
        let s := noteUse s a.die (c / 8) p
        let (s, bs, po) ← if p.sl == 2 then pure (s, rdBytes s p.pa n, isPois s p.pa n) else lineRead s a c p n
        let (bs, s) := readAs s p.pa bs
        return (s, bs, po)
      | none => return (s, rdBytes s p.pa n, isPois s p.pa n)

/-- Drops the line of an address from a core's L1. -/
def l1Drop (s : State) (d c li : Nat) : State :=
  s.modCore d c (fun x => { x with l1 := x.l1.filter (fun e => e.1 != li) })

/-- A write of an agent updates the L1 line of its core that it passes through, and drops the one that it does not (R65). -/
def l1Wrote (s : State) (a : Agent) (c li o : Nat) (bs : List Byte) (p : Bool) : State :=
  if a.l1 then l1Put s a.die c li o bs p else l1Drop s a.die c li

/-- A write of a core's agent to a home waits behind the writes that its cluster has on the path there (R138), but for those that a hand-over stalls while it may
go on itself (R36). -/
def pathBusy (s : State) (a : Agent) (p : Phys) (n : Nat) : Bool :=
  match a.core with
  | none => false
  | some c =>
    (p.sl != 0 || p.al) && s.accs.any (fun x => x.onPath s a.die (c / 8) p.pa (spanOf s p.pa n p.al true) &&
      !((stackOf p.pa).any (fun i => a.ex.contains i) && portStalled s x.route x.pa && !x.exempt))

/-- One chunk within 64 bytes written by an agent; `pois` writes it as poison. -/
def writeChunk (s : State) (a : Agent) (va : Nat) (bs : List Byte) (pois : Bool) (wt : Want) : Except AErr State := do
  let (s, p) ← xlatA s a va wt
  match if pathBusy s a p bs.length then some (.busy .unit) else reach s a va p with
  | some e => throw e
  | none =>
    let s := letGo s a.who va
    if p.al then
      match aliasWrite s p.pa bs pois with
      | some s => return s
      | none => throw .noAlias
    else
      let s := match a.core with
        | some c => noteUse s a.die (c / 8) p
        | none => s
      let li := p.pa / 128
      let home (s : State) : State :=
        let s := wrBytes s p.pa bs
        if pois then setPois s p.pa bs.length else s
      match a.core with
      | none => return home s
      | some c =>
        if p.sl == 2 then return home s
        else if p.sl == 1 then
          if lineTracked s a.die (c / 8) li then throw (.busy .unit)
          else
            let s := home s
            let s := flashFills s a.die (c / 8) (fun x => x.pa / 128 == li)
            let s := l1Wrote s a c li (p.pa % 128) bs pois
            return s.modCluster a.die (c / 8) (fun x =>
              { x with lines := Tab.modify x.lines li (fun l => l.put (p.pa % 128) bs pois) })
        else
          let l := (lineAt s a.die (c / 8) li).getD (lineFromHome s li false)
          let l := { l.put (p.pa % 128) bs pois with dirty := true }
          match lineRoom s a.die (c / 8) li with
          | none => throw (.busy .unit)
          | some s =>
            let s := noteWrite (l1Wrote s a c li (p.pa % 128) bs pois) p.pa bs
            return s.modCluster a.die (c / 8) (fun x => { x with lines := Tab.set x.lines li l })

/-- Reads `n` bytes, chunk by chunk at 64-byte boundaries. -/
def vreadFuel : Nat → State → Agent → Nat → Nat → Except AErr (State × List Byte × Bool)
  | 0, s, _, _, _ => .ok (s, [], false)
  | f + 1, s, a, va, n =>
    if n = 0 then .ok (s, [], false)
    else do
      let k := min n (64 - va % 64)
      let (s, b, p) ← readChunk s a va k .r
      let (s, b', p') ← vreadFuel f s a (va + k) (n - k)
      return (s, b ++ b', p || p')

/-- Reads `n` bytes at a virtual address of the agent's die; the flag says that some of it is poisoned. -/
def vread (s : State) (a : Agent) (va n : Nat) : Except AErr (State × List Byte × Bool) :=
  vreadFuel (n / 64 + 2) s a va n

/-- Writes bytes, chunk by chunk at 64-byte boundaries. -/
def vwriteFuel (p : Bool) (wt : Want) : Nat → State → Agent → Nat → List Byte → Except AErr State
  | 0, s, _, _, _ => .ok s
  | f + 1, s, a, va, bs =>
    if bs.isEmpty then .ok s
    else do
      let k := min bs.length (64 - va % 64)
      let s ← writeChunk s a va (bs.take k) p wt
      vwriteFuel p wt f s a (va + k) (bs.drop k)

/-- Writes bytes at a virtual address of the agent's die. -/
def vwrite (s : State) (a : Agent) (va : Nat) (bs : List Byte) (pois : Bool := false) (wt : Want := .w) :
    Except AErr State :=
  vwriteFuel pois wt (bs.length / 64 + 2) s a va bs

/-- A little-endian word at a virtual address. -/
def vrdN (s : State) (a : Agent) (va n : Nat) : Except AErr (State × Nat) := do
  let (s, b, _) ← vread s a va n
  return (s, leNat b)

/-- Writes a little-endian word at a virtual address. -/
def vwrN (s : State) (a : Agent) (va n v : Nat) : Except AErr State := vwrite s a va (leBytes n v)

/-- The status code of a failure on the global side of a command (R469, R51). -/
def AErr.status : AErr → W64
  | .transl => 0x10
  | .right => 0x11
  | .notOwner => 0x21
  | .refused => 0x28
  | .noAlias => 0x18
  | .moved => 0x29
  | .busy _ => 0

/-- The trap cause of the same failure of a thread access (R298, R413). -/
def AErr.cause : AErr → Nat
  | .transl => 1
  | .right => 2
  | .notOwner => 3
  | .refused => 2
  | .noAlias => 2
  | .moved => 1
  | .busy _ => 0

/-! ### Scratchpad (R61 to R64) -/

/-- `n` bytes of a scratchpad. -/
def scrRead (c : Core) (o n : Nat) : List Byte := (List.range n).map (fun i => Tab.getD c.scr (o + i) 0)

/-- Writes bytes of a scratchpad, and nothing else. -/
def scrRaw : Tab Byte → Nat → List Byte → Tab Byte
  | m, _, [] => m
  | m, o, b :: t => scrRaw (Tab.put m o b 0) (o + 1) t

/-- Some unit of the range is poisoned (R430). -/
def scrPois (c : Core) (o n : Nat) : Bool := c.spois.any (fun u => overlap (8 * u) 8 o n)

/-- The comparison of a `waita` (R85, R311): eq, ne, ge, lt, natural. -/
def waitHolds (cond : BitVec 2) (x v : Nat) : Bool :=
  match cond.toNat with
  | 0 => x == v
  | 1 => x != v
  | 2 => decide (x ≥ v)
  | _ => decide (x < v)

/-- A watched word satisfies its comparison. Its poison takes no part (log entry 85). -/
def watchHolds (core : Core) (w : Watch) : Bool :=
  waitHolds w.cond (leNat (scrRead core w.off w.n)) (w.val.toNat % 2 ^ (8 * w.n))

/-- The first byte of a scratchpad range that a full lock covers (R87, R88). -/
def Core.fullLock (c : Core) (o n : Nat) : Option Nat :=
  (List.range n).map (o + ·) |>.find? (fun b => c.locks.any (fun l => !l.glob && l.full && l.lo ≤ b && b ≤ l.hi))

/-- The bytes at `o` have been written: the comparisons that watch them are made again, each once and for all when it holds or meets a lock (R85, R88). -/
def Core.wrote (c : Core) (o n : Nat) : Core :=
  { c with watches := c.watches.map (fun x =>
      if x.hit || x.bad.isSome || !overlap x.w.off x.w.n o n then x
      else
        match c.fullLock x.w.off x.w.n with
        | some b => { x with bad := some b }
        | none => { x with hit := watchHolds c x.w }) }

/-- A scratchpad write: a unit written whole loses its poison, or is poisoned when `p` holds. -/
def scrWrite (c : Core) (o : Nat) (bs : List Byte) (p : Bool := false) : Core :=
  let n := bs.length
  let touched := (List.range (n / 8 + 2)).map (o / 8 + ·) |>.filter (fun u => overlap (8 * u) 8 o n)
  let keep := c.spois.filter (fun u => !(o ≤ 8 * u && 8 * u + 8 ≤ o + n) && !(p && touched.contains u))
  Core.wrote { c with scr := scrRaw c.scr o bs, spois := if p then touched ++ keep else keep
                      lag := c.lag.filter (fun l => !overlap l.off l.old.length o n) } o n

/-- The end of the usable scratchpad (R61). -/
def scrEnd (c : Core) : Nat := 0x60000 - 0x8000 * c.carve

/-- Bytes lie in a workgroup's allotment (R62). -/
def inAllot (g : Wg) (o n : Nat) : Bool := g.spbase ≤ o && o + n ≤ g.spbase + g.splen

end Sys2Proof.Machine
end

