-- ==== Sys2Proof/Machine/Keys.lean ====
section
/-! DEFINITION. Keys, their arithmetic, the deckle and the records of a key space (04 R97 to R110, R114). -/

namespace Sys2Proof.Machine

/-- The invalid key (R99). -/
def badKey : W64 := 0xFFFFFFFFFFFFFFFF

/-- The space of a key (R97). -/
def keySp (k : W64) : Nat := bitsOf k.toNat 60 4

/-- The level of a key (R97). -/
def keyLv (k : W64) : Nat := bitsOf k.toNat 0 6

/-- The maximum level of dimension `d` (R98). -/
def maxLev (d : Nat) : Nat := 54 / d

/-- The level-`m` group of a key: its child index there (R98). -/
def keyGroup (d : Nat) (k : W64) (m : Nat) : Nat := bitsOf k.toNat (60 - m * d) d

/-- The coordinate of a key along an axis (R98). -/
def keyCoord (d : Nat) (k : W64) (a : Nat) : Nat :=
  let lv := keyLv k
  (List.range lv).foldl (fun acc i => 2 * acc + (if bitAt k.toNat (60 - (i + 1) * d + a) then 1 else 0)) 0

/-- The path bits of a key from its coordinates (R98, R101). -/
def withCoords (d lv : Nat) (xs : List Nat) : Nat :=
  (List.range lv).foldl (fun acc i =>
    (List.range d).foldl (fun acc a =>
      acc + (if bitAt ((xs[a]?).getD 0) (lv - 1 - i) then 2 ^ (60 - (i + 1) * d + a) else 0)) acc) 0

/-- A key of space `sp` from its coordinates (R101). -/
def keyMake (sp d lv : Nat) (xs : List Nat) : W64 := BitVec.ofNat 64 (sp * 2 ^ 60 + withCoords d lv xs + lv)

/-- Well formed for a created space (R99). -/
def keyOkIn (x : Space) (k : W64) : Bool :=
  keyLv k ≤ maxLev x.dim && bitsOf k.toNat 6 (54 - keyLv k * x.dim) == 0

/-- The space that a well-formed key names. -/
def keySpace (s : State) (k : W64) : Option Space :=
  match Tab.get? s.spaces (keySp k) with
  | some x => if keyOkIn x k then some x else none
  | none => none

/-- `kpar` of a well-formed key (R101). -/
def keyParent (d : Nat) (k : W64) : W64 :=
  let lv := keyLv k
  if lv = 0 then badKey
  else BitVec.ofNat 64 (k.toNat - keyGroup d k lv * 2 ^ (60 - lv * d) - 1)

/-- `kchd` of a well-formed key with a child index below 2^d (R101). -/
def keyChild (d : Nat) (k : W64) (c : Nat) : W64 :=
  let lv := keyLv k
  if lv = maxLev d then badKey
  else BitVec.ofNat 64 (k.toNat + c * 2 ^ (60 - (lv + 1) * d) + 1)

/-- `knbr` of a well-formed key in a legal direction (R101). -/
def keyNbr (x : Space) (k : W64) (dir : Nat) : W64 :=
  let a := dir / 2
  let lv := keyLv k
  let n := 2 ^ lv
  let c0 := keyCoord x.dim k a
  let c : Int := if dir % 2 = 1 then (c0 : Int) + 1 else (c0 : Int) - 1
  let set (v : Nat) : W64 :=
    keyMake (keySp k) x.dim lv ((List.range x.dim).map (fun b => if b = a then v else keyCoord x.dim k b))
  if c < 0 ∨ (n : Int) ≤ c then (if x.per.getLsbD a then set (c % n).toNat else badKey) else set c.toNat

/-- `k` lies in the subtree of `p` (R100). -/
def keyUnder (d : Nat) (p k : W64) : Bool :=
  keySp p == keySp k && keyLv p ≤ keyLv k &&
  bitsOf p.toNat (60 - keyLv p * d) (keyLv p * d) == bitsOf k.toNat (60 - keyLv p * d) (keyLv p * d)

/-- The part that owns a key: the number of cuts not above it (R109). -/
def partOf (cuts : List W64) (k : W64) : Nat := (cuts.filter (fun c => c.toNat ≤ k.toNat)).length

/-- The target of a part (R109). -/
def partTgt (x : Space) (j : Nat) : Byte := ((x.parts[j]?).map (·.tgt)).getD 0xFF

/-- The owner target of a key (R109, R113). -/
def ownerTgt (x : Space) (k : W64) : Byte := partTgt x (partOf x.cuts k)

/-- The die of a target (R102). -/
def tgtDie (t : Byte) : Nat := bitsOf t.toNat 6 2

/-- The cluster of a target (R102). -/
def tgtCluster (t : Byte) : Nat := bitsOf t.toNat 2 4

/-- A record is a leaf, moving or not (R105, R106). -/
def KRec.leaf (r : KRec) : Bool := r.st == 1 || (r.st == 3 && !r.ivm)

/-- A record that lookups see: neither absent nor arriving (R114). -/
def KRec.seen (r : KRec) : Bool := r.st == 1 || r.st == 2 || r.st == 3

/-- The rebalance of a space that still has steps to take (R122, R127). -/
def Space.live (x : Space) : Option Rebal := x.rebal.filter (fun r => !r.ended)

/-- The part whose agent holds a segment. -/
def agentOf (x : Space) (seg : Nat) : Nat := ((x.parts[seg]?).map (·.agent)).getD seg

/-- The die whose directory agent holds a segment: once the hand-overs that replace copying are done, the new part's (R104, R126). -/
def segDie (x : Space) (seg : Nat) : Nat :=
  let adopted := x.live.bind (fun r => if r.hovs.isEmpty then r.adopt.find? (fun a => a.1 == seg) else none)
  tgtDie (partTgt x ((adopted.map (·.2)).getD (agentOf x seg)))

/-- The record that bears a key. -/
def recOf (x : Space) (k : W64) : Option (Nat × KRec) :=
  x.recs.find? (fun r => r.2.key == k && r.2.seen && agentOf x r.2.part == partOf x.cuts k)

/-- The nearest ancestor leaf, from `f` levels up (R108, R114). -/
def ancLeaf (x : Space) : Nat → W64 → Option (Nat × KRec)
  | 0, _ => none
  | f + 1, k =>
    let p := keyParent x.dim k
    match x.recs.find? (fun r => r.2.key == p && r.2.leaf) with
    | some r => some r
    | none => ancLeaf x f p

/-- The record a lookup finds: the key's, or its nearest ancestor leaf (R114). -/
def lookRec (x : Space) (k : W64) : Option (Nat × KRec) :=
  match recOf x k with
  | some r => some r
  | none => ancLeaf x (keyLv k) k

/-- The lookup word (R114). -/
def lookWord (r : KRec) (k : W64) : W64 :=
  let st := if r.st == 3 then 3 else if r.key == k then (if r.st == 1 then 0 else 2) else 1
  BitVec.ofNat 64 (r.ftgt.toNat * 2 ^ 24 + r.otgt.toNat * 2 ^ 16 + keyLv r.key * 2 ^ 10 + st)

/-- The address of the record pool of a part (R388). -/
def poolBase (p : Part) : Nat := ceilDiv (p.seg.toNat + 8 * p.nrec) 64 * 64

/-- The address of the block pool of a part (R388). -/
def blockBase (x : Space) (p : Part) : Nat := ceilDiv (poolBase p + 64 * p.nrec) x.slot * x.slot

/-- The address of a record (R104). -/
def recAddr (x : Space) (r : KRec) : W64 :=
  match x.parts[r.part]? with
  | some p => BitVec.ofNat 64 (poolBase p + 64 * r.rix)
  | none => 0

/-- The 64 bytes of a record (R105). -/
def recBytes (x : Space) (r : KRec) : List Byte :=
  let w2 := (if x.b21 then 2 ^ 57 else 0) + (if r.per then 2 ^ 56 else 0) + (if r.ivm then 2 ^ 51 else 0) +
    r.st * 2 ^ 48 + r.otgt.toNat * 2 ^ 40 + r.efmt.toNat * 2 ^ 32 + r.dsize.toNat
  leBytes 8 r.key.toNat ++ leBytes 8 r.slot.toNat ++ leBytes 8 w2 ++ leBytes 8 r.ftgt.toNat ++
  leBytes 8 r.cost.toNat ++ leBytes 8 (r.rpin * 2 ^ 16 + r.wpin) ++
  leBytes 8 (((r.hold.head?).map (·.toNat)).getD 0) ++ zeros 8

/-- The writes of directory agents that can be made now, each agent's in its order (R104). One that meets a stalled port, a busy frame or a busy page
waits with those behind it; one that fails otherwise leaves memory as it was (log entry 22). -/
def drainW : List (Nat × Nat × List Byte) → State → List (Nat × Nat × List Byte) → State
  | [], s, left => { s with dirW := left }
  | e :: t, s, left =>
    if left.any (fun x => x.1 == e.1) then drainW t s (left ++ [e])
    else
      match vwrite s { die := e.1 } e.2.1 e.2.2 false .rp with
      | .ok s => drainW t s left
      | .error (.busy _) => drainW t s (left ++ [e])
      | .error _ => drainW t s left

/-- Makes the writes that wait and can be made. -/
def flushDir (s : State) : State := if s.dirW.isEmpty then s else drainW s.dirW s []

/-- Writes memory as a directory agent does, behind its earlier writes. -/
def agentWrite (s : State) (d : Nat) (va : Nat) (bs : List Byte) : State :=
  flushDir { s with dirW := s.dirW ++ [(d, va, bs)] }

/-- A step of the directory agents, taken only when its writes can all be made (R104, R112, R116). -/
def dirStep (s : State) (g : State → State) : State :=
  let s := flushDir s
  let t := g s
  if t.dirW == s.dirW then t else s

/-- Puts a space back. -/
def State.setSpace (s : State) (sp : Nat) (x : Space) : State := { s with spaces := Tab.set s.spaces sp x }

/-- Writes a record's image in the memory of its segment (R104, R105). -/
def writeRec (x : Space) (s : State) (r : KRec) : State :=
  agentWrite s (segDie x r.part) (recAddr x r).toNat (recBytes x r)

/-- Changes a record of a space, and its image in memory. -/
def putRec (s : State) (sp i : Nat) (r : KRec) : State :=
  match Tab.get? s.spaces sp with
  | none => s
  | some x => writeRec x (s.setSpace sp { x with recs := Tab.set x.recs i r }) r

/-- Writes the key index of a part: the keys its records bear, ascending (R104). -/
def putIndex (s : State) (sp j : Nat) : State :=
  match Tab.get? s.spaces sp with
  | none => s
  | some x =>
    match x.parts[j]? with
    | none => s
    | some p =>
      let ks := (x.recs.filter (fun r => r.2.part == j && r.2.seen)).map (fun r => r.2.key.toNat)
      let ks := sortBy (fun a b => decide (a < b)) ks
      agentWrite s (segDie x j) p.seg.toNat (ks.flatMap (leBytes 8))

/-- Drops a record: its memory then holds an absent record of key 0 (R106, R118, R127; log entry 90). -/
def clearRec (s : State) (sp i : Nat) (r : KRec) : State := putRec s sp i { r with st := 0, ivm := false, ftgt := 0xFF, hold := [], key := 0 }

/-- `dsize` of a format code (R107); `none` for a reserved code. -/
def dsizeOf (x : Space) (f : Nat) : Option Nat :=
  let plain (b : Nat) : Option Nat := some (ceilDiv (x.elems * b) 8)
  let mx (b : Nat) : Option Nat := some (ceilDiv (x.elems * b) 8 + x.elems / 32)
  match f with
  | 0 => some x.slot
  | 1 => plain 32
  | 2 => plain 16
  | 3 => plain 16
  | 4 => mx 8
  | 5 => mx 8
  | 6 => mx 6
  | 7 => mx 6
  | 8 => mx 4
  | 9 => plain 8
  | 10 => some (ceilDiv x.elems 5)
  | 11 => plain 64
  | 12 => plain 32
  | _ => none

/-- The block touches a domain face along a periodic axis (R105, R117). -/
def touchesPer (x : Space) (k : W64) : Bool :=
  (List.range x.dim).any (fun a =>
    x.per.getLsbD a && (keyCoord x.dim k a == 0 || keyCoord x.dim k a == 2 ^ keyLv k - 1))

/-- Die `d`'s copy of the deckle, or the home's table during a commit, is not usable (R112). -/
def deckleStall (x : Space) (d : Nat) : Bool := x.inval.contains d

/-- The space number is usable on a die (R103). -/
def spaceOk (s : State) (sp d : Nat) : Option Space :=
  match Tab.get? s.spaces sp with
  | some x => if x.grp.getLsbD d then some x else none
  | none => none

end Sys2Proof.Machine
end

