-- ==== Sys2Proof/Machine/Task.lean ====
section
/-! DEFINITION. Event records (22 R451 to R454), grids, tasks and the task dispenser (17 R396 to R399). -/

namespace Sys2Proof.Machine

/-- An event record (R453). -/
def evRecord (ty die core lane queue code : Nat) (tag : W32) (wgid : Nat) (info info2 : W64) (cyc : Nat) : List Byte :=
  leBytes 1 ty ++ leBytes 1 die ++ leBytes 2 core ++ leBytes 1 lane ++ leBytes 1 queue ++ leBytes 2 code ++
  leBytes 4 tag.toNat ++ leBytes 4 wgid ++ leBytes 8 info.toNat ++ leBytes 8 info2.toNat ++ leBytes 8 cyc ++ zeros 24

/-- Hands a record to the beater of a die, which posts it (R452, R454). -/
def postEvent (s : State) (d : Nat) (r : List Byte) : State :=
  s.modDie d (fun x => { x with evPend := x.evPend ++ [r] })

namespace State

/-- A grid of a die. -/
def grid? (s : State) (d id : Nat) : Option Grid := (s.die d).grids.find? (fun g => g.id == id)

/-- Changes a grid. -/
def modGrid (s : State) (d id : Nat) (g : Grid → Grid) : State :=
  s.modDie d (fun x => { x with grids := x.grids.map (fun y => if y.id == id then g y else y) })

/-- A workgroup of a die, by its tag. -/
def wg? (s : State) (d t : Nat) : Option Wg := Tab.get? (s.die d).wgs t

/-- Changes a workgroup. -/
def modWg (s : State) (d t : Nat) (g : Wg → Wg) : State :=
  s.modDie d (fun x => { x with wgs := Tab.modify x.wgs t g })

end State

/-- Reads a field of a TCB (R396). -/
def tcbRd (s : State) (d : Nat) (t : W64) (o n : Nat) : Except AErr (State × Nat) := vrdN s { die := d } (t.toNat + o) n

/-- Writes a field of a TCB (R396). -/
def tcbWr (s : State) (d : Nat) (t : W64) (o n v : Nat) : Except AErr State := vwrN s { die := d } (t.toNat + o) n v

/-- A cluster of the die holds a workgroup of the grid (R397). -/
def gridIn (s : State) (d : Nat) (g : Grid) (cl : Nat) : Bool :=
  g.wgs.any (fun t => (s.wg? d t).any (fun w => !w.exited && w.core / 8 == cl))

/-- The cluster whose ready queue a task enters (R397). -/
def readyCluster (s : State) (d : Nat) (g : Grid) (key : W64) (hint : Byte) : Nat :=
  let fits (t : Byte) : Bool := tgtDie t == d && gridIn s d g (tgtCluster t)
  let byKey := (keySpace s key).map (fun x => ownerTgt x key)
  match byKey with
  | some t => if fits t then tgtCluster t
      else if fits hint then tgtCluster hint else ((idxWhere 12 (gridIn s d g)).head?).getD 0
  | none => if fits hint then tgtCluster hint else ((idxWhere 12 (gridIn s d g)).head?).getD 0

/-- The record a task waits on, when its key lies on a leaving block (R124, R397). -/
def holdRec (s : State) (key : W64) : Option (Nat × KRec) :=
  match keySpace s key with
  | some x =>
    match lookRec x key with
    | some r => if r.2.st == 3 then some r else none
    | none => none
  | none => none

/-- The deckle that a key's lookup needs is being changed on the die (R112). -/
def keyStall (s : State) (d : Nat) (k : W64) : Bool := (keySpace s k).any (fun x => deckleStall x d)

/-- A ready task enters a queue, or is held on its leaving block (R124, R397); steering waits while the deckle changes (R112). -/
def enterReady (s : State) (d gid : Nat) (tcb : W64) : Except AErr State := do
  match s.grid? d gid with
  | none => return s
  | some g =>
    let (s, key) ← tcbRd s d tcb 0 8
    let (s, prio) ← tcbRd s d tcb 40 2
    let (s, hint) ← tcbRd s d tcb 43 1
    let key : W64 := BitVec.ofNat 64 key
    if keyStall s d key then throw (.busy .unit)
    else match holdRec s key with
    | some (i, r) =>
      let s ← match r.hold.getLast? with
        | some last => tcbWr s d last 48 8 tcb.toNat
        | none => pure s
      let s ← tcbWr s d tcb 48 8 0
      let s := putRec s (keySp key) i { r with hold := r.hold ++ [tcb] }
      return s.modGrid d gid (fun g => { g with held := g.held ++ [(tcb, key)] })
    | none =>
      let cl := readyCluster s d g key (BitVec.ofNat 8 hint)
      return s.modGrid d gid (fun g => { g with ready := g.ready ++ [⟨cl, tcb, prio, key⟩] })

/-- Posts a fault record (R399). -/
def postFault (s : State) (d gid : Nat) (tcb : W64) (code wgid : Nat) : Except AErr State := do
  match s.grid? d gid with
  | none => return s
  | some g =>
    let (s, n) ← vrdN s { die := d } g.flist.toNat 8
    let s ← vwrN s { die := d } g.flist.toNat 8 ((n + 1) % 2 ^ 64)
    let r := leBytes 8 tcb.toNat ++ leBytes 4 code ++ leBytes 2 wgid ++ zeros 2
    if n ≥ g.flcap then return s
    else vwrite s { die := d } (g.flist.toNat + 16 + 16 * n) r

/-- Decrements the successors of a task, in list order (R398): `n` of them from the array at `arr`. -/
def decSuccs (d gid wgid arr : Nat) : Nat → Nat → State → Except AErr State
  | 0, _, s => .ok s
  | n + 1, i, s => do
    let (s, t) ← vrdN s { die := d } (arr + 8 * i) 8
    let tcb : W64 := BitVec.ofNat 64 t
    let (s, st) ← tcbRd s d tcb 42 1
    let (s, dep) ← tcbRd s d tcb 36 4
    let s ←
      if st != 0 || dep == 0 then postFault s d gid tcb 0x53 wgid
      else do
        let s ← tcbWr s d tcb 36 4 (dep - 1)
        if dep == 1 then
          let s ← tcbWr s d tcb 42 1 1
          enterReady s d gid tcb
        else pure s
    decSuccs d gid wgid arr n (i + 1) s

/-- Decrements the successors of a task (R398). -/
def runSuccs (s : State) (d gid wgid : Nat) (tcb : W64) : Except AErr State := do
  let (s, arr) ← tcbRd s d tcb 24 8
  let (s, n) ← tcbRd s d tcb 32 4
  decSuccs d gid wgid arr n 0 s

/-- A task ends, done or faulted with a code (R398, R412, R417). -/
def taskEnd (s : State) (d gid wgid : Nat) (tcb : W64) (flt : Option Nat) : Except AErr State := do
  match flt with
  | none =>
    let s ← tcbWr s d tcb 42 1 3
    runSuccs s d gid wgid tcb
  | some c =>
    let s ← tcbWr s d tcb 42 1 4
    let s ← tcbWr s d tcb 44 4 c
    postFault s d gid tcb c wgid

/-- A result, or the state unchanged when an access of the dispenser fails. -/
def orSame (s : State) : Except AErr State → State
  | .ok t => t
  | .error _ => s

/-- Adds `n` to the cost of the record that a lookup of the bound key finds, saturating (R121). -/
def addCost (s : State) (key : W64) (n : Nat) : State :=
  match keySpace s key with
  | some x =>
    match lookRec x key with
    | some (i, r) => putRec s (keySp key) i { r with cost := BitVec.ofNat 32 (min 0xFFFFFFFF (r.cost.toNat + n)) }
    | none => s
  | none => s

/-- A listed task whose `st` and `dep` are 0 becomes ready (R397). -/
def lookTask (s : State) (d gid : Nat) (tcb : W64) : Except AErr State := do
  let (s, st) ← tcbRd s d tcb 42 1
  let (s, dep) ← tcbRd s d tcb 36 4
  if st != 0 || dep != 0 then return s
  else
    let s ← tcbWr s d tcb 42 1 1
    enterReady s d gid tcb

/-- One piece of the dispenser's waiting work. -/
def jobDo (s : State) (d gid : Nat) : TaskJob → Except AErr State
  | .look t => lookTask s d gid t
  | .enter t => enterReady s d gid t
  | .fault t wgid code => taskEnd s d gid wgid t (some code)
  | .cost k n => if keyStall s d k then .error (.busy .unit) else .ok (addCost s k n)

/-- Does waiting work in its order, up to the first piece that has to wait. Work whose accesses fail is dropped (log entry 22). -/
def drainJobs (d gid : Nat) : List TaskJob → State → State
  | [], s => s.modGrid d gid (fun g => { g with jobs := [] })
  | j :: t, s =>
    match jobDo s d gid j with
    | .ok s => drainJobs d gid t s
    | .error (.busy h) => (noteHeld s h).modGrid d gid (fun g => { g with jobs := j :: t })
    | .error _ => drainJobs d gid t s

/-- The waiting work of a grid's dispenser, as far as it can be done now. -/
def runJobs (s : State) (d gid : Nat) : State :=
  match s.grid? d gid with
  | some g => if g.jobs.isEmpty then s else drainJobs d gid g.jobs s
  | none => s

/-- Gives a grid's dispenser work. -/
def addJobs (s : State) (d gid : Nat) (js : List TaskJob) : State :=
  runJobs (s.modGrid d gid (fun g => { g with jobs := g.jobs ++ js })) d gid

/-- The dispensers of every die go on with their waiting work. -/
def runAllJobs (s : State) : State :=
  (List.range 4).foldl (fun s d => (s.die d).grids.foldl (fun s g => runJobs s d g.id) s) s

/-- Order of a ready queue: priority descending, key ascending, address ascending (R397). -/
def readyLt (a b : Ready) : Bool :=
  a.prio > b.prio || (a.prio == b.prio &&
    (a.key.toNat < b.key.toNat || (a.key == b.key && a.tcb.toNat < b.tcb.toNat)))

/-- The head of a cluster's ready queue (R397). -/
def readyHead (g : Grid) (cl : Nat) : Option Ready :=
  (sortBy readyLt (g.ready.filter (fun r => r.cluster == cl))).head?

/-- Held tasks of a record are released to the ready queues (R125, R127). -/
def releaseHeld (s : State) (hold : List W64) : State :=
  hold.foldl (fun s tcb =>
    (List.range 4).foldl (fun s d =>
      (s.die d).grids.foldl (fun s g =>
        if g.held.any (fun h => h.1 == tcb) then
          addJobs (s.modGrid d g.id (fun y => { y with held := y.held.filter (fun h => h.1 != tcb) })) d g.id [.enter tcb]
        else s) s) s) s

end Sys2Proof.Machine
end

