-- ==== Sys2Proof/Machine/Ops.lean ====
section
/-! DEFINITION. The shared operations of the issuing fragment: paths into the state, registers and windows, handles and
pending marks, range locks, taking a trap and returning from one, the exit of threads (03 R79 to R92; 07 R187 to R209;
10 R285 to R288; 18 R413 to R419). -/

namespace Sys2Proof.Machine

/-! ### Paths -/

namespace State

/-- The workgroup of a slot, when it is where the reference says. -/
def wgOf? (s : State) (f : FragRef) : Option Wg :=
  match s.wg? f.die f.wg with
  | some g => if g.core == f.core then some g else none
  | none => none

/-- The warp of a slot. -/
def warp? (s : State) (f : FragRef) : Option Warp :=
  match s.wgOf? f with
  | some g => Tab.get? g.warps f.warp
  | none => none

/-- Changes the workgroup of a slot. -/
def modWgOf (s : State) (f : FragRef) (g : Wg → Wg) : State := s.modWg f.die f.wg g

/-- Changes the warp of a slot. -/
def modWarp (s : State) (f : FragRef) (g : Warp → Warp) : State :=
  s.modWgOf f (fun x => { x with warps := Tab.modify x.warps f.warp g })

end State

/-- A slot of a warp. -/
def Warp.slot (w : Warp) (s1 : Bool) : Frag := if s1 then w.s1 else w.s0

/-- Changes a slot of a warp. -/
def Warp.modSlot (w : Warp) (s1 : Bool) (g : Frag → Frag) : Warp :=
  if s1 then { w with s1 := g w.s1 } else { w with s0 := g w.s0 }

/-- The fragment of a slot. -/
def State.frag? (s : State) (f : FragRef) : Option Frag :=
  match s.warp? f with
  | some w => if (w.slot f.s1).occ then some (w.slot f.s1) else none
  | none => none

/-- Changes the fragment of a slot. -/
def State.modFrag (s : State) (f : FragRef) (g : Frag → Frag) : State := s.modWarp f (fun w => w.modSlot f.s1 g)

/-- The sibling slot. -/
def sibOf (f : FragRef) : FragRef := { f with s1 := !f.s1 }

/-- Changes a thread of a warp. -/
def Warp.modThr (w : Warp) (t : Nat) (g : Thr → Thr) : Warp := { w with thr := listMod w.thr t g }

/-- A thread of a warp. -/
def Warp.thread (w : Warp) (t : Nat) : Thr := (w.thr[t]?).getD default

/-- What an issuing word sees: the slot, its workgroup, warp and fragment. -/
structure Ctx where
  f : FragRef
  g : Wg
  w : Warp
  p : Frag
  deriving Repr, Inhabited

/-- The context of a slot that holds a fragment. -/
def ctxOf (s : State) (f : FragRef) : Option Ctx :=
  match s.wgOf? f with
  | none => none
  | some g =>
    match Tab.get? g.warps f.warp with
    | none => none
    | some w => if (w.slot f.s1).occ then some ⟨f, g, w, w.slot f.s1⟩ else none

/-- The context of the issuing fragment. -/
def ctx? (s : State) : Option Ctx := ctxOf s s.cur

/-- The core of a context. -/
def Ctx.core (c : Ctx) (s : State) : Core := s.core c.f.die c.f.core

/-! ### Registers (R199, R204, R205) -/

/-- Sizes of the rotating region (R192). -/
def rotSize : Nat → Nat
  | 1 => 4
  | 2 => 8
  | 3 => 16
  | _ => 0

/-- The register that a named register means under the rotating region (R204). -/
def rotReg (p : Frag) (r : Nat) : Nat :=
  let n := rotSize p.rsz
  if 16 ≤ r && r < 16 + n then 16 + (r - 16 + p.turn) % n else r

/-- The key of a register: w1 to w7 are fixed; register r of the window of depth j has key 8 + 16 j + r, so that the upper
overlap of a window is the lower overlap of the next (R199). -/
def regKey (p : Frag) (dep r : Nat) : Nat := if r < 8 then r else 8 + 16 * dep + rotReg p r

/-- A w register of a thread; w0 reads zero (R199). -/
def Thr.readW (x : Thr) (p : Frag) (r : Nat) : W32 := if r = 0 then 0 else Tab.getD x.regs (regKey p x.dep r) 0

/-- Its poison bit (R432). -/
def Thr.poisW (x : Thr) (p : Frag) (r : Nat) : Bool := r != 0 && x.pois.contains (regKey p x.dep r)

/-- Writes the register of a key; key 0 is w0 (R199). -/
def Thr.put (x : Thr) (key : Nat) (v : W32) (po : Bool := false) : Thr :=
  if key = 0 then x
  else
    { x with regs := Tab.put x.regs key v 0
             pois := if po then key :: x.pois.filter (· != key) else x.pois.filter (· != key) }

/-- Writes a w register of a thread; a write to w0 is discarded (R199). -/
def Thr.writeW (x : Thr) (p : Frag) (r : Nat) (v : W32) (po : Bool := false) : Thr :=
  if r = 0 then x else x.put (regKey p x.dep r) v po

/-- A k register; k0 reads zero (R205). -/
def Warp.readK (w : Warp) (i : Nat) : W64 := if i = 0 then 0 else Tab.getD w.k i 0

/-- Writes a k register; a write to k0 is discarded. The write clears its pending mark and its poison (R80, R217). -/
def Warp.writeK (w : Warp) (i : Nat) (v : W64) (po : Bool := false) : Warp :=
  if i = 0 then w
  else
    let bit : W32 := 1 <<< i
    { w with k := Tab.put w.k i v 0, kpend := w.kpend &&& ~~~bit
             kpois := if po then w.kpois ||| bit else w.kpois &&& ~~~bit }

/-- Marks a k register pending (R80). -/
def Warp.markK (w : Warp) (i : Nat) : Warp := if i = 0 then w else { w with kpend := w.kpend ||| (1 <<< i) }

/-! ### Issue accounting (R121, R188, R254) -/

/-- Lane cycles of `n` threads (R188). -/
def laneCycles (n : Nat) : Nat := max 1 (ceilDiv n 4)

/-- The issuing warp spends cycles of its core, of which its step is one, and a bound warp accumulates cost (R121, R206; log entry 5). -/
def spend (s : State) (f : FragRef) (cyc : Nat) : State :=
  let s := s.addCyc f.die f.core (cyc - 1)
  s.modWarp f (fun w =>
    match w.bound with
    | some _ =>
      let n := w.issueCyc + cyc
      { w with issueCyc := n % 16, costDue := w.costDue + n / 16 }
    | none => w)

/-- A fragment has issued its word and goes on at an address. A replay mask serves the one word that `tret` re-executes, and stays while a handler runs (R419). -/
def Frag.next (p : Frag) (pc : W64) : Frag :=
  { p with pc := pc, wait := .none, kept := .none, seq := p.seq + 1, relOf := none, iword := none
           rplOn := p.rplOn && p.inH, rpl := if p.inH then p.rpl else 0 }

/-- The issuing fragment goes on at an address. -/
def goTo (s : State) (f : FragRef) (pc : W64) : State := s.modFrag f (fun p => p.next pc)

/-- The word is done: the fragment goes on at the next word. -/
def finish (s : State) (f : FragRef) (cyc : Nat) : State :=
  let s := spend s f cyc
  s.modFrag f (fun p => p.next (p.pc + 8))

/-- Sets flags of a warp's `fpstat` on behalf of an access or a command of it; a warp that has exited takes none (R179). -/
def setFlagsOf (s : State) (d wg wuid : Nat) (fl : BitVec 5) : State :=
  if fl == 0 then s
  else
    let up (w : Warp) : Warp := if w.wuid == wuid then { w with fpstat := w.fpstat ||| fl } else w
    s.modWg d wg (fun g => { g with warps := g.warps.map (fun e => (e.1, up e.2)), outWarps := g.outWarps.map up })

/-- A wait of a word that has issued: an arrival, or a parked `waita` (R403). -/
def Wait.issued : Wait → Bool
  | .waita | .bar _ | .acq | .slvb | .slvx | .jn | .dir => true
  | _ => false

/-- The fragment stays at its word for a reason. A word that only stalls has not issued (R403). -/
def hold (s : State) (f : FragRef) (w : Wait) : State :=
  let s := s.modWarp f (fun x => { x with parkedAt := if (x.slot f.s1).wait == w then x.parkedAt else s.clock })
  s.modFrag f (fun p => { p with wait := w, lastIssue := if w.issued then p.lastIssue else p.prevIssue })

/-- A progress point (R209). -/
def progress (s : State) (f : FragRef) : State := s.modFrag f (fun p => { p with wdc := 0, wdt := none, wdHeld := none })

/-! ### Waits -/

/-- A wait that only an event ends. -/
def Wait.byEvent : Wait → Bool
  | .waita | .bar _ | .acq | .mxLease | .puLease | .slvb | .slvx | .jn | .dir => true
  | _ => false

/-- A parked fragment takes no issue slots (R85, R198, R403); a stalled one is tried again. -/
def Wait.parked : Wait → Bool
  | .none | .stall | .walk | .pop _ | .push _ | .popDead _ | .marker | .mxRes => false
  | _ => true

/-- Ends the waits of a die's fragments that satisfy `p`. -/
def wakeWhere (s : State) (d : Nat) (q : Nat → Wg → Bool) (p : Wait → Bool) : State :=
  s.modDie d (fun x => { x with wgs := x.wgs.map (fun e =>
    if q e.1 e.2 then
      (e.1, { e.2 with warps := e.2.warps.map (fun w =>
        let un (fr : Frag) : Frag := if fr.occ && p fr.wait then { fr with wait := .none } else fr
        (w.1, { w.2 with s0 := un w.2.s0, s1 := un w.2.s1 })) })
    else e) })

/-! ### Accesses of a fragment (R225, R137) -/

/-- A scratchpad access of the fragment is on its way to its bank (R64, R288). -/
def banksOut (s : State) (uid : Nat) : Bool := s.accs.any (fun a => a.uid == uid && a.st == .bank)

/-- The fragment has a variable-latency result that is not yet written (R225). -/
def resultsOut (s : State) (uid : Nat) : Bool := s.accs.any (fun a => a.uid == uid && (a.dst != .none || a.dst2 != .none))

/-- A non-temporal store has found that its page is no alias page, on which it is an ordinary store (R300). -/
def Acc.nt (a : Acc) : Bool := a.kind == .storeNt && a.st != .walk && a.st != .busyWalk

/-- A store or atomic is accepted at its cluster store, or, if home-only, acknowledged (R137). -/
def acceptedWg (a : Acc) : Bool :=
  match a.kind with
  | .load _ | .pref _ | .dir _ | .value => false
  | .storeNt => a.nt
  | _ => a.tracked

/-- A release does not wait for the access: a prefetch, a non-temporal store, a value that is known (R137, R148). -/
def Acc.aside (a : Acc) : Bool :=
  match a.kind with
  | .pref _ | .value => true
  | _ => a.nt

/-- The fragment's accesses are complete at `.wg` (R137); prefetches and non-temporal stores take no part. -/
def settledWg (s : State) (uid : Nat) : Bool :=
  s.accs.all (fun a => a.uid != uid || acceptedWg a || a.st == .done || a.aside)

/-- A matrix or pulp instruction that the warp's agent issued (R146). -/
def ownOp (s : State) (f : FragRef) (e : EngOp) : Bool :=
  e.wg == f.wg && e.warp == f.warp && (s.warp? f).any (fun w => w.wuid == e.wuid)

/-- A matrix or pulp instruction of the agent still works on its scratchpad operands (R146). -/
def engOut (s : State) (f : FragRef) : Bool :=
  let c := s.core f.die f.core
  (c.mxq ++ c.pq).any (fun e => ownOp s f e && !(e.reads.isEmpty && e.writes.isEmpty))

/-- An access of the agent to the operands has to wait: an accepted matrix or pulp instruction of the agent still works on them, or an earlier scratchpad
access of the agent is on its way to them (R140, R146, R324). -/
def opsHeld (s : State) (c : Ctx) (reads writes : List (Nat × Nat)) : Bool :=
  ((c.core s).mxq ++ (c.core s).pq).any (fun e => ownOp s c.f e &&
    (rangesHit reads e.writes || rangesHit writes e.writes || rangesHit writes e.reads)) ||
  s.accs.any (fun a => a.uid == c.p.uid && a.st == .bank &&
    (rangesHit writes [(a.va, a.n)] || (a.kind.writes && rangesHit reads [(a.va, a.n)])))

/-- Every earlier access of the agent is complete at `.wg`, those of its engine instructions among them (R137, R146). -/
def settledAll (s : State) (f : FragRef) (uid : Nat) : Bool := settledWg s uid && !engOut s f

/-- The stores that the tracker of a cluster holds (R71). -/
def trackedIds (s : State) (d cl : Nat) : List Nat :=
  (s.accs.filter (fun a => a.tracked && a.frag.die == d && a.frag.core / 8 == cl)).map (·.id)

/-- The stores that a release of the fragment waits for: those that the tracker held when the release issued (R71, R137). -/
def relIds (s : State) (f : FragRef) : List Nat := ((s.frag? f).bind (·.relOf)).getD (trackedIds s f.die (f.core / 8))

/-- The release wait at a scope (R137). -/
def released (s : State) (f : FragRef) (uid : Nat) (sc : Scope) : Bool :=
  settledAll s f uid &&
  (match sc with
    | .wp | .wg | .cl => true
    | _ => !s.accs.any (fun a => a.tracked && (relIds s f).contains a.id) &&
           s.accs.all (fun a => a.uid != uid || a.st == .done || a.aside))

/-- The fragment waits for a release, and remembers what the tracker held at its issue (R137). -/
def holdRel (s : State) (f : FragRef) : State :=
  let ids := relIds s f
  hold (s.modFrag f (fun p => { p with relOf := some ids })) f .rel

/-- The L1 of a core is flashed; line fills of its reads under way are delivered and not installed (R65). -/
def flashL1 (s : State) (f : FragRef) : State :=
  flashFills (s.modCore f.die f.core (fun c => { c with l1 := [] })) f.die (f.core / 8) (fun a => a.frag.core == f.core && !a.kind.writes)

/-- The breadth of a scope (R134). -/
def scopeRank : Scope → Nat
  | .wp => 0
  | .wg => 1
  | .cl => 2
  | .die => 3
  | .fab => 4
  | .sys => 5

/-- After an acquire at the scope of a command the warp finds the command's payload in scratchpad (R86, R156). -/
def seeLag (s : State) (f : FragRef) (sc : Scope) : State :=
  match s.warp? f with
  | some w =>
    if (s.core f.die f.core).lag.isEmpty then s
    else s.modCore f.die f.core (fun c => { c with lag := c.lag.map (fun l => if scopeRank l.sc ≤ scopeRank sc then { l with seen := w.wuid :: l.seen } else l) })
  | none => s

/-- The acquire action at a scope (R65, R72, R86, R137). -/
def acquire (s : State) (f : FragRef) (sc : Scope) : State :=
  let s := seeLag s f sc
  match sc with
  | .wp | .wg => s
  | .cl => flashL1 s f
  | _ =>
    let s := dropLines (flashL1 s f) f.die (f.core / 8) (fun l => l.2.dsh)
    flashFills s f.die (f.core / 8) (fun a => a.sl == 1)

/-- An acquire of the fragment has not returned: later memory words wait (R135). -/
def acqOut (s : State) (uid : Nat) : Bool := s.accs.any (fun a => a.uid == uid && a.acq.isSome)

/-! ### Handles and pending registers (R79 to R82) -/

/-- The immediate handle of a status (R79). -/
def immHandle (st : Nat) : W64 := BitVec.ofNat 64 (2 ^ 63 + st)

/-- A handle value (R79). -/
def handleVal (tag ent : Nat) (seq : BitVec 23) : W64 := BitVec.ofNat 64 (tag * 2 ^ 32 + seq.toNat * 2 ^ 9 + ent)

/-- The entry a handle names, when it is the workgroup's and fresh (R81). -/
def handleEnt (c : Core) (tag : Nat) (v : W64) : Option (Nat × HEnt) :=
  let x := v.toNat
  let e := bitsOf x 0 9
  match Tab.get? c.handles e with
  | some h =>
    if bitsOf x 32 16 == tag && h.used && h.tag == tag && h.seq.toNat == bitsOf x 9 23 then some (e, h) else none
  | none => none

/-- What a handle resolves to, `none` while its command runs (R81). -/
def handleStatus (c : Core) (tag : Nat) (v : W64) : Option W64 :=
  if v.getLsbD 63 then some (v &&& 0xFFFF)
  else
    match handleEnt c tag v with
    | none => some 0x19
    | some (_, h) => h.status

/-- The acquire with which a resolved status is read: at the scope of the command, which only a live entry names (R144). -/
def acquireStatus (s : State) (f : FragRef) (v : W64) : State :=
  if v.getLsbD 63 then s
  else
    match handleEnt (s.core f.die f.core) f.wg v with
    | some (_, h) => acquire s f h.sc
    | none => s

/-- Resolves the pending registers among `ks`, each with its acquire; `none` while one of them still runs (R80, R144). -/
def settleK (s : State) (c : Ctx) (ks : List Nat) : Option State :=
  let run := ks.filter (fun i => c.w.kpend.getLsbD i)
  match allSome (fun i => (handleStatus (c.core s) c.f.wg (c.w.readK i)).map (fun st => (i, st))) run with
  | none => none
  | some l =>
    if l.isEmpty then some s
    else
      let s := run.foldl (fun s i => acquireStatus s c.f (c.w.readK i)) s
      some (s.modWarp c.f (fun w => l.foldl (fun w x => w.writeK x.1 x.2) w))

/-- A free handle-table entry: the lowest (R79; log entry 86). -/
def freeEnt (c : Core) : Option Nat := (List.range 512).find? (fun e => !(Tab.getD c.handles e {}).used)

/-- Allocates a handle-table entry for a command of a scope: its next use of the sequence (R79, R144). -/
def allocEnt (s : State) (f : FragRef) (e : Nat) (sc : Scope := .wg) : W64 × BitVec 23 × State :=
  let h := Tab.getD (s.core f.die f.core).handles e {}
  let seq := h.seq + 1
  (handleVal f.wg e seq, seq,
    s.modCore f.die f.core (fun c => { c with handles := Tab.set c.handles e ⟨true, seq, f.wg, none, sc⟩ }))

/-- A command's handle resolves; joined fragments look again (R81, R410). -/
def resolveEnt (s : State) (d core e : Nat) (seq : BitVec 23) (st : W64) : State :=
  s.modCore d core (fun c =>
    match Tab.get? c.handles e with
    | some h =>
      if h.used && h.seq == seq then { c with handles := Tab.set c.handles e { h with status := some st } } else c
    | none => c)

/-! ### Range locks (R87, R88) -/

/-- The first byte of an access that a range lock forbids. -/
def lockHit (c : Core) (glob : Bool) (lo n : Nat) (wr : Bool) : Option Nat :=
  if n = 0 then none
  else
    let hits := c.locks.filterMap (fun l =>
      if l.glob == glob && (l.full || wr) && lo ≤ l.hi && l.lo ≤ lo + n - 1 then some (max lo l.lo) else none)
    match hits with
    | [] => none
    | x :: t => some (t.foldl min x)

/-- A range in 64-byte units (R87). -/
def mkLock (glob : Bool) (lo n : Nat) (full : Bool) (cmd : Nat) : Lock :=
  ⟨glob, lo / 64 * 64, (lo + n - 1) / 64 * 64 + 63, full, cmd⟩

/-! ### Exit of threads (R196, R288, R412) -/

/-- A `jn` completes alone: the suspended threads come back (R190). -/
def jnAlone (s : State) (f : FragRef) : State :=
  s.modFrag f (fun p => { p.next (p.pc + 8) with am := p.am ||| p.sm, sm := 0 })

/-- A lease loses its holder and forgets a workgroup; the next grant waits for the counted instructions that have not finished (R322, R352, R401). -/
def Lease.drop (l : Lease) (t : Nat) : Lease :=
  { l with holder := if l.holder == some t then none else l.holder
           count := if l.holder == some t then 0 else l.count
           waiters := l.waiters.filter (· != t) }

/-- A workgroup ends with its last thread (R82, R288, R316, R345, R412). -/
def wgExit (s : State) (d t : Nat) : State :=
  match s.wg? d t with
  | none => s
  | some g =>
    let s := addJobs s d g.grid (g.orphans.map (fun tcb => .fault tcb g.wgid 0x54))
    let s := s.modWg d t (fun g => { g with exited := true, resident := false, orphans := [], acqPend := false, fwalk := false })
    let s := s.modWg d t (fun x => { x with slv := { x.slv with opened := false, arr := [] } })
    let s := s.modCore d g.core (fun c =>
      { c with
        handles := c.handles.map (fun e => if e.2.tag == t then (e.1, { e.2 with used := false }) else e)
        mxLease := c.mxLease.drop t
        puLease := c.puLease.drop t
        sets := c.sets.map (fun x => if x.owner == some t then {} else x)
        acqQ := c.acqQ.filter (· != t)
        calQ := c.calQ.filter (· != t)
        locks := if g.slv.opened then c.locks.filter (fun l => l.cmd != g.slv.lockId) else c.locks })
    let s := s.modDie d (fun x => { x with leaveQ := x.leaveQ.filter (fun r =>
      match r.1 with
      | .pulp c w | .matrix c w | .acq c w => !(c == g.core && w == t)
      | _ => true) })
    s.modGrid d g.grid (fun y => { y with chans := y.chans.map (fun c =>
      (c.1, { c.2 with closed := c.2.closed || c.2.prod == g.wgid, consGone := c.2.consGone || c.2.cons == g.wgid })) })

/-- The counts a bound warp still owes are added (R121). -/
def flushCost (s : State) (f : FragRef) : State :=
  match s.warp? f with
  | some w =>
    (match w.bound with
      | some k =>
        if w.costDue = 0 then s
        else (addJobs s f.die (((s.wgOf? f).map (·.grid)).getD 0) [.cost k w.costDue]).modWarp f (fun w => { w with costDue := 0 })
      | none => s)
  | none => s

/-! ### The save area and the pre-emption handler (R195, R421, R425, R426) -/

/-- The address of the save area `i` of a workgroup: that of warp slot `i` (R426). -/
def warpArea (s : State) (d : Nat) (g : Wg) (i : Nat) : W64 :=
  g.ctx + BitVec.ofNat 64 (g.wgid * (s.die d).csz.toNat * 65536 + 4096 + 8192 * i)

/-- `trapcause` (R414). -/
def causeWord (cause : Nat) (epc : W64) (nr prc : Bool) : W64 :=
  BitVec.ofNat 64 (bitsOf epc.toNat 3 54 * 2 ^ 10 + (if nr then 512 else 0) + (if prc then 256 else 0) + cause % 256)

/-- The live threads of a warp as a mask. -/
def Warp.liveMask (w : Warp) : W32 := maskOf (idxWhere 32 (fun i => (w.thread i).live))

/-- A warp that runs the pre-emption handler from `pc`: one fragment in S0 with every live thread (R421). -/
def Warp.inHandler (w : Warp) (uid : Nat) (pc area : W64) : Warp :=
  let w := w.writeK 31 area
  { w with
    s0 := { occ := true, uid := uid, pc := pc, am := w.liveMask, masked := true, pdef := true, sys := true
            trapcause := causeWord 0x28 0 false true }
    s1 := {}, entered := true, swapped := false }

/-- Registers of a warp as the restore handler finds them: free (log entry 3). -/
def Warp.scrambled (w : Warp) (ix : Nat) : Warp :=
  let w := { w with k := (List.range 31).foldl (fun (t : Tab W64) (i : Nat) =>
    Tab.put t (i + 1) ((Config.freeWord (ix + 2 * i)).zeroExtend 64 ||| ((Config.freeWord (ix + 2 * i + 1)).zeroExtend 64 <<< 32)) 0) [], kpend := 0, kpois := 0 }
  { w with thr := w.thr.zipIdx.map (fun (x : Thr × Nat) =>
      (List.range 31).foldl (fun (y : Thr) (i : Nat) =>
        y.put (regKey {} y.dep (i + 1)) (Config.freeWord (ix + 64 + 32 * x.2 + i))) { x.1 with regs := [], pois := [], res := 1 }) }

/-- A saved warp starts again at the restore entry, in slot `i` (R195, R425). -/
def restoreWarp (s : State) (d t i : Nat) (w : Warp) : State :=
  match s.wg? d t with
  | none => s
  | some g =>
    let (uid, s) := s.fresh
    let ix := s.freeIx
    let s := { s with freeIx := s.freeIx + 2048 }
    s.modWg d t (fun x => { x with warps := Tab.set x.warps i ((w.scrambled ix).inHandler uid ((s.die d).vec + 8) (warpArea s d g w.area)) })

/-- A workgroup leaves its core (R345, R401, R420). -/
def leaveCore (s : State) (d t : Nat) : State :=
  match s.wg? d t with
  | none => s
  | some g =>
    let (n, s) := s.fresh
    let s := s.modWg d t (fun x => { x with resident := false, outSeq := n, fwalk := false })
    let s := s.modCore d g.core (fun c =>
      { c with mxLease := c.mxLease.drop t, puLease := c.puLease.drop t, acqQ := c.acqQ.filter (· != t)
               sets := c.sets.map (fun x => if x.owner == some t then {} else x) })
    s.modDie d (fun x => { x with leaveQ := x.leaveQ.filter (fun r =>
      match r.1 with
      | .pulp c w | .matrix c w | .acq c w => !(c == g.core && w == t)
      | _ => true) })

/-- The first free warp slot of a workgroup (R187, R194). -/
def freeSlot (g : Wg) : Option Nat := (List.range g.nslot).find? (fun i => (Tab.get? g.warps i).isNone)

/-- The save area of the warp in slot `i`, which is chosen as it is saved: that of its slot, unless a warp that left the slot is still saved there (R426; log
entry 87). -/
def saveArea (g : Wg) (i : Nat) : Nat :=
  let used := (g.warps.filter (fun e => e.1 != i && (e.2.entered || e.2.swapped))).map (·.2.area) ++ g.outWarps.map (·.area)
  ((i :: List.range (used.length + 1)).find? (fun a => !used.contains a)).getD i

/-- A warp that the former swapped out returns to a free slot (R195). -/
def bringBack (s : State) (d t i : Nat) : State :=
  match (s.wg? d t).map (·.outWarps) with
  | some (x :: rest) => restoreWarp (s.modWg d t (fun g => { g with outWarps := rest })) d t i x
  | _ => s

/-- The handler of a warp ends with its last thread: the warp is swapped out, and the workgroup with its last warp (R195, R421). A slot that freed while
the former's swap-out ran takes the warp back at once. -/
def swapOut (s : State) (f : FragRef) : State :=
  match s.wgOf? f, s.warp? f with
  | some g, some w =>
    let w' := { w with s0 := {}, s1 := {}, swapped := true, preW := false }
    if w.preW then
      let s := s.modWgOf f (fun x => { x with warps := Tab.erase x.warps f.warp, outWarps := x.outWarps ++ [w'] })
      match freeSlot g with
      | some i => bringBack s f.die f.wg i
      | none => s
    else
      let s := s.modWarp f (fun _ => w')
      if g.warps.all (fun e => e.1 == f.warp || e.2.swapped) then leaveCore s f.die f.wg else s
  | _, _ => s

/-- Every warp of the workgroup that has not exited has arrived; one that the former swapped out has not exited (R195, R368). -/
def allArrived (g : Wg) : Bool :=
  !g.warps.isEmpty && g.outWarps.isEmpty && g.warps.all (fun (e : Nat × Warp) => g.slv.arr.any (fun a => a.warp == e.1))

/-- Where the last arrival completes a `slvx`, the workgroup waits for the calender (R368, R379). -/
def calEnter (s : State) (d t : Nat) : State :=
  match s.wg? d t with
  | none => s
  | some g =>
    match allArrived g, g.slv.arr with
    | true, a :: _ =>
      if !a.op && g.slv.opened && g.slv.arr.all (fun b => !b.op && b.at_ == a.at_) then
        s.modCore d g.core (fun c => if c.calQ.contains t then c else { c with calQ := c.calQ ++ [t] })
      else s
    | _, _ => s

/-- After a slot has emptied: the sibling's join, the end of the warp, the end of the workgroup (R190, R288), and a `slvx` that the remaining warps have
arrived at (R379). -/
def afterEmpty (s : State) (f : FragRef) : State :=
  match s.warp? f with
  | none => s
  | some w =>
    let sib := w.slot (!f.s1)
    if sib.occ then (if sib.wait == .jn then jnAlone s (sibOf f) else s)
    else
      let s := flushCost s f
      let s := s.modWgOf f (fun g =>
        { g with warps := Tab.erase g.warps f.warp
                 orphans := match w.task with | some t => g.orphans ++ [t] | none => g.orphans })
      let s := bringBack s f.die f.wg f.warp
      match s.wgOf? f with
      | some g => if g.warps.isEmpty && g.bins.all (fun b => b.recs.isEmpty) then wgExit s f.die f.wg else calEnter s f.die f.wg
      | none => s

/-- Threads of a slot end (R288): `m` of the active mask, and of the suspended set too when `all` holds (R417). In the pre-emption handler
they end their part in it, and live on in the save area (log entry 14). -/
def exitThreads (s : State) (f : FragRef) (m : W32) (all : Bool) : State :=
  match s.frag? f with
  | none => s
  | some p =>
    let gone := if all then p.am ||| p.sm else p.am &&& m
    let am := p.am &&& ~~~gone
    let sm := if all then 0 else p.sm
    let s := if p.sys && !all then s else s.modWarp f (fun w =>
      { w with thr := w.thr.zipIdx.map (fun x => if gone.getLsbD x.2 then { x.1 with live := false } else x.1) })
    if am == 0 && sm == 0 && p.sys && !all then
      let s := s.modFrag f (fun p => { p with occ := false, am := 0, sm := 0 })
      if (s.warp? f).any (fun w => (w.slot (!f.s1)).occ) then afterEmpty s f else swapOut s f
    else if am == 0 && sm == 0 then
      afterEmpty (s.modFrag f (fun p => { p with occ := false, am := 0, sm := 0, masked := false, pdef := false
                                                 inH := false, sys := false, wait := .none, kept := .none })) f
    else s.modFrag f (fun p => { p with am := am, sm := sm, masked := false, pdef := false })

/-! ### Traps (R413 to R418) -/

/-- A trap while traps are masked ends the fragment's threads (R417). -/
def doubleTrap (s : State) (f : FragRef) (cause : Nat) (info epc : W64) : State :=
  match ctxOf s f with
  | none => s
  | some c =>
    let r := evRecord 3 f.die f.core (f.warp % 16) 0xFF cause 0 c.g.wgid info epc (s.cycOf f.die f.core)
    let s := postEvent s f.die r
    let s := match c.w.task with
      | some t =>
        let s := (flushCost s f).modWarp f (fun w => { w with task := none, bound := none })
        addJobs s f.die c.g.grid [.fault t c.g.wgid 0x55]
      | none => s
    exitThreads s f 0 true

/-- Trap entry (R416), or a double trap (R417). A watchdog trap clears the count (R209); one that is due at the entry of another trap is kept, and taken once
traps are unmasked (R436; log entry 101). -/
def takeTrap (s : State) (f : FragRef) (cause : Nat) (info epc : W64) (nr prc : Bool) : State :=
  match ctxOf s f with
  | none => s
  | some c =>
    if c.p.masked then doubleTrap s f cause info epc
    else
      s.modFrag f (fun p =>
        { p with trapcause := causeWord cause epc nr prc, trapinfo := info, inH := true, masked := true
                 pc := c.g.trapv, wait := .none, kept := .none, fault := none, wdt := none, relOf := none, iword := none
                 rplOn := p.rplOn && !p.inH
                 wdHeld := if cause == 0x18 then none else p.wdt.or p.wdHeld
                 wdc := if cause == 0x18 then 0 else p.wdc })

/-- A trap raised at issue: it resumes at the word, and no later word has been performed (R413). -/
def trapAt (s : State) (f : FragRef) (cause : Nat) (info : W64) : State :=
  match s.frag? f with
  | some p => takeTrap s f cause info p.pc false true
  | none => s

/-- The illegal-instruction trap of the issuing word (R227, R413). -/
def illegal (s : State) (f : FragRef) : State := trapAt s f 5 s.word

/-- The illegal-convergence trap with a reason code (R415). -/
def badConv (s : State) (f : FragRef) (reason : Nat) : State := trapAt s f 8 (BitVec.ofNat 64 reason)

/-- An imprecise trap: it resumes at `regionpc`, or is not restartable (R59, R418); under the precise bit, at the faulting
word with a replay mask (R419). -/
def takeImprecise (s : State) (f : FragRef) (r : FaultRec) : State :=
  match ctxOf s f with
  | none => s
  | some c =>
    let prc := decide (c.p.seq ≤ r.seq + 1)
    if c.g.precise then
      let masked := c.p.masked
      let s := takeTrap s f r.cause r.info r.word false true
      if masked then s else s.modFrag f (fun p => { p with rpl := r.mask, rplOn := true })
    else if c.p.regioncnt == 0 then takeTrap s f r.cause r.info r.word true prc
    else takeTrap s f r.cause r.info c.p.regionpc false prc

/-- A fault found while the word itself is performed by the hardware (a spill, a fill, a maintenance operation). -/
def faultNow (s : State) (f : FragRef) (cause va : Nat) : State :=
  match s.frag? f with
  | some p => takeImprecise s f ⟨cause, BitVec.ofNat 64 va, p.pc, p.seq, p.am⟩
  | none => s

/-- The return from a handler (R436): to epc, replaying under a replay mask, or to an address. -/
def trapReturn (s : State) (f : FragRef) (dest : Option W64) : State :=
  s.modFrag f (fun p =>
    let epc : W64 := BitVec.ofNat 64 (bitsOf p.trapcause.toNat 10 54 * 8)
    { p with inH := false, masked := false, wait := .none, kept := .none, seq := p.seq + 1, iword := none
             pc := dest.getD epc
             rplOn := p.rplOn && dest.isNone, rpl := if dest.isNone then p.rpl else 0 })

/-! ### Register windows (R200, R201) -/

/-- The address of a thread's backing-store area (R201). -/
def threadArea (g : Wg) (tid : Nat) : Nat :=
  bitsOf g.bstoreBase.toNat 16 41 * 2 ^ 16 + tid * g.stride * 64

/-- The access is one of global memory. -/
def Acc.inMem (a : Acc) : Bool :=
  match a.kind with
  | .dir _ | .value | .pref _ => false
  | _ => a.st != .bank

/-- A global access of the fragment is still under way to bytes that a hidden access of it would touch (R201). -/
def ownHeld (s : State) (f : FragRef) (uid va n : Nat) (wr : Bool) : Bool :=
  s.accs.any (fun a => a.uid == uid && a.inMem && (wr || a.kind.writes) &&
    (match a.st with | .done | .bad _ _ => false | .ack => a.kind == .storeNt | _ => true) &&
    (overlap a.va a.n va n || rangesHit (a.spans s) (peekSpan s f.die f.core va n wr)))

/-- The agent of a fragment's own hidden accesses, which pass through its core's L1 (R193, R201). -/
def ownAgent (s : State) (f : FragRef) : Agent :=
  { die := f.die, core := some f.core, l1 := true, holds := (s.frag? f).any (fun p => p.wait == .walk)
    who := match s.frag? f with | some p => .frag p.uid p.seq | none => .die f.die }

/-- A hidden access of the fragment is held up: it waits at its word, with a walker where a page is busy, or in the busy table of a home (R49, R60). -/
def holdFor (s : State) (f : FragRef) (h : Held) (w : Wait := .stall) : State :=
  hold (noteHeld s h) f (match h with | .page => .walk | _ => w)

/-- Spills the window of depth `j` of a thread: its sixteen registers, poison in 8-byte units (R200, R201, R432). -/
def spillWin (s : State) (f : FragRef) (t j : Nat) : Except AErr State := do
  match s.wgOf? f, s.warp? f with
  | some g, some w =>
    let x := w.thread t
    let va := threadArea g x.tid + 64 * j
    let val (k : Nat) : List Byte := leBytes 4 (Tab.getD x.regs k 0).toNat
    let s ← (List.range 8).foldlM (fun s u =>
      let a := 16 + 16 * j + 2 * u
      vwrite s (ownAgent s f) (va + 8 * u) (val a ++ val (a + 1)) (x.pois.contains a || x.pois.contains (a + 1))) s
    return s.modWarp f (fun w => { w with spills := w.spills + 1 })
  | _, _ => return s

/-- Fills the window of depth `j` of a thread (R200, R432). -/
def fillWin (s : State) (f : FragRef) (t j : Nat) : Except AErr State := do
  match s.wgOf? f, s.warp? f with
  | some g, some w =>
    let x := w.thread t
    let va := threadArea g x.tid + 64 * j
    let s ← (List.range 8).foldlM (fun s u => do
      let (s, b, p) ← vread s (ownAgent s f) (va + 8 * u) 8
      let a := 16 + 16 * j + 2 * u
      return s.modWarp f (fun w => w.modThr t (fun x =>
        (x.put a (BitVec.ofNat 32 (fieldAt b 0 4)) p).put (a + 1) (BitVec.ofNat 32 (fieldAt b 4 4)) p))) s
    return s.modWarp f (fun w => { w with fills := w.fills + 1 })
  | _, _ => return s

/-- Spills every resident window of a thread older than the newest `keep`, oldest first (R191, R208, R421). -/
def spillOld (s : State) (f : FragRef) (t keep : Nat) : Except AErr State := do
  match s.warp? f with
  | none => return s
  | some w =>
    let x := w.thread t
    let s ← (List.range (x.res - keep)).foldlM (fun s i => spillWin s f t (x.dep - x.res + 1 + i)) s
    return s.modWarp f (fun w => w.modThr t (fun x => { x with res := min x.res keep }))

end Sys2Proof.Machine
end

