-- ==== Sys2Proof/Machine/Operands.lean ====
section
/-! DEFINITION. Operands: reading every class in every width, queues, special registers, guards, and writing destinations
(03 R90 to R92; 07 R206, R207; 08 R213 to R219; 10 R252, R253; 18 R432). -/

namespace Sys2Proof.Machine

/-! ### Special registers (R206 to R208) -/

/-- `allot` (R208). -/
def allotWord (g : Wg) : W64 :=
  BitVec.ofNat 64 (g.bands.toNat * 2 ^ 8 + g.nwin * 2 ^ 5 + (if g.acqPend then 16 else 0) + (if g.fullHeld then 1 else 0))

/-- `pcslot` (R207). -/
def pcslotWord (w : Warp) (s1 : Bool) : W64 :=
  let b (x : Bool) (v : Nat) : Nat := if x then v else 0
  BitVec.ofNat 64 (b (w.s1.occ && w.s1.wait == .jn) 16 + b (w.s0.occ && w.s0.wait == .jn) 8 + b w.s1.occ 4 + b w.s0.occ 2 +
    b s1 1)

/-- STKSTAT (R32). -/
def stkstatWord (x : Die) : W64 := BitVec.ofNat 64 (x.hov.toNat * 2 ^ 8 + x.own.toNat)

/-- `bstore` (R202). -/
def bstoreWord (g : Wg) : W64 := BitVec.ofNat 64 (bitsOf g.bstoreBase.toNat 16 41 * 2 ^ 16 + g.stride)

/-- The value of special register `ix` for thread `t` of a fragment (R206). -/
def readSpecial (s : State) (c : Ctx) (t : Nat) (ix : Nat) : W64 :=
  let n (v : Nat) : W64 := BitVec.ofNat 64 v
  let x := c.w.thread t
  match ix with
  | 0 => n x.tid
  | 1 => n c.f.warp
  | 2 => n c.g.wgid
  | 3 => n (c.f.warp % 16)
  | 4 => n c.f.core
  | 5 => n (c.f.core / 8)
  | 6 => n c.f.die
  | 7 => c.p.am.zeroExtend 64
  | 8 => pcslotWord c.w c.f.s1
  | 9 => n c.p.turn
  | 10 => c.p.lcnt.zeroExtend 64
  | 11 => n (x.res * 2 ^ 8 + x.dep)
  | 12 => n (s.cycOf c.f.die c.f.core)
  | 13 => c.p.trapcause
  | 14 => c.p.trapinfo
  | 15 => c.p.regionpc
  | 16 => c.p.regioncnt.zeroExtend 64
  | 17 => c.p.fragid.zeroExtend 64
  | 18 => c.p.parentid.zeroExtend 64
  | 19 => let o := c.w.slot (!c.f.s1); if o.occ then o.am.zeroExtend 64 else 0
  | 20 => c.g.slvk
  | 21 => c.g.slvnorm
  | 22 => n c.g.spbase
  | 23 => n c.g.splen
  | 24 => (s.die c.f.die).capinfo
  | 25 => stkstatWord (s.die c.f.die)
  | 26 => c.w.srix.zeroExtend 64
  | 27 => c.w.fpstat.zeroExtend 64
  | 28 => bstoreWord c.g
  | 29 => n (c.w.fills.toNat * 2 ^ 32 + c.w.spills.toNat)
  | 30 => c.g.wlim
  | _ => allotWord c.g

/-- Is the special register one of a thread's or a fragment's own (R206)? -/
def perThread (ix : Nat) : Bool := ix == 0 || (7 ≤ ix && ix ≤ 11) || (13 ≤ ix && ix ≤ 19)

/-- A special register read once for the warp: a thread's or fragment's register gives the lowest-numbered active
thread's value, or 0 where no thread is active (R206). -/
def readSpecialUni (s : State) (c : Ctx) (ix : Nat) : W64 :=
  match (maskList c.p.am).head? with
  | some t => readSpecial s c t ix
  | none => if perThread ix then 0 else readSpecial s c 0 ix

/-! ### Values of operands (R216, R217, R252) -/

/-- How an immediate becomes an operand (R216, R217). -/
inductive Kind where
  | int
  | flt (f : FFmt)
  | packed (f : FFmt)
  deriving DecidableEq, Repr, Inhabited

/-- A source operand with its width and kind. -/
structure Src where
  o : Opd
  w : Nat := 32
  k : Kind := .int
  deriving DecidableEq, Repr, Inhabited

/-- A small immediate of a kind (R217). -/
def siVal (k : Kind) (w : Nat) (v : BitVec 5) : Nat :=
  match k with
  | .int => (v.signExtend 64).toNat % 2 ^ w
  | .flt f => (roundTo f .rne false (.ofInt v.toInt)).bits
  | .packed f => let b := (roundTo f .rne false (.ofInt v.toInt)).bits; b + b * 2 ^ 16

/-- An imm19 of a kind (R216). -/
def imVal (k : Kind) (w : Nat) (v : BitVec 19) : Nat :=
  match k with
  | .int => (v.signExtend 64).toNat % 2 ^ w
  | .flt f => if f.width = 16 then bitsOf v.toNat 3 16 else v.toNat * 2 ^ (f.width - 19)
  | .packed _ => let b := bitsOf v.toNat 3 16; b + b * 2 ^ 16

/-- The value of an operand for thread `t`; queues are read by `popVals`. -/
def opVal (s : State) (c : Ctx) (uni : Bool) (t : Nat) (x : Src) : Nat :=
  match x.o with
  | .w i => ((c.w.thread t).readW c.p i.toNat).toNat
  | .wp i =>
    if i = 0 then 0
    else
      let th := c.w.thread t
      (th.readW c.p (2 * i.toNat)).toNat + (th.readW c.p (2 * i.toNat + 1)).toNat * 2 ^ 32
  | .k i => (c.w.readK i.toNat).toNat % 2 ^ x.w
  | .si v => siVal x.k x.w v
  | .im v => imVal x.k x.w v
  | .sp i => (if uni then readSpecialUni s c i.toNat else readSpecial s c t i.toNat).toNat % 2 ^ x.w
  | .q _ | .z _ => 0

/-- The k registers that operands read. -/
def kRegs (l : List Opd) : List Nat := l.filterMap (fun o => match o with | .k i => some i.toNat | _ => none)

/-- The poison of an operand for thread `t` (R432). -/
def opPois (c : Ctx) (t : Nat) : Opd → Bool
  | .w i => (c.w.thread t).poisW c.p i.toNat
  | .wp i => i != 0 && ((c.w.thread t).poisW c.p (2 * i.toNat) || (c.w.thread t).poisW c.p (2 * i.toNat + 1))
  | .k i => i != 0 && c.w.kpois.getLsbD i.toNat
  | _ => false

/-! ### Guards (R213 to R215) -/

/-- The operand a guard reads. -/
def guardOpd (h : Hdr) : Opd := if h.gf then .k h.gr else .w h.gr

/-- The guard of a thread (R214). -/
def guardHolds (c : Ctx) (h : Hdr) (t : Nat) : Bool :=
  let bit := if h.gf then (c.w.readK h.gr.toNat).getLsbD h.gb.toNat
    else ((c.w.thread t).readW c.p h.gr.toNat).getLsbD h.gb.toNat
  bit != h.ng

/-- The acting threads, ascending: active, guard holds, and under a replay mask in it, which serves no word of a handler (R214, R419). -/
def acting (c : Ctx) (h : Hdr) : List Nat :=
  (maskList c.p.am).filter (fun t => guardHolds c h t && (!c.p.rplOn || c.p.inH || c.p.rpl.getLsbD t))

/-- The guard of a uniform instruction (R215). -/
def uniHolds (c : Ctx) (h : Hdr) : Bool := if h.gf then guardHolds c h 0 else h.isTrue

/-! ### Beginning a word -/

/-- A word goes on, or has already given its next state (a stall or a trap). -/
inductive Go where
  | stop (s : State)
  | go (c : Ctx) (s : State)
  deriving Repr, Inhabited

/-- The next state of a word that may stop early. -/
def Go.run (g : Go) (k : Ctx → State → State) : State :=
  match g with
  | .stop s => s
  | .go c s => k c s

/-- An access of the fragment has ended in a fault that has not returned (R59). -/
def faultOut (s : State) (uid : Nat) : Bool := s.accs.any (fun a => a.uid == uid && (match a.st with | .bad _ _ => true | _ => false))

/-- The switch marker and the precise bit (R225, R419). -/
def markerWaits (s : State) (c : Ctx) (sw : Bool) : Bool :=
  (sw || c.g.precise) && resultsOut s c.p.uid || (c.g.precise && (!settledWg s c.p.uid || faultOut s c.p.uid))

/-- Begins a word that reads the k registers `ks` (R80, R214, R225). -/
def begin (sw : Bool) (ks : List Nat) (s : State) : Go :=
  match ctx? s with
  | none => .stop s
  | some c =>
    if markerWaits s c sw then .stop (hold s c.f .marker)
    else
      match settleK s c ks with
      | none => .stop (hold s c.f .stall)
      | some s =>
        match ctx? s with
        | none => .stop s
        | some c => .go c s

/-- The first poisoned operand that an acting thread reads (R432). -/
def firstPois (c : Ctx) (ts : List Nat) (os : List Opd) : Option Opd := os.find? (fun o => ts.any (fun t => opPois c t o))

/-- Counts a consumed poison of the die (R431). -/
def countCons (s : State) (d : Nat) : State :=
  s.modDie d (fun x => { x with eccCons := if x.eccCons.toNat = 65535 then x.eccCons else x.eccCons + 1 })

/-- The poison-consumed trap of a register operand (R413, R432). -/
def poisTrap (s : State) (f : FragRef) (o : Opd) : State :=
  trapAt (countCons s f.die) f 0x12 (BitVec.ofNat 64 (2 ^ 63 + (opdBits o).toNat))

/-- Checks the guard's poison, which a uniform word reads once and any other for the active threads, and the operands' for the acting ones (R432). -/
def checkPois (c : Ctx) (h : Hdr) (uni : Bool) (ts : List Nat) (os : List Opd) (s : State) : Go :=
  match firstPois c (if uni then [0] else maskList c.p.am) [guardOpd h] with
  | some o => .stop (poisTrap s c.f o)
  | none =>
    match firstPois c ts os with
    | some o => .stop (poisTrap s c.f o)
    | none => .go c s

/-! ### Queues (R90 to R92) -/

/-- Words in the ring of a queue. -/
def QReg.count (q : QReg) : Nat := q.tail - q.head

/-- Queue `i` of a workgroup. -/
def Wg.queue (g : Wg) (i : Nat) : QReg := (g.queues[i]?).getD {}

/-- Changes queue `i`, extending the list of sixteen where it is short. -/
def Wg.modQ (g : Wg) (i : Nat) (f : QReg → QReg) : Wg :=
  let l := g.queues ++ List.replicate (16 - g.queues.length) ({} : QReg)
  { g with queues := listMod l i f }

/-- The bytes of `n` words of a queue's ring from word `at_` (R90). -/
def QReg.range (q : QReg) (at_ n : Nat) : List (Nat × Nat) := (List.range n).map (fun j => (q.ring + 4 * ((at_ + j) % 256), 4))

/-- Pops `n` words of queue `i` (R91). A pop takes the bytes as they stand: poison of the ring passes unseen (log entry 91). -/
def popWords (s : State) (f : FragRef) (i n : Nat) : List W32 × State :=
  match s.wgOf? f with
  | none => ([], s)
  | some g =>
    let q := g.queue i
    let core := s.core f.die f.core
    let ws := (List.range n).map (fun j =>
      BitVec.ofNat 32 (leNat (scrRead core (q.ring + 4 * ((q.head + j) % 256)) 4)))
    (ws, s.modWgOf f (fun g => g.modQ i (fun q => { q with head := q.head + n })))

/-- Pushes words into queue `i` (R91). -/
def pushWords (s : State) (f : FragRef) (i : Nat) (ws : List W32) : State :=
  match s.wgOf? f with
  | none => s
  | some g =>
    let q := g.queue i
    let s := s.modCore f.die f.core (fun c =>
      ws.zipIdx.foldl (fun c p => scrWrite c (q.ring + 4 * ((q.tail + p.2) % 256)) (leBytes 4 p.1.toNat)) c)
    s.modWgOf f (fun g => g.modQ i (fun q => { q with tail := q.tail + ws.length }))

/-- Every other warp of the workgroup has exited: none runs, waits to come back, or has still to start (R92, R195). -/
def loneWarp (g : Wg) (w : Nat) : Bool :=
  g.warps.all (fun e => e.1 == w) && g.outWarps.isEmpty && g.bins.all (fun b => b.recs.isEmpty)

/-- A pulp instruction that the unit has accepted pushes into the queue (R92). -/
def pulpPending (s : State) (f : FragRef) (i : Nat) : Bool :=
  (s.core f.die f.core).pq.any (fun e => e.wg == f.wg && e.outQ == some i && !e.dead)

/-- The queue sources of an instruction with the words each pops for `n` threads. -/
def qNeeds (n : Nat) (srcs : List Src) : List (Nat × Nat) :=
  srcs.filterMap (fun x => match x.o with | .q i => some (i.toNat, if x.w = 64 then 2 * n else n) | _ => none)

/-- Words that the sources pop from queue `i`. -/
def needOf (l : List (Nat × Nat)) (i : Nat) : Nat := sumN ((l.filter (fun x => x.1 == i)).map (·.2))

/-- The queue words that the sources pop. -/
def popRanges (c : Ctx) (n : Nat) (srcs : List Src) : List (Nat × Nat) :=
  (qNeeds n srcs).flatMap (fun x => (c.g.queue x.1).range (c.g.queue x.1).head (needOf (qNeeds n srcs) x.1))

/-- Words that `n` threads push to a destination of a width. -/
def pushCount (n dw : Nat) : Nat := if dw = 64 then 2 * n else n

/-- The queue words that a destination pushes. -/
def pushRange (c : Ctx) (n : Nat) (d : Opd) (dw : Nat) : List (Nat × Nat) :=
  match d with
  | .q i => (c.g.queue i.toNat).range (c.g.queue i.toNat).tail (pushCount n dw)
  | _ => []

/-- The pops and the push of an instruction can be made now; otherwise a stall or a trap (R90 to R92). -/
def checkQueues (c : Ctx) (n : Nat) (srcs : List Src) (d : Opd) (dw : Nat) (s : State) : Go :=
  let needs := qNeeds n srcs
  let bad := needs.any (fun x => (c.g.queue x.1).port == 2) ||
    (match d with | .q i => (c.g.queue i.toNat).port == 3 || (c.g.queue i.toNat).port == 0 | _ => false)
  if bad then .stop (illegal s c.f)
  else
    let short := needs.find? (fun x =>
      (c.g.queue x.1).port == 0 || c.p.wait == .popDead x.1 || (c.g.queue x.1).count < needOf needs x.1)
    match short with
    | some (i, _) =>
      let q := c.g.queue i
      let dead := q.port == 0 || c.p.wait == .popDead i || (q.port == 1 && loneWarp c.g c.f.warp) ||
        (q.port == 3 && q.faulted && !pulpPending s c.f i)
      if n = 0 then .go c s
      else if dead then .stop (trapAt s c.f 0x0B (BitVec.ofNat 64 i))
      else .stop (hold s c.f (.pop i))
    | none =>
      let stops : Option State := match d with
        | .q i =>
          let q := c.g.queue i.toNat
          if c.p.wait == .popDead i.toNat then some (trapAt s c.f 0x0B (BitVec.ofNat 64 i.toNat))
          else if 256 - (q.count - needOf needs i.toNat) < pushCount n dw then some (hold s c.f (.push i.toNat)) else none
        | _ => none
      match stops with
      | some t => .stop t
      | none => if opsHeld s c (popRanges c n srcs) (pushRange c n d dw) then .stop (hold s c.f .stall) else .go c s

/-- The values of one source for the acting threads, in order, popping where it is a queue (R91). -/
def srcVals (s : State) (c : Ctx) (uni : Bool) (ts : List Nat) (x : Src) : List Nat × State :=
  match x.o with
  | .q i =>
    if x.w = 64 then
      let (ws, s) := popWords s c.f i.toNat (2 * ts.length)
      (ts.zipIdx.map (fun p => ((ws[2 * p.2]?).getD 0).toNat + ((ws[2 * p.2 + 1]?).getD 0).toNat * 2 ^ 32), s)
    else
      let (ws, s) := popWords s c.f i.toNat ts.length
      (ws.map (·.toNat), s)
  | _ => (ts.map (fun t => opVal s c uni t x), s)

/-- The values of all sources, one list for each. -/
def allVals (c : Ctx) (uni : Bool) (ts : List Nat) : List Src → State → List (List Nat) × State
  | [], s => ([], s)
  | x :: t, s =>
    let (v, s) := srcVals s c uni ts x
    let (vs, s) := allVals c uni ts t s
    (v :: vs, s)

/-! ### Destinations (R217, R219, R253) -/

/-- Writes results of the acting threads, in order; `dw` is the width. Other threads keep their registers, and a uniform
instruction whose guard fails has no result and writes nothing (R214, R215, R253). -/
def writeDst (s : State) (c : Ctx) (d : Opd) (dw : Nat) (ts : List Nat) (rs : List Nat) : State :=
  match d with
  | .w i =>
    s.modWarp c.f (fun w => (ts.zip rs).foldl (fun w p =>
      w.modThr p.1 (fun x => x.writeW c.p i.toNat (BitVec.ofNat 32 p.2))) w)
  | .wp i =>
    if i = 0 then s
    else
      s.modWarp c.f (fun w => (ts.zip rs).foldl (fun w p =>
        w.modThr p.1 (fun x =>
          (x.writeW c.p (2 * i.toNat) (BitVec.ofNat 32 p.2)).writeW c.p (2 * i.toNat + 1)
            (BitVec.ofNat 32 (p.2 / 2 ^ 32)))) w)
  | .k i =>
    match rs with
    | [] => s
    | v :: _ => s.modWarp c.f (fun w => w.writeK i.toNat (BitVec.ofNat 64 (v % 2 ^ dw)))
  | .q i =>
    pushWords s c.f i.toNat (rs.flatMap (fun v =>
      if dw = 64 then [BitVec.ofNat 32 v, BitVec.ofNat 32 (v / 2 ^ 32)] else [BitVec.ofNat 32 v]))
  | _ => s

/-- The result of one thread: a value and the flags it raises (R179). -/
structure Res where
  v : Nat
  fl : BitVec 5 := 0
  deriving DecidableEq, Repr, Inhabited

/-- Sets flags of `fpstat` (R179). -/
def setFlags (s : State) (f : FragRef) (fl : BitVec 5) : State := s.modWarp f (fun w => { w with fpstat := w.fpstat ||| fl })

/-- The flags of R179 as bits. -/
def flagBits (t3 nanl ovf inv sclnan : Bool) : BitVec 5 :=
  let b (x : Bool) (i : Nat) : BitVec 5 := if x then 1 <<< i else 0
  b t3 4 ||| b nanl 3 ||| b ovf 2 ||| b inv 1 ||| b sclnan 0

/-- The stochastic value of draw `n` of the warp (R172). -/
def drawVal (w : Warp) (c : BitVec 4) (n : Nat) : Nat := genVal c.toNat (w.srix.toNat + n)

/-- The stochastic value of draw `n` under a generator class; no class draws nothing. -/
def drawIf (w : Warp) : Option (BitVec 4) → Nat → Nat
  | some k, n => drawVal w k n
  | none, _ => 0

/-- A register instruction with sources `srcs`: `op` gives each acting thread's result from its draw function (element to
stochastic value) and its source values; `els` is the number of elements drawn for a thread under class `cls`; `cyc` its
cycles for `n` threads, at least one (R172, R188, R218, R219, R253, R254). -/
def alu (h : Hdr) (d : Opd) (dw : Nat) (srcs : List Src) (cyc : Nat → Nat) (cls : Option (BitVec 4)) (els : Nat)
    (op : Ctx → (Nat → Nat) → List Nat → Res) (s : State) : State :=
  (begin h.sw (kRegs (guardOpd h :: srcs.map (·.o))) s).run (fun c s =>
    let uni := d.isK
    let ts := if uni then (if uniHolds c h then [0] else []) else acting c h
    (checkPois c h uni ts (srcs.map (·.o)) s).run (fun c s =>
      (checkQueues c ts.length srcs d dw s).run (fun c s =>
        let (vals, s) := allVals c uni ts srcs s
        let n := ts.length
        let g (j e : Nat) : Nat := drawIf c.w cls (e * n + j)
        let rs := (List.range n).map (fun j => op c (g j) (vals.map (fun l => (l[j]?).getD 0)))
        let s := writeDst s c d dw ts (rs.map (·.v))
        let s := setFlags s c.f (rs.foldl (fun a r => a ||| r.fl) 0)
        let s := match cls with
          | some _ => s.modWarp c.f (fun w => { w with srix := w.srix + BitVec.ofNat 32 (els * n) })
          | none => s
        finish s c.f (if uni then 1 else max 1 (cyc n)))))

/-- A uniform word that has begun tests its guard and its poison, and acts once where the guard holds (R215, R218, R432). -/
def uniBody (h : Hdr) (os : List Opd) (body : Ctx → State → State) (c : Ctx) (s : State) : State :=
  (checkPois c h true (if uniHolds c h then [0] else []) os s).run (fun c s => if uniHolds c h then body c s else finish s c.f 1)

/-- A uniform instruction that reads the k registers of `os` (R80, R215, R218). -/
def uniOp (h : Hdr) (os : List Opd) (body : Ctx → State → State) (s : State) : State :=
  (begin h.sw (kRegs (guardOpd h :: os)) s).run (uniBody h os body)

/-- A word that is a switch marker whatever its `sw` bit, where its guard holds: it waits for the fragment's results (R225, R368; log entry 102). -/
def markOp (h : Hdr) (os : List Opd) (body : Ctx → State → State) (s : State) : State :=
  uniOp h os (fun c s => if resultsOut s c.p.uid then hold s c.f .marker else body c s) s

end Sys2Proof.Machine
end

