-- ==== Sys2Proof/Machine/Flags.lean ====
section
/-! DEFINITION. Flag computations: integer saturation (06 R184, 10 R257), and the flags of rounded results (06 R174, R175,
R179, 10 R263). -/

namespace Sys2Proof.Machine

/-- The value of an operand of width `w`: signed, or natural when `nat` holds (R256). -/
def ival (w : Nat) (nat : Bool) (x : Nat) : Int := if nat then (x % 2 ^ w : Nat) else sgn w x

/-- The range of a type (R168). -/
def imin (w : Nat) (nat : Bool) : Int := if nat then 0 else -(2 ^ (w - 1) : Nat)

/-- The range of a type (R168). -/
def imax (w : Nat) (nat : Bool) : Int := if nat then (2 ^ w : Nat) - 1 else (2 ^ (w - 1) : Nat) - 1

/-- `fin` (R257): wraps, or clamps and sets `ovf`. -/
def fin (w : Nat) (sat nat : Bool) (v : Int) : Res :=
  if sat then
    let r := max (imin w nat) (min (imax w nat) v)
    { v := wrapN w r, fl := if r = v then 0 else flagBits false false true false false }
  else { v := wrapN w v }

/-- A rounded result with its flags (R174, R175, R179). -/
def ofRound (r : FRes) (inv : Bool := false) : Res :=
  { v := r.bits, fl := flagBits false r.nanl r.ovf (inv || r.inv) false }

end Sys2Proof.Machine
end

