-- ==== Sys2Proof/Machine/Int.lean ====
section
/-! DEFINITION. The integer and bit instructions, opcodes 0x00 to 0x1B (10 R255 to R260), and the all-zero word (08 R228). -/

namespace Sys2Proof.Machine

/-- The width that `wd` selects (R255). -/
def wdth (w64 : Bool) : Nat := if w64 then 64 else 32

/-- Lane cycles of a form whose 64-bit variant takes `k` passes (R254). -/
def intCyc (w64 : Bool) (k : Nat) (n : Nat) : Nat := (if w64 then k else 1) * ceilDiv n 4

/-- Lane cycles of a division (R254). -/
def divCyc (w64 : Bool) (n : Nat) : Nat := (if w64 then 32 else 8) * ceilDiv n 4

/-- An integer source of the instruction's width. -/
def isrc (m : IntMod) (o : Opd) : Src := ⟨o, wdth m.wd, .int⟩

/-- The register instruction of the integer group: sources of its width, results of its width. -/
def intOp (h : Hdr) (m : IntMod) (d : Opd) (srcs : List Opd) (cyc : Nat → Nat) (op : List Nat → Res) (s : State) : State :=
  alu h d (wdth m.wd) (srcs.map (isrc m)) cyc none 0 (fun _ _ v => op v) s

/-- Operand `i` of the values. -/
def arg (v : List Nat) (i : Nat) : Nat := (v[i]?).getD 0

/-- A two-source operation on values of width `w` (R256). -/
def bin (op : Nat → Nat → Res) : List Nat → Res := fun v => op (arg v 0) (arg v 1)

/-- A result without flags. -/
def plain (v : Nat) : Res := { v := v }

/-- The quotient of R257, before fin. -/
def quot (w : Nat) (nat : Bool) (x y : Nat) : Int :=
  let a := ival w nat x
  let b := ival w nat y
  if b = 0 then (if nat then (2 ^ w : Nat) - 1 else -1) else a.tdiv b

/-- The remainder of R257. -/
def remI (w : Nat) (nat : Bool) (x y : Nat) : Int :=
  let a := ival w nat x
  let b := ival w nat y
  if b = 0 then a else a - a.tdiv b * b

/-- Rotation left by `k` (R256). -/
def rotl (w x k : Nat) : Nat :=
  let y := x % 2 ^ w
  (y * 2 ^ k + y / 2 ^ (w - k)) % 2 ^ w

/-- `bfx` (R258). -/
def bfxVal (w : Nat) (sg : Bool) (a b : Nat) : Nat :=
  let l := min (bitsOf b 8 7) w
  let p := bitsOf b 0 6
  if l = 0 || p ≥ w then 0
  else
    let n := min l (w - p)
    let f := bitsOf a p n
    if sg then f else wrapN w (sgn n f)

/-- `bfi` (R258). -/
def bfiVal (w a b c : Nat) : Nat :=
  let l := min (bitsOf b 8 7) w
  let p := bitsOf b 0 6
  let c := c % 2 ^ w
  if l = 0 || p ≥ w then c
  else
    let n := min l (w - p)
    c - bitsOf c p n * 2 ^ p + bitsOf a 0 n * 2 ^ p

/-- Trailing zero bits of `x` among `n` bits (R256). -/
def ctzN : Nat → Nat → Nat
  | 0, _ => 0
  | n + 1, x => if x % 2 = 1 then 0 else 1 + ctzN n (x / 2)

/-- Leading zero bits of `x` in width `w` (R256). -/
def clzN (w x : Nat) : Nat := w - bitLen (x % 2 ^ w)

/-- Bit reversal in width `w` (R256). -/
def brevN : Nat → Nat → Nat
  | 0, _ => 0
  | n + 1, x => (x % 2) * 2 ^ n + brevN n (x / 2)

/-- Byte `i` of the eight bytes of `bperm` (R260). -/
def permByte (a c e : Nat) : Nat := if bitAt e 3 then 0 else if bitsOf e 0 3 < 4 then bitsOf a (8 * bitsOf e 0 3) 8 else bitsOf c (8 * (bitsOf e 0 3 - 4)) 8

/-- `bperm` (R260). -/
def bpermVal (a b c : Nat) : Nat :=
  sumN ((List.range 4).map (fun i => permByte a c (bitsOf b (4 * i) 4) * 2 ^ (8 * i)))

/-- The dot product of `idot4` before fin (R260). -/
def dot4 (nat : Bool) (a b c : Nat) : Int :=
  (List.range 4).foldl (fun acc i => acc + ival 8 nat (bitsOf a (8 * i) 8) * ival 8 nat (bitsOf b (8 * i) 8))
    (ival 32 nat c)

/-- `movi` on the old value of d (R259). -/
def moviVal (m : IntMod) (v : BitVec 19) (old : Nat) : Nat :=
  let w := wdth m.wd
  let f := m.f.toNat
  if f = 0 then (v.signExtend 64).toNat % 2 ^ w
  else
    let x := old % 2 ^ w
    x - bitsOf x (16 * f) 16 * 2 ^ (16 * f) + bitsOf v.toNat 0 16 * 2 ^ (16 * f)

/-- `iadd`: fin(a + b) (R256). -/
def execIadd (h : Hdr) (m : IntMod) (d a b : Opd) (s : State) : Host.Outcome State Fault Refusal :=
  .next (intOp h m d [a, b] (intCyc m.wd 2) (bin (fun x y => fin (wdth m.wd) m.sat m.sg (ival (wdth m.wd) m.sg x + ival (wdth m.wd) m.sg y))) s)

/-- `isub`: fin(a − b) (R256). -/
def execIsub (h : Hdr) (m : IntMod) (d a b : Opd) (s : State) : Host.Outcome State Fault Refusal :=
  .next (intOp h m d [a, b] (intCyc m.wd 2) (bin (fun x y => fin (wdth m.wd) m.sat m.sg (ival (wdth m.wd) m.sg x - ival (wdth m.wd) m.sg y))) s)

/-- `imul`: fin(a × b) (R256). -/
def execImul (h : Hdr) (m : IntMod) (d a b : Opd) (s : State) : Host.Outcome State Fault Refusal :=
  .next (intOp h m d [a, b] (intCyc m.wd 4) (bin (fun x y => fin (wdth m.wd) m.sat m.sg (ival (wdth m.wd) m.sg x * ival (wdth m.wd) m.sg y))) s)

/-- `imulh`: the high half of a × b (R256). -/
def execImulh (h : Hdr) (m : IntMod) (d a b : Opd) (s : State) : Host.Outcome State Fault Refusal :=
  .next (intOp h m d [a, b] (intCyc m.wd 4) (bin (fun x y => plain (wrapN (wdth m.wd) ((ival (wdth m.wd) m.sg x * ival (wdth m.wd) m.sg y) / (2 ^ (wdth m.wd) : Nat))))) s)

/-- `imad`: fin(a × b + c), with one fin on the exact value (R256). -/
def execImad (h : Hdr) (m : IntMod) (d a b c : Opd) (s : State) : Host.Outcome State Fault Refusal :=
  .next (intOp h m d [a, b, c] (intCyc m.wd 4)
    (fun v => fin (wdth m.wd) m.sat m.sg (ival (wdth m.wd) m.sg (arg v 0) * ival (wdth m.wd) m.sg (arg v 1) + ival (wdth m.wd) m.sg (arg v 2))) s)

/-- `idiv`: the quotient truncated towards zero; all ones by zero (R257). -/
def execIdiv (h : Hdr) (m : IntMod) (d a b : Opd) (s : State) : Host.Outcome State Fault Refusal :=
  .next (intOp h m d [a, b] (divCyc m.wd) (bin (fun x y => fin (wdth m.wd) m.sat m.sg (quot (wdth m.wd) m.sg x y))) s)

/-- `irem`: the remainder, with the sign of the dividend (R257). -/
def execIrem (h : Hdr) (m : IntMod) (d a b : Opd) (s : State) : Host.Outcome State Fault Refusal :=
  .next (intOp h m d [a, b] (divCyc m.wd) (bin (fun x y => plain (wrapN (wdth m.wd) (remI (wdth m.wd) m.sg x y)))) s)

/-- `imin`: the smaller (R256). -/
def execImin (h : Hdr) (m : IntMod) (d a b : Opd) (s : State) : Host.Outcome State Fault Refusal :=
  .next (intOp h m d [a, b] (intCyc m.wd 2) (bin (fun x y => plain (if ival (wdth m.wd) m.sg x ≤ ival (wdth m.wd) m.sg y then x % 2 ^ (wdth m.wd) else y % 2 ^ (wdth m.wd)))) s)

/-- `imax`: the larger (R256). -/
def execImax (h : Hdr) (m : IntMod) (d a b : Opd) (s : State) : Host.Outcome State Fault Refusal :=
  .next (intOp h m d [a, b] (intCyc m.wd 2) (bin (fun x y => plain (if ival (wdth m.wd) m.sg x ≤ ival (wdth m.wd) m.sg y then y % 2 ^ (wdth m.wd) else x % 2 ^ (wdth m.wd)))) s)

/-- `iabs`: fin(abs(a)), a signed (R256). -/
def execIabs (h : Hdr) (m : IntMod) (d a : Opd) (s : State) : Host.Outcome State Fault Refusal :=
  .next (intOp h m d [a] (intCyc m.wd 2) (fun v => fin (wdth m.wd) m.sat false (Int.natAbs (ival (wdth m.wd) false (arg v 0)))) s)

/-- `and`: bitwise AND (R256). -/
def execAnd (h : Hdr) (m : IntMod) (d a b : Opd) (s : State) : Host.Outcome State Fault Refusal :=
  .next (intOp h m d [a, b] (intCyc m.wd 2) (bin (fun x y => plain (x &&& y))) s)

/-- `or`: bitwise OR (R256). -/
def execOr (h : Hdr) (m : IntMod) (d a b : Opd) (s : State) : Host.Outcome State Fault Refusal :=
  .next (intOp h m d [a, b] (intCyc m.wd 2) (bin (fun x y => plain (x ||| y))) s)

/-- `xor`: bitwise exclusive OR (R256). -/
def execXor (h : Hdr) (m : IntMod) (d a b : Opd) (s : State) : Host.Outcome State Fault Refusal :=
  .next (intOp h m d [a, b] (intCyc m.wd 2) (bin (fun x y => plain (x ^^^ y))) s)

/-- `andn`: a AND NOT b (R256). -/
def execAndn (h : Hdr) (m : IntMod) (d a b : Opd) (s : State) : Host.Outcome State Fault Refusal :=
  .next (intOp h m d [a, b] (intCyc m.wd 2) (bin (fun x y => plain (x &&& (2 ^ (wdth m.wd) - 1 - y % 2 ^ (wdth m.wd))))) s)

/-- `shl`: a shifted left (R256). -/
def execShl (h : Hdr) (m : IntMod) (d a b : Opd) (s : State) : Host.Outcome State Fault Refusal :=
  .next (intOp h m d [a, b] (intCyc m.wd 2) (bin (fun x y => plain (x * 2 ^ (y % (wdth m.wd)) % 2 ^ (wdth m.wd)))) s)

/-- `shr`: a shifted right, zeros enter (R256). -/
def execShr (h : Hdr) (m : IntMod) (d a b : Opd) (s : State) : Host.Outcome State Fault Refusal :=
  .next (intOp h m d [a, b] (intCyc m.wd 2) (bin (fun x y => plain (x / 2 ^ (y % (wdth m.wd))))) s)

/-- `sar`: a shifted right, copies of the sign enter (R256). -/
def execSar (h : Hdr) (m : IntMod) (d a b : Opd) (s : State) : Host.Outcome State Fault Refusal :=
  .next (intOp h m d [a, b] (intCyc m.wd 2) (bin (fun x y => plain (wrapN (wdth m.wd) (sgn (wdth m.wd) x / (2 ^ (y % (wdth m.wd)) : Nat))))) s)

/-- `rot`: a rotated left, or right when f is 1 (R256). -/
def execRot (h : Hdr) (m : IntMod) (d a b : Opd) (s : State) : Host.Outcome State Fault Refusal :=
  .next (intOp h m d [a, b] (intCyc m.wd 2) (bin (fun x y => plain (rotl (wdth m.wd) x (if m.f = 1 then ((wdth m.wd) - y % (wdth m.wd)) % (wdth m.wd) else y % (wdth m.wd))))) s)

/-- `bfx`: field extract (R258). -/
def execBfx (h : Hdr) (m : IntMod) (d a b : Opd) (s : State) : Host.Outcome State Fault Refusal :=
  .next (intOp h m d [a, b] (intCyc m.wd 2) (bin (fun x y => plain (bfxVal (wdth m.wd) m.sg x y))) s)

/-- `bfi`: field insert (R258). -/
def execBfi (h : Hdr) (m : IntMod) (d a b c : Opd) (s : State) : Host.Outcome State Fault Refusal :=
  .next (intOp h m d [a, b, c] (intCyc m.wd 2) (fun v => plain (bfiVal (wdth m.wd) (arg v 0) (arg v 1) (arg v 2))) s)

/-- `popc`: number of set bits (R256). -/
def execPopc (h : Hdr) (m : IntMod) (d a : Opd) (s : State) : Host.Outcome State Fault Refusal :=
  .next (intOp h m d [a] (intCyc m.wd 2) (fun v => plain (popN (wdth m.wd) (arg v 0))) s)

/-- `clz`: leading zero bits (R256). -/
def execClz (h : Hdr) (m : IntMod) (d a : Opd) (s : State) : Host.Outcome State Fault Refusal :=
  .next (intOp h m d [a] (intCyc m.wd 2) (fun v => plain (clzN (wdth m.wd) (arg v 0))) s)

/-- `ctz`: trailing zero bits (R256). -/
def execCtz (h : Hdr) (m : IntMod) (d a : Opd) (s : State) : Host.Outcome State Fault Refusal :=
  .next (intOp h m d [a] (intCyc m.wd 2) (fun v => plain (ctzN (wdth m.wd) (arg v 0))) s)

/-- `brev`: bit reversal (R256). -/
def execBrev (h : Hdr) (m : IntMod) (d a : Opd) (s : State) : Host.Outcome State Fault Refusal :=
  .next (intOp h m d [a] (intCyc m.wd 2) (fun v => plain (brevN (wdth m.wd) (arg v 0))) s)

/-- A 64-bit uniform move from a pending k register copies the handle value with its mark (R80; log entry 12). -/
def moveHandle (h : Hdr) (m : IntMod) (d a : Opd) (s : State) : Option State :=
  match ctx? s, d, a with
  | some c, .k i, .k j =>
    if m.wd && c.w.kpend.getLsbD j.toNat && j != 0 then
      some ((begin h.sw (kRegs [guardOpd h]) s).run (uniBody h [a] (fun c s =>
        let v := c.w.readK j.toNat
        let pend := c.w.kpend.getLsbD j.toNat
        let s := s.modWarp c.f (fun w => let w := w.writeK i.toNat v; if pend then w.markK i.toNat else w)
        finish s c.f 1)))
    else none
  | _, _, _ => none

/-- `mov`: a (R256); a handle moves with its mark (R80). -/
def execMov (h : Hdr) (m : IntMod) (d a : Opd) (s : State) : Host.Outcome State Fault Refusal :=
  .next (match moveHandle h m d a s with
    | some s => s
    | none => intOp h m d [a] (intCyc m.wd 2) (fun v => plain (arg v 0)) s)

/-- `movi`: an immediate, or 16 bits of d (R259). -/
def execMovi (h : Hdr) (m : IntMod) (d : Opd) (v : BitVec 19) (s : State) : Host.Outcome State Fault Refusal :=
  .next (intOp h m d (if m.f = 0 then [] else [d]) (intCyc m.wd 2) (fun o => plain (moviVal m v (arg o 0))) s)

/-- `bperm`: byte permute (R260). -/
def execBperm (h : Hdr) (m : IntMod) (d a b c : Opd) (s : State) : Host.Outcome State Fault Refusal :=
  .next (intOp h m d [a, b, c] (intCyc m.wd 2) (fun v => plain (bpermVal (arg v 0) (arg v 1) (arg v 2))) s)

/-- `idot4`: four-way dot product of bytes added to c (R260). -/
def execIdot4 (h : Hdr) (m : IntMod) (d a b c : Opd) (s : State) : Host.Outcome State Fault Refusal :=
  .next (intOp h m d [a, b, c] (intCyc m.wd 2) (fun v => fin 32 m.sat m.sg (dot4 m.sg (arg v 0) (arg v 1) (arg v 2))) s)

/-- The all-zero word: a guard that never holds, one cycle, nothing else (R228). -/
def execGuardFalseNop (s : State) : Host.Outcome State Fault Refusal :=
  .next ((begin false [] s).run (fun c s => finish s c.f 1))

end Sys2Proof.Machine
end

