-- ==== Sys2Proof/Machine/Real.lean ====
section
/-! DEFINITION. The function instructions' exact values (10 R262, R263): square roots and reciprocals exactly, the
transcendental functions by interval arithmetic in fixed point, as a truncated magnitude with a sticky. Where an interval
does not decide the truncation the result is a free value (log entry 10). -/

namespace Sys2Proof.Machine

/-- floor(π · 2^460). -/
def piFix : Nat := 0x3243f6a8885a308d313198a2e03707344a4093822299f31d0082efa98ec4e6c89452821e638d01377be5466cf34e90c6cc0ac29b7c97c50dd3f8

/-- An interval of nonnegative fixed-point numbers. -/
structure Ivl where
  lo : Nat
  hi : Nat
  deriving DecidableEq, Repr, Inhabited

/-- Product of intervals with `p` fraction bits. -/
def Ivl.mul (p : Nat) (a b : Ivl) : Ivl := ⟨a.lo * b.lo / 2 ^ p, a.hi * b.hi / 2 ^ p + 1⟩

/-- Quotient of an interval by a number. -/
def Ivl.divN (a : Ivl) (n : Nat) : Ivl := ⟨a.lo / n, a.hi / n + 1⟩

/-- The common truncation of an interval with `p` fraction bits, dropping 100 of them; `op` and `x` name the function and
operand of the free value that stands in where the ends differ. -/
def ofIvl (p op x : Nat) (neg : Bool) (a : Ivl) : FV :=
  if a.lo / 2 ^ 100 = a.hi / 2 ^ 100 then .fin neg (a.lo / 2 ^ 100) (100 - (p : Int)) true
  else .fin neg (Config.freeReal op x).1 (100 - (p : Int)) true

/-- Terms of an alternating series in x², from a term and an index: partial sums of the even and odd terms. -/
def altTerms (p : Nat) (x2 : Ivl) : Nat → Nat → Bool → Ivl → Ivl × Ivl → Ivl × Ivl
  | 0, _, _, _, acc => acc
  | n + 1, k, plus, t, (a, b) =>
    let t' := (Ivl.mul p t x2).divN ((k + 1) * (k + 2))
    let acc := if plus then (⟨a.lo + t.lo, a.hi + t.hi⟩, b) else (a, ⟨b.lo + t.lo, b.hi + t.hi⟩)
    altTerms p x2 n (k + 2) (!plus) t' acc

/-- The fixed-point precision of sines and cosines. -/
def trigP : Nat := 448

/-- π · t for t = num / 2^den, with `trigP` fraction bits. -/
def piTimes (num den : Nat) : Ivl :=
  ⟨piFix * num * 2 ^ trigP / 2 ^ (460 + den), (piFix + 1) * num * 2 ^ trigP / 2 ^ (460 + den) + 1⟩

/-- The sine series of x in (0, π/4]. -/
def sinSer (x : Ivl) : Ivl :=
  let (a, b) := altTerms trigP (Ivl.mul trigP x x) 60 1 true x (⟨0, 0⟩, ⟨0, 0⟩)
  ⟨a.lo - b.hi - 1, a.hi - b.lo + 1⟩

/-- The cosine series of x in (0, π/4]. -/
def cosSer (x : Ivl) : Ivl :=
  let (a, b) := altTerms trigP (Ivl.mul trigP x x) 60 0 true ⟨2 ^ trigP, 2 ^ trigP⟩ (⟨0, 0⟩, ⟨0, 0⟩)
  ⟨a.lo - b.hi - 1, a.hi - b.lo + 1⟩

/-- sin(π t) for t = num / 2^den in (0, 1/2). -/
def sinHalf (num den : Nat) : Ivl :=
  if 4 * num ≤ 2 ^ den then sinSer (piTimes num den)
  else cosSer (piTimes (2 ^ den - 2 * num) (den + 1))

/-- sin(π r) for r = num / 2^den in [0, 2), with the sign `s` of the operand (R263). -/
def sinPi (x : Nat) (s : Bool) (num den : Nat) : FV :=
  let h := 2 ^ den
  if num = 0 || num = h then .zero s
  else if 2 * num = h then .fin s 1 0 false
  else if 2 * num = 3 * h then .fin (!s) 1 0 false
  else
    let neg := s != decide (num > h)
    let t := if num > h then num - h else num
    ofIvl trigP 1 x neg (sinHalf (if 2 * t > h then h - t else t) den)

/-- |v| mod 2 as a numerator over 2^den, for v = m · 2^e. -/
def mod2 (m : Nat) (e : Int) : Nat × Nat :=
  if 0 ≤ e then (m * 2 ^ e.toNat % 2, 0)
  else let d := (-e).toNat; (m % 2 ^ (d + 1), d)

/-- fsin (R262, R263). -/
def fSin (x : Nat) : FV → FV
  | .fin s m e _ => if m = 0 then .zero s else let (n, d) := mod2 m e; sinPi x s n d
  | _ => .nan

/-- fcos: cos(π a) = sin(π (a + 1/2)); a zero is +0 (R262, R263). -/
def fCos (x : Nat) : FV → FV
  | .fin _ m e _ =>
    let (n, d) := mod2 m e
    let num := (2 * n + 2 ^ d) % 2 ^ (d + 2)
    match sinPi x false num (d + 1) with
    | .fin _ 0 _ false => .zero false
    | v => v
  | _ => .nan

/-- The factors 2^(2^-i) for i = 1, 2, … by repeated square roots, `p` fraction bits, error below one unit. -/
def roots2 (p : Nat) : Nat → Ivl → List Ivl
  | 0, _ => []
  | n + 1, c =>
    let r : Ivl := ⟨FV.isqrt (c.lo * 2 ^ p), FV.isqrt (c.hi * 2 ^ p) + 1⟩
    r :: roots2 p n r

/-- The precision of exponentials. -/
def expP : Nat := 400

/-- 2^f for f = num / 2^den in (0, 1). -/
def exp2Frac (num den : Nat) : Ivl :=
  (roots2 expP den ⟨2 * 2 ^ expP, 2 * 2 ^ expP⟩).zipIdx.foldl
    (fun acc r => if bitAt num (den - 1 - r.2) then Ivl.mul expP acc r.1 else acc) ⟨2 ^ expP, 2 ^ expP⟩

/-- fexp2 (R262, R263). -/
def fExp2 (x : Nat) : FV → FV
  | .nan => .nan
  | .inf n => if n then .zero false else .inf false
  | .fin s m e _ =>
    if m = 0 then .fin false 1 0 false
    else if e + bitLen m > 12 then (if s then .fin false 0 (-3000) true else .fin false 1 3000 false)
    else
      let d := (-e).toNat
      let a : Int := if 0 ≤ e then ((m * 2 ^ e.toNat : Nat) : Int) else (m : Int)
      let a := if s then -a else a
      let n := a / (2 ^ d : Nat)
      let f := (a % (2 ^ d : Nat)).toNat
      if f = 0 then .fin false 1 n false
      else (ofIvl expP 2 x false (exp2Frac f d)).scale n

/-- Fraction bits of log2 of x in (1, 2) by repeated squaring; `none` where the interval does not decide a bit. -/
def log2Bits (p : Nat) : Nat → Ivl → Nat → Option Nat
  | 0, _, acc => some acc
  | n + 1, x, acc =>
    let y := Ivl.mul p x x
    if y.lo ≥ 2 * 2 ^ p then log2Bits p n ⟨y.lo / 2, y.hi / 2 + 1⟩ (2 * acc + 1)
    else if y.hi < 2 * 2 ^ p then log2Bits p n y (2 * acc)
    else none

/-- flog2 (R262, R263). -/
def fLog2 (x : Nat) : FV → FV
  | .nan => .nan
  | .inf n => if n then .nan else .inf false
  | .fin s m e _ =>
    if m = 0 then .inf true
    else if s then .nan
    else
      let b := bitLen m
      let i : Int := e + b - 1
      if m = 2 ^ (b - 1) then .ofInt i
      else
        let p := 460
        let v := m * 2 ^ (p - (b - 1))
        match log2Bits p 160 ⟨v, v⟩ 0 with
        | some f =>
          let t : Int := i * (2 ^ 160 : Nat) + f
          if 0 ≤ t then .fin false t.toNat (-160) true else .fin true ((-t).toNat - 1) (-160) true
        | none => .fin false (Config.freeReal 3 x).1 (-160) true

/-- The precision of the hyperbolic tangent. -/
def tanhP : Nat := 512

/-- Terms of e^w − 1 from a term and an index. -/
def expTerms (w : Ivl) : Nat → Nat → Ivl → Ivl → Ivl
  | 0, _, _, acc => ⟨acc.lo, acc.hi + 1⟩
  | n + 1, k, t, acc =>
    expTerms w n (k + 1) ((Ivl.mul tanhP t w).divN (k + 1)) ⟨acc.lo + t.lo, acc.hi + t.hi⟩

/-- E ↦ E (E + 2): from e^w − 1 to e^(2w) − 1, ten times. -/
def dbl : Nat → Ivl → Ivl
  | 0, a => a
  | n + 1, a => dbl n (Ivl.mul tanhP a ⟨a.lo + 2 * 2 ^ tanhP, a.hi + 2 * 2 ^ tanhP⟩)

/-- ftanh (R262, R263). -/
def fTanh (x : Nat) : FV → FV
  | .nan => .nan
  | .inf n => .fin n 1 0 false
  | .fin s m e _ =>
    if m = 0 then .zero s
    else if e + bitLen m > 7 then .fin s (2 ^ 300 - 1) (-300) true
    else
      let sh : Int := e + 1 - 10 + tanhP
      let w : Ivl := if 0 ≤ sh then ⟨m * 2 ^ sh.toNat, m * 2 ^ sh.toNat⟩
        else ⟨m / 2 ^ (-sh).toNat, m / 2 ^ (-sh).toNat + 1⟩
      let a := dbl 10 (expTerms w 70 1 w ⟨0, 0⟩)
      let q (v : Nat) : Nat := v * 2 ^ tanhP / (v + 2 * 2 ^ tanhP)
      ofIvl tanhP 4 x s ⟨q a.lo, q a.hi + 1⟩

/-- frcp (R262, R263). -/
def fRcp (a : FV) : FV := FV.div (.ofInt 1) a

/-- frsq: 1 / sqrt a, truncated with a sticky (R262, R263). -/
def fRsq : FV → FV
  | .nan => .nan
  | .inf n => if n then .nan else .zero false
  | .fin s m e _ =>
    if m = 0 then .inf s
    else if s then .nan
    else
      let m' := if e % 2 = 0 then m else 2 * m
      let e' : Int := if e % 2 = 0 then e else e - 1
      let k := bitLen m' + 120
      let r := FV.isqrt (2 ^ (2 * k) / m')
      .fin false r (-(e' / 2) - k) (r * r * m' != 2 ^ (2 * k))

end Sys2Proof.Machine
end

