-- ==== Sys2Proof/Machine/Fp.lean ====
section
/-! DEFINITION. The scalar and packed floating-point instructions, opcodes 0x20 to 0x37 (10 R261 to R266; 06 R171 to R178,
R183). -/

namespace Sys2Proof.Machine

/-- The operand width of a type (R252). -/
def ftyW : FTy → Nat
  | .f64 => 64
  | _ => 32

/-- A floating-point source. -/
def fsrc (ty : FTy) (o : Opd) : Src := ⟨o, ftyW ty, .flt (ftyFmt ty)⟩

/-- The generator class that a rounding code draws from (R172). -/
def rndClass : Rnd → Option (BitVec 4)
  | .sr c => some c
  | _ => none

/-- A subnormal read or written as a zero of its sign under the flush bit (R178). -/
def flushBits (f : FFmt) (x : Nat) : Nat := if bitsOf x f.mb f.eb = 0 then bitsOf x (f.eb + f.mb) 1 * 2 ^ (f.eb + f.mb) else x

/-- The flush bit applies to the type (R178, R265). -/
def flushes (c : Ctx) (ty : FTy) : Bool := c.g.ftz && ty == .f32

/-- An operand's exact value, flushed where the bit applies. -/
def fread (fl : Bool) (f : FFmt) (x : Nat) : FV := fdecode f (if fl then flushBits f x else x)

/-- One floating-point result (R263): a NaN operand gives the canonical NaN; an invalid case the canonical NaN and
`inv`; everything else one rounding of the exact value `v`. -/
def fresult (f : FFmt) (md : RMode) (sat fl : Bool) (ops : List FV) (v : FV) : Res :=
  if ops.any (·.isNan) then { v := f.nan }
  else if v.isNan then { v := f.nan, fl := flagBits false false false true false }
  else
    let r := ofRound (roundTo f md sat v)
    if fl then { r with v := flushBits f r.v } else r

/-- Lane cycles of a form: 4 times in f64 (R254). -/
def fpCyc (ty : FTy) (n : Nat) : Nat := (if ty == .f64 then 4 else 1) * ceilDiv n 4

/-- Lane cycles of a division or function: 4 times, 16 times in f64 (R254). -/
def fnCyc (ty : FTy) (n : Nat) : Nat := (if ty == .f64 then 16 else 4) * ceilDiv n 4

/-- A scalar floating-point result: one rounding of the exact value `op` of the operands (R263). -/
def fpRes (fl : Bool) (m : FpMod) (op : List FV → FV) (g : Nat → Nat) (v : List Nat) : Res :=
  let xs := v.map (fread fl (ftyFmt m.ty))
  fresult (ftyFmt m.ty) ⟨m.rm, g 0⟩ m.sat fl xs (op xs)

/-- A scalar floating-point instruction with the exact value `op` of its operands (R263). -/
def fpOp (h : Hdr) (m : FpMod) (d : Opd) (srcs : List Opd) (cyc : Nat → Nat) (op : List FV → FV) (s : State) : State :=
  alu h d (ftyW m.ty) (srcs.map (fsrc m.ty)) cyc (rndClass m.rm) 1 (fun c g v => fpRes (flushes c m.ty) m op g v) s

/-- Operand `i` of the exact values. -/
def farg (v : List FV) (i : Nat) : FV := (v[i]?).getD .nan

/-- The result of a function of one operand, which also sees the operand's value as a number for the free value of log
entry 10. -/
def fnRes (fl : Bool) (m : FpMod) (op : Nat → FV → FV) (g : Nat → Nat) (x : Nat) : Res :=
  let y := fread fl (ftyFmt m.ty) x
  fresult (ftyFmt m.ty) ⟨m.rm, g 0⟩ m.sat fl [y] (op x y)

/-- A function of one operand (R263). -/
def fnOp (h : Hdr) (m : FpMod) (d a : Opd) (op : Nat → FV → FV) (s : State) : State :=
  alu h d (ftyW m.ty) [fsrc m.ty a] (fnCyc m.ty) (rndClass m.rm) 1 (fun c g v => fnRes (flushes c m.ty) m op g (arg v 0)) s

/-- The order of `fmin` and `fmax`: by value, −0 below +0 (R264). -/
def fless (a b : FV) : Bool :=
  let c := FV.cmp a b
  c < 0 || (c == 0 && a.neg? && !b.neg?)

/-- `fmin` or `fmax` of two encodings (R264). -/
def minmax (f : FFmt) (fl mx : Bool) (x y : Nat) : Nat :=
  let x := (if fl then flushBits f x else x) % 2 ^ f.width
  let y := (if fl then flushBits f y else y) % 2 ^ f.width
  let a := fdecode f x
  let b := fdecode f y
  if a.isNan then (if b.isNan then f.nan else y)
  else if b.isNan then x
  else if mx then (if fless a b then y else x) else (if fless b a then y else x)

/-- `fmin` and `fmax` (R264, R265). -/
def fpMinMax (h : Hdr) (m : FpMod) (d a b : Opd) (mx : Bool) (s : State) : State :=
  alu h d (ftyW m.ty) [fsrc m.ty a, fsrc m.ty b] (fpCyc m.ty) none 0
    (fun c _ v => plain (minmax (ftyFmt m.ty) (flushes c m.ty) mx (arg v 0) (arg v 1))) s

/-- A value rounded to an integral value; a zero keeps the sign (R263). -/
def fRound (rm : Rnd) : FV → FV
  | .fin n m e st =>
    let v := roundInt ⟨rm, 0⟩ n m e st
    if v = 0 then .zero n else .ofInt v
  | x => x

/-- The class of an encoding (R264). -/
def classOf (f : FFmt) (x : Nat) : Nat :=
  let sub := bitsOf x f.mb f.eb == 0
  match fdecode f x with
  | .nan => 256
  | .inf n => if n then 1 else 128
  | .fin n m _ _ => if m = 0 then (if n then 8 else 16) else if sub then (if n then 4 else 32) else (if n then 2 else 64)

/-- The exponent of `fscl`: past ±8,192 every result is the same. -/
def sclExp (b : Nat) : Int := max (-8192) (min 8192 (sgn 32 b))

/-- `fadd` (R262, R263). -/
def execFadd (h : Hdr) (m : FpMod) (d a b : Opd) (s : State) : Host.Outcome State Fault Refusal :=
  .next (fpOp h m d [a, b] (fpCyc m.ty) (fun v => FV.add (farg v 0) (farg v 1) (m.rm == .rdn)) s)

/-- `fsub` (R262, R263). -/
def execFsub (h : Hdr) (m : FpMod) (d a b : Opd) (s : State) : Host.Outcome State Fault Refusal :=
  .next (fpOp h m d [a, b] (fpCyc m.ty) (fun v => FV.add (farg v 0) (farg v 1).neg (m.rm == .rdn)) s)

/-- `fmul` (R262, R263). -/
def execFmul (h : Hdr) (m : FpMod) (d a b : Opd) (s : State) : Host.Outcome State Fault Refusal :=
  .next (fpOp h m d [a, b] (fpCyc m.ty) (fun v => FV.mul (farg v 0) (farg v 1)) s)

/-- `ffma`: one rounding of a × b + c (R262, R263). -/
def execFfma (h : Hdr) (m : FpMod) (d a b c : Opd) (s : State) : Host.Outcome State Fault Refusal :=
  .next (fpOp h m d [a, b, c] (fpCyc m.ty) (fun v => FV.add (FV.mul (farg v 0) (farg v 1)) (farg v 2) (m.rm == .rdn)) s)

/-- `fmin` (R264). -/
def execFmin (h : Hdr) (m : FpMod) (d a b : Opd) (s : State) : Host.Outcome State Fault Refusal :=
  .next (fpMinMax h m d a b false s)

/-- `fmax` (R264). -/
def execFmax (h : Hdr) (m : FpMod) (d a b : Opd) (s : State) : Host.Outcome State Fault Refusal :=
  .next (fpMinMax h m d a b true s)

/-- `fdiv` (R262, R263). -/
def execFdiv (h : Hdr) (m : FpMod) (d a b : Opd) (s : State) : Host.Outcome State Fault Refusal :=
  .next (fpOp h m d [a, b] (fnCyc m.ty) (fun v => FV.div (farg v 0) (farg v 1)) s)

/-- `fsqrt` (R262, R263). -/
def execFsqrt (h : Hdr) (m : FpMod) (d a : Opd) (s : State) : Host.Outcome State Fault Refusal :=
  .next (fpOp h m d [a] (fnCyc m.ty) (fun v => FV.sqrt (farg v 0)) s)

/-- `frcp` (R262, R263). -/
def execFrcp (h : Hdr) (m : FpMod) (d a : Opd) (s : State) : Host.Outcome State Fault Refusal :=
  .next (fnOp h m d a (fun _ => fRcp) s)

/-- `frsq` (R262, R263). -/
def execFrsq (h : Hdr) (m : FpMod) (d a : Opd) (s : State) : Host.Outcome State Fault Refusal :=
  .next (fnOp h m d a (fun _ => fRsq) s)

/-- `fexp2` (R262, R263). -/
def execFexp2 (h : Hdr) (m : FpMod) (d a : Opd) (s : State) : Host.Outcome State Fault Refusal :=
  .next (fnOp h m d a fExp2 s)

/-- `flog2` (R262, R263). -/
def execFlog2 (h : Hdr) (m : FpMod) (d a : Opd) (s : State) : Host.Outcome State Fault Refusal :=
  .next (fnOp h m d a fLog2 s)

/-- `fsin`: sin(π a) (R262, R263). -/
def execFsin (h : Hdr) (m : FpMod) (d a : Opd) (s : State) : Host.Outcome State Fault Refusal :=
  .next (fnOp h m d a fSin s)

/-- `fcos`: cos(π a) (R262, R263). -/
def execFcos (h : Hdr) (m : FpMod) (d a : Opd) (s : State) : Host.Outcome State Fault Refusal :=
  .next (fnOp h m d a fCos s)

/-- `ftanh` (R262, R263). -/
def execFtanh (h : Hdr) (m : FpMod) (d a : Opd) (s : State) : Host.Outcome State Fault Refusal :=
  .next (fnOp h m d a fTanh s)

/-- `frnd`: an integral value (R262, R263). -/
def execFrnd (h : Hdr) (m : FpMod) (d a : Opd) (s : State) : Host.Outcome State Fault Refusal :=
  .next (fpOp h m d [a] (fpCyc m.ty) (fun v => fRound m.rm (farg v 0)) s)

/-- `fscl`: a × 2^b, b read as i32 (R262, R263). -/
def execFscl (h : Hdr) (m : FpMod) (d a b : Opd) (s : State) : Host.Outcome State Fault Refusal :=
  .next (alu h d (ftyW m.ty) [fsrc m.ty a, ⟨b, 32, .int⟩] (fpCyc m.ty) (rndClass m.rm) 1
    (fun c g v => fnRes (flushes c m.ty) m (fun _ x => x.scale (sclExp (arg v 1))) g (arg v 0)) s)

/-- `fclass`: one bit of nine, of the operand as stored (R264, R265). -/
def execFclass (h : Hdr) (m : FpMod) (d a : Opd) (s : State) : Host.Outcome State Fault Refusal :=
  .next (alu h d 32 [fsrc m.ty a] (fpCyc m.ty) none 0
    (fun _ _ v => plain (classOf (ftyFmt m.ty) (arg v 0))) s)

/-! ### Packed forms (R266) -/

/-- The element format of a packed form. -/
def hpFmt (bf : Bool) : FFmt := if bf then .bf16 else .f16

/-- A packed source. -/
def hsrc (bf : Bool) (o : Opd) : Src := ⟨o, 32, .packed (hpFmt bf)⟩

/-- Element `e` of a packed word. -/
def half (x e : Nat) : Nat := bitsOf x (16 * e) 16

/-- Two element results as one packed result. -/
def joinRes (a b : Res) : Res := ⟨a.v + b.v * 2 ^ 16, a.fl ||| b.fl⟩

/-- Element `e` of a packed result (R266). -/
def hpEl (m : HpMod) (op : List FV → FV) (g : Nat → Nat) (v : List Nat) (e : Nat) : Res :=
  let xs := v.map (fun x => fdecode (hpFmt m.bf) (half x e))
  fresult (hpFmt m.bf) ⟨m.rm, g e⟩ m.sat false xs (op xs)

/-- A packed result: each element computed as the scalar form computes it (R266). -/
def hpRes (m : HpMod) (op : List FV → FV) (g : Nat → Nat) (v : List Nat) : Res :=
  joinRes (hpEl m op g v 0) (hpEl m op g v 1)

/-- A packed instruction (R266). -/
def hpOp (h : Hdr) (m : HpMod) (d : Opd) (srcs : List Opd) (op : List FV → FV) (s : State) : State :=
  alu h d 32 (srcs.map (hsrc m.bf)) (ceilDiv · 4) (rndClass m.rm) 2 (fun _ g v => hpRes m op g v) s

/-- A packed minimum or maximum (R264, R266). -/
def hpMm (bf mx : Bool) (x y : Nat) : Res :=
  joinRes (plain (minmax (hpFmt bf) false mx (half x 0) (half y 0))) (plain (minmax (hpFmt bf) false mx (half x 1) (half y 1)))

/-- `h2min` and `h2max` (R264, R266). -/
def hpMinMax (h : Hdr) (m : HpMod) (d a b : Opd) (mx : Bool) (s : State) : State :=
  alu h d 32 [hsrc m.bf a, hsrc m.bf b] (ceilDiv · 4) none 0 (fun _ _ v => hpMm m.bf mx (arg v 0) (arg v 1)) s

/-- The exact value of `fdot2` (R266). -/
def dot2 (rdn : Bool) (a0 b0 a1 b1 c : FV) : FV :=
  match FV.mul a0 b0, FV.mul a1 b1, c with
  | .fin n1 m1 e1 _, .fin n2 m2 e2 _, .fin n3 m3 e3 _ =>
    let q := min e1 (min e2 e3)
    let v := FV.scaledTo n1 m1 e1 q + FV.scaledTo n2 m2 e2 q + FV.scaledTo n3 m3 e3 q
    if v = 0 then
      (if m1 = 0 && m2 = 0 && m3 = 0 && n1 == n2 && n2 == n3 then .zero n1 else .zero rdn)
    else .fin (v < 0) v.natAbs q false
  | p, q, c => FV.add (FV.add p q rdn) c rdn

/-- `h2add` (R266). -/
def execH2add (h : Hdr) (m : HpMod) (d a b : Opd) (s : State) : Host.Outcome State Fault Refusal :=
  .next (hpOp h m d [a, b] (fun v => FV.add (farg v 0) (farg v 1) (m.rm == .rdn)) s)

/-- `h2mul` (R266). -/
def execH2mul (h : Hdr) (m : HpMod) (d a b : Opd) (s : State) : Host.Outcome State Fault Refusal :=
  .next (hpOp h m d [a, b] (fun v => FV.mul (farg v 0) (farg v 1)) s)

/-- `h2fma` (R266). -/
def execH2fma (h : Hdr) (m : HpMod) (d a b c : Opd) (s : State) : Host.Outcome State Fault Refusal :=
  .next (hpOp h m d [a, b, c] (fun v => FV.add (FV.mul (farg v 0) (farg v 1)) (farg v 2) (m.rm == .rdn)) s)

/-- `h2min` (R266). -/
def execH2min (h : Hdr) (m : HpMod) (d a b : Opd) (s : State) : Host.Outcome State Fault Refusal :=
  .next (hpMinMax h m d a b false s)

/-- `h2max` (R266). -/
def execH2max (h : Hdr) (m : HpMod) (d a b : Opd) (s : State) : Host.Outcome State Fault Refusal :=
  .next (hpMinMax h m d a b true s)

/-- The result of `fdot2` (R266). -/
def dot2Res (m : HpMod) (g : Nat → Nat) (a b c : Nat) : Res :=
  let el (x e : Nat) : FV := fdecode (hpFmt m.bf) (half x e)
  let cc := fdecode .f32 c
  fresult .f32 ⟨m.rm, g 0⟩ m.sat false [el a 0, el b 0, el a 1, el b 1, cc]
    (dot2 (m.rm == .rdn) (el a 0) (el b 0) (el a 1) (el b 1) cc)

/-- `fdot2`: c + a₀ b₀ + a₁ b₁ rounded once to f32 (R266). -/
def execFdot2 (h : Hdr) (m : HpMod) (d a b c : Opd) (s : State) : Host.Outcome State Fault Refusal :=
  .next (alu h d 32 [hsrc m.bf a, hsrc m.bf b, ⟨c, 32, .flt .f32⟩] (ceilDiv · 4) (rndClass m.rm) 1
    (fun _ g v => dot2Res m g (arg v 0) (arg v 1) (arg v 2)) s)

end Sys2Proof.Machine
end

