-- ==== Sys2Proof/Machine/Cmp.lean ====
section
/-! DEFINITION. Compare, select, convert, pack and trit instructions, opcodes 0x40 to 0x47 (10 R267 to R273; 06 R169, R174
to R176, R185). -/

namespace Sys2Proof.Machine

/-! ### Compares (R267, R268) -/

/-- The condition of a comparison: the order −1, 0, 1, or `none` where a NaN is compared (R268). -/
def condHolds (cond : BitVec 3) (c : Option Int) : Bool :=
  match c, cond.toNat with
  | some x, 0 => x == 0
  | some x, 1 => x != 0
  | some x, 2 => x < 0
  | some x, 3 => x ≤ 0
  | some x, 4 => x > 0
  | some x, 5 => x ≥ 0
  | some _, 6 => false
  | some _, _ => true
  | none, 1 => true
  | none, 6 => true
  | none, _ => false

/-- Writes a bit of a number. -/
def putBit (x i : Nat) (b : Bool) : Nat := x - bitsOf x i 1 * 2 ^ i + (if b then 2 ^ i else 0)

/-- The destination after a compare: bit t under the combining mode, bit f its complement (R267). -/
def cmpWrite (comb : BitVec 2) (t f : Nat) (old : Nat) (c : Bool) : Nat :=
  let o := bitAt old t
  let nt := match comb.toNat with
    | 0 => c
    | 1 => o && c
    | 2 => o || c
    | _ => o != c
  let x := putBit old t nt
  if f = t then x else putBit x f (!nt)

/-- The width of a compare's destination: its register's (R217, R267). -/
def cmpDw (d : Opd) : Nat := if d.isK then 64 else 32

/-- The order of two integers. -/
def icmpOf (x y : Int) : Int := if x < y then -1 else if x = y then 0 else 1

/-- What `icmp` writes for two values and the old destination (R267, R268). -/
def icmpVal (cond : BitVec 3) (comb : BitVec 2) (nat w64 : Bool) (t f : BitVec 5) (x y old : Nat) : Nat :=
  cmpWrite comb t.toNat f.toNat old (condHolds cond (some (icmpOf (ival (wdth w64) nat x) (ival (wdth w64) nat y))))

/-- `icmp` (R267, R268). -/
def execIcmp (h : Hdr) (cond : BitVec 3) (comb : BitVec 2) (nat w64 : Bool) (t f : BitVec 5) (d a b : Opd) (s : State) :
    Host.Outcome State Fault Refusal :=
  .next (alu h d (cmpDw d) [⟨a, wdth w64, .int⟩, ⟨b, wdth w64, .int⟩, ⟨d, cmpDw d, .int⟩] (intCyc w64 2) none 0
    (fun _ _ v => plain (icmpVal cond comb nat w64 t f (arg v 0) (arg v 1) (arg v 2))) s)

/-- The type of `fcmp` (R268). -/
def fcmpTy (lo hi : Bool) : FTy :=
  match hi, lo with
  | false, false => .f32
  | false, true => .f16
  | true, false => .f64
  | true, true => .bf16

/-- What `fcmp` writes for two values and the old destination (R267, R268). -/
def fcmpVal (cond : BitVec 3) (comb : BitVec 2) (ty : FTy) (t f : BitVec 5) (x y old : Nat) : Nat :=
  let a := fdecode (ftyFmt ty) x
  let b := fdecode (ftyFmt ty) y
  cmpWrite comb t.toNat f.toNat old (condHolds cond (if a.isNan || b.isNan then none else some (FV.cmp a b)))

/-- `fcmp` (R267, R268). -/
def execFcmp (h : Hdr) (cond : BitVec 3) (comb : BitVec 2) (lo hi : Bool) (t f : BitVec 5) (d a b : Opd) (s : State) :
    Host.Outcome State Fault Refusal :=
  let ty := fcmpTy lo hi
  .next (alu h d (cmpDw d) [fsrc ty a, fsrc ty b, ⟨d, cmpDw d, .int⟩] (intCyc (ty == .f64) 2) none 0
    (fun _ _ v => plain (fcmpVal cond comb ty t f (arg v 0) (arg v 1) (arg v 2))) s)

/-- `sel` (R269). -/
def execSel (h : Hdr) (n : BitVec 5) (w64 : Bool) (d a b c : Opd) (s : State) : Host.Outcome State Fault Refusal :=
  .next (alu h d (wdth w64) [⟨a, wdth w64, .int⟩, ⟨b, wdth w64, .int⟩, ⟨c, 32, .int⟩] (intCyc w64 2) none 0
    (fun _ _ v => plain (if bitAt (arg v 2) n.toNat then arg v 0 else arg v 1)) s)

/-! ### Conversions (R270, R271) -/

/-- The floating-point format of a conversion type, `none` for e8m0 and the integers. -/
def ctyFmt : CTy → Option FFmt
  | .f32 => some .f32
  | .f64 => some .f64
  | .f16 => some .f16
  | .bf16 => some .bf16
  | .e5m2 => some .e5m2
  | .e4m3 => some .e4m3
  | .e3m2 => some .e3m2
  | .e2m3 => some .e2m3
  | .e2m1 => some .e2m1
  | _ => none

/-- Width and signedness (true is natural) of an integer conversion type. -/
def ctyInt : CTy → Option (Nat × Bool)
  | .i8 => some (8, false)
  | .i16 => some (16, false)
  | .i32 => some (32, false)
  | .i64 => some (64, false)
  | .n8 => some (8, true)
  | .n16 => some (16, true)
  | .n32 => some (32, true)
  | .n64 => some (64, true)
  | _ => none

/-- The operand width of a conversion type (R252). -/
def ctyW : CTy → Nat
  | .f64 | .i64 | .n64 => 64
  | _ => 32

/-- Does `cvt` cost twice in exact mode (R176, R185)? -/
def ctyWide : CTy → Bool
  | .f64 | .i64 | .n64 => true
  | _ => false

/-- An i8 or i16 result is sign-extended into 32 bits (R271). -/
def intBits (wn : Nat × Bool) (v : Int) : Nat := if wn.2 || wn.1 ≥ 32 then wrapN wn.1 v else wrapN 32 (sgn wn.1 (wrapN wn.1 v))

/-- A value to an integer type, rounded and saturated; a NaN gives 0 (R175, R271). -/
def toInt (md : RMode) (wn : Nat × Bool) (x : FV) : Res :=
  let inv := flagBits false false false true false
  match x with
  | .nan => ⟨0, inv⟩
  | .inf n => ⟨intBits wn (if n then imin wn.1 wn.2 else imax wn.1 wn.2), inv⟩
  | .fin n m e st =>
    if e > 80 && m != 0 then ⟨intBits wn (if n then imin wn.1 wn.2 else imax wn.1 wn.2), inv⟩
    else
      let v := roundInt md n m e st
      let r := max (imin wn.1 wn.2) (min (imax wn.1 wn.2) v)
      ⟨intBits wn r, if r = v then 0 else inv⟩

/-- A value to e8m0 (R271): a power of two, or 0xFF. -/
def toE8 (md : RMode) (sat : Bool) (x : FV) : Res :=
  let inv : Res := ⟨0xFF, flagBits false false false true false⟩
  let ovf : Res := ⟨if sat then 0xFE else 0xFF, flagBits false false true false false⟩
  match x with
  | .nan => inv
  | .inf n => if n then inv else ovf
  | .fin n m e st =>
    if n || (m = 0 && !st) then inv
    else
      let lo := log2Floor m e
      let k := bitLen m - 1
      let frac := m % 2 ^ k
      let exact := frac = 0 && !st
      let up := match md.rm with
        | .rne => 2 * frac > 2 ^ k || (2 * frac == 2 ^ k && (st || (lo + 127) % 2 == 1))
        | .rtz | .rdn => false
        | .rup => true
        | .sr _ => frac * 2 ^ 16 / 2 ^ k > md.g
      let e2 := if exact then lo else if up then lo + 1 else lo
      if e2 > 127 then ovf else if e2 < -127 then ⟨0, 0⟩ else ⟨(e2 + 127).toNat, 0⟩

/-- An integer format narrower than f32 (R168, R176). -/
def narrowInt : CTy → Bool
  | .i8 | .i16 | .n8 | .n16 => true
  | _ => false

/-- The first stage of a staged conversion (R176): the value, and its flags. -/
def stage (exact : Bool) (dt st : CTy) (x : FV) : FV × BitVec 5 :=
  if exact then (x, 0)
  else
    match st with
    | .f64 =>
      if dt == .f64 || dt == .f32 then (x, 0)
      else if (ctyFmt dt).isSome || dt == .e8m0 || narrowInt dt then
        let r := roundTo .f32 .rne false x
        (fdecode .f32 r.bits, (ofRound r).fl)
      else (x, 0)
    | .i64 | .n64 =>
      if dt == .f64 then (x, 0)
      else if (ctyFmt dt).isSome || dt == .e8m0 then (fdecode .f64 (roundTo .f64 .rne false x).bits, 0) else (x, 0)
    | _ => (x, 0)

/-- A value of no integer type to the destination type (R174, R175, R271). -/
def cvtVal (exact : Bool) (md : RMode) (sat : Bool) (dt st : CTy) (x : FV) : Res :=
  let (x, fl) := stage exact dt st x
  let r :=
    match ctyFmt dt, ctyInt dt with
    | some f, _ => ofRound (roundTo f md sat x)
    | none, some wn => toInt md wn x
    | none, none => toE8 md sat x
  { r with fl := r.fl ||| fl }

/-- `cvt` of one value (R271). -/
def cvtOne (exact : Bool) (md : RMode) (sat : Bool) (dt st : CTy) (x : Nat) : Res :=
  let sclnan := flagBits false false false false true
  match ctyInt st with
  | some (w, nat) =>
    let v := ival w nat x
    (match ctyInt dt with
      | some wn =>
        if sat then
          let r := max (imin wn.1 wn.2) (min (imax wn.1 wn.2) v)
          ⟨intBits wn r, if r = v then 0 else flagBits false false true false false⟩
        else plain (intBits wn v)
      | none => cvtVal exact md sat dt st (.ofInt v))
  | none =>
    match ctyFmt st with
    | some f =>
      let b := x % 2 ^ f.width
      if dt == st then plain (if (fdecode f b).isNan then f.nan else b)
      else cvtVal exact md sat dt st (fdecode f b)
    | none =>
      let b := x % 256
      if dt == .e8m0 then ⟨b, if b = 255 then sclnan else 0⟩
      else if b = 255 then
        let r := cvtVal exact md sat dt st .nan
        { r with fl := r.fl ||| sclnan }
      else cvtVal exact md sat dt st (.fin false 1 ((b : Int) - 127) false)

/-- A small immediate source: the integer as a value of the source type, or a free value where the type does not hold it
(R271; log entry 13). -/
def cvtImm (st : CTy) (v : BitVec 5) : Nat :=
  match ctyInt st, ctyFmt st with
  | some (w, _), _ => wrapN w v.toInt
  | none, some f =>
    let r := roundTo f .rne false (.ofInt v.toInt)
    if FV.cmp (fdecode f r.bits) (.ofInt v.toInt) == 0 && !(fdecode f r.bits).isNan then r.bits
    else Config.immVal st v % 2 ^ f.width
  | none, none => if v = 1 then 127 else if v = 2 then 128 else if v = 4 then 129 else if v = 8 then 130 else Config.immVal st v % 256

/-- The source value of a conversion: a small immediate, or what the operand read (R271). -/
def cvtSrc (st : CTy) : Opd → Nat → Nat
  | .si v, _ => cvtImm st v
  | _, x => x

/-- `cvt` (R270, R271). Its cycles are those of R185; with no active thread it takes one (R197). -/
def execCvt (h : Hdr) (rm : Rnd) (sat : Bool) (dt st : CTy) (d a : Opd) (s : State) : Host.Outcome State Fault Refusal :=
  let exact := (ctx? s).any (fun c => c.g.conv && c.p.am != 0)
  let k := if exact && ctyWide st then 2 else 1
  .next (alu h d (ctyW dt) [⟨a, ctyW st, .int⟩] (fun n => k * max 1 (ceilDiv n 4)) (rndClass rm) 1
    (fun c g v => cvtOne c.g.conv ⟨rm, g 0⟩ sat dt st (cvtSrc st a (arg v 0))) s)

/-! ### Pack and trits (R272, R273) -/

/-- Element size and count of `pack` and `unpk` (R272). -/
def packSize (sz : BitVec 2) : Nat × Nat :=
  match sz.toNat with
  | 0 => (8, 4)
  | 1 => (16, 2)
  | 2 => (4, 8)
  | _ => (6, 5)

/-- `pack` (R272). -/
def packVal (sz : BitVec 2) (a i c : Nat) : Nat :=
  let (w, k) := packSize sz
  if i ≥ k then c else c - bitsOf c (i * w) w * 2 ^ (i * w) + bitsOf a 0 w * 2 ^ (i * w)

/-- `unpk` (R272). -/
def unpkVal (sz : BitVec 2) (sx : Bool) (a i : Nat) : Nat :=
  let (w, k) := packSize sz
  if i ≥ k then 0
  else if sx then wrapN 32 (sgn w (bitsOf a (i * w) w)) else bitsOf a (i * w) w

/-- `pack` (R272). -/
def execPack (h : Hdr) (sz : BitVec 2) (d a b c : Opd) (s : State) : Host.Outcome State Fault Refusal :=
  .next (alu h d 32 [⟨a, 32, .int⟩, ⟨b, 32, .int⟩, ⟨c, 32, .int⟩] (intCyc false 1) none 0
    (fun _ _ v => plain (packVal sz (arg v 0) (arg v 1) (arg v 2))) s)

/-- `unpk` (R272). -/
def execUnpk (h : Hdr) (sz : BitVec 2) (sx : Bool) (d a b : Opd) (s : State) : Host.Outcome State Fault Refusal :=
  .next (alu h d 32 [⟨a, 32, .int⟩, ⟨b, 32, .int⟩] (intCyc false 1) none 0
    (fun _ _ v => plain (unpkVal sz sx (arg v 0) (arg v 1))) s)

/-- The t3 byte of five i8 elements (R169, R273). -/
def t3encVal (x : Nat) : Nat :=
  sumN ((List.range 5).map (fun i =>
    let v := sgn 8 (bitsOf x (8 * i) 8)
    (if v < 0 then 2 else if v = 0 then 0 else 1) * 3 ^ i))

/-- Trit `i` of a t3 byte: 0, 1 or 2 (R169). -/
def tritOf (y i : Nat) : Nat := if y ≥ 243 then 0 else y / 3 ^ i % 3

/-- Five i8 elements of a t3 byte (R169, R273). -/
def t3decVal (y : Nat) : Nat :=
  sumN ((List.range 5).map (fun i =>
    (match tritOf y i with | 0 => 0 | 1 => 1 | _ => 255) * 2 ^ (8 * i)))

/-- `t3enc` (R273). -/
def execT3enc (h : Hdr) (d a : Opd) (s : State) : Host.Outcome State Fault Refusal :=
  .next (alu h d 32 [⟨a, 64, .int⟩] (intCyc true 2) none 0 (fun _ _ v => plain (t3encVal (arg v 0))) s)

/-- `t3dec` (R273). -/
def execT3dec (h : Hdr) (d a : Opd) (s : State) : Host.Outcome State Fault Refusal :=
  .next (alu h d 64 [⟨a, 32, .int⟩] (intCyc true 2) none 0
    (fun _ _ v =>
      let y := bitsOf (arg v 0) 0 8
      ⟨t3decVal y, flagBits (y ≥ 243) false false false false⟩) s)

end Sys2Proof.Machine
end

