-- ==== Sys2Proof/Machine/Collect.lean ====
section
/-! DEFINITION. The warp collectives, `mxscl`, top-k and the votes, opcodes 0x48 and 0x50 to 0x57 (10 R274 to R281). -/

namespace Sys2Proof.Machine

/-- A collective (R275): the participants are the acting threads, in position order, or every active thread where a k
destination makes it uniform. `op` gives the participants' results from their positions and their source values. -/
def coll (h : Hdr) (d : Opd) (dw : Nat) (srcs : List Src) (cyc : Nat) (op : List Nat → List (List Nat) → List Res)
    (s : State) : State :=
  (begin h.sw (kRegs (guardOpd h :: srcs.map (·.o))) s).run (fun c s =>
    let uni := d.isK
    if uni && !uniHolds c h then (checkPois c h true [] [] s).run (fun c s => finish s c.f 1)
    else if c.p.am == 0 then badConv s c.f 2
    else
      let ts := if uni then maskList c.p.am else acting c h
      (checkPois c h uni ts (srcs.map (·.o)) s).run (fun c s =>
        if ts.isEmpty then finish s c.f cyc
        else
          let one := if uni then [0] else ts
          (checkQueues c one.length srcs d dw s).run (fun c s =>
            let (vals, s) := allVals c uni one srcs s
            let vals := if uni then vals.map (fun l => ts.map (fun _ => (l.head?).getD 0)) else vals
            let rs := op ts vals
            let s := writeDst s c d dw ts (rs.map (·.v))
            let s := setFlags s c.f (rs.foldl (fun a r => a ||| r.fl) 0)
            finish s c.f (if uni then 1 else cyc))))

/-- Source `i` of participant number `j`. -/
def pval (vals : List (List Nat)) (i j : Nat) : Nat := (((vals[i]?).getD [])[j]?).getD 0

/-- The same result for every participant. -/
def same (ts : List Nat) (r : Res) : List Res := ts.map (fun _ => r)

/-- The element format of `mxscl` (R274). -/
def mxsclFmt (c : BitVec 3) : FFmt := (mxFmtOf c.toNat).getD .e4m3

/-- `mxscl`: one scale byte for the participants' values (R274). -/
def execMxscl (h : Hdr) (fmt : BitVec 3) (d a : Opd) (s : State) : Host.Outcome State Fault Refusal :=
  .next (coll h d 32 [⟨a, 32, .flt .f32⟩] 8
    (fun ts vals => same ts (plain (blockScale (mxsclFmt fmt) (((vals[0]?).getD []).map (fdecode .f32))).toNat)) s)

/-- The source position of `shfl` (R276). -/
def shflPos (mode : BitVec 2) (p b : Nat) : Option Nat :=
  match mode.toNat with
  | 0 => some b
  | 1 => if b ≤ p then some (p - b) else none
  | 2 => some (p + b)
  | _ => some (p ^^^ b)

/-- `shfl` (R276). -/
def execShfl (h : Hdr) (mode : BitVec 2) (b64 : Bool) (d a b : Opd) (s : State) : Host.Outcome State Fault Refusal :=
  .next (coll h d (wdth b64) [⟨a, wdth b64, .int⟩, ⟨b, 32, .int⟩] 8
    (fun ts vals => ts.zipIdx.map (fun p =>
      let own := pval vals 0 p.2
      plain (match shflPos mode p.1 (pval vals 1 p.2) with
        | some q => (match findIdx (· == q) ts with | some j => pval vals 0 j | none => own)
        | none => own))) s)

/-- `vote` (R277). -/
def execVote (h : Hdr) (mode : BitVec 2) (d a b : Opd) (s : State) : Host.Outcome State Fault Refusal :=
  .next (coll h d 32 [⟨a, 32, .int⟩, ⟨b, 32, .int⟩] 8
    (fun ts vals =>
      let bs := ts.zipIdx.map (fun p => (p.1, bitAt (pval vals 0 p.2) (pval vals 1 p.2 % 32)))
      let r := match mode.toNat with
        | 0 => if bs.any (·.2) then 1 else 0
        | 1 => if bs.all (·.2) then 1 else 0
        | _ => sumN (bs.map (fun x => if x.2 then 2 ^ x.1 else 0))
      same ts (plain r)) s)

/-- `match`: the positions whose a equals the participant's own (R277). -/
def execMatchEq (h : Hdr) (b64 : Bool) (d a : Opd) (s : State) : Host.Outcome State Fault Refusal :=
  .next (coll h d 32 [⟨a, wdth b64, .int⟩] 8
    (fun ts vals => ts.zipIdx.map (fun p =>
      plain (sumN (ts.zipIdx.map (fun q => if pval vals 0 q.2 = pval vals 0 p.2 then 2 ^ q.1 else 0))))) s)

/-- The combination of integers under an operation of R278, before fin; an empty list gives the identity. -/
def redInt (op : BitVec 3) (w : Nat) (nat : Bool) (xs : List Nat) : Int :=
  let iv := xs.map (ival w nat)
  match op.toNat with
  | 0 => iv.foldl (· + ·) 0
  | 1 => iv.foldl min (imax w nat)
  | 2 => iv.foldl max (imin w nat)
  | 3 => (xs.foldl (fun a x => a &&& x) (2 ^ w - 1) : Nat)
  | 4 => (xs.foldl (fun a x => a ||| x) 0 : Nat)
  | _ => (xs.foldl (fun a x => a ^^^ x) 0 : Nat)

/-- `redi` (R278). -/
def execRedi (h : Hdr) (op : BitVec 3) (sat sg wd : Bool) (d a : Opd) (s : State) : Host.Outcome State Fault Refusal :=
  .next (coll h d (wdth wd) [⟨a, wdth wd, .int⟩] (if wd then 16 else 8)
    (fun ts vals => same ts (fin (wdth wd) sat sg (redInt op (wdth wd) sg ((vals[0]?).getD [])))) s)

/-- `scan` (R278). -/
def execScan (h : Hdr) (op : BitVec 3) (excl sg wd : Bool) (d a : Opd) (s : State) : Host.Outcome State Fault Refusal :=
  .next (coll h d (wdth wd) [⟨a, wdth wd, .int⟩] (if wd then 16 else 8)
    (fun ts vals => ts.zipIdx.map (fun p =>
      fin (wdth wd) false sg (redInt op (wdth wd) sg (((vals[0]?).getD []).take (if excl then p.2 else p.2 + 1))))) s)

/-- One combination of the tree of R279: `add` under R263, `min` and `max` as R264. -/
def redComb (op : BitVec 2) (ty : FTy) (x y : Option Res) : Option Res :=
  match x, y with
  | some a, some b =>
    let f := ftyFmt ty
    let fl := a.fl ||| b.fl
    some (match op.toNat with
      | 0 =>
        let u := fdecode f a.v
        let v := fdecode f b.v
        let r := fresult f .rne false false [u, v] (FV.add u v false)
        { r with fl := r.fl ||| fl }
      | 1 => ⟨minmax f false false a.v b.v, fl⟩
      | _ => ⟨minmax f false true a.v b.v, fl⟩)
  | some a, none => some a
  | none, y => y

/-- One level of the tree: neighbours combine (R279). -/
def redLevel (op : BitVec 2) (ty : FTy) : List (Option Res) → List (Option Res)
  | x :: y :: t => redComb op ty x y :: redLevel op ty t
  | l => l

/-- A result of a format with a NaN of any kind made canonical (R165). -/
def canonical (f : FFmt) (r : Res) : Res := if (fdecode f r.v).isNan then { r with v := f.nan } else r

/-- `redf` (R279): a fixed tree over the 32 positions. -/
def execRedf (h : Hdr) (op : BitVec 2) (ty : FTy) (d a : Opd) (s : State) : Host.Outcome State Fault Refusal :=
  .next (coll h d (ftyW ty) [fsrc ty a] (if ty == .f64 then 16 else 8)
    (fun ts vals =>
      let leaf (q : Nat) : Option Res :=
        (findIdx (· == q) ts).map (fun j => plain (pval vals 0 j % 2 ^ (ftyFmt ty).width))
      let v := (List.range 5).foldl (fun l _ => redLevel op ty l) ((List.range 32).map leaf)
      same ts (canonical (ftyFmt ty) (((v.head?).getD none).getD ⟨0, 0⟩))) s)

/-- The score of a value under a ranking type: NaN is `none` (R280). -/
def scoreOf (ty : BitVec 2) (x : Nat) : Option FV :=
  match ty.toNat with
  | 0 => let v := fdecode .f32 x; if v.isNan then none else some v
  | 1 => some (.ofInt (sgn 32 x))
  | _ => some (.ofInt (x % 2 ^ 32 : Nat))

/-- The entry of score `x` ranks strictly before that of score `y` (R280). -/
def ranksFirst (least : Bool) (x y : Option FV) : Bool :=
  match x, y with
  | some a, some b => if least then FV.cmp a b < 0 else FV.cmp a b > 0
  | some _, none => true
  | none, _ => false

/-- Codes of entries in rank order: by score, and among equal scores in the order of the list (R280, R281). -/
def ranking (least : Bool) (l : List (Nat × Option FV)) : List Nat :=
  (l.foldl (fun acc x =>
    let before := acc.filter (fun y => !ranksFirst least x.2 y.2)
    let after := acc.filter (fun y => ranksFirst least x.2 y.2)
    before ++ x :: after) []).map (·.1)

/-- The count operand of top-k: above 32 it reads as 32 (R280). -/
def topCount (b : Nat) : Nat := min 32 (b % 2 ^ 32)

/-- Participant p receives the code of rank p, or all ones (R280, R281). -/
def rankOut (ts : List Nat) (k : Nat) (r : List Nat) : List Res :=
  ts.map (fun p => plain (if p < min k r.length then (r[p]?).getD 0 else 0xFFFFFFFF))

/-- `topk` (R280). -/
def execTopk (h : Hdr) (ty : BitVec 2) (least : Bool) (d a b : Opd) (s : State) : Host.Outcome State Fault Refusal :=
  .next (coll h d 32 [⟨a, 32, if ty = 0 then .flt .f32 else .int⟩, ⟨b, 32, .int⟩] 16
    (fun ts vals =>
      let l := ts.zipIdx.map (fun p => (p.1, scoreOf ty (pval vals 0 p.2)))
      rankOut ts (topCount (pval vals 1 0)) (ranking least l)) s)

/-- `topkm` (R281): running entries rank before candidates among equal scores. -/
def execTopkm (h : Hdr) (ty : BitVec 2) (least : Bool) (d a b c : Opd) (s : State) : Host.Outcome State Fault Refusal :=
  let k : Kind := if ty = 0 then .flt .f32 else .int
  .next (coll h d 32 [⟨a, 32, k⟩, ⟨b, 32, .int⟩, ⟨c, 32, k⟩] 16
    (fun ts vals =>
      let n := topCount (pval vals 1 0)
      let all := n > ts.length
      let run := (ts.zipIdx.filter (fun p => all || p.1 < n)).map (fun p => (p.1, scoreOf ty (pval vals 0 p.2)))
      let cand := ts.zipIdx.map (fun p => (p.1 + 32, scoreOf ty (pval vals 2 p.2)))
      rankOut ts n (ranking least (run ++ cand))) s)

end Sys2Proof.Machine
end

