-- ==== Sys2Proof/Machine/Control.lean ====
section
/-! DEFINITION. Control flow, divergence and joins, spawn and the former, calls and windows, loops, the moves of special
registers, and pair words (07 R189 to R204, R209; 08 R220 to R223; 10 R282 to R291). -/

namespace Sys2Proof.Machine

/-! ### Branches and the watchdog (R209, R283) -/

/-- The target of a relative branch (R282). -/
def relTarget (pc : W64) (off : BitVec 19) : W64 := pc + (off.signExtend 64) * 8

/-- Counts a taken branch to `target`; past `wlim` the fragment has a watchdog trap to take (R209). -/
def countBranch (wlim : W64) (target : W64) (p : Frag) : Frag :=
  if target.toNat ≤ p.pc.toNat then
    { p with wdc := p.wdc + 1, wdt := if (p.wdc + 1).toNat > wlim.toNat then some p.pc else p.wdt }
  else p

/-- The whole fragment goes to a target (R209, R283). -/
def jumpTo (s : State) (c : Ctx) (target : W64) : State :=
  goTo ((spend s c.f 1).modFrag c.f (countBranch c.g.wlim target)) c.f target

/-- Accesses in flight that satisfy `p` become another fragment's (R130). -/
def retag (s : State) (p : Acc → Bool) (f : FragRef) (uid : Nat) : State :=
  { s with accs := s.accs.map (fun a => if p a then { a with frag := f, uid := uid } else a) }

/-- A split into the free slot: the taken threads move there (R189). -/
def splitTo (s : State) (c : Ctx) (tk : W32) (target : W64) : State :=
  let (uid, s) := s.fresh
  let s := (spend s c.f 1).modFrag c.f (countBranch c.g.wlim target)
  let s := retag s (fun a => a.uid == c.p.uid && a.thr.any (fun t => tk.getLsbD t)) (sibOf c.f) uid
  s.modWarp c.f (fun w =>
    let p := w.slot c.f.s1
    let q : Frag := { p.next target with uid := uid, am := tk, sm := 0, fault := none, fragid := w.fragCtr + 1, parentid := p.fragid }
    let w := { w with fragCtr := w.fragCtr + 1 }
    let w := w.modSlot (!c.f.s1) (fun _ => q)
    w.modSlot c.f.s1 (fun p => { p.next (p.pc + 8) with am := p.am &&& ~~~tk }))

/-! ### Spawn records (R191 to R193) -/

/-- The key of register r of a thread's current window, whatever the rotating region (R192, R199). -/
def physKey (x : Thr) (r : Nat) : Nat := if r < 8 then r else 8 + 16 * x.dep + r

/-- The bytes of a spawn record (R192). -/
def spawnBytes (p : Frag) (x : Thr) (pc : W64) : List Byte :=
  (List.range 31).flatMap (fun i => leBytes 4 (Tab.getD x.regs (physKey x (i + 1)) 0).toNat) ++
  leBytes 4 x.tid ++ leBytes 8 pc.toNat ++ leBytes 4 (256 + x.dep) ++ leBytes 4 p.lcnt.toNat ++
  leBytes 1 p.turn ++ leBytes 1 p.rsz ++ zeros 14

/-- The poisoned 8-byte units of a spawn record (R192). -/
def spawnPois (x : Thr) : List Nat :=
  (List.range 16).filter (fun u => x.pois.contains (physKey x (2 * u + 1)) ||
    (u != 15 && x.pois.contains (physKey x (2 * u + 2))))

/-- Where the next record of a thread goes: scratchpad while room remains, then the overflow area (R193). -/
def spawnPlace (g : Wg) (tid : Nat) : SpawnRec :=
  let used := g.bins.flatMap (fun b => b.recs.filterMap (fun r => if r.2.inScr then some r.2.addr else none))
  match (List.range g.spawnCap).find? (fun i => !used.contains (g.spbase + 160 * i)) with
  | some i => ⟨true, g.spbase + 160 * i⟩
  | none => ⟨false, g.spov.toNat + 160 * tid⟩

/-- Writes a record unit by unit (R192). -/
def spawnWrite (s : State) (f : FragRef) (r : SpawnRec) (bs : List Byte) (ps : List Nat) : Except (AErr × Nat) State :=
  if r.inScr then
    .ok (s.modCore f.die f.core (fun c => (List.range 20).foldl (fun c u =>
      scrWrite c (r.addr + 8 * u) (bytesAt bs (8 * u) 8) (ps.contains u)) c))
  else
    ((List.range 20).foldlM (fun s u => vwrite s (ownAgent s f) (r.addr + 8 * u) (bytesAt bs (8 * u) 8) (ps.contains u)) s
      : Except AErr State).mapError (fun e => (e, r.addr))

/-- A record matches a bin (R194). -/
def binFits (b : Bin) (p : Frag) (pc : W64) : Bool := b.pc == pc && b.lcnt == p.lcnt && b.turn == p.turn && b.rsz == p.rsz

/-- Puts a record into its bin, opening one where none matches (R194). -/
def binAdd (bs : List Bin) (p : Frag) (pc : W64) (seq now : Nat) (r : SpawnRec) : List Bin :=
  if bs.any (fun b => binFits b p pc) then
    bs.map (fun b => if binFits b p pc then { b with recs := b.recs ++ [(seq, r)], last := now, ripe := false } else b)
  else bs ++ [⟨pc, p.lcnt, p.turn, p.rsz, [(seq, r)], now, false⟩]

/-- One thread leaves by spawn: older windows spilled, its record written and binned (R191). -/
def spawnThread (f : FragRef) (p : Frag) (pc : W64) (s : State) (t : Nat) : Except (AErr × Nat) State := do
  match s.wgOf? f, s.warp? f with
  | some g, some w =>
    let x := w.thread t
    let s ← (spillOld s f t 1).mapError (fun e => (e, threadArea g x.tid))
    let r := spawnPlace g x.tid
    let s ← spawnWrite s f r (spawnBytes p x pc) (spawnPois x)
    let s := s.modWgOf f (fun g => { g with bins := binAdd g.bins p pc g.recSeq (s.cycOf f.die f.core) r, recSeq := g.recSeq + 1 })
    return s.modWarp f (fun w => w.modThr t (fun _ => {}))
  | _, _ => return s

/-- Every earlier access of the agent is complete, non-temporal stores among them, and nothing still works on the workgroup's spawn records (R130, R191). -/
def spawnReady (s : State) (c : Ctx) : Bool :=
  settledAll s c.f c.p.uid && s.accs.all (fun a => a.uid != c.p.uid || a.kind != .storeNt || (match a.st with | .bad _ _ => true | _ => false)) &&
  !opsHeld s c [] [(c.g.spbase, 160 * c.g.spawnCap)]

/-- The minority side leaves by spawn, and the other side goes on (R189, R191, R194). -/
def spawnSide (s : State) (c : Ctx) (side : List Nat) (sidePc : W64) (stayTaken : Bool) (target : W64) : State :=
  if !spawnReady s c then hold s c.f .stall
  else if !(c.g.bins.any (fun b => binFits b c.p sidePc)) && c.g.bins.length ≥ 8 then hold s c.f .stall
  else
    match side.foldlM (spawnThread c.f c.p sidePc) s with
    | .error (.busy h, _) => holdFor s c.f h
    | .error (e, va) => faultNow s c.f e.cause va
    | .ok s =>
      let s := (spend s c.f 1).modFrag c.f (fun p =>
        countBranch c.g.wlim target { p with am := p.am &&& ~~~(maskOf side) })
      goTo s c.f (if stayTaken then target else c.p.pc + 8)

/-- `br`: a per-thread branch (R189, R283). -/
def execBr (h : Hdr) (off : BitVec 19) (s : State) : Host.Outcome State Fault Refusal :=
  .next ((begin h.sw (kRegs [guardOpd h]) s).run (fun c s =>
    (checkPois c h false [] [] s).run (fun c s =>
      let tk := acting c h
      let nt := (maskList c.p.am).filter (fun t => !tk.contains t)
      let target := relTarget c.p.pc off
      if tk.isEmpty then finish s c.f 1
      else if nt.isEmpty then jumpTo s c target
      else if resultsOut s c.p.uid then hold s c.f .marker
      else if !(c.w.slot (!c.f.s1)).occ then splitTo s c (maskOf tk) target
      else if tk.length ≤ nt.length then spawnSide s c tk target false target
      else spawnSide s c nt (c.p.pc + 8) true target)))

/-- `bru`: the whole fragment branches (R283). -/
def execBru (h : Hdr) (off : BitVec 19) (s : State) : Host.Outcome State Fault Refusal :=
  .next (uniOp h [] (fun c s => jumpTo s c (relTarget c.p.pc off)) s)

/-- An indirect target that is not a multiple of 8 raises the misaligned trap (R211, R282). -/
def indirect (s : State) (c : Ctx) (target : W64) (go : State → State) : State :=
  if target.toNat % 8 != 0 then trapAt s c.f 4 target else go s

/-- `jmp` (R283). -/
def execJmp (h : Hdr) (a : Opd) (s : State) : Host.Outcome State Fault Refusal :=
  .next (uniOp h [a] (fun c s =>
    let t : W64 := BitVec.ofNat 64 (opVal s c true 0 ⟨a, 64, .int⟩)
    indirect s c t (fun s => jumpTo s c t)) s)

/-! ### Joins (R190, R284) -/

/-- Two fragments at one `jn` merge into S0 (R190). -/
def mergeAt (s : State) (c : Ctx) : State :=
  let s := spend s c.f 1
  let r0 : FragRef := { c.f with s1 := false }
  let s := retag s (fun a => a.uid == c.w.s1.uid && a.frag == { c.f with s1 := true }) r0 c.w.s0.uid
  s.modWarp c.f (fun w =>
    { w with
      s0 := { w.s0.next (c.p.pc + 8) with
              am := w.s0.am ||| w.s0.sm ||| w.s1.am ||| w.s1.sm, sm := 0, seq := max w.s0.seq w.s1.seq + 1
              wdc := if w.s0.wdc.toNat < w.s1.wdc.toNat then w.s1.wdc else w.s0.wdc }
      s1 := {} })

/-- `jn` (R190, R284): alone, waiting, or merging. -/
def execJn (h : Hdr) (s : State) : Host.Outcome State Fault Refusal :=
  .next ((begin h.sw [] s).run (fun c s =>
    let q := c.w.slot (!c.f.s1)
    if resultsOut s c.p.uid then hold s c.f .marker
    else if !q.occ then jnAlone (spend s c.f 1) c.f
    else if q.wait != .jn || q.fault.isSome then hold s c.f .jn
    else if q.pc != c.p.pc then jnAlone (jnAlone (spend s c.f 1) c.f) (sibOf c.f)
    else if q.turn != c.p.turn || q.rsz != c.p.rsz || q.lcnt != c.p.lcnt then badConv (badConv s (sibOf c.f) 3) c.f 3
    else if !settledAll s c.f c.p.uid || !settledWg s q.uid then hold s c.f .stall
    else mergeAt s c))

/-! ### Calls and returns (R199 to R201, R285, R286) -/

/-- Threads of a slot, active and suspended. -/
def slotThreads (p : Frag) : List Nat := maskList (p.am ||| p.sm)

/-- A window operation over threads, with the address of a failure. -/
def overThreads (op : State → Nat → Except AErr State) (addr : Nat → Nat) : List Nat → State → Except (AErr × Nat) State
  | [], s => .ok s
  | t :: ts, s =>
    match op s t with
    | .ok s => overThreads op addr ts s
    | .error e => .error (e, addr t)

/-- Contents of the registers that a new window adds: free (log entry 3). -/
def freshWindow (ix : Nat) (t j : Nat) (x : Thr) : Thr :=
  (List.range 16).foldl (fun x i => x.put (24 + 16 * j + i) (Config.freeWord (ix + 16 * t + i))) x

/-- One thread's window slides up (R199, R200, R285). -/
def slideUp (f : FragRef) (g : Wg) (ra : W64) (s : State) (t : Nat) : Except AErr State := do
  match s.warp? f, s.frag? f with
  | some w, some p =>
    let x := w.thread t
    let s ← if x.res ≥ g.nwin then spillWin s f t (x.dep + 1 - x.res) else pure s
    let ix := s.freeIx
    return s.modWarp f (fun w => w.modThr t (fun x =>
      let x := x.writeW { p with rsz := 0 } 24 (ra.truncate 32)
      freshWindow ix t (x.dep + 1) { x with dep := x.dep + 1, res := if x.res ≥ g.nwin then x.res else x.res + 1 }))
  | _, _ => return s

/-- `call` to a target (R201, R204, R285). At the depth limit it takes the access-right trap as a failing spill does, imprecisely (log entry 26). -/
def callTo (s : State) (c : Ctx) (target : W64) : State :=
  let ts := slotThreads c.p
  let ra := c.p.pc + 8
  if c.p.rsz != 0 then illegal s c.f
  else
    match ts.find? (fun t => (c.w.thread t).dep + 1 ≥ min c.g.stride 255) with
    | some t =>
      let low := (c.w.thread ((ts.head?).getD 0)).tid
      faultNow s c.f 2 (threadArea c.g low + 64 * ((c.w.thread t).dep + 1))
    | none =>
      let addr (t : Nat) : Nat := threadArea c.g (c.w.thread t).tid + 64 * ((c.w.thread t).dep + 1 - (c.w.thread t).res)
      if (ts.filter (fun t => (c.w.thread t).res ≥ c.g.nwin)).any (fun t => ownHeld s c.f c.p.uid (addr t) 64 true) then hold s c.f .stall
      else match overThreads (slideUp c.f c.g ra) addr ts s with
      | .error (.busy h, _) => holdFor s c.f h
      | .error (e, va) => faultNow s c.f e.cause va
      | .ok s => jumpTo { s with freeIx := s.freeIx + 512 } c target

/-- `call` (R285). -/
def execCall (h : Hdr) (off : BitVec 19) (s : State) : Host.Outcome State Fault Refusal :=
  .next (uniOp h [] (fun c s => callTo s c (relTarget c.p.pc off)) s)

/-- `calli` (R285). -/
def execCalli (h : Hdr) (a : Opd) (s : State) : Host.Outcome State Fault Refusal :=
  .next (uniOp h [a] (fun c s =>
    let t : W64 := BitVec.ofNat 64 (opVal s c true 0 ⟨a, 64, .int⟩)
    indirect s c t (fun s => callTo s c t)) s)

/-- One thread's window slides back (R199, R200, R286). -/
def slideDown (f : FragRef) (s : State) (t : Nat) : Except AErr State := do
  match s.warp? f with
  | some w =>
    let x := w.thread t
    let s ← if x.res ≤ 1 then fillWin s f t (x.dep - 1) else pure s
    return s.modWarp f (fun w => w.modThr t (fun y =>
      { y with dep := y.dep - 1, res := if y.res ≤ 1 then 1 else y.res - 1
               regs := y.regs.filter (fun e => e.1 < 24 + 16 * y.dep)
               pois := y.pois.filter (fun e => e < 24 + 16 * y.dep) }))
  | none => return s

/-- `ret` (R286). The depths and the region size are tested before the return addresses are compared (log entry 26). -/
def execRet (h : Hdr) (s : State) : Host.Outcome State Fault Refusal :=
  .next ((begin h.sw [] s).run (fun c s =>
    let ts := slotThreads c.p
    let ra (t : Nat) : W32 := Tab.getD (c.w.thread t).regs (physKey (c.w.thread t) 8) 0
    let t0 := (ts.head?).getD 0
    if c.p.rsz != 0 || ts.any (fun t => (c.w.thread t).dep = 0) then illegal s c.f
    else
      (checkPois c h false ts [.w 8] s).run (fun c s =>
        if ts.any (fun t => ra t != ra t0) then badConv s c.f 5
        else
          let target : W64 := (ra t0).zeroExtend 64
          indirect s c target (fun s =>
            let addr (t : Nat) : Nat := threadArea c.g (c.w.thread t).tid + 64 * ((c.w.thread t).dep - 1)
            if (ts.filter (fun t => (c.w.thread t).res ≤ 1)).any (fun t => ownHeld s c.f c.p.uid (addr t) 64 false) then hold s c.f .stall
            else match overThreads (slideDown c.f) addr ts s with
            | .error (.busy h, _) => holdFor s c.f h
            | .error (e, va) => faultNow s c.f e.cause va
            | .ok s => jumpTo s c target))))

/-! ### Loops, exit, regions, special registers (R287 to R291) -/

/-- `loop` (R204, R287). -/
def execLoop (h : Hdr) (sz : BitVec 2) (cnt : Opd) (s : State) : Host.Outcome State Fault Refusal :=
  .next (uniOp h [cnt] (fun c s =>
    let n : W32 := BitVec.ofNat 32 (opVal s c true 0 ⟨cnt, 32, .int⟩)
    finish (s.modFrag c.f (fun p => { p with lcnt := n, rsz := sz.toNat, turn := 0 })) c.f 1) s)

/-- `brl` (R287). -/
def execBrl (h : Hdr) (off : BitVec 19) (s : State) : Host.Outcome State Fault Refusal :=
  .next (uniOp h [] (fun c s =>
    let n := rotSize c.p.rsz
    let lc := if c.p.lcnt.toNat > 0 then c.p.lcnt - 1 else 0
    let s := s.modFrag c.f (fun p => { p with turn := if n = 0 then p.turn else (p.turn + 1) % n, lcnt := lc })
    if lc.toNat > 0 then jumpTo s c (relTarget c.p.pc off) else finish s c.f 1) s)

/-- `exit` (R196, R288). Where no active thread ends, as with an empty active mask, it does nothing to the suspended threads (R197; log entry 103). -/
def execExit (h : Hdr) (s : State) : Host.Outcome State Fault Refusal :=
  .next ((begin h.sw (kRegs [guardOpd h]) s).run (fun c s =>
    (checkPois c h false [] [] s).run (fun c s =>
      let go := maskOf (acting c h)
      if resultsOut s c.p.uid || banksOut s c.p.uid then hold s c.f .marker
      else if go == 0 then finish (progress s c.f) c.f 1
      else if c.p.am &&& ~~~go == 0 && c.p.sm != 0 then badConv s c.f 4
      else exitThreads (finish (progress s c.f) c.f 1) c.f go false)))

/-- `rgn` (R289). -/
def execRgn (h : Hdr) (s : State) : Host.Outcome State Fault Refusal :=
  .next (uniOp h [] (fun c s =>
    finish (s.modFrag c.f (fun p => { p with regionpc := p.pc, regioncnt := p.regioncnt + 1 })) c.f 1) s)

/-- The width of a special-register read: its destination's (R206). -/
def rdsW (d : Opd) : Nat := match d with | .w _ => 32 | _ => 64

/-- `rds` (R206, R290). -/
def execRds (h : Hdr) (d : Opd) (ix : BitVec 5) (s : State) : Host.Outcome State Fault Refusal :=
  .next (alu h d (rdsW d) [⟨.sp ix, rdsW d, .int⟩] (fun _ => 1) none 0 (fun _ _ v => plain (arg v 0)) s)

/-- `rds.id` (R291). -/
def execRdsId (h : Hdr) (d : Opd) (ix : BitVec 5) (s : State) : Host.Outcome State Fault Refusal :=
  .next (alu h d (rdsW d) [] (fun _ => 1) none 0
    (fun c _ _ => plain ((if ix = 0 then (s.die c.f.die).rev else (s.die c.f.die).feat).toNat % 2 ^ rdsW d)) s)

/-- `wrs` (R173, R179, R196, R206, R290). -/
def execWrs (h : Hdr) (ix : BitVec 5) (src : Opd) (s : State) : Host.Outcome State Fault Refusal :=
  .next (uniOp h [src] (fun c s =>
    let v : W64 := BitVec.ofNat 64 (opVal s c true 0 ⟨src, 64, .int⟩)
    let lo : W32 := v.truncate 32
    if ix = 7 then
      finish (s.modFrag c.f (fun p => { p with am := p.am &&& lo, sm := p.sm ||| (p.am &&& ~~~lo) })) c.f 1
    else if ix = 26 then finish (s.modWarp c.f (fun w => { w with srix := lo })) c.f 1
    else if ix = 27 then finish (s.modWarp c.f (fun w => { w with fpstat := w.fpstat &&& ~~~(v.truncate 5) })) c.f 1
    else illegal s c.f) s)

/-! ### Pair words (R220 to R223) -/

/-- How a half reads its immediates. -/
def hopKind : Hop → Kind
  | .fadd | .fsub | .fmul | .fmin | .fmax => .flt .f32
  | .h2addF16 | .h2mulF16 | .h2minF16 | .h2maxF16 => .packed .f16
  | .h2addBf16 | .h2mulBf16 => .packed .bf16
  | _ => .int

/-- The sources of a half. -/
def hopSrcs (p : Half) : List Src :=
  match p.op with
  | .nop => []
  | .mov => [⟨p.a, 32, .int⟩]
  | op => [⟨p.a, 32, hopKind op⟩, ⟨p.b, 32, hopKind op⟩]

/-- A packed half under RNE. -/
def hopPacked (f : FFmt) (op : FV → FV → FV) (x y : Nat) : Res :=
  let el (e : Nat) : Res :=
    let a := fdecode f (half x e)
    let b := fdecode f (half y e)
    fresult f .rne false false [a, b] (op a b)
  joinRes (el 0) (el 1)

/-- A packed minimum or maximum half. -/
def hopPackedMm (f : FFmt) (mx : Bool) (x y : Nat) : Res :=
  let el (e : Nat) : Res := plain (minmax f false mx (half x e) (half y e))
  joinRes (el 0) (el 1)

/-- An f32 half under RNE (R222). -/
def hopF32 (fl : Bool) (op : FV → FV → FV) (x y : Nat) : Res :=
  let a := fread fl .f32 x
  let b := fread fl .f32 y
  fresult .f32 .rne false fl [a, b] (op a b)

/-- The result of a half (R222, R223). -/
def hopRes (op : Hop) (fl : Bool) (v : List Nat) : Res :=
  let x := arg v 0
  let y := arg v 1
  match op with
  | .nop => plain 0
  | .iadd => fin 32 false false (sgn 32 x + sgn 32 y)
  | .isub => fin 32 false false (sgn 32 x - sgn 32 y)
  | .and => plain (x &&& y)
  | .or => plain (x ||| y)
  | .xor => plain (x ^^^ y)
  | .shl => plain (x * 2 ^ (y % 32) % 2 ^ 32)
  | .shr => plain (x / 2 ^ (y % 32))
  | .sar => plain (wrapN 32 (sgn 32 x / (2 ^ (y % 32) : Nat)))
  | .imin => plain (if sgn 32 x ≤ sgn 32 y then x else y)
  | .imax => plain (if sgn 32 x ≤ sgn 32 y then y else x)
  | .mov => plain x
  | .imul => fin 32 false false (sgn 32 x * sgn 32 y)
  | .fadd => hopF32 fl (fun a b => FV.add a b false) x y
  | .fsub => hopF32 fl (fun a b => FV.add a b.neg false) x y
  | .fmul => hopF32 fl FV.mul x y
  | .fmin => plain (minmax .f32 fl false x y)
  | .fmax => plain (minmax .f32 fl true x y)
  | .h2addF16 => hopPacked .f16 (fun a b => FV.add a b false) x y
  | .h2mulF16 => hopPacked .f16 FV.mul x y
  | .h2minF16 => hopPackedMm .f16 false x y
  | .h2maxF16 => hopPackedMm .f16 true x y
  | .h2addBf16 => hopPacked .bf16 (fun a b => FV.add a b false) x y
  | .h2mulBf16 => hopPacked .bf16 FV.mul x y

/-- The acting threads of a half: once for a k destination, every active thread otherwise (R218, R222). -/
def halfThreads (c : Ctx) (p : Half) : List Nat :=
  match p.op, p.d with
  | .nop, _ => []
  | _, .k _ => [0]
  | _, _ => maskList c.p.am

/-- The results of a half (R222). -/
def halfRes (s : State) (c : Ctx) (p : Half) : List Res :=
  (halfThreads c p).map (fun t =>
    hopRes p.op c.g.ftz ((hopSrcs p).map (fun x => opVal s c p.d.isK t x)))

/-- Writes a half's results. -/
def halfWrite (s : State) (c : Ctx) (p : Half) (rs : List Res) : State :=
  match p.op with
  | .nop => s
  | _ => setFlags (writeDst s c p.d 32 (halfThreads c p) (rs.map (·.v))) c.f (rs.foldl (fun a r => a ||| r.fl) 0)

/-- A half acts once or not at all, so it costs no lane cycles of its own (R222). -/
def halfUni (p : Half) : Bool := p.op == .nop || p.d.isK

/-- A poisoned operand of a half. -/
def halfPois (c : Ctx) (p : Half) : Option Opd := firstPois c (halfThreads c p) ((hopSrcs p).map (·.o))

/-- A pair word (R222): both halves read before either writes. -/
def execPairWord (sw : Bool) (p0 p1 : Half) (s : State) : Host.Outcome State Fault Refusal :=
  .next ((begin sw (kRegs ((hopSrcs p0 ++ hopSrcs p1).map (·.o))) s).run (fun c s =>
    match halfPois c p0, halfPois c p1 with
    | some o, _ => poisTrap s c.f o
    | none, some o => poisTrap s c.f o
    | none, none =>
      let r0 := halfRes s c p0
      let r1 := halfRes s c p1
      let s := halfWrite (halfWrite s c p0 r0) c p1 r1
      finish s c.f (if halfUni p0 && halfUni p1 then 1 else laneCycles (maskCount c.p.am))))

/-! ### The former (R192 to R195) -/

/-- No slot of the workgroup can issue (R194). -/
def noneIssues (g : Wg) : Bool :=
  g.warps.all (fun w => (!w.2.s0.occ || w.2.s0.wait != .none) && (!w.2.s1.occ || w.2.s1.wait != .none))

/-- A bin is ripe (R194). -/
def binIsRipe (g : Wg) (b : Bin) : Bool := b.ripe || b.recs.length ≥ 32 || noneIssues g

/-- The ripe bin whose first record is oldest (R194). -/
def ripeBin (g : Wg) : Option Bin :=
  (sortBy (fun a b => decide (((a.recs.head?).map (·.1)).getD 0 < ((b.recs.head?).map (·.1)).getD 0))
    (g.bins.filter (fun b => binIsRipe g b && !b.recs.isEmpty))).head?

/-- The bytes and the poisoned units of a record; `none` while the location is held up (R193). -/
def spawnRead (s : State) (a : Agent) (core : Nat) (r : SpawnRec) : Except AErr (State × List Byte × List Nat) :=
  if r.inScr then
    let c := s.core a.die core
    .ok (s, scrRead c r.addr 160, (List.range 20).filter (fun u => scrPois c (r.addr + 8 * u) 8))
  else
    (List.range 20).foldlM (fun (x : State × List Byte × List Nat) u => do
      let (s, b, p) ← vread x.1 a (r.addr + 8 * u) 8
      return (s, x.2.1 ++ b, if p then x.2.2 ++ [u] else x.2.2)) (s, [], [])

/-- The thread that a record starts (R192, R194). -/
def spawnThr (bs : List Byte) (ps : List Nat) : Thr :=
  let dep := fieldAt bs 136 1
  let x : Thr := { tid := fieldAt bs 124 4, live := true, dep := dep, res := max 1 (fieldAt bs 137 1) }
  (List.range 31).foldl (fun x i =>
    x.put (physKey x (i + 1)) (BitVec.ofNat 32 (fieldAt bs (4 * i) 4)) (ps.contains (i / 2))) x

/-- The launch image as a k file (R194). -/
def kOfImage (img : List W64) : Tab W64 := (img.zipIdx).foldl (fun t p => Tab.put t (p.2 + 1) p.1 0) []

/-- A warp started in slot `i` (R194). -/
def startedWarp (g : Wg) (b : Bin) (i uid : Nat) (thr : List Thr) (flt : Option FaultRec) : Warp :=
  { s0 := { occ := true, uid := uid, pc := b.pc, am := maskOf (List.range thr.length), lcnt := b.lcnt, turn := b.turn
            rsz := b.rsz, parentid := 0xFFFFFFFE, fault := flt }
    thr := thr ++ List.replicate (32 - thr.length) ({} : Thr)
    k := kOfImage g.kimg, area := i, wuid := uid }

/-- Reads the records that a warp starts from, or says what holds a read up. -/
def readRecs (a : Agent) (core : Nat) : List SpawnRec → State → List Thr → Option FaultRec → Except Held (State × List Thr × Option FaultRec)
  | [], s, ts, flt => .ok (s, ts, flt)
  | r :: rs, s, ts, flt =>
    match spawnRead s a core r with
    | .ok (s, b, p) => readRecs a core rs s (ts ++ [spawnThr b p]) flt
    | .error (.busy h) => .error h
    | .error e =>
      readRecs a core rs s (ts ++ [{ live := true }]) (flt.orElse (fun _ => some ⟨e.cause, BitVec.ofNat 64 r.addr, 0, 0, 0⟩))

/-- The former starts a warp from the oldest ripe bin (R194). It holds a walker while one of its reads stands at a page-busy leaf (R60). -/
def execFormerStartWarp (die core wg : Nat) (s : State) : Host.Outcome State Fault Refusal :=
  .next (match s.wg? die wg with
    | none => s
    | some g =>
      if g.core != core || !g.resident then s
      else
        match freeSlot g, ripeBin g with
        | some i, some b =>
          let recs := b.recs.take 32
          let a : Agent := { die := die, core := some core, l1 := true, holds := g.fwalk, who := .former die wg }
          (match readRecs a core (recs.map (·.2)) s [] none with
            | .error h => (noteHeld s h).modWg die wg (fun g => { g with fwalk := h == .page })
            | .ok (s, ts, flt) =>
              let (uid, s) := s.fresh
              let rest := { b with recs := b.recs.drop 32 }
              let same (x : Bin) : Bool := x.pc == b.pc && x.lcnt == b.lcnt && x.turn == b.turn && x.rsz == b.rsz
              s.modWg die wg (fun g =>
                { g with
                  fwalk := false
                  warps := Tab.set g.warps i (startedWarp g b i uid ts flt)
                  bins := (g.bins.map (fun x => if same x then rest else x)).filter (fun x => !x.recs.isEmpty) }))
        | _, _ => s)

/-- A bin ripens 1,024 cycles after its last record (R194). -/
def execBinRipe (die core wg bin : Nat) (s : State) : Host.Outcome State Fault Refusal :=
  .next (match s.wg? die wg with
    | none => s
    | some g =>
      match g.bins[bin]? with
      | some b =>
        if g.core == core && s.cycOf die core ≥ b.last + 1024 then
          s.modWg die wg (fun g => { g with bins := listMod g.bins bin (fun b => { b with ripe := true }) })
        else s
      | none => s)

end Sys2Proof.Machine
end

