-- ==== Sys2Proof/Machine/Trans.lean ====
section
/-! DEFINITION. Translation through the TLBs and walk caches (02 R56 to R60), and the fetch of instruction words
(08 R211, R212). -/

namespace Sys2Proof.Machine

/-- Removes the TLB entries that satisfy `p` on every core and cluster of a die, and empties the walk caches (R58). -/
def shootdown (s : State) (d : Nat) (p : TlbEnt → Bool) : State :=
  s.modDie d (fun x =>
    { x with
      cores := x.cores.map (fun e => (e.1, { e.2 with tlb := e.2.tlb.filter (fun t => !p t) }))
      clusters := x.clusters.map (fun e => (e.1, { e.2 with
        tlb2 := e.2.tlb2.filter (fun t => !p t), big := e.2.big.filter (fun t => !p t), walkc := [] })) })

/-- What fetching the word at an address gives. -/
inductive Fetched where
  | word (w : W64) (s : State)
  /-- a stalled port, no free walker, a busy frame, or a page-busy leaf, at which the fetch holds a walker (R60) -/
  | wait (h : Held)
  | fault (cause : Nat)
  deriving Repr, Inhabited

/-- The word of a translated address: the instruction cache's, which stores do not update, or memory's: the home's, so that released text is fetched
as written, unless the page is private to the cluster (R212). A word that the core has not fetched before is memory's (log entry 104). -/
def fetchPhys (s : State) (d c : Nat) (p : Phys) : W64 × State :=
  let mem : W64 := BitVec.ofNat 64 (
    match if p.sl == 0 then lineAt s d (c / 8) (p.pa / 128) else none with
    | some l => fieldAt l.data (p.pa % 128) 8
    | none => rdN s p.pa 8)
  match Tab.get? (s.core d c).icache p.pa with
  | some old =>
    if old == mem then (mem, s)
    else
      let (keep, s) := s.takeBool
      if keep then (old, s) else (mem, s.modCore d c (fun x => { x with icache := Tab.set x.icache p.pa mem }))
  | none => (mem, s.modCore d c (fun x => { x with icache := Tab.set x.icache p.pa mem }))

/-- Fetches the word at `pc` with a translation in hand. -/
def fetchWith (s : State) (a : Agent) (c : Nat) (pc : Nat) (t : TlbEnt) : Fetched :=
  match leafUse s a.die pc .x t with
  | .error e => .fault e.cause
  | .ok p =>
    match reach s a pc p with
    | some (.busy h) => .wait h
    | some e => .fault e.cause
    | none => let r := fetchPhys (letGo s a.who pc) a.die c p; .word r.1 r.2

/-- Fetches the word at `pc` (R18, R211, R212): through the TLBs, or by a walk of a free walker, or of the one it holds (R60). -/
def fetchWord (s : State) (a : Agent) (c : Nat) (pc : Nat) : Fetched :=
  let d := a.die
  if pc ≥ 2 ^ 57 || !(s.die d).pgroot.getLsbD 0 then .fault 1
  else
    match tlbFind s d c pc with
    | some t => fetchWith s a c pc t
    | none =>
      if !a.holds && walkersHeld s d (c / 8) ≥ 16 then .wait .unit
      else match walk s d (s.cluster d (c / 8)).walkc pc with
      | .fault => .fault 1
      | .busy => .wait .page
      | .ok t used dir =>
        let s := touchEntries s used t.at_ .x
        fetchWith (walkFill (tlbFill s d c t) d c dir) a c pc t

/-! ### Traps that are due (R209, R420) -/

/-- Its pre-emption is put off: in a handler with traps masked, or deferred (R420). -/
def Frag.defers (p : Frag) : Bool := (p.inH && p.masked) || p.pdef || p.sys

/-- The watchdog trap that the fragment has to take; one that another trap put off waits while traps are masked (R209, R436; log entry 101). -/
def Frag.wdDue (p : Frag) : Option W64 := if p.masked then p.wdt else p.wdt.or p.wdHeld

/-- The watchdog trap (R209, R413): the branch's address, and the address the fragment would issue next. -/
def takeWatchdog (s : State) (f : FragRef) : State :=
  match s.frag? f with
  | some p =>
    match p.wdDue with
    | some br => takeTrap s f 0x18 br p.pc false true
    | none => s
  | none => s

end Sys2Proof.Machine
end

