-- ==== Sys2Proof/Machine/Access.lean ====
section
/-! DEFINITION. Accesses in flight: translation, the L1 and the cluster store, the homes, responses, fills, faults, and the
writing of results (02 R31, R34, R41 to R49, R56 to R60; 03 R65, R70 to R73; 05 R130 to R138; 12 R297 to R303; 18 R432). -/

namespace Sys2Proof.Machine

/-! ### Paths -/

/-- The access of an identity. -/
def State.acc? (s : State) (id : Nat) : Option Acc := s.accs.find? (fun a => a.id == id)

/-- Changes an access. -/
def State.modAcc (s : State) (id : Nat) (g : Acc → Acc) : State :=
  { s with accs := s.accs.map (fun a => if a.id == id then g a else a) }

/-- Removes an access. -/
def State.dropAcc (s : State) (id : Nat) : State := { s with accs := s.accs.filter (fun a => a.id != id) }

/-- Puts an access at the end of the list: the order in which a cluster sends its writes (R138). -/
def State.sendAcc (s : State) (a : Acc) : State := { s with accs := s.accs.filter (fun x => x.id != a.id) ++ [a] }

/-- Is it an atomic? -/
def AKind.atomic : AKind → Bool
  | .atom _ _ | .cas _ => true
  | _ => false

/-- Is it a prefetch? -/
def AKind.isPref : AKind → Bool
  | .pref _ => true
  | _ => false

/-- The right an access needs (R23). -/
def AKind.want : AKind → Want
  | .store | .storeNt => .w
  | .atom _ _ | .cas _ => .at
  | _ => .r

/-! ### Values (R295, R297, R301 to R303) -/

/-- Bytes of an access size (R295). -/
def szBytes : Sz → Nat
  | .n8 | .i8 => 1
  | .n16 | .i16 => 2
  | .b32 | .i32x => 4
  | .b64 => 8

/-- A loaded value, extended to 64 bits (R297). -/
def loadExt (sz : Sz) (v : Nat) : W64 :=
  match sz with
  | .i8 => BitVec.ofNat 64 (wrapN 64 (sgn 8 v))
  | .i16 => BitVec.ofNat 64 (wrapN 64 (sgn 16 v))
  | .i32x => BitVec.ofNat 64 (wrapN 64 (sgn 32 v))
  | _ => BitVec.ofNat 64 v

/-- Width of an atomic type (R301). -/
def atyW : ATy → Nat
  | .i64 | .n64 => 64
  | _ => 32

/-- Is the type natural? -/
def atyNat : ATy → Bool
  | .n32 | .n64 => true
  | _ => false

/-- The new value of an atomic and its flags (R302). -/
def atomNew (ty : ATy) (op : AOp) (old b : Nat) : Res :=
  let w := atyW ty
  let x := old % 2 ^ w
  let y := b % 2 ^ w
  match ty, op with
  | _, .exch => plain y
  | _, .and => plain (x &&& y)
  | _, .or => plain (x ||| y)
  | _, .xor => plain (x ^^^ y)
  | .f32, .add =>
    let u := fdecode .f32 x
    let v := fdecode .f32 y
    fresult .f32 .rne false false [u, v] (FV.add u v false)
  | .f32, .min => plain (minmax .f32 false false x y)
  | .f32, .max => plain (minmax .f32 false true x y)
  | _, .add => plain ((x + y) % 2 ^ w)
  | _, .min => plain (if ival w (atyNat ty) x ≤ ival w (atyNat ty) y then x else y)
  | _, .max => plain (if ival w (atyNat ty) x ≤ ival w (atyNat ty) y then y else x)

/-- The value an atomic or compare-and-swap writes, if it writes one, and its flags. -/
def rmwNew (k : AKind) (val : W64) (n old : Nat) : Option Nat × BitVec 5 :=
  match k with
  | .atom ty op => let r := atomNew ty op old val.toNat; (some r.v, r.fl)
  | .cas cmp => (if old = cmp.toNat % 2 ^ (8 * n) then some (val.toNat % 2 ^ (8 * n)) else none, 0)
  | _ => (some (val.toNat % 2 ^ (8 * n)), 0)

/-- An atomic that a host's completer performs (R34). -/
def hostAtomOk : AKind → Bool
  | .atom .f32 _ => false
  | .atom _ .add => true
  | .atom _ .exch => true
  | .atom _ _ => false
  | _ => true

/-! ### Faults -/

/-- An access ends in a fault; a prefetch does nothing instead (R298, R307). -/
def failAcc (s : State) (a : Acc) (cause : Nat) : State :=
  if a.kind.isPref then s.dropAcc a.id
  else s.modAcc a.id (fun a => { a with st := .bad cause (BitVec.ofNat 64 a.va), tracked := false })

/-- A poisoned location of an atomic (R432). -/
def poisonAtom (s : State) (a : Acc) : State := countCons (failAcc s a 0x12) a.frag.die

/-! ### The core and its cluster store (R65, R70, R71, R302) -/

/-- A load has its value (R133). -/
def gotLoad (s : State) (a : Acc) (bs : List Byte) (p : Bool) : State :=
  let (bs, s) := if a.al then (bs, s) else readAs s a.pa bs
  s.modAcc a.id (fun a => { a with val := (match a.kind with | .load sz => loadExt sz (leNat bs) | _ => BitVec.ofNat 64 (leNat bs))
                                   vpois := p, st := .done })

/-- A successful compare-and-swap is a progress point of its fragment when its response returns (R209, R303). -/
def casProgress (s : State) (a : Acc) : State :=
  match a.kind with
  | .cas cmp =>
    if a.val2.toNat = cmp.toNat % 2 ^ (8 * a.n) && (s.frag? a.frag).any (fun p => p.uid == a.uid) then progress s a.frag else s
  | _ => s

/-- Performs a read-modify-write or store of a cluster-private line that is present (R70, R302). -/
def onLine (s : State) (a : Acc) (l : Line) : State :=
  let d := a.frag.die
  let c := a.frag.core
  let li := a.pa / 128
  let o := a.pa % 128
  if a.kind.atomic && l.isPois o a.n then poisonAtom s a
  else
    let (ob, s) := if a.kind.atomic then readAs s a.pa (bytesAt l.data o a.n) else ([], s)
    let old := leNat ob
    let (nv, fl) := rmwNew a.kind a.val a.n old
    let s := match nv with
      | some v =>
        let bs := leBytes a.n v
        let s := (noteWrite s a.pa bs).modCluster d (c / 8) (fun x => { x with lines := Tab.set x.lines li { l.put o bs (a.vpois && !a.kind.atomic) with dirty := true } })
        l1Put s d c li o bs (a.vpois && !a.kind.atomic)
      | none => s
    let s := setFlagsOf s d a.frag.wg a.wuid fl
    if a.kind.atomic then s.modAcc a.id (fun a => { a with val2 := BitVec.ofNat 64 old, st := .done }) else s.dropAcc a.id

/-- A tracked region of the cluster, or room for another of its 256 entries (R71). -/
def trackRoom (s : State) (a : Acc) (pa : Nat) : Bool :=
  let rs := (s.accs.filter (fun x => x.tracked && x.frag.die == a.frag.die && x.frag.core / 8 == a.frag.core / 8)).map (fun x => x.pa / 4096)
  rs.contains (pa / 4096) || rs.eraseDups.length < 256

/-- Where an access stands that its home is asked for again: a fill, or a request of its own (R42, R48, R49). -/
def Acc.again (a : Acc) : ASt := if a.al || a.sl == 2 || a.kind == .storeNt || (a.sl == 1 && a.kind.writes) then .home else .fill

/-- Sends a write to its home: at the end of its cluster's path, or in the place it has already had there (R48, R138). -/
def State.sendWrite (s : State) (a : Acc) (moved : Bool) : State := if moved then s.modAcc a.id (fun _ => a) else s.sendAcc a

/-- Sends a write of a die-shared page to its home (R71, R302). -/
def sendShared (s : State) (a : Acc) : State :=
  let d := a.frag.die
  let c := a.frag.core
  let li := a.pa / 128
  if !trackRoom s a a.pa then s.modAcc a.id (fun a => { a with st := .walk })
  else
    let s := flashFills s d (c / 8) (fun x => x.pa / 128 == li)
    let s :=
      if a.kind.atomic then
        l1Drop (dropLines s d (c / 8) (fun e => e.1 == li)) d c li
      else
        let bs := leBytes a.n a.val.toNat
        let s := s.modCluster d (c / 8) (fun x => { x with lines := Tab.modify x.lines li (fun l => l.put (a.pa % 128) bs a.vpois) })
        l1Put s d c li (a.pa % 128) bs a.vpois
    s.sendAcc { a with st := .home, tracked := true }

/-- An access whose page has been found goes on (R24, R65, R70, R71, R300, R302, R307). -/
def proceed (s : State) (a : Acc) (p : Phys) : State :=
  let d := a.frag.die
  let c := a.frag.core
  let li := p.pa / 128
  let a := { a with pa := p.pa, sl := p.sl, al := p.al, route := routeOf s d p.peer p.pa, rerouted := false
                    kind := if p.al && a.kind == .storeNt then .store else a.kind }
  let s := (noteUse s d (c / 8) p).modAcc a.id (fun _ => a)
  if a.oldPa == some p.pa then failAcc s a 1
  else
    let moved := a.oldPa.isSome
    let s := s.modAcc a.id (fun x => { x with oldPa := none })
    let a := { a with oldPa := none }
    match a.kind with
    | .pref l1 =>
      if p.al || p.sl == 2 then s.dropAcc a.id
      else
        match lineAt s d (c / 8) li with
        | some l => (if l1 then l1Install s d c li l else s).dropAcc a.id
        | none => s.modAcc a.id (fun a => { a with st := .fill })
    | .load _ =>
      if p.al || p.sl == 2 then s.sendAcc { a with st := .home }
      else
        match (s.core d c).l1.find? (fun e => e.1 == li) with
        | some e => gotLoad s a (bytesAt e.2.data (p.pa % 128) a.n) (e.2.isPois (p.pa % 128) a.n)
        | none =>
          match lineAt s d (c / 8) li with
          | some l => gotLoad (l1Install s d c li l) a (bytesAt l.data (p.pa % 128) a.n) (l.isPois (p.pa % 128) a.n)
          | none => s.modAcc a.id (fun a => { a with st := .fill })
    | .store | .atom _ _ | .cas _ =>
      if p.al || p.sl == 2 then s.sendWrite { a with st := .home } moved
      else if p.sl == 1 then (if a.tracked then s.sendWrite { a with st := .home } true else sendShared s a)
      else
        match lineAt s d (c / 8) li with
        | some l => onLine s a l
        | none => s.modAcc a.id (fun a => { a with st := .fill })
    | .storeNt => s.sendWrite { a with st := .home } moved
    | .dir _ | .value => s

/-- The checks on a leaf, and the access's course through it (R21, R23, R25, R298). -/
def withLeaf (s : State) (a : Acc) (t : TlbEnt) : State :=
  match leafUse s a.frag.die a.va a.kind.want t with
  | .error e => failAcc s a e.cause
  | .ok p => proceed (if a.kind.writes then setDirty s a.frag.die a.frag.core t else s) a p

/-- A translation that the TLBs hold (R56). -/
def tryTlb (s : State) (id : Nat) : State :=
  match s.acc? id with
  | none => s
  | some a =>
    if a.va ≥ 2 ^ 57 || !(s.die a.frag.die).pgroot.getLsbD 0 then failAcc s a 1
    else
      match tlbFind s a.frag.die a.frag.core a.va with
      | some t => withLeaf s a t
      | none => s

/-- A walk of an access completes (R19 to R22, R57, R60). It sets `ac` where it reaches a leaf that is not busy (log entry 93). -/
def walkAcc (s : State) (a : Acc) : State :=
  let d := a.frag.die
  let c := a.frag.core
  match walk s d (s.cluster d (c / 8)).walkc a.va with
  | .fault => failAcc s a 1
  | .busy => if a.kind.isPref then s.dropAcc a.id else s.modAcc a.id (fun a => { a with st := .busyWalk })
  | .ok t used dir =>
    let s := touchEntries s used t.at_ .r
    withLeaf (walkFill (tlbFill s d c t) d c dir) a t

/-- `PAGE_WALK`: a walker completes a table walk, or the access finds its leaf in a TLB (R56, R60). -/
def execPageWalk (id : Nat) (s : State) : Host.Outcome State Fault Refusal :=
  .next (match s.acc? id with
    | none => s
    | some a =>
      if a.st != .walk then s
      else if a.va ≥ 2 ^ 57 || !(s.die a.frag.die).pgroot.getLsbD 0 then failAcc s a 1
      else if (tlbFind s a.frag.die a.frag.core a.va).isSome then tryTlb s id
      else if walkersHeld s a.frag.die (a.frag.core / 8) ≥ 16 then s
      else walkAcc s a)

/-- `WALK_RESUME`: a walk stalled on a page-busy leaf walks again (R28, R60). -/
def execWalkResume (id : Nat) (s : State) : Host.Outcome State Fault Refusal :=
  .next (match s.acc? id with
    | some a => if a.st == .busyWalk then walkAcc s a else s
    | none => s)

/-! ### The home (R31, R33, R34, R43, R47, R49, R132, R138) -/

/-- A request enters the busy table of its home. -/
def busyPut (s : State) (pa id : Nat) : State := modHome s pa (fun k => { k with held := k.held ++ [id] })

/-- An earlier write of the same cluster to the same home, or an earlier one to the same bytes, has not been performed (R138). Non-temporal stores
travel apart (R148). -/
def pathHeld (s : State) (a : Acc) : Bool :=
  a.kind != .storeNt &&
  (s.accs.takeWhile (fun x => x.id != a.id)).any (fun x => x.onPath s a.frag.die (a.frag.core / 8) a.pa (a.spans s))

/-- The bytes of a virtual word lie at a physical address, as the tables of its die stand. -/
def mapsTo (s : State) (d va pa : Nat) : Bool :=
  match walk s d [] va with
  | .ok t _ _ => pteAddr t.leaf + (va - t.va) == pa
  | _ => false

/-- An atomic at the home of an 8-byte word has left a value in it: the beaters whose `WAIT_SIGNAL` names the word read it again (R387; log
entry 63). -/
def signalSet (s : State) (pa : Nat) : State :=
  let v := rdN s pa 8
  let seen (d : Nat) (q : HQueue) : HQueue :=
    { q with blocked := q.blocked.map (fun w =>
        if waitHolds w.cond v w.val.toNat && mapsTo s d w.addr.toNat pa then { w with met := true } else w) }
  { s with dies := s.dies.mapIdx (fun d x => { x with queues := x.queues.map (fun e => (e.1, seen d e.2)) }) }

/-- A non-temporal store is performed at its home: a line of its cluster-private page takes the bytes too, and fills of the line on their way back read the
home again, so that no write-back undoes it (R132, R148; log entry 29). -/
def ntMeet (s : State) (a : Acc) : State :=
  let d := a.frag.die
  let cl := a.frag.core / 8
  let li := a.pa / 128
  let s := refetch s d cl (fun x => x == li)
  match lineAt s d cl li with
  | some l =>
    if l.dsh then s
    else s.modCluster d cl (fun x => { x with lines := Tab.set x.lines li (l.put (a.pa % 128) (leBytes a.n a.val.toNat) a.vpois) })
  | none => s

/-- Performs an access at its home. -/
def performHome (s : State) (a : Acc) : State :=
  match a.kind with
  | .load _ =>
    if a.al then
      match aliasRead s a.pa a.n with
      | some bs => gotLoad s a bs (aliasPois s a.pa a.n)
      | none => failAcc s a 2
    else gotLoad s a (rdBytes s a.pa a.n) (isPois s a.pa a.n)
  | .store | .storeNt =>
    let bs := leBytes a.n a.val.toNat
    if a.al then
      match aliasWrite s a.pa bs a.vpois with
      | some s => s.modAcc a.id (fun a => { a with st := .ack })
      | none => failAcc s a 2
    else
      let s := wrBytes s a.pa bs
      let s := if a.vpois then setPois s a.pa a.n else s
      let s := if a.kind == .storeNt then ntMeet s a else s
      s.modAcc a.id (fun a => { a with st := .ack })
  | .atom _ _ | .cas _ =>
    let no := inHost a.pa && (!hostAtomOk a.kind || Config.freeBool s.freeIx)
    let s := if inHost a.pa then { s with freeIx := s.freeIx + 1 } else s
    if no then failAcc s a 2
    else if isPois s a.pa a.n then poisonAtom s a
    else
      let (ob, s) := readAs s a.pa (rdBytes s a.pa a.n)
      let old := leNat ob
      let (nv, fl) := rmwNew a.kind a.val a.n old
      let s := match nv with
        | some v => signalSet (wrN s a.pa a.n v) (a.pa / 8 * 8)
        | none => s
      (setFlagsOf s a.frag.die a.frag.wg a.wuid fl).modAcc a.id (fun a => { a with val2 := BitVec.ofNat 64 old, st := .ack })
  | _ => s

/-- A request meets its port and its home. -/
def homeAcc (s : State) (a : Acc) : State :=
  let d := a.frag.die
  let meets : Bool := match a.st with
    | .home => !(a.kind.writes && pathHeld s a)
    | .fill => !lineTracked s d (a.frag.core / 8) (a.pa / 128)
    | _ => false
  if !meets then s
  else
    match port s d a.route a.pa a.exempt with
    | .stall => s
    | .notOwner => s.modAcc a.id (fun a => { a with st := .notOwner })
    | .refused => failAcc s a 2
    | .ok =>
      if frameBusy s a.pa then
        if busyFull s a.pa then s.modAcc a.id (fun a => { a with st := .retry })
        else (busyPut s a.pa a.id).modAcc a.id (fun a => { a with st := .held })
      else if a.st == .fill then
        let l := lineFromHome s (a.pa / 128) (a.sl == 1)
        s.modAcc a.id (fun a => { a with st := .filled l.data l.pois })
      else performHome s a

/-- An earlier posted write on the same route has not been performed, and no busy frame holds it (R160). -/
def inbAhead (s : State) (b : Inb) : Bool :=
  (s.inb.takeWhile (fun x => x.id != b.id)).any (fun x => x.rd.isNone && x.sent && x.route == b.route && !x.done && !x.busy && !b.ro && !x.ro)

/-- An inbound request of the host meets its port and its home (R42, R448, R450). -/
def homeInb (s : State) (b : Inb) : State :=
  let upd (g : Inb → Inb) : State := { s with inb := s.inb.map (fun x => if x.id == b.id then g x else x) }
  if !b.sent || b.done || b.busy || inbAhead s b then s
  else
    match port s b.route b.route b.addr false with
    | .stall | .refused => s
    | .notOwner =>
      match stackOf b.addr with
      | some i => if b.rerouted then s else upd (fun x => { x with rerouted := true, route := otherDie i b.route })
      | none => s
    | .ok =>
      if frameBusy s b.addr then (if busyFull s b.addr then s else busyPut (upd (fun x => { x with busy := true })) b.addr b.id)
      else
        match b.rd with
        | some n => { s with inb := s.inb.filter (fun x => x.id != b.id), cpls := ⟨b.req, b.addr, some (rdBytes s b.addr n)⟩ :: s.cpls }
        | none =>
          let s := wrBytes s b.addr b.data
          { s with inb := s.inb.map (fun x => if x.id == b.id then { x with done := true, busy := false } else x) }

/-- A non-temporal store is acknowledged: a line of its address that is present leaves the cluster store as on an eviction, so that no other byte of a dirty
line is lost (R73, R300; log entry 29). It waits while a dirty line cannot be written back. -/
def ntDrop (s : State) (a : Acc) : State :=
  let d := a.frag.die
  let cl := a.frag.core / 8
  let li := a.pa / 128
  let drop (s : State) : State := (flashFills (l1Drop s d a.frag.core li) d cl (fun x => x.pa / 128 == li)).dropAcc a.id
  match lineAt s d cl li with
  | some l =>
    if canDrop s d (li, l) then drop (dropLine s d cl li l) else s
  | none => drop s

/-- `WRITE_ACKNOWLEDGE`: the home's acknowledgement arrives (R33, R71, R449). -/
def execWriteAcknowledge (id : Nat) (s : State) : Host.Outcome State Fault Refusal :=
  .next (match s.acc? id with
    | some a =>
      if a.st != .ack then s
      else if a.kind.atomic then s.modAcc id (fun a => { a with st := .done, tracked := false })
      else if a.kind == .storeNt then ntDrop s a
      else s.dropAcc id
    | none =>
      match s.inb.find? (fun b => b.id == id) with
      | some b => if b.done then { s with inb := s.inb.filter (fun x => x.id != id) } else s
      | none => s)

/-- `NOT_OWNER_RESPONSE`: re-routed once for a peer access, else the not-owner trap (R31, R42). -/
def execNotOwnerResponse (id : Nat) (s : State) : Host.Outcome State Fault Refusal :=
  .next (match s.acc? id with
    | some a =>
      if a.st != .notOwner then s
      else
        match stackOf a.pa with
        | some i =>
          if bitAt a.va 56 && !a.rerouted then
            s.modAcc id (fun a => { a with st := a.again, rerouted := true, route := otherDie i a.route })
          else failAcc s a 3
        | none => failAcc s a 3
    | none => s)

/-- `MOVED_RESPONSE`: the access is translated again and reissued; the tracker still holds it (R48, R71). -/
def execMovedResponse (id : Nat) (s : State) : Host.Outcome State Fault Refusal :=
  .next (match s.acc? id with
    | some a => if a.st == .movedResp then s.modAcc id (fun a => { a with st := .walk, oldPa := some a.pa }) else s
    | none => s)

/-- `BUSY_RETRY_RESPONSE`: the request goes to the same home again (R49). -/
def execBusyRetryResponse (id : Nat) (s : State) : Host.Outcome State Fault Refusal :=
  .next (match s.acc? id with
    | some a => if a.st == .retry then s.modAcc id (fun a => { a with st := a.again }) else s
    | none => s)

/-- A fill is delivered, and installed unless a flash followed its request; a line that is present already, in the cluster store or in the L1 that a load goes
through, is newer (R161). A store or atomic waits for room for its
line (R65, R70, R72, R138, R302). -/
def fillReturn (s : State) (a : Acc) (data : List Byte) (ps : List Nat) : State :=
  let d := a.frag.die
  let c := a.frag.core
  let li := a.pa / 128
  let own := if a.kind.writes then none else ((s.core d c).l1.find? (fun e => e.1 == li)).map (·.2)
  let l := ((lineAt s d (c / 8) li).or own).getD { data := data, dsh := a.sl == 1, pois := ps }
  let near (s : State) : State := if a.flashed then s else l1Install s d c li l
  let inst (s : State) : State := if a.flashed then s else lineInstall s d (c / 8) li l
  match a.kind with
  | .load _ => gotLoad (near (inst s)) a (bytesAt l.data (a.pa % 128) a.n) (l.isPois (a.pa % 128) a.n)
  | .pref l1 => (if l1 then near (inst s) else inst s).dropAcc a.id
  | _ =>
    match lineRoom s d (c / 8) li with
    | some s => onLine (s.modCluster d (c / 8) (fun x => { x with lines := Tab.set x.lines li l })) a l
    | none => s

/-- `LINE_FILL_RETURN` (R65, R72). -/
def execLineFillReturn (id : Nat) (s : State) : Host.Outcome State Fault Refusal :=
  .next (match s.acc? id with
    | some a =>
      (match a.st with
        | .filled data ps => fillReturn s a data ps
        | _ => s)
    | none => s)

/-- `CLUSTER_STORE_EVICTION`: a line leaves a cluster store; a dirty one is written back (R70, R73). -/
def execClusterStoreEviction (die cluster line : Nat) (s : State) : Host.Outcome State Fault Refusal :=
  .next (match lineAt s die cluster line with
    | none => s
    | some l =>
      if canDrop s die (line, l) then dropLine s die cluster line l else s)

/-! ### Results and faults (R59, R137, R224, R225, R432) -/

/-- Writes a result to the register it was resolved to (R217, R297). -/
def putDst (s : State) (f : FragRef) (d : Dst) (v : W64) (po : Bool) : State :=
  match d with
  | .none => s
  | .w t key => s.modWarp f (fun w => w.modThr t (fun x => x.put key (v.truncate 32) po))
  | .wp t lo hi =>
    s.modWarp f (fun w => w.modThr t (fun x => (x.put lo (v.truncate 32) po).put hi ((v >>> 32).truncate 32) po))
  | .k i => s.modWarp f (fun w => w.writeK i v po)

/-- The value that an access returns: loaded, or old. -/
def Acc.result (a : Acc) : W64 := if a.kind.atomic then a.val2 else a.val

/-- `REGISTER_RESULT_WRITE`: a result is written, an acquire takes effect, and a successful compare-and-swap is a progress point (R137, R225, R303). -/
def execRegisterResultWrite (id : Nat) (s : State) : Host.Outcome State Fault Refusal :=
  .next (match s.acc? id with
    | some a =>
      if a.st != .done then s
      else
        let s := casProgress (s.dropAcc id) a
        let s := putDst s a.frag a.dst a.result a.vpois
        let s := if a.kind.atomic then s else putDst s a.frag a.dst2 a.val2 false
        match a.acq with
        | some sc => acquire s a.frag sc
        | none => s
    | none => s)

/-- The threads of a word's accesses as a mask; a uniform access stands for the active threads. -/
def accMask (p : Frag) (a : Acc) : W32 := match a.thr with | some t => maskOf [t] | none => p.am

/-- `IMPRECISE_FAULT_RETURN`: the first fault of the fragment is kept for its next issue opportunity; later ones are
discarded (R59, R419). -/
def execImpreciseFaultReturn (f : FragRef) (s : State) : Host.Outcome State Fault Refusal :=
  .next (match s.frag? f with
    | none => s
    | some p =>
      match s.accs.find? (fun a => a.uid == p.uid && (match a.st with | .bad _ _ => true | _ => false)) with
      | none => s
      | some a =>
        match a.st with
        | .bad cause info =>
          (s.dropAcc a.id).modFrag f (fun p =>
            { p with fault := match p.fault with
                | none => some ⟨cause, info, a.word, a.seq, accMask p a⟩
                | some r => some { r with mask := if r.word == a.word then r.mask ||| accMask p a else r.mask } })
        | _ => s)

/-- `WATCHDOG_TRAP` (R209, R413). -/
def execWatchdogTrap (f : FragRef) (s : State) : Host.Outcome State Fault Refusal :=
  .next (match ctxOf s f with
    | some c => if c.g.resident && !c.p.stopped && !(s.die f.die).halt && !c.p.wait.parked then takeWatchdog s f else s
    | none => s)

end Sys2Proof.Machine
end

