-- ==== Sys2Proof/Machine/Memory.lean ====
section
/-! DEFINITION. Loads, stores, atomics, fences, maintenance and prefetch, opcodes 0x70 to 0x7F (12 R294 to R307). -/

namespace Sys2Proof.Machine

/-! ### Operands (R294) -/

/-- The registers of a memory operand. -/
def memOpds : MemOp → List Opd
  | .reg b i _ _ => [b, i]
  | .imm b _ => [b]

/-- A base: 64 bits, or a w register zero-extended (R294). -/
def baseVal (s : State) (c : Ctx) (t : Nat) (o : Opd) : Nat :=
  match o with
  | .w _ => opVal s c false t ⟨o, 32, .int⟩
  | _ => opVal s c false t ⟨o, 64, .int⟩

/-- An index: i32 of a w register, i64 of a k register (R294). -/
def idxVal (s : State) (c : Ctx) (t : Nat) (o : Opd) : Int :=
  match o with
  | .k _ => sgn 64 (opVal s c false t ⟨o, 64, .int⟩)
  | _ => sgn 32 (opVal s c false t ⟨o, 32, .int⟩)

/-- The effective address of thread `t` (R294). -/
def effAddr (s : State) (c : Ctx) (t : Nat) (m : MemOp) : Nat :=
  match m with
  | .reg b i sc disp => wrapN 64 (baseVal s c t b + idxVal s c t i * (2 ^ sc.toNat : Nat) + disp.toInt)
  | .imm b disp => wrapN 64 (baseVal s c t b + disp.toInt)

/-- The register that a load's destination means for thread `t` (R199, R217). -/
def dstOf (c : Ctx) (t : Nat) (d : Opd) : Dst :=
  match d with
  | .w i => if i = 0 then .none else .w t (regKey c.p (c.w.thread t).dep i.toNat)
  | .wp i =>
    if i = 0 then .none
    else .wp t (regKey c.p (c.w.thread t).dep (2 * i.toNat)) (regKey c.p (c.w.thread t).dep (2 * i.toNat + 1))
  | .k i => if i = 0 then .none else .k i.toNat
  | _ => .none

/-- One thread's request. -/
structure Req where
  thr : Option Nat
  va : Nat
  n : Nat
  kind : AKind
  val : W64 := 0
  pois : Bool := false
  dst : Dst := .none
  deriving DecidableEq, Repr, Inhabited

/-- Two requests share a byte. -/
def reqsClash : List Req → Bool
  | [] => false
  | r :: rs => rs.any (fun x => overlap r.va r.n x.va x.n) || reqsClash rs

/-- A free order of a list (R131). -/
def shuffle {α : Type} : Nat → List α → State → List α × State
  | 0, l, s => (l, s)
  | n + 1, l, s =>
    match l with
    | [] => ([], s)
    | x :: t =>
      let (i, s) := s.takeNat l.length
      let y := (l[i]?).getD x
      let rest := (x :: t).eraseIdx i
      let (ys, s) := shuffle n rest s
      (y :: ys, s)

/-- The requests in the order they are performed: free where two of them share a byte (R131, R155, R162). -/
def inOrder (rs : List Req) (s : State) : List Req × State := if reqsClash rs then shuffle rs.length rs s else (rs, s)

/-! ### Issue of global accesses (R131, R134 to R138, R151, R298) -/

/-- An access in flight holds up a later one to its bytes: of its own thread until it has been performed, and, of two writes of one core, until the first
has been sent (R138, R140, R148). -/
def holdsUp (a : Acc) (r : Req) : Bool :=
  let same := a.thr == none || r.thr == none || a.thr == r.thr
  match a.st with
  | .done | .bad _ _ => false
  | .ack => same && a.kind == .storeNt
  | .home => same && (!(a.tracked && a.kind.writes) || r.kind == .storeNt)
  | .walk | .busyWalk | .fill | .filled _ _ => same || (a.kind.writes && r.kind.writes && a.kind != .storeNt && r.kind != .storeNt)
  | _ => same

/-- An earlier access of the fragment to the same bytes holds a request up (R138, R140, R148, R151): bytes of one virtual address, or of one physical
address under two. -/
def orderHeld (s : State) (uid : Nat) (r : Req) : Bool :=
  s.accs.any (fun a => a.uid == uid && a.inMem && holdsUp a r &&
    (overlap a.va a.n r.va r.n || rangesHit (a.spans s) (peekSpan s a.frag.die a.frag.core r.va r.n r.kind.writes)))

/-- The leaf that an address has now, for the alignment rule of alias pages (R94, R298). -/
def peekAlias (s : State) (c : Ctx) (va : Nat) : Bool := (peekLeaf s c.f.die c.f.core va).any (fun t => t.leaf.getLsbD 62)

/-- The first request that is not aligned; an alias access of one byte counts (R298). -/
def misaligned (s : State) (c : Ctx) (rs : List Req) : Option Nat :=
  (rs.find? (fun r => r.va % r.n != 0 || (r.n == 1 && peekAlias s c r.va))).map (·.va)

/-- The first locked byte of a request (R88). -/
def locked (s : State) (c : Ctx) (glob : Bool) (rs : List Req) : Option Nat :=
  rs.findSome? (fun r => lockHit (c.core s) glob r.va r.n r.kind.writes)

/-- The access in flight that a request becomes. -/
def reqAcc (c : Ctx) (acq : Option Scope) (r : Req) (id : Nat) (st : ASt) : Acc :=
  { id := id, frag := c.f, word := c.p.pc, uid := c.p.uid, wuid := c.w.wuid, seq := c.p.seq, thr := r.thr, kind := r.kind, va := r.va
    n := r.n, val := r.val, vpois := r.pois, dst := r.dst, acq := acq, st := st }

/-- One access enters the flight list, and looks in the TLBs: at once, or, of a word of several threads, perhaps later (R131). -/
def launchAcc (s : State) (c : Ctx) (acq : Option Scope) (r : Req) (many : Bool := false) : State :=
  let (id, s) := s.fresh
  let s := { s with accs := s.accs ++ [reqAcc c acq r id .walk] }
  if many then
    let (later, s) := s.takeBool
    if later then s else tryTlb s id
  else tryTlb s id

/-- Memory requests of a core that have not returned (R13). -/
def requestsOut (s : State) (f : FragRef) : Nat :=
  (s.accs.filter (fun a => a.frag.die == f.die && a.frag.core == f.core &&
    (match a.kind with | .value | .dir _ => false | _ => true) && (match a.st with | .done | .bad _ _ | .bank => false | _ => true))).length

/-- Issues the requests of a global word (R298): the checks of every request, the waits of its order, the accesses, up to 1,024 of a core (R13). -/
def issueGlobal (s : State) (c : Ctx) (rel acq : Option Scope) (prog : Bool) (cyc : Nat) (rs : List Req) : State :=
  match misaligned s c rs, locked s c true rs with
  | some va, _ => trapAt s c.f 4 (BitVec.ofNat 64 va)
  | none, some b => trapAt s c.f 0x0A (BitVec.ofNat 64 b)
  | none, none =>
    if acqOut s c.p.uid then hold s c.f .stall
    else if rel.any (fun sc => !released s c.f c.p.uid sc) then holdRel s c.f
    else if rs.any (orderHeld s c.p.uid) || requestsOut s c.f + rs.length > 1024 then hold s c.f .stall
    else
      let (rs, s) := inOrder rs s
      let s := rs.foldl (fun s r => launchAcc s c acq r (rs.length > 1)) s
      let s := if prog then progress s c.f else s
      finish s c.f cyc

/-! ### Scratchpad accesses (R62 to R64, R88, R131, R146) -/

/-- An instruction of the same agent still in progress works on the bytes, or an earlier access of the same thread is on its way to them (R140, R146). -/
def engineHeld (s : State) (c : Ctx) (r : Req) : Bool :=
  let core := c.core s
  let hit (l : List (Nat × Nat)) : Bool := l.any (fun x => overlap x.1 x.2 r.va r.n)
  (core.mxq ++ core.pq).any (fun e => ownOp s c.f e && (hit e.writes || (r.kind.writes && hit e.reads))) ||
  s.accs.any (fun a => a.uid == c.p.uid && a.st == .bank && overlap a.va a.n r.va r.n && (a.kind.writes || r.kind.writes) &&
    (a.thr == none || r.thr == none || a.thr == r.thr))

/-- A value on its way to a register (R224). -/
def launchValue (s : State) (c : Ctx) (thr : Option Nat) (dst : Dst) (v : W64) (po : Bool) (acq : Option Scope) : State :=
  if dst == .none && acq.isNone then s
  else
    let (id, s) := s.fresh
    let a : Acc := { id := id, frag := c.f, word := c.p.pc, uid := c.p.uid, wuid := c.w.wuid, seq := c.p.seq, thr := thr, kind := .value
                     val := v, vpois := po, dst := dst, acq := acq, st := .done }
    { s with accs := s.accs ++ [a] }

/-- A load meets payload that a command has put in the scratchpad: a warp that has not acquired it may still find the bytes from before it, until the hardware lets
the payload be seen by all (R86, R156). -/
def lagRead (d core wuid o : Nat) : List Lag → State → List Byte → List Byte × State
  | [], s, bs => (bs, s)
  | l :: t, s, bs =>
    if l.seen.contains wuid || !overlap l.off l.old.length o bs.length then lagRead d core wuid o t s bs
    else
      let (stale, s) := s.takeBool
      if stale then
        lagRead d core wuid o t s (bs.zipIdx.map (fun x => if l.off ≤ o + x.2 then (l.old[o + x.2 - l.off]?).getD x.1 else x.1))
      else lagRead d core wuid o t (s.modCore d core (fun c => { c with lag := c.lag.filter (· != l) })) bs

/-- Performs one scratchpad request at its bank (R64, R297, R302, R303). -/
def scrAccess (c : Ctx) (acq : Option Scope) (s : State) (r : Req) : State :=
  let core := s.core c.f.die c.f.core
  let old := leNat (scrRead core r.va r.n)
  match r.kind with
  | .load sz =>
    let (bs, s) := lagRead c.f.die c.f.core c.w.wuid r.va core.lag s (scrRead core r.va r.n)
    launchValue s c r.thr r.dst (loadExt sz (leNat bs)) (scrPois core r.va r.n) acq
  | _ =>
    if r.kind.atomic && scrPois core r.va r.n then
      let (id, s) := s.fresh
      let a : Acc := { id := id, frag := c.f, word := c.p.pc, uid := c.p.uid, seq := c.p.seq, thr := r.thr, kind := .value, va := r.va
                       st := .bad 0x12 (BitVec.ofNat 64 r.va) }
      countCons { s with accs := s.accs ++ [a] } c.f.die
    else
      let (nv, fl) := rmwNew r.kind r.val r.n old
      let s := match nv with
        | some v => s.modCore c.f.die c.f.core (fun x => scrWrite x r.va (leBytes r.n v) r.pois)
        | none => s
      let s := setFlagsOf s c.f.die c.f.wg c.w.wuid fl
      match r.kind with
      | .cas _ =>
        let (id, s) := s.fresh
        { s with accs := s.accs ++ [{ reqAcc c acq r id .done with val2 := BitVec.ofNat 64 old }] }
      | .atom _ _ => launchValue s c r.thr r.dst (BitVec.ofNat 64 old) false acq
      | _ => s

/-- One scratchpad request is performed at once, or, of a word of several threads, perhaps later (R131). -/
def launchScr (c : Ctx) (acq : Option Scope) (many : Bool) (s : State) (r : Req) : State :=
  if many then
    let (later, s) := s.takeBool
    if later then
      let (id, s) := s.fresh
      { s with accs := s.accs ++ [reqAcc c acq r id .bank] }
    else scrAccess c acq s r
  else scrAccess c acq s r

/-- A scratchpad access on its way reaches its bank (R64, R131). -/
def bankAcc (s : State) (a : Acc) : State :=
  let c : Ctx := ⟨a.frag, default, { wuid := a.wuid }, { pc := a.word, uid := a.uid, seq := a.seq }⟩
  let r : Req := { thr := a.thr, va := a.va, n := a.n, kind := a.kind, val := a.val, pois := a.vpois, dst := a.dst }
  scrAccess c a.acq (s.dropAcc a.id) r

/-- Scratchpad accesses of a core that are on their way to ranges reach their banks before a command takes the ranges (R64, R157). -/
def flushBanks (s : State) (d core : Nat) (rs : List (Nat × Nat)) : State :=
  (s.accs.filter (fun a => a.st == .bank && a.frag.die == d && a.frag.core == core && rangesHit [(a.va, a.n)] rs)).foldl bankAcc s

/-- `HOME_REQUEST`: a home agent, or a scratchpad bank, performs a request (R33, R64, R131, R132). -/
def execHomeRequest (id : Nat) (s : State) : Host.Outcome State Fault Refusal :=
  .next (match s.acc? id with
    | some a => if a.st == .bank then bankAcc s a else homeAcc s a
    | none =>
      match s.inb.find? (fun b => b.id == id) with
      | some b => homeInb s b
      | none => s)

/-- Issues the requests of a scratchpad word (R298). -/
def issueScratch (s : State) (c : Ctx) (rel acq : Option Scope) (prog : Bool) (cyc : Nat) (rs : List Req) : State :=
  match rs.find? (fun r => r.va % r.n != 0), rs.find? (fun r => !inAllot c.g r.va r.n), locked s c false rs with
  | some r, _, _ => trapAt s c.f 4 (BitVec.ofNat 64 r.va)
  | none, some r, _ => trapAt s c.f 2 (BitVec.ofNat 64 r.va)
  | none, none, some b => trapAt s c.f 0x0A (BitVec.ofNat 64 b)
  | none, none, none =>
    if acqOut s c.p.uid then hold s c.f .stall
    else if rel.any (fun sc => !released s c.f c.p.uid sc) then holdRel s c.f
    else if rs.any (engineHeld s c) then hold s c.f .stall
    else
      let (rs, s) := inOrder rs s
      let s := rs.foldl (launchScr c acq (rs.length > 1)) s
      let s := if prog then progress s c.f else s
      finish s c.f cyc

/-! ### Words -/

/-- The acting threads of a per-thread word, or one uniform access. -/
def memThreads (c : Ctx) (h : Hdr) (uni : Bool) : List (Option Nat) :=
  if uni then (if uniHolds c h then [none] else []) else (acting c h).map some

/-- The thread whose registers a request reads; a uniform one reads none. -/
def thrOf (t : Option Nat) : Nat := t.getD 0

/-- Begins a memory word: pending registers, guard and poison (R80, R214, R432). -/
def memWord (h : Hdr) (uni : Bool) (pend os : List Opd) (body : Ctx → List (Option Nat) → State → State) (s : State) : State :=
  (begin h.sw (kRegs (guardOpd h :: pend)) s).run (fun c s =>
    let ts := memThreads c h uni
    (checkPois c h uni (ts.map thrOf) os s).run (fun c s =>
      if ts.isEmpty then finish s c.f 1 else body c ts s))

/-- Lane cycles of a load or store (R296). -/
def memCyc (uni : Bool) (sz : Sz) (n : Nat) : Nat :=
  if uni then 1 else (match sz with | .b64 | .i32x => 2 | _ => 1) * laneCycles n

/-- A load (R297). -/
def loadWord (glob uni : Bool) (h : Hdr) (sz : Sz) (ord : Option Scope) (d : Opd) (m : MemOp) (s : State) : State :=
  memWord h uni (memOpds m) (memOpds m) (fun c ts s =>
    let rs := ts.map (fun t =>
      ({ thr := t, va := effAddr s c (thrOf t) m, n := szBytes sz, kind := .load sz, dst := dstOf c (thrOf t) d } : Req))
    let cyc := memCyc uni sz ts.length
    if glob then issueGlobal s c none ord false cyc rs else issueScratch s c none ord false cyc rs) s

/-- The width of a store's data operand. -/
def storeW (sz : Sz) : Nat := match sz with | .b64 => 64 | _ => 32

/-- A store writes a pending register's handle value without stalling: `stsk` of 8 bytes, and `stk` of 8 bytes in system
mode (R299, R422). -/
def rawHandle (glob uni : Bool) (sz : Sz) (sys : Bool) : Bool := uni && sz == .b64 && (!glob || sys)

/-- A store (R297). In system mode poisoned data is written as poison (R427). -/
def storeWord (glob uni nt : Bool) (h : Hdr) (sz : Sz) (ord : Option Scope) (d : Opd) (m : MemOp) (s : State) : State :=
  let sys := (ctx? s).any (fun c => c.p.sys)
  let pend := if rawHandle glob uni sz sys then memOpds m else d :: memOpds m
  let os := if sys then memOpds m else d :: memOpds m
  memWord h uni pend os (fun c ts s =>
    let rs := ts.map (fun t =>
      ({ thr := t, va := effAddr s c (thrOf t) m, n := szBytes sz, kind := if nt && glob then .storeNt else .store
         val := BitVec.ofNat 64 (opVal s c false (thrOf t) ⟨d, storeW sz, .int⟩ % 2 ^ (8 * szBytes sz))
         pois := opPois c (thrOf t) d } : Req))
    let cyc := memCyc uni sz ts.length
    if glob then issueGlobal s c ord none true cyc rs else issueScratch s c ord none true cyc rs) s

/-- `ld` (R297). -/
def execLd (h : Hdr) (sz : Sz) (ord : Option Scope) (d : Opd) (m : MemOp) (s : State) : Host.Outcome State Fault Refusal :=
  .next (loadWord true false h sz ord d m s)

/-- `st` (R297). -/
def execSt (h : Hdr) (sz : Sz) (ord : Option Scope) (d : Opd) (m : MemOp) (s : State) : Host.Outcome State Fault Refusal :=
  .next (storeWord true false false h sz ord d m s)

/-- `st.nt` (R300). -/
def execStNt (h : Hdr) (sz : Sz) (d : Opd) (m : MemOp) (s : State) : Host.Outcome State Fault Refusal :=
  .next (storeWord true false true h sz none d m s)

/-- `ldk` (R297, R299). -/
def execLdk (h : Hdr) (sz : Sz) (ord : Option Scope) (d : Opd) (m : MemOp) (s : State) : Host.Outcome State Fault Refusal :=
  .next (loadWord true true h sz ord d m s)

/-- `stk` (R297, R299, R422). -/
def execStk (h : Hdr) (sz : Sz) (ord : Option Scope) (d : Opd) (m : MemOp) (s : State) : Host.Outcome State Fault Refusal :=
  .next (storeWord true true false h sz ord d m s)

/-- `lds` (R297). -/
def execLds (h : Hdr) (sz : Sz) (ord : Option Scope) (d : Opd) (m : MemOp) (s : State) : Host.Outcome State Fault Refusal :=
  .next (loadWord false false h sz ord d m s)

/-- `sts` (R297). -/
def execSts (h : Hdr) (sz : Sz) (ord : Option Scope) (d : Opd) (m : MemOp) (s : State) : Host.Outcome State Fault Refusal :=
  .next (storeWord false false false h sz ord d m s)

/-- `ldsk` (R297, R299). -/
def execLdsk (h : Hdr) (sz : Sz) (ord : Option Scope) (d : Opd) (m : MemOp) (s : State) : Host.Outcome State Fault Refusal :=
  .next (loadWord false true h sz ord d m s)

/-- `ldsk.h`: the register stands for the handle at once (R80, R299). -/
def execLdskH (h : Hdr) (d : Opd) (m : MemOp) (s : State) : Host.Outcome State Fault Refusal :=
  .next (memWord h true (memOpds m) (memOpds m) (fun c _ s =>
    let va := effAddr s c 0 m
    let r : Req := { thr := none, va := va, n := 8, kind := .load .b64 }
    if va % 8 != 0 then trapAt s c.f 4 (BitVec.ofNat 64 va)
    else if !inAllot c.g va 8 then trapAt s c.f 2 (BitVec.ofNat 64 va)
    else
      match locked s c false [r] with
      | some b => trapAt s c.f 0x0A (BitVec.ofNat 64 b)
      | none =>
        if acqOut s c.p.uid || engineHeld s c r then hold s c.f .stall
        else
          let core := c.core s
          let v : W64 := BitVec.ofNat 64 (leNat (scrRead core va 8))
          match d with
          | .k i => finish (s.modWarp c.f (fun w => (w.writeK i.toNat v (scrPois core va 8)).markK i.toNat)) c.f 1
          | _ => illegal s c.f) s)

/-- `stsk` (R297, R299). -/
def execStsk (h : Hdr) (sz : Sz) (ord : Option Scope) (d : Opd) (m : MemOp) (s : State) : Host.Outcome State Fault Refusal :=
  .next (storeWord false true false h sz ord d m s)

/-! ### Atomics (R301 to R303) -/

/-- The scope of an order form that acquires. -/
def ordAcq (o : AOrd) (sc : Scope) : Option Scope := match o with | .acq | .ar => some sc | _ => none

/-- The scope of an order form that releases. -/
def ordRel (o : AOrd) (sc : Scope) : Option Scope := match o with | .rel | .ar => some sc | _ => none

/-- How an atomic's operand is read (R217, R301). -/
def atyKind : ATy → Kind
  | .f32 => .flt .f32
  | _ => .int

/-- An atomic or compare-and-swap word (R302, R303): `mk` gives each thread's kind and operand value. -/
def atomWord (glob prog : Bool) (h : Hdr) (m : AtMod) (d a : Opd) (os : List Opd) (mk : State → Ctx → Nat → AKind × Nat)
    (s : State) : State :=
  let uni := d.isK
  memWord h uni (a :: os) (a :: os) (fun c ts s =>
    let rs := ts.map (fun t =>
      let (k, v) := mk s c (thrOf t)
      ({ thr := t, va := baseVal s c (thrOf t) a, n := atyW m.ty / 8, kind := k, val := BitVec.ofNat 64 v
         dst := dstOf c (thrOf t) d } : Req))
    let cyc := if uni then 1 else laneCycles ts.length
    if glob then issueGlobal s c (ordRel m.ord m.sc) (ordAcq m.ord m.sc) prog cyc rs
    else issueScratch s c (ordRel m.ord m.sc) (ordAcq m.ord m.sc) prog cyc rs) s

/-- The operand of an atomic. -/
def atomOpd (m : AtMod) (op : AOp) (b : Opd) (s : State) (c : Ctx) (t : Nat) : AKind × Nat :=
  (.atom m.ty op, opVal s c false t ⟨b, atyW m.ty, atyKind m.ty⟩)

/-- The operands of a compare-and-swap. -/
def casOpd (m : AtMod) (b n : Opd) (s : State) (c : Ctx) (t : Nat) : AKind × Nat :=
  (.cas (BitVec.ofNat 64 (opVal s c false t ⟨b, atyW m.ty, .int⟩)), opVal s c false t ⟨n, atyW m.ty, .int⟩)

/-- `atom` (R301, R302). -/
def execAtom (h : Hdr) (m : AtMod) (op : AOp) (d a b : Opd) (s : State) : Host.Outcome State Fault Refusal :=
  .next (atomWord true true h m d a [b] (atomOpd m op b) s)

/-- `atoms` (R301, R302). -/
def execAtoms (h : Hdr) (m : AtMod) (op : AOp) (d a b : Opd) (s : State) : Host.Outcome State Fault Refusal :=
  .next (atomWord false true h m d a [b] (atomOpd m op b) s)

/-- `cas` (R303). -/
def execCas (h : Hdr) (m : AtMod) (d a b c : Opd) (s : State) : Host.Outcome State Fault Refusal :=
  .next (atomWord true false h m d a [b, c] (casOpd m b c) s)

/-- `cass` (R303). -/
def execCass (h : Hdr) (m : AtMod) (d a b c : Opd) (s : State) : Host.Outcome State Fault Refusal :=
  .next (atomWord false false h m d a [b, c] (casOpd m b c) s)

/-! ### Fences, draining, maintenance, prefetch (R304 to R307) -/

/-- Every earlier load and atomic of the fragment has returned (R136). -/
def returned (s : State) (uid : Nat) : Bool :=
  s.accs.all (fun a => a.uid != uid || a.st == .done ||
    (match a.kind with | .load _ | .atom _ _ | .cas _ => false | _ => true))

/-- The waits and the action of a fence (R136, R137). -/
def fenceDo (s : State) (c : Ctx) (form : AOrd) (sc : Scope) : State :=
  let acq := form == .acq || form == .ar
  let rel := form == .rel || form == .ar
  if acqOut s c.p.uid then hold s c.f .stall
  else if rel && !released s c.f c.p.uid sc then holdRel s c.f
  else if acq && (!returned s c.p.uid || engOut s c.f) then hold s c.f .rel
  else finish (if acq then acquire s c.f sc else s) c.f 1

/-- `fence` (R136, R137, R304). -/
def execFence (h : Hdr) (form : AOrd) (sc : Scope) (s : State) : Host.Outcome State Fault Refusal :=
  .next (uniOp h [] (fun c s => fenceDo s c form sc) s)

/-- `ntdrain` (R148, R305). -/
def execNtdrain (h : Hdr) (s : State) : Host.Outcome State Fault Refusal :=
  .next (uniOp h [] (fun c s =>
    if s.accs.any (fun a => a.uid == c.p.uid && a.kind == .storeNt && (match a.st with | .bad _ _ => false | _ => true)) then
      hold s c.f .ntdrain
    else finish s c.f 1) s)

/-- What a maintenance operation does (R306). -/
inductive Maint where
  | wb | inv | wbi
  deriving DecidableEq, Repr, Inhabited

/-- Maintains the lines of physical addresses `pa` to `pa + n - 1` (R73, R306). -/
def maintain (s : State) (d core : Nat) (k : Maint) (pa n : Nat) : State :=
  let cl := core / 8
  let inR (li : Nat) : Bool := pa / 128 ≤ li && li ≤ (pa + n - 1) / 128
  let s := if k == .inv then s
    else ((s.cluster d cl).lines.filter (fun l => inR l.1 && l.2.dirty)).foldl (fun s l =>
      (writeBack s l.1 l.2).modCluster d cl (fun x => { x with lines := Tab.modify x.lines l.1 (fun y => { y with dirty := false }) })) s
  if k == .wb then s
  else
    let s := flashFills (dropLines s d cl (fun l => inR l.1)) d cl (fun a => inR (a.pa / 128))
    s.modCore d core (fun x => { x with l1 := x.l1.filter (fun e => !inR e.1) })

/-- Maintains `w` bytes of the page at `va` that an agent of a core has found at `p`; a cluster that has dropped its last line of a frame uses it no longer (R24,
R306). -/
def maintPage (a : Agent) (core : Nat) (k : Maint) (va : Nat) (p : Phys) (w : Nat) (s : State) : State :=
  let s := maintain (letGo s a.who va) a.die core k p.pa w
  if k == .wb then s else endUse s a.die (core / 8) p.pa

/-- Maintains a virtual range page by page; the address of a failure (R306). The pages need `w`, and none of them becomes dirty. -/
def maintRange (a : Agent) (core : Nat) (k : Maint) : Nat → Nat → Nat → State → State × Option (AErr × Nat)
  | 0, _, _, s => (s, none)
  | f + 1, va, n, s =>
    if n = 0 then (s, none)
    else
      let w := min n (2 ^ 16 - va % 2 ^ 16)
      match xlatA s a va .m with
      | .error e => (s, some (e, va))
      | .ok (s1, p) =>
        match reach s1 a va p with
        | some (.busy h) => (s, some (.busy h, va))
        | _ => maintRange a core k f (va + w) (n - w) (maintPage a core k va p w s1)

/-- A maintenance operation (R306). -/
def cmnt (h : Hdr) (k : Maint) (a b : Opd) (s : State) : State :=
  uniOp h [a, b] (fun c s =>
    let va := opVal s c true 0 ⟨a, 64, .int⟩
    let len := opVal s c true 0 ⟨b, 64, .int⟩
    if len > 2 ^ 32 then illegal s c.f
    else if len = 0 then finish (progress s c.f) c.f 1
    else
      let lo := va / 128 * 128
      let n := (va + len + 127) / 128 * 128 - lo
      match lockHit (c.core s) true lo n true with
      | some b => trapAt s c.f 0x0A (BitVec.ofNat 64 b)
      | none =>
        if acqOut s c.p.uid || !settledAll s c.f c.p.uid then hold s c.f .cmnt
        else
          match maintRange (ownAgent s c.f) c.f.core k (n / 2 ^ 16 + 2) lo n s with
          | (s, none) => finish (progress s c.f) c.f 1
          | (s, some (.busy h, _)) => holdFor s c.f h .cmnt
          | (s, some (e, va)) => faultNow (progress s c.f) c.f e.cause va) s

/-- `cmnt.wb` (R306). -/
def execCmntWb (h : Hdr) (a b : Opd) (s : State) : Host.Outcome State Fault Refusal := .next (cmnt h .wb a b s)

/-- `cmnt.inv` (R306). -/
def execCmntInv (h : Hdr) (a b : Opd) (s : State) : Host.Outcome State Fault Refusal := .next (cmnt h .inv a b s)

/-- `cmnt.wbi` (R306). -/
def execCmntWbi (h : Hdr) (a b : Opd) (s : State) : Host.Outcome State Fault Refusal := .next (cmnt h .wbi a b s)

/-- `prf` (R307): it never traps on an operand, so a poisoned guard or address makes it do nothing for its thread. -/
def execPrf (h : Hdr) (l1 : Bool) (m : MemOp) (s : State) : Host.Outcome State Fault Refusal :=
  .next ((begin h.sw (kRegs (guardOpd h :: memOpds m)) s).run (fun c s =>
    let ts := (acting c h).filter (fun t => (guardOpd h :: memOpds m).all (fun o => !opPois c t o))
    let rs := ts.map (fun t => ({ thr := some t, va := effAddr s c t m, n := 1, kind := .pref l1 } : Req))
    let rs := rs.filter (fun r => (lockHit (c.core s) true (r.va / 128 * 128) 128 true).isNone)
    if requestsOut s c.f + rs.length > 1024 then hold s c.f .stall
    else finish (rs.foldl (fun s r => launchAcc s c none r) s) c.f (laneCycles (acting c h).length)))

end Sys2Proof.Machine
end

