-- ==== Sys2Proof/Machine/Engine.lean ====
section
/-! DEFINITION. Engine commands: issue, the copy engine, gather by key; waits on words and handles; queues; channels;
opcodes 0x90 to 0x98 (03 R74 to R92; 12 R308 to R316). -/

namespace Sys2Proof.Machine

/-! ### Commands (R79 to R84, R308) -/

/-- The command of an identity. -/
def State.cmd? (s : State) (id : Nat) : Option Cmd := s.cmds.find? (fun c => c.id == id)

/-- Changes a command. -/
def State.modCmd (s : State) (id : Nat) (g : Cmd → Cmd) : State :=
  { s with cmds := s.cmds.map (fun c => if c.id == id then g c else c) }

/-- The code of the first check that fails. -/
def firstFail : List (Bool × Nat) → Option Nat
  | [] => none
  | (b, c) :: t => if b then some c else firstFail t

/-- The checks of a completion word, in order, from its offset and the other bits of its register (R308). -/
def cwChecks (g : Wg) (cw : CwMod) (val : W64) (off : Nat) (extra : Bool) : List (Bool × Nat) :=
  if cw.cw then
    [(extra, 0x16), (off % 8 != 0, 0x13), (val.getLsbD 63, 0x16), (!inAllot g off 8, 0x14)]
  else []

/-- A command as its issuing word forms it: the failing check, the kind, the range locks, the completion word. -/
structure CmdReq where
  fail : Option Nat
  kind : CmdKind
  locks : List (Bool × Nat × Nat × Bool) := []
  cw : Option CWord := none
  st : CmdSt := .waiting
  sid : Option Nat := none
  deriving Repr, Inhabited

/-- Writes a handle into the destination and marks it pending (R80). -/
def writeHandle (s : State) (f : FragRef) (d : Opd) (v : W64) : State :=
  match d with
  | .k i => s.modWarp f (fun w => (w.writeK i.toNat v).markK i.toNat)
  | _ => s

/-- Issues a command whose checks have been made (R79, R80, R87, R144, R308). -/
def issueCmd (s : State) (c : Ctx) (d : Opd) (r : CmdReq) : State :=
  let core := c.core s
  let done (s : State) : State := finish (progress s c.f) c.f 1
  match freeEnt core, r.fail with
  | none, _ => done (writeHandle s c.f d (immHandle 0x1A))
  | some _, some code => done (writeHandle s c.f d (immHandle code))
  | some e, none =>
    if acqOut s c.p.uid || !settledAll s c.f c.p.uid then hold s c.f .stall
    else if core.locks.length + r.locks.length > 64 then hold s c.f .stall
    else
      let s := flushBanks s c.f.die c.f.core ((r.locks.filter (fun l => !l.1)).map (fun l => (l.2.1, l.2.2.1)))
      let (id, s) := s.fresh
      let (hv, seq, s) := allocEnt s c.f e ((r.cw.map (·.sc)).getD .wg)
      let s := s.modCore c.f.die c.f.core (fun x =>
        { x with locks := x.locks ++ r.locks.map (fun l => mkLock l.1 l.2.1 l.2.2.1 l.2.2.2 id) })
      let cmd : Cmd := { id := id, die := c.f.die, core := c.f.core, wg := c.f.wg, frag := some c.f, ent := some e, hseq := seq, wuid := c.w.wuid
                         kind := r.kind, cw := r.cw, st := r.st, sid := r.sid }
      let s := { s with cmds := s.cmds ++ [cmd] }
      let s := match r.st, r.kind with
        | .leave, .shovGive _ => s.modDie c.f.die (fun y => { y with leaveQ := y.leaveQ ++ [(.give id, 0)] })
        | .leave, _ => s.modDie c.f.die (fun y => { y with leaveQ := y.leaveQ ++ [(.mmv id, 0)] })
        | _, _ => s
      done (writeHandle s c.f d hv)

/-- The value of a k register operand as a number. -/
def kNat (s : State) (c : Ctx) (o : Opd) : Nat := opVal s c true 0 ⟨o, 64, .int⟩

/-- A command word: uniform; with a completion word it first reads d as the completion value (R308). -/
def cmdWord (h : Hdr) (cw : CwMod) (d : Opd) (os : List Opd) (mk : State → Ctx → W64 → CmdReq) (s : State) : State :=
  uniOp h (if cw.cw then d :: os else os) (fun c s =>
    let val : W64 := if cw.cw then BitVec.ofNat 64 (kNat s c d) else 0
    issueCmd s c d (mk s c val)) s

/-- The completion word of a request. -/
def cwordOf (cw : CwMod) (off : Nat) (val : W64) : Option CWord := if cw.cw then some ⟨off, val, cw.sc⟩ else none

/-- The handle of a rebalance resolves: its space has none in progress any more (R117, R118, R122). -/
def endRebal (s : State) (cmd : Cmd) : State :=
  match cmd.kind with
  | .rebal sp _ =>
    (match Tab.get? s.spaces sp with
      | some x => if x.rebal.any (fun r => r.cmd == cmd.id) then s.setSpace sp { x with rebal := none } else s
      | none => s)
  | _ => s

/-- A command ends: range locks, completion word, handle (R83, R84). -/
def completeCmd (s : State) (cmd : Cmd) (st : W64) : State :=
  let s := if cmd.core < 96 then
      s.modCore cmd.die cmd.core (fun x => { x with locks := x.locks.filter (fun l => l.cmd != cmd.id) })
    else s
  let s := match cmd.cw with
    | some w =>
      let v := if st == 0 then w.val else st ||| (1 <<< 63)
      s.modCore cmd.die cmd.core (fun x => scrWrite x w.off (leBytes 8 v.toNat))
    | none => s
  let s := match cmd.ent with
    | some e => resolveEnt s cmd.die cmd.core e cmd.hseq st
    | none => s
  let s := endRebal s cmd
  { s with hid := s.hid.filter (fun h => h.who != .cmd cmd.id)
           cmds := s.cmds.filter (fun x => x.id != cmd.id) }

/-- A command has its status, which `COMMAND_COMPLETE` will report. -/
def cmdDone (s : State) (id : Nat) (st : W64) : State := s.modCmd id (fun c => { c with st := .done st })

/-- The stores that the completion word of a command waits for: those that the tracker of its cluster held when its payload had ended (R71, R84, R137). -/
def Cmd.relIds (c : Cmd) (s : State) : List Nat := c.relOf.getD (trackedIds s c.die (c.core / 8))

/-- The completion word of a command that succeeded is a release at its scope, which has to wait (R84, R137, R144). -/
def Cmd.mustWait (c : Cmd) (s : State) (st : W64) : Bool :=
  st == 0 && c.core < 96 && c.cw.any (fun w => scopeRank w.sc ≥ 3) && s.accs.any (fun a => a.tracked && (c.relIds s).contains a.id)

/-- A command with its status waits for the release of its completion word. -/
def waitRel (s : State) (c : Cmd) (st : W64) : State :=
  let ids := c.relIds s
  (cmdDone s c.id st).modCmd c.id (fun c => { c with relOf := some ids })

/-- A command ends, behind the release of its completion word (R83, R84). -/
def finishCmd (s : State) (c : Cmd) (st : W64) : State := if c.mustWait s st then waitRel s c st else completeCmd s c st

/-! ### Copies (R74, R75, R77, R309) -/

/-- The agent of a command: its core, or the beater (core 96). -/
def cmdAgent (c : Cmd) : Agent :=
  { die := c.die, core := if c.core < 96 then some c.core else none, ex := c.touched, holds := c.walk, who := .cmd c.id }

/-- A request of a command is held up: at a page-busy leaf with a walker, or in the busy table of its home while that has room (R47, R49, R60). -/
def heldCmd (s : State) (id : Nat) (h : Held) : State := (noteHeld s h).modCmd id (fun c => { c with walk := h == .page })

/-- A command whose requests have gone on. -/
def Cmd.went (c : Cmd) : Cmd := { c with walk := false }

/-- The stacks that ranges of virtual addresses reach through the die's own ports, page by page. -/
def vaStacks (s : State) (d core : Nat) (rs : List (Nat × Nat)) : List Nat :=
  rs.flatMap (fun r =>
    if r.2 = 0 then []
    else
      let lo := r.1 / 2 ^ 16
      (List.range ((r.1 + r.2 - 1) / 2 ^ 16 + 1 - lo)).filterMap (fun i =>
        let u := max r.1 ((lo + i) * 2 ^ 16)
        (peekLeaf s d core u).bind (fun t =>
          let pa := pteAddr t.leaf + (u - t.va)
          if routeOf s d (bitAt u 56) pa == d then stackOf pa else none)))

/-- A command has issued requests to ranges of virtual addresses: it remembers their stacks (R36). -/
def noteStacks (s : State) (c : Cmd) (rs : List (Nat × Nat)) : State :=
  let l := vaStacks s c.die c.core rs
  s.modCmd c.id (fun c => { c with touched := l.foldl (fun t i => if t.contains i then t else i :: t) c.touched })

/-- Reads one side of a copy. -/
def sideRead (s : State) (c : Cmd) (glob : Bool) (a n : Nat) : Except AErr (State × List Byte × Bool) :=
  if glob then vread s (cmdAgent c) a n
  else
    let x := s.core c.die c.core
    .ok (s, scrRead x a n, scrPois x a n)

/-- Bytes of payload in a scratchpad, behind what they replace (R86): the next bytes of the newest piece extend it, and of the pieces that no reader has acquired
the hardware keeps the newest sixty-four (log entry 96). -/
def noteLag (c : Core) (sc : Scope) (off : Nat) (old : List Byte) : List Lag :=
  match c.lag with
  | l :: t => if l.off + l.old.length = off && l.sc == sc && l.seen.isEmpty then { l with old := l.old ++ old } :: t else (⟨off, old, sc, []⟩ :: l :: t).take 64
  | [] => [⟨off, old, sc, []⟩]

/-- A command writes payload into a scratchpad (R77, R86). -/
def payWrite (c : Core) (sc : Scope) (off : Nat) (bs : List Byte) : Core :=
  let c' := scrWrite c off bs
  { c' with lag := noteLag c' sc off (scrRead c off bs.length) }

/-- Writes one side of a copy; the copies of a rebalance write pages that programs may only read (R104, R126). -/
def sideWrite (s : State) (c : Cmd) (glob : Bool) (a : Nat) (bs : List Byte) : Except AErr State :=
  if glob then vwrite s (cmdAgent c) a bs false (match c.kind with | .rcopy _ _ _ => .rp | _ => .w)
  else .ok (s.modCore c.die c.core (fun x => payWrite x ((c.cw.map (·.sc)).getD .wg) a bs))

/-- How a payload ended: held up, or with a status. -/
inductive Paid where
  | busy (h : Held)
  | st (code : W64)
  deriving DecidableEq, Repr, Inhabited

/-- The bytes of a copy that move together: none across a 64-byte boundary of either side. -/
def pieceLen (dst src n : Nat) : Nat := min n (min (64 - dst % 64) (64 - src % 64))

/-- Moves `n` bytes piece by piece, up to one that is held up or fails (R75, R77); `m` bytes have been moved. -/
def copyRun (sg dg : Bool) : Nat → Cmd → Nat → Nat → Nat → Nat → State → State × Paid × Nat
  | 0, _, _, _, _, m, s => (s, .st 0, m)
  | k + 1, c, dst, src, n, m, s =>
    if n = 0 then (s, .st 0, m)
    else
      let u := pieceLen dst src n
      match sideRead s c sg src u with
      | .error (.busy h) => (s, .busy h, m)
      | .error e => (s, .st e.status, m)
      | .ok (s1, bs, p) =>
        if p then (countCons s1 c.die, .st 0x12, m)
        else
          match sideWrite s1 c dg dst bs with
          | .error (.busy h) => (s, .busy h, m)
          | .error e => (s1, .st e.status, m)
          | .ok s2 => copyRun sg dg k c.went (dst + u) (src + u) (n - u) (m + u) s2

/-- The spaces of a direction: source global, destination global (R309). -/
def dirSides : CpyDir → Bool × Bool
  | .gg => (true, true)
  | .gs => (true, false)
  | .sg => (false, true)
  | .ss => (false, false)

/-- The sides and ranges of a copy: source global, destination global, destination, source, length. -/
def CmdKind.copyOf : CmdKind → Option (Bool × Bool × Nat × Nat × Nat)
  | .cpy dir dst src len => some ((dirSides dir).1, (dirSides dir).2, dst, src, len)
  | .bcopy dst src len | .rcopy dst src len => some (true, true, dst, src, len)
  | _ => none

/-- A free number of the bytes that a copy has left are moved: no transfer of it is indivisible (R75, R77, R132; log entry 32). -/
def copySome (s : State) (c : Cmd) : State × Paid × Nat :=
  match c.kind.copyOf with
  | none => (s, .st 0, 0)
  | some (sg, dg, dst, src, len) =>
    let o := c.next
    let (k, s) := s.takeNat (len - o + 1)
    copyRun sg dg k c (dst + o) (src + o) k 0 s

/-- The request of a `cpy` (R309). -/
def cpyReq (g : Wg) (dir : CpyDir) (cw : CwMod) (val : W64) (dst src w : Nat) : CmdReq :=
  let len := bitsOf w 0 32
  let off := bitsOf w 32 19
  let extra := bitsOf w 51 13 != 0
  let (sg, dg) := dirSides dir
  { fail := firstFail (cwChecks g cw val off extra ++
      [(len = 0 || len > 2 ^ 31, 0x16), (extra || (!cw.cw && off != 0), 0x16), (sg == dg && overlap dst len src len, 0x16),
       ((!sg && !inAllot g src len) || (!dg && !inAllot g dst len), 0x14)])
    kind := .cpy dir dst src len
    locks := [(sg, src, len, false), (dg, dst, len, true)]
    cw := cwordOf cw off val }

/-- `cpy` (R309). -/
def execCpy (h : Hdr) (dir : CpyDir) (cw : CwMod) (d a b c : Opd) (s : State) : Host.Outcome State Fault Refusal :=
  .next (cmdWord h cw d [a, b, c] (fun s x val => cpyReq x.g dir cw val (kNat s x a) (kNat s x b) (kNat s x c)) s)

/-- Commands of a core's copy engine. -/
def CmdKind.copyEngine : CmdKind → Bool
  | .cpy _ _ _ _ | .cpyk _ _ _ _ _ _ _ | .bcopy _ _ _ | .rcopy _ _ _ => true
  | _ => false

/-- `COPY_COMMAND_START`: the first waiting command of a copy engine, when fewer than 32 run (R75). -/
def execCopyCommandStart (die core : Nat) (s : State) : Host.Outcome State Fault Refusal :=
  .next (
    let mine := s.cmds.filter (fun c => c.die == die && c.core == core && c.kind.copyEngine)
    if (mine.filter (fun c => c.st == .running)).length ≥ 32 then s
    else
      match mine.find? (fun c => c.st == .waiting) with
      | some c => s.modCmd c.id (fun c => { c with st := .running })
      | none => s)

/-! ### Waiting on words and handles (R85, R311 to R313) -/

/-- The core watches no word for a fragment any more. -/
def dropWatch (s : State) (f : FragRef) (uid : Nat) : State :=
  s.modCore f.die f.core (fun c => { c with watches := c.watches.filter (fun x => x.uid != uid) })

/-- A `waita` is satisfied: its acquire, and the next word. -/
def waitaGo (s : State) (f : FragRef) (w : Watch) : State :=
  let s := match w.acq with | some sc => acquire s f sc | none => s
  finish (s.modFrag f (fun p => { p with watch := none })) f 1

/-- `waita` parks, and its core watches the word (R85). -/
def waitaPark (s : State) (c : Ctx) (w : Watch) : State :=
  let s := (dropWatch s c.f c.p.uid).modCore c.f.die c.f.core (fun x => { x with watches := x.watches ++ [{ uid := c.p.uid, w := w }] })
  hold (s.modFrag c.f (fun p => { p with watch := some w })) c.f .waita

/-- `waita` (R85, R225, R311). -/
def execWaita (h : Hdr) (cond : BitVec 2) (n64 acq : Bool) (sc : Scope) (a b : Opd) (s : State) :
    Host.Outcome State Fault Refusal :=
  .next (markOp h [a, b] (fun c s =>
    let off := kNat s c a
    let n := if n64 then 8 else 4
    let w : Watch := ⟨off, n, BitVec.ofNat 64 (kNat s c b), cond, if acq then some sc else none⟩
    if off % n != 0 then trapAt s c.f 4 (BitVec.ofNat 64 off)
    else if !inAllot c.g off n then trapAt s c.f 2 (BitVec.ofNat 64 off)
    else
      match lockHit (c.core s) false off n false with
      | some x => trapAt s c.f 0x0A (BitVec.ofNat 64 x)
      | none =>
        if acqOut s c.p.uid || opsHeld s c [(off, n)] [] then hold s c.f .stall
        else
          let s := progress s c.f
          if watchHolds (c.core s) w then waitaGo s c.f w else waitaPark s c w) s)

/-- `WAITA_WAKE`: a write has satisfied the comparison of a parked `waita`, or had it made in a locked range (R85, R88). -/
def execWaitaWake (f : FragRef) (s : State) : Host.Outcome State Fault Refusal :=
  .next (match ctxOf s f with
    | some c =>
      (match c.p.wait, c.p.watch, (c.core s).watches.find? (fun x => x.uid == c.p.uid) with
        | .waita, some w, some x =>
          if !c.g.resident || c.p.stopped || ((s.die f.die).halt && !c.p.defers) then s
          else
            (match x.bad with
              | some b => trapAt (dropWatch s f c.p.uid) f 0x0A (BitVec.ofNat 64 b)
              | none => if x.hit then waitaGo (dropWatch s f c.p.uid) f w else s)
        | _, _, _ => s)
    | none => s)

/-- A uniform result: a k register, or the same value in every active thread's w register (R312). -/
def uniResult (s : State) (c : Ctx) (d : Opd) (v : Nat) : State :=
  match d with
  | .k _ => writeDst s c d 64 [0] [v]
  | _ => writeDst s c d 32 (maskList c.p.am) ((maskList c.p.am).map (fun _ => v))

/-- Begins a uniform word that reads a k register's raw handle value (R80). -/
def rawOp (h : Hdr) (a : Opd) (body : Ctx → State → State) (s : State) : State :=
  (begin h.sw (kRegs [guardOpd h]) s).run (uniBody h [a] body)

/-- The index of a k register. -/
def kIdx : Opd → Nat
  | .k i => i.toNat
  | _ => 0

/-- `htest` (R312). -/
def execHtest (h : Hdr) (d a : Opd) (s : State) : Host.Outcome State Fault Refusal :=
  .next (rawOp h a (fun c s =>
    let i := kIdx a
    let v := if !c.w.kpend.getLsbD i || (handleStatus (c.core s) c.f.wg (c.w.readK i)).isSome then 1 else 0
    finish (uniResult s c d v) c.f 1) s)

/-- Before marking, a rebalance can be withdrawn (R128). -/
def rebalEarly (s : State) (c : Cmd) : Bool :=
  match c.kind with
  | .rebal sp _ => ((Tab.get? s.spaces sp).bind (·.rebal)).any (fun r => r.cmd == c.id && !r.ended && r.stage < 2)
  | _ => false

/-- A running copy stops: a free number of its bytes has been moved (R77, R82). -/
def stopCopy (s : State) (c : Cmd) : State := (copySome s c).1

/-- Drops the leave request of a command. -/
def dropLeave (s : State) (die id : Nat) : State :=
  s.modDie die (fun x => { x with leaveQ := x.leaveQ.filter (fun r =>
    match r.1 with | .give k | .mmv k => k != id | _ => true) })

/-- A drain waits in the matrix engine, which has not begun it (R82, R323). -/
def drainWaits (s : State) (c : Cmd) : Bool :=
  (s.core c.die c.core).mxq.any (fun e => match e.op with | .mdrn id _ _ _ _ => id == c.id | _ => false)

/-- A waiting drain leaves the matrix engine. -/
def dropDrain (s : State) (c : Cmd) : State :=
  s.modCore c.die c.core (fun x => { x with mxq := x.mxq.filter (fun e => match e.op with | .mdrn id _ _ _ _ => id != c.id | _ => true) })

/-- Withdraws a command (R82, R128): codes 0x0023 and 0x0017. A drain that its engine has begun, and any other running command that the table does not name,
goes on (log entry 106). -/
def cancelCmd (s : State) (c : Cmd) : State :=
  match c.st with
  | .waiting | .leave => cmdDone (dropLeave s c.die c.id) c.id 0x23
  | .running =>
    if c.kind.copyEngine then cmdDone (stopCopy s c) c.id 0x17
    else if drainWaits s c then cmdDone (dropDrain s c) c.id 0x23
    else if rebalEarly s c then
      let s := match c.kind with
        | .rebal sp _ =>
          (match Tab.get? s.spaces sp with
            | some x => s.setSpace sp { x with rebal := x.rebal.map (fun r => { r with ended := true }) }
            | none => s)
        | _ => s
      cmdDone s c.id 0x23
    else s
  | .done _ => s

/-- `hcan` (R82, R313). -/
def execHcan (h : Hdr) (a : Opd) (s : State) : Host.Outcome State Fault Refusal :=
  .next (rawOp h a (fun c s =>
    let v := c.w.readK (kIdx a)
    let s :=
      if v.getLsbD 63 then s
      else
        match handleEnt (c.core s) c.f.wg v with
        | none => s
        | some (e, x) =>
          if x.status.isSome then
            s.modCore c.f.die c.f.core (fun y => { y with handles := Tab.set y.handles e { x with used := false, status := none } })
          else
            match s.cmds.find? (fun k => k.die == c.f.die && k.core == c.f.core && k.wg == c.f.wg && k.ent == some e && k.hseq == x.seq) with
            | some k => cancelCmd s k
            | none => s
    finish s c.f 1) s)

/-! ### Queues (R90 to R92, R314, R315) -/

/-- The q index of an operand. -/
def qIdx : Opd → Nat
  | .q i => i.toNat
  | _ => 0

/-- `qbind` (R90, R314). -/
def execQbind (h : Hdr) (d a b : Opd) (s : State) : Host.Outcome State Fault Refusal :=
  .next (uniOp h [a, b] (fun c s =>
    let port := kNat s c a
    let off := kNat s c b
    if port ≥ 4 then illegal s c.f
    else if off % 1024 != 0 then trapAt s c.f 4 (BitVec.ofNat 64 off)
    else if !inAllot c.g off 1024 then trapAt s c.f 2 (BitVec.ofNat 64 off)
    else
      let i := qIdx d
      let s := s.modWgOf c.f (fun g =>
        let g := g.modQ i (fun _ => { port := port, ring := off })
        let un (p : Frag) : Frag := if p.occ && (p.wait == .pop i || p.wait == .push i) then { p with wait := .popDead i } else p
        { g with warps := g.warps.map (fun w => (w.1, { w.2 with s0 := un w.2.s0, s1 := un w.2.s1 })) })
      let s := s.modCore c.f.die c.f.core (fun x =>
        { x with pq := x.pq.map (fun e => if e.wg == c.f.wg && e.outQ == some i then { e with dead := true } else e) })
      finish s c.f 1) s)

/-- `qlen` (R315). -/
def execQlen (h : Hdr) (d a : Opd) (s : State) : Host.Outcome State Fault Refusal :=
  .next (uniOp h [] (fun c s => finish (uniResult s c d (c.g.queue (qIdx a)).count) c.f 1) s)

/-- `QUEUE_DEAD`: a waiting pop, or a push whose binding has gone, takes the queue-dead trap (R90, R92). -/
def execQueueDead (f : FragRef) (s : State) : Host.Outcome State Fault Refusal :=
  .next (match ctxOf s f with
    | some c =>
      if !c.g.resident || c.p.stopped || ((s.die f.die).halt && !c.p.defers) then s
      else
        match c.p.wait with
        | .popDead i => trapAt s f 0x0B (BitVec.ofNat 64 i)
        | .pop i =>
          let q := c.g.queue i
          if q.port == 0 || ((q.port == 1 || q.port == 2) && loneWarp c.g f.warp) || (q.port == 3 && q.faulted && !pulpPending s f i) then
            trapAt s f 0x0B (BitVec.ofNat 64 i)
          else s
        | _ => s
    | none => s)

/-! ### Channels (R316) -/

/-- The slot's bytes are checked as a thread access (R298, R316). -/
def chanCheck (s : State) (c : Ctx) (off : Nat) (wr : Bool) (go : State → State) : State :=
  if off % 8 != 0 then trapAt s c.f 4 (BitVec.ofNat 64 off)
  else if !inAllot c.g off 64 then trapAt s c.f 2 (BitVec.ofNat 64 off)
  else
    match lockHit (c.core s) false off 64 wr with
    | some x => trapAt s c.f 0x0A (BitVec.ofNat 64 x)
    | none =>
      if acqOut s c.p.uid || engineHeld s c { thr := none, va := off, n := 64, kind := if wr then .store else .load .b64 } then
        hold s c.f .stall
      else go s

/-- Changes a channel of the fragment's grid. -/
def modChan (s : State) (c : Ctx) (n : Nat) (g : Chan → Chan) : State :=
  s.modGrid c.f.die c.g.grid (fun y => { y with chans := Tab.modify y.chans n g })

/-- The channel of a word. -/
def chanOf (s : State) (c : Ctx) (n : Nat) : Option Chan := (s.grid? c.f.die c.g.grid).bind (fun y => Tab.get? y.chans n)

/-- `send` (R144, R316). -/
def execSend (h : Hdr) (ch : BitVec 6) (a : Opd) (s : State) : Host.Outcome State Fault Refusal :=
  .next (uniOp h [a] (fun c s =>
    let off := kNat s c a
    match chanOf s c ch.toNat with
    | none => illegal s c.f
    | some x =>
      if x.prod != c.g.wgid then trapAt s c.f 2 (BitVec.ofNat 64 off)
      else
        chanCheck s c off false (fun s =>
          let s := progress s c.f
          if x.consGone then finish s c.f 1
          else if !released s c.f c.p.uid .die then holdRel s c.f
          else if x.filled.length ≥ x.cap then hold s c.f .stall
          else
            let core := c.core s
            let ps := (List.range 8).filter (fun u => scrPois core (off + 8 * u) 8)
            finish (modChan s c ch.toNat (fun x => { x with filled := x.filled ++ [(scrRead core off 64, ps)] })) c.f 1)) s)

/-- `recv` (R144, R316). -/
def execRecv (h : Hdr) (ch : BitVec 6) (a : Opd) (s : State) : Host.Outcome State Fault Refusal :=
  .next (uniOp h [a] (fun c s =>
    let off := kNat s c a
    match chanOf s c ch.toNat with
    | none => illegal s c.f
    | some x =>
      if x.cons != c.g.wgid then trapAt s c.f 2 (BitVec.ofNat 64 off)
      else
        chanCheck s c off true (fun s =>
          let s := progress s c.f
          match x.filled with
          | [] => if x.closed then trapAt s c.f 0x0C (BitVec.ofNat 64 ch.toNat) else hold s c.f .stall
          | (bs, ps) :: t =>
            let s := modChan s c ch.toNat (fun x => { x with filled := t })
            let s := s.modCore c.f.die c.f.core (fun y => (List.range 8).foldl (fun y u =>
              scrWrite y (off + 8 * u) (bytesAt bs (8 * u) 8) (ps.contains u)) y)
            finish (acquire s c.f .die) c.f 1)) s)

end Sys2Proof.Machine
end

