-- ==== Sys2Proof/Machine/KeySpace.lean ====
section
/-! DEFINITION. The key-space instructions, opcodes 0xA0 to 0xAD, the directory agents, cost counters and the steps of a
rebalance (04 R97 to R129; 12 R317 to R320). -/

namespace Sys2Proof.Machine

/-! ### Key arithmetic (R101, R317) -/

/-- What a key instruction gives a thread: a value or the key-space trap with its `trapinfo`. -/
inductive KOut where
  | val (v : W64)
  | trap (info : W64)
  | open_
  deriving DecidableEq, Repr, Inhabited

/-- A key of a created space whose group has the die (R99, R103). -/
def keyHere (s : State) (d : Nat) (k : W64) : Option Space :=
  match keySpace s k with
  | some x => if x.grp.getLsbD d then some x else none
  | none => none

/-- An imprecise key-space trap of a thread (R318, R413). -/
def keyTrap (s : State) (c : Ctx) (thr : Option Nat) (info : W64) : State :=
  let (id, s) := s.fresh
  let a : Acc := { id := id, frag := c.f, word := c.p.pc, uid := c.p.uid, wuid := c.w.wuid, seq := c.p.seq, thr := thr, kind := .value
                   st := .bad 0x11 info }
  { s with accs := s.accs ++ [a] }

/-- A key-arithmetic word: variable-latency results, one for each acting thread, or one for the warp (R317). -/
def keyWord (h : Hdr) (d : Opd) (srcs : List Src) (op : State → Nat → List Nat → KOut) (s : State) : State :=
  let uni := d.isK
  (begin h.sw (kRegs (guardOpd h :: srcs.map (·.o))) s).run (fun c s =>
    let ts := memThreads c h uni
    (checkPois c h uni (ts.map thrOf) (srcs.map (·.o)) s).run (fun c s =>
      let s := ts.foldl (fun s t =>
        match op s c.f.die (srcs.map (opVal s c uni (thrOf t))) with
        | .val v => launchValue s c t (dstOf c (thrOf t) d) v false none
        | .trap info => keyTrap s c t info
        | .open_ =>
          let (a, s) := s.takeWord
          let (b, s) := s.takeWord
          keyTrap s c t (b ++ a)) s
      finish s c.f (if uni then 1 else laneCycles ts.length)))

/-- Bits of a coordinate in the packed form (R317). -/
def coordBits (d : Nat) : Nat := 54 / d

/-- The coordinates of a packed value (R317). -/
def unpackCoords (d x : Nat) : List Nat := (List.range d).map (fun a => bitsOf x (a * coordBits d) (coordBits d))

/-- Packed coordinates (R317). -/
def packCoords (d : Nat) (xs : List Nat) : Nat := sumN ((xs.zipIdx).map (fun p => p.1 * 2 ^ (p.2 * coordBits d)))

/-- `kmk` (R101, R317). What `trapinfo` holds for it is open. -/
def kmkOut (s : State) (d : Nat) (a b : Nat) : KOut :=
  let lv := bitsOf b 0 6
  let sp := bitsOf b 8 4
  match spaceOk s sp d with
  | none => .open_
  | some x =>
    let xs := unpackCoords x.dim a
    if bitsOf b 6 2 != 0 || bitsOf b 12 20 != 0 || lv > maxLev x.dim || xs.any (fun c => c ≥ 2 ^ lv) then .open_
    else .val (keyMake sp x.dim lv xs)

/-- An instruction on one key: the invalid key gives `bad`, a malformed one the trap (R101). -/
def onKey (s : State) (d : Nat) (k : Nat) (bad : W64) (op : Space → W64 → KOut) : KOut :=
  let k : W64 := BitVec.ofNat 64 k
  if k == badKey then .val bad
  else
    match keyHere s d k with
    | none => .trap k
    | some x => op x k

/-- A 64-bit source. -/
def k64 (o : Opd) : Src := ⟨o, 64, .int⟩

/-- A 32-bit source. -/
def k32 (o : Opd) : Src := ⟨o, 32, .int⟩

/-- `kmk` (R317). -/
def execKmk (h : Hdr) (d a b : Opd) (s : State) : Host.Outcome State Fault Refusal :=
  .next (keyWord h d [k64 a, k32 b] (fun s die v => kmkOut s die (arg v 0) (arg v 1)) s)

/-- `kpar` (R101). -/
def execKpar (h : Hdr) (d a : Opd) (s : State) : Host.Outcome State Fault Refusal :=
  .next (keyWord h d [k64 a] (fun s die v => onKey s die (arg v 0) badKey (fun x k => .val (keyParent x.dim k))) s)

/-- `kchd` (R101). -/
def execKchd (h : Hdr) (d a b : Opd) (s : State) : Host.Outcome State Fault Refusal :=
  .next (keyWord h d [k64 a, k32 b] (fun s die v => onKey s die (arg v 0) badKey (fun x k =>
    if arg v 1 ≥ 2 ^ x.dim then .trap k else .val (keyChild x.dim k (arg v 1)))) s)

/-- `knbr` (R101). -/
def execKnbr (h : Hdr) (d a b : Opd) (s : State) : Host.Outcome State Fault Refusal :=
  .next (keyWord h d [k64 a, k32 b] (fun s die v => onKey s die (arg v 0) badKey (fun x k =>
    if arg v 1 > 5 || arg v 1 / 2 ≥ x.dim then .trap k else .val (keyNbr x k (arg v 1)))) s)

/-- `klv` (R101): 63 for the invalid key. -/
def execKlv (h : Hdr) (d a : Opd) (s : State) : Host.Outcome State Fault Refusal :=
  .next (keyWord h d [k64 a] (fun s die v => onKey s die (arg v 0) 63 (fun _ k => .val (BitVec.ofNat 64 (keyLv k)))) s)

/-- `kcrd` (R101, R317): all ones for the invalid key. -/
def execKcrd (h : Hdr) (d a : Opd) (s : State) : Host.Outcome State Fault Refusal :=
  .next (keyWord h d [k64 a] (fun s die v => onKey s die (arg v 0) badKey (fun x k =>
    .val (BitVec.ofNat 64 (packCoords x.dim ((List.range x.dim).map (keyCoord x.dim k)))))) s)

/-! ### Lookups, owners and pins (R113 to R116, R318) -/

/-- The agent of a die has writes that wait for their memory (R104). -/
def agentBusy (s : State) (d : Nat) : Bool := s.dirW.any (fun e => e.1 == d)

/-- The operation has to wait now: a deckle commit, a moving block for `klook.w`, or an agent whose earlier writes wait (R104, R112, R114). -/
def dirWaits (s : State) (d : Nat) (op : DirOp) : Bool :=
  let on (k : W64) (w : Bool) : Bool :=
    match keySpace s k with
    | some x => deckleStall x d || agentBusy s (segDie x (partOf x.cuts k)) || (w && (lookRec x k).any (fun r => r.2.st == 3))
    | none => false
  match op with
  | .look k w => on k w
  | .own k => keyStall s d k
  | .pin k _ => on k false
  | .unpin a _ => s.spaces.any (fun e => e.2.recs.any (fun r => recAddr e.2 r.2 == a && (deckleStall e.2 d || agentBusy s (segDie e.2 r.2.part))))

/-- The key of an operation. -/
def DirOp.key? : DirOp → Option W64
  | .look k _ | .own k | .pin k _ => some k
  | .unpin _ _ => none

/-- The space of a record address (R115). -/
def recAt (s : State) (a : W64) : Option (Nat × Nat × KRec) :=
  s.spaces.findSome? (fun e => (e.2.recs.find? (fun r => recAddr e.2 r.2 == a)).map (fun r => (e.1, r.1, r.2)))

/-- The key or the record address of an operation. -/
def DirOp.operand : DirOp → W64
  | .look k _ | .own k | .pin k _ => k
  | .unpin a _ => a

/-- The number of the space that an operation names. -/
def DirOp.sp? (s : State) : DirOp → Option Nat
  | .look k _ | .own k | .pin k _ => some (keySp k)
  | .unpin a _ => (recAt s a).map (·.1)

/-- The space of a number is the one that was named at issue, and no later space of its number (R389). -/
def sameSpace (s : State) (sid : Option Nat) (sp : Nat) : Bool :=
  sid.all (fun i => (Tab.get? s.spaces sp).any (fun x => x.sid == i))

/-- The identity of a space that is named at issue (R389). -/
def sidOf (s : State) (sp : Nat) : Option Nat := (Tab.get? s.spaces sp).map (·.sid)

/-- Issues one thread's directory operation (R318). -/
def launchDir (s : State) (c : Ctx) (t : Option Nat) (op : DirOp) (d e : Dst) (acq : Option Scope) : State :=
  match op.key?.filter (fun k => (keyHere s c.f.die k).isNone) with
  | some k => keyTrap s c t k
  | none =>
    let (id, s) := s.fresh
    { s with accs := s.accs ++ [{ id := id, frag := c.f, word := c.p.pc, uid := c.p.uid, wuid := c.w.wuid, seq := c.p.seq, thr := t
                                  kind := .dir op, dst := d, dst2 := e, acq := acq, st := .home, sid := (op.sp? s).bind (sidOf s) }] }

/-- A word of directory operations: it parks the fragment while one of them waits (R318). -/
def dirWord (h : Hdr) (uni : Bool) (os : List Opd) (rel acq : Option Scope) (prog : Bool)
    (mk : State → Ctx → Nat → DirOp × Dst × Dst) (s : State) : State :=
  memWord h uni os os (fun c ts s =>
    if acqOut s c.p.uid then hold s c.f .stall
    else if rel.any (fun sc => !released s c.f c.p.uid sc) then holdRel s c.f
    else
      let ops := ts.map (fun t => (t, mk s c (thrOf t)))
      let park := ops.any (fun o => dirWaits s c.f.die o.2.1)
      let s := ops.foldl (fun s o => launchDir s c o.1 o.2.1 o.2.2.1 o.2.2.2 acq) s
      let s := if prog then progress s c.f else s
      let s := finish s c.f (if uni then 1 else laneCycles ts.length)
      if park then s.modFrag c.f (fun p => { p with wait := .dir }) else s) s

/-- The key operand of a thread. -/
def keyVal (s : State) (c : Ctx) (uni : Bool) (t : Nat) (a : Opd) : W64 := BitVec.ofNat 64 (opVal s c uni t (k64 a))

/-- `klook` (R114, R116). -/
def execKlook (h : Hdr) (d a e : Opd) (s : State) : Host.Outcome State Fault Refusal :=
  .next (dirWord h d.isK [a] none (some .fab) false
    (fun s c t => (.look (keyVal s c d.isK t a) false, dstOf c t d, dstOf c t e)) s)

/-- `klook.w` (R114, R116). -/
def execKlookW (h : Hdr) (d a e : Opd) (s : State) : Host.Outcome State Fault Refusal :=
  .next (dirWord h d.isK [a] none (some .fab) false
    (fun s c t => (.look (keyVal s c d.isK t a) true, dstOf c t d, dstOf c t e)) s)

/-- `kown` (R113). -/
def execKown (h : Hdr) (d a : Opd) (s : State) : Host.Outcome State Fault Refusal :=
  .next (dirWord h d.isK [a] none none false (fun s c t => (.own (keyVal s c d.isK t a), dstOf c t d, .none)) s)

/-- `kpin.r` (R115). -/
def execKpinR (h : Hdr) (d a e : Opd) (s : State) : Host.Outcome State Fault Refusal :=
  .next (dirWord h d.isK [a] none (some .fab) true
    (fun s c t => (.pin (keyVal s c d.isK t a) false, dstOf c t d, dstOf c t e)) s)

/-- `kpin.w` (R115). -/
def execKpinW (h : Hdr) (d a e : Opd) (s : State) : Host.Outcome State Fault Refusal :=
  .next (dirWord h d.isK [a] none (some .fab) true
    (fun s c t => (.pin (keyVal s c d.isK t a) true, dstOf c t d, dstOf c t e)) s)

/-- `kunpin.r` (R115). -/
def execKunpinR (h : Hdr) (a : Opd) (s : State) : Host.Outcome State Fault Refusal :=
  .next (dirWord h a.isK [a] none none true (fun s c t => (.unpin (keyVal s c a.isK t a) false, .none, .none)) s)

/-- `kunpin.w`: a release at `.fab` (R115, R116). -/
def execKunpinW (h : Hdr) (a : Opd) (s : State) : Host.Outcome State Fault Refusal :=
  .next (dirWord h a.isK [a] (some .fab) none true (fun s c t => (.unpin (keyVal s c a.isK t a) true, .none, .none)) s)

/-! ### Pools (R102, R104, R117, R126) -/

/-- Changes a part. -/
def Space.modPart (x : Space) (j : Nat) (g : Part → Part) : Space := { x with parts := listMod x.parts j g }

/-- The segments that the agent of part `j` holds. -/
def segsOf (x : Space) (j : Nat) : List Nat := (List.range x.parts.length).filter (fun i => agentOf x i == j)

/-- Free records of part `j`. -/
def freeRecs (x : Space) (j : Nat) : List (Nat × Nat) :=
  (segsOf x j).flatMap (fun i => ((x.parts[i]?).map (fun p => p.recFree.map (fun r => (i, r)))).getD [])

/-- Free slots of part `j`: the segment whose pool lists it, and the slot. -/
def freeSlots (x : Space) (j : Nat) : List (Nat × Nat × Nat) :=
  (segsOf x j).flatMap (fun i => ((x.parts[i]?).map (fun p => p.slotFree.map (fun r => (i, r)))).getD [])

/-- A free element of a list: which one is open (log entry 3). -/
def pickOf {α : Type} (s : State) (l : List α) : Option α × State :=
  match l with
  | [] => (none, s)
  | x :: _ =>
    let (i, s) := s.takeNat l.length
    (some ((l[i]?).getD x), s)

/-- The address of a slot (R104, R388). -/
def slotAddr (x : Space) (seg i : Nat) : W64 :=
  match x.parts[seg]? with
  | some p => BitVec.ofNat 64 (blockBase x p + x.slot * i)
  | none => 0

/-- Takes a record and, when `sl` holds, a slot of part `j`. -/
def takePool (s : State) (x : Space) (j : Nat) (sl : Bool) : Option (Space × (Nat × Nat) × Option (Nat × Nat)) × State :=
  match pickOf s (freeRecs x j) with
  | (none, s) => (none, s)
  | (some (seg, rix), s) =>
    let x := x.modPart seg (fun p => { p with recFree := p.recFree.filter (· != rix) })
    if !sl then (some (x, (seg, rix), none), s)
    else
      match pickOf s (freeSlots x j) with
      | (none, s) => (none, s)
      | (some (pool, slot), s) =>
        let x := x.modPart pool (fun p => { p with slotFree := p.slotFree.filter (· != slot) })
        (some (x, (seg, rix), some slot), s)

/-- Returns a record's slot to the pool of its segment, and its record (R104). -/
def freePool (x : Space) (r : KRec) (slot : Bool) : Space :=
  let x := x.modPart r.part (fun p => { p with recFree := p.recFree ++ [r.rix] })
  if slot then x.modPart r.part (fun p => { p with slotFree := p.slotFree ++ [(r.sto, r.sti)] }) else x

/-- Adds a record to a space. -/
def Space.addRec (x : Space) (r : KRec) : Space × Nat :=
  ({ x with recs := Tab.set x.recs x.nextRec r, nextRec := x.nextRec + 1 }, x.nextRec)

/-- Writes every record and every key index of a space to memory (R104, R105). -/
def syncSpace (s : State) (sp : Nat) : State :=
  match Tab.get? s.spaces sp with
  | none => s
  | some x =>
    let s := x.recs.foldl (fun s r => writeRec x s r.2) s
    (List.range x.parts.length).foldl (fun s j => putIndex s sp j) s

/-- An absent record goes when its last read pin does (R106, R127). -/
def reapRec (s : State) (sp i : Nat) (r : KRec) : State :=
  if r.st == 0 && r.rpin == 0 then
    match Tab.get? s.spaces sp with
    | some x =>
      let s := clearRec s sp i r
      let x := { (freePool x r (!r.keep)) with recs := Tab.erase x.recs i }
      s.setSpace sp x
    | none => s
  else s

/-! ### One operation of a directory agent (R104, R114, R115, R119, R129) -/

/-- The result of an operation: two values, or a trap. -/
def dirDo (s : State) (d : Nat) (op : DirOp) : State × Except W64 (W64 × W64) :=
  match op with
  | .look k _ =>
    match keyHere s d k with
    | none => (s, .error k)
    | some x =>
      match lookRec x k with
      | some (_, r) => (s, .ok (recAddr x r, lookWord r k))
      | none => (s, .error k)
  | .own k =>
    match keyHere s d k with
    | none => (s, .error k)
    | some x => (s, .ok (BitVec.ofNat 64 (ownerTgt x k).toNat, 0))
  | .pin k wr =>
    match keyHere s d k with
    | none => (s, .error k)
    | some x =>
      match recOf x k with
      | none => (s, .ok (0, 1))
      | some (i, r) =>
        let a := recAddr x r
        if wr && r.st == 3 then (s, .ok (a, 2))
        else if (if wr then r.wpin else r.rpin) ≥ 65535 then (s, .ok (a, 3))
        else
          let r := if wr then { r with wpin := r.wpin + 1 } else { r with rpin := r.rpin + 1 }
          (putRec s (keySp k) i r, .ok (a, 0))
  | .unpin a wr =>
    match recAt s a with
    | none => (s, .error a)
    | some (sp, i, r) =>
      if (if wr then r.wpin else r.rpin) = 0 || (spaceOk s sp d).isNone then (s, .error a)
      else
        let r := if wr then { r with wpin := r.wpin - 1 } else { r with rpin := r.rpin - 1 }
        (reapRec (putRec s sp i r) sp i r, .ok (0, 0))

/-- An operation of the fragment on a directory waits (R318). -/
def dirWaiting (s : State) (uid : Nat) : Bool :=
  s.accs.any (fun x => x.uid == uid && x.st == .home && (match x.kind with | .dir op => dirWaits s x.frag.die op | _ => false))

/-- The fragment of a waiting operation parks (R318). -/
def dirPark (s : State) (a : Acc) : State :=
  s.modFrag a.frag (fun p => if p.uid == a.uid && !p.wait.parked then { p with wait := .dir } else p)

/-- An operation on an access in flight: it waits, with its fragment parked, or is performed with all its writes (R104, R318). -/
def dirAcc (s : State) (a : Acc) (op : DirOp) : State :=
  let s := flushDir s
  let earlier := (s.accs.takeWhile (fun x => x.id != a.id)).any (fun x =>
    x.uid == a.uid && x.thr == a.thr && x.st == .home && (match x.kind with | .dir _ => true | _ => false))
  if a.st != .home || earlier then s
  else if dirWaits s a.frag.die op then dirPark s a
  else
    let (t, r) := if (op.sp? s).all (sameSpace s a.sid) then dirDo s a.frag.die op else (s, .error op.operand)
    if t.dirW != s.dirW then dirPark s a
    else
      let t := match r with
        | .error info => t.modAcc a.id (fun a => { a with st := .bad 0x11 info })
        | .ok (v, w) => t.modAcc a.id (fun a => { a with val := v, val2 := w, st := .done })
      if dirWaiting t a.uid then t
      else t.modFrag a.frag (fun p => if p.uid == a.uid && p.wait == .dir then { p with wait := .none } else p)

/-- A face neighbour of a key. -/
def faceNbrs (x : Space) (k : W64) : List W64 :=
  ((List.range (2 * x.dim)).map (keyNbr x k)).filter (· != badKey)

/-- The status that a lookup would return (R114). -/
def lookSt (x : Space) (k : W64) : Nat :=
  match lookRec x k with
  | some (_, r) => bitsOf (lookWord r k).toNat 0 3
  | none => 7

/-- The agent of a part has received the notification of a rebalance: the directory agent of its die, for whichever of its parts (R104, R117, R122). -/
def rebalNoted (x : Space) (j : Nat) : Bool := x.rebal.any (fun r => r.noted.any (fun i => segDie x i == segDie x j))

/-- The children of a key. -/
def childKeys (x : Space) (k : W64) : List W64 := (List.range (2 ^ x.dim)).map (keyChild x.dim k)

/-- The first condition that ends a `refine` (R117). -/
def refineFail (s : State) (d : Nat) (k : W64) (fmt : Nat) : Option Nat :=
  match keyHere s d k with
  | none => some 0x30
  | some x =>
    let j := partOf x.cuts k
    let r := (recOf x k).map (·.2)
    let f := if fmt = 255 then ((r.map (fun q : KRec => q.efmt)).getD 0).toNat else fmt
    firstFail [
      (rebalNoted x j, 0x36),
      (r.any (fun r => r.st == 3), 0x33),
      (!r.any (fun r => r.st == 1), 0x31),
      (keyLv k ≥ maxLev x.dim, 0x34),
      (r.any (fun r => r.wpin != 0), 0x32),
      (match dsizeOf x f with | some n => n > x.slot | none => true, 0x3A),
      (x.b21 && (faceNbrs x k).any (fun n => lookSt x n == 1), 0x35),
      ((freeRecs x j).length < 2 ^ x.dim || (freeSlots x j).length < 2 ^ x.dim, 0x37)]

/-- Creates the children of a refined leaf (R117). -/
def makeKids (j : Nat) (p : KRec) (fmt : Byte) (size : Nat) : List W64 → Space → State → Space × State
  | [], x, s => (x, s)
  | k :: t, x, s =>
    match takePool s x j true with
    | (some (x, (seg, rix), some (so, si)), s) =>
      let r : KRec := { key := k, part := seg, rix := rix, slot := slotAddr x so si, sto := so, sti := si, st := 1, otgt := p.otgt
                        efmt := fmt, dsize := BitVec.ofNat 32 size, cost := BitVec.ofNat 32 (p.cost.toNat / 2 ^ x.dim)
                        per := touchesPer x k }
      makeKids j p fmt size t (x.addRec r).1 s
    | (_, s) => (x, s)

/-- `refine` at its agent (R117). -/
def refineDo (s : State) (c : Cmd) (k : W64) (fmt : Nat) : State :=
  match if sameSpace s c.sid (keySp k) then refineFail s c.die k fmt else some 0x30 with
  | some code => cmdDone s c.id (BitVec.ofNat 64 code)
  | none =>
    match keySpace s k with
    | none => cmdDone s c.id 0x30
    | some x =>
      match recOf x k with
      | none => cmdDone s c.id 0x31
      | some (i, r) =>
        let f : Byte := if fmt = 255 then r.efmt else BitVec.ofNat 8 fmt
        let size := (dsizeOf x f.toNat).getD 0
        let (x, s) := makeKids (partOf x.cuts k) r f size (childKeys x k) x s
        let x := { x with recs := Tab.set x.recs i { r with st := 2, cost := 0 } }
        cmdDone (syncSpace (s.setSpace (keySp k) x) (keySp k)) c.id 0

/-- The first condition that ends a `coarsen` (R118). -/
def coarsenFail (s : State) (d : Nat) (k : W64) : Option Nat :=
  match keyHere s d k with
  | none => some 0x30
  | some x =>
    let r := (recOf x k).map (·.2)
    let cks := if keyLv k < maxLev x.dim then childKeys x k else []
    let kids := cks.map (fun c => (x.recs.find? (fun e => e.2.key == c && e.2.seen)).map (·.2))
    firstFail [
      (rebalNoted x (partOf x.cuts k), 0x36),
      (r.any (fun r => r.st == 3) || kids.any (fun c => c.any (fun r => r.st == 3)), 0x33),
      (!r.any (fun r => r.st == 2) || kids.any (fun c => !c.any (fun r => r.st == 1)), 0x31),
      (r.any (fun r => r.wpin != 0) || kids.any (fun c => c.any (fun r => r.wpin != 0 || r.rpin != 0)), 0x32),
      (cks.any (fun c => x.cuts.contains c), 0x38),
      (x.b21 && cks.any (fun c => (faceNbrs x c).any (fun n => !keyUnder x.dim k n && lookSt x n == 2)), 0x35)]

/-- `coarsen` at its agent (R118). -/
def coarsenDo (s : State) (c : Cmd) (k : W64) : State :=
  match if sameSpace s c.sid (keySp k) then coarsenFail s c.die k else some 0x30 with
  | some code => cmdDone s c.id (BitVec.ofNat 64 code)
  | none =>
    match keySpace s k with
    | none => cmdDone s c.id 0x30
    | some x =>
      match recOf x k with
      | none => cmdDone s c.id 0x31
      | some (i, r) =>
        let kids := x.recs.filter (fun e => (childKeys x k).contains e.2.key && e.2.st == 1)
        let cost := min 0xFFFFFFFF (sumN (kids.map (fun e => e.2.cost.toNat)))
        let s := kids.foldl (fun s e => clearRec s (keySp k) e.1 e.2) s
        let x := kids.foldl (fun x e => { (freePool x e.2 true) with recs := Tab.erase x.recs e.1 }) x
        let x := { x with recs := Tab.set x.recs i { r with st := 1, cost := BitVec.ofNat 32 cost } }
        cmdDone (syncSpace (s.setSpace (keySp k) x) (keySp k)) c.id 0

/-- The key of a structural command. -/
def CmdKind.skey? : CmdKind → Option W64
  | .refine k _ | .coarsen k => some k
  | _ => none

/-- Two commands that one warp issued. -/
def sameWarp (a b : Cmd) : Bool := a.frag.isSome && b.frag.isSome && a.die == b.die && a.wuid == b.wuid

/-- An earlier structural command of the same warp on the same segment has not been performed (R320). -/
def skeyHeld (s : State) (c : Cmd) (k : W64) : Bool :=
  (s.cmds.takeWhile (fun x => x.id != c.id)).any (fun x =>
    x.st == .waiting && sameWarp x c &&
    x.kind.skey?.any (fun q => keySp q == keySp k &&
      (match Tab.get? s.spaces (keySp k) with | some y => partOf y.cuts q == partOf y.cuts k | none => true)))

/-- A structural command at its agent. -/
def structDo (s : State) (c : Cmd) (k : W64) : State :=
  let stall := (Tab.get? s.spaces (keySp k)).any (fun x => deckleStall x c.die || agentBusy s (segDie x (partOf x.cuts k)))
  if c.st != .waiting || stall || skeyHeld s c k then s
  else
    match c.kind with
    | .refine _ fmt => refineDo s c k fmt
    | .coarsen _ => coarsenDo s c k
    | _ => s

/-- `DIRECTORY_OPERATION` (R104): of an access in flight, or of a structural command. -/
def execDirectoryOperation (id : Nat) (s : State) : Host.Outcome State Fault Refusal :=
  .next (match s.acc? id with
    | some a =>
      (match a.kind with
        | .dir op => dirAcc s a op
        | _ => s)
    | none =>
      match s.cmd? id with
      | some c => (match c.kind.skey? with | some k => dirStep s (fun s => structDo s c k) | none => s)
      | none => s)

/-- `COST_ADD`: counts of a bound warp reach the record (R121). -/
def execCostAdd (f : FragRef) (s : State) : Host.Outcome State Fault Refusal :=
  .next (match s.warp? f with
    | some w =>
      (match w.bound with
        | some k =>
          if w.costDue = 0 || keyStall s f.die k || !(keySpace s k).any (fun x => (lookRec x k).isSome) then s
          else (addCost s k 1).modWarp f (fun w => { w with costDue := w.costDue - 1 })
        | none => s)
    | none => s)

/-! ### Structural commands (R319) -/

/-- The completion word of a structural command: its offset register's bits (R319). -/
def structCw (s : State) (c : Ctx) (cw : CwMod) (val : W64) (o : Opd) : List (Bool × Nat) × Option CWord :=
  let v := if cw.cw then kNat s c o else 0
  (cwChecks c.g cw val (bitsOf v 0 19) (v / 2 ^ 19 != 0), cwordOf cw (bitsOf v 0 19) val)

/-- Operands of a structural command: the offset register only with a completion word. -/
def structOs (cw : CwMod) (os : List Opd) (c : Opd) : List Opd := if cw.cw then os ++ [c] else os

/-- `refine` (R117, R319). -/
def execRefine (h : Hdr) (cw : CwMod) (d a b c : Opd) (s : State) : Host.Outcome State Fault Refusal :=
  .next (cmdWord h cw d (structOs cw [a, b] c) (fun s x val =>
    let (ch, w) := structCw s x cw val c
    let k : W64 := BitVec.ofNat 64 (kNat s x a)
    { fail := firstFail ch, kind := .refine k (kNat s x b), cw := w, sid := sidOf s (keySp k) }) s)

/-- `coarsen` (R118, R319). -/
def execCoarsen (h : Hdr) (cw : CwMod) (d a c : Opd) (s : State) : Host.Outcome State Fault Refusal :=
  .next (cmdWord h cw d (structOs cw [a] c) (fun s x val =>
    let (ch, w) := structCw s x cw val c
    let k : W64 := BitVec.ofNat 64 (kNat s x a)
    { fail := firstFail ch, kind := .coarsen k, cw := w, sid := sidOf s (keySp k) }) s)

/-- The length of a rebalance descriptor (R122). -/
def rebalLen (n : Nat) : Nat := ceilDiv (32 + 2 * (n + 1)) 64 * 64

/-- The fields of a rebalance descriptor are legal (R122). -/
def rebalDescOk (n : Nat) (bs : List Byte) : Bool :=
  let ws := (List.range (n + 1)).map (fun p => fieldAt bs (32 + 2 * p) 2)
  let zero (lo len : Nat) : Bool := (bytesAt bs lo len).all (· == 0)
  zero (32 + 2 * (n + 1)) (bs.length - (32 + 2 * (n + 1))) && sumN ws != 0 && fieldAt bs 0 16 < 2 ^ n && zero 18 2 && zero 24 8

/-- The request of a `rebal` (R122, R319). -/
def rebalReq (s : State) (c : Ctx) (cw : CwMod) (val : W64) (sp desc : Nat) (o : Opd) : CmdReq :=
  let (ch, w) := structCw s c cw val o
  match (if sp < 16 then spaceOk s sp c.f.die else none) with
  | none => { fail := firstFail (ch ++ [(true, 0x30)]), kind := .rebal sp desc, cw := w }
  | some x =>
    let len := rebalLen x.cuts.length
    { fail := firstFail (ch ++ [(desc % 64 != 0, 0x16), (!inAllot c.g desc len, 0x14), (scrPois (c.core s) desc len, 0x12),
        (!rebalDescOk x.cuts.length (scrRead (c.core s) desc len), 0x39)])
      kind := .rebal sp desc
      locks := [(false, desc, len, false)]
      cw := w
      sid := some x.sid }

/-- `rebal` (R122, R319): its descriptor is read when the earlier accesses of the agent are complete (R144, R146). -/
def execRebal (h : Hdr) (cw : CwMod) (d a b c : Opd) (s : State) : Host.Outcome State Fault Refusal :=
  .next (uniOp h (if cw.cw then d :: structOs cw [a, b] c else structOs cw [a, b] c) (fun x s =>
    let val : W64 := if cw.cw then BitVec.ofNat 64 (kNat s x d) else 0
    if acqOut s x.p.uid || !settledAll s x.f x.p.uid then hold s x.f .stall
    else issueCmd s x d (rebalReq s x cw val (kNat s x a) (kNat s x b) c)) s)

/-- A hand-over of the stack is in progress or awaits leave (R35). -/
def hovBusy (s : State) (i : Nat) : Bool :=
  (s.stk i).hov.isSome || (s.die (stkDies i).1).hov.getLsbD i || (s.die (stkDies i).2).hov.getLsbD i ||
  s.cmds.any (fun c => c.kind == .shovGive i && (c.st == .leave || c.st == .running))

/-- `shov.give` (R35, R319). -/
def execShovGive (h : Hdr) (d a : Opd) (s : State) : Host.Outcome State Fault Refusal :=
  .next (cmdWord h { cw := false, sc := .wg } d [a] (fun s x _ =>
    let i := kNat s x a
    { fail := firstFail [(i ≥ 8 || !attached s x.f.die i, 0x22), (!(s.die x.f.die).own.getLsbD i, 0x21), (hovBusy s i, 0x24)]
      kind := .shovGive i, st := .leave }) s)

/-- `shov.take` (R38, R319). -/
def execShovTake (h : Hdr) (cw : CwMod) (d a c : Opd) (s : State) : Host.Outcome State Fault Refusal :=
  .next (cmdWord h cw d (structOs cw [a] c) (fun s x val =>
    let (ch, w) := structCw s x cw val c
    let i := kNat s x a
    let own := (s.die x.f.die).own.getLsbD i
    let pend := s.cmds.any (fun k => k.die == x.f.die && k.kind == .shovTake i && k.st == .waiting)
    { fail := firstFail (ch ++ [(i ≥ 8 || !attached s x.f.die i, 0x22), (!own && pend, 0x24)])
      kind := .shovTake i, cw := w, st := if own then .done 0 else .waiting }) s)

/-! ### Rebalance (R122 to R128) -/

/-- Changes the rebalance of a space. -/
def Space.modRebal (x : Space) (g : Rebal → Rebal) : Space := { x with rebal := x.rebal.map g }

/-- The dies of a group other than the deckle home. -/
def otherDies (x : Space) : List Nat := (List.range 4).filter (fun d => x.grp.getLsbD d && d != x.home)

/-- An earlier `rebal` of the same warp for the space has not reached the home (R320). -/
def rebalHeld (s : State) (c : Cmd) (sp : Nat) : Bool :=
  (s.cmds.takeWhile (fun x => x.id != c.id)).any (fun x =>
    sameWarp x c && x.st == .waiting && (match x.kind with | .rebal q _ => q == sp | _ => false))

/-- `REBALANCE_NOTIFY`: the home accepts a `rebal`, or one more agent receives its notification (R122). -/
def execRebalanceNotify (id : Nat) (s : State) : Host.Outcome State Fault Refusal :=
  .next (match s.cmd? id with
    | none => s
    | some c =>
      match c.kind with
      | .rebal sp desc =>
        (match Tab.get? s.spaces sp with
          | none => if c.st == .waiting then cmdDone s id 0x30 else s
          | some x =>
            if c.st == .waiting then
              if rebalHeld s c sp || deckleStall x c.die then s
              else if !sameSpace s c.sid sp then cmdDone s id 0x30
              else if x.rebal.isSome then cmdDone s id 0x36
              else
                let n := x.cuts.length
                let bs := scrRead (s.core c.die c.core) desc (rebalLen n)
                let r : Rebal := { cmd := id, mask := BitVec.ofNat 128 (fieldAt bs 0 16), h := fieldAt bs 16 2, pat := fieldAt bs 20 4
                                   w := (List.range (n + 1)).map (fun p => fieldAt bs (32 + 2 * p) 2) }
                (s.setSpace sp { x with rebal := some r }).modCmd id (fun c => { c with st := .running })
            else
              match x.live with
              | some r =>
                if r.cmd != id || r.stage != 0 then s
                else
                  let left := (List.range x.parts.length).filter (fun j => !r.noted.contains j)
                  (match pickOf s left with
                    | (some j, s) => s.setSpace sp (x.modRebal (fun r => { r with noted := j :: r.noted }))
                    | (none, s) => s)
              | none => s)
      | _ => s)

/-- Leaves of a space in key order. -/
def leavesOf (x : Space) : List KRec :=
  (sortBy (fun a b => decide (a.2.key.toNat < b.2.key.toNat)) (x.recs.filter (fun r => r.2.st == 1))).map (·.2)

/-- The planned cuts (R123). -/
def planCuts (x : Space) (r : Rebal) : List W64 :=
  let lv := leavesOf x
  let c := lv.map (fun k => max 1 k.cost.toNat)
  let tot := sumN c
  let wsum := sumN r.w
  let pre (i : Nat) : Nat := sumN (c.take i)
  let ideal (j : Nat) : Nat :=
    ((List.range (lv.length + 1)).find? (fun i => i = lv.length || pre i * wsum ≥ tot * sumN (r.w.take (j + 1)))).getD lv.length
  let newKey (j : Nat) : W64 := ((lv[ideal j]?).map (·.key)).getD badKey
  let old (k : W64) : Nat := pre (lv.filter (fun l => l.key.toNat < k.toNat)).length
  let moves (j : Nat) (k : W64) : Bool :=
    let a := pre (ideal j)
    let b := old k
    r.mask.getLsbD j && (if a ≥ b then a - b else b - a) * 65536 > r.h * tot
  let stays := (x.cuts.zipIdx.filter (fun p => !moves p.2 p.1))
  x.cuts.zipIdx.map (fun p =>
    if moves p.2 p.1 then
      let k := stays.foldl (fun k q =>
        if q.2 < p.2 && k.toNat < q.1.toNat then q.1 else if p.2 < q.2 && q.1.toNat < k.toNat then q.1 else k) (newKey p.2)
      k
    else p.1)

/-- Cuts are planned and records marked leaving, once every agent has acknowledged (R123, R124). -/
def planStep (sp : Nat) (s : State) : State :=
  match Tab.get? s.spaces sp with
  | none => s
  | some x =>
    match x.live with
    | none => s
    | some r =>
      if r.stage != 0 || r.noted.length < x.parts.length then s
      else
        let cuts := planCuts x r
        let mark (k : KRec) : KRec :=
          let j := partOf cuts k.key
          if (k.st == 1 || k.st == 2) && partOf x.cuts k.key != j then
            { k with st := 3, ivm := k.st == 2, ftgt := partTgt x j, newPart := some j }
          else k
        let x := { x with recs := x.recs.map (fun (e : Nat × KRec) => (e.1, mark e.2)) }
        let x := x.modRebal (fun r => { r with stage := 2, newCuts := cuts, markAt := s.clock })
        syncSpace (s.setSpace sp x) sp

/-- `REBALANCE_PLAN` (R123, R124). -/
def execRebalancePlan (sp : Nat) (s : State) : Host.Outcome State Fault Refusal := .next (dirStep s (planStep sp))

/-- `PATIENCE_EXPIRY` (R125). -/
def execPatienceExpiry (sp : Nat) (s : State) : Host.Outcome State Fault Refusal :=
  .next (match Tab.get? s.spaces sp with
    | some x =>
      if !(s.die x.home).halt && x.live.any (fun r => r.stage == 2 && s.clock ≥ r.markAt + r.pat) then
        s.setSpace sp (x.modRebal (fun r => { r with late := true }))
      else s
    | none => s)

/-- The die that holds a record's segment. -/
def recDie (x : Space) (r : KRec) : Nat := segDie x r.part

/-- The position in a scan of the first record that cannot move (R125): its write pins, or no room in its new part once the
records ahead of it are counted. -/
def firstStuck (x : Space) (l : List KRec) : Option Nat :=
  (List.range l.length).find? (fun i =>
    match l[i]? with
    | none => false
    | some r =>
      let j := r.newPart.getD 0
      let cross (q : KRec) : Bool := recDie x q != tgtDie (partTgt x j)
      let ahead := (l.take (i + 1)).filter (fun q => q.newPart == r.newPart)
      r.wpin != 0 || ahead.length > (freeRecs x j).length ||
        (cross r && (ahead.filter cross).length > (freeSlots x j).length))

/-- Where a moving cut stops (R125). -/
def stopCut (x : Space) (old new : W64) : W64 :=
  let asc := (sortBy (fun a b => decide (a.2.key.toNat < b.2.key.toNat)) (x.recs.filter (fun r => r.2.st == 3))).map (·.2)
  if old.toNat < new.toNat then
    let l := asc.filter (fun r => old.toNat ≤ r.key.toNat && r.key.toNat < new.toNat)
    match firstStuck x l with
    | some i => ((l[i]?).map (·.key)).getD new
    | none => new
  else if new.toNat < old.toNat then
    let l := (asc.filter (fun r => new.toNat ≤ r.key.toNat && r.key.toNat < old.toNat)).reverse
    match firstStuck x l with
    | some 0 => old
    | some i => ((l[i - 1]?).map (·.key)).getD new
    | none => new
  else new

/-- A leaving record reverts (R125). -/
def revertRec (r : KRec) : KRec :=
  { r with st := if r.ivm then 2 else 1, ivm := false, ftgt := 0xFF, newPart := none, arr := none, keep := false, hold := [] }

/-- Where a part's segment and pools lie: its own range, and the slots that its pool has taken from other segments (R104, R126). -/
def segRanges (x : Space) (j : Nat) (p : Part) : List (Nat × Nat) :=
  let foreign := (x.recs.filter (fun r => r.2.part == j && r.2.sto != j)).map (fun r => r.2.slot.toNat) ++
    (p.slotFree.filter (fun q => q.1 != j)).map (fun q => (slotAddr x q.1 q.2).toNat)
  (p.seg.toNat, blockBase x p + x.slot * p.nslt) :: foreign.map (fun a => (a, a + x.slot))

/-- The stack that a part's segment and pools lie wholly on (R126). -/
def segStack (s : State) (x : Space) (j : Nat) (p : Part) : Option Nat :=
  let at_ (u : Nat) : Option Nat :=
    match walk s (segDie x j) [] (u * 2 ^ 16) with
    | .ok t _ _ => stackOf (pteAddr t.leaf + (u * 2 ^ 16 - t.va))
    | _ => none
  let st := at_ (p.seg.toNat / 2 ^ 16)
  let on (r : Nat × Nat) : Bool :=
    (List.range ((r.2 - 1) / 2 ^ 16 + 1 - r.1 / 2 ^ 16)).all (fun i => at_ (r.1 / 2 ^ 16 + i) == st)
  if st.isSome && (segRanges x j p).all on then st else none

/-- The hand-over that replaces copying for segment `j`, if it may (R126): the stack and the new part. It asks for every record of the part whose agent holds the
segment, and for all the segments of that part, those included that it has adopted. -/
def segHov (s : State) (x : Space) (j : Nat) : Option (Nat × Nat) :=
  match x.parts[j]? with
  | none => none
  | some p =>
    let rs := (x.recs.filter (fun r => agentOf x r.2.part == p.agent && r.2.seen)).map (·.2)
    let on (st : Nat) : Bool := (segsOf x p.agent).all (fun i => (x.parts[i]?).any (fun q => segStack s x i q == some st))
    match rs with
    | [] => none
    | r :: _ =>
      match r.newPart, (segStack s x j p).filter on with
      | some q, some st =>
        let a := tgtDie (partTgt x p.agent)
        let b := tgtDie (partTgt x q)
        if x.hovOk && rs.all (fun r => r.st == 3 && r.newPart == some q) && a != b && (s.stk st).owner == a && otherDie st a == b then
          some (st, q)
        else none
      | _, _ => none

/-- Starts the carrying of one record (R126). Where the records of two scans together overfill a pool, the rebalance ends with 0x0037 (log entry 88). -/
def carryRec (sp i : Nat) (hov : List Nat) (s : State) : State :=
  match Tab.get? s.spaces sp with
  | none => s
  | some x =>
    match Tab.get? x.recs i with
    | none => s
    | some r =>
      match r.newPart with
      | none => s
      | some j =>
        if r.st != 3 || hov.contains r.part then s
        else
          let cross := recDie x r != tgtDie (partTgt x j)
          match takePool s x j cross with
          | (some (x, (seg, rix), slot), s) =>
            let a : KRec := { key := r.key, part := seg, rix := rix, slot := (match slot with | some q => slotAddr x q.1 q.2 | none => r.slot)
                              sto := (slot.getD (r.sto, r.sti)).1, sti := (slot.getD (r.sto, r.sti)).2, ivm := r.ivm, st := 4
                              otgt := partTgt x j, efmt := r.efmt, dsize := r.dsize, per := r.per }
            let (x, ix) := x.addRec a
            let x := { x with recs := Tab.set x.recs i { r with arr := some ix, keep := !cross } }
            if cross then
              let (id, s) := s.fresh
              let x := x.modRebal (fun b => { b with copies := b.copies ++ [(id, ix)] })
              let cmd : Cmd := { id := id, die := tgtDie (partTgt x j), core := 96
                                 kind := .rcopy a.slot.toNat r.slot.toNat r.dsize.toNat }
              { (s.setSpace sp x) with cmds := s.cmds ++ [cmd] }
            else s.setSpace sp x
          | (none, s) => s.setSpace sp (x.modRebal (fun b => { b with failed := some 0x37 }))

/-- The cuts stop, the records that stay revert, and carrying begins (R125, R126). -/
def stopsStep (sp : Nat) (s : State) : State :=
  match Tab.get? s.spaces sp with
  | none => s
  | some x =>
    match x.live with
    | none => s
    | some r =>
      if r.stage != 2 || !(r.late || x.recs.all (fun e => e.2.st != 3 || e.2.wpin == 0)) then s
      else
        let cuts := (x.cuts.zip r.newCuts).map (fun p => stopCut x p.1 p.2)
        let back (k : KRec) : Bool := k.st == 3 && partOf cuts k.key == partOf x.cuts k.key
        let held := x.recs.flatMap (fun e => if back e.2 then e.2.hold else [])
        let fix (k : KRec) : KRec :=
          if back k then revertRec k
          else if k.st == 3 then { k with newPart := some (partOf cuts k.key), ftgt := partTgt x (partOf cuts k.key) }
          else k
        let x := { x with recs := x.recs.map (fun e => (e.1, fix e.2)) }
        let hov := (List.range x.parts.length).filterMap (fun j => (segHov s x j).map (fun q => (j, q)))
        let x := x.modRebal (fun r => { r with stage := 3, newCuts := cuts, moving := hov })
        let s := x.recs.foldl (fun s e => carryRec sp e.1 (hov.map (·.1)) s) (s.setSpace sp x)
        releaseHeld (syncSpace s sp) held

/-- `REBALANCE_STOPS` (R125, R126). -/
def execRebalanceStops (sp : Nat) (s : State) : Host.Outcome State Fault Refusal := .next (dirStep s (stopsStep sp))

/-- A copy of a rebalance has ended (R126), or a hand-over that replaces copying, whose failure ends the rebalance likewise (log entry 89). -/
def rebalCopied (s : State) (id : Nat) (st : W64) : State :=
  { s with spaces := s.spaces.map (fun e =>
      (e.1, e.2.modRebal (fun r =>
        if r.ended then r
        else if r.copies.any (fun c => c.1 == id) || r.hovs.contains id then
          { r with copies := r.copies.filter (fun c => c.1 != id), hovs := r.hovs.filter (· != id)
                   failed := if st == 0 then r.failed else (r.failed.orElse (fun _ => some st)) }
        else r))) }

/-- A copy or a hand-over has failed: what has been carried is given up (R126). -/
def abortStep (sp : Nat) (s : State) : State :=
  match Tab.get? s.spaces sp with
  | none => s
  | some x =>
    match x.live with
    | none => s
    | some r =>
      match r.failed with
      | none => s
      | some st =>
        if r.stage != 3 || !r.hovs.isEmpty then s
        else
          let ids := r.copies.map (·.1)
          let s := { s with cmds := s.cmds.filter (fun c => !ids.contains c.id) }
          let held := x.recs.flatMap (fun e => if e.2.st == 3 then e.2.hold else [])
          let x := x.recs.foldl (fun (x : Space) (e : Nat × KRec) =>
            if e.2.st == 4 then
              let kept := x.recs.any (fun o => o.2.arr == some e.1 && o.2.keep)
              { (freePool x e.2 (!kept)) with recs := Tab.erase x.recs e.1 }
            else x) x
          let x := { x with recs := x.recs.map (fun e => (e.1, if e.2.st == 3 then revertRec e.2 else e.2)), rebal := some { r with ended := true } }
          cmdDone (releaseHeld (syncSpace (s.setSpace sp x) sp) held) r.cmd st

/-- `REBALANCE_ABORT` (R126). -/
def execRebalanceAbort (sp : Nat) (s : State) : Host.Outcome State Fault Refusal := .next (dirStep s (abortStep sp))

/-- Starts the hand-overs that replace copying, once every copy has completed and no other hand-over holds their stacks; the segments are adopted at the
commit (R126). A stack that its die no longer owns fails the rebalance (log entry 89). -/
def startHovs (s : State) (sp : Nat) (x : Space) (r : Rebal) : State :=
  if r.moving.any (fun m => hovBusy s m.2.1) then s
  else if r.moving.any (fun m => (s.stk m.2.1).owner != segDie x m.1) then s.setSpace sp (x.modRebal (fun r => { r with failed := some 0x21 }))
  else
    let sts := r.moving.foldl (fun (l : List (Nat × Nat)) m => if l.any (fun q => q.1 == m.2.1) then l else l ++ [(m.2.1, segDie x m.1)]) []
    let (s, ids) := sts.foldl (fun (p : State × List Nat) (m : Nat × Nat) =>
      let (id, s) := p.1.fresh
      let d := m.2
      let cmd : Cmd := { id := id, die := d, core := 96, kind := .shovGive m.1, st := .leave }
      ({ s with cmds := s.cmds ++ [cmd] }.modDie d (fun y => { y with leaveQ := y.leaveQ ++ [(LeaveFor.give id, 0)] }), p.2 ++ [id])) (s, [])
    s.setSpace sp (x.modRebal (fun r => { r with hovs := ids, moving := [], adopt := r.moving.map (fun m => (m.1, m.2.2)) }))

/-- The crossbar port of a die towards its lower neighbour (0), its upper neighbour (1) or VX (2) (R14; log entry 110). -/
def linkPort (d l : Nat) : Nat := Config.linkPort d l % 64

/-- The crossbar port of a die behind which its directory agents stand (R14; log entry 110). -/
def dirPort (d : Nat) : Nat := Config.dirPort d % 64

/-- A flit enters the crossbar of a die at a port, and reads its mask there, once (R458). -/
def mcastEnter (s : State) (d inp g sp : Nat) (inst : Bool) : State :=
  s.modDie d (fun x =>
    let m := Tab.getD x.xbar g 0
    { x with mcast := if m == 0 then x.mcast else x.mcast ++ [⟨inp, g, m, sp, inst⟩] })

/-- The home of a deckle sends its invalidation, or its new contents, on the group of its space (R112, R458). -/
def mcastSend (s : State) (x : Space) (sp : Nat) (inst : Bool) : State := mcastEnter s x.home (dirPort x.home) (16 + sp) sp inst

/-- A die's directory agents have a message of a space's home. -/
def hasMsg (s : State) (d sp : Nat) (inst : Bool) : Bool := (s.die d).mcGot.contains (sp, inst)

/-- A die's directory agents act on such a message. -/
def takeMsg (s : State) (d sp : Nat) (inst : Bool) : State := s.modDie d (fun y => { y with mcGot := y.mcGot.erase (sp, inst) })

/-- `DECKLE_INVALIDATE`: a die that has the home's invalidation marks its copy invalid and acknowledges (R112, R127, R458). -/
def execDeckleInvalidate (sp die : Nat) (s : State) : Host.Outcome State Fault Refusal :=
  .next (match Tab.get? s.spaces sp with
    | none => s
    | some x =>
      match x.live with
      | none => s
      | some r =>
        if r.stage != 4 || !(otherDies x).contains die || r.inv.contains die || !hasMsg s die sp false then s
        else
          (takeMsg s die sp false).setSpace sp { x.modRebal (fun r => { r with inv := die :: r.inv }) with inval := x.inval ++ [die] })

/-- The bytes of a deckle image (R111). -/
def imageBytes (x : Space) : List Byte :=
  (List.range 128).flatMap (fun i => leBytes 8 ((x.cuts[i]?).getD badKey).toNat) ++
  (List.range 129).map (fun i => ((x.parts[i]?).map (·.tgt)).getD 0xFF) ++ [BitVec.ofNat 8 x.cuts.length] ++ zeros 126

/-- Writes the deckle image in the memory of the home, as 8-byte writes in ascending order (R111). -/
def putImage (s : State) (sp : Nat) : State :=
  match Tab.get? s.spaces sp with
  | some x => (List.range 160).foldl (fun s i => agentWrite s x.home (x.img.toNat + 8 * i) (bytesAt (imageBytes x) (8 * i) 8)) s
  | none => s

/-- Switches one leaving record (R127); its old record is absent and goes with its last read pin. -/
def switchRec (x : Space) (i : Nat) (r : KRec) : Space :=
  match r.arr with
  | some a =>
    match Tab.get? x.recs a with
    | some n =>
      let x := { x with recs := Tab.set x.recs a { n with st := if n.ivm then 2 else 1, ivm := false, ftgt := 0xFF, cost := r.cost, hold := r.hold } }
      { x with recs := Tab.set x.recs i { r with st := 0, ivm := false, ftgt := 0xFF, hold := [], newPart := none, arr := none } }
    | none => x
  | none =>
    { x with recs := Tab.set x.recs i { r with st := if r.ivm then 2 else 1, ivm := false, ftgt := 0xFF
                                               otgt := partTgt x (r.newPart.getD 0), newPart := none } }

/-- The end of a rebalance: costs halved, held tasks released, the handle resolved (R127). -/
def rebalEnd (s : State) (sp : Nat) : State :=
  match Tab.get? s.spaces sp with
  | none => s
  | some x =>
    match x.live with
    | none => s
    | some r =>
      let held := x.recs.flatMap (fun e => e.2.hold)
      let half (k : KRec) : KRec := { k with hold := [], cost := if k.st == 1 then BitVec.ofNat 32 (k.cost.toNat / 2) else k.cost }
      let x := { x with recs := x.recs.map (fun e => (e.1, half e.2)), rebal := some { r with ended := true }, inval := [] }
      cmdDone (runAllJobs (releaseHeld (syncSpace (s.setSpace sp x) sp) held)) r.cmd 0

/-- The new cuts are in force at the home: segments are adopted, records switch, and absent records without read pins go (R126, R127). -/
def commitSpace (s : State) (sp : Nat) (x : Space) (r : Rebal) : State :=
  let x := x.recs.foldl (fun (x : Space) (e : Nat × KRec) => if e.2.st == 3 then switchRec x e.1 e.2 else x) x
  let x := r.adopt.foldl (fun x a => x.modPart a.1 (fun p => { p with agent := a.2 })) x
  let x := { x with cuts := r.newCuts }.modRebal (fun r => { r with stage := 5 })
  let s := syncSpace (s.setSpace sp x) sp
  putImage (x.recs.foldl (fun s e => reapRec s sp e.1 e.2) s) sp

/-- The next step of a commit (R112, R126, R127). -/
def commitStep (sp : Nat) (s : State) : State :=
  match Tab.get? s.spaces sp with
  | none => s
  | some x =>
    match x.live with
    | none => s
    | some r =>
      if r.stage == 3 && r.copies.isEmpty && r.failed.isNone && !r.moving.isEmpty && r.inst.isEmpty then startHovs s sp x r
      else if r.stage == 3 && r.copies.isEmpty && r.failed.isNone && r.hovs.isEmpty && r.moving.isEmpty && !(otherDies x).isEmpty then
        mcastSend (s.setSpace sp { x.modRebal (fun r => { r with stage := 4 }) with inval := [x.home] }) x sp false
      else
        let ready := r.copies.isEmpty && r.failed.isNone && r.hovs.isEmpty && r.moving.isEmpty &&
          (r.stage == 4 || (r.stage == 3 && (otherDies x).isEmpty)) && (otherDies x).all (fun d => r.inv.contains d)
        if !ready then s
        else
          let s := commitSpace s sp x r
          if (otherDies x).isEmpty then rebalEnd s sp else mcastSend s x sp true

/-- `REBALANCE_COMMIT`: the home starts the hand-overs that replace copying, or sends the invalidations, or, with every acknowledgement, installs the new cuts and
sends them out (R112, R126, R127). -/
def execRebalanceCommit (sp : Nat) (s : State) : Host.Outcome State Fault Refusal := .next (dirStep s (commitStep sp))

/-- A die installs the new contents; the last one ends the rebalance (R112, R127). -/
def installStep (sp die : Nat) (s : State) : State :=
  match Tab.get? s.spaces sp with
  | none => s
  | some x =>
    match x.live with
    | none => s
    | some r =>
      if r.stage != 5 || !(otherDies x).contains die || r.inst.contains die || !hasMsg s die sp true then s
      else
        let x := { x.modRebal (fun r => { r with inst := die :: r.inst }) with inval := x.inval.filter (· != die) }
        let s := (takeMsg s die sp true).setSpace sp x
        if (otherDies x).all (fun d => d == die || r.inst.contains d) then rebalEnd s sp else runAllJobs s

/-- `DECKLE_INSTALL` (R112, R127). -/
def execDeckleInstall (sp die : Nat) (s : State) : Host.Outcome State Fault Refusal := .next (dirStep s (installStep sp die))

end Sys2Proof.Machine
end

