-- ==== Sys2Proof/Machine/Gather.lean ====
section
/-! DEFINITION. Gather by key, opcode 0x91 (03 R76; 04 R107, R129; 06 R175, R176; 12 R310). -/

namespace Sys2Proof.Machine

/-- Element values of a block's stored bytes (R107); `none` for an opaque or reserved code. -/
def elemVals (code e : Nat) (bs : List Byte) : Option (List FV) :=
  let xs (f : FFmt) : List FV := (List.range e).map (fun i => fdecode f (fieldAt bs (i * (f.width / 8)) (f.width / 8)))
  let mx (f : FFmt) : List FV :=
    let base := ceilDiv (e * f.width) 8
    (List.range e).map (fun i =>
      mxValue f ((bs[base + i / 32]?).getD 0) (fieldAt bs (i * f.width / 8) 2 / 2 ^ (i * f.width % 8) % 2 ^ f.width))
  match code with
  | 1 => some (xs .f32)
  | 2 => some (xs .f16)
  | 3 => some (xs .bf16)
  | 4 => some (mx .e4m3)
  | 5 => some (mx .e5m2)
  | 6 => some (mx .e3m2)
  | 7 => some (mx .e2m3)
  | 8 => some (mx .e2m1)
  | 9 => some ((List.range e).map (fun i => .ofInt (sgn 8 (fieldAt bs i 1))))
  | 10 => some ((List.range e).map (fun i =>
      match tritOf (fieldAt bs (i / 5) 1) (i % 5) with | 0 => .ofInt 0 | 1 => .ofInt 1 | _ => .ofInt (-1)))
  | 11 => some (xs .f64)
  | 12 => some ((List.range e).map (fun i => .ofInt (sgn 32 (fieldAt bs (4 * i) 4))))
  | _ => none

/-- Packs elements of `w` bits little-endian (R167). -/
def packBits (w : Nat) (l : List Nat) : List Byte :=
  leBytes (ceilDiv (l.length * w) 8) ((l.zipIdx).foldl (fun acc p => acc + p.1 * 2 ^ (w * p.2)) 0)

/-- Cuts a list into blocks of 32. -/
def blocks32 {α : Type} : Nat → List α → List (List α)
  | 0, _ => []
  | n + 1, l => if l.isEmpty then [] else l.take 32 :: blocks32 n (l.drop 32)

/-- A code whose elements are integers (R107). -/
def codeInt (code : Nat) : Bool := code == 9 || code == 10 || code == 12

/-- A value rounded to an integer range: a clamped integer sets `ovf`, a floating-point source that does not fit sets `inv` (R76, R175). -/
def clampInt (int : Bool) (lo hi : Int) (x : FV) : Int × BitVec 5 :=
  let inv := flagBits false false int (!int) false
  match x with
  | .nan => (0, inv)
  | .inf n => (if n then lo else hi, inv)
  | .fin n m e st =>
    if e > 80 && m != 0 then (if n then lo else hi, inv)
    else
      let v := roundInt .rne n m e st
      let r := max lo (min hi v)
      (r, if r = v then 0 else inv)

/-- Stored bytes of element values in a target format, with the flags raised (R76, R96, R107, R174); `int` says that they come from
integers. -/
def elemBytes (int : Bool) (code : Nat) (vs : List FV) : List Byte × BitVec 5 :=
  let orAll (l : List (BitVec 5)) : BitVec 5 := l.foldl (fun a x => a ||| x) 0
  let xs (f : FFmt) : List Byte × BitVec 5 :=
    let rs := vs.map (fun v => ofRound (roundTo f .rne true v))
    (rs.flatMap (fun r => leBytes (f.width / 8) r.v), orAll (rs.map (·.fl)))
  let mx (f : FFmt) : List Byte × BitVec 5 :=
    let bl := blocks32 (vs.length / 32 + 1) vs
    let scs := bl.map (blockScale f)
    let els := (bl.zip scs).flatMap (fun p => blockElems f p.2 p.1)
    let fl (p : List FV × Byte) : List (BitVec 5) :=
      match scaleExp p.2 with
      | none => []
      | some k => p.1.map (fun v => flagBits false false (roundTo f .rne true (v.scale (-k))).ovf false false)
    (packBits f.width els ++ scs, orAll ((bl.zip scs).flatMap fl))
  let ints (w : Nat) : List Byte × BitVec 5 :=
    let rs := vs.map (clampInt int (-(2 ^ (w - 1) : Nat)) ((2 ^ (w - 1) : Nat) - 1))
    (rs.flatMap (fun r => leBytes (w / 8) (wrapN w r.1)), orAll (rs.map (·.2)))
  let trits : List Byte × BitVec 5 :=
    let rs := vs.map (clampInt int (-1) 1)
    let byte (j : Nat) : Byte := BitVec.ofNat 8 (sumN ((List.range 5).map (fun i =>
      match rs[5 * j + i]? with
      | some r => if r.1 = 1 then 3 ^ i else if r.1 = -1 then 2 * 3 ^ i else 0
      | none => 0)))
    ((List.range (ceilDiv vs.length 5)).map byte, orAll (rs.map (·.2)))
  match code with
  | 1 => xs .f32
  | 2 => xs .f16
  | 3 => xs .bf16
  | 4 => mx .e4m3
  | 5 => mx .e5m2
  | 6 => mx .e3m2
  | 7 => mx .e2m3
  | 8 => mx .e2m1
  | 9 => ints 8
  | 10 => trits
  | 11 => xs .f64
  | _ => ints 32

/-- A t3 byte of the block decodes as reserved (R169). -/
def badTrit (code : Nat) (bs : List Byte) : Bool := code == 10 && bs.any (fun b => b.toNat ≥ 243)

/-- A scale of the block is 0xFF (R179). -/
def badScale (code e : Nat) (bs : List Byte) : Bool :=
  let w : Option Nat := match code with
    | 4 | 5 => some 8
    | 6 | 7 => some 6
    | 8 => some 4
    | _ => none
  w.any (fun w => (bytesAt bs (ceilDiv (e * w) 8) (e / 32)).any (· == 0xFF))

/-- A format code is assigned (R107). -/
def fmtKnown (c : Nat) : Bool := c ≤ 12

/-- The request of a `cpyk` (R310). -/
def cpykReq (s : State) (c : Ctx) (glob : Bool) (cw : CwMod) (val : W64) (dst b w : Nat) : CmdReq :=
  let list := bitsOf b 0 32
  let cnt := bitsOf b 32 9
  let sp := bitsOf b 44 4
  let extraB := bitsOf b 41 3 != 0 || bitsOf b 48 16 != 0
  let stride := bitsOf w 0 32
  let fmt := bitsOf w 32 8
  let off := bitsOf w 40 19
  let extraC := bitsOf w 59 5 != 0
  let ext := cnt * stride
  { fail := firstFail (cwChecks c.g cw val off extraC ++
      [(list % 8 != 0, 0x13), (cnt != 0 && !inAllot c.g list (8 * cnt), 0x14),
       (cnt = 0 || cnt > 256 || stride = 0 || stride % 64 != 0 || extraB || extraC || (!cw.cw && off != 0), 0x16),
       (glob && (dst + ext - 1 ≥ 2 ^ 57 || bitAt dst 56 != bitAt (dst + ext - 1) 56), 0x16),
       (!glob && !inAllot c.g dst ext, 0x14),
       (fmt = 0, 0x16), (fmt != 255 && !fmtKnown fmt, 0x3A),
       ((spaceOk s sp c.f.die).isNone, 0x30)])
    kind := .cpyk glob dst list cnt sp stride fmt
    locks := [(false, list, 8 * cnt, false), (glob, dst, ext, true)]
    cw := cwordOf cw off val
    sid := sidOf s sp }

/-- `cpyk` (R310). -/
def execCpyk (h : Hdr) (glob : Bool) (cw : CwMod) (d a b c : Opd) (s : State) : Host.Outcome State Fault Refusal :=
  .next (cmdWord h cw d [a, b, c] (fun s x val => cpykReq s x glob cw val (kNat s x a) (kNat s x b) (kNat s x c)) s)

/-- The bytes that a gather writes for a block, or its failure (R76). -/
def gatherBytes (x : Space) (r : KRec) (fmt : Nat) (bs : List Byte) : Except Nat (List Byte × BitVec 5) :=
  if fmt = 255 then .ok (bs, 0)
  else
    match elemVals r.efmt.toNat x.elems bs with
    | none => .error 0x16
    | some vs =>
      let (o, fl) := elemBytes (codeInt r.efmt.toNat) fmt vs
      .ok (o, fl ||| flagBits (badTrit r.efmt.toNat bs) false false false (badScale r.efmt.toNat x.elems bs))

/-- The engine starts a key: it reads it once from the list, with its poison (R310, R432). -/
def gatherStart (s : State) (c : Cmd) (list : Nat) : State × Cmd :=
  if c.next < c.keys.length then (s, c)
  else
    let core := s.core c.die c.core
    let o := list + 8 * c.next
    let c := { c with keys := c.keys ++ [(BitVec.ofNat 64 (leNat (scrRead core o 8)), scrPois core o 8)] }
    (s.modCmd c.id (fun _ => c), c)

/-- The directory of a space cannot serve a die's engine for a key now (R104, R112). -/
def gatherStall (s : State) (x : Space) (d : Nat) (key : W64) : Bool := deckleStall x d || agentBusy s (segDie x (partOf x.cuts key))

/-- The lookup of a key and the read pin on its leaf: it waits while the block is moving (R76, R129), and while no further pin fits (log entry 94). -/
def gatherPin (s : State) (c : Cmd) (sp : Nat) (x : Space) (key : W64) : State :=
  if gatherStall s x c.die key then s
  else
    match lookRec x key with
    | none => cmdDone s c.id 0x15
    | some (i, r) =>
      if r.st == 3 then s
      else if !(r.key == key && r.leaf) then cmdDone s c.id 0x15
      else if r.rpin ≥ 65535 then s
      else dirStep s (fun s => (putRec s sp i { r with rpin := r.rpin + 1 }).modCmd c.id (fun c => { c with pinned := some i }))

/-- A gather releases its read pin (R76). -/
def gatherUnpin (s : State) (c : Cmd) : State :=
  match c.kind, c.pinned with
  | .cpyk _ _ _ _ sp _ _, some i =>
    let s := s.modCmd c.id (fun c => { c with pinned := none })
    (match (Tab.get? s.spaces sp).bind (fun x => Tab.get? x.recs i) with
      | some r =>
        let r := { r with rpin := r.rpin - 1 }
        reapRec (putRec s sp i r) sp i r
      | none => s)
  | _, _ => s

/-- A block that has been read gives up its pin and is converted; its bytes wait for their write (R76). -/
def gatherGot (s : State) (c : Cmd) (x : Space) (r : KRec) (fmt stride : Nat) (bs : List Byte) : State :=
  dirStep s (fun s =>
    let s := gatherUnpin s c
    match gatherBytes x r fmt bs with
    | .error code => cmdDone s c.id (BitVec.ofNat 64 code)
    | .ok (o, fl) =>
      if o.length > stride then cmdDone s c.id 0x16
      else setFlagsOf (s.modCmd c.id (fun c => { c with out := [(0, o)] })) c.die c.wg c.wuid fl)

/-- A free number of the bytes of a pinned block are read: no transfer of it is indivisible (R76, R132). -/
def gatherRead (s : State) (c : Cmd) (x : Space) (r : KRec) (fmt stride : Nat) : State :=
  let got := ((c.out.head?).map (·.2)).getD []
  let m := got.length
  let (k, s) := s.takeNat (r.dsize.toNat - m + 1)
  match vread s (cmdAgent c) (r.slot.toNat + m) k with
  | .error (.busy h) => heldCmd s c.id h
  | .error e => cmdDone s c.id e.status
  | .ok (s, bs, p) =>
    let s := noteStacks (s.modCmd c.id (fun c => { c.went with out := [(0, got ++ bs)] })) c [(r.slot.toNat + m, k)]
    if p then cmdDone (countCons s c.die) c.id 0x12
    else if m + k < r.dsize.toNat then s
    else gatherGot s c x r fmt stride (got ++ bs)

/-- A free number of the bytes of a converted block are written, of which `w` have been (R76, R132). -/
def gatherWrite (s : State) (c : Cmd) (glob : Bool) (dst cnt stride w : Nat) (o : List Byte) : State :=
  let (k, s) := s.takeNat (o.length - w + 1)
  let at_ := dst + c.next * stride + w
  match sideWrite s c glob at_ (bytesAt o w k) with
  | .error (.busy h) => heldCmd s c.id h
  | .error e => cmdDone s c.id e.status
  | .ok s =>
    let s := noteStacks (s.modCmd c.id Cmd.went) c (if glob then [(at_, k)] else [])
    if w + k < o.length then s.modCmd c.id (fun c => { c with out := [(w + k, o)] })
    else if c.next + 1 ≥ cnt then cmdDone s c.id 0
    else s.modCmd c.id (fun c => { c with next := c.next + 1, out := [] })

/-- One step of a gather: of its present key, the lookup with the pin, some of the read, or some of the write (R76, R310). -/
def gatherKey (s : State) (c : Cmd) (glob : Bool) (dst list cnt sp stride fmt : Nat) : State :=
  match c.pinned, c.out with
  | none, (w, o) :: _ => gatherWrite s c glob dst cnt stride w o
  | _, _ =>
  let (s, c) := gatherStart s c list
  let (key, pois) := (c.keys[c.next]?).getD (badKey, false)
  match Tab.get? s.spaces sp with
  | none => cmdDone s c.id 0x30
  | some x =>
    match c.pinned.bind (Tab.get? x.recs) with
    | some r => gatherRead s c x r fmt stride
    | none =>
      if pois then cmdDone (countCons s c.die) c.id 0x12
      else if keySp key != sp || !keyOkIn x key || !sameSpace s c.sid sp then cmdDone s c.id 0x30
      else gatherPin s c sp x key

/-- `GATHER_KEY_STEP` (R76). -/
def execGatherKeyStep (id : Nat) (s : State) : Host.Outcome State Fault Refusal :=
  .next (match s.cmd? id with
    | some c =>
      (match c.kind, c.st with
        | .cpyk glob dst list cnt sp stride fmt, .running => gatherKey (flushDir s) c glob dst list cnt sp stride fmt
        | _, _ => s)
    | none => s)

end Sys2Proof.Machine
end

