-- ==== Sys2Proof/Machine/Complete.lean ====
section
/-! DEFINITION. Host queues and how packets and commands end (17 R383 to R387; 22 R453, R455; 03 R84). -/

namespace Sys2Proof.Machine

/-- Queue `q` of die `d`. -/
def State.queue (s : State) (d q : Nat) : HQueue := Tab.getD (s.die d).queues q {}

/-- Changes a queue of a die. -/
def State.modQueue (s : State) (d q : Nat) (g : HQueue → HQueue) : State :=
  s.modDie d (fun x => { x with queues := Tab.set x.queues q (g (Tab.getD x.queues q {})) })

/-- Error codes of the stopping class (R455). -/
def stopping (code : Nat) : Bool := 1 ≤ code && code ≤ 5

/-- A queue takes an error: the first is kept, but a stopping one replaces one that is not (R455). -/
def HQueue.error (q : HQueue) (code : Nat) : HQueue :=
  { q with err := if q.err == 0 || (stopping code && !stopping q.err.toNat) then BitVec.ofNat 16 code else q.err
           stop := q.stop || stopping code }

/-- A queue error with its record (R453, R455). -/
def queueError (s : State) (d q code : Nat) (tag rd : W32) (info2 : W64) : State :=
  postEvent (s.modQueue d q (fun x => x.error code)) d
    (evRecord 1 d 0xFFFF 0xFF q code tag 0 (rd.zeroExtend 64) info2 (s.cyc d))

/-- A packet has completed (R387). -/
def packetDone (s : State) (d q : Nat) (rd : W32) : State :=
  s.modQueue d q (fun x => { x with outst := x.outst.erase rd.toNat })

/-- A packet completes with a status; a failure is a queue error of the given code (R455). -/
def packetEnds (s : State) (d q code : Nat) (tag rd : W32) (st : W64) : State :=
  packetDone (if st == 0 then s else queueError s d q code tag rd st) d q rd

/-- The global completion word of a packet's command (R45, R51, R386). -/
def globalWord (s : State) (c : Cmd) (st : W64) : Except AErr State :=
  match c.gcw with
  | some (a, v) => vwrN s { die := c.die, who := .cmd c.id } a.toNat 8 (if st == 0 then v else st ||| (1 <<< 63)).toNat
  | none => .ok s

/-- The queue error of a failed command (R455). -/
def CmdKind.errCode : CmdKind → Nat
  | .pmove _ _ _ _ => 0x0009
  | _ => 0x000A

/-- A command ends, whatever issued it: its completion words, its packet, its rebalance, its pin, its locks and its handle (R84, R126,
R387). It waits with its status for the release of its completion word, and while the global word is held up; a word that fails is not written (log entry 49). -/
def endCmd (s : State) (c : Cmd) (st : W64) : State :=
  if c.mustWait s st then waitRel s c st else
  match globalWord s c st with
  | .error (.busy h) => heldCmd (cmdDone s c.id st) c.id h
  | r =>
  let s := gatherUnpin (orSame s r) c
  let s := if c.queue < 64 then packetEnds s c.die c.queue c.kind.errCode c.tag c.qrd st else s
  completeCmd (rebalCopied s c.id st) c st

end Sys2Proof.Machine
end

