-- ==== Sys2Proof/Machine/Matrix.lean ====
section
/-! DEFINITION. The matrix engine and the near-memory product, opcodes 0xB0 to 0xB4 (03 R66 to R69; 06 R180 to R182; 13 R321 to
R344; 17 R401). -/

namespace Sys2Proof.Machine

/-! ### The accumulator store (R66, R67) -/

/-- The key of an element. -/
def accKey (row col : Nat) : Nat := row * 256 + col

/-- The key of the sub-tile that holds an element. -/
def tileKey (row col : Nat) : Nat := row / 16 * 16 + col / 16

/-- The sub-tiles of a window. -/
def tilesOf (row col m n : Nat) : List Nat :=
  (List.range (m / 16)).flatMap (fun i => (List.range (n / 16)).map (fun j => tileKey (row + 16 * i) (col + 16 * j)))

/-- The elements of a window. -/
def cellsOf (row col m n : Nat) : List (Nat × Nat) :=
  (List.range m).flatMap (fun i => (List.range n).map (fun j => (row + i, col + j)))

/-- A sub-tile's state bits. -/
def Core.tile (c : Core) (k : Nat) : SubTile := Tab.getD c.subt k {}

/-- Changes a sub-tile's state bits. -/
def Core.modTile (c : Core) (k : Nat) (g : SubTile → SubTile) : Core := { c with subt := Tab.put c.subt k (g (c.tile k)) {} }

/-- An element. -/
def Core.elem (c : Core) (row col : Nat) : Nat := (Tab.getD c.acc (accKey row col) 0).toNat

/-- Writes an element whole. -/
def Core.setElem (c : Core) (row col v : Nat) : Core := { c with acc := Tab.put c.acc (accKey row col) (BitVec.ofNat 32 v) 0 }

/-- The column checksum of a column in a row band, and the row checksum of a row in a column band (R67). -/
def Core.colCk (c : Core) (row col : Nat) : Nat := (Tab.getD c.ccol (row / 16 * 256 + col) 0).toNat

/-- The row checksum of a row in the column band of a column (R67). -/
def Core.rowCk (c : Core) (row col : Nat) : Nat := (Tab.getD c.crow (row * 16 + col / 16) 0).toNat

/-- Writes a column checksum. -/
def Core.setColCk (c : Core) (row col v : Nat) : Core :=
  { c with ccol := Tab.put c.ccol (row / 16 * 256 + col) (BitVec.ofNat 64 v) 0 }

/-- Writes a row checksum. -/
def Core.setRowCk (c : Core) (row col v : Nat) : Core :=
  { c with crow := Tab.put c.crow (row * 16 + col / 16) (BitVec.ofNat 64 v) 0 }

/-- Poisons or cleans an element. -/
def Core.accPoison (c : Core) (row col : Nat) (p : Bool) : Core :=
  let rest := c.accPois.filter (· != accKey row col)
  { c with accPois := if p then accKey row col :: rest else rest }

/-- Clears a window: elements zero, type as given, `sat` clear, checksums zero, `ckv` set (R69, R334). -/
def clearWindow (c : Core) (row col m n : Nat) (int : Bool) : Core :=
  let c := (cellsOf row col m n).foldl (fun (c : Core) (e : Nat × Nat) => (c.setElem e.1 e.2 0).accPoison e.1 e.2 false) c
  let c := (tilesOf row col m n).foldl (fun c k => c.modTile k (fun _ => ⟨int, false, true⟩)) c
  let c := (List.range (m / 16)).foldl (fun c i => (List.range n).foldl (fun c j => c.setColCk (row + 16 * i) (col + j) 0) c) c
  (List.range m).foldl (fun c i => (List.range (n / 16)).foldl (fun c j => c.setRowCk (row + i) (col + 16 * j) 0) c) c

/-- The window lies in the workgroup's bands and the store (R68). -/
def windowOk (g : Wg) (row col m n : Nat) : Bool :=
  row + m ≤ 256 && col + n ≤ 256 && (List.range m).all (fun i => g.bands.getLsbD ((row + i) / 16))

/-! ### Types as the accepted instructions leave them (R323) -/

/-- What is known of a sub-tile's type after the accepted instructions; `none` while a restore of it is pending. -/
def pendType (c : Core) (k : Nat) : Option Bool :=
  c.mxq.foldl (fun (t : Option Bool) (e : EngOp) =>
    match e.op with
    | .mzero row col m n int => if (tilesOf row col m n).contains k then some int else t
    | .acp true true row nb _ => if row / 16 ≤ k / 16 && k / 16 < row / 16 + nb then none else t
    | _ => t) (some (c.tile k).i32)

/-- Every sub-tile has the type; `none` while that is not known. -/
def typesAre (c : Core) (ks : List Nat) (int : Bool) : Option Bool :=
  (allSome (pendType c) ks).map (fun l => l.all (fun t => t == int))

/-! ### Reserved elements (R344) -/

/-- The window that an `mmv` names: row, column, rows, columns. -/
def mmvWindow (desc : List Byte) : Nat × Nat × Nat × Nat :=
  (fieldAt desc 32 1, fieldAt desc 33 1, fieldAt desc 30 1, fieldAt desc 28 2)

/-- A running `mmv` of the core reserves an element of the window. -/
def reserved (s : State) (d core row col m n : Nat) : Bool :=
  s.cmds.any (fun c => c.die == d && c.core == core &&
    (match c.kind with
      | .mmv desc => let (r, k, v, w) := mmvWindow desc; overlap r v row m && overlap k w col n
      | _ => false))

/-! ### Beginning a matrix word (R321 to R323) -/

/-- The collective test of a warp: all 32 threads, no sibling (R321). -/
def collective (c : Ctx) : Bool :=
  c.p.am == 0xFFFFFFFF && (c.w.thr.filter (·.live)).length == 32 && !(c.w.slot (!c.f.s1)).occ

/-- Begins a matrix word: the collective test comes before any register is read, the guard's too (R321). -/
def matrixOp (h : Hdr) (os : List Opd) (body : Ctx → State → State) (s : State) : State :=
  (begin h.sw [] s).run (fun c s =>
    if c.p.am == 0 then badConv s c.f 2
    else if !collective c then badConv s c.f 1
    else uniOp { h with sw := false } os body s)

/-- A workgroup holds a lease and may issue under it: its count is below the bound, or no other workgroup waits (R322, R401). -/
def Lease.serves (l : Lease) (wg bound : Nat) : Bool := l.holder == some wg && (l.count < bound || l.waiters.all (· == wg))

/-- The workgroup holds the matrix lease, or the fragment parks for it (R322, R401, R402). -/
def mxLeased (s : State) (c : Ctx) (k : State → State) : State :=
  let core := c.core s
  if core.mxLease.serves c.f.wg c.g.mlease then k s
  else
    let s :=
      if core.mxLease.waiters.contains c.f.wg then s
      else
        let s := s.modCore c.f.die c.f.core (fun x => { x with mxLease := { x.mxLease with waiters := x.mxLease.waiters ++ [c.f.wg] } })
        s.modDie c.f.die (fun x => { x with leaveQ := x.leaveQ ++ [(.matrix c.f.core c.f.wg, 0)] })
    hold s c.f .mxLease

/-- The bytes of scratchpad ranges as a warp finds them, payload included that it has not acquired (R86, R324). -/
def snapOf (s : State) (c : Ctx) (rs : List (Nat × Nat)) : List Byte × State :=
  rs.foldl (fun (p : List Byte × State) r =>
    let core := c.core p.2
    let (bs, s) := lagRead c.f.die c.f.core c.w.wuid r.1 core.lag p.2 (scrRead core r.1 r.2)
    (p.1 ++ bs, s)) ([], s)

/-- The engine accepts an instruction, which finishes its issue (R323). -/
def acceptMx (s : State) (c : Ctx) (op : MxOp) (reads writes : List (Nat × Nat)) (leased : Bool) : State :=
  let (snap, s) := snapOf s c reads
  let e : EngOp := { wg := c.f.wg, warp := c.f.warp, frag := c.f, uid := c.p.uid, wuid := c.w.wuid, seq := c.p.seq, word := c.p.pc, op := op
                     reads := reads, writes := writes, snap := snap, leased := leased }
  s.modCore c.f.die c.f.core (fun x =>
    { x with mxq := x.mxq ++ [e]
             mxLease := if leased then { x.mxLease with count := x.mxLease.count + 1 } else x.mxLease })

/-- A drain that ends at issue counts against the lease all the same (R322). -/
def countLease (s : State) (c : Ctx) : State :=
  s.modCore c.f.die c.f.core (fun x => { x with mxLease := { x.mxLease with count := x.mxLease.count + 1 } })

/-- The queue of eight is full (R323). -/
def mxFull (s : State) (c : Ctx) : Bool := (c.core s).mxq.length ≥ 8

/-- An access-right trap on accumulator rows: what `trapinfo` holds is open (R413). -/
def windowTrap (s : State) (f : FragRef) : State :=
  let (v, s) := s.takeWord
  trapAt s f 2 (v.zeroExtend 64)

/-- The first check of scratchpad operands that fails, as a trap: allotment, then locks (R88, R328). -/
def operandTrap (s : State) (c : Ctx) (ranges : List (Nat × Nat × Bool)) : Option (Nat × Nat) :=
  match ranges.find? (fun r => !inAllot c.g r.1 r.2.1) with
  | some r => some (2, r.1)
  | none =>
    match ranges.filterMap (fun r => lockHit (c.core s) false r.1 r.2.1 r.2.2) with
    | b :: _ => some (0x0A, b)
    | [] => none

/-! ### `mma` (R325 to R331) -/

/-- The value format of a matrix format code (R326). -/
def mxFmt : Nat → FFmt
  | 0 => .f32
  | 1 => .f16
  | 2 => .bf16
  | 3 => .e4m3
  | 4 => .e5m2
  | 5 => .e3m2
  | 6 => .e2m3
  | _ => .e2m1

/-- Bits of an element of a code; t3 is packed otherwise (R326). -/
def mxBits : Nat → Nat
  | 0 | 10 => 32
  | 1 | 2 => 16
  | 5 | 6 => 6
  | 7 => 4
  | _ => 8

/-- The class of a code: F32, H, MX, I, T (R326). -/
def mxClass : Nat → Nat
  | 0 => 0
  | 1 | 2 => 1
  | 8 => 3
  | 9 => 4
  | _ => 2

/-- The fields of a format block (R325). -/
structure FmtBlock where
  fa : Nat
  fb : Nat
  kq : Nat
  ta : Bool
  tb : Bool
  bl : Bool
  sa : Nat
  sb : Nat
  bad : Bool
  deriving DecidableEq, Repr, Inhabited

/-- Reads a format block. -/
def fmtBlock (w : W64) : FmtBlock :=
  let x := w.toNat
  { fa := bitsOf x 60 4, fb := bitsOf x 56 4, kq := bitsOf x 48 5, ta := bitAt x 47, tb := bitAt x 46, bl := bitAt x 45
    sa := bitsOf x 19 19, sb := bitsOf x 0 19, bad := bitsOf x 53 3 != 0 || bitsOf x 38 7 != 0 }

/-- Bytes of operand A and of operand B (R329). -/
def mmaLens (b : FmtBlock) (m n : Nat) : Nat × Nat :=
  let k := 32 * b.kq
  (m * k * mxBits b.fa / 8, if b.fb = 9 then n * ceilDiv k 5 else n * k * mxBits b.fb / 8)

/-- The scratchpad operands of an `mma` (R329). -/
def mmaReads (b : FmtBlock) (m n a bo : Nat) : List (Nat × Nat) :=
  let (la, lb) := mmaLens b m n
  [(a, la), (bo, lb)] ++ (if b.bl then [(b.sa, m * b.kq), (b.sb, n * b.kq)] else [])

/-- The fields of an `mma` are legal (R328). -/
def mmaLegal (b : FmtBlock) (kind : Nat) : Bool :=
  let ca := mxClass b.fa
  let cb := mxClass b.fb
  b.fa ≤ 9 && b.fb ≤ 9 && 1 ≤ b.kq && b.kq ≤ 16 && !b.bad &&
  (match kind with
    | 0 => ca == cb && ca ≤ 2
    | 1 => b.fa == 8 && b.fb == 8
    | _ => b.fa == 8 && b.fb == 9) &&
  (b.bl == (ca == 2 || cb == 2)) && !(b.fb == 9 && b.tb)

/-- Rows or columns of a size code (R327). -/
def sizeOf2 (x : BitVec 2) : Nat := 16 * 2 ^ x.toNat

/-- `mma` at issue (R327, R328). -/
def execMma (h : Hdr) (mc nc kind : BitVec 2) (row col : BitVec 4) (d a b : Opd) (s : State) :
    Host.Outcome State Fault Refusal :=
  .next (matrixOp h [d, a, b] (fun c s =>
    mxLeased s c (fun s =>
      let m := sizeOf2 mc
      let n := sizeOf2 nc
      let r := 16 * row.toNat
      let k := 16 * col.toNat
      let w : W64 := BitVec.ofNat 64 (kNat s c d)
      let fb := fmtBlock w
      let ka := kNat s c a
      let kb := kNat s c b
      let reads := mmaReads fb m n ka kb
      if !windowOk c.g r k m n then windowTrap s c.f
      else if !mmaLegal fb kind.toNat then illegal s c.f
      else if ka % 32 != 0 then trapAt s c.f 4 (BitVec.ofNat 64 ka)
      else if kb % 32 != 0 then trapAt s c.f 4 (BitVec.ofNat 64 kb)
      else
        match operandTrap s c (reads.map (fun x => (x.1, x.2, false))), typesAre (c.core s) (tilesOf r k m n) (kind != 0) with
        | some (cause, x), _ => trapAt s c.f cause (BitVec.ofNat 64 x)
        | none, some false => illegal s c.f
        | none, none => hold s c.f .stall
        | none, some true =>
          if reserved s c.f.die c.f.core r k m n then hold s c.f .mxRes
          else if mxFull s c || acqOut s c.p.uid || opsHeld s c reads [] then hold s c.f .stall
          else finish (acceptMx s c (.mma r k m n kind.toNat w ka kb) reads [] true) c.f 1)) s)

/-- `mzero` at issue (R334). -/
def execMzero (h : Hdr) (mc nc : BitVec 2) (i32 : Bool) (row col : BitVec 4) (s : State) : Host.Outcome State Fault Refusal :=
  .next (matrixOp h [] (fun c s =>
    mxLeased s c (fun s =>
      let m := sizeOf2 mc
      let n := sizeOf2 nc
      let r := 16 * row.toNat
      let k := 16 * col.toNat
      if !windowOk c.g r k m n then windowTrap s c.f
      else if reserved s c.f.die c.f.core r k m n then hold s c.f .mxRes
      else if mxFull s c then hold s c.f .stall
      else finish (acceptMx s c (.mzero r k m n i32) [] [] true) c.f 1)) s)

/-- Bits of a list of bytes from a bit position (R167). -/
def bitsIn (bs : List Byte) (bit w : Nat) : Nat := leNat (bytesAt bs (bit / 8) 5) / 2 ^ (bit % 8) % 2 ^ w

/-- The contribution of one group: the exact value, the rounded one, and the flags (R180). -/
structure Contrib where
  x : FV
  t : FV
  fl : BitVec 5
  deriving Repr, Inhabited

/-- One floating-point group under two scales (R180). -/
def groupOf (us vs : List FV) (sa sb : Option Int) : Contrib :=
  let ops := us ++ vs
  let ps := (us.zip vs).map (fun p => p.1.mul p.2)
  let p : FV := match ps with
    | [] => FV.zero false
    | x :: t => t.foldl (fun (a b : FV) => a.add b false) x
  let bad := p.isNan && !ops.any (·.isNan)
  match sa, sb with
  | some i, some j =>
    let x := p.scale (i + j)
    let r := roundTo .f32 .rne false x
    { x := x, t := if x.isNan then .nan else fdecode .f32 r.bits
      fl := flagBits false false (r.ovf && !x.isInf) bad false }
  | _, _ => { x := .nan, t := .nan, fl := flagBits false false false bad true }

/-- Adds a contribution to an FP32 element (R180). -/
def accAdd (old : Nat) (c : Contrib) : Nat × BitVec 5 :=
  let r := fresult .f32 .rne false false [fdecode .f32 old, c.t] ((fdecode .f32 old).add c.t false)
  (r.v, r.fl ||| c.fl)

/-- One addition to an FP checksum (R331). -/
def ckAdd (old : Nat) (xs : List FV) : Nat :=
  let sum := xs.foldl (fun (a b : FV) => a.add b false) (FV.zero false)
  (roundTo .f64 .rne false ((fdecode .f64 old).add sum false)).bits

/-- A contribution is finite. -/
def FV.finite : FV → Bool
  | .fin _ _ _ _ => true
  | _ => false

/-- Updates the checksums of a window's touched sub-tiles from one group's contributions (R331): `has` names the elements that
receive one. -/
def ckGroup (c : Core) (row col m n : Nat) (x : Nat → Nat → Option FV) : Core :=
  let at_ (i j : Nat) : FV := (x i j).getD (FV.zero false)
  let lo (v : Nat) : Nat := v / 16 * 16
  let rows := (List.range m).map (row + ·)
  let cols := (List.range n).map (col + ·)
  let c' := ((rows.map lo).eraseDups).foldl (fun c r => cols.foldl (fun c j =>
    c.setColCk r j (ckAdd (c.colCk r j) ((List.range 16).map (fun i => at_ (r + i) j)))) c) c
  let c' := rows.foldl (fun c i => ((cols.map lo).eraseDups).foldl (fun c k =>
    c.setRowCk i k (ckAdd (c.rowCk i k) ((List.range 16).map (fun j => at_ i (k + j))))) c) c'
  rows.foldl (fun c i => cols.foldl (fun c j =>
    if (at_ i j).finite then c else c.modTile (tileKey i j) (fun t => { t with ckv := false })) c) c'

/-- One floating-point group over a window (R180, R331). -/
def floatGroup (row col m n : Nat) (g : Nat → Nat → Contrib) (p : Core × BitVec 5) : Core × BitVec 5 :=
  let p := (cellsOf row col m n).foldl (fun (p : Core × BitVec 5) (e : Nat × Nat) =>
    let r := accAdd (p.1.elem e.1 e.2) (g e.1 e.2)
    (p.1.setElem e.1 e.2 r.1, p.2 ||| r.2)) p
  let inW (i j : Nat) : Bool := row ≤ i && i < row + m && col ≤ j && j < col + n
  (ckGroup p.1 row col m n (fun i j => if inW i j then some (g i j).x else none), p.2)

/-- One integer group over a window (R181, R331). -/
def intGroup (row col m n : Nat) (g : Nat → Nat → Int) (p : Core × BitVec 5) : Core × BitVec 5 :=
  let ovf := flagBits false false true false false
  let p := (cellsOf row col m n).foldl (fun (p : Core × BitVec 5) (e : Nat × Nat) =>
    let v := sgn 32 (p.1.elem e.1 e.2) + g e.1 e.2
    let r := max (-(2 ^ 31 : Int)) (min (2 ^ 31 - 1) v)
    let c := p.1.setElem e.1 e.2 (wrapN 32 r)
    if r = v then (c, p.2) else (c.modTile (tileKey e.1 e.2) (fun t => { t with sat := true, ckv := false }), p.2 ||| ovf)) p
  let inW (i j : Nat) : Bool := row ≤ i && i < row + m && col ≤ j && j < col + n
  let at_ (i j : Nat) : Int := if inW i j then g i j else 0
  let lo (v : Nat) : Nat := v / 16 * 16
  let rows := (List.range m).map (row + ·)
  let cols := (List.range n).map (col + ·)
  let add (old : Nat) (l : List Int) : Nat := wrapN 64 ((old : Int) + l.foldl (· + ·) 0)
  let c := ((rows.map lo).eraseDups).foldl (fun c r => cols.foldl (fun c j =>
    c.setColCk r j (add (c.colCk r j) ((List.range 16).map (fun i => at_ (r + i) j)))) c) p.1
  (rows.foldl (fun c i => ((cols.map lo).eraseDups).foldl (fun c k =>
    c.setRowCk i k (add (c.rowCk i k) ((List.range 16).map (fun j => at_ i (k + j))))) c) c, p.2)

/-- Operand bytes that an engine reads as elements of `w` bits: each element that has changed since issue is the old or the new one (R324). -/
def mixElems (s : State) (w : Nat) (old now : List Byte) : List Byte × State :=
  if old == now then (now, s)
  else
    let a := leNat old
    let b := leNat now
    let (v, s) := (List.range (8 * old.length / w)).foldl (fun (p : Nat × State) i =>
      let x := bitsOf a (i * w) w
      let y := bitsOf b (i * w) w
      if x == y then (p.1 + x * 2 ^ (i * w), p.2)
      else let (k, s) := p.2.takeBool; (p.1 + (if k then x else y) * 2 ^ (i * w), s)) (0, s)
    (leBytes old.length v, s)

/-- A t3 byte whose trits are each the old or the new one, and whether one of them comes from a reserved byte (R169, R324). -/
def mixTrits (s : State) (a b : Byte) : Byte × Bool × State :=
  if a == b then (a, a.toNat ≥ 243, s)
  else
    let (v, bad, s) := (List.range 5).foldl (fun (p : Nat × Bool × State) i =>
      let (k, s) := p.2.2.takeBool
      let x := if k then a.toNat else b.toNat
      (p.1 + tritOf x i * 3 ^ i, p.2.1 || x ≥ 243, s)) (0, false, s)
    (BitVec.ofNat 8 v, bad, s)

/-- A string of t3 bytes read so. -/
def mixT3 (s : State) (old now : List Byte) : List Byte × Bool × State :=
  (old.zip now).foldl (fun (p : List Byte × Bool × State) (x : Byte × Byte) =>
    let (v, bad, s) := mixTrits p.2.2 x.1 x.2
    (p.1 ++ [v], p.2.1 || bad, s)) ([], false, s)

/-- The operands of an entry, cut into its ranges. -/
def cutReads : List (Nat × Nat) → List Byte → List (List Byte)
  | [], _ => []
  | r :: t, bs => bs.take r.2 :: cutReads t (bs.drop r.2)

/-- Element values of A and B (R329): `A i k`, `B k j`. -/
def mmaA (b : FmtBlock) (m : Nat) (bs : List Byte) (i k : Nat) : Nat :=
  let w := mxBits b.fa
  bitsIn bs ((if b.ta then k * m + i else i * (32 * b.kq) + k) * w) w

/-- Element `k, j` of B, for formats other than t3 (R329). -/
def mmaB (b : FmtBlock) (n : Nat) (bs : List Byte) (k j : Nat) : Nat :=
  let w := mxBits b.fb
  bitsIn bs ((if b.tb then k * n + j else j * (32 * b.kq) + k) * w) w

/-- A trit as an integer. -/
def tritVal (v i : Nat) : Int :=
  match tritOf v i with
  | 0 => 0
  | 1 => 1
  | _ => -1

/-- The group length of a format class (R180). -/
def groupLen (cls : Nat) : Nat :=
  match cls with
  | 0 => 8
  | 1 => 16
  | _ => 32

/-- The effect of an `mma` on the accumulator store (R180, R181, R330, R331), with its flags. -/
def mmaDo (c : Core) (row col m n kind : Nat) (b : FmtBlock) (ops : List (List Byte)) : Core × BitVec 5 :=
  let nth (i : Nat) : List Byte := (ops[i]?).getD []
  let kk := 32 * b.kq
  if kind = 0 then
    let gl := groupLen (mxClass b.fa)
    let sc (i : Nat) (l : Nat) (g : Nat) : Option Int := if b.bl then scaleExp (((nth i)[l * b.kq + g * gl / 32]?).getD 0) else some 0
    (List.range (kk / gl)).foldl (fun p g =>
      let ks := (List.range gl).map (g * gl + ·)
      floatGroup row col m n (fun i j =>
        groupOf (ks.map (fun k => fdecode (mxFmt b.fa) (mmaA b m (nth 0) (i - row) k)))
          (ks.map (fun k => fdecode (mxFmt b.fb) (mmaB b n (nth 1) k (j - col))))
          (sc 2 (i - row) g) (sc 3 (j - col) g)) p) (c, 0)
  else
    let bv (k j : Nat) : Int :=
      if b.fb = 9 then tritVal (((nth 1)[j * ceilDiv kk 5 + k / 5]?).getD 0).toNat (k % 5) else sgn 8 (mmaB b n (nth 1) k j)
    let bad := b.fb == 9 && (nth 1).any (fun x => x.toNat ≥ 243)
    (List.range b.kq).foldl (fun p g =>
      let ks := (List.range 32).map (g * 32 + ·)
      intGroup row col m n (fun i j =>
        ks.foldl (fun a k => a + sgn 8 (mmaA b m (nth 0) (i - row) k) * bv k (j - col)) 0) p)
      (c, flagBits bad false false false false)

/-! ### Drains (R332, R335 to R338) -/

/-- The fields of a drain descriptor (R336). -/
structure Drain where
  dst : Nat
  dsc : Nat
  tdst : Nat
  tdsc : Nat
  pitch : Nat
  tpitch : Nat
  row : Nat
  col : Nat
  m : Nat
  n : Nat
  dfmt : Nat
  tfmt : Nat
  ctl : Nat
  cls : Nat
  deriving DecidableEq, Repr, Inhabited

/-- Reads a drain descriptor. -/
def drainOf (b : List Byte) : Drain :=
  { dst := fieldAt b 0 8, dsc := fieldAt b 8 8, tdst := fieldAt b 16 8, tdsc := fieldAt b 24 8, pitch := fieldAt b 32 4
    tpitch := fieldAt b 36 4, row := fieldAt b 40 1, col := fieldAt b 41 1
    m := 16 * 2 ^ (fieldAt b 42 1 % 4), n := 16 * 2 ^ (fieldAt b 43 1 % 4), dfmt := fieldAt b 44 1, tfmt := fieldAt b 45 1
    ctl := fieldAt b 46 1, cls := fieldAt b 47 1 }

/-- Its destination space. -/
def Drain.glob (d : Drain) : Bool := bitAt d.ctl 4

/-- Its rounding code. -/
def Drain.rnd (d : Drain) : Rnd :=
  match d.ctl % 8 with
  | 0 => .rne
  | 1 => .rtz
  | 2 => .rup
  | 3 => .rdn
  | _ => .sr (BitVec.ofNat 4 d.cls)

/-- Its destination ranges (R336). -/
def Drain.ranges (d : Drain) (tq : Bool) : List (Nat × Nat) :=
  let rows (at_ p k w : Nat) : Nat × Nat := (at_, (k - 1) * p + w)
  [rows d.dst d.pitch d.m (d.n * mxBits d.dfmt / 8)] ++ (if mxClass d.dfmt == 2 && d.dfmt < 8 then [(d.dsc, d.m * d.n / 32)] else []) ++
  (if tq then
    [rows d.tdst d.tpitch d.n (d.m * mxBits d.tfmt / 8)] ++ (if mxClass d.tfmt == 2 && d.tfmt < 8 then [(d.tdsc, d.m * d.n / 32)] else [])
  else [])

/-- Some two ranges of a list overlap. -/
def anyOverlap : List (Nat × Nat) → Bool
  | [] => false
  | r :: t => t.any (fun q => overlap r.1 r.2 q.1 q.2) || anyOverlap t

/-- A drain's destination format is assigned (R326). -/
def drainFmt (f : Nat) : Bool := f ≤ 8 || f == 10

/-- The field checks of a drain (R336). -/
def drainBad (b : List Byte) (d : Drain) (tq cw : Bool) : Bool :=
  let mx (f : Nat) : Bool := 3 ≤ f && f ≤ 7
  !drainFmt d.dfmt || !drainFmt d.tfmt || (!tq && d.tfmt != 0) ||
  fieldAt b 42 1 > 3 || fieldAt b 43 1 > 3 || d.row % 16 != 0 || d.col % 16 != 0 ||
  (mx d.dfmt && d.n < 32) || (tq && mx d.tfmt && d.m < 32) ||
  d.dst % 16 != 0 || (tq && d.tdst % 16 != 0) ||
  d.pitch % 16 != 0 || d.pitch * 8 < d.n * mxBits d.dfmt || (tq && (d.tpitch % 16 != 0 || d.tpitch * 8 < d.m * mxBits d.tfmt)) ||
  d.ctl ≥ 32 || d.ctl % 8 > 4 || (d.ctl % 8 == 4 && d.cls > 14) || (d.ctl % 8 != 4 && d.cls != 0) ||
  (!cw && fieldAt b 48 8 != 0) || fieldAt b 56 8 != 0 || anyOverlap (d.ranges tq)

/-- A destination format suits a type (R337). -/
def suits (int : Bool) (f : Nat) : Bool := if int then f == 10 || f == 8 || f == 0 else f ≤ 7

/-- The type check of a drain (R337); `none` while a type is not known. -/
def drainTypes (c : Core) (d : Drain) (tq : Bool) : Option Bool :=
  (allSome (pendType c) (tilesOf d.row d.col d.m d.n)).map (fun l =>
    match l with
    | [] => false
    | t :: r => r.all (· == t) && suits t d.dfmt && (!tq || suits t d.tfmt))

/-- The number of values that a drain draws (R172, R337). -/
def drainDraws (d : Drain) (tq : Bool) : Nat := if d.ctl % 8 == 4 then (if tq then 2 else 1) * d.m * d.n else 0

/-- The request of an `mdrn` (R336, R337); the descriptor is read once at issue. -/
def mdrnReq (s : State) (c : Ctx) (tq : Bool) (cw : CwMod) (val : W64) (off : Nat) (ty : Bool) : CmdReq :=
  let core := c.core s
  let b := scrRead core off 64
  let d := drainOf b
  let cwo := fieldAt b 48 8
  let early := firstFail [(off % 64 != 0, 0x16), (!inAllot c.g off 64, 0x14), (scrPois core off 64, 0x12)]
  { fail := early.orElse (fun _ => firstFail (cwChecks c.g cw val (bitsOf cwo 0 19) (cwo ≥ 2 ^ 19) ++
      [(!windowOk c.g d.row d.col d.m d.n && fieldAt b 42 1 ≤ 3 && fieldAt b 43 1 ≤ 3, 0x44), (drainBad b d tq cw.cw, 0x41),
       (!d.glob && (d.ranges tq).any (fun r => !inAllot c.g r.1 r.2), 0x14), (!ty, 0x42)]))
    kind := .mdrn b tq c.w.srix
    locks := (false, off, 64, false) :: (d.ranges tq).map (fun r => (d.glob, r.1, r.2, true))
    cw := cwordOf cw (bitsOf cwo 0 19) val
    st := .running }

/-- `mdrn` (R335): its descriptor is read when the earlier accesses of the agent are complete (R144, R146). -/
def execMdrn (h : Hdr) (tq : Bool) (cw : CwMod) (d a : Opd) (s : State) : Host.Outcome State Fault Refusal :=
  .next (matrixOp h (if cw.cw then [d, a] else [a]) (fun c s =>
    mxLeased s c (fun s =>
      let off := kNat s c a
      let val : W64 := if cw.cw then BitVec.ofNat 64 (kNat s c d) else 0
      let dr := drainOf (scrRead (c.core s) off 64)
      match lockHit (c.core s) false off 64 false, drainTypes (c.core s) dr tq with
      | some x, _ => trapAt s c.f 0x0A (BitVec.ofNat 64 x)
      | none, none => hold s c.f .stall
      | none, some ty =>
        let r := mdrnReq s c tq cw val off ty
        if acqOut s c.p.uid || !settledAll s c.f c.p.uid then hold s c.f .stall
        else if r.fail.isSome || (freeEnt (c.core s)).isNone then countLease (issueCmd s c d r) c
        else if reserved s c.f.die c.f.core dr.row dr.col dr.m dr.n then hold s c.f .mxRes
        else if mxFull s c then hold s c.f .stall
        else
          let id := s.nextId
          let s' := issueCmd s c d r
          if s'.cmds.length == s.cmds.length then s'
          else
            let s' := acceptMx s' c (.mdrn id dr.row dr.col dr.m dr.n) [] [] true
            s'.modWarp c.f (fun w => { w with srix := w.srix + BitVec.ofNat 32 (drainDraws dr tq) }))) s)

/-- The sum of exact values. -/
def sumFV (l : List FV) : FV := l.foldl (fun (a b : FV) => a.add b false) (FV.zero false)

/-- The magnitude of a value. -/
def FV.abs : FV → FV
  | .fin _ m e st => .fin false m e st
  | .inf _ => .inf false
  | .nan => .nan

/-- Elements fail their checksum (R332). -/
def ckFails (int : Bool) (els : List Nat) (ck : Nat) : Bool :=
  if int then wrapN 64 (els.foldl (fun a e => a + sgn 32 e) 0) != ck
  else
    let vs := els.map (fdecode .f32)
    let e := fdecode .f64 ck
    if vs.any (fun v => !v.finite) || !e.finite then true
    else
      let diff := ((sumFV vs).add e.neg false).abs
      let bound := (((sumFV (vs.map FV.abs)).scale (-16)).add (e.abs.scale (-24)) false)
      FV.cmp diff bound > 0

/-- The verification of one sub-tile: the columns and the rows that fail (R332, R432). -/
def tileFails (c : Core) (r k : Nat) (int : Bool) : List Nat × List Nat :=
  let pois (i j : Nat) : Bool := c.accPois.contains (accKey (r + i) (k + j))
  ((List.range 16).filter (fun j =>
      ckFails int ((List.range 16).map (fun i => c.elem (r + i) (k + j))) (c.colCk r (k + j)) || (List.range 16).any (fun i => pois i j)),
   (List.range 16).filter (fun i =>
      ckFails int ((List.range 16).map (fun j => c.elem (r + i) (k + j))) (c.rowCk (r + i) k) || (List.range 16).any (fun j => pois i j)))

/-- The corrected element: the column's checksum less its other fifteen elements (R332). -/
def corrected (c : Core) (r k i j : Nat) (int : Bool) : Nat :=
  let others := ((List.range 16).filter (· != i)).map (fun a => c.elem (r + a) (k + j))
  let ck := c.colCk r (k + j)
  if int then wrapN 32 ((ck : Int) - others.foldl (fun a e => a + sgn 32 e) 0)
  else (roundTo .f32 .rne false ((fdecode .f64 ck).add (sumFV (others.map (fdecode .f32))).neg false)).bits

/-- Verifies and corrects one sub-tile: the store, whether a correction was made, and the failure's code (R332, R432). -/
def verifyTile (c : Core) (t : Nat) : Core × Nat × Option Nat :=
  let r := t / 16 * 16
  let k := t % 16 * 16
  let st := c.tile t
  let pois := (List.range 16).any (fun i => (List.range 16).any (fun j => c.accPois.contains (accKey (r + i) (k + j))))
  if !st.ckv then (c, 0, if pois then some 0x12 else none)
  else
    match tileFails c r k st.i32 with
    | ([], []) => (c, 0, none)
    | ([j], [i]) => (((c.setElem (r + i) (k + j) (corrected c r k i j st.i32)).accPoison (r + i) (k + j) false), 1, none)
    | _ => (c, 0, some (if pois then 0x12 else 0x40))

/-- Verifies the sub-tiles of a window in turn: the store, the corrections, the first failure. -/
def verifyTiles : List Nat → Core × Nat × Option Nat → Core × Nat × Option Nat
  | [], p => p
  | t :: r, (c, n, f) =>
    let (c, k, g) := verifyTile c t
    verifyTiles r (c, n + k, f.orElse (fun _ => g))

/-- One row of a drain: scale bytes, element bytes, flags (R337). -/
def drainRow (int : Bool) (fmt : Nat) (d : Drain) (srix : W32) (n0 : Nat) (raw : List Nat) : List Byte × List Byte × BitVec 5 :=
  let g (e : Nat) : Nat := if d.ctl % 8 == 4 then genVal d.cls (srix.toNat + n0 + e) else 0
  let md (e : Nat) : RMode := ⟨d.rnd, g e⟩
  let sat := bitAt d.ctl 3
  let orFl (l : List Res) : BitVec 5 := l.foldl (fun a r => a ||| r.fl) 0
  if fmt = 10 then ([], raw.flatMap (leBytes 4), 0)
  else if fmt = 8 then
    let rs := raw.map (fun x =>
      let v := sgn 32 x
      let r := max (-128 : Int) (min 127 v)
      (⟨wrapN 8 r, if r = v then 0 else flagBits false false true false false⟩ : Res))
    ([], rs.map (fun r => BitVec.ofNat 8 r.v), orFl rs)
  else
    let f := mxFmt fmt
    let vs := raw.map (fun x => if int then FV.ofInt (sgn 32 x) else fdecode .f32 x)
    if 3 ≤ fmt then
      let bl := blocks32 (vs.length / 32 + 1) vs
      let scs := bl.map (blockScale f)
      let rs := (List.range vs.length).map (fun j =>
        match scaleExp ((scs[j / 32]?).getD 0) with
        | none => (⟨f.nan, 0⟩ : Res)
        | some k => ofRound (roundTo f (md j) sat (((vs[j]?).getD .nan).scale (-k))))
      (scs, packBits f.width (rs.map (·.v)), orFl rs)
    else
      let rs := vs.zipIdx.map (fun p => ofRound (roundTo f (md p.2) sat p.1))
      ([], packBits f.width (rs.map (·.v)), orFl rs)

/-- The payload of a drain: its writes and flags (R337). -/
def drainOut (c : Core) (d : Drain) (tq : Bool) (srix : W32) : List (Nat × List Byte) × BitVec 5 :=
  let int := (c.tile (tileKey d.row d.col)).i32
  let sat := (tilesOf d.row d.col d.m d.n).any (fun t => (c.tile t).sat)
  let one (fmt at_ sc pitch nsc n0 : Nat) (i : Nat) (raw : List Nat) : List (Nat × List Byte) × BitVec 5 :=
    let (ss, es, fl) := drainRow int fmt d srix n0 raw
    ((if ss.isEmpty then [] else [(sc + i * nsc, ss)]) ++ [(at_ + i * pitch, es)], fl)
  let rows := (List.range d.m).map (fun i =>
    one d.dfmt d.dst d.dsc d.pitch (d.n / 32) (i * d.n) i ((List.range d.n).map (fun j => c.elem (d.row + i) (d.col + j))))
  let cols := if tq then (List.range d.n).map (fun j =>
    one d.tfmt d.tdst d.tdsc d.tpitch (d.m / 32) (d.m * d.n + j * d.m) j ((List.range d.m).map (fun i => c.elem (d.row + i) (d.col + j))))
    else []
  let all := rows ++ cols
  (all.flatMap (·.1), all.foldl (fun a r => a ||| r.2) (flagBits false false sat false false))

/-- Adds to a saturating counter (R333). -/
def satAdd (x : W32) (n : Nat) : W32 := BitVec.ofNat 32 (min 0xFFFFFFFF (x.toNat + n))

/-- The engine reaches a drain: it verifies, corrects, and takes the payload, or fails (R332, R337, R338, R432). -/
def drainRead (s : State) (d core : Nat) (id : Nat) : State :=
  match s.cmd? id with
  | none => s
  | some cmd =>
    match cmd.kind with
    | .mdrn b tq srix =>
      let dr := drainOf b
      let (c, n, f) := verifyTiles (tilesOf dr.row dr.col dr.m dr.n) (s.core d core, 0, none)
      let s := (s.modCore d core (fun _ => c)).modDie d (fun x =>
        { x with ckcorr := satAdd x.ckcorr n, ckfail := if f == some 0x40 then satAdd x.ckfail 1 else x.ckfail })
      (match f with
        | some code => cmdDone (if code == 0x12 then countCons s d else s) id (BitVec.ofNat 64 code)
        | none =>
          let (o, fl) := drainOut c dr tq srix
          (setFlagsOf s d cmd.wg cmd.wuid fl).modCmd id (fun c => { c with out := o }))
    | _ => s

/-! ### `acp` (R340, R341) -/

/-- Bytes of a band in a layout (R341). -/
def bandLen (ck : Bool) : Nat := if ck then 4160 else 16384

/-- The state byte of a sub-tile (R341). -/
def tileByte (t : SubTile) : Byte := BitVec.ofNat 8 ((if t.i32 then 1 else 0) + (if t.sat then 2 else 0) + (if t.ckv then 4 else 0))

/-- The bytes of a band's elements or checksums, with the poisoned units (R341). -/
def bandBytes (c : Core) (ck : Bool) (band : Nat) : List Byte :=
  if ck then
    (List.range 256).flatMap (fun j => leBytes 8 (c.colCk (16 * band) j)) ++
    (List.range 16).flatMap (fun r => (List.range 16).flatMap (fun k => leBytes 8 (c.rowCk (16 * band + r) (16 * k)))) ++
    (List.range 16).map (fun k => tileByte (c.tile (16 * band + k))) ++ zeros 48
  else (List.range 16).flatMap (fun r => (List.range 256).flatMap (fun j => leBytes 4 (c.elem (16 * band + r) j)))

/-- The checksums of a band become the sums of its elements (R341). -/
def sumBand (c : Core) (band : Nat) : Core :=
  let r := 16 * band
  let sum (int : Bool) (els : List Nat) : Nat :=
    if int then wrapN 64 (els.foldl (fun a e => a + sgn 32 e) 0)
    else (roundTo .f64 .rne false (sumFV (els.map (fdecode .f32)))).bits
  (List.range 16).foldl (fun c k =>
    let t := c.tile (16 * band + k)
    let c := (List.range 16).foldl (fun c j =>
      c.setColCk r (16 * k + j) (sum t.i32 ((List.range 16).map (fun i => c.elem (r + i) (16 * k + j))))) c
    let c := (List.range 16).foldl (fun c i =>
      c.setRowCk (r + i) (16 * k) (sum t.i32 ((List.range 16).map (fun j => c.elem (r + i) (16 * k + j))))) c
    let bad := !t.i32 && (List.range 16).any (fun i => (List.range 16).any (fun j => !(fdecode .f32 (c.elem (r + i) (16 * k + j))).finite))
    c.modTile (16 * band + k) (fun t => { t with ckv := !bad })) c

/-- Loads a band's elements or checksums from its bytes (R341). -/
def loadBand (c : Core) (ck : Bool) (band : Nat) (bs : List Byte) : Core :=
  let r := 16 * band
  if ck then
    let c := (List.range 256).foldl (fun c j => c.setColCk r j (fieldAt bs (8 * j) 8)) c
    let c := (List.range 16).foldl (fun c i => (List.range 16).foldl (fun c k =>
      c.setRowCk (r + i) (16 * k) (fieldAt bs (2048 + 8 * (16 * i + k)) 8)) c) c
    (List.range 16).foldl (fun c k =>
      let x := fieldAt bs (4096 + k) 1
      c.modTile (16 * band + k) (fun _ => ⟨bitAt x 0, bitAt x 1, bitAt x 2⟩)) c
  else
    sumBand ((List.range 16).foldl (fun c i => (List.range 256).foldl (fun c j =>
      (c.setElem (r + i) j (fieldAt bs (1024 * i + 4 * j) 4)).accPoison (r + i) j false) c) c) band

/-- `acp` at issue (R340): `fs` copies from scratchpad, `ck` the checksums. -/
def acpIssue (h : Hdr) (fs ck : Bool) (row : BitVec 4) (a nb : Opd) (s : State) : State :=
  matrixOp h [a, nb] (fun c s =>
    let off := kNat s c a
    let n := kNat s c nb
    let r := 16 * row.toNat
    let len := n * bandLen ck
    let reads := if fs then [(off, len)] else []
    let writes := if fs then [] else [(off, len)]
    if n = 0 || n > 16 then illegal s c.f
    else if !windowOk c.g r 0 (16 * n) 256 then windowTrap s c.f
    else if off % 64 != 0 then trapAt s c.f 4 (BitVec.ofNat 64 off)
    else
      match operandTrap s c [(off, len, !fs)] with
      | some (cause, x) => trapAt s c.f cause (BitVec.ofNat 64 x)
      | none =>
        if reserved s c.f.die c.f.core r 0 (16 * n) 256 then hold s c.f .mxRes
        else if mxFull s c || acqOut s c.p.uid || opsHeld s c reads writes then hold s c.f .stall
        else finish (acceptMx s c (.acp fs ck r n off) reads writes false) c.f 1) s

/-- `acp.ts` (R340). -/
def execAcpTs (h : Hdr) (row : BitVec 4) (a nb : Opd) (s : State) : Host.Outcome State Fault Refusal :=
  .next (acpIssue h false false row a nb s)

/-- `acp.fs` (R340). -/
def execAcpFs (h : Hdr) (row : BitVec 4) (a nb : Opd) (s : State) : Host.Outcome State Fault Refusal :=
  .next (acpIssue h true false row a nb s)

/-- `acp.ck.ts` (R340). -/
def execAcpCkTs (h : Hdr) (row : BitVec 4) (a nb : Opd) (s : State) : Host.Outcome State Fault Refusal :=
  .next (acpIssue h false true row a nb s)

/-- `acp.ck.fs` (R340). -/
def execAcpCkFs (h : Hdr) (row : BitVec 4) (a nb : Opd) (s : State) : Host.Outcome State Fault Refusal :=
  .next (acpIssue h true true row a nb s)

/-! ### The engine finishes an instruction (R323, R432) -/

/-- The fragment that issued an entry, while it lives. -/
def EngOp.alive (s : State) (e : EngOp) : Bool := (s.frag? e.frag).any (fun p => p.uid == e.uid)

/-- The poison-consumed fault of an entry returns to its fragment, imprecisely (R413, R432). -/
def engPoison (s : State) (d : Nat) (e : EngOp) (at_ : Nat) : State :=
  let s := countCons s d
  if !e.alive s then s
  else s.modFrag e.frag (fun p =>
    { p with fault := p.fault.orElse (fun _ => some ⟨0x12, BitVec.ofNat 64 at_, e.word, e.seq, p.am⟩) })

/-- The rows and columns that poisoned operands of an `mma` reach (R432). -/
def mmaPoison (c : Core) (b : FmtBlock) (m n : Nat) (rs : List (Nat × Nat)) : List Nat × List Nat :=
  let bad (r : Nat × Nat) (bit w : Nat) : Bool := scrPois c (r.1 + bit / 8) ((bit % 8 + w + 7) / 8)
  let kk := 32 * b.kq
  let nth (i : Nat) : Nat × Nat := (rs[i]?).getD (0, 0)
  let wa := mxBits b.fa
  let wb := mxBits b.fb
  let scale (i l : Nat) : Bool := b.bl && scrPois c ((nth i).1 + l * b.kq) b.kq
  ((List.range m).filter (fun i => scale 2 i || (List.range kk).any (fun k =>
      bad (nth 0) ((if b.ta then k * m + i else i * kk + k) * wa) wa)),
   (List.range n).filter (fun j => scale 3 j || (List.range kk).any (fun k =>
      if b.fb = 9 then bad (nth 1) (8 * (j * ceilDiv kk 5 + k / 5)) 8
      else bad (nth 1) ((if b.tb then k * n + j else j * kk + k) * wb) wb)))

/-- The first poisoned byte of an entry's operands. -/
def firstBad (c : Core) (rs : List (Nat × Nat)) : Option Nat :=
  (rs.flatMap (fun r => (List.range r.2).map (r.1 + ·))).find? (fun a => scrPois c a 1)

/-- The operands of an `mma` as the engine reads them, element by element, and whether a mixed t3 byte has a trit of a reserved one (R324). -/
def mixOperands (s : State) (b : FmtBlock) (olds nows : List (List Byte)) : List (List Byte) × Bool × State :=
  ((olds.zip nows).zipIdx).foldl (fun (p : List (List Byte) × Bool × State) x =>
    if x.2 = 1 && b.fb = 9 then
      let (bs, bad, s) := mixT3 p.2.2 x.1.1 x.1.2
      (p.1 ++ [bs], p.2.1 || bad, s)
    else
      let w := if x.2 = 0 then mxBits b.fa else if x.2 = 1 then mxBits b.fb else 8
      let (bs, s) := mixElems p.2.2 w x.1.1 x.1.2
      (p.1 ++ [bs], p.2.1, s)) ([], false, s)

/-- Finishes an `mma` (R330, R331, R432). -/
def finishMma (s : State) (d core : Nat) (e : EngOp) (row col m n kind : Nat) (w : W64) : State :=
  let b := fmtBlock w
  let nows := e.reads.map (fun r => scrRead (s.core d core) r.1 r.2)
  let (ops, bad, s) := mixOperands s b (cutReads e.reads e.snap) nows
  let c0 := s.core d core
  let (c, fl) := mmaDo c0 row col m n kind b ops
  let fl := fl ||| flagBits bad false false false false
  let (pr, pc) := mmaPoison c0 b m n e.reads
  let c := (cellsOf row col m n).foldl (fun (c : Core) (x : Nat × Nat) =>
    if pr.contains (x.1 - row) || pc.contains (x.2 - col) then c.accPoison x.1 x.2 true else c) c
  let s := setFlagsOf (s.modCore d core (fun _ => c)) d e.wg e.wuid fl
  match firstBad c0 e.reads with
  | some a => engPoison s d e a
  | none => s

/-- The bytes that an `acp` reads for its bands, element by element: words of elements, or checksums and state bytes (R324, R341). -/
def mixBands (s : State) (ck : Bool) : Nat → List Byte → List Byte → List Byte × State
  | 0, _, _ => ([], s)
  | n + 1, old, now =>
    let l := bandLen ck
    let k := if ck then 4096 else l
    let (a, s) := mixElems s (if ck then 64 else 32) (old.take k) (now.take k)
    let (b, s) := mixElems s 8 ((old.take l).drop k) ((now.take l).drop k)
    let (t, s) := mixBands s ck n (old.drop l) (now.drop l)
    (a ++ b ++ t, s)

/-- Finishes an `acp` (R341, R432). -/
def finishAcp (s : State) (d core : Nat) (e : EngOp) (fs ck : Bool) (row nb off : Nat) : State :=
  let bands := List.range nb
  if fs then
    let now := scrRead (s.core d core) off (nb * bandLen ck)
    let (bs, s) := mixBands s ck nb e.snap now
    let c0 := s.core d core
    let c := bands.foldl (fun c i => loadBand c ck (row / 16 + i) (bytesAt bs (i * bandLen ck) (bandLen ck))) c0
    let c := if ck then c else bands.foldl (fun c i => (List.range 16).foldl (fun c r => (List.range 256).foldl (fun c j =>
      if scrPois c0 (off + i * 16384 + 1024 * r + 4 * j) 4 then c.accPoison (row + 16 * i + r) j true else c) c) c) c
    let s := s.modCore d core (fun _ => c)
    match firstBad c0 e.reads with
    | some a => engPoison s d e a
    | none => s
  else
    s.modCore d core (fun c => bands.foldl (fun c i =>
      let at_ := off + i * bandLen ck
      let band := row / 16 + i
      let c := scrWrite c at_ (bandBytes c ck band)
      if ck then c
      else (List.range 16).foldl (fun c r => (List.range 128).foldl (fun c u =>
        if c.accPois.contains (accKey (16 * band + r) (2 * u)) || c.accPois.contains (accKey (16 * band + r) (2 * u + 1)) then
          scrWrite c (at_ + 1024 * r + 8 * u) (scrRead c (at_ + 1024 * r + 8 * u) 8) true
        else c) c) c) c)

/-- `MATRIX_INSTRUCTION_FINISH`: the engine finishes the instruction that it accepted first (R323). -/
def execMatrixInstructionFinish (die core : Nat) (s : State) : Host.Outcome State Fault Refusal :=
  .next (match (s.core die core).mxq with
    | [] => s
    | e :: rest =>
      let s := s.modCore die core (fun c => { c with mxq := rest })
      match e.op with
      | .mma row col m n kind w _ _ => finishMma s die core e row col m n kind w
      | .mzero row col m n int => s.modCore die core (fun c => clearWindow c row col m n int)
      | .mdrn id _ _ _ _ => drainRead s die core id
      | .acp fs ck row nb off => finishAcp s die core e fs ck row nb off
      | .none => s)

/-! ### The near-memory product (R53 to R55, R342 to R344) -/

/-- The fields of an `mmv` descriptor (R342). -/
structure NearMem where
  baddr : Nat
  sbase : Nat
  avec : Nat
  pitch : Nat
  ncol : Nat
  nrow : Nat
  v : Nat
  bfmt : Nat
  row : Nat
  col : Nat
  deriving DecidableEq, Repr, Inhabited

/-- Reads an `mmv` descriptor. -/
def nearMemOf (b : List Byte) : NearMem :=
  { baddr := fieldAt b 0 8, sbase := fieldAt b 8 8, avec := fieldAt b 16 4, pitch := fieldAt b 20 4, ncol := fieldAt b 24 4
    nrow := fieldAt b 28 2, v := fieldAt b 30 1, bfmt := fieldAt b 31 1, row := fieldAt b 32 1, col := fieldAt b 33 1 }

/-- B is in an MX format. -/
def NearMem.mx (d : NearMem) : Bool := 1 ≤ d.bfmt && d.bfmt ≤ 3

/-- The format of B (R342). -/
def NearMem.fmt (d : NearMem) : FFmt :=
  match d.bfmt with
  | 0 => .bf16
  | 1 => .e4m3
  | 2 => .e5m2
  | _ => .e2m1

/-- Bytes of a row of B (R343). -/
def NearMem.rowLen (d : NearMem) : Nat := if d.bfmt = 4 then ceilDiv d.ncol 5 else d.ncol * d.fmt.width / 8

/-- Bytes of the vectors A (R343). -/
def NearMem.aLen (d : NearMem) : Nat := d.v * d.ncol * (if d.bfmt = 4 then 1 else 2)

/-- The field checks of an `mmv` (R342). -/
def nearMemBad (b : List Byte) (d : NearMem) (cw : Bool) : Bool :=
  d.baddr % 64 != 0 || (!d.mx && d.sbase != 0) || d.avec % 32 != 0 || d.pitch % 64 != 0 ||
  d.ncol < 32 || d.ncol > 65536 || d.ncol % 32 != 0 || d.nrow = 0 || d.nrow > 256 - d.col || d.v = 0 || d.v > 8 || d.bfmt > 4 ||
  d.row % 16 != 0 || d.col % 16 != 0 || fieldAt b 34 6 != 0 || (!cw && fieldAt b 40 8 != 0) || fieldAt b 48 8 != 0 || fieldAt b 56 8 != 0

/-- The sub-tiles that the results of an `mmv` touch. -/
def NearMem.tiles (d : NearMem) : List Nat :=
  ((cellsOf d.row d.col d.v d.nrow).map (fun e => tileKey e.1 e.2)).eraseDups

/-- The request of an `mmv` (R342, R344). -/
def mmvReq (s : State) (c : Ctx) (cw : CwMod) (val : W64) (off : Nat) (ty : Bool) : CmdReq :=
  let core := c.core s
  let b := scrRead core off 64
  let d := nearMemOf b
  let cwo := fieldAt b 40 8
  let early := firstFail [(off % 64 != 0, 0x16), (!inAllot c.g off 64, 0x14), (scrPois core off 64, 0x12)]
  { fail := early.orElse (fun _ => firstFail (cwChecks c.g cw val (bitsOf cwo 0 19) (cwo ≥ 2 ^ 19) ++
      [(nearMemBad b d cw.cw, 0x43), (!windowOk c.g d.row d.col d.v d.nrow, 0x44), (!ty, 0x42),
       (!inAllot c.g d.avec d.aLen, 0x14)]))
    kind := .mmv b
    locks := [(false, off, 64, false), (false, d.avec, d.aLen, false)]
    cw := cwordOf cw (bitsOf cwo 0 19) val
    st := .leave }

/-- `mmv` (R342): its descriptor is read when the earlier accesses of the agent are complete (R144, R146). -/
def execMmv (h : Hdr) (cw : CwMod) (d a : Opd) (s : State) : Host.Outcome State Fault Refusal :=
  .next (matrixOp h (if cw.cw then [d, a] else [a]) (fun c s =>
    let off := kNat s c a
    let val : W64 := if cw.cw then BitVec.ofNat 64 (kNat s c d) else 0
    let nm := nearMemOf (scrRead (c.core s) off 64)
    match lockHit (c.core s) false off 64 false, typesAre (c.core s) nm.tiles (nm.bfmt == 4) with
    | some x, _ => trapAt s c.f 0x0A (BitVec.ofNat 64 x)
    | none, none => hold s c.f .stall
    | none, some ty =>
      let r := mmvReq s c cw val off ty
      if acqOut s c.p.uid || !settledAll s c.f c.p.uid then hold s c.f .stall
      else if r.fail.isNone && reserved s c.f.die c.f.core nm.row nm.col nm.v nm.nrow then hold s c.f .mxRes
      else issueCmd s c d r) s)

/-- `MMV_START`: a product whose leave has been granted starts (R342, R402). -/
def execMmvStart (id : Nat) (s : State) : Host.Outcome State Fault Refusal :=
  .next (match s.cmd? id with
    | some c =>
      (match c.kind, c.st with
        | .mmv _, .leave =>
          if (s.die c.die).leaveQ.any (fun r => r.1 == .mmv id) then s else s.modCmd id (fun c => { c with st := .running })
        | _, _ => s)
    | none => s)

/-- Reads stored bytes of B or its scales at their home, through the die's own window, on one stack that it owns (R53, R54): the bytes, their poison
and the stack. On an alias page the bytes are those at the leaf's own physical address, and no alias entry takes part (log entry 46). -/
def homeRead (s : State) (c : Cmd) (va n : Nat) : Except AErr (State × List Byte × Bool × Nat) := do
  let (s, p) ← xlatA s (cmdAgent c) va .r
  match stackOf p.pa with
  | none => throw .notOwner
  | some i =>
    if p.peer || c.touched.any (· != i) then throw .notOwner
    match reach s (cmdAgent c) va p with
    | some e => throw e
    | none =>
      let s := letGo s (.cmd c.id) va
      return (s, rdBytes s p.pa n, isPois s p.pa n, i)

/-- A piece of B that an `mmv` reads at once: an element, or a scale, with its key (R54). -/
structure Piece where
  key : Nat
  va : Nat
  n : Nat
  deriving DecidableEq, Repr, Inhabited

/-- The key of an element of B. -/
def elKey (r k : Nat) : Nat := r * 65536 + k

/-- The key of a scale of B. -/
def scKey (r q : Nat) : Nat := 2 ^ 24 + r * 2048 + q

/-- The elements of B, and its scales (R343). -/
def NearMem.pieces (d : NearMem) : List Piece :=
  let el (r k : Nat) : Piece :=
    if d.bfmt = 4 then ⟨elKey r k, d.baddr + r * d.pitch + k / 5, 1⟩
    else ⟨elKey r k, d.baddr + r * d.pitch + k * d.fmt.width / 8, if d.bfmt = 0 then 2 else 1⟩
  (List.range d.nrow).flatMap (fun r =>
    (List.range d.ncol).map (el r) ++
    (if d.mx then (List.range (d.ncol / 32)).map (fun q => ⟨scKey r q, d.sbase + r * (d.ncol / 32) + q, 1⟩) else []))

/-- The product itself (R343), from the bytes that hold each element and each scale: the accumulator store and the flags. -/
def nearMemDo (c : Core) (d : NearMem) (b : Tab (List Byte)) : Core × BitVec 5 :=
  let g := if d.bfmt = 0 then 16 else 32
  let a := scrRead c d.avec d.aLen
  let el (r k : Nat) : List Byte := Tab.getD b (elKey r k) []
  if d.bfmt = 4 then
    let bad := b.any (fun e => (leNat e.2) ≥ 243)
    (List.range (d.ncol / 32)).foldl (fun p q =>
      intGroup d.row d.col d.v d.nrow (fun i j =>
        (List.range 32).foldl (fun acc k =>
          let x := 32 * q + k
          acc + sgn 8 (fieldAt a ((i - d.row) * d.ncol + x) 1) * tritVal (leNat (el (j - d.col) x)) (x % 5)) 0) p)
      (c, flagBits bad false false false false)
  else
    (List.range (d.ncol / g)).foldl (fun p q =>
      floatGroup d.row d.col d.v d.nrow (fun i j =>
        let ks := (List.range g).map (q * g + ·)
        groupOf (ks.map (fun k => fdecode .bf16 (fieldAt a (((i - d.row) * d.ncol + k) * 2) 2)))
          (ks.map (fun k => fdecode d.fmt (bitsIn (el (j - d.col) k) (k * d.fmt.width % 8) d.fmt.width)))
          (some 0) (if d.mx then scaleExp (BitVec.ofNat 8 (leNat (Tab.getD b (scKey (j - d.col) q) []))) else some 0)) p) (c, 0)

/-- Reads up to `k` of the pieces of B that are left, in a free order (R54): the command with what it has read, or what holds it up. -/
def mmvRead : Nat → List Piece → Cmd → State → State × Paid × Cmd
  | 0, _, c, s => (s, .st 0, c)
  | k + 1, left, c, s =>
    match pickOf s left with
    | (none, s) => (s, .st 0, c)
    | (some p, s) =>
      match homeRead s c p.va p.n with
      | .error (.busy h) => (s, .busy h, c)
      | .error e => (s, .st e.status, c)
      | .ok (s, b, bad, i) =>
        if bad then (countCons s c.die, .st 0x12, c)
        else mmvRead k (left.filter (· != p)) { c.went with touched := [i], out := Tab.set c.out p.key b } s

/-- The accumulator elements of an `mmv` are named by an instruction that the engine accepted before it (R323). -/
def mmvBehind (core : Core) (d : NearMem) : Bool :=
  core.mxq.any (fun e =>
    match e.op with
    | .mma r k m n _ _ _ _ | .mzero r k m n _ | .mdrn _ r k m n => overlap r m d.row d.v && overlap k n d.col d.nrow
    | .acp _ _ r nb _ => overlap r (16 * nb) d.row d.v
    | .none => false)

/-- The results of an `mmv` that has read the whole of B, or its failure (R343, R432). -/
def mmvDone (s : State) (c : Cmd) (d : NearMem) : State :=
  let core := s.core c.die c.core
  if mmvBehind core d then s
  else if scrPois core d.avec d.aLen then endCmd (countCons s c.die) c 0x12
  else
    let (k, fl) := nearMemDo core d c.out
    endCmd (setFlagsOf (s.modCore c.die c.core (fun _ => k)) c.die c.wg c.wuid fl) c 0

/-- A running `mmv` reads a free number of the elements of B that are left, and ends with the last (R53 to R55, R343, R344). -/
def mmvTurn (s : State) (c : Cmd) (b : List Byte) : State :=
  let d := nearMemOf b
  let left := d.pieces.filter (fun p => (Tab.get? c.out p.key).isNone)
  let (k, s) := s.takeNat (left.length + 1)
  let (s, r, c) := mmvRead k left c s
  let s := s.modCmd c.id (fun _ => c)
  match r with
  | .busy h => heldCmd s c.id h
  | .st code => if code != 0 then endCmd s c code else if k < left.length then s else mmvDone s c d

/-! ### The matrix lease (R322, R401) -/

/-- `MATRIX_LEASE_GRANT`: the first waiter whose leave has been granted receives the free lease, once the counted instructions of its last holder have finished
with the accumulator store and their operands (R322). -/
def execMatrixLeaseGrant (die core : Nat) (s : State) : Host.Outcome State Fault Refusal :=
  .next (
    let l := (s.core die core).mxLease
    match l.holder, l.waiters with
    | none, w :: rest =>
      if (s.die die).leaveQ.any (fun r => r.1 == .matrix core w) || (s.core die core).mxq.any (·.leased) then s
      else
        let s := s.modCore die core (fun c => { c with mxLease := { holder := some w, count := 0, waiters := rest } })
        wakeWhere s die (fun t _ => t == w) (fun x => x == .mxLease)
    | _, _ => s)

end Sys2Proof.Machine
end

