-- ==== Sys2Proof/Machine/Handover.lean ====
section
/-! DEFINITION. Stack hand-overs and page moves (02 R35 to R55; 17 R402). -/

namespace Sys2Proof.Machine

/-! ### Leave (R402) -/

/-- The intensity class of a request. -/
def LeaveFor.cls : LeaveFor → Nat
  | .pulp _ _ => 0
  | .matrix _ _ | .mmv _ | .acq _ _ => 1
  | .give _ => 2

/-- The request at an index may be granted: every earlier one is of a heavier class and has not been passed 64 times. -/
def mayLeave (q : List (LeaveFor × Nat)) (ix : Nat) : Bool :=
  match q[ix]? with
  | none => false
  | some r => (q.take ix).all (fun e => e.1.cls > r.1.cls && e.2 < 64)

/-- `LEAVE_GRANT`: the power controller grants the request at an index of a die's requests (R402). A granted hand-over begins
(R36); the other requests go to their arbiters. -/
def execLeaveGrant (die ix : Nat) (s : State) : Host.Outcome State Fault Refusal :=
  .next (
    let q := (s.die die).leaveQ
    match q[ix]? with
    | none => s
    | some r =>
      if !mayLeave q ix then s
      else
        let s := s.modDie die (fun x =>
          { x with leaveQ := (q.take ix).map (fun e => (e.1, e.2 + 1)) ++ q.drop (ix + 1) })
        match r.1 with
        | .give id => s.modCmd id (fun c => { c with st := .running })
        | _ => s)

/-! ### Where a command's addresses lie -/

/-- The global ranges that a running command may have sent requests to: those of a copy or a product, those of a gather's present key, those of a drain that its
engine has reached. -/
def cmdRanges (s : State) (c : Cmd) : List (Nat × Nat) :=
  match c.kind with
  | .cpy dir dst src len =>
    let (sg, dg) := dirSides dir
    (if sg then [(src, len)] else []) ++ (if dg then [(dst, len)] else [])
  | .bcopy dst src len | .rcopy dst src len => [(src, len), (dst, len)]
  | .cpyk glob dst _ _ sp stride _ =>
    (match c.pinned.bind (fun i => (Tab.get? s.spaces sp).bind (fun x => Tab.get? x.recs i)) with
      | some r => [(r.slot.toNat, r.dsize.toNat)]
      | none => []) ++
    (match c.out with | (_, o) :: _ => if glob then [(dst + c.next * stride, o.length)] else [] | [] => [])
  | .mdrn b _ _ => if (drainOf b).glob then c.out.map (fun e => (e.1, e.2.length)) else []
  | .mmv b => (nearMemOf b).pieces.map (fun p => (p.va, p.n))
  | _ => []

/-! ### Hand-overs (R35 to R42) -/

/-- The access has reached or is on its way to its home. -/
def ASt.inFlight : ASt → Bool
  | .fill | .filled _ _ | .home | .held | .ack | .movedResp | .retry | .notOwner => true
  | _ => false

/-- An access of die `d` through its own port to stack `i`. -/
def Acc.atPort (a : Acc) (d i : Nat) : Bool :=
  a.frag.die == d && a.route == d && stackOf a.pa == some i && a.st.inFlight

/-- A write of die `d` that has issued and has not left its core, and that its leaf leads through the die's own port to stack `i`. -/
def Acc.aims (s : State) (a : Acc) (d i : Nat) : Bool :=
  a.frag.die == d && a.kind.writes && (a.st == .walk || a.st == .busyWalk) &&
  (peekLeaf s d a.frag.core a.va).any (fun t =>
    let pa := pteAddr t.leaf + (a.va - t.va)
    stackOf pa == some i && routeOf s d (bitAt a.va 56) pa == d)

/-- Accesses of the giving die that the stall spares: its pending writes, those that wait in its cores included, the reads that have been answered, and those that
its ports have accepted, which is open for the others (R36; log entry 40). -/
def markAccs (s : State) (d i : Nat) : State :=
  s.accs.foldl (fun s a =>
    if a.aims s d i then s.modAcc a.id (fun a => { a with exempt := true })
    else if a.atPort d i then
      let must := a.kind.writes || (match a.st with | .filled _ _ | .held | .retry => true | _ => false)
      let (b, s) := if must then (true, s) else s.takeBool
      if b then s.modAcc a.id (fun a => { a with exempt := true }) else s
    else s) s

/-- Commands of the giving die that had issued a request to the stack: those that have moved data of it or wait in its busy table; of the others that reach it,
whether they had is open (R36, R55). -/
def markCmds (s : State) (d i : Nat) : State :=
  s.cmds.foldl (fun s c =>
    if c.die == d && c.st == .running && !c.touched.contains i then
      if s.hid.any (fun h => h.who == .cmd c.id && !h.moved && stackOf h.pa == some i) then s.modCmd c.id (fun c => { c with touched := i :: c.touched })
      else if (vaStacks s d c.core (cmdRanges s c)).contains i then
        let (b, s) := s.takeBool
        if b then s.modCmd c.id (fun c => { c with touched := i :: c.touched }) else s
      else s
    else s) s

/-- The stacks a page move names: its sources and its destination. -/
def moveStacks (dst : Nat) (ls : List (Nat × W64)) : List Nat :=
  ((ls.map (fun l => pteAddr l.2)) ++ [dst]).filterMap stackOf

/-- A page move names the stack as source or destination: one that runs, or one that has passed its checks and came to its first step before the hand-over asked
leave (R36, R47). -/
def moveOn (s : State) (i id : Nat) : Bool :=
  !(s.stk i).busy.isEmpty ||
  s.cmds.any (fun c =>
    match c.kind with
    | .pmove _ dst _ _ => (c.st == .running || (c.st == .waiting && c.next == 1 && c.id < id)) && (moveStacks dst c.old).contains i
    | _ => false)

/-- `HANDOVER_START`: step 1, once no page move names the stack (R36). -/
def execHandoverStart (stack : Nat) (s : State) : Host.Outcome State Fault Refusal :=
  .next (match s.cmds.find? (fun c => c.kind == .shovGive stack && c.st == .running) with
    | none => s
    | some c =>
      if (s.stk stack).hov.isSome || moveOn s stack c.id then s
      else
        let give := c.die
        let take := otherDie stack give
        let s := markCmds (markAccs s give stack) give stack
        let s := s.modStk stack (fun k => { k with hov := some ⟨c.id, give, take, 1⟩ })
        let set (x : Die) : Die := { x with hov := x.hov ||| (1 <<< stack) }
        (s.modDie give set).modDie take set)

/-- Changes the hand-over of a stack. -/
def hovStep (s : State) (i n : Nat) : State :=
  s.modStk i (fun k => { k with hov := k.hov.map (fun h => { h with step := n }) })

/-- What step 2 waits for: the spared accesses, and the commands that had issued to the stack, up to their last request (R36). -/
def drained (s : State) (d i : Nat) : Bool :=
  s.accs.all (fun a => !(a.exempt && (a.atPort d i || a.aims s d i))) &&
  s.cmds.all (fun c => !(c.die == d && c.touched.contains i && (match c.st with | .done _ => false | _ => true)))

/-- Writes back and drops a stack's lines of one cluster (R36, R73). -/
def writeBackCluster (s : State) (d i cl : Nat) : State :=
  let mine (e : Nat × Line) : Bool := stackOf (128 * e.1) == some i
  let s := (s.cluster d cl).lines.foldl (fun (s : State) (e : Nat × Line) =>
    if mine e && e.2.dirty then writeBack s e.1 e.2 else s) s
  dropLines s d cl mine

/-- `HANDOVER_WRITEBACK`: steps 2 and 3 (R36). -/
def execHandoverWriteback (stack : Nat) (s : State) : Host.Outcome State Fault Refusal :=
  .next (match (s.stk stack).hov with
    | some h =>
      if h.step != 1 || !drained s h.give stack then s
      else
        let s := (List.range 12).foldl (fun s cl => writeBackCluster s h.give stack cl) s
        let s := s.modDie h.give (fun x => { x with cores := x.cores.map (fun e =>
          (e.1, { e.2 with l1 := e.2.l1.filter (fun l => stackOf (128 * l.1) != some stack) })) })
        hovStep s stack 3
    | none => s)

/-- A TLB entry of a leaf tagged with the stack (R21). -/
def TlbEnt.tagged (t : TlbEnt) (i : Nat) : Bool := t.leaf.getLsbD 61 && bitsOf t.leaf.toNat 58 3 == i

/-- `HANDOVER_SHOOTDOWN`: step 4 (R36). -/
def execHandoverShootdown (stack : Nat) (s : State) : Host.Outcome State Fault Refusal :=
  .next (match (s.stk stack).hov with
    | some h => if h.step != 3 then s else hovStep (shootdown s h.give (fun t => t.tagged stack)) stack 4
    | none => s)

/-- `OWNER_FLIP`: step 5: the owner bit, every owner map, and the giver's handle (R36, R37, R41). -/
def execOwnerFlip (stack : Nat) (s : State) : Host.Outcome State Fault Refusal :=
  .next (match (s.stk stack).hov with
    | some h =>
      if h.step != 4 then s
      else
        let s := s.modStk stack (fun k => { k with owner := h.take })
        let s := s.modDie h.give (fun x => { x with own := x.own &&& ~~~((1 : BitVec 8) <<< stack) })
        let s := { s with dies := s.dies.map (fun x => { x with omap := x.omap.set stack h.take })
                          vxmap := s.vxmap.set stack h.take
                          accs := s.accs.map (fun a => if a.atPort h.give stack || a.aims s h.give stack then { a with exempt := false } else a) }
        let s := hovStep s stack 5
        match s.cmd? h.cmd with
        | some c => if c.core < 96 then finishCmd s c 0 else s
        | none => s
    | none => s)

/-- `HANDOVER_FINISH`: step 6: the receiver owns the stack, and a pending take resolves (R36, R38). -/
def execHandoverFinish (stack : Nat) (s : State) : Host.Outcome State Fault Refusal :=
  .next (match (s.stk stack).hov with
    | some h =>
      if h.step != 5 then s
      else
        let clr (x : Die) : Die := { x with hov := x.hov &&& ~~~((1 : BitVec 8) <<< stack) }
        let s := (s.modDie h.give clr).modDie h.take (fun x => { clr x with own := x.own ||| (1 <<< stack) })
        let s := s.modStk stack (fun k => { k with hov := none })
        let s := match s.cmd? h.cmd with
          | some c => endCmd s c 0
          | none => s
        (s.cmds.filter (fun c => c.die == h.take && c.kind == .shovTake stack && c.st == .waiting)).foldl
          (fun s c => finishCmd s c 0) s
    | none => s)

/-! ### Page moves (R45 to R50) -/

/-- Bytes of a page of a size code (R45). -/
def pszBytes : Nat → Nat
  | 0 => 2 ^ 16
  | 1 => 2 ^ 21
  | _ => 2 ^ 30

/-- The leaf that maps an address, page-busy or not: where it lies, its value, its page's size (R19, R22). A tagged leaf of a stack that the die does not own is
not valid (R25). -/
def leafAt (s : State) (d va : Nat) : List (Nat × Nat × Nat) → Nat → Option (Nat × W64 × Nat)
  | [], _ => none
  | (sh, ib, lv) :: rest, base =>
    let at_ := base + 8 * bitsOf va sh ib
    let e : W64 := BitVec.ofNat 64 (rdN s at_ 8)
    if !tableOk s d at_ || !e.getLsbD 0 then none
    else if pteIsDir e then
      if lv == 0 || (e &&& ~~~(0x000FFFFFFFFFF011 : W64)) != 0 then none else leafAt s d va rest (pteAddr e)
    else if lv ≥ 3 || !leafOk s d va (2 ^ sh) e || (e.getLsbD 61 && !(s.die d).own.getLsbD (bitsOf e.toNat 58 3)) then none
    else some (at_, e, 2 ^ sh)

/-- The leaf that maps an address of die `d`. -/
def leafOf (s : State) (d va : Nat) : Option (Nat × W64 × Nat) :=
  if va ≥ 2 ^ 57 || !(s.die d).pgroot.getLsbD 0 then none
  else leafAt s d va levels (pteAddr (s.die d).pgroot)

/-- The outcome of a page move's checks: a status, a wait for a page-busy leaf, or the leaves (R46). -/
inductive PmRes where
  | fail (st : Nat)
  | wait
  | ok (leaves : List (Nat × W64))
  deriving DecidableEq, Repr, Inhabited

/-- The status with which the beater's request to a frame fails at its port: not-owner through the die's own window, refused at a peer's port (R31, R42, R43,
R51). -/
def frameFail (s : State) (d va pa : Nat) : Option Nat :=
  match stackOf pa with
  | none => none
  | some i =>
    let o := (s.stk i).owner
    if !bitAt va 56 then (if o != d then some 0x21 else none)
    else if o != d && !(s.die o).allow.getLsbD d then some 0x28
    else none

/-- The checks of a page move (R46), with those of the ports that its copies will take (R31, R43; log entry 42); `bad` says that a field lies outside its range. -/
def pmoveCheck (s : State) (d va dst npg psz : Nat) (bad : Bool) : PmRes :=
  let sz := pszBytes psz
  if bad || psz > 2 || npg = 0 || npg > 65536 || va % sz != 0 || dst % sz != 0 || va + npg * sz > 2 ^ 57 then .fail 0x26
  else
    match allSome (fun i => match leafOf s d (va + i * sz) with
        | some (at_, e, n) => if n == sz then some (at_, e) else none
        | none => none) (List.range npg) with
    | none => .fail 0x26
    | some ls =>
      if (stackOf dst).isNone || stackOf (dst + npg * sz - 1) != stackOf dst ||
          ls.any (fun l => overlap (pteAddr l.2) sz dst (npg * sz)) then .fail 0x26
      else if !bitAt va 56 && !(match stackOf dst with | some i => (s.die d).own.getLsbD i | none => false) then .fail 0x27
      else if ls.any (fun l => l.2.getLsbD 63) then .wait
      else
        match (dst :: ls.map (fun l => pteAddr l.2)).findSome? (frameFail s d va) with
        | some st => .fail st
        | none => .ok ls

/-- Copies physical memory from one range to another that does not overlap it, with its poison (R47, R430). -/
def movePhys (s : State) (src dst n : Nat) : State :=
  let cells := s.mem.filter (fun c => src ≤ c.1 && c.1 < src + n)
  let ps := s.poison.filter (fun p => src ≤ p.1 && p.1 < src + n)
  let s := { s with mem := s.mem.filter (fun c => !(dst ≤ c.1 && c.1 < dst + n))
                    poison := s.poison.filter (fun p => !(dst ≤ p.1 && p.1 < dst + n)) }
  let s := cells.foldl (fun (s : State) (c : Host.Cell) => wrB s (dst + (c.1 - src)) c.2) s
  ps.foldl (fun (s : State) (p : Nat × Nat) => setPois s (dst + (p.1 - src)) p.2) s

/-- Marks the frame of a page busy at its home (R34, R47). -/
def markBusy (s : State) (id pa n : Nat) : State := modHome s pa (fun k => { k with busy := (id, pa, pa + n) :: k.busy })

/-- A hand-over of the stack is in progress, or asked leave before the move came to its first step (R36, R47). -/
def moveBehind (s : State) (id i : Nat) : Bool :=
  (s.stk i).hov.isSome || s.cmds.any (fun c => c.kind == .shovGive i && (c.st == .leave || c.st == .running) && c.id < id)

/-- Steps 2 to 4 of a page move (R47). -/
def pmoveRun (s : State) (c : Cmd) (va dst npg psz : Nat) (ls : List (Nat × W64)) : State :=
  let sz := pszBytes psz
  let s := ls.foldl (fun (s : State) (l : Nat × W64) => orEntry s l.1 63) s
  let olds := ls.map (fun l => (l.1, (BitVec.ofNat 64 (rdN s l.1 8) : W64)))
  let s := shootdown s c.die (fun t => overlap t.va t.size va (npg * sz))
  let s := ls.foldl (fun (s : State) (l : Nat × W64) => markBusy s c.id (pteAddr l.2) sz) s
  let s := ls.zipIdx.foldl (fun (s : State) (l : (Nat × W64) × Nat) => movePhys s (pteAddr l.1.2) (dst + l.2 * sz) sz) s
  s.modCmd c.id (fun c => { c with st := .running, next := 2, old := olds })

/-- A page move that has passed its checks comes to its first step: behind the hand-overs that asked leave before, under an identity of its own place (R36,
R47). -/
def pmoveQueue (s : State) (c : Cmd) (ls : List (Nat × W64)) : Cmd × State :=
  if c.next == 1 then (c, s)
  else
    let (id, s) := s.fresh
    let c' := { c with id := id, next := 1, old := ls }
    (c', s.modCmd c.id (fun _ => c'))

/-- `PAGE_MOVE_START`: steps 1 to 4. A move that met a page-busy leaf, or that waited for a hand-over, checks again first (R46, R47; log entry 41). -/
def execPageMoveStart (id : Nat) (s : State) : Host.Outcome State Fault Refusal :=
  .next (match s.cmd? id with
    | some c =>
      (match c.kind, c.st with
        | .pmove va dst npg psz, .waiting =>
          if c.next == 1 && (moveStacks dst c.old).any (moveBehind s c.id) then s
          else
            (match pmoveCheck s c.die va dst npg psz false with
              | .fail st => endCmd s c (BitVec.ofNat 64 st)
              | .wait => s
              | .ok ls =>
                let (c, s) := pmoveQueue s c ls
                if (moveStacks dst ls).any (moveBehind s c.id) then s.modCmd c.id (fun c => { c with old := ls })
                else pmoveRun s c va dst npg psz ls)
        | _, _ => s)
    | none => s)

/-- The rewritten leaf: the new frame, its stack where the leaf is tagged, not busy (R47). -/
def movedLeaf (e : W64) (pa : Nat) : W64 :=
  let tag : W64 := match stackOf pa with
    | some i => if e.getLsbD 61 then BitVec.ofNat 64 (i * 2 ^ 58) else e &&& 0x1C00000000000000
    | none => e &&& 0x1C00000000000000
  (e &&& 0x63F0000000000FFF) ||| tag ||| BitVec.ofNat 64 pa

/-- Rewrites leaves by compare-and-swap until one fails (R47, R50): the flag says that none did. -/
def rewriteLeaves (sz : Nat) : List (Nat × W64) → Nat → State → Bool × State
  | [], _, s => (true, s)
  | (at_, e) :: t, dst, s =>
    if rdN s at_ 8 != e.toNat then (false, s)
    else rewriteLeaves sz t (dst + sz) (wrN s at_ 8 (movedLeaf e dst).toNat)

/-- An access of the frames of a finished move that has not been performed is answered moved: one that is held, one that was on its way, and one that its port
turned away and that would go to the other port (R42, R48, R149). -/
def Acc.moves (a : Acc) : ASt :=
  match a.st with
  | .held | .home | .fill | .retry => .movedResp
  | .notOwner => if bitAt a.va 56 && !a.rerouted then .movedResp else .notOwner
  | st => st

/-- Releases the busy marks of a move (R47 to R50, R450). Requests for its frames are answered moved, or, where the move has failed, at the old home; a host
write is performed there either way. -/
def releaseBusy (s : State) (id : Nat) (moved : Bool) : State :=
  let frames := (s.vxHome :: s.stks).flatMap (fun k => k.busy.filter (fun b => b.1 == id))
  let hit (pa : Nat) : Bool := frames.any (fun b => b.2.1 ≤ pa && pa < b.2.2)
  let gone := (s.accs.filter (fun a => a.st == .held && hit a.pa)).map (·.id) ++ (s.inb.filter (fun b => b.busy && hit b.addr)).map (·.id)
  let free (k : Stack) : Stack := { k with busy := k.busy.filter (fun b => b.1 != id), held := k.held.filter (fun i => !gone.contains i) }
  { s with
    accs := s.accs.map (fun a =>
      if !hit a.pa then a
      else if moved then { a with st := a.moves }
      else if a.st == .held then { a with st := a.again } else a)
    hid := if moved then s.hid.map (fun h => if hit h.pa then { h with moved := true } else h) else s.hid.filter (fun h => h.moved || !hit h.pa)
    inb := s.inb.map (fun b => if b.busy && hit b.addr then { b with busy := false } else b)
    vxHome := free s.vxHome
    stks := s.stks.map free }

/-- `PAGE_MOVE_REWRITE`: step 5; a leaf that changed ends the move (R47, R50). -/
def execPageMoveRewrite (id : Nat) (s : State) : Host.Outcome State Fault Refusal :=
  .next (match s.cmd? id with
    | some c =>
      (match c.kind, c.st with
        | .pmove _ dst _ psz, .running =>
          if c.next != 2 then s
          else
            let (ok, s) := rewriteLeaves (pszBytes psz) c.old dst s
            if ok then s.modCmd id (fun c => { c with next := 3 })
            else
              let s := c.old.foldl (fun (s : State) (l : Nat × W64) =>
                if rdN s l.1 8 == l.2.toNat then wrN s l.1 8 (l.2 &&& 0x7FFFFFFFFFFFFFFF).toNat else s) s
              endCmd (releaseBusy s id false) c 0x25
        | _, _ => s)
    | none => s)

/-- `PAGE_MOVE_FINISH`: step 6 (R47, R48). A command whose request was held translates it again (R55). -/
def execPageMoveFinish (id : Nat) (s : State) : Host.Outcome State Fault Refusal :=
  .next (match s.cmd? id with
    | some c =>
      (match c.kind, c.st with
        | .pmove _ _ _ _, .running =>
          if c.next != 3 then s
          else
            endCmd (releaseBusy s id true) c 0
        | _, _ => s)
    | none => s)

end Sys2Proof.Machine
end

