-- ==== Sys2Proof/Machine/Pulp.lean ====
section
/-! DEFINITION. The pulp unit, opcodes 0xC0 to 0xCB (14 R345 to R363), and the passing of leases (17 R401). Every effect on a stream set
is made when the unit accepts the instruction; an accepted instruction stays in the unit's queue until it completes. -/

namespace Sys2Proof.Machine

/-! ### Stream sets (R345, R346) -/

/-- The set of a workgroup. -/
def setIx (c : Core) (wg : Nat) : Option Nat := findIdx (fun (x : StreamSet) => x.owner == some wg) c.sets

/-- Gives a workgroup a free set, cleared, when it holds none and one is free. -/
def takeSet (c : Core) (wg : Nat) : Option Core :=
  if (setIx c wg).isSome then some c
  else (findIdx (fun (x : StreamSet) => x.owner.isNone) c.sets).map (fun i =>
    { c with sets := listMod c.sets i (fun _ => { owner := some wg, z := [], w := [] }) })

/-- A stream register of a workgroup; zeros without a set. -/
def zBits (c : Core) (wg r : Nat) : Stream :=
  match setIx c wg with
  | some i => Tab.getD (((c.sets[i]?).getD {}).z) r 0
  | none => 0

/-- Its state word. -/
def zWord (c : Core) (wg r : Nat) : W32 :=
  match setIx c wg with
  | some i => Tab.getD (((c.sets[i]?).getD {}).w) r 0
  | none => 0

/-- Writes a stream register and its state word. -/
def zWrite (c : Core) (wg r : Nat) (x : Stream) (w : W32) : Core :=
  match setIx c wg with
  | some i => { c with sets := listMod c.sets i (fun t => { t with z := Tab.put t.z r x 0, w := Tab.put t.w r w 0 }) }
  | none => c

/-- The length of a length code (R346). -/
def codeLen (k : Nat) : Nat := 64 * 4 ^ k

/-- The length code of a state word. -/
def wLen (w : W32) : Nat := bitsOf w.toNat 16 2

/-- The correlation set of a state word. -/
def wSet (w : W32) : Nat := bitsOf w.toNat 0 15

/-- A state word. -/
def mkWord (len cs : Nat) : W32 := BitVec.ofNat 32 (len * 2 ^ 16 + cs)

/-! ### Beginning a pulp word (R351 to R353) -/

/-- The index of a z operand. -/
def zIdx : Opd → Nat
  | .z i => i.toNat
  | _ => 0

/-- Registers of a run code (R351). -/
def runRegs (r : BitVec 2) : Nat := 2 ^ r.toNat

/-- Begins a pulp word: the guard, then the active mask (R351). -/
def pulpOp (h : Hdr) (os : List Opd) (body : Ctx → State → State) (s : State) : State :=
  uniOp h os (fun c s => if c.p.am == 0 then badConv s c.f 2 else body c s) s

/-- The workgroup holds the pulp lease, or the fragment parks for it (R352, R401, R402). -/
def puLeased (s : State) (c : Ctx) (k : State → State) : State :=
  let core := c.core s
  if core.puLease.serves c.f.wg c.g.please then k s
  else
    let s :=
      if core.puLease.waiters.contains c.f.wg then s
      else
        let s := s.modCore c.f.die c.f.core (fun x => { x with puLease := { x.puLease with waiters := x.puLease.waiters ++ [c.f.wg] } })
        s.modDie c.f.die (fun x => { x with leaveQ := x.leaveQ ++ [(.pulp c.f.core c.f.wg, 0)] })
    hold s c.f .puLease

/-- The queue of 16 is full (R353). -/
def puFull (s : State) (c : Ctx) : Bool := (c.core s).pq.length ≥ 16

/-- The last accepted instruction with a queue as its destination has, or has no longer, faulted (R92). -/
def setFaulted (s : State) (d wg : Nat) (outQ : Option Nat) (b : Bool) : State :=
  match outQ with
  | some i => s.modWg d wg (fun g => g.modQ i (fun q => { q with faulted := b }))
  | none => s

/-- The unit accepts an instruction, which finishes its issue; it stalls while the queue of 16 is full (R353). -/
def acceptPu (s : State) (c : Ctx) (leased : Bool) (outQ : Option Nat) (push : List W32) (g : State → State) (writes : List (Nat × Nat) := []) : State :=
  if puFull s c then hold s c.f .stall
  else
    let e : EngOp := { wg := c.f.wg, warp := c.f.warp, frag := c.f, uid := c.p.uid, wuid := c.w.wuid, seq := c.p.seq, word := c.p.pc
                       outQ := outQ, push := push, writes := writes, leased := leased }
    let s := setFaulted s c.f.die c.f.wg outQ false
    let s := (g s).modCore c.f.die c.f.core (fun x =>
      { x with pq := x.pq ++ [e], puLease := if leased then { x.puLease with count := x.puLease.count + 1 } else x.puLease })
    finish s c.f 1

/-- A leased instruction that is counted and completes at once (R353, R359). -/
def countPu (s : State) (c : Ctx) : State :=
  s.modCore c.f.die c.f.core (fun x => { x with puLease := { x.puLease with count := x.puLease.count + 1 } })

/-- A run of `n` registers from each index stays within z31 (R351). -/
def runOk (n : Nat) (zs : List Nat) : Bool := zs.all (fun z => z + n ≤ 32)

/-- The correlation trap's `trapinfo` (R350). -/
def corrInfo (reason z : Nat) : W64 := BitVec.ofNat 64 (z * 2 ^ 8 + reason)

/-- Exactly one class. -/
def oneClass (x : Nat) : Bool := popN 15 x == 1

/-! ### Logic on streams (R349, R350, R355 to R358) -/

/-- A run of an operation: reads every source register, then writes every destination; `chk` finds the first failure. -/
def zRun (h : Hdr) (run : BitVec 2) (d : Opd) (srcs : List Opd) (chk : (Nat → W32) → Nat → Option W64)
    (op : (Nat → Stream) → (Nat → W32) → Nat → Stream × W32) (s : State) : State :=
  pulpOp h [] (fun c s =>
    puLeased s c (fun s =>
      let n := runRegs run
      if !runOk n (zIdx d :: srcs.map zIdx) then illegal s c.f
      else
        let core := c.core s
        match (List.range n).findSome? (chk (zWord core c.f.wg)) with
        | some info => trapAt s c.f 9 info
        | none =>
          acceptPu s c true none [] (fun s =>
            let rs := (List.range n).map (op (zBits core c.f.wg) (zWord core c.f.wg))
            s.modCore c.f.die c.f.core (fun x => (rs.zipIdx).foldl (fun (x : Core) (r : (Stream × W32) × Nat) =>
              zWrite x c.f.wg (zIdx d + r.2) r.1.1 r.1.2) x)))) s

/-- A two-operand instruction (R349, R355): `corr` is the `.c` form. -/
def zLogic (h : Hdr) (run : BitVec 2) (d a b : Opd) (corr : Bool) (op : Stream → Stream → Stream) (s : State) : State :=
  let za := zIdx a
  let zb := zIdx b
  zRun h run d [a, b]
    (fun w r =>
      let x := w (za + r)
      let y := w (zb + r)
      if wLen x != wLen y then some (corrInfo 3 (zb + r))
      else if corr then
        (if !oneClass (wSet x) then some (corrInfo 2 (za + r))
         else if wSet y != wSet x then some (corrInfo 2 (zb + r)) else none)
      else if wSet x &&& wSet y != 0 then some (corrInfo 1 (za + r)) else none)
    (fun z w r =>
      (op (z (za + r)) (z (zb + r)), mkWord (wLen (w (za + r))) (wSet (w (za + r)) ||| wSet (w (zb + r))))) s

/-- `sand` (R355). -/
def execSand (h : Hdr) (run : BitVec 2) (d a b : Opd) (s : State) : Host.Outcome State Fault Refusal :=
  .next (zLogic h run d a b false (fun x y => x &&& y) s)

/-- `sand.c` (R355). -/
def execSandC (h : Hdr) (run : BitVec 2) (d a b : Opd) (s : State) : Host.Outcome State Fault Refusal :=
  .next (zLogic h run d a b true (fun x y => x &&& y) s)

/-- `sor` (R355). -/
def execSor (h : Hdr) (run : BitVec 2) (d a b : Opd) (s : State) : Host.Outcome State Fault Refusal :=
  .next (zLogic h run d a b false (fun x y => x ||| y) s)

/-- `sor.c` (R355). -/
def execSorC (h : Hdr) (run : BitVec 2) (d a b : Opd) (s : State) : Host.Outcome State Fault Refusal :=
  .next (zLogic h run d a b true (fun x y => x ||| y) s)

/-- `sxor` (R355). -/
def execSxor (h : Hdr) (run : BitVec 2) (d a b : Opd) (s : State) : Host.Outcome State Fault Refusal :=
  .next (zLogic h run d a b false (fun x y => x ^^^ y) s)

/-- `sxor.c` (R355). -/
def execSxorC (h : Hdr) (run : BitVec 2) (d a b : Opd) (s : State) : Host.Outcome State Fault Refusal :=
  .next (zLogic h run d a b true (fun x y => x ^^^ y) s)

/-- `sxnor` (R355). -/
def execSxnor (h : Hdr) (run : BitVec 2) (d a b : Opd) (s : State) : Host.Outcome State Fault Refusal :=
  .next (zLogic h run d a b false (fun x y => ~~~(x ^^^ y)) s)

/-- `smux` (R349, R350, R356). -/
def execSmux (h : Hdr) (run : BitVec 2) (d a b sel : Opd) (s : State) : Host.Outcome State Fault Refusal :=
  let za := zIdx a
  let zb := zIdx b
  let zs := zIdx sel
  .next (zRun h run d [a, b, sel]
    (fun w r =>
      let x := w (za + r)
      let y := w (zb + r)
      let z := w (zs + r)
      if wLen x != wLen y then some (corrInfo 3 (zb + r))
      else if wLen x != wLen z then some (corrInfo 3 (zs + r))
      else if wSet z &&& (wSet x ||| wSet y) != 0 then some (corrInfo 4 (zs + r)) else none)
    (fun z w r =>
      let m := z (zs + r)
      ((z (zb + r) &&& m) ||| (z (za + r) &&& ~~~m),
       mkWord (wLen (w (za + r))) (wSet (w (za + r)) ||| wSet (w (zb + r)) ||| wSet (w (zs + r))))) s)

/-- `sinv` (R349, R357). -/
def execSinv (h : Hdr) (run : BitVec 2) (d a : Opd) (s : State) : Host.Outcome State Fault Refusal :=
  .next (zRun h run d [a] (fun _ _ => none) (fun z w r => (~~~(z (zIdx a + r)), w (zIdx a + r))) s)

/-- `smov.z` (R361). -/
def execSmovZ (h : Hdr) (run : BitVec 2) (d a : Opd) (s : State) : Host.Outcome State Fault Refusal :=
  .next (zRun h run d [a] (fun _ _ => none) (fun z w r => (z (zIdx a + r), w (zIdx a + r))) s)

/-- A stream register from a predicate on its bit positions. -/
def streamOf (p : Nat → Bool) : Stream :=
  BitVec.ofNat 4096 ((List.range 4096).foldr (fun i a => 2 * a + (if p i then 1 else 0)) 0)

/-- The ones of stream `j` of length `l`. -/
def onesOf (x : Stream) (l j : Nat) : Nat := ((List.range l).filter (fun i => x.getLsbD (j * l + i))).length

/-- The rank of each index of a class's first `l` values: the number of smaller values, ties by index (R358). -/
def ranks (cls l : Nat) : List Nat :=
  let g := genRun cls l
  (g.zipIdx).map (fun p => ((g.zipIdx).filter (fun q => q.1 < p.1 || (q.1 == p.1 && q.2 < p.2))).length)

/-- `sregen` (R349, R358). -/
def execSregen (h : Hdr) (run : BitVec 2) (cls : BitVec 4) (d a : Opd) (s : State) : Host.Outcome State Fault Refusal :=
  .next (zRun h run d [a] (fun _ _ => none)
    (fun z w r =>
      let x := z (zIdx a + r)
      let k := wLen (w (zIdx a + r))
      let l := codeLen k
      let rk := ranks cls.toNat l
      let ns := (List.range (4096 / l)).map (onesOf x l)
      (streamOf (fun i => ((rk[i % l]?).getD 0) < ((ns[i / l]?).getD 0)), mkWord k (2 ^ cls.toNat))) s)

/-! ### Generation (R354, R360) -/

/-- A register of streams built from values under a class (R354). -/
def sgenBits (cls l : Nat) (vs : List Nat) : Stream :=
  let g := genRun cls l
  streamOf (fun i => ((vs[i / l]?).getD 0) % 2 ^ 16 > (g[i % l]?).getD 0)

/-- `sgen.k` (R349, R354). -/
def execSgenK (h : Hdr) (run : BitVec 2) (cls : BitVec 4) (d a : Opd) (s : State) : Host.Outcome State Fault Refusal :=
  .next (pulpOp h [a] (fun c s =>
    puLeased s c (fun s =>
      let n := runRegs run
      let v := kNat s c a % 2 ^ 16
      if !runOk n [zIdx d] then illegal s c.f
      else
        acceptPu s c true none [] (fun s =>
          s.modCore c.f.die c.f.core (fun x => (List.range n).foldl (fun x r =>
            let k := wLen (zWord x c.f.wg (zIdx d + r))
            let l := codeLen k
            zWrite x c.f.wg (zIdx d + r) (sgenBits cls.toNat l (List.replicate (4096 / l) v)) (mkWord k (2 ^ cls.toNat))) x)))) s)

/-- Writes a run of registers from popped words, in ring order (R354). -/
def sgenPut (wg cls z : Nat) : Nat → List W32 → Core → Core
  | 0, _, x => x
  | n + 1, ws, x =>
    let k := wLen (zWord x wg z)
    let l := codeLen k
    sgenPut wg cls (z + 1) n (ws.drop (4096 / l))
      (zWrite x wg z (sgenBits cls l ((ws.take (4096 / l)).map (·.toNat))) (mkWord k (2 ^ cls)))

/-- `sgen.q` (R349, R354). -/
def execSgenQ (h : Hdr) (run : BitVec 2) (cls : BitVec 4) (d a : Opd) (s : State) : Host.Outcome State Fault Refusal :=
  .next (pulpOp h [] (fun c s =>
    puLeased s c (fun s =>
      let n := runRegs run
      let i := qIdx a
      let q := c.g.queue i
      let core := c.core s
      let need := sumN ((List.range n).map (fun r => 4096 / codeLen (wLen (zWord core c.f.wg (zIdx d + r)))))
      if !runOk n [zIdx d] then illegal s c.f
      else if c.p.wait == .popDead i then trapAt s c.f 0x0B (BitVec.ofNat 64 i)
      else if q.port != 2 || need > 256 then illegal s c.f
      else if q.count < need then
        (if loneWarp c.g c.f.warp then trapAt s c.f 0x0B (BitVec.ofNat 64 i) else hold s c.f (.pop i))
      else if opsHeld s c (q.range q.head need) [] then hold s c.f .stall
      else
        acceptPu s c true none [] (fun s =>
          let (ws, s) := popWords s c.f i need
          s.modCore c.f.die c.f.core (sgenPut c.f.wg cls.toNat (zIdx d) n ws)))) s)

/-- `slen` (R360). -/
def execSlen (h : Hdr) (run : BitVec 2) (d b : Opd) (s : State) : Host.Outcome State Fault Refusal :=
  .next (pulpOp h [b] (fun c s =>
    puLeased s c (fun s =>
      let n := runRegs run
      let k := kNat s c b
      if !runOk n [zIdx d] || k > 3 then illegal s c.f
      else
        acceptPu s c true none [] (fun s =>
          s.modCore c.f.die c.f.core (fun x => (List.range n).foldl (fun x r => zWrite x c.f.wg (zIdx d + r) 0 (mkWord k 0)) x)))) s)

/-! ### Counting (R359) -/

/-- The counts of the streams of a register. -/
def countsOf (c : Core) (wg z : Nat) : List Nat :=
  let l := codeLen (wLen (zWord c wg z))
  (List.range (4096 / l)).map (onesOf (zBits c wg z) l)

/-- The words of a ring that a push of `n` words will write, behind the pushes that the unit has accepted before it (R91, R146). -/
def unitRange (x : Core) (g : Wg) (wg i n : Nat) : List (Nat × Nat) :=
  let q := g.queue i
  let ahead := sumN ((x.pq.filter (fun e => e.wg == wg && e.outQ == some i && !e.dead)).map (fun e => e.push.length))
  q.range (q.tail + ahead) n

/-- A counting instruction: pushes words, or a result once the unit is empty; a thread's position is its number (R275, R353, R359). -/
def countOp (h : Hdr) (d a : Opd) (os : List Opd) (words : List Nat → List Nat) (val : Ctx → State → List Nat → Nat → Nat)
    (s : State) : State :=
  pulpOp h os (fun c s =>
    puLeased s c (fun s =>
      let cnt := countsOf (c.core s) c.f.wg (zIdx a)
      match d with
      | .q i =>
        if (c.g.queue i.toNat).port != 3 then illegal s c.f
        else
          let ws := (words cnt).map (BitVec.ofNat 32)
          acceptPu s c true (some i.toNat) ws (fun s => s) (unitRange (c.core s) c.g c.f.wg i.toNat ws.length)
      | _ =>
        if !(c.core s).pq.isEmpty then hold s c.f .stall
        else
          let s := countPu s c
          let ts := maskList c.p.am
          let s := match d with
            | .k _ => writeDst s c d 64 [0] [val c s cnt 0]
            | _ => writeDst s c d 32 ts (ts.map (val c s cnt))
          finish s c.f 1)) s

/-- `scnt` (R359). -/
def execScnt (h : Hdr) (d a b : Opd) (s : State) : Host.Outcome State Fault Refusal :=
  .next (countOp h d a (if d.isK || d.isW then [b] else []) (fun l => l) (fun c s cnt p => (cnt[kNat s c b + p]?).getD 0) s)

/-- `scntr` (R359). -/
def execScntr (h : Hdr) (d a : Opd) (s : State) : Host.Outcome State Fault Refusal :=
  .next (countOp h d a [] (fun l => [sumN l]) (fun _ _ cnt _ => sumN cnt) s)

/-! ### Moves (R361) -/

/-- The image of a stream register. -/
def zImage (x : Stream) (w : W32) : List Byte := leBytes 512 x.toNat ++ leBytes 8 w.toNat ++ zeros 56

/-- The checks of an image's place; then the move. -/
def imageAt (s : State) (c : Ctx) (off n : Nat) (wr : Bool) (go : State → State) : State :=
  if off % 64 != 0 then trapAt s c.f 4 (BitVec.ofNat 64 off)
  else
    match operandTrap s c [(off, 576 * n, wr)] with
    | some (cause, x) => trapAt s c.f cause (BitVec.ofNat 64 x)
    | none =>
      let rs := [(off, 576 * n)]
      if acqOut s c.p.uid || opsHeld s c (if wr then [] else rs) (if wr then rs else []) then hold s c.f .stall else go s

/-- The unit still works on an instruction of the workgroup. -/
def pulpBusy (s : State) (c : Ctx) : Bool := (c.core s).pq.any (fun e => e.wg == c.f.wg)

/-- `smov.ts` (R361). -/
def execSmovTs (h : Hdr) (run : BitVec 2) (a b : Opd) (s : State) : Host.Outcome State Fault Refusal :=
  .next (pulpOp h [b] (fun c s =>
    let n := runRegs run
    let off := kNat s c b
    if !runOk n [zIdx a] then illegal s c.f
    else
      imageAt s c off n true (fun s =>
        if pulpBusy s c || puFull s c then hold s c.f .stall
        else
          let s := s.modCore c.f.die c.f.core (fun x => (List.range n).foldl (fun y r =>
            scrWrite y (off + 576 * r) (zImage (zBits x c.f.wg (zIdx a + r)) (zWord x c.f.wg (zIdx a + r)))) x)
          finish s c.f 1)) s)

/-- `smov.fs` (R345, R361): it takes a set where the workgroup holds none, and parks while all are held. Bytes 520 to 575 of an image take no part. -/
def execSmovFs (h : Hdr) (run : BitVec 2) (d b : Opd) (s : State) : Host.Outcome State Fault Refusal :=
  .next (pulpOp h [b] (fun c s =>
    let n := runRegs run
    let off := kNat s c b
    if !runOk n [zIdx d] then illegal s c.f
    else
      imageAt s c off n false (fun s =>
        match firstBad (c.core s) ((List.range n).map (fun r => (off + 576 * r, 520))) with
        | some x => trapAt (countCons s c.f.die) c.f 0x12 (BitVec.ofNat 64 x)
        | none =>
          match takeSet (c.core s) c.f.wg with
          | none => hold s c.f .set
          | some _ =>
            acceptPu s c false none [] (fun s =>
              s.modCore c.f.die c.f.core (fun x =>
                (List.range n).foldl (fun y r =>
                  let b := scrRead x (off + 576 * r) 520
                  let w := fieldAt b 512 8
                  zWrite y c.f.wg (zIdx d + r) (BitVec.ofNat 4096 (fieldAt b 0 512)) (mkWord (bitsOf w 16 2) (bitsOf w 0 15)))
                  ((takeSet x c.f.wg).getD x))))) s)

/-- `smov.st` (R361). -/
def execSmovSt (h : Hdr) (d a : Opd) (s : State) : Host.Outcome State Fault Refusal :=
  .next (pulpOp h [] (fun c s =>
    if pulpBusy s c || puFull s c then hold s c.f .stall
    else finish (writeDst s c d 64 [0] [(zWord (c.core s) c.f.wg (zIdx a)).toNat]) c.f 1) s)

/-- `PULP_INSTRUCTION_COMPLETE`: the instruction that the unit accepted first completes; a push waits for ring room. A push whose binding has gone receives the
queue-dead result: it is discarded, and its instruction has faulted (R90, R92, R353, R359). The bindings of a workgroup go with its exit, and while one is away
from its core its push waits (log entry 107). -/
def execPulpInstructionComplete (die core : Nat) (s : State) : Host.Outcome State Fault Refusal :=
  .next (match (s.core die core).pq with
    | [] => s
    | e :: rest =>
      let drop (s : State) : State := s.modCore die core (fun c => { c with pq := rest })
      match e.outQ, s.wg? die e.wg with
      | some i, some g =>
        let q := g.queue i
        if e.dead || g.exited || q.port != 3 then
          let later := rest.any (fun x => x.wg == e.wg && x.outQ == some i && !x.dead)
          drop (if later then s else setFaulted s die e.wg e.outQ true)
        else if !g.resident || q.count + e.push.length > 256 then s
        else drop (pushWords s e.frag i e.push)
      | _, _ => drop s)

/-! ### The pulp lease and the passing of leases (R345, R352, R401) -/

/-- `PULP_LEASE_GRANT`: the first waiter receives the free lease, once leave is granted, a set is its own or free, and the counted instructions of the last holder
have completed (R352). -/
def execPulpLeaseGrant (die core : Nat) (s : State) : Host.Outcome State Fault Refusal :=
  .next (
    let l := (s.core die core).puLease
    match l.holder, l.waiters with
    | none, w :: rest =>
      if (s.die die).leaveQ.any (fun r => r.1 == .pulp core w) || (s.core die core).pq.any (·.leased) then s
      else
        match takeSet (s.core die core) w with
        | none => s
        | some c =>
          let s := s.modCore die core (fun _ => { c with puLease := { holder := some w, count := 0, waiters := rest } })
          wakeWhere s die (fun t _ => t == w) (fun x => x == .puLease)
    | _, _ => s)

/-- The holder waits for elements that an `mmv` reserves (R344). -/
def waitsReserved (s : State) (d w : Nat) : Bool :=
  (s.wg? d w).any (fun g => g.warps.any (fun e => (e.2.s0.occ && e.2.s0.wait == .mxRes) || (e.2.s1.occ && e.2.s1.wait == .mxRes)))

/-- `LEASE_PASS`: the lease leaves its holder after its bound while another waits, or when it is pre-empted (R322, R352, R363, R401, R420). -/
def execLeasePass (die core : Nat) (pulp : Bool) (s : State) : Host.Outcome State Fault Refusal :=
  .next (
    let c := s.core die core
    let l := if pulp then c.puLease else c.mxLease
    match l.holder with
    | none => s
    | some w =>
      let g := (s.wg? die w).getD {}
      let bound := if pulp then g.please else g.mlease
      let due := l.count ≥ bound || (!pulp && waitsReserved s die w)
      let busy := if pulp then c.pq.any (fun e => e.wg == w && e.leased) else c.mxq.any (fun e => e.wg == w && e.leased)
      if busy || (!g.preReq && (l.waiters.isEmpty || !due)) then s
      else
        s.modCore die core (fun c =>
          if pulp then { c with puLease := { c.puLease with holder := none, count := 0 } }
          else { c with mxLease := { c.mxLease with holder := none, count := 0 } }))

end Sys2Proof.Machine
end

