-- ==== Sys2Proof/Machine/Solve.lean ====
section
/-! DEFINITION. The solve region and the calender: `slvb`, `slvx` and the step, opcodes 0xD0 and 0xD1 (15 R365 to R379). -/

namespace Sys2Proof.Machine

/-! ### The descriptor (R365, R366) -/

/-- A carried tile: its offset, the offset of its image, its elements, and the base of its history block. -/
structure Tile where
  x : Nat
  g : Nat
  nel : Nat
  blk : Nat
  deriving DecidableEq, Repr, Inhabited

/-- Bytes of an element (R365). -/
def slvEsz (desc : List Byte) : Nat := if fieldAt desc 2 1 = 2 then 2 else 4

/-- The format of the tiles (R365). -/
def slvFmt (desc : List Byte) : FFmt := if fieldAt desc 2 1 = 2 then .bf16 else .f32

/-- Bytes of a history slot (R366). -/
def slotSize (nel : Nat) : Nat := ceilDiv (4 * nel) 64 * 64

/-- The first `n` tiles, from tile `t` whose block lies at `blk` (R365, R366). -/
def tilesFrom (desc : List Byte) (at_ m : Nat) : Nat → Nat → Nat → List Tile
  | 0, _, _ => []
  | n + 1, t, blk =>
    let nel := fieldAt desc (36 + 8 * t) 2
    ⟨at_ + 64 * fieldAt desc (32 + 8 * t) 2, at_ + 64 * fieldAt desc (34 + 8 * t) 2, nel, blk⟩ ::
      tilesFrom desc at_ m n (t + 1) (blk + (2 * m + 2) * slotSize nel)

/-- The tiles of a descriptor at `at_` with history depth `m`. -/
def slvTiles (desc : List Byte) (at_ m : Nat) : List Tile :=
  tilesFrom desc at_ m (min 4 (fieldAt desc 0 2)) 0 (at_ + fieldAt desc 24 4)

/-- The ranges in descriptor order: the offset of the field that names each, where it starts, its length (R369). -/
def slvRanges (desc : List Byte) (at_ m : Nat) : List (Nat × Nat × Nat) :=
  let ts := slvTiles desc at_ m
  let hist := sumN (ts.map (fun (t : Tile) => (2 * m + 2) * slotSize t.nel))
  [(0, at_, 64), (24, at_ + fieldAt desc 24 4, hist)] ++
  ts.zipIdx.flatMap (fun (p : Tile × Nat) =>
    [(32 + 8 * p.2, p.1.x, p.1.nel * slvEsz desc), (34 + 8 * p.2, p.1.g, p.1.nel * slvEsz desc)])

/-- Neither NaN nor an infinity. -/
def FV.isFin (v : FV) : Bool := !v.isNan && !v.isInf

/-- The fields outside their limits, in byte order: offset and failure (R365). -/
def slvFields (desc : List Byte) : List (Nat × Bool) :=
  let u (o n : Nat) : Nat := fieldAt desc o n
  let nt := u 0 2
  let beta := fdecode .f64 (u 8 8)
  let lam := fdecode .f64 (u 16 8)
  let lim : Nat := if u 2 1 = 2 then 8192 else 4096
  [(0, nt = 0 || nt > 4), (2, u 2 1 != 0 && u 2 1 != 2), (3, u 3 1 != 0), (4, u 4 2 = 0 || u 4 2 > 4096), (6, u 6 2 != 0),
   (8, !beta.isFin || beta.isZero), (16, !lam.isFin || (lam.neg? && !lam.isZero)), (24, u 24 4 % 64 != 0), (28, u 28 4 != 0)] ++
  (List.range 4).flatMap (fun t =>
    if t < nt then [(36 + 8 * t, u (36 + 8 * t) 2 = 0 || u (36 + 8 * t) 2 > lim), (38 + 8 * t, u (38 + 8 * t) 2 != 0)]
    else (List.range 4).map (fun i => (32 + 8 * t + 2 * i, u (32 + 8 * t + 2 * i) 2 != 0)))

/-- The field that names the later of the first two ranges that overlap. -/
def slvOverlap : List (Nat × Nat × Nat) → List (Nat × Nat × Nat) → Option Nat
  | _, [] => none
  | seen, r :: t =>
    if seen.any (fun (e : Nat × Nat × Nat) => overlap e.2.1 e.2.2 r.2.1 r.2.2) then some r.1 else slvOverlap (seen ++ [r]) t

/-- The least of some numbers. -/
def minOf : List Nat → Option Nat
  | [] => none
  | x :: t => some (t.foldl min x)

/-- The lowest byte of the ranges outside a workgroup's allotment. -/
def firstOutside (g : Wg) (rs : List (Nat × Nat × Nat)) : Option Nat :=
  minOf (rs.filterMap (fun (r : Nat × Nat × Nat) =>
    if r.2.2 = 0 || inAllot g r.2.1 r.2.2 then none
    else some (if r.2.1 < g.spbase then r.2.1 else max r.2.1 (g.spbase + g.splen))))

/-! ### Arrivals (R368, R371) -/

/-- The slot of an arrival. -/
def arrRef (d core t : Nat) (a : SlvArr) : FragRef := ⟨d, core, t, a.warp, a.s1⟩

/-- Every arrived warp does `act`, and the arrivals are spent. -/
def arrivedAll (s : State) (d t : Nat) (act : State → FragRef → SlvArr → State) : State :=
  match s.wg? d t with
  | none => s
  | some g =>
    let s := s.modWg d t (fun g => { g with slv := { g.slv with arr := [] } })
    g.slv.arr.foldl (fun s a => act s (arrRef d g.core t a) a) s

/-- Every arrived warp takes a trap at its word (R369, R371, R377). -/
def trapArrived (s : State) (d t cause : Nat) (info : SlvArr → W64) : State :=
  arrivedAll s d t (fun s f a => trapAt s f cause (info a))

/-- Every arrived warp goes on at an address. -/
def departTo (s : State) (d t : Nat) (pc : W64) : State := arrivedAll s d t (fun s f _ => goTo s f pc)

/-- Every arrived warp goes on after `slvb` at `pc`, as `rgn` there would have it (R369, R372). -/
def departBody (s : State) (d t : Nat) (pc : W64) : State :=
  arrivedAll s d t (fun s f _ =>
    goTo (s.modFrag f (fun p => { p with regionpc := pc, regioncnt := p.regioncnt + 1 })) f pc)

/-! ### Opening (R369) -/

/-- The trap that a check of `slvb` raises, with its `trapinfo`: for τ, which is no field of the descriptor, the word itself (R369, R413). -/
def slvCheck (s : State) (g : Wg) (d : Nat) (a : SlvArr) : Option (Nat × Nat) :=
  let core := s.core d g.core
  let kd := a.kd.toNat
  if kd % 64 != 0 then some (4, kd)
  else
    match firstOutside g [(0, kd, 64)] with
    | some x => some (2, x)
    | none =>
      if scrPois core kd 64 then some (0x12, kd)
      else
        let desc := scrRead core kd 64
        let rs := slvRanges desc kd a.m
        let tau := fdecode .f64 a.tau.toNat
        match firstOutside g rs with
        | some x => some (2, x)
        | none =>
          match ((slvFields desc).find? (fun (e : Nat × Bool) => e.2)).map (fun (e : Nat × Bool) => e.1) with
          | some o => some (5, o)
          | none =>
            if !tau.isFin || (tau.neg? && !tau.isZero) then some (5, a.word.toNat)
            else
              match slvOverlap [] rs with
              | some o => some (5, o)
              | none =>
                (minOf (rs.filterMap (fun (r : Nat × Nat × Nat) => lockHit core false r.2.1 r.2.2 true))).map
                  (fun x => (0x0A, x))

/-- Opens the region once every warp has arrived at `slvb`; while too few lock entries are free it changes nothing (R369). -/
def slvOpen (s : State) (d t : Nat) (g : Wg) (a : SlvArr) : State :=
  if g.slv.opened then trapArrived s d t 5 (fun a => a.word)
  else if g.slv.arr.any (fun b => b.tau != a.tau || b.kd != a.kd || b.m != a.m || b.exc != a.exc) then trapArrived s d t 8 (fun _ => 6)
  else
    match slvCheck s g d a with
    | some (cause, x) =>
      trapArrived (if cause = 0x12 then countCons s d else s) d t cause (fun _ => BitVec.ofNat 64 x)
    | none =>
      let core := s.core d g.core
      let kd := a.kd.toNat
      let desc := scrRead core kd 64
      let ts := slvTiles desc kd a.m
      if core.locks.length + 1 + ts.length > 64 then s
      else
        let hist := sumN (ts.map (fun (x : Tile) => (2 * a.m + 2) * slotSize x.nel))
        let s := flushBanks s d g.core ((kd + fieldAt desc 24 4, hist) :: ts.map (fun (x : Tile) => (x.x, x.nel * slvEsz desc)))
        let (id, s) := s.fresh
        let s := s.modCore d g.core (fun c =>
          { c with locks := c.locks ++ mkLock false (kd + fieldAt desc 24 4) hist true id ::
                     ts.map (fun (x : Tile) => mkLock false x.x (x.nel * slvEsz desc) false id) })
        let s := s.modWg d t (fun g =>
          { g with slvk := 0, slvnorm := 0
                   slv := { g.slv with opened := true, m := a.m, exc := a.exc, tau := a.tau, desc := desc, descAt := kd, at_ := a.at_
                                       k := 0, lockId := id } })
        departBody s d t (a.at_ + 8)

/-- What follows once every warp has arrived (R368, R369, R371). -/
def slvDone (s : State) (d t : Nat) : State :=
  match s.wg? d t with
  | none => s
  | some g =>
    match allArrived g, g.slv.arr with
    | true, a :: _ =>
      if g.slv.arr.any (fun b => b.op != a.op || b.at_ != a.at_) then trapArrived s d t 8 (fun _ => 6)
      else if a.op then slvOpen s d t g a
      else if !g.slv.opened then trapArrived s d t 5 (fun a => a.word)
      else calEnter s d t
    | _, _ => s

/-- The warp may arrive: every thread it still has is active, none suspended, and no sibling (R368). -/
def mayArrive (c : Ctx) : Bool :=
  c.p.sm == 0 && !(c.w.slot (!c.f.s1)).occ &&
  c.w.thr.zipIdx.all (fun (x : Thr × Nat) => x.1.live == c.p.am.getLsbD x.2)

/-- A warp arrives (R368, R371): a marker where its guard holds, as an arrival at a `.wg` barrier is (R225; log entry 102). -/
def slvArrive (h : Hdr) (os : List Opd) (w : Wait) (mk : State → Ctx → SlvArr) (s : State) : State :=
  markOp h os (fun c s =>
    if c.p.am == 0 then badConv s c.f 2
    else if !mayArrive c then badConv s c.f 1
    else if !released s c.f c.p.uid .wg || acqOut s c.p.uid then hold s c.f .stall
    else
      let a := mk s c
      let s := progress (hold s c.f w) c.f
      let s := s.modWgOf c.f (fun g => { g with slv := { g.slv with arr := g.slv.arr.filter (fun b => b.warp != a.warp) ++ [a] } })
      slvDone s c.f.die c.f.wg) s

/-- `slvb` (R367 to R369). -/
def execSlvb (h : Hdr) (m : BitVec 3) (ex : Bool) (a b : Opd) (s : State) : Host.Outcome State Fault Refusal :=
  .next (slvArrive h [a, b] .slvb (fun s c =>
    { warp := c.f.warp, s1 := c.f.s1, op := true, at_ := c.p.pc, word := s.word, tau := BitVec.ofNat 64 (kNat s c a)
      kd := BitVec.ofNat 64 (kNat s c b), m := m.toNat, exc := ex }) s)

/-- `slvx` (R368, R371): the arrival; `CALENDER_STEP` performs the step. -/
def execSlvx (h : Hdr) (s : State) : Host.Outcome State Fault Refusal :=
  .next (slvArrive h [] .slvx (fun s c =>
    { warp := c.f.warp, s1 := c.f.s1, op := false, at_ := c.p.pc, word := s.word }) s)

/-! ### Arithmetic of the step (R372, R373) -/

/-- One f64 operation under RNE (R372). -/
def r64 (v : FV) : FV := fdecode .f64 (roundTo .f64 .rne false v).bits

/-- A sum in f64. -/
def add64 (a b : FV) : FV := r64 (FV.add a b false)

/-- A difference in f64. -/
def sub64 (a b : FV) : FV := r64 (FV.add a b.neg false)

/-- A product in f64. -/
def mul64 (a b : FV) : FV := r64 (FV.mul a b)

/-- A sum of rounded products from zero, in order (R372, R373). -/
def dot64 (a b : List FV) : FV := (a.zip b).foldl (fun (s : FV) (p : FV × FV) => add64 s (mul64 p.1 p.2)) (FV.zero false)

/-- A value of `cholesky_solve`, which must be finite (R373). -/
def finOnly (v : FV) : Option FV := if v.isFin then some v else none

/-- A sum of products as `dot64`, every value finite. -/
def dotFin (a b : List FV) : Option FV :=
  (a.zip b).foldlM (fun (s : FV) (p : FV × FV) => do
    let x ← finOnly (mul64 p.1 p.2)
    finOnly (add64 s x)) (FV.zero false)

/-- An element of a list of values. -/
def fvAt (l : List FV) (i : Nat) : FV := (l[i]?).getD (FV.zero false)

/-- Row `i` of the factor, from the rows above it (R373): entries 0 to i − 1, then the pivot. -/
def cholRow (rows : List (List FV)) (mrow : List FV) : Nat → List FV → Option (List FV)
  | 0, acc => do
    let d ← dotFin acc acc
    let rad ← finOnly (sub64 (fvAt mrow acc.length) d)
    if FV.cmp rad (FV.zero false) ≤ 0 then none
    else
      let p ← finOnly (r64 (FV.sqrt rad))
      some (acc ++ [p])
  | n + 1, acc => do
    let j := acc.length
    let lj := (rows[j]?).getD []
    let d ← dotFin acc (lj.take j)
    let v ← finOnly (sub64 (fvAt mrow j) d)
    let q ← finOnly (r64 (FV.div v (fvAt lj j)))
    cholRow rows mrow n (acc ++ [q])

/-- The rows of the factor. -/
def cholRows (m : List (List FV)) : Option (List (List FV)) :=
  m.zipIdx.foldlM (fun (rows : List (List FV)) (r : List FV × Nat) => do
    let row ← cholRow rows r.1 r.2 []
    return rows ++ [row]) []

/-- Forward substitution: L y = r. -/
def fwdSub (l : List (List FV)) (r : List FV) : Option (List FV) :=
  (l.zip r).foldlM (fun (y : List FV) (p : List FV × FV) => do
    let d ← dotFin p.1 y
    let v ← finOnly (sub64 p.2 d)
    let q ← finOnly (r64 (FV.div v (fvAt p.1 y.length)))
    return y ++ [q]) []

/-- Backward substitution for rows `n − 1` down to 0: Lᵀ γ = y; `acc` holds γ from row n. -/
def bwdSub (l : List (List FV)) (y : List FV) : Nat → List FV → Option (List FV)
  | 0, acc => some acc
  | n + 1, acc => do
    let col := (l.drop (n + 1)).map (fun row => fvAt row n)
    let d ← dotFin col acc
    let v ← finOnly (sub64 (fvAt y n) d)
    let q ← finOnly (r64 (FV.div v (fvAt ((l[n]?).getD []) n)))
    bwdSub l y n (q :: acc)

/-- `cholesky_solve` (R373); `none` on failure. -/
def choleskySolve (m : List (List FV)) (r : List FV) : Option (List FV) := do
  let l ← cholRows m
  let y ← fwdSub l r
  bwdSub l y l.length []

/-- The columns that the factorisation accepts, after dropping the oldest while it fails, with γ (R373). -/
def mixSolve (f : List FV) (lam : FV) : Nat → List (List FV × List FV) → List (List FV × List FV) × List FV
  | 0, _ => ([], [])
  | n + 1, cols =>
    if cols.isEmpty then ([], [])
    else
      let df := cols.map (fun (c : List FV × List FV) => c.2)
      let m := df.zipIdx.map (fun (a : List FV × Nat) => df.zipIdx.map (fun (b : List FV × Nat) =>
        let v := if a.2 ≤ b.2 then dot64 a.1 b.1 else dot64 b.1 a.1
        if a.2 = b.2 then add64 v lam else v))
      match choleskySolve m (df.map (fun c => dot64 c f)) with
      | some gam => (cols, gam)
      | none => mixSolve f lam n (cols.drop 1)

/-- One new element, exact before its one rounding (R373). -/
def mixElem (beta x f : FV) (terms : List (FV × FV × FV)) : FV :=
  terms.foldl (fun (v : FV) (t : FV × FV × FV) =>
    FV.add v (FV.mul (FV.add t.1 (FV.mul beta t.2.1) false) t.2.2).neg false)
    (FV.add x (FV.mul beta f) false)

/-! ### Tiles and history in scratchpad (R366) -/

/-- Elements of `n` at `o` in a format. -/
def elemsAt (c : Core) (f : FFmt) (o n : Nat) : List FV :=
  (List.range n).map (fun i => fdecode f (leNat (scrRead c (o + f.width / 8 * i) (f.width / 8))))

/-- Slot `j` of every tile, in iterate order. -/
def slotElems (c : Core) (ts : List Tile) (j : Nat) : List FV :=
  ts.flatMap (fun t => elemsAt c .f32 (t.blk + j * slotSize t.nel) t.nel)

/-- Writes values rounded to a format, tile by tile, where `at_` says. -/
def putElems (f : FFmt) (at_ : Tile → Nat) : List Tile → List FV → Core → Core
  | [], _, c => c
  | t :: ts, vs, c =>
    let bs := (vs.take t.nel).flatMap (fun v => leBytes (f.width / 8) (roundTo f .rne false v).bits)
    putElems f at_ ts (vs.drop t.nel) (scrWrite c (at_ t) bs)

/-- Writes slot `j` of every tile. -/
def putSlot (ts : List Tile) (j : Nat) (vs : List FV) (c : Core) : Core :=
  putElems .f32 (fun t => t.blk + j * slotSize t.nel) ts vs c

/-- The image tiles copied to the carried tiles (R372). -/
def copyImage (ts : List Tile) (esz : Nat) (c : Core) : Core :=
  ts.foldl (fun (c : Core) (t : Tile) => scrWrite c t.x (scrRead c t.g (t.nel * esz))) c

/-- The slots that a mixing step reads: the anchors and every column but the newest (R373). -/
def slotsRead (m k : Nat) : List Nat :=
  if k = 0 then []
  else
    let q := min m k
    [2 * m, 2 * m + 1] ++ (List.range (q - 1)).flatMap (fun i =>
      let p := (k - 1 + m - (q - 1 - i)) % m
      [2 * p, 2 * p + 1])

/-! ### The step (R372 to R379) -/

/-- `slvk` (R375). -/
def slvkWord (mk st k : Nat) : W64 := BitVec.ofNat 64 (mk * 2 ^ 24 + st * 2 ^ 16 + k)

/-- The mixing step: the core, and the columns used (R373). -/
def mixStep (z : Solve) (ts : List Tile) (x f : List FV) (c : Core) : Core × Nat :=
  let fmt := slvFmt z.desc
  let beta := fdecode .f64 (fieldAt z.desc 8 8)
  let lam := fdecode .f64 (fieldAt z.desc 16 8)
  let lam := if lam.isZero then FV.zero false else lam
  let q := min z.m z.k
  let p := (z.k - 1) % z.m
  let r32 (v : FV) : FV := fdecode .f32 (roundTo .f32 .rne false v).bits
  let diff (a b : List FV) : List FV := (a.zip b).map (fun (e : FV × FV) => r32 (FV.add e.1 e.2.neg false))
  let dx := diff x (slotElems c ts (2 * z.m))
  let df := diff f (slotElems c ts (2 * z.m + 1))
  let c := if z.k = 0 then c else putSlot ts (2 * p + 1) df (putSlot ts (2 * p) dx c)
  let col (i : Nat) : List FV × List FV :=
    if i + 1 = q then (dx, df)
    else
      let j := (z.k - 1 + z.m - (q - 1 - i)) % z.m
      (slotElems c ts (2 * j), slotElems c ts (2 * j + 1))
  let (cols, gam) := mixSolve f lam q ((List.range q).map col)
  let xnew := (x.zip f).zipIdx.map (fun (e : (FV × FV) × Nat) =>
    mixElem beta e.1.1 e.1.2 ((cols.zip gam).map (fun (t : (List FV × List FV) × FV) =>
      (fvAt t.1.1 e.2, fvAt t.1.2 e.2, t.2))))
  let c := putSlot ts (2 * z.m + 1) f (putSlot ts (2 * z.m) x c)
  (putElems fmt (fun t => t.x) ts xnew c, cols.length)

/-- The first poisoned byte range that a step would read (R377). -/
def stepPois (c : Core) (rs : List (Nat × Nat)) : Option Nat :=
  (rs.find? (fun (r : Nat × Nat) => scrPois c r.1 r.2)).map (fun (r : Nat × Nat) => r.1)

/-- The first byte that a lock of another owner keeps a step from (R88): a full lock over an image tile, and any lock over a carried tile or the history area, but for
a copy that writes a carried tile, which the step meets byte by byte (R370; log entry 95). -/
def stepLock (c : Core) (own : Nat) (image carried hist : List (Nat × Nat)) : Option Nat :=
  let hit (l : Lock) (rs : List (Nat × Nat)) : List Nat :=
    rs.filterMap (fun r => if r.2 != 0 && r.1 ≤ l.hi && l.lo ≤ r.1 + r.2 - 1 then some (max r.1 l.lo) else none)
  minOf ((c.locks.filter (fun l => !l.glob && l.cmd != own)).flatMap (fun l =>
    (if l.full then hit l image else hit l carried) ++ hit l hist))

/-- Closes the region (R372). -/
def slvClose (s : State) (d t : Nat) : State :=
  match s.wg? d t with
  | none => s
  | some g =>
    let s := s.modCore d g.core (fun c => { c with locks := c.locks.filter (fun l => l.cmd != g.slv.lockId) })
    s.modWg d t (fun g => { g with slv := { g.slv with opened := false } })

/-- The region ends with the image copied: convergence, or the ceiling action (R372). -/
def slvEnd (s : State) (d t : Nat) (g : Wg) (ts : List Tile) (st : Nat) (norm : W64) : State :=
  let z := g.slv
  let kw := slvkWord (bitsOf g.slvk.toNat 24 4) st (z.k + 1)
  let s := s.modCore d g.core (copyImage ts (slvEsz z.desc))
  let s := s.modWg d t (fun g => { g with slvk := kw, slvnorm := norm })
  let s := slvClose s d t
  if st = 1 || z.exc then arrivedAll s d t (fun s f a => goTo s f (a.at_ + 8))
  else arrivedAll s d t (fun s f a => takeTrap s f 0x10 kw (a.at_ + 8) false true)

/-- Bytes that each may already have been replaced: where `in_` holds, each is the old one or the new one. -/
def tornBytes (in_ : Nat → Bool) : Nat → List Byte → List Byte → State → List Byte × State
  | a, x :: xs, y :: ys, s =>
    let (k, s) := if in_ a && x != y then s.takeBool else (false, s)
    let (t, s) := tornBytes in_ (a + 1) xs ys s
    ((if k then y else x) :: t, s)
  | _, xs, _, s => (xs, s)

/-- Bytes of `new` reach a core's carried tiles while a step reads them: each is the old one or the new one (R370; log entry 95). -/
def tornPiece (carried : List (Nat × Nat)) (p : Core × State) (at_ : Nat) (new : List Byte) : Core × State :=
  if !carried.any (fun r => overlap r.1 r.2 at_ new.length) then p
  else
    let (bs, s) := tornBytes (fun a => carried.any (fun r => r.1 ≤ a && a < r.1 + r.2)) at_ (scrRead p.1 at_ new.length) new p.2
    ({ p.1 with scr := scrRaw p.1.scr at_ bs }, s)

/-- The core as a step sees it while a command with bytes left to move writes carried tiles: what a copy has left, the block that a gather writes, the payload of
a drain (R370; log entry 95). -/
def tornCopy (carried : List (Nat × Nat)) (p : Core × State) (c : Cmd) : Core × State :=
  match c.kind, c.kind.copyOf with
  | _, some (sg, false, dst, src, len) =>
    (List.range (ceilDiv (len - c.next) 256)).foldl (fun (p : Core × State) j =>
      let o := c.next + 256 * j
      let n := min 256 (len - o)
      match sideRead p.2 c sg (src + o) n with
      | .ok (_, new, false) => tornPiece carried p (dst + o) new
      | _ => p) p
  | .cpyk false dst _ _ _ stride _, _ =>
    (match c.pinned, c.out with
      | none, (w, o) :: _ => tornPiece carried p (dst + c.next * stride + w) (o.drop w)
      | _, _ => p)
  | .mdrn b _ _, _ => if (drainOf b).glob then p else c.out.foldl (fun p e => tornPiece carried p e.1 e.2) p
  | _, _ => p

/-- One step of the calender for a workgroup (R370, R372, R373, R377). An overflow or a NaN of its arithmetic sets no flag: the step is no instruction of a warp
(R179; log entry 108). -/
def slvStep (s : State) (d t : Nat) (g : Wg) : State :=
  let z := g.slv
  let esz := slvEsz z.desc
  let ts := slvTiles z.desc z.descAt z.m
  let (c, s) := (s.cmds.filter (fun k => k.die == d && k.core == g.core && k.st == .running)).foldl
    (tornCopy (ts.map (fun (t : Tile) => (t.x, t.nel * esz)))) (s.core d g.core, s)
  let fmt := slvFmt z.desc
  let poisoned (s : State) (x : Nat) : State := trapArrived (countCons s d) d t 0x12 (fun _ => BitVec.ofNat 64 x)
  let tiles (at_ : Tile → Nat) : List (Nat × Nat) := ts.map (fun (t : Tile) => (at_ t, t.nel * esz))
  let lock (hist : List (Nat × Nat)) : Option Nat := stepLock c z.lockId (tiles (·.g)) (tiles (·.x)) hist
  let locked (s : State) (x : Nat) : State := trapArrived s d t 0x0A (fun _ => BitVec.ofNat 64 x)
  match lock [] with
  | some x => locked s x
  | none =>
  match stepPois c (ts.flatMap (fun (t : Tile) => [(t.x, t.nel * esz), (t.g, t.nel * esz)])) with
  | some x => poisoned s x
  | none =>
    let x := ts.flatMap (fun (t : Tile) => elemsAt c fmt t.x t.nel)
    let gv := ts.flatMap (fun (t : Tile) => elemsAt c fmt t.g t.nel)
    let f := (gv.zip x).map (fun (e : FV × FV) => sub64 e.1 e.2)
    let norm := r64 (FV.sqrt (dot64 f f))
    let nw : W64 := BitVec.ofNat 64 (roundTo .f64 .rne false norm).bits
    let cyc (q : Nat) : Nat := ceilDiv x.length 16 * (4 + 2 * q + q * q) + 32 * (q + 1) ^ 3
    let spendCyc (s : State) (q : Nat) : State := s.addCyc d g.core (cyc q - 1)
    if !norm.isFin then slvEnd (spendCyc s 0) d t g ts 3 nw
    else if FV.cmp norm (fdecode .f64 z.tau.toNat) ≤ 0 then slvEnd (spendCyc s 0) d t g ts 1 nw
    else if z.k + 1 = fieldAt z.desc 4 2 then slvEnd (spendCyc s 0) d t g ts 2 nw
    else
      match lock (ts.map (fun (t : Tile) => (t.blk, (2 * z.m + 2) * slotSize t.nel))) with
      | some x => locked s x
      | none =>
      match stepPois c (ts.flatMap (fun (t : Tile) =>
        (slotsRead z.m z.k).map (fun j => (t.blk + j * slotSize t.nel, 4 * t.nel)))) with
      | some x => poisoned s x
      | none =>
        let (c', q) := mixStep z ts x f c
        let s := (spendCyc s q).modCore d g.core (fun _ => c')
        let s := s.modWg d t (fun g =>
          { g with slvk := slvkWord q 0 (z.k + 1), slvnorm := nw, slv := { g.slv with k := z.k + 1 } })
        departBody s d t (z.at_ + 8)

/-- `CALENDER_STEP`: what was waiting for a last arrival or for lock entries goes on, and the workgroup whose `slvx` completed first
takes its step (R368, R369, R372, R379). -/
def execCalenderStep (die core wg : Nat) (s : State) : Host.Outcome State Fault Refusal :=
  .next (match s.wg? die wg with
    | none => s
    | some g =>
      if g.core != core then s
      else
        let s := if (s.core die core).calQ.contains wg then s else slvDone s die wg
        match (s.core die core).calQ, s.wg? die wg with
        | w :: rest, some g =>
          if w == wg then slvStep (s.modCore die core (fun c => { c with calQ := rest })) die wg g else s
        | _, _ => s)

end Sys2Proof.Machine
end

