-- ==== Sys2Proof/Machine/Sched.lean ====
section
/-! DEFINITION. Scheduling: allotments, barriers, dispensers, tasks, device-side launch, and grids from dispatch to completion,
opcodes 0xD8 to 0xDF (07 R187, R208; 09 R243 to R250; 17 R390 to R412). -/

namespace Sys2Proof.Machine

/-! ### What a core holds (R61, R62, R187, R208) -/

/-- The workgroups resident on a core. -/
def residents (s : State) (d core : Nat) : List (Nat × Wg) :=
  (s.die d).wgs.filter (fun (e : Nat × Wg) => e.2.core == core && e.2.resident && !e.2.exited)

/-- Slots of a workgroup in a lane (R187). -/
def laneSlots (nslot lane : Nat) : Nat := (nslot + 15 - lane) / 16

/-- Slots and windows of workgroups fit the lanes: eight warp slots and 12,288 words in each (R187, R208). -/
def lanesFit (l : List (Nat × Nat)) : Bool :=
  (List.range 16).all (fun lane =>
    sumN (l.map (fun (e : Nat × Nat) => laneSlots e.1 lane)) ≤ 8 &&
    sumN (l.map (fun (e : Nat × Nat) => laneSlots e.1 lane * (32 * (16 + 16 * e.2)))) ≤ 12288)

/-- The slots and windows of workgroups. -/
def laneUse (l : List (Nat × Wg)) : List (Nat × Nat) := l.map (fun (e : Nat × Wg) => (e.2.nslot, e.2.nwin))

/-- A byte range is free of the allotments of workgroups. -/
def bytesFree (l : List (Nat × Wg)) (o n : Nat) : Bool := n = 0 || l.all (fun (e : Nat × Wg) => !overlap e.2.spbase e.2.splen o n)

/-- The bands that workgroups hold. -/
def bandsHeld (l : List (Nat × Wg)) : BitVec 16 := l.foldl (fun (b : BitVec 16) (e : Nat × Wg) => b ||| e.2.bands) 0

/-- Places for a workgroup: multiples of 1 KiB whose prologue is free and whose full allotment would fit (R62). -/
def spbases (s : State) (d core : Nat) (g : Wg) : List Nat :=
  let rs := residents s d core
  (List.range 384).map (· * 1024) |>.filter (fun o =>
    o + 1024 * g.full ≤ scrEnd (s.core d core) && bytesFree rs o (1024 * g.prol))

/-! ### `acq` and `rel` (R208, R402, R406, R407) -/

/-- The request asks leave (R402). -/
def acqAsks (s : State) (d : Nat) (g : Wg) : Bool :=
  (g.full - g.prol) + 16 * g.bandsFull ≥ 16 * bitsOf (s.die d).schctl.toNat 40 8

/-- `acq` (R406). -/
def execAcq (h : Hdr) (s : State) : Host.Outcome State Fault Refusal :=
  .next (uniOp h [] (fun c s =>
    if c.g.fullHeld then finish s c.f 1
    else if c.g.acqPend then hold s c.f .acq
    else
      let s := s.modWgOf c.f (fun g => { g with acqPend := true })
      let s := s.modCore c.f.die c.f.core (fun x => { x with acqQ := x.acqQ ++ [c.f.wg] })
      let s := if acqAsks s c.f.die c.g then
          s.modDie c.f.die (fun x => { x with leaveQ := x.leaveQ ++ [(.acq c.f.core c.f.wg, 0)] })
        else s
      hold s c.f .acq) s)

/-- Takes `n` bands of a free set, which ones the core chooses. -/
def takeBands : Nat → List Nat → BitVec 16 → State → BitVec 16 × State
  | 0, _, b, s => (b, s)
  | n + 1, free, b, s =>
    match pickOf s free with
    | (some i, s) => takeBands n (free.filter (· != i)) (b ||| (1 <<< i)) s
    | (none, s) => (b, s)

/-- Clears the bands of a mask (R69). -/
def clearBands (c : Core) (b : BitVec 16) : Core :=
  (idxWhere 16 (fun i => b.getLsbD i)).foldl (fun (c : Core) (i : Nat) => clearWindow c (16 * i) 0 16 256 false) c

/-- A fragment goes past its word. -/
def passFrag (p : Frag) : Frag := p.next (p.pc + 8)

/-- Fragments of a workgroup that satisfy `p` go past their word. -/
def passAll (s : State) (d t : Nat) (p : Warp → Frag → Bool) : State :=
  s.modWg d t (fun g => { g with warps := g.warps.map (fun (e : Nat × Warp) =>
    let pass (fr : Frag) : Frag := if fr.occ && p e.2 fr then passFrag fr else fr
    (e.1, { e.2 with s0 := pass e.2.s0, s1 := pass e.2.s1 })) })

/-- `ALLOTMENT_GRANT`: the request that the core received first is granted whole (R69, R208, R406). -/
def execAllotmentGrant (die core : Nat) (s : State) : Host.Outcome State Fault Refusal :=
  .next (match (s.core die core).acqQ with
    | [] => s
    | t :: rest =>
      match s.wg? die t with
      | none => s
      | some g =>
        let others := (residents s die core).filter (fun (e : Nat × Wg) => e.1 != t)
        let free := idxWhere 16 (fun i => !(bandsHeld others).getLsbD i)
        if (s.die die).leaveQ.any (fun r => r.1 == .acq core t) then s
        else if !lanesFit ((g.nslot, g.nwinFull) :: laneUse others) || free.length < g.bandsFull ||
            !bytesFree others (g.spbase + 1024 * g.prol) (1024 * (g.full - g.prol)) then s
        else
          let (b, s) := takeBands g.bandsFull free 0 s
          let s := s.modCore die core (fun c => { clearBands c b with acqQ := rest })
          let s := s.modWg die t (fun g =>
            { g with nwin := max g.nwin g.nwinFull, bands := b, splen := 1024 * g.full, acqPend := false, fullHeld := true })
          passAll s die t (fun _ fr => fr.wait == .acq))

/-- Work that `rel` waits for (R407). -/
def relHeld (s : State) (c : Ctx) : Bool :=
  let core := c.core s
  let past := c.g.spbase + 1024 * c.g.prol
  core.mxq.any (fun e => e.wg == c.f.wg) ||
  s.cmds.any (fun k => k.die == c.f.die && k.core == c.f.core && k.wg == c.f.wg &&
    ((match k.kind with | .mmv _ => true | _ => false) ||
     core.locks.any (fun l => l.cmd == k.id && !l.glob && l.hi ≥ past)))

/-- The live threads of a warp that hold windows beyond two, which `rel` spills (R208). -/
def relSpills (w : Warp) : List Nat := idxWhere 32 (fun t => (w.thread t).live && (w.thread t).res > 2)

/-- An access of a thread is still under way to the bytes that its spill writes (R201). -/
def spillHeld (s : State) (f : FragRef) (g : Wg) : Bool :=
  g.warps.any (fun e => (relSpills e.2).any (fun t =>
    let x := e.2.thread t
    let va := threadArea g x.tid + 64 * (x.dep - x.res + 1)
    [e.2.s0, e.2.s1].any (fun p => p.occ && ownHeld s { f with warp := e.1 } p.uid va (64 * (x.res - 2)) true)))

/-- Spills the live threads' windows beyond two (R208); the address is that of the thread's area on failure. -/
def spillAll (s : State) (f : FragRef) (g : Wg) : Except (AErr × Nat) State :=
  g.warps.foldlM (fun (s : State) (e : Nat × Warp) =>
    (relSpills e.2).foldlM (fun (s : State) (t : Nat) =>
      (spillOld s { f with warp := e.1 } t 2).mapError (fun er => (er, threadArea g (e.2.thread t).tid))) s) s

/-- `rel` (R208, R407). -/
def execRel (h : Hdr) (s : State) : Host.Outcome State Fault Refusal :=
  .next (uniOp h [] (fun c s =>
    if !c.g.fullHeld then finish s c.f 1
    else if c.g.slv.opened then illegal s c.f
    else if relHeld s c || spillHeld s c.f c.g then hold s c.f .rel
    else
      match spillAll s c.f c.g with
      | .error (.busy h, _) => holdFor s c.f h .rel
      | .error (e, va) => faultNow s c.f e.cause va
      | .ok s =>
        let s := s.modWgOf c.f (fun g => { g with nwin := 2, bands := 0, fullHeld := false, splen := 1024 * g.prol })
        let s := s.modCore c.f.die c.f.core (fun x =>
          { x with mxLease := if x.mxLease.holder == some c.f.wg then { x.mxLease with holder := none, count := 0 } else x.mxLease })
        finish s c.f 1) s)

/-! ### Barriers (R144, R198, R408) -/

/-- The fragments of a warp: those saved while it is in the pre-emption handler or swapped out. -/
def Warp.frags (w : Warp) : List Frag :=
  (if w.entered || w.swapped then [w.sv0, w.sv1] else [w.s0, w.s1]).filter (·.occ)

/-- The state of a barrier scope. -/
def Wg.bar (g : Wg) (i : Nat) : BarSt := (g.bars[i]?).getD {}

/-- Changes the state of a barrier scope. -/
def Wg.modBar (g : Wg) (i : Nat) (f : BarSt → BarSt) : Wg :=
  { g with bars := listMod (g.bars ++ List.replicate (4 - g.bars.length) ({} : BarSt)) i f }

/-- The memory scope of a barrier scope. -/
def barScope : Nat → Scope
  | 0 => .wg
  | 1 => .cl
  | 2 => .die
  | _ => .fab

/-- `bar`: an arrival, which is a marker and a release (R144, R198, R209, R225, R408); a fragment whose barrier departed while it was saved goes on. -/
def execBar (h : Hdr) (sc : BitVec 2) (s : State) : Host.Outcome State Fault Refusal :=
  .next (markOp h [] (fun c s =>
    let i := sc.toNat
    let b := c.g.bar i
    if b.departed.contains c.p.uid then
      let s := s.modWgOf c.f (fun g => g.modBar i (fun b => { b with departed := b.departed.filter (· != c.p.uid) }))
      finish (acquire s c.f (barScope i)) c.f 1
    else if b.arrived.contains c.p.uid then hold s c.f (.bar i)
    else if acqOut s c.p.uid || !released s c.f c.p.uid (barScope i) then holdRel s c.f
    else
      let s := s.modWgOf c.f (fun g => g.modBar i (fun b => { b with arrived := b.arrived ++ [c.p.uid] }))
      hold (progress s c.f) c.f (.bar i)) s)

/-- Every thread of a workgroup that has not exited has arrived (R198, R408). -/
def wgArrived (g : Wg) (i : Nat) : Bool :=
  g.exited || (g.started && g.bins.all (fun b => b.recs.isEmpty) &&
    (g.warps.map (·.2) ++ g.outWarps).all (fun w => w.frags.all (fun fr => (g.bar i).arrived.contains fr.uid)))

/-- The workgroups of a grid on a die. -/
def wgsOf (d : Nat) (y : Grid) : List (Nat × Nat) := y.wgs.map (fun t => (d, t))

/-- The participants of a barrier: die and tag (R408). -/
def barParts (s : State) (d t : Nat) (g : Wg) (i : Nat) : List (Nat × Nat) :=
  match i, s.grid? d g.grid with
  | 0, _ => [(d, t)]
  | _, none => [(d, t)]
  | 1, some y => (wgsOf d y).filter (fun e => (s.wg? d e.2).any (fun x => x.core / 8 == g.core / 8))
  | 2, some y => wgsOf d y
  | _, some y =>
    match y.span with
    | none => wgsOf d y
    | some n => (List.range 4).flatMap (fun e => ((s.die e).grids.filter (fun z => z.span == some n)).flatMap (wgsOf e))

/-- A die of a spanning launch has not yet dispatched its grid. -/
def spanOpen (s : State) (d : Nat) (g : Wg) (i : Nat) : Bool :=
  i == 3 && (s.grid? d g.grid).any (fun y => match y.span with | some n => s.spanWait.any (fun e => e.1 == n) | none => false)

/-- The fragments of a workgroup depart from a barrier (R144). -/
def barDepart (i : Nat) (s : State) (e : Nat × Nat) : State :=
  match s.wg? e.1 e.2 with
  | none => s
  | some g =>
    let here (w : Warp) (fr : Frag) : Bool :=
      !w.entered && !w.swapped && fr.occ && fr.wait == .bar i && (g.bar i).arrived.contains fr.uid
    let gone : List (FragRef × Nat) := g.warps.flatMap (fun (w : Nat × Warp) =>
      [false, true].filterMap (fun s1 =>
        if here w.2 (w.2.slot s1) then some (⟨e.1, g.core, e.2, w.1, s1⟩, (w.2.slot s1).uid) else none))
    let s := s.modWg e.1 e.2 (fun g => g.modBar i (fun b =>
      { inst := b.inst + 1, arrived := []
        departed := b.departed ++ b.arrived.filter (fun u => !gone.any (fun x => x.2 == u)) }))
    passAll (gone.foldl (fun (s : State) (x : FragRef × Nat) => acquire s x.1 (barScope i)) s) e.1 e.2 here

/-! ### Schedule tables (R394, R395) -/

/-- The slices of part `p` of a table (R395). -/
def partSlices (tab : SchTab) (p : Nat) : Nat × Nat :=
  let tot := sumN tab.shares
  (128 * sumN (tab.shares.take p) / tot, 128 * sumN (tab.shares.take (p + 1)) / tot)

/-- The indices of part `p` of a table, as distances from the first index (R395). -/
def partRange (y : Grid) (tab : SchTab) (p : Nat) : Nat × Nat :=
  let (a, b) := partSlices tab p
  (y.nidx * a / 128, y.nidx * b / 128)

/-- The least score's table, ties to the lower number (R395). -/
def bestTab (y : Grid) (tabs : List SchTab) : Option SchTab :=
  let cost (tab : SchTab) (p : Nat) : Nat :=
    let (a, b) := partSlices tab p
    sumN ((List.range (b - a)).map (fun i => Tab.getD y.cost (a + i) 0))
  let score (tab : SchTab) : Nat :=
    ((List.range y.P).map (fun w =>
      sumN (((List.range tab.shares.length).filter (fun p => p % y.P == w)).map (cost tab)))).foldl max 0
  (sortBy (fun (a b : SchTab × Nat) => a.2 < b.2 || (a.2 == b.2 && a.1.table < b.1.table)) (tabs.map (fun t => (t, score t)))).head?.map (·.1)

/-- The tables of a phase, by number. -/
def phaseTabs (y : Grid) (ph : Nat) : List SchTab :=
  sortBy (fun (a b : SchTab) => decide (a.table < b.table)) (y.sch.filter (fun t => t.phase == ph))

/-- A phase boundary: the range is dealt afresh, under the table of least score (R395). -/
def phaseBoundary (s : State) (d gid : Nat) : State :=
  match s.grid? d gid with
  | none => s
  | some y =>
    if y.disp != 1 || y.mode == 0 || y.sch.isEmpty then s
    else
      let ph := (y.phase + 1) % 16
      let tabs := phaseTabs y ph
      let cur := if y.hadTab then bestTab y tabs else tabs.head?
      let s := s.modGrid d gid (fun y => { y with phase := ph, curTab := cur, hadTab := cur.isSome, cost := [] })
      let s := y.wgs.foldl (fun (s : State) (t : Nat) => s.modWg d t (fun g => { g with fetchPart := 0, fetchCur := none })) s
      s.modStk y.cstk (fun k => { k with counters := Tab.put k.counters y.ctr 0 0 })

/-- `BARRIER_COMPLETE`: every participant has arrived, and the instance departs (R144, R198, R395, R408). -/
def execBarrierComplete (die core wg : Nat) (sc : BitVec 2) (s : State) : Host.Outcome State Fault Refusal :=
  .next (match s.wg? die wg with
    | none => s
    | some g =>
      let i := sc.toNat
      let ps := barParts s die wg g i
      let ready := ps.all (fun (e : Nat × Nat) => (s.wg? e.1 e.2).all (fun x => wgArrived x i))
      if g.core != core || spanOpen s die g i || !ready || (g.bar i).arrived.isEmpty then s
      else
        let s := ps.foldl (barDepart i) s
        if i == 2 then phaseBoundary s die g.grid else s)

/-! ### `fetch.idx` (R394, R395, R409) -/

/-- Two results on their way to k registers (R224, R409). -/
def launchPair (s : State) (c : Ctx) (d e : Opd) (v w : W64) : State :=
  let (id, s) := s.fresh
  { s with accs := s.accs ++ [{ id := id, frag := c.f, word := c.p.pc, uid := c.p.uid, seq := c.p.seq, thr := none, wuid := c.w.wuid, kind := .value
                                val := v, dst := .k (kIdx d), dst2 := .k (kIdx e), val2 := w, st := .done }] }

/-- A guided chunk: start, count, and the new counter (R394). -/
def guided (y : Grid) (c : Nat) : W64 × W64 × Nat :=
  let rem := y.nidx - c
  if rem = 0 then (0, 0, c)
  else
    let chunk := min rem (max y.minch (ceilDiv rem (2 * y.P)))
    (y.ibase + BitVec.ofNat 64 (y.nidx - rem), BitVec.ofNat 64 chunk, c + chunk)

/-- The cost of the part that a workgroup held is spread over its slices (R395). -/
def closePart (s : State) (d : Nat) (g : Wg) (y : Grid) : State :=
  match y.curTab, g.fetchCur with
  | some tab, some p =>
    let (a, b) := partSlices tab p
    let cyc := s.cycOf d g.core - g.fetchAt
    let n := b - a
    if n = 0 then s
    else
      s.modGrid d y.id (fun y => { y with cost := (List.range n).foldl (fun (t : Tab Nat) (i : Nat) =>
        Tab.put t (a + i) (Tab.getD t (a + i) 0 + cyc / n + (if i = 0 then cyc % n else 0)) 0) y.cost })
  | _, _ => s

/-- The number of the workgroup's next part that is not empty: its ordinal and the part (R395). -/
def nextPart (y : Grid) (tab : SchTab) (g : Wg) : Option (Nat × Nat) :=
  ((List.range tab.shares.length).filterMap (fun k =>
    let p := g.wgid + k * y.P
    if k < g.fetchPart || p ≥ tab.shares.length then none
    else
      let (a, b) := partRange y tab p
      if a < b then some (k, p) else none)).head?

/-- `fetch.idx` (R394, R395, R409). -/
def execFetchIdx (h : Hdr) (d e : Opd) (s : State) : Host.Outcome State Fault Refusal :=
  .next (uniOp h [] (fun c s =>
    match s.grid? c.f.die c.g.grid with
    | none => illegal s c.f
    | some y =>
      if y.disp != 1 then illegal s c.f
      else
        let s := closePart s c.f.die c.g y
        match y.curTab with
        | none =>
          let n := (Tab.getD (s.stk y.cstk).counters y.ctr 0).toNat
          let (v, w, n') := guided y n
          let s := s.modStk y.cstk (fun k => { k with counters := Tab.put k.counters y.ctr (BitVec.ofNat 64 n') 0 })
          finish (launchPair (s.modWgOf c.f (fun g => { g with fetchCur := none })) c d e v w) c.f 1
        | some tab =>
          match nextPart y tab c.g with
          | none => finish (launchPair (s.modWgOf c.f (fun g => { g with fetchCur := none })) c d e 0 0) c.f 1
          | some (k, p) =>
            let (a, b) := partRange y tab p
            let s := s.modWgOf c.f (fun g => { g with fetchPart := k + 1, fetchAt := s.cycOf c.f.die c.f.core, fetchCur := some p })
            finish (launchPair s c d e (y.ibase + BitVec.ofNat 64 a) (BitVec.ofNat 64 (b - a))) c.f 1) s)

/-! ### Tasks (R396 to R399, R409, R411, R412) -/

/-- What an access of the dispenser gives, or a value where it fails; one that is held up is tried again (R28, R47). -/
def readOr {α : Type} (s : State) (v : α) : Except AErr (State × α) → Except AErr (State × α)
  | .error (.busy h) => .error (.busy h)
  | .error _ => .ok (s, v)
  | r => r

/-- The addresses in a list of successors: `n` of them from `arr`. -/
def readSuccs (d arr : Nat) : Nat → Nat → State → Except AErr (State × List W64)
  | 0, _, s => .ok (s, [])
  | n + 1, i, s => do
    let (s, v) ← readOr s 0 (vrdN s { die := d } (arr + 8 * i) 8)
    let (s, l) ← readSuccs d arr n (i + 1) s
    return (s, BitVec.ofNat 64 v :: l)

/-- The successors of a TCB (R396). -/
def succsOf (s : State) (d : Nat) (t : W64) : Except AErr (State × List W64) := do
  let (s, arr) ← readOr s 0 (tcbRd s d t 24 8)
  let (s, n) ← readOr s 0 (tcbRd s d t 32 4)
  readSuccs d arr n 0 s

/-- The TCBs reachable from a list, visited depth first in list order, with at most `fuel` visits. -/
def reachTasks (d : Nat) : Nat → List W64 → List W64 → State → Except AErr (State × List W64)
  | 0, _, seen, s => .ok (s, seen)
  | _, [], seen, s => .ok (s, seen)
  | n + 1, t :: rest, seen, s =>
    if seen.contains t then reachTasks d n rest seen s
    else do
      let (s, l) ← succsOf s d t
      reachTasks d n (l ++ rest) (seen ++ [t]) s

/-- Bound of a visit of task lists: no more TCBs than this fit an address space. -/
def taskFuel : Nat := 2 ^ 51

/-- Every TCB of a list is done, faulted or abandoned, or cannot be read (R409). -/
def tcbsOver (d : Nat) : List W64 → State → Except AErr (State × Bool)
  | [], s => .ok (s, true)
  | t :: rest, s => do
    let (s, st) ← readOr s 3 (tcbRd s d t 42 1)
    if 3 ≤ st && st ≤ 5 then tcbsOver d rest s else return (s, false)

/-- Every TCB is done, faulted or abandoned, no successor remains armed, and the dispenser has no work left (R409). -/
def tasksOver (s : State) (d : Nat) (y : Grid) : Except AErr (State × Bool) :=
  if !y.jobs.isEmpty then .ok (s, false)
  else do
    let (s, l) ← reachTasks d taskFuel y.tlist [] s
    tcbsOver d l s

/-- The dispenser of a fragment's grid has work that waits. -/
def jobsWait (s : State) (c : Ctx) : Bool := (s.grid? c.f.die c.g.grid).any (fun y => !y.jobs.isEmpty)

/-- A warp's task ends, once what it cost has been counted (R121, R398, R409). -/
def endTask (s : State) (c : Ctx) (t : W64) (flt : Option Nat) : Except AErr State := do
  let s := flushCost s c.f
  if jobsWait s c then throw (.busy .unit)
  let s ← taskEnd s c.f.die c.g.grid c.g.wgid t flt
  return s.modWarp c.f (fun w => { w with task := none, bound := none, issueCyc := 0 })

/-- A warp takes the head of its cluster's queue, or waits, or learns that nothing remains (R397, R409). -/
def takeTask (s : State) (c : Ctx) (d e : Opd) : State :=
  let s := runJobs s c.f.die c.g.grid
  match s.grid? c.f.die c.g.grid with
  | none => s
  | some y =>
    match readyHead y (c.f.core / 8) with
    | some r =>
      (match tcbWr s c.f.die r.tcb 42 1 2 with
        | .error (.busy h) => hold (noteHeld s h) c.f .task
        | res =>
          let s := orSame s res
          let s := s.modGrid c.f.die y.id (fun y => { y with ready := y.ready.filter (fun x => x.tcb != r.tcb) })
          let s := s.modWarp c.f (fun w =>
            { w with task := some r.tcb, bound := if r.key == badKey then none else some r.key, issueCyc := 0 })
          finish (launchPair (acquire s c.f .die) c d e r.tcb r.key) c.f 1)
    | none =>
      match tasksOver s c.f.die y with
      | .ok (s, true) => finish (launchPair s c d e 0 badKey) c.f 1
      | .ok (s, false) => hold s c.f .task
      | .error er => hold (er.note s) c.f .task

/-- `fetch.task` (R398, R409). -/
def execFetchTask (h : Hdr) (flt : Option Opd) (d e : Opd) (s : State) : Host.Outcome State Fault Refusal :=
  .next (uniOp h flt.toList (fun c s =>
    match s.grid? c.f.die c.g.grid with
    | none => illegal s c.f
    | some y =>
      if y.disp != 2 then illegal s c.f
      else if flt.isSome && c.w.task.isNone && c.p.wait != .task then illegal s c.f
      else
        match c.w.task with
        | none => takeTask s c d e
        | some t =>
          let s := runJobs s c.f.die c.g.grid
          if acqOut s c.p.uid || !released s c.f c.p.uid .die then holdRel s c.f
          else if jobsWait s c then hold s c.f .stall
          else
            match endTask s c t (flt.map (fun o => opVal s c true 0 ⟨o, 32, .int⟩)) with
            | .error (.busy h) => hold (noteHeld s h) c.f .stall
            | .error _ => takeTask (s.modWarp c.f (fun w => { w with task := none, bound := none })) c d e
            | .ok s => takeTask s c d e) s)

/-- A word on the TCB at kA: the misaligned trap, or the dispenser's step with its result (R411). -/
def tcbWord (h : Hdr) (d a : Opd) (act : State → Ctx → W64 → Except AErr (State × W64)) (bad : W64) (s : State) : State :=
  uniOp h [a] (fun c s =>
    let t : W64 := BitVec.ofNat 64 (kNat s c a)
    if t.toNat % 64 != 0 then trapAt s c.f 4 t
    else
      let s := runJobs s c.f.die c.g.grid
      if jobsWait s c then hold s c.f .stall
      else match act s c t with
      | .error (.busy h) => hold (noteHeld s h) c.f .stall
      | .error _ => finish (writeDst s c d 64 [0] [bad.toNat]) c.f 1
      | .ok (s, v) => finish (writeDst s c d 64 [0] [v.toNat]) c.f 1) s

/-- `trel` (R411). -/
def execTrel (h : Hdr) (d a : Opd) (s : State) : Host.Outcome State Fault Refusal :=
  .next (tcbWord h d a (fun s c t => do
    let (s, st) ← tcbRd s c.f.die t 42 1
    if st != 4 then return (s, 1)
    else
      let s ← tcbWr s c.f.die t 42 1 3
      let s ← runSuccs s c.f.die c.g.grid c.g.wgid t
      return (s, 0)) 1 s)

/-- The waiting tasks of a list (R411). -/
def waitingOf (d : Nat) : List W64 → State → Except AErr (State × List W64)
  | [], s => .ok (s, [])
  | t :: rest, s => do
    let (s, st) ← readOr s 3 (tcbRd s d t 42 1)
    let (s, l) ← waitingOf d rest s
    return (s, if st == 0 then t :: l else l)

/-- `tabn` (R411). -/
def execTabn (h : Hdr) (d a : Opd) (s : State) : Host.Outcome State Fault Refusal :=
  .next (tcbWord h d a (fun s c t => do
    let (s, st) ← tcbRd s c.f.die t 42 1
    if st != 4 then return (s, 0xFFFFFFFF)
    else
      let (s, reached) ← reachTasks c.f.die taskFuel [t] [] s
      let (s, armed) ← waitingOf c.f.die (reached.filter (· != t)) s
      let go : List W64 := t :: armed
      let s ← go.foldlM (fun (s : State) (x : W64) => tcbWr s c.f.die x 42 1 5) s
      return (s, BitVec.ofNat 64 go.length)) 0xFFFFFFFF s)

/-! ### Device-side launch and `join` (R400, R410) -/

/-- The grid of a device-side launch that still waits in the pending pool (R400). -/
def inPool (s : State) (y : Grid) : Bool :=
  match y.src with
  | .device id => !y.dispatched && s.cmds.any (fun c => c.id == id && c.st == .waiting)
  | _ => false

/-- `launch kD, kA` (R400, R410). -/
def execDeviceSideLaunch (h : Hdr) (d a : Opd) (s : State) : Host.Outcome State Fault Refusal :=
  .next (uniOp h [a] (fun c s =>
    let r : W64 := BitVec.ofNat 64 (kNat s c a)
    let full := ((s.die c.f.die).grids.filter (inPool s)).length ≥ 256
    let fail := if r.toNat % 64 != 0 then some 0x51 else if full then some 0x50 else none
    let id := s.nextId
    let s' := issueCmd s c d { fail := fail, kind := .launch r }
    if s'.cmds.length != s.cmds.length then
      let (gid, s') := s'.fresh
      s'.modDie c.f.die (fun x => { x with grids := x.grids ++ [{ id := gid, grec := r, src := .device id }] })
    else s') s)

/-- `join kD, kA` (R144, R410): a resolved status is read with the acquire of its command. -/
def execJoin (h : Hdr) (d a : Opd) (s : State) : Host.Outcome State Fault Refusal :=
  .next (rawOp h a (fun c s =>
    let i := kIdx a
    let s := progress s c.f
    let v := c.w.readK i
    if !c.w.kpend.getLsbD i then finish (s.modWarp c.f (fun w => w.writeK (kIdx d) v)) c.f 1
    else
      match handleStatus (c.core s) c.f.wg v with
      | none => hold s c.f .join
      | some st => finish ((acquireStatus s c.f v).modWarp c.f (fun w => (w.writeK i st).writeK (kIdx d) st)) c.f 1) s)

/-! ### Grids (R187, R243 to R250, R390, R391, R393, R400) -/

/-- The loaded image that holds a launch descriptor. -/
def imageOf (s : State) (d : Nat) (desc : W64) : Option Image :=
  (s.die d).images.find? (fun i => i.lo ≤ desc.toNat && desc.toNat < i.lo + i.n)

/-- The descriptor keeps its limits (R243, R250). -/
def descOk (b : List Byte) (img : Option Image) : Bool :=
  let u (o n : Nat) : Nat := fieldAt b o n
  let nslot := u 25 1
  let nwin := u 26 1
  let lay := match img with | some i => i.scratch.length | none => 0
  u 0 8 % 8 == 0 && u 8 8 % 8 == 0 && 1 ≤ u 16 8 && u 16 8 ≤ 2 ^ 32 &&
  1 ≤ u 24 1 && u 24 1 ≤ nslot && nslot ≤ 128 && 2 ≤ nwin && nwin ≤ 6 && u 27 1 ≤ 4 && u 28 2 ≤ 256 &&
  u 30 2 ≤ u 32 2 && u 32 2 ≤ 384 - 32 * u 27 1 && u 34 1 ≤ 16 && u 35 1 < 16 &&
  1 ≤ u 36 2 && u 36 2 ≤ 256 && 1 ≤ u 38 2 && u 38 2 ≤ 4096 && 1 ≤ u 40 1 &&
  u 56 2 % 256 == 0 && u 56 2 ≥ 160 * u 28 2 && u 56 2 + lay ≤ 1024 * u 30 2 && u 58 6 == 0 &&
  ceilDiv nslot 16 * (32 * (16 + 16 * nwin)) ≤ 12288

/-- A declared key space is created, with the declared attributes (R245, R250). -/
def declOk (s : State) (x : SpaceDecl) : Bool :=
  (Tab.get? s.spaces x.sp).any (fun y =>
    y.dim == x.dim && y.per.toNat == x.per && y.elems == x.elems && y.slot == x.slot)

/-- The key spaces that an image declares for the kernel of a launch descriptor are as declared (R250, R390). -/
def declsOk (s : State) (desc : Nat) (img : Option Image) : Bool :=
  img.all (fun i => (i.decls.filter (fun x => i.lo + 64 * x.kernel == desc)).all (declOk s))

/-- The record keeps its limits, whatever its dispenser (R390; log entry 53). -/
def recordOk (b : List Byte) : Bool :=
  let u (o n : Nat) : Nat := fieldAt b o n
  u 16 8 % 2 ^ 16 == 0 && 1 ≤ u 40 2 && u 40 2 ≤ 96 && 1 ≤ u 42 2 && u 42 2 < 4096 && u 44 1 ≤ 2 &&
  u 45 1 < 8 && u 46 2 < 4096 && 1 ≤ u 64 4 &&
  u 80 8 % 16 == 0 && u 92 4 == 0 && u 96 8 % 8 == 0 && u 112 8 == 0 && u 120 8 == 0

/-- A core may receive a workgroup (R393, R433). -/
def eligible (s : State) (d core : Nat) : Bool :=
  let c := s.core d core
  let sch := (s.die d).schctl.toNat
  let win := bitsOf sch 24 8 * 2 ^ 20
  !c.hot && c.fenced.isEmpty && (c.droops.filter (fun t => t + win > s.cycOf d core)).length ≤ bitsOf sch 32 8

/-- The cores of a cluster mask in walking order (R391). -/
def maskCores (clm : BitVec 12) : List Nat :=
  (idxWhere 12 (fun i => clm.getLsbD i)).flatMap (fun c => (List.range 8).map (8 * c + ·))

/-- A core holds a workgroup, resident or not. -/
def coreHolds (s : State) (d core : Nat) : Bool := (s.die d).wgs.any (fun (e : Nat × Wg) => e.2.core == core && !e.2.exited)

/-- The cores of P workgroups, in order, and the cores to be reconfigured; `none` while the launch must wait (R391). -/
def placeAll (s : State) (d P carve : Nat) (clm : BitVec 12) : Option (List Nat × List Nat) :=
  let cs := maskCores clm
  let fits (c : Nat) : Bool := (s.core d c).carve == carve
  let first := (cs.filter (fun c => eligible s d c && fits c)).take P
  let more := (cs.filter (fun c => eligible s d c && !fits c && !coreHolds s d c)).take (P - first.length)
  let got := first ++ more
  if got.length = P then some (got, more)
  else
    let same := cs.filter (fun c => fits c || more.contains c)
    let hold := same.filter (fun c => got.contains c || coreHolds s d c)
    let rest := if hold.isEmpty then same else hold
    if rest.isEmpty then none
    else some (got ++ (List.range (P - got.length)).map (fun i => (rest[i % rest.length]?).getD 0), more)

/-- The first tag that no workgroup of the die has. -/
def freshTag (x : Die) : Nat := ((List.range (x.wgs.length + 1)).find? (fun t => (Tab.get? x.wgs t).isNone)).getD 0

/-- A workgroup as its descriptor and record give it, not yet resident (R187, R208, R243, R390). -/
def newWg (y : Grid) (b rec_ : List Byte) (kimg : List W64) (wgid core : Nat) : Wg :=
  let u (o n : Nat) : Nat := fieldAt b o n
  let r (o n : Nat) : W64 := BitVec.ofNat 64 (fieldAt rec_ o n)
  { grid := y.id, wgid := wgid, core := core, resident := false, started := false, nwarp := u 24 1, nslot := u 25 1
    spawnCap := u 28 2, conv := bitAt (u 35 1) 0, ftz := bitAt (u 35 1) 1, precise := bitAt (u 35 1) 2
    privcl := bitAt (u 35 1) 3, wlim := BitVec.ofNat 64 (u 16 8), trapv := BitVec.ofNat 64 (u 8 8)
    entry := BitVec.ofNat 64 (u 0 8), mlease := u 36 2, please := u 38 2, nwinFull := u 26 1, bandsFull := u 34 1
    prol := u 30 2, full := u 32 2, carve := u 27 1, bstoreBase := r 16 8, stride := u 40 1, spov := r 24 8, ctx := r 32 8
    kimg := kimg, splen := 1024 * u 30 2, queues := List.replicate 16 {}, bars := List.replicate 4 {} }

/-- The warps of a starting workgroup (R187, R194). -/
def startWarps (g : Wg) : Nat → Nat → State → Tab Warp → Tab Warp × State
  | 0, _, s, acc => (acc, s)
  | n + 1, w, s, acc =>
    let (uid, s) := s.fresh
    let warp : Warp :=
      { s0 := { occ := true, uid := uid, pc := g.entry, am := 0xFFFFFFFF }, wuid := uid
        thr := (List.range 32).map (fun i => { tid := 32 * w + i, live := true }), k := kOfImage g.kimg, area := w }
    startWarps g n (w + 1) s (acc ++ [(w, warp)])

/-- A workgroup that has not run becomes resident, where there is room: the loader's scratch layout is in place (R62, R187, R244,
R391). -/
def startWg (s : State) (d t : Nat) : State :=
  match s.wg? d t with
  | none => s
  | some g =>
    match pickOf s (spbases s d g.core g) with
    | (none, s) => s
    | (some sp, s1) =>
      if g.started || !lanesFit ((g.nslot, 2) :: laneUse (residents s d g.core)) then s
      else
        let (ws, s) := startWarps g g.nwarp 0 s1 []
        let s := s.modWg d t (fun g => { g with started := true, resident := true, since := s.clock, spbase := sp, warps := ws })
        match (s.grid? d g.grid).bind (fun y => (imageOf s d (BitVec.ofNat 64 (fieldAt y.desc 64 8))).map (fun i => (y, i))) with
        | some (y, i) => s.modCore d g.core (fun c => scrWrite c (sp + fieldAt y.desc 56 2) i.scratch)
        | none => s

/-- A launch has failed with a status (R390, R400, R455). -/
def launchFails (s : State) (d : Nat) (y : Grid) (st : W64) : State :=
  let s := s.modDie d (fun x => { x with grids := x.grids.filter (fun z => z.id != y.id) })
  let s := match y.span with
    | some n => { s with spanWait := s.spanWait.filter (fun e => e != (n, d)) }
    | none => s
  match y.src with
  | .packet q tag rd => if q < 64 then packetEnds s d q 7 tag rd st else s
  | .device id => (match s.cmd? id with | some c => endCmd s c st | none => s)

/-- The task list of a record, and its ready tasks in their queues (R397). -/
def loadTasks (s : State) (d : Nat) (y : Grid) : State := addJobs s d y.id (y.tlist.map .look)

/-- Reads what a dispatch needs: the record, the k image, the descriptor, the task list (R21, R390, R397). -/
def readLaunch (s : State) (d : Nat) (grec : W64) : Except AErr (State × List Byte × List Byte × List Byte × List Byte) := do
  let a : Agent := { die := d }
  let (s, r, p) ← vread s a grec.toNat 128
  let (s, k, p') ← vread s a (fieldAt r 8 8) 248
  let (s, b, p'') ← vread s a (fieldAt r 0 8) 64
  let (s, l, _) ← if fieldAt r 44 1 == 2 then vread s a (fieldAt r 72 8) (8 * fieldAt r 68 4) else .ok (s, [], false)
  if p || p' || p'' then throw .right else return (s, r, k, b, l)

/-- Places the workgroups of a grid and starts those that have room (R391). -/
def placeWgs (d : Nat) (y : Grid) (b r : List Byte) (kimg : List W64) : List (Nat × Nat) → State → State
  | [], s => s
  | (w, core) :: rest, s =>
    let t := freshTag (s.die d)
    let s := s.modDie d (fun x => { x with wgs := Tab.set x.wgs t (newWg y b r kimg w core) })
    let s := s.modGrid d y.id (fun z => { z with wgs := z.wgs ++ [t] })
    let s := s.modCore d core (fun c => { c with icache := [] })
    placeWgs d y b r kimg rest (startWg s d t)

/-- The channels of a descriptor (R316, R240, R245). -/
def chansOf (b : List Byte) (img : Option Image) : Tab Chan :=
  match img with
  | none => []
  | some i => ((i.chans.drop (fieldAt b 42 2)).take (fieldAt b 41 1)).foldl
      (fun (t : Tab Chan) (x : ChanDecl) => Tab.set t x.id { cap := x.slots, prod := x.prod, cons := x.cons }) []

/-- A valid launch is dispatched (R390, R391, R394, R395, R397). -/
def dispatchGrid (s : State) (d : Nat) (y : Grid) (r k b l : List Byte) (cores more : List Nat) : State :=
  let u (o n : Nat) : Nat := fieldAt r o n
  let img := imageOf s d (BitVec.ofNat 64 (u 0 8))
  let sch := match img with | some i => (i.sch.drop (fieldAt b 48 2)).take (fieldAt b 50 2) | none => []
  let mode : BitVec 2 := BitVec.ofNat 2 (s.die d).schctl.toNat
  let (nidx, ibase) : Nat × W64 := match y.base? with
    | some (n, ba) => (n.toNat, ba)
    | none => (u 48 8, BitVec.ofNat 64 (u 56 8))
  let y : Grid :=
    { y with dispatched := true, desc := b ++ leBytes 8 (u 0 8), P := u 40 2, disp := u 44 1
             cstk := u 45 1, ctr := u 46 2, nidx := nidx, ibase := ibase, minch := u 64 4
             tlist := if u 44 1 == 2 then (List.range (u 68 4)).map (fun i => BitVec.ofNat 64 (fieldAt l (8 * i) 8)) else []
             flist := BitVec.ofNat 64 (u 80 8), flcap := u 88 4, sig := BitVec.ofNat 64 (u 96 8)
             sigv := BitVec.ofNat 64 (u 104 8), mode := mode, chans := chansOf b img, sch := sch, phase := 0 }
  let cur := if y.disp == 1 && mode != 0 then (phaseTabs y 0).head? else none
  let y := { y with curTab := cur, hadTab := cur.isSome }
  let s := s.modGrid d y.id (fun _ => y)
  let s := match y.span with
    | some n => { s with spanWait := s.spanWait.filter (fun e => e != (n, d)) }
    | none => s
  let s := match y.src with
    | .device id => s.modCmd id (fun c => { c with st := .running })
    | _ => s
  let s := s.modStk y.cstk (fun x => { x with counters := Tab.put x.counters y.ctr 0 0 })
  let s := more.foldl (fun (s : State) (c : Nat) => s.modCore d c (fun x => { x with carve := fieldAt b 27 1, l1 := [] })) s
  let kimg := (List.range 31).map (fun i => BitVec.ofNat 64 (fieldAt k (8 * i) 8))
  let s := placeWgs d y b r kimg ((List.range y.P).zip cores) s
  if y.disp == 2 then loadTasks s d y else s

/-- An entry of the pending pool entered before it still waits (R400). -/
def poolBefore (s : State) (d : Nat) (y : Grid) : Bool :=
  inPool s y && ((s.die d).grids.takeWhile (fun z => z.id != y.id)).any (inPool s)

/-- `GRID_DISPATCH`: the beater takes the `ix`-th launch of the die that has not been dispatched (R390, R391, R400, R423). -/
def execGridDispatch (die ix : Nat) (s : State) : Host.Outcome State Fault Refusal :=
  .next (match ((s.die die).grids.filter (fun y => !y.dispatched))[ix]? with
    | none => s
    | some y =>
      let gone := match y.src with | .device _ => !inPool s y | _ => false
      if gone then s.modDie die (fun x => { x with grids := x.grids.filter (fun z => z.id != y.id) })
      else if poolBefore s die y then s
      else
        match readLaunch s die y.grec with
        | .error (.busy h) => noteHeld s h
        | .error _ => launchFails s die y 0x51
        | .ok (s, r, k, b, l) =>
          let img := imageOf s die (BitVec.ofNat 64 (fieldAt r 0 8))
          let room := (s.die die).csz.toNat * 65536 ≥ 4096 + 8192 * fieldAt b 25 1
          if y.grec.toNat % 64 != 0 || !recordOk r || !descOk b img || !declsOk s (fieldAt r 0 8) img || !room then launchFails s die y 0x51
          else
            match placeAll s die (fieldAt r 40 2) (fieldAt b 27 1) (BitVec.ofNat 12 (fieldAt r 42 2)) with
            | none => s
            | some (cores, more) => dispatchGrid s die y r k b l cores more)

/-- A write of a grid's threads has not been performed and acknowledged, which the completion signal, a release at `.sys`, waits for (R288, R390). -/
def gridWrites (s : State) (d : Nat) (y : Grid) : Bool :=
  s.accs.any (fun a => a.frag.die == d && y.wgs.contains a.frag.wg && a.kind.writes && (match a.st with | .done | .bad _ _ => false | _ => true))

/-- Nothing of a grid is left to do (R390). -/
def gridOver (s : State) (d : Nat) (y : Grid) : Bool :=
  y.dispatched && y.jobs.isEmpty && !gridWrites s d y &&
  y.wgs.all (fun t => (s.wg? d t).all (fun g => g.exited)) &&
  s.cmds.all (fun c => !(c.die == d && c.core < 96 && y.wgs.contains c.wg) ||
    (match c.kind with | .launch _ => c.st != .waiting | _ => false))

/-- An atomic of the beater on an 8-byte word at its home, a release at `.sys` (R34, R161, R387, R390). The host's completer may refuse
one that names host memory. -/
def homeAtomic (s : State) (d va : Nat) (f : Nat → Nat) : Except AErr State := do
  let (s, p) ← xlat s d va .at
  match reach s { die := d } va p with
  | some e => throw e
  | none =>
    let s := letGo s (.die d) va
    if p.al then throw .noAlias
    else if isPois s p.pa 8 then throw .right
    else if inHost p.pa && Config.freeBool s.freeIx then throw .right
    else
      let s := if inHost p.pa then { s with freeIx := s.freeIx + 1 } else s
      return signalSet (wrN s p.pa 8 (f (rdN s p.pa 8) % 2 ^ 64)) p.pa

/-- `GRID_COMPLETE`: the signal is raised, the packet or the handle is answered, and the record is posted, with the tag of its packet (R385, R387, R390, R400, R453;
log entry 79). -/
def execGridComplete (die grid : Nat) (s : State) : Host.Outcome State Fault Refusal :=
  .next (
    let s := runJobs s die grid
    match s.grid? die grid with
    | none => s
    | some y =>
      if !gridOver s die y then s
      else
        let sig : Except AErr State :=
          if y.sig == 0 then .ok s
          else homeAtomic s die y.sig.toNat (fun v => v + y.sigv.toNat)
        match sig with
        | .error (.busy h) => noteHeld s h
        | res =>
          let s := orSame { s with freeIx := s.freeIx + 1 } res
          let s := s.modDie die (fun x =>
            { x with grids := x.grids.filter (fun z => z.id != grid), wgs := x.wgs.filter (fun (e : Nat × Wg) => !y.wgs.contains e.1) })
          let tag : W32 := match y.src with | .packet _ tag _ => tag | .device _ => 0
          let s := postEvent s die (evRecord 7 die 0xFFFF 0xFF 0xFF 0 tag 0 y.grec (y.mode.zeroExtend 64) (s.cyc die))
          match y.src with
          | .packet q tag rd => if q < 64 then packetEnds s die q 7 tag rd 0 else s
          | .device id => (match s.cmd? id with | some c => endCmd s c 0 | none => s))

end Sys2Proof.Machine
end

