-- ==== Sys2Proof/Machine/System.lean ====
section
/-! DEFINITION. Trap and system instructions, opcodes 0xE0 to 0xE5, and pre-emption, rotation, swap-out and restore (07 R195, R210;
17 R403, R404; 18 R413 to R429, R435, R436). -/

namespace Sys2Proof.Machine

/-! ### Traps (R413 to R418, R435, R436) -/

/-- `trap n` (R436). -/
def execTrap (h : Hdr) (n : BitVec 16) (s : State) : Host.Outcome State Fault Refusal :=
  .next (uniOp h [] (fun c s => takeTrap s c.f 0x20 (n.zeroExtend 64) (c.p.pc + 8) false true) s)

/-- `brk n`: halts the die under `bkh`, or traps (R429, R436). -/
def execBrk (h : Hdr) (n : BitVec 16) (s : State) : Host.Outcome State Fault Refusal :=
  .next (uniOp h [] (fun c s =>
    if (s.die c.f.die).bkh then (finish s c.f 1).modDie c.f.die (fun x => { x with halt := true })
    else takeTrap s c.f 0x19 (n.zeroExtend 64) (c.p.pc + 8) false true) s)

/-- `tret` (R416, R419, R436). -/
def execTret (h : Hdr) (s : State) : Host.Outcome State Fault Refusal :=
  .next (uniOp h [] (fun c s =>
    if !c.p.inH then illegal s c.f else trapReturn (spend s c.f 1) c.f none) s)

/-- `tret.to kA` (R436): a misaligned target traps while traps are still masked. -/
def execTretTo (h : Hdr) (a : Opd) (s : State) : Host.Outcome State Fault Refusal :=
  .next (uniOp h [a] (fun c s =>
    let t : W64 := BitVec.ofNat 64 (kNat s c a)
    if !c.p.inH then illegal s c.f
    else indirect s c t (fun s => trapReturn (spend s c.f 1) c.f (some (BitVec.ofNat 64 (bitsOf t.toNat 3 54 * 8))))) s)

/-- `tmsk.m` (R436). -/
def execTmskM (h : Hdr) (s : State) : Host.Outcome State Fault Refusal :=
  .next (uniOp h [] (fun c s => finish (s.modFrag c.f (fun p => { p with masked := true })) c.f 1) s)

/-- `tmsk.u` (R436). -/
def execTmskU (h : Hdr) (s : State) : Host.Outcome State Fault Refusal :=
  .next (uniOp h [] (fun c s => finish (s.modFrag c.f (fun p => { p with masked := false })) c.f 1) s)

/-- `pmsk.d` (R420, R436). -/
def execPmskD (h : Hdr) (s : State) : Host.Outcome State Fault Refusal :=
  .next (uniOp h [] (fun c s => finish (s.modFrag c.f (fun p => { p with pdef := true })) c.f 1) s)

/-- `pmsk.a` (R420, R436). -/
def execPmskA (h : Hdr) (s : State) : Host.Outcome State Fault Refusal :=
  .next (uniOp h [] (fun c s => finish (s.modFrag c.f (fun p => { p with pdef := false })) c.f 1) s)

/-- `evnt kA, n` (R436, R453). -/
def execEvnt (h : Hdr) (a : Opd) (n : BitVec 16) (s : State) : Host.Outcome State Fault Refusal :=
  .next (uniOp h [a] (fun c s =>
    let r := evRecord 6 c.f.die c.f.core (c.f.warp % 16) 0xFF n.toNat 0 c.g.wgid (BitVec.ofNat 64 (kNat s c a)) 0 (s.cycOf c.f.die c.f.core)
    finish (postEvent s c.f.die r) c.f 1) s)

/-! ### The slot block and the workgroup block (R426) -/

/-- The 80 bytes of a slot. -/
def slotBytes (p : Frag) : List Byte :=
  if !p.occ then zeros 80
  else
    let b (x : Bool) (v : Nat) : Nat := if x then v else 0
    leBytes 8 p.pc.toNat ++ leBytes 4 p.am.toNat ++ leBytes 4 p.sm.toNat ++ leBytes 4 p.fragid.toNat ++ leBytes 4 p.parentid.toNat ++
    leBytes 4 p.lcnt.toNat ++ leBytes 1 p.turn ++ leBytes 1 p.rsz ++
    leBytes 1 (1 + b (p.wait == .jn) 2 + b p.masked 4 + b p.pdef 8 + b p.inH 16 + b p.sys 32) ++ zeros 1 ++
    leBytes 8 p.wdc.toNat ++ leBytes 8 p.regionpc.toNat ++ leBytes 4 p.regioncnt.toNat ++
    leBytes 4 (if p.rplOn then p.rpl.toNat else 0) ++ leBytes 8 p.trapcause.toNat ++ leBytes 8 p.trapinfo.toNat ++ zeros 8

/-- A slot read back, its pc a multiple of 8 (R211), out of system mode (R436); what the block does not hold comes from the slot as it stopped (log entry 14). -/
def slotFrom (b : List Byte) (sv : Frag) : Frag :=
  let u (o n : Nat) : Nat := fieldAt b o n
  let fl := u 30 1
  let rpl : W32 := BitVec.ofNat 32 (u 52 4)
  if !bitAt fl 0 then {}
  else
    { occ := true, uid := sv.uid, seq := sv.seq, lastIssue := sv.lastIssue, pc := BitVec.ofNat 64 (u 0 8 / 8 * 8), am := BitVec.ofNat 32 (u 8 4)
      sm := BitVec.ofNat 32 (u 12 4), fragid := BitVec.ofNat 32 (u 16 4), parentid := BitVec.ofNat 32 (u 20 4)
      lcnt := BitVec.ofNat 32 (u 24 4), turn := u 28 1, rsz := u 29 1, masked := bitAt fl 2, pdef := bitAt fl 3
      inH := bitAt fl 4, sys := false, wdc := BitVec.ofNat 64 (u 32 8), regionpc := BitVec.ofNat 64 (u 40 8)
      regioncnt := BitVec.ofNat 32 (u 48 4), rpl := rpl, rplOn := rpl != 0, trapcause := BitVec.ofNat 64 (u 56 8)
      trapinfo := BitVec.ofNat 64 (u 64 8), fault := sv.fault, wdt := sv.wdt, wdHeld := sv.wdHeld
      wait := if bitAt fl 1 then .jn
        else (match if sv.kept == .none then sv.wait else sv.kept with | .task => .task | .popDead q => .popDead q | _ => .none) }

/-- The slot block of a warp: 192 bytes. -/
def warpBytes (w : Warp) : List Byte :=
  slotBytes w.s0 ++ slotBytes w.s1 ++ leBytes 4 w.srix.toNat ++ leBytes 1 w.fpstat.toNat ++ zeros 3 ++
  leBytes 8 (w.fills.toNat * 2 ^ 32 + w.spills.toNat) ++ leBytes 8 (w.readK 31).toNat ++ leBytes 4 w.kpend.toNat ++ zeros 4

/-- The workgroup block: 4,096 bytes. -/
def wgBytes (g : Wg) : List Byte :=
  let q (i : Nat) : List Byte :=
    let x := g.queue i
    leBytes 1 x.port ++ zeros 3 ++ leBytes 4 x.ring ++ leBytes 4 x.head ++ leBytes 4 x.tail
  let z := g.slv
  let bool (x : Bool) : List Byte := [if x then 1 else 0]
  (List.range 16).flatMap q ++ (if z.opened then bytesAt z.desc 0 64 else zeros 64) ++
  bool z.opened ++ leBytes 1 z.m ++ bool z.exc ++ zeros 1 ++ leBytes 4 z.k ++ leBytes 8 z.tau.toNat ++
  leBytes 8 g.slvk.toNat ++ leBytes 8 g.slvnorm.toNat ++ leBytes 8 (allotWord g).toNat ++
  (List.range 4).flatMap (fun i =>
    let b := g.bar i
    if b.arrived.isEmpty then zeros 2 else leBytes 1 b.inst ++ leBytes 1 b.arrived.length) ++
  zeros 3728

/-- The allotment that a word of `allot` names (R208). -/
def allotFrom (x : Nat) (g : Wg) : Wg :=
  { g with bands := BitVec.ofNat 16 (bitsOf x 8 16), nwin := bitsOf x 5 3, acqPend := bitAt x 4, fullHeld := bitAt x 0
           splen := 1024 * (if bitAt x 0 then g.full else g.prol) }

/-- A barrier scope with the instance number and the number of arrivals that its two bytes name (R426; log entry 58). -/
def barFrom (inst cnt : Nat) (b : BarSt) : BarSt :=
  if cnt = 0 then { b with arrived := [] } else { b with inst := b.inst / 256 * 256 + inst, arrived := b.arrived.take cnt }

/-- A workgroup with the state that its block holds: queues, the solve region, `slvk` and `slvnorm`, the allotment, the barriers (R425, R426). -/
def wgFrom (b : List Byte) (g : Wg) : Wg :=
  let u (o n : Nat) : Nat := fieldAt b o n
  { allotFrom (u 352 8) g with
    queues := (List.range 16).map (fun i =>
      { port := u (16 * i) 1, ring := u (16 * i + 4) 4, head := u (16 * i + 8) 4, tail := u (16 * i + 12) 4, faulted := (g.queue i).faulted })
    bars := (List.range 4).map (fun i => barFrom (u (360 + 2 * i) 1) (u (361 + 2 * i) 1) (g.bar i))
    slvk := BitVec.ofNat 64 (u 336 8), slvnorm := BitVec.ofNat 64 (u 344 8)
    slv := { g.slv with opened := u 320 1 == 1, m := u 321 1, exc := u 322 1 == 1, k := u 324 4, tau := BitVec.ofNat 64 (u 328 8)
                        desc := bytesAt b 256 64 } }

/-! ### Requests and the entry of the handler (R420 to R424) -/

/-- `PREEMPTION_REQUEST`: a request that is due stops the workgroup's slots from now on (R420). -/
def execPreemptionRequest (die core wg : Nat) (s : State) : Host.Outcome State Fault Refusal :=
  .next (match s.wg? die wg with
    | none => s
    | some g =>
      if !(s.die die).preWant.contains wg || g.core != core then s
      else
        let s := s.modDie die (fun x => { x with preWant := x.preWant.filter (· != wg) })
        if !g.resident || g.exited || g.preReq then s
        else s.modWg die wg (fun g => { g with preReq := true, preAt := s.cycOf die core, preOver := false }))

/-- A slot has stopped with every access that its fragment issued complete (R139, R420). -/
def slotStopped (s : State) (p : Frag) : Bool :=
  !p.occ || ((p.stopped || p.wait.parked) && !p.defers && s.accs.all (fun a => a.uid != p.uid || a.kind.isPref))

/-- The address of the workgroup block (R426). -/
def wgArea (s : State) (d : Nat) (g : Wg) : Nat := (g.ctx + BitVec.ofNat 64 (g.wgid * (s.die d).csz.toNat * 65536)).toNat

/-- `PREEMPTION_HANDLER_ENTRY`: a stopped warp spills its older windows, writes its blocks and starts the handler; the lowest warp comes
last, and with it the workgroup has entered (R201, R378, R420 to R422). A halted die enters no handler (R429). -/
def execPreemptionHandlerEntry (die core wg warp : Nat) (s : State) : Host.Outcome State Fault Refusal :=
  .next (
    let f : FragRef := ⟨die, core, wg, warp, false⟩
    match s.wgOf? f, s.warp? f with
    | some g, some w =>
      let last := g.preReq && (Tab.keys g.warps).all (fun i => warp ≤ i)
      if (s.die die).halt || !g.resident || !(g.preReq || w.preW) || w.entered || w.swapped || !slotStopped s w.s0 || !slotStopped s w.s1 ||
          engOut s f || (s.core die core).calQ.contains wg ||
          (last && g.warps.any (fun e => e.1 != warp && !e.2.entered && !e.2.swapped)) then s
      else
        let ag : Agent := { die := die, core := some core, l1 := true, holds := g.fwalk, who := .frag w.wuid 0 }
        let ix := saveArea g warp
        let area := warpArea s die g ix
        let done : Except AErr State := do
          let s ← (idxWhere 32 (fun i => (w.thread i).live)).foldlM (fun (s : State) (t : Nat) => spillOld s f t 1) s
          let w := (s.warp? f).getD w
          let s ← vwrite s ag area.toNat (warpBytes w)
          if last then vwrite s ag (wgArea s die g) (wgBytes g) else pure s
        match done with
        | .error (.busy h) => (noteHeld s h).modWg die wg (fun g => { g with fwalk := h == .page })
        | .error _ => s
        | .ok s =>
          let (uid, s) := s.fresh
          let s := [w.s0, w.s1].foldl (fun (s : State) (p : Frag) => if p.occ then dropWatch s f p.uid else s) s
          let s := s.modWarp f (fun w => { w with sv0 := w.s0, sv1 := w.s1, area := ix }.inHandler uid (s.die die).vec area)
          let s := s.modWgOf f (fun g =>
            { g with slv := { g.slv with arr := g.slv.arr.filter (fun a => a.warp != warp) }, preReq := g.preReq && !last, fwalk := false })
          if last then
            let s := s.modCore die core (fun c =>
              { c with mxLease := { c.mxLease with waiters := c.mxLease.waiters.filter (· != wg) }
                       puLease := { c.puLease with waiters := c.puLease.waiters.filter (· != wg) } })
            s.modDie die (fun x => { x with leaveQ := x.leaveQ.filter (fun r =>
              match r.1 with
              | .pulp k t | .matrix k t => !(k == core && t == wg)
              | _ => true) })
          else s
    | _, _ => s)

/-- `PREEMPTION_OVERDUE` (R424, R453). -/
def execPreemptionOverdue (die core wg : Nat) (s : State) : Host.Outcome State Fault Refusal :=
  .next (match s.wg? die wg with
    | none => s
    | some g =>
      let dl := (s.die die).dl
      if (s.die die).halt || g.core != core || !g.preReq || g.preOver || s.cycOf die core < g.preAt + dl.toNat then s
      else
        postEvent (s.modWg die wg (fun g => { g with preOver := true })) die
          (evRecord 4 die core 0xFF 0xFF 0 0 g.wgid (dl.zeroExtend 64) 0 (s.cyc die)))

/-! ### `tret.ctx` (R421, R422, R425, R427, R436) -/

/-- `tret.ctx kA`: reloads the slot block and resumes both slots, with an acquire at `.die`. The reload of `fpstat` drops a flag that a running command of the warp has
set since its block was saved (log entry 109). -/
def execTretCtx (h : Hdr) (a : Opd) (s : State) : Host.Outcome State Fault Refusal :=
  .next (uniOp h [a] (fun c s =>
    let at_ := kNat s c a
    if !c.p.sys then illegal s c.f
    else if resultsOut s c.p.uid then hold s c.f .marker
    else if ownHeld s c.f c.p.uid at_ 192 false then hold s c.f .stall
    else
      match vread s (ownAgent s c.f) at_ 192 with
      | .error (.busy h) => holdFor s c.f h
      | .error e => faultNow s c.f e.cause at_
      | .ok (s, b, _) =>
        let s := (spend s c.f 1).modWarp c.f (fun w =>
          let w := w.writeK 31 (BitVec.ofNat 64 (fieldAt b 176 8))
          { w with s0 := slotFrom (bytesAt b 0 80) w.sv0, s1 := slotFrom (bytesAt b 80 80) w.sv1, sv0 := {}, sv1 := {}
                   srix := BitVec.ofNat 32 (fieldAt b 160 4), fpstat := BitVec.ofNat 5 (fieldAt b 164 1)
                   spills := BitVec.ofNat 32 (fieldAt b 168 4), fills := BitVec.ofNat 32 (fieldAt b 172 4)
                   kpend := BitVec.ofNat 32 (fieldAt b 184 4) &&& ~~~(1 : W32), entered := false, swapped := false })
        let s := s.modWgOf c.f (fun g => { g with restoring := g.restoring && g.warps.any (fun e => e.2.entered) })
        acquire s c.f .die) s)

/-! ### The former's swap-out (R195) -/

/-- A warp is parked in a barrier or in `waita`: a fragment of it, and the other likewise, or free, or waiting at `jn` for it (R190, R195). -/
def barParked (w : Warp) : Bool :=
  let p (fr : Frag) : Bool := fr.occ && (match fr.wait with | .bar _ | .waita => true | _ => false)
  let q (fr : Frag) : Bool := !fr.occ || p fr || fr.wait == .jn
  (p w.s0 || p w.s1) && q w.s0 && q w.s1

/-- When a warp was parked: the later of its fragments. -/
def Warp.since (w : Warp) : Nat := w.parkedAt

/-- `FORMER_SWAP_OUT`: records wait and no slot is free, so the warp parked longest is asked to leave (R195, R420). -/
def execFormerSwapOut (die core wg : Nat) (s : State) : Host.Outcome State Fault Refusal :=
  .next (match s.wg? die wg with
    | none => s
    | some g =>
      if g.core != core || !g.resident || (freeSlot g).isSome || g.bins.all (fun b => b.recs.isEmpty) ||
          g.warps.any (fun e => e.2.preW || e.2.entered) || g.preReq then s
      else
        match (sortBy (fun (a b : Nat × Warp) => decide (a.2.parkedAt < b.2.parkedAt)) (g.warps.filter (fun e => barParked e.2))).head? with
        | some (i, _) => s.modWg die wg (fun g => { g with warps := Tab.modify g.warps i (fun w => { w with preW := true }) })
        | none => s)

/-! ### Rotation and restore (R139, R210, R403, R404, R425) -/

/-- Every warp of the workgroup is parked (R210). -/
def allParked (g : Wg) : Bool :=
  g.warps.all (fun e => (!e.2.s0.occ || e.2.s0.wait.parked) && (!e.2.s1.occ || e.2.s1.wait.parked))

/-- The order in which a core takes victims (R210). -/
def victimLt (a b : Nat × Wg) : Bool :=
  (allParked a.2 && !allParked b.2) || (allParked a.2 == allParked b.2 && a.2.since < b.2.since)

/-- The place of a waiting workgroup in a core's order (R404): swapped out by an earlier rotation, not yet resident, or swapped out by the last rotation. -/
def rotClass (rot : Nat) (g : Wg) : Nat := if !g.started then 1 else if g.outRot == rot && rot != 0 then 2 else 0

/-- The order in which a core that has made `rot` rotations brings workgroups in (R404). -/
def incomingLt (rot : Nat) (a b : Nat × Wg) : Bool :=
  let x := rotClass rot a.2
  let y := rotClass rot b.2
  x < y || (x == y &&
    (if a.2.started then a.2.outSeq < b.2.outSeq
     else a.2.grid < b.2.grid || (a.2.grid == b.2.grid && a.2.wgid < b.2.wgid)))

/-- The workgroups that wait for a core, in the order of R404. -/
def incoming (s : State) (d core : Nat) : List (Nat × Wg) :=
  sortBy (incomingLt (s.core d core).rotNo) ((s.die d).wgs.filter (fun (e : Nat × Wg) => e.2.core == core && !e.2.resident && !e.2.exited))

/-- A rotation of a core asks victims to leave (R210, R404). -/
def rotateOut (s : State) (d core : Nat) (ts : List Nat) : State :=
  let n := (s.core d core).rotNo + 1
  let now := s.cycOf d core
  (s.modCore d core (fun c => { c with rotWant := false, lastRot := now, rotNo := n })).modDie d (fun x =>
    { x with preWant := x.preWant ++ ts
             wgs := x.wgs.map (fun e => if ts.contains e.1 then (e.1, { e.2 with outRot := n }) else e) })

/-- Every resident workgroup is parked, and one of them waits for an allotment or a lease that another may hold (R210). -/
def coreStuck (rs : List (Nat × Wg)) : Bool :=
  let waits (p : Frag) : Bool := p.occ && (p.wait == .acq || p.wait == .mxLease || p.wait == .puLease)
  rs.length ≥ 2 && rs.all (fun e => allParked e.2) && rs.any (fun e => e.2.warps.any (fun w => waits w.2.s0 || waits w.2.s1))

/-- `ROTATION`: every 2^20 cycles while workgroups wait or the core is stuck, or on a fence, victims are asked to leave; a workgroup that has not yet run
comes in where it is next and has room (R210, R404, R433). -/
def execRotation (die core : Nat) (s : State) : Host.Outcome State Fault Refusal :=
  .next (
    let c := s.core die core
    let wait := incoming s die core
    let vs := sortBy victimLt ((residents s die core).filter (fun (e : Nat × Wg) => !e.2.preReq))
    if c.rotWant then rotateOut s die core (vs.map (·.1))
    else if (!wait.isEmpty || coreStuck (residents s die core)) && !vs.isEmpty && s.cycOf die core ≥ c.lastRot + 2 ^ 20 then
      let (n, s) := s.takeNat (min wait.length vs.length)
      rotateOut s die core ((vs.take (n + 1)).map (·.1))
    else
      match wait with
      | (t, g) :: _ => if g.started then s else startWg s die t
      | [] => s)

/-- The workgroup may be restored on the core (R404, R425). -/
def mayRestore (s : State) (d core t : Nat) (g : Wg) : Bool :=
  let rs := residents s d core
  let old := s.core d g.core
  let stay := old.handles.any (fun (e : Nat × HEnt) => e.2.used && e.2.tag == t) ||
    (g.slv.opened && old.locks.any (fun l => l.cmd == g.slv.lockId)) ||
    s.cmds.any (fun k => k.die == d && k.core == g.core && k.wg == t && old.locks.any (fun l => l.cmd == k.id))
  !g.exited && g.started && !g.resident && (s.core d core).carve == g.carve && bandsHeld rs &&& g.bands == 0 &&
  lanesFit ((g.nslot, g.nwin) :: laneUse rs) && bytesFree rs g.spbase g.splen && g.spbase + g.splen ≤ scrEnd (s.core d core) &&
  (if core == g.core then ((incoming s d core).head?).any (fun e => e.1 == t)
   else !stay && eligible s d core && (incoming s d core).isEmpty && (!g.privcl || core / 8 == g.core / 8))

/-- Pending records in ascending address, binned again (R425). -/
def rebin (g : Wg) (now : Nat) : Wg :=
  let rs := g.bins.flatMap (fun b => b.recs.map (fun r => (b, r.2)))
  let rs := sortBy (fun (a b : Bin × SpawnRec) => (a.2.inScr && !b.2.inScr) || (a.2.inScr == b.2.inScr && a.2.addr < b.2.addr)) rs
  rs.foldl (fun (g : Wg) (x : Bin × SpawnRec) =>
    { g with bins := binAdd g.bins { lcnt := x.1.lcnt, turn := x.1.turn, rsz := x.1.rsz } x.1.pc g.recSeq now x.2, recSeq := g.recSeq + 1 })
    { g with bins := [] }

/-- `WORKGROUP_RESTORE`: the workgroup block is reloaded, the records are binned again, and every warp starts at the restore entry
(R139, R425). -/
def execWorkgroupRestore (die core wg : Nat) (s : State) : Host.Outcome State Fault Refusal :=
  .next (match s.wg? die wg with
    | none => s
    | some g =>
      if (s.die die).halt || !mayRestore s die core wg g then s
      else
        match vread s { die := die, core := some core, holds := g.fwalk, who := .former die wg } (wgArea s die g) 368 with
        | .error (.busy h) => (noteHeld s h).modWg die wg (fun g => { g with fwalk := h == .page })
        | .error _ => s
        | .ok (s, b, _) =>
          let s := if core == g.core then s else s.modCore die core (fun c => { c with icache := [] })
          let s := s.modWg die wg (fun g =>
            rebin { wgFrom b g with core := core, resident := true, since := s.clock, restoring := true, outRot := 0, fwalk := false } (s.cycOf die core))
          let g' := (s.wg? die wg).getD g
          let s := if g'.acqPend then
              let s := s.modCore die core (fun c => { c with acqQ := c.acqQ ++ [wg] })
              if acqAsks s die g' then s.modDie die (fun x => { x with leaveQ := x.leaveQ ++ [(.acq core wg, 0)] }) else s
            else s
          g.warps.foldl (fun (s : State) (e : Nat × Warp) => restoreWarp s die wg e.1 e.2) s)

/-- `PRECMD_ALL`: requests for every resident workgroup of the die fall due (R423). -/
def execPrecmdAll (die : Nat) (s : State) : Host.Outcome State Fault Refusal :=
  .next (s.modDie die (fun x =>
    { x with preWant := x.preWant ++ ((x.wgs.filter (fun (e : Nat × Wg) => e.2.resident && !e.2.exited && !x.preWant.contains e.1)).map (·.1)) }))

/-- PRECMD.busy: a request is outstanding (R423). -/
def precmdBusy (x : Die) : Bool := !x.preWant.isEmpty || x.wgs.any (fun (e : Nat × Wg) => e.2.preReq)

/-- DBGCTL.hltd: every warp of a halted die has stopped; one that puts a pre-emption off runs on (R420, R428, R429). -/
def debugHalted (x : Die) : Bool :=
  x.halt && x.wgs.all (fun (e : Nat × Wg) => !e.2.resident || e.2.warps.all (fun (w : Nat × Warp) =>
    (!w.2.s0.occ || !w.2.s0.defers) && (!w.2.s1.occ || !w.2.s1.defers)))

/-- `DEBUG_HALT`: DBGCTL.halt set (R428, R429). -/
def execDebugHalt (die : Nat) (s : State) : Host.Outcome State Fault Refusal :=
  .next (s.modDie die (fun x => { x with halt := true }))

/-- `DEBUG_RESUME`: DBGCTL.halt cleared (R428). -/
def execDebugResume (die : Nat) (s : State) : Host.Outcome State Fault Refusal :=
  .next (s.modDie die (fun x => { x with halt := false }))

end Sys2Proof.Machine
end

