-- ==== Sys2Proof/Machine/Packets.lean ====
section
/-! DEFINITION. The host queues: beats, packets, and how commands end (02 R45, R46; 04 R102; 17 R383 to R392; 22 R455, R456). -/

namespace Sys2Proof.Machine

/-! ### Beats (R383 to R386) -/

/-- `en` of a queue as it reads (R383). -/
def HQueue.on (q : HQueue) : Bool := q.en && 1 ≤ q.lsz.toNat && q.lsz.toNat ≤ 16

/-- A queue takes part in a beat: enabled, not stopped, not blocked (R386). -/
def HQueue.open_ (q : HQueue) : Bool := q.on && !q.stop && q.blocked.isNone

/-- The type code of a packet (R386); 0 for what is no packet. -/
def packetType : Instr → Nat
  | .signal _ _ _ _ _ _ _ => 1
  | .waitSignal _ _ _ _ _ _ _ => 2
  | .launch _ _ _ _ _ => 3
  | .copy _ _ _ _ _ _ _ _ _ => 5
  | .pageMove _ _ _ _ _ _ _ _ _ _ _ => 6
  | .spaceCreate _ _ _ _ _ _ => 7
  | .spaceDestroy _ _ _ _ _ => 8
  | .eventConfig _ _ _ _ _ _ _ => 9
  | .nopPacket _ _ _ _ => 10
  | _ => 0

/-- An event ring that the beater can use: EVCTL's base and lsz are valid (R451). -/
def ringOk (base lsz : Nat) : Bool :=
  base % 64 == 0 && inHost base && 6 ≤ lsz && lsz ≤ 16 && base + 64 * 2 ^ lsz ≤ 2 ^ 52

/-- The packet of 64 bytes that a queue of a die holds, or its error code (R385, R386, R455, R456). -/
def packetOf (d q : Nat) (b : List Byte) : Except Nat Instr :=
  let u (o n : Nat) : Nat := fieldAt b o n
  let w (o : Nat) : W64 := BitVec.ofNat 64 (u o 8)
  let zero (o n : Nat) : Bool := (bytesAt b o n).all (· == 0)
  let tag : W32 := BitVec.ofNat 32 (u 4 4)
  let bar := bitAt (u 2 1) 0
  let need (c : Bool) (i : Instr) : Except Nat Instr := if c then .ok i else .error 3
  if u 0 1 == 0 || u 0 1 > 10 then .error 1
  else if u 1 1 != 1 then .error 2
  else if u 2 1 > 1 || u 3 1 != 0 then .error 3
  else
    match u 0 1 with
    | 1 => need (u 8 8 % 8 == 0 && u 24 1 ≤ 1 && zero 25 39) (.signal d q bar tag (w 8) (w 16) (u 24 1 == 1))
    | 2 => need (u 8 8 % 8 == 0 && u 24 1 ≤ 3 && zero 25 39) (.waitSignal d q bar tag (w 8) (w 16) (BitVec.ofNat 2 (u 24 1)))
    | 3 => need (zero 16 48) (.launch d q bar tag (w 8))
    | 4 => .error 3
    | 5 => need (1 ≤ u 24 8 && u 24 8 ≤ 2 ^ 31 && !bitAt (u 40 8) 63 && zero 48 16)
        (.copy d q bar tag (w 8) (w 16) (w 24) (w 32) (w 40))
    | 6 => need (zero 30 2 && zero 48 16)
        (.pageMove d q bar tag (w 8) (w 16) (BitVec.ofNat 32 (u 24 4)) (BitVec.ofNat 8 (u 28 1)) (BitVec.ofNat 8 (u 29 1)) (w 32) (w 40))
    | 7 => need (u 16 1 ≤ 15 && zero 17 47) (.spaceCreate d q bar tag (w 8) (BitVec.ofNat 8 (u 16 1)))
    | 8 => need (zero 8 8 && u 16 1 ≤ 15 && zero 17 47) (.spaceDestroy d q bar tag (BitVec.ofNat 8 (u 16 1)))
    | 9 => need (u 17 1 == 0 && zero 20 44 && ringOk (u 8 8) (u 16 1))
        (.eventConfig d q bar tag (w 8) (BitVec.ofNat 8 (u 16 1)) (BitVec.ofNat 16 (u 18 2)))
    | _ => need (zero 8 56) (.nopPacket d q bar tag)

/-- A packet that stops its queue: `rd` passes it (R455). -/
def packetBad (s : State) (d q code : Nat) (tag : W32) : State :=
  let rd := (s.queue d q).rd
  (queueError s d q code tag rd 0).modQueue d q (fun x => { x with rd := rd + 1 })

/-- A lane of the beater takes its queue's packet into the beat, if it may (R386). -/
def takeLane (d : Nat) (s : State) (q : Nat) : State :=
  let x := s.queue d q
  let put (s : State) (i : Instr) : State := s.modDie d (fun y => { y with beat := y.beat ++ [(q, i)] })
  if !x.open_ || x.rd == x.wr then s
  else
    match vread s { die := d } (x.base.toNat + 64 * (x.rd.toNat % 2 ^ x.lsz.toNat)) 64 with
    | .error (.busy h) => noteHeld s h
    | .error _ => packetBad s d q 5 0
    | .ok (s1, b, p) =>
      if p then packetBad s1 d q 5 0
      else if bitAt (fieldAt b 2 1) 0 && !x.outst.isEmpty then s1
      else
        match packetOf d q b with
        | .error code => packetBad s1 d q code (BitVec.ofNat 32 (fieldAt b 4 4))
        | .ok i => put s1 i

/-- The beat of a die: the one in progress, or a new one (R386). -/
def beatOf (s : State) (d : Nat) : State :=
  if (s.die d).beat.isEmpty && !(s.die d).inReset then (List.range 64).foldl (takeLane d) s else s

/-- A packet of the beat is parsed, when no group of a lower type code is left (R386): `run` says what it does, given its index, or
that a request of it is held up. -/
def withPacket (s : State) (d q : Nat) (i : Instr) (run : W32 → State → Except Held State) : State :=
  let s := beatOf s d
  let beat := (s.die d).beat
  if beat.contains (q, i) && beat.all (fun (e : Nat × Instr) => packetType i ≤ packetType e.2) then
    let rd := (s.queue d q).rd
    let t := (s.modDie d (fun x => { x with beat := x.beat.erase (q, i) })).modQueue d q (fun x => { x with rd := rd + 1 })
    match run rd t with
    | .ok t => t
    | .error h => noteHeld s h
  else s

/-- A packet that has been parsed and not completed (R387). -/
def packetOpen (s : State) (d q : Nat) (rd : W32) : State := s.modQueue d q (fun x => { x with outst := x.outst ++ [rd.toNat] })

/-! ### Signals (R161, R387) -/

/-- `SIGNAL` (R387): an atomic add or exchange at the word's home. -/
def execSignal (die queue : Nat) (bar : Bool) (tag : BitVec 32) (addr val : BitVec 64) (exch : Bool) (s : State) :
    Host.Outcome State Fault Refusal :=
  .next (withPacket s die queue (.signal die queue bar tag addr val exch) (fun rd s =>
    match homeAtomic s die addr.toNat (fun v => if exch then val.toNat else v + val.toNat) with
    | .ok s => .ok s
    | .error (.busy h) => .error h
    | .error _ => .ok (queueError { s with freeIx := s.freeIx + 1 } die queue 6 tag rd 0)))

/-- The word of a `WAIT_SIGNAL` is read: it ends the wait, blocks the queue, or is an error (R387, R455). On a queue that has been disabled since its packet
was taken into the beat, a wait that would block is withdrawn (R384). -/
def readSignal (s : State) (d q : Nat) (w : WaitSig) : State :=
  let set (s : State) (b : Option WaitSig) : State := s.modQueue d q (fun x => { x with blocked := if x.on then b else none })
  match vrdN s { die := d } w.addr.toNat 8 with
  | .ok (s, v) => set s (if waitHolds w.cond v w.val.toNat then none else some w)
  | .error (.busy h) => set (noteHeld s h) (some w)
  | .error _ => set (queueError s d q 6 w.tag w.rd 0) none

/-- `WAIT_SIGNAL` (R387). -/
def execWaitSignal (die queue : Nat) (bar : Bool) (tag : BitVec 32) (addr val : BitVec 64) (cond : BitVec 2) (s : State) :
    Host.Outcome State Fault Refusal :=
  .next (withPacket s die queue (.waitSignal die queue bar tag addr val cond) (fun rd s =>
    .ok (readSignal s die queue ⟨addr, val, cond, tag, rd, false⟩)))

/-- `WAIT_SIGNAL_MET`: the wait ends, when a reading at an atomic of the word's home has satisfied it, or the beater reads the word again (R387; log
entry 63). -/
def execWaitSignalMet (die queue : Nat) (s : State) : Host.Outcome State Fault Refusal :=
  .next (match (s.queue die queue).blocked with
    | some w =>
      if w.met then s.modQueue die queue (fun x => { x with blocked := none })
      else readSignal s die queue w
    | none => s)

/-! ### Launches (R390, R392) -/

/-- `LAUNCH` (R387, R390): the launch waits for its dispatch. -/
def execLaunch (die queue : Nat) (bar : Bool) (tag : BitVec 32) (rec : BitVec 64) (s : State) : Host.Outcome State Fault Refusal :=
  .next (withPacket s die queue (.launch die queue bar tag rec) (fun rd s =>
    let (id, s) := s.fresh
    let sh := if queue = 63 then (s.die die).spanQ.find? (fun e => e.ix == rd) else none
    let y : Grid := { id := id, grec := rec, src := .packet queue tag rd, span := sh.map (·.span), base? := sh.map (fun e => (e.n, e.base)) }
    .ok (packetOpen (s.modDie die (fun x =>
      { x with grids := x.grids ++ [y], spanQ := x.spanQ.filter (fun e => sh != some e) })) die queue rd)))

/-- The first index of the share of die `d`, relative to the base (R392). -/
def shareStart (shares : List Byte) (n : W64) (d : Nat) : Nat := n.toNat * sumN ((shares.take d).map (·.toNat)) / 256

/-- The packet of 64 bytes that the group queue holds, or its error code: its only packet is `SPAN_LAUNCH` (R385, R386, R392, R455). -/
def spanOfPacket (b : List Byte) : Except Nat Instr :=
  let u (o n : Nat) : Nat := fieldAt b o n
  let w (o : Nat) : W64 := BitVec.ofNat 64 (u o 8)
  if u 0 1 == 0 || u 0 1 > 10 then .error 1
  else if u 1 1 != 1 then .error 2
  else if u 2 1 > 1 || u 3 1 != 0 || u 0 1 != 4 || u 44 4 != 0 then .error 3
  else .ok (.spanLaunch (bitAt (u 2 1) 0) (BitVec.ofNat 32 (u 4 4)) [w 8, w 16, w 24, w 32] (bytesAt b 40 4) (w 48) (w 56))

/-- Where packet `i` of a ring lies (R383). -/
def HQueue.at_ (q : HQueue) (i : W32) : Nat := q.base.toNat + 64 * (i.toNat % 2 ^ q.lsz.toNat)

/-- The route of an inbound address: the owner that VX's map names, or 4 for VX's own buffers (R448). -/
def inbRoute (s : State) (pa : Nat) : Nat :=
  match stackOf pa with
  | some i => (s.vxmap[i]?).getD 0
  | none => 4

/-- VX waits: its own packet, which it reads at a physical address, lies in memory that cannot be reached now (log entry 61). -/
def groupBusy (s : State) (pa : Nat) : Bool := portStalled s (inbRoute s pa) pa || frameBusy s pa

/-- An error of the group queue (R455). -/
def groupBad (s : State) (code : Nat) : State :=
  let q := s.grp
  { s with grp := { q.error code with rd := q.rd + 1 } }

/-- The bytes of a `LAUNCH` packet without flags (R385, R386). -/
def launchBytes (tag : W32) (rec : W64) : List Byte := [3, 1, 0, 0] ++ leBytes 4 tag.toNat ++ leBytes 8 rec.toNat ++ zeros 48

/-- The dies that receive a share of a spanning launch (R392). -/
def shareDies (shares : List Byte) : List Nat := (List.range 4).filter (fun d => (shares[d]?).getD 0 != 0)

/-- VX writes a `LAUNCH` into queue 63 of a die, with the die's tables, and keeps the share's index range beside it (R392; log entry 61). -/
def putShare (s : State) (span : Nat) (recs : List W64) (shares : List Byte) (tag : W32) (n base : W64) (d : Nat) : Except AErr State :=
  let q := s.queue d 63
  let lo := shareStart shares n d
  let rec_ := (recs[d]?).getD 0
  let e : SpanShare :=
    { rec_ := rec_, ix := q.wr, span := span, n := BitVec.ofNat 64 (shareStart shares n (d + 1) - lo), base := base + BitVec.ofNat 64 lo }
  if q.lsz == 0 || q.lsz.toNat > 16 || (q.wr - q.rd).toNat ≥ 2 ^ q.lsz.toNat then .error (.busy .unit)
  else
    match vwrite s { die := d } (q.at_ q.wr) (launchBytes tag rec_) with
    | .error (.busy h) => .error (.busy h)
    | r =>
      let s := { orSame s r with spanWait := s.spanWait ++ [(span, d)] }
      .ok ((s.modDie d (fun x => { x with spanQ := x.spanQ.filter (fun y => y.ix != e.ix) ++ [e] })).modQueue d 63 (fun x =>
        { x with wr := x.wr + 1 }))

/-- Shares are written die by die. -/
def putShares (span : Nat) (recs : List W64) (shares : List Byte) (tag : W32) (n base : W64) : List Nat → State → Except AErr State
  | [], s => .ok s
  | d :: t, s =>
    match putShare s span recs shares tag n base d with
    | .ok s => putShares span recs shares tag n base t s
    | .error e => .error e

/-- `SPAN_LAUNCH`: the packet at `rd` of the group queue is read and checked; VX writes a `LAUNCH` into queue 63 of every die with a share (R385, R392, R455). -/
def execSpanLaunch (bar : Bool) (tag : BitVec 32) (recs : List (BitVec 64)) (shares : List Byte) (n base : BitVec 64) (s : State) :
    Host.Outcome State Fault Refusal :=
  .next (
    let q := s.grp
    let pa := q.at_ q.rd
    if !q.open_ || q.rd == q.wr then s
    else if !backed pa 64 || isPois s pa 64 then groupBad s 5
    else if groupBusy s pa || (bitAt (rdN s (pa + 2) 1) 0 && !q.outst.isEmpty) then s
    else
      match spanOfPacket (rdBytes s pa 64) with
      | .error code => groupBad s code
      | .ok i =>
        if i != .spanLaunch bar tag recs shares n base then s
        else if sumN (shares.map (·.toNat)) != 256 then groupBad s 0x0B
        else
          let t := { s with nextId := s.nextId + 1, grp := { q with rd := q.rd + 1 } }
          match putShares s.nextId recs shares tag n base (shareDies shares) t with
          | .ok t => t
          | .error e => e.note s)

/-! ### Copies and page moves (R45, R46, R387) -/

/-- A command of the beater, on behalf of a packet. -/
def beaterCmd (s : State) (d q : Nat) (tag rd : W32) (kind : CmdKind) (gcw : Option (W64 × W64)) (st : CmdSt) (next : Nat)
    (old : List (Nat × W64)) : State :=
  let (id, s) := s.fresh
  let c : Cmd := { id := id, die := d, core := 96, kind := kind, gcw := gcw, queue := q, tag := tag, qrd := rd, st := st, next := next, old := old }
  packetOpen { s with cmds := s.cmds ++ [c] } d q rd

/-- `COPY` (R78, R386, R387): a command of the beater's copy engine. A misaligned completion word fails it, and is not written. -/
def execCopy (die queue : Nat) (bar : Bool) (tag : BitVec 32) (dst src len cwa cwv : BitVec 64) (s : State) :
    Host.Outcome State Fault Refusal :=
  .next (withPacket s die queue (.copy die queue bar tag dst src len cwa cwv) (fun rd s =>
    .ok (beaterCmd s die queue tag rd (.bcopy dst.toNat src.toNat len.toNat) (if cwa == 0 || cwa.toNat % 8 != 0 then none else some (cwa, cwv))
      (if cwa.toNat % 8 != 0 then .done 0x13
       else if overlap dst.toNat len.toNat src.toNat len.toNat then .done 0x16 else .waiting) 0 [])))

/-- `PAGE_MOVE`: its checks (R45, R46). -/
def execPageMove (die queue : Nat) (bar : Bool) (tag : BitVec 32) (va dst : BitVec 64) (npg : BitVec 32) (psz flg : Byte)
    (cwa cwv : BitVec 64) (s : State) : Host.Outcome State Fault Refusal :=
  .next (withPacket s die queue (.pageMove die queue bar tag va dst npg psz flg cwa cwv) (fun rd s =>
    let bad := flg.toNat > 1 || cwa.toNat % 8 != 0 || cwa.toNat ≥ 2 ^ 57 || cwv.getLsbD 63
    let go := beaterCmd s die queue tag rd (.pmove va.toNat dst.toNat npg.toNat psz.toNat)
      (if flg.getLsbD 0 && cwa.toNat % 8 == 0 && cwa.toNat < 2 ^ 57 then some (cwa, cwv) else none)
    .ok (match pmoveCheck s die va.toNat dst.toNat npg.toNat psz.toNat bad with
      | .fail st => go (.done (BitVec.ofNat 64 st)) 0 []
      | .wait => go .waiting 0 []
      | .ok ls => go .waiting 1 ls)))

/-! ### Key spaces (R102, R388, R389) -/

/-- A key of a level from its place among the keys of that level. -/
def levelKey (sp d lv i : Nat) : W64 := BitVec.ofNat 64 (sp * 2 ^ 60 + i * 2 ^ (60 - lv * d) + lv)

/-- The keys of the complete tree from a block down `f` levels, in ascending order (R388). -/
def treeKeys (sp d : Nat) : Nat → Nat → Nat → List W64
  | 0, lv, i => [levelKey sp d lv i]
  | f + 1, lv, i => levelKey sp d lv i :: (List.range (2 ^ d)).flatMap (fun c => treeKeys sp d f (lv + 1) (i * 2 ^ d + c))

/-- Part `j` of a space descriptor (R388). -/
def partOfDesc (b : List Byte) (j : Nat) : Part :=
  let o := 64 + 32 * j
  let nrec := fieldAt b (o + 16) 4
  let nslt := fieldAt b (o + 20) 4
  { tgt := BitVec.ofNat 8 (fieldAt b (o + 24) 1), agent := j, seg := BitVec.ofNat 64 (fieldAt b o 8), nrec := nrec, nslt := nslt
    recFree := List.range nrec, slotFree := (List.range nslt).map (fun i => (j, i)) }

/-- The space that a descriptor describes, without its records (R388). -/
def spaceOfDesc (b : List Byte) : Space :=
  let u (o n : Nat) : Nat := fieldAt b o n
  { dim := u 0 1, per := BitVec.ofNat 3 (u 1 1), grp := BitVec.ofNat 4 (u 2 1), home := u 3 1, elems := u 8 4, slot := u 12 4
    b21 := bitAt (u 5 1) 0, hovOk := bitAt (u 5 1) 1, efmt := BitVec.ofNat 8 (u 7 1), img := BitVec.ofNat 64 (u 16 8)
    cuts := (List.range (u 4 1)).map (fun j => BitVec.ofNat 64 (u (72 + 32 * j) 8)), parts := (List.range (u 4 1 + 1)).map (partOfDesc b) }

/-- The fields of a descriptor keep the limits of R102 and R388. -/
def spaceFieldsOk (x : Space) (b : List Byte) (lv0 : Nat) : Bool :=
  let u (o n : Nat) : Nat := fieldAt b o n
  let zero (o n : Nat) : Bool := (bytesAt b o n).all (· == 0)
  1 ≤ x.dim && x.dim ≤ 3 && u 1 1 < 2 ^ x.dim && 1 ≤ u 2 1 && u 2 1 ≤ 15 && x.home < 4 && x.grp.getLsbD x.home && u 5 1 ≤ 3 &&
  lv0 ≤ maxLev x.dim && 32 ≤ x.elems && x.elems ≤ 2 ^ 20 && x.elems % 32 == 0 && 64 ≤ x.slot && x.slot ≤ 2 ^ 24 && x.slot % 64 == 0 &&
  x.img.toNat % 64 == 0 && x.img.toNat < 2 ^ 57 && zero 24 40 && (dsizeOf x x.efmt.toNat).any (· ≤ x.slot) &&
  u (72 + 32 * x.cuts.length) 8 == badKey.toNat &&
  (List.range x.parts.length).all (fun j =>
    zero (64 + 32 * j + 25) 7 &&
    (match x.parts[j]? with
      | some p => p.seg.toNat % 64 == 0 && bitAt p.seg.toNat 56 && p.seg.toNat < 2 ^ 57 && 2 ^ x.dim + 1 ≤ p.nrec && p.nrec ≤ 2 ^ 24 &&
          2 ^ x.dim + 1 ≤ p.nslt && p.nslt ≤ 2 ^ 24 && x.grp.getLsbD (tgtDie p.tgt) && tgtCluster p.tgt ≤ 11 && p.tgt.toNat % 4 == 0
      | none => false))

/-- Cuts are leaf keys at the initial level or the invalid key, in order (R102, R388). -/
def cutsOk (x : Space) (sp lv0 : Nat) : Bool :=
  x.cuts.all (fun k => k == badKey || (keySp k == sp && keyLv k == lv0 && keyOkIn x k)) &&
  (x.cuts.zip (x.cuts.drop 1)).all (fun p => p.1.toNat ≤ p.2.toNat)

/-- The records of a new space: each part takes them from its pools in ascending key order (R388). -/
def firstRecs (x : Space) (lv0 : Nat) (keys : List W64) : Space :=
  keys.foldl (fun (x : Space) (k : W64) =>
    let j := partOf x.cuts k
    let i := (x.recs.filter (fun (e : Nat × KRec) => e.2.part == j)).length
    let r : KRec :=
      { key := k, part := j, rix := i, slot := slotAddr x j i, sto := j, sti := i, st := if keyLv k == lv0 then 1 else 2
        otgt := partTgt x j, efmt := x.efmt, dsize := BitVec.ofNat 32 ((dsizeOf x x.efmt.toNat).getD 0), per := touchesPer x k }
    ((x.addRec r).1).modPart j (fun p => { p with recFree := p.recFree.filter (· != i), slotFree := p.slotFree.filter (· != (j, i)) })) x

/-- The link of a die towards another: 0 to its lower neighbour, 1 to its upper neighbour, 2 through VX (R11, R458). -/
def linkTo (d e : Nat) : Nat := if e = (d + 3) % 4 then 0 else if e = (d + 1) % 4 then 1 else 2

/-- The die on the far side of a link (R11; log entry 110 for VX). -/
def farDie (d l : Nat) : Nat := match l with | 0 => (d + 3) % 4 | 1 => (d + 1) % 4 | _ => (d + 2) % 4

/-- A crossbar mask of one port. -/
def portBit (p : Nat) : W64 := (1 : W64) <<< p

/-- The beater of a die writes its entries of a multicast group: at the home the links towards the other dies of the group, at another die its directory
agents (R458). -/
def setGroupAt (s : State) (home g : Nat) (dies : List Nat) (d : Nat) : State :=
  if d = home then
    let ls := (dies.filter (· != home)).map (linkTo home)
    s.modDie d (fun x =>
      { x with xbar := Tab.put x.xbar g (ls.foldl (fun m l => m ||| portBit (linkPort home l)) 0) 0
               egress := ls.foldl (fun t l => Tab.put t (1024 * l + g) (0x8000 ||| BitVec.ofNat 64 g) 0) x.egress })
  else s.modDie d (fun x => { x with xbar := Tab.put x.xbar g (portBit (dirPort d)) 0 })

/-- The dies of a space's group (R102). -/
def Space.dies (x : Space) : List Nat := (List.range 4).filter (fun d => x.grp.getLsbD d)

/-- Group `g` names the dies of a space's group (R458). -/
def setGroup (s : State) (x : Space) (g : Nat) : State := x.dies.foldl (fun s d => setGroupAt s x.home g x.dies d) s

/-- Clears it (R458). -/
def clearGroup (s : State) (x : Space) (g : Nat) : State :=
  x.dies.foldl (fun s d => s.modDie d (fun y =>
    { y with xbar := Tab.erase y.xbar g
             egress := (List.range 3).foldl (fun (t : Tab W64) (l : Nat) => Tab.erase t (1024 * l + g)) y.egress })) s

/-- Creates a space from its descriptor; `none` where the descriptor is refused (R388). -/
def createSpace (s : State) (d sp : Nat) (b : List Byte) : Option State :=
  let x := spaceOfDesc b
  let lv0 := fieldAt b 6 1
  if (Tab.get? s.spaces sp).isSome || !spaceFieldsOk x b lv0 || x.home != d || !cutsOk x sp lv0 then none
  else if 2 ^ (x.dim * lv0) > x.parts.length * 2 ^ 24 then none
  else
    let keys := treeKeys sp x.dim lv0 0 0
    let need (j : Nat) : Nat := (keys.filter (fun k => partOf x.cuts k == j)).length
    if !(List.range x.parts.length).all (fun j => (x.parts[j]?).any (fun p => need j ≤ p.nrec && need j ≤ p.nslt)) then none
    else
      let (id, s) := s.fresh
      let s := s.setSpace sp { firstRecs x lv0 keys with sid := id }
      some (setGroup (putImage (syncSpace s sp) sp) x (16 + sp))

/-- Reads a space descriptor (R388). -/
def readDesc (s : State) (d : Nat) (at_ : Nat) : Except AErr (State × Option (List Byte)) := do
  let a : Agent := { die := d }
  let (s, h, p) ← vread s a at_ 64
  let n := fieldAt h 4 1
  if n > 128 then return (s, none)
  else
    let (s, t, p') ← vread s a (at_ + 64) (32 * (n + 1))
    return (s, if p || p' then none else some (h ++ t))

/-- `SPACE_CREATE` (R388). -/
def execSpaceCreate (die queue : Nat) (bar : Bool) (tag : BitVec 32) (desc : BitVec 64) (sp : Byte) (s : State) :
    Host.Outcome State Fault Refusal :=
  .next (withPacket s die queue (.spaceCreate die queue bar tag desc sp) (fun rd s =>
    match readDesc s die desc.toNat with
    | .error (.busy h) => .error h
    | .error _ => .ok (queueError s die queue 8 tag rd 0)
    | .ok (s, none) => .ok (queueError s die queue 8 tag rd 0)
    | .ok (s, some b) => .ok ((createSpace s die sp.toNat b).getD (queueError s die queue 8 tag rd 0))))

/-- Nothing holds a space against its removal (R389). -/
def spaceIdle (x : Space) : Bool := x.rebal.isNone && x.recs.all (fun (e : Nat × KRec) => e.2.rpin == 0 && e.2.wpin == 0)

/-- A parsed `SPACE_DESTROY` removes its space, is refused, or goes on waiting (R389, R458). -/
def tryDestroy (s : State) (d : Nat) (r : DestroyReq) : State :=
  let ended (s : State) (st : W64) : State :=
    packetEnds (s.modDie d (fun x => { x with destroyQ := x.destroyQ.erase r })) d r.queue 8 r.tag r.rd st
  match Tab.get? s.spaces r.sp with
  | none => packetDone (queueError (s.modDie d (fun x => { x with destroyQ := x.destroyQ.erase r })) d r.queue 8 r.tag r.rd 0) d r.queue r.rd
  | some x =>
    if spaceIdle x then ended (clearGroup { s with spaces := Tab.erase s.spaces r.sp } x (16 + r.sp)) 0 else s

/-- `SPACE_DESTROY` (R389): the packet is parsed, or one that waits is tried again. -/
def execSpaceDestroy (die queue : Nat) (bar : Bool) (tag : BitVec 32) (sp : Byte) (s : State) : Host.Outcome State Fault Refusal :=
  .next (match (s.die die).destroyQ.find? (fun r => r.queue == queue && r.tag == tag && r.sp == sp.toNat) with
    | some r => tryDestroy s die r
    | none =>
      withPacket s die queue (.spaceDestroy die queue bar tag sp) (fun rd s =>
        let r : DestroyReq := ⟨sp.toNat, queue, tag, rd⟩
        .ok (tryDestroy ((packetOpen s die queue rd).modDie die (fun x => { x with destroyQ := x.destroyQ ++ [r] })) die r)))

/-! ### The event ring (R451 to R454, R456) -/

/-- EVCTL.en as it reads (R451). -/
def Die.ringOn (x : Die) : Bool := x.evEn && ringOk x.evBase.toNat x.evLsz.toNat

/-- The ring has room (R451). -/
def Die.ringRoom (x : Die) : Bool := x.ringOn && (x.evWr - x.evRd).toNat != 2 ^ x.evLsz.toNat

/-- Writes a record to the ring, raises `wr` and signals MSI-X vector 0 (R452). -/
def writeRecord (s : State) (d : Nat) (r : List Byte) : State :=
  let x := s.die d
  let s := wrBytes s (x.evBase.toNat + 64 * (x.evWr.toNat % 2 ^ x.evLsz.toNat)) r
  let s := s.modDie d (fun x => { x with evWr := x.evWr + 1 })
  { s with msix := if s.msix.contains (d, 0) then s.msix else s.msix ++ [(d, 0)] }

/-- The overflow record, when one is owed and there is room (R454). -/
def writeOverflow (s : State) (d : Nat) : State :=
  let x := s.die d
  if x.evSince = 0 || !x.ringRoom then s
  else
    writeRecord (s.modDie d (fun x => { x with evSince := 0 })) d
      (evRecord 2 d 0xFFFF 0xFF 0xFF 0 0 0 (BitVec.ofNat 64 x.evSince) 0 (s.cyc d))

/-- The type of a record is posted (R451). -/
def Die.posts (x : Die) (r : List Byte) : Bool := (x.evMsk ||| 0xE).getLsbD (fieldAt r 0 1)

/-- Posts one record: masked, written, or lost (R451, R452, R454). -/
def postRecord (s : State) (d : Nat) (r : List Byte) : State :=
  let x := s.die d
  if !x.posts r then s
  else if x.ringRoom then writeRecord s d r
  else s.modDie d (fun x => { x with evLost := if x.evLost == 0xFFFFFFFF then x.evLost else x.evLost + 1, evSince := x.evSince + 1 })

/-- Records handed to the beater are posted in order, each behind an overflow record that is owed. -/
def flushRecords (d : Nat) : List (List Byte) → State → State
  | [], s => s
  | r :: t, s => flushRecords d t (postRecord (writeOverflow s d) d r)

/-- `EVENT_CONFIG` (R456). -/
def execEventConfig (die queue : Nat) (bar : Bool) (tag : BitVec 32) (base : BitVec 64) (lsz : Byte) (mask : BitVec 16) (s : State) :
    Host.Outcome State Fault Refusal :=
  .next (withPacket s die queue (.eventConfig die queue bar tag base lsz mask) (fun _ s =>
    let s := flushRecords die (s.die die).evPend s
    .ok (s.modDie die (fun x =>
      { x with evPend := [], evBase := base, evLsz := lsz.truncate 5, evMsk := mask ||| 0xE, evWr := 0, evRd := 0, evEn := true }))))

/-- `NOP` (R386). -/
def execNopPacket (die queue : Nat) (bar : Bool) (tag : BitVec 32) (s : State) : Host.Outcome State Fault Refusal :=
  .next (withPacket s die queue (.nopPacket die queue bar tag) (fun _ s => .ok s))

/-- `EVENT_RECORD_POST`: the beater posts the record that it received first, unless an overflow record comes before it (R452, R454). -/
def execEventRecordPost (die : Nat) (s : State) : Host.Outcome State Fault Refusal :=
  .next (
    let x := s.die die
    match x.evPend with
    | [] => s
    | r :: rest =>
      if x.inReset || (x.evSince != 0 && x.ringRoom && x.posts r) then s
      else postRecord (s.modDie die (fun x => { x with evPend := rest })) die r)

/-- `OVERFLOW_RECORD`: space has freed (R454). -/
def execOverflowRecord (die : Nat) (s : State) : Host.Outcome State Fault Refusal :=
  .next (if (s.die die).inReset then s else writeOverflow s die)

/-! ### How commands end (R75, R84, R338, R343) -/

/-- A copy moves some of its bytes, and ends with the last (R75, R77, R84). -/
def copyTurn (s : State) (c : Cmd) : State :=
  match c.kind.copyOf with
  | none => endCmd s c 0
  | some (sg, dg, dst, src, len) =>
    let (s, r, n) := copySome s c
    let o := c.next
    let s := if n = 0 then s
      else noteStacks (s.modCmd c.id (fun c => { c.went with next := c.next + n })) c
        ((if sg then [(src + o, n)] else []) ++ (if dg then [(dst + o, n)] else []))
    match r with
    | .busy h => heldCmd s c.id h
    | .st code => if code == 0 && o + n < len then s else endCmd s c code

/-- Writes up to `k` bytes of the payload of a drain (R338): what is left, and how it ended. -/
def writePayload (c : Cmd) (glob : Bool) : List (Nat × List Byte) → Nat → State → State × Paid × List (Nat × List Byte)
  | [], _, s => (s, .st 0, [])
  | (a, bs) :: t, k, s =>
    let n := min k bs.length
    if n = 0 then (s, .st 0, (a, bs) :: t)
    else
      match sideWrite s c glob a (bs.take n) with
      | .error (.busy h) => (s, .busy h, (a, bs) :: t)
      | .error e => (s, .st e.status, (a, bs) :: t)
      | .ok s => if n < bs.length then (s, .st 0, (a + n, bs.drop n) :: t) else writePayload c.went glob t (k - n) s

/-- The ranges of a payload that have been written, from what is left of it. -/
def paidRanges (out left : List (Nat × List Byte)) : List (Nat × Nat) :=
  let n := out.length - left.length
  (out.take n).map (fun e => (e.1, e.2.length)) ++
    (match out[n]?, left with
      | some e, l :: _ => if l.1 != e.1 then [(e.1, l.1 - e.1)] else []
      | _, _ => [])

/-- A drain that its engine has reached writes some of its payload, and ends with the last; no transfer of it is indivisible (R132, R338). -/
def drainTurn (s : State) (c : Cmd) (b : List Byte) : State :=
  let glob := (drainOf b).glob
  let (k, s) := s.takeNat (sumN (c.out.map (fun e => e.2.length)) + 1)
  let (s, r, left) := writePayload c glob c.out k s
  let paid := paidRanges c.out left
  let s := if paid.isEmpty then s else noteStacks (s.modCmd c.id (fun c => { c.went with out := left })) c (if glob then paid else [])
  match r with
  | .busy h => heldCmd s c.id h
  | .st code => if code == 0 && !left.isEmpty then s else endCmd s c code

/-- `COMMAND_COMPLETE` (R84): a command's payload is done, or it has its status already: completion word, locks, handle. -/
def execCommandComplete (id : Nat) (s : State) : Host.Outcome State Fault Refusal :=
  .next (match s.cmd? id with
    | none => s
    | some c =>
      match c.st, c.kind with
      | .done st, _ => endCmd s c st
      | .running, .cpy _ _ _ _ | .running, .bcopy _ _ _ | .running, .rcopy _ _ _ => copyTurn s c
      | .running, .mdrn b _ _ => if c.out.isEmpty then s else drainTurn s c b
      | .running, .mmv b => mmvTurn s c b
      | _, _ => s)

end Sys2Proof.Machine
end

