-- ==== Sys2Proof/Machine/Host.lean ====
section
/-! DEFINITION. What the host and the fabric do: management registers, the queue registers, the inbound ordering point, the crossbar,
FeltLink, attestation, errors in storage, known-answer tests, sensors and resets (02 R29 to R58; 03 R93; 05 R160; 13 R333;
17 R383, R384, R393; 18 R423 to R433; 22 R444 to R465). -/

namespace Sys2Proof.Machine

/-! ### Queue registers (R383, R384, R392, R455) -/

/-- The register block of a function is in reset (R463). -/
def fnDown (s : State) (fn : Nat) : Bool := fn < 4 && (s.die fn).inReset

/-- A queue as a function names it: of a die, or the group queue. -/
def hostQueue (s : State) (fn q : Nat) : HQueue := if fn = 4 then s.grp else s.queue fn q

/-- Changes such a queue. -/
def modHostQueue (s : State) (fn q : Nat) (g : HQueue → HQueue) : State :=
  if fn = 4 then { s with grp := g s.grp } else s.modQueue fn q g

/-- `QUEUE_DOORBELL`: a write of `wr`; an overrun is a queue error, whatever `lsz` is (R383, R455; log entry 60). -/
def execQueueDoorbell (fn queue : Nat) (wr : BitVec 32) (s : State) : Host.Outcome State Fault Refusal :=
  .next (
    if fnDown s fn || (fn < 4 && queue = 63) then s
    else
      let s := modHostQueue s fn queue (fun x => { x with wr := wr })
      let x := hostQueue s fn queue
      if (wr - x.rd).toNat > 2 ^ x.lsz.toNat then
        if fn = 4 then { s with grp := s.grp.error 4 } else queueError s fn queue 4 0 x.rd 0
      else s)

/-- The base field of word 0 (R383). -/
def queueBase (v : W64) : W64 := v &&& 0x01FFFFFFFFFFFFC0

/-- A write of word 0 (R384): `en`, and `base` where `en` reads 0; a blocked `WAIT_SIGNAL` is withdrawn when `en` clears. -/
def HQueue.writeWord0 (x : HQueue) (v : W64) : HQueue :=
  let y := if x.on || queueBase v == x.base then x else { x with base := queueBase v, rd := 0 }
  { y with en := v.getLsbD 63, blocked := if v.getLsbD 63 then y.blocked else none }

/-- A write of word 1 (R384): `lsz`, where `en` reads 0. -/
def HQueue.writeWord1 (x : HQueue) (v : W64) : HQueue :=
  if x.on || v.truncate 5 == x.lsz then x else { x with lsz := v.truncate 5, rd := 0 }

/-- A write of word 0 or 1; a queue whose ring changed has no packet in the beat. -/
def writeQueue (s : State) (fn q : Nat) (g : HQueue → HQueue) : State :=
  if fnDown s fn then s
  else
    let x := hostQueue s fn q
    let y := g x
    let s := modHostQueue s fn q (fun _ => y)
    if fn < 4 && !(x.base == y.base && x.lsz == y.lsz) then s.modDie fn (fun d => { d with beat := d.beat.filter (fun (e : Nat × Instr) => e.1 != q) })
    else s

/-- `QUEUE_ENABLE`: a write of word 0 that sets `en` (R384). -/
def execQueueEnable (fn queue : Nat) (w0 : BitVec 64) (s : State) : Host.Outcome State Fault Refusal :=
  .next (writeQueue s fn queue (fun x => x.writeWord0 (w0 ||| 0x8000000000000000)))

/-- `QUEUE_DISABLE`: a write of word 0 that clears `en` (R384). -/
def execQueueDisable (fn queue : Nat) (w0 : BitVec 64) (s : State) : Host.Outcome State Fault Refusal :=
  .next (writeQueue s fn queue (fun x => x.writeWord0 (w0 &&& 0x7FFFFFFFFFFFFFFF)))

/-- `QUEUE_RECONFIGURE`: a write of word 0 or word 1 (R384). -/
def execQueueReconfigure (fn queue word : Nat) (v : BitVec 64) (s : State) : Host.Outcome State Fault Refusal :=
  .next (writeQueue s fn queue (fun x => if word = 0 then x.writeWord0 v else x.writeWord1 v))

/-- `QUEUE_ERROR_CLEAR`: a write of word 3 clears bits of `err`, and with the last one `stop` (R383, R455). -/
def execQueueErrorClear (fn queue : Nat) (v : BitVec 64) (s : State) : Host.Outcome State Fault Refusal :=
  .next (
    if fnDown s fn then s
    else modHostQueue s fn queue (fun x =>
      let e := x.err &&& ~~~(v.extractLsb' 48 16)
      { x with err := e, stop := x.stop && e != 0 }))

/-! ### TLBINV (R58) -/

/-- The entries that a value of TLBINV names. -/
def tlbNamed (v : W64) (t : TlbEnt) : Bool :=
  v.getLsbD 1 || overlap t.va t.size (bitsOf v.toNat 16 41 * 2 ^ 16) ((bitsOf v.toNat 8 8 + 1) * 2 ^ 16)

/-- A write of TLBINV starts an invalidation; whether entries are gone before it has finished is open. -/
def tlbStart (s : State) (d : Nat) (v : W64) : State :=
  if fnDown s d || (s.die d).tlbinv.getLsbD 0 then s
  else
    let w : W64 := v &&& 0x01FFFFFFFFFFFF02
    let s := s.modDie d (fun x => { x with tlbinv := w ||| 1 })
    let (b, s) := s.takeBool
    if b then shootdown s d (tlbNamed w) else s

/-- `TLB_INVALIDATE`: a range (R58). -/
def execTlbInvalidate (die : Nat) (v : BitVec 64) (s : State) : Host.Outcome State Fault Refusal :=
  .next (tlbStart s die (v &&& 0xFFFFFFFFFFFFFFFD))

/-- `TLB_INVALIDATE_ALL` (R58). -/
def execTlbInvalidateAll (die : Nat) (v : BitVec 64) (s : State) : Host.Outcome State Fault Refusal :=
  .next (tlbStart s die (v ||| 2))

/-- `TLB_INVALIDATE_DONE`: every entry named is gone, and `busy` clears (R58). -/
def execTlbInvalidateDone (die : Nat) (s : State) : Host.Outcome State Fault Refusal :=
  .next (
    let v := (s.die die).tlbinv
    if !v.getLsbD 0 then s
    else (shootdown s die (tlbNamed v)).modDie die (fun x => { x with tlbinv := v &&& 0xFFFFFFFFFFFFFFFE }))

/-! ### Counters, versions, the event ring's `rd` (R52, R447, R451) -/

/-- `NEAR_MEMORY_COUNTER_WRITE` (R52). -/
def execNearMemoryCounterWrite (stack ctr : Nat) (v : BitVec 64) (s : State) : Host.Outcome State Fault Refusal :=
  .next (s.modStk stack (fun k => { k with counters := Tab.put k.counters ctr v 0 }))

/-- `VERSION_HANDSHAKE` (R447): the lesser of `req` and pktmax, where it is at least pktmin. -/
def execVersionHandshake (die : Nat) (req : Byte) (s : State) : Host.Outcome State Fault Refusal :=
  .next (
    if fnDown s die then s
    else s.modDie die (fun x =>
      let hi := bitsOf x.rev.toNat 24 8
      let lo := bitsOf x.rev.toNat 16 8
      { x with vreq := req, vans := if min req.toNat hi ≥ lo then BitVec.ofNat 8 (min req.toNat hi) else 0 }))

/-- `EVENT_RING_CONSUME`: a write of EVPTR.rd (R451). -/
def execEventRingConsume (die : Nat) (rd : BitVec 32) (s : State) : Host.Outcome State Fault Refusal :=
  .next (if fnDown s die then s else s.modDie die (fun x => { x with evRd := rd }))

/-! ### Plain registers (R5, R20, R43, R93, R333, R393, R423, R428, R431, R433, R451, R458, R461) -/

/-- The thermal state of a core under a value of SCHCTL: ineligible above thi, eligible again below thi less the hysteresis (R393). -/
def hotNow (sch : W64) (c : Core) : Bool :=
  let thi := bitsOf sch.toNat 8 8
  c.temp > thi || (c.hot && !(c.temp + bitsOf sch.toNat 16 8 < thi))

/-- A write of SCHCTL: every core is judged anew (R393). -/
def Die.writeSch (x : Die) (v : W64) : Die := { x with schctl := v, cores := x.cores.map (fun e => (e.1, { e.2 with hot := hotNow v e.2 })) }

/-- A write to a register of a die's block (log entry 15 for the offset of PGROOT). -/
def Die.regWrite (x : Die) (off : Nat) (v : W64) : Die :=
  let hi : W32 := v.extractLsb' 32 32
  let lo : W32 := v.truncate 32
  if off = 0x20 then { x with allow := v.truncate 4 }
  else if off = 0x28 then { x with pgroot := v &&& 0x000FFFFFFFFFF001 }
  else if off = 0x40 then { x with ckfail := hi, ckcorr := lo }
  else if off = 0x60 then x.writeSch (v &&& 0x0000FFFFFFFFFF03)
  else if off = 0x70 then { x with vec := v &&& 0x01FFFFFFFFFFFFF8 }
  else if off = 0x78 then { x with csz := v.extractLsb' 32 16, dl := lo }
  else if off = 0x80 then { x with bkh := v.getLsbD 2, halt := v.getLsbD 0 }
  else if off = 0x88 then { x with eccCons := v.extractLsb' 32 16, eccUnc := v.extractLsb' 16 16, eccCorr := v.truncate 16 }
  else if off = 0x90 then { x with katIntv := v.extractLsb' 16 16, katEn := v.getLsbD 0 }
  else if off = 0x98 then { x with katFail := hi }
  else if off = 0x100 then { x with evEn := v.getLsbD 63, evBase := v &&& 0x000FFFFFFFFFFFC0, evLsz := v.truncate 5 }
  else if off = 0x110 then { x with evLost := lo }
  else if off = 0x118 then { x with evMsk := v.truncate 16 ||| 0xE }
  else if 0x8000 ≤ off && off < 0xA000 then { x with xbar := Tab.put x.xbar ((off - 0x8000) / 8) v 0 }
  else if 0xA000 ≤ off && off < 0x10000 then { x with egress := Tab.put x.egress ((off - 0xA000) / 8) (v &&& 0x83FF) 0 }
  else x

/-- The mask of a word of an alias entry (R93). -/
def aliasMask : Nat → W64
  | 0 => 0x80FFFFFFFFFF0000
  | 1 => 0x0000000FFFFFFFFF
  | _ => 0x000FFFFFFFFFFFFF

/-- A write to the management function's window for firmware images: 0x5000 chooses a component and starts its new image, 0x5008 adds eight bytes (R463; log
entry 111). -/
def fwWrite (s : State) (off : Nat) (v : W64) : State :=
  if off = 0x5000 then { s with fwSel := v.toNat, fwNew := Tab.set s.fwNew v.toNat [] }
  else { s with fwNew := Tab.modify s.fwNew s.fwSel (fun b => b ++ leBytes 8 v.toNat) }

/-- `REGISTER_WRITE`: a register with no behaviour of its own (R5). A write that is not one of eight aligned bytes is an Unsupported Request (R52, R445;
log entry 67). -/
def execRegisterWrite (r : RegWr) (s : State) : Host.Outcome State Fault Refusal :=
  .next (
    if r.off % 8 != 0 || r.n != 8 then { s with aer := s.aer + 1 }
    else if fnDown s r.fn then s
    else if r.fn < 4 then s.modDie r.fn (fun x => x.regWrite r.off r.val)
    else if 0x4000 ≤ r.off && r.off < 0x4060 then
      { s with ports := listMod s.ports ((r.off - 0x4000) / 8) (fun p => { p with crc := r.val.extractLsb' 48 16, rply := r.val.extractLsb' 32 16 }) }
    else if r.off = 0x5000 || r.off = 0x5008 then fwWrite s r.off r.val
    else
      let st := r.off / 0x10000 - 1
      let o := r.off % 0x10000
      if 0x10000 ≤ r.off && st < 8 && 0x1000 ≤ o && o < 0x1200 then
        s.modStk st (fun k => { k with alias_ := Tab.put k.alias_ ((o - 0x1000) / 8) (r.val &&& aliasMask ((o - 0x1000) / 8 % 4)) 0 })
      else s)

/-! ### Registers as the host reads them (R5, R29, R32, R52, R58, R93, R383, R423, R428, R446, R447, R451, R458, R461) -/

/-- Fields at bit positions. -/
def word64 (l : List (Nat × Nat)) : W64 := BitVec.ofNat 64 (sumN (l.map (fun e => e.2 * 2 ^ e.1)))

/-- A flag as a number. -/
def flag (b : Bool) : Nat := if b then 1 else 0

/-- A word of a queue's registers (R383). -/
def HQueue.word (x : HQueue) : Nat → W64
  | 0 => word64 [(63, flag x.on), (0, x.base.toNat)]
  | 1 => word64 [(0, x.lsz.toNat)]
  | 2 => word64 [(0, x.wr.toNat)]
  | _ => word64 [(48, x.err.toNat), (33, flag (!x.outst.isEmpty || x.blocked.isSome)), (32, flag x.stop), (0, x.rd.toNat)]

/-- Lanes fenced on a die (R433). -/
def fencedLanes (x : Die) : Nat := sumN (x.cores.map (fun (e : Nat × Core) => e.2.fenced.length))

/-- A register of a die's block as it reads. -/
def Die.regRead (x : Die) (off : Nat) : W64 :=
  if off = 0x00 then x.rev
  else if off = 0x08 then x.feat
  else if off = 0x10 then x.capinfo
  else if off = 0x18 then word64 [(8, x.hov.toNat), (0, x.own.toNat)]
  else if off = 0x20 then word64 [(0, x.allow.toNat)]
  else if off = 0x28 then x.pgroot
  else if off = 0x30 then x.tlbinv
  else if off = 0x40 then word64 [(32, x.ckfail.toNat), (0, x.ckcorr.toNat)]
  else if off = 0x60 then x.schctl
  else if off = 0x68 then word64 [(1, flag (precmdBusy x))]
  else if off = 0x70 then x.vec
  else if off = 0x78 then word64 [(32, x.csz.toNat), (0, x.dl.toNat)]
  else if off = 0x80 then word64 [(2, flag x.bkh), (1, flag (debugHalted x)), (0, flag x.halt)]
  else if off = 0x88 then word64 [(32, x.eccCons.toNat), (16, x.eccUnc.toNat), (0, x.eccCorr.toNat)]
  else if off = 0x90 then word64 [(16, x.katIntv.toNat), (0, flag x.katEn)]
  else if off = 0x98 then word64 [(32, x.katFail.toNat), (0, fencedLanes x)]
  else if off = 0xF0 then word64 [(8, x.vreq.toNat), (0, x.vans.toNat)]
  else if off = 0x100 then word64 [(63, flag x.ringOn), (0, x.evBase.toNat), (0, x.evLsz.toNat)]
  else if off = 0x108 then word64 [(32, x.evRd.toNat), (0, x.evWr.toNat)]
  else if off = 0x110 then word64 [(0, x.evLost.toNat)]
  else if off = 0x118 then word64 [(0, x.evMsk.toNat)]
  else if 0x2000 ≤ off && off < 0x2800 then (Tab.getD x.queues ((off - 0x2000) / 32) {}).word (off / 8 % 4)
  else if 0x8000 ≤ off && off < 0xA000 then Tab.getD x.xbar ((off - 0x8000) / 8) 0
  else if 0xA000 ≤ off && off < 0x10000 then Tab.getD x.egress ((off - 0xA000) / 8) 0
  else 0

/-- A word of an alias entry as it reads: `en` reads 0 with a reserved format (R93). -/
def aliasWord (k : Stack) (i : Nat) : W64 :=
  let v := Tab.getD k.alias_ i 0
  if i % 4 = 0 && bitsOf v.toNat 52 4 ≥ 5 then v &&& 0x7FFFFFFFFFFFFFFF else v

/-- A word of the last attestation report and its signature, in the management function's window for them (R464; log entry 16). -/
def attestWord (s : State) (i : Nat) : W64 := BitVec.ofNat 64 (fieldAt (s.attest.getD []) (8 * i) 8)

/-- A management register as an aligned read of eight bytes finds it. -/
def regRead (s : State) (fn off : Nat) : W64 :=
  if fnDown s fn then 0
  else if fn < 4 then (s.die fn).regRead off
  else if 0x3000 ≤ off && off < 0x3020 then s.grp.word (off / 8 % 4)
  else if 0x4000 ≤ off && off < 0x4060 then
    let p := (s.ports[(off - 0x4000) / 8]?).getD {}
    word64 [(48, p.crc.toNat), (32, p.rply.toNat), (16, p.vmaj.toNat), (8, p.vmin.toNat), (1, flag p.trn), (0, flag p.up)]
  else if 0x8000 ≤ off && off < 0x10000 then attestWord s ((off - 0x8000) / 8)
  else
    let k := s.stk (off / 0x10000 - 1)
    let o := off % 0x10000
    if off < 0x10000 || off ≥ 0x90000 then 0
    else if 0x8000 ≤ o then Tab.getD k.counters ((o - 0x8000) / 8) 0
    else if 0x1000 ≤ o && o < 0x1200 then aliasWord k ((o - 0x1000) / 8)
    else 0

/-- A read of the host from a register block: the register, or Unsupported Request status (R52; log entry 67). -/
def hostRead (s : State) (fn off n : Nat) : Option W64 := if off % 8 = 0 && n = 8 then some (regRead s fn off) else none

/-! ### Inbound requests (R160, R444, R445, R448 to R450) -/

/-- An inbound request may be forwarded (R160, R449). -/
def inbMay (s : State) (b : Inb) : Bool :=
  let before := (s.inb.takeWhile (fun x => x.id != b.id)).filter (fun x => x.req == b.req && x.rd.isNone)
  match b.rd with
  | some _ => before.isEmpty
  | none => b.ro || before.all (fun x => x.ro || (x.route == b.route && x.sent))

/-- An inbound request at the ordering point is forwarded, or held. -/
def inbAdd (s : State) (req addr : Nat) (data : List Byte) (rd : Option Nat) (ro : Bool) : State :=
  let (id, s) := s.fresh
  let b : Inb := { id := id, req := req, addr := addr, data := data, rd := rd, ro := ro, route := inbRoute s addr }
  { s with inb := s.inb ++ [{ b with sent := inbMay s b }] }

/-- `INBOUND_POSTED_WRITE` (R160, R445, R449): dropped where nothing backs it, withheld while 4,096 are unacknowledged. -/
def execInboundPostedWrite (req addr : Nat) (data : List Byte) (ro : Bool) (s : State) : Host.Outcome State Fault Refusal :=
  .next (
    if data.isEmpty then s
    else if !backed addr data.length then { s with aer := s.aer + 1 }
    else if (s.inb.filter (fun b => b.rd.isNone)).length ≥ 4096 then s
    else inbAdd s req addr data none ro)

/-- `ORDERING_POINT_FORWARD`: a held request goes forward, on the route that its address has now (R160, R449). -/
def execOrderingPointForward (id : Nat) (s : State) : Host.Outcome State Fault Refusal :=
  .next (match s.inb.find? (fun b => b.id == id) with
    | none => s
    | some b =>
      let b := { b with route := inbRoute s b.addr }
      if b.sent || !inbMay s b then s
      else { s with inb := s.inb.map (fun x => if x.id == id then { b with sent := true } else x) })

/-- `INBOUND_READ` (R445, R449): one of an unbacked address completes with Unsupported Request status. -/
def execInboundRead (req addr n : Nat) (s : State) : Host.Outcome State Fault Refusal :=
  .next (
    if n = 0 then s
    else if !backed addr n then { s with cpls := ⟨req, addr, none⟩ :: s.cpls }
    else inbAdd s req addr [] (some n) false)

/-! ### The crossbar (R457 to R459) -/

/-- The flits at the heads of the inputs of a die's crossbar. -/
def Die.heads (x : Die) : List McFlit := x.mcast.foldl (fun l f => if l.any (fun e => e.inp == f.inp) then l else l ++ [f]) []

/-- The head that the arbiter of an output port grants: of those that request it, the one whose input it granted least recently (R457). -/
def Die.granted (x : Die) (port : Nat) : Option McFlit :=
  let l := x.heads.filter (fun f => f.mask.getLsbD port)
  match l.find? (fun f => !x.grants.contains (port, f.inp)) with
  | some f => some f
  | none => (x.grants.reverse.filterMap (fun g => if g.1 == port then l.find? (fun f => f.inp == g.2) else none)).head?

/-- A flit's residual mask loses a port; without any left, the flit is gone (R459). -/
def Die.fork (x : Die) (port : Nat) (f : McFlit) : Die :=
  let m := f.mask &&& ~~~portBit port
  { x with mcast := if m == 0 then x.mcast.erase f else x.mcast.replace f { f with mask := m }
           grants := (port, f.inp) :: x.grants.filter (· != (port, f.inp)) }

/-- The copy that a port takes arrives: at the die's directory agents, or, where the link's table has a valid entry, at the die on the far side in the group that
the entry names (R112, R458). -/
def mcDeliver (s : State) (d port : Nat) (f : McFlit) : State :=
  let s := if dirPort d = port then s.modDie d (fun x => { x with mcGot := x.mcGot ++ [(f.sp, f.inst)] }) else s
  (List.range 3).foldl (fun (s : State) (l : Nat) =>
    let e := Tab.getD (s.die d).egress (1024 * l + f.grp) 0
    if linkPort d l = port && e.getLsbD 15 then
      mcastEnter s (farDie d l) (linkPort (farDie d l) (linkTo (farDie d l) d)) (bitsOf e.toNat 0 10) f.sp f.inst
    else s) s

/-- `MULTICAST_FORK`: a crosspoint of the die takes its copy of the flit that its port grants (R457 to R459). -/
def execMulticastFork (die port : Nat) (s : State) : Host.Outcome State Fault Refusal :=
  .next (
    if port ≥ 64 then s
    else
      match (s.die die).granted port with
      | some f => mcDeliver (s.modDie die (fun x => x.fork port f)) die port f
      | none => s)

/-! ### FeltLink (R460 to R462) -/

/-- A port of FeltLink. -/
def State.port (s : State) (p : Nat) : Port := (s.ports[p]?).getD {}

/-- Changes a port. -/
def State.modPort (s : State) (p : Nat) (g : Port → Port) : State := { s with ports := listMod s.ports p g }

/-- A port-change record on every die (R453, R461). -/
def portRecord (s : State) (p info : Nat) : State :=
  (List.range 4).foldl (fun (s : State) (d : Nat) => postEvent s d (evRecord 8 d 0xFFFF 0xFF 0xFF p 0 0 (BitVec.ofNat 64 info) 0 (s.cyc d))) s

/-- `FELTLINK_TRAINING`: the far end supports version `maj`.`min`; this end supports 1.0 only (R461). -/
def execFeltlinkTraining (port : Nat) (maj min : Byte) (s : State) : Host.Outcome State Fault Refusal :=
  .next (
    if (s.port port).up || port ≥ 12 then s
    else
      let _ := min
      if maj == 1 then portRecord (s.modPort port (fun p => { p with vmaj := 1, vmin := 0, trn := false, up := true })) port 256
      else portRecord (s.modPort port (fun p => { p with trn := false })) port 0)

/-- `FELTLINK_PORT_DOWN` (R461). -/
def execFeltlinkPortDown (port : Nat) (s : State) : Host.Outcome State Fault Refusal :=
  .next (if !(s.port port).up then s else portRecord (s.modPort port (fun p => { p with up := false })) port 0)

/-- The area of a port in VX's buffers (R462). -/
def portArea (p : Nat) : Nat := 0x8000E00000 + 0x20000 * p

/-- A saturating 16-bit count. -/
def sat16 (x : BitVec 16) : BitVec 16 := if x == 0xFFFF then x else x + 1

/-- `FELTLINK_FLIT_RECEIVE` (R460, R462): a flit that fails its CRC is asked for again; the next one in order becomes a slot, and then
rxtail rises. The length that the slot carries is open. -/
def execFeltlinkFlitReceive (port : Nat) (ver : Byte) (seq : BitVec 32) (crcOk : Bool) (payload : List Byte) (s : State) :
    Host.Outcome State Fault Refusal :=
  .next (
    let p := s.port port
    let a := portArea port
    let tail := rdN s (a + 0x40) 8
    let head := rdN s (a + 0x48) 8
    if !p.up then s
    else if (tail + 2 ^ 64 - head) % 2 ^ 64 ≥ 255 then s
    else if !crcOk then s.modPort port (fun p => { p with crc := sat16 p.crc, rply := sat16 p.rply })
    else if ver != p.vmaj || seq != p.rxSeq then s
    else
      let (n, s) := s.takeNat 224
      let slot := bytesAt payload 0 224 ++ leBytes 2 (n + 1) ++ zeros 30
      let s := wrBytes s (a + 0x10000 + 256 * (tail % 255)) slot
      let s := wrN s (a + 0x40) 8 ((tail + 1) % 2 ^ 64)
      s.modPort port (fun p => { p with rxSeq := p.rxSeq + 1 }))

/-- The ECMA-182 polynomial of degree 64 (R460). -/
def crcPoly : W64 := 0x42F0E1EBA9EA3693

/-- One bit goes into a CRC. -/
def crcBit (c : W64) (b : Bool) : W64 := if c.getLsbD 63 != b then (c <<< 1) ^^^ crcPoly else c <<< 1

/-- The bits of a byte in the order in which they enter. -/
def crcBits (b : Byte) : List Bool :=
  (List.range 8).map (fun i => b.getLsbD (if Config.crcLsbFirst then i else 7 - i))

/-- The CRC-64 of a flit (R460). Its initial value, its final mask and the order of bits are free (log entry 68). -/
def crc64 (bs : List Byte) : W64 := (bs.flatMap crcBits).foldl crcBit Config.crcInit ^^^ Config.crcOut

/-- A port sends a flit again, and the later ones of those it keeps: the far end has found a wrong CRC (R460). `n` counts them. -/
def Port.replay (p : Port) (n : Nat) : Port := { p with out := p.kept.take n ++ p.out, rply := sat16 p.rply }

/-- `FELTLINK_SLOT_SEND` (R460, R462): VX sends the next slot that txtail covers, keeps its flit, and raises txhead once it is
acknowledged. Whether the far end asks for a kept flit again is open (log entry 68). -/
def execFeltlinkSlotSend (port : Nat) (s : State) : Host.Outcome State Fault Refusal :=
  .next (
    let p := s.port port
    let a := portArea port
    let tail := rdN s a 8
    let head := rdN s (a + 8) 8
    let (n, s) := s.takeNat (p.kept.length + 1)
    if !p.up then s
    else if n != 0 then s.modPort port (fun p => p.replay n)
    else if tail = head then s
    else
      let slot := rdBytes s (a + 0x100 + 256 * (head % 255)) 224
      let (w, s) := s.takeWord
      let (v, s) := s.takeWord
      let (x, s) := s.takeWord
      let body := leBytes 1 p.vmaj.toNat ++ leBytes 3 w.toNat ++ leBytes 4 p.txSeq.toNat ++ leBytes 4 v.toNat ++ leBytes 4 x.toNat ++ slot
      let flit := body ++ leBytes 8 (crc64 body).toNat ++ zeros 8
      let s := s.modPort port (fun p => { p with txSeq := p.txSeq + 1, kept := (flit :: p.kept).take 128, out := flit :: p.out })
      wrN s (a + 8) 8 ((head + 1) % 2 ^ 64))

/-! ### Firmware (R463) and attestation (R464) -/

/-- The image that a component runs: 0 the PMC, 1 to 4 the beaters, 5 to 12 the base dies (R463; log entry 16). -/
def fwImage (s : State) (c : Nat) : List Byte := (Tab.get? s.fw c).getD (Config.flashImage c)

/-- The header of an image: its first 256 bytes (R463). -/
def fwHdr (b : List Byte) : FwHdr := Config.fwHeader (b.take 256)

/-- The signature of an image verifies over its header and body under the key that the header names, and the body has the header's digest (R248, R463). -/
def fwSigned (b : List Byte) : Bool :=
  let h := fwHdr b
  let n := 256 + h.len
  n + 152 == b.length && h.digest == Config.sha384 (bytesAt b 256 h.len) && Config.sigOk (b.take n) (b.drop n) h.key

/-- An image is refused: its signature fails, its SVN is below the fused minimum of its component, or its major version is unknown to the verifier. That of the
PMC is checked against the fused digest of the root key (R463; log entry 19). -/
def fwRefused (c : Nat) (b : List Byte) : Bool :=
  let h := fwHdr b
  !fwSigned b || h.comp != c || h.svn < Config.fuseSvn c || !Config.majorKnown c h.major || (c = 0 && h.key != Config.fuseRoot)

/-- The component stays in reset: its image is refused, or the PMC's, which would check it, is (R463; log entry 19). -/
def fwDown (s : State) (c : Nat) : Bool := fwRefused c (fwImage s c) || fwRefused 0 (fwImage s 0)

/-- The attestation report, in the order of R464 (log entry 16 for its layout): thirteen images, four dies, twelve ports. -/
def attestReport (s : State) (nonce : List Byte) : List Byte :=
  leBytes 4 1 ++ nonce ++ (List.range 13).flatMap (fun i => bytesAt (Config.sha384 (fwImage s i)) 0 48) ++
  (List.range 13).flatMap (fun i => leBytes 4 (fwHdr (fwImage s i)).svn) ++
  (List.range 4).flatMap (fun d => leBytes 8 (s.die d).rev.toNat ++ leBytes 8 (s.die d).feat.toNat) ++
  (List.range 4).flatMap (fun d => leBytes 8 (s.die d).capinfo.toNat) ++
  (List.range 12).flatMap (fun p => [(s.port p).vmaj, (s.port p).vmin])

/-- The PMC's identity: a private and a public key from the fused device secret (R464). -/
def identity : List Byte × List Byte := Config.keyPair Config.deviceSecret

/-- The certificate chain that the PMC holds for its public key (R464). -/
def identityChain : List (List Byte) := Config.certChain identity.2

/-- The signature of a report (R464). -/
def attestSign (r : List Byte) : List Byte := Config.sign identity.1 (Config.sha384 r)

/-- `ATTESTATION_REQUEST`: the report and its signature, for the host to read (R464). -/
def execAttestationRequest (nonce : List Byte) (s : State) : Host.Outcome State Fault Refusal :=
  .next { s with attest := some (attestReport s nonce ++ attestSign (attestReport s nonce)) }

/-! ### Errors in storage (R430, R431) -/

/-- Marks the unit of a store that has an uncorrectable error; `none` where there is no such unit. The stores are 0 HBM by physical
address, 1 scratchpad by offset, 2 cluster store and 3 L1 by the line's physical address, 4 accumulators by element, 5 w registers and
6 k registers by workgroup, warp, thread and key in bits [63:28], [27:21], [20:16] and [15:0] (log entry 17). -/
def poisonUnit (s : State) (unit d c addr : Nat) : Option State :=
  let mark (l : Line) : Line := if l.pois.contains (addr % 128 / 8) then l else { l with pois := addr % 128 / 8 :: l.pois }
  let f : FragRef := ⟨d, c, addr / 2 ^ 28, bitsOf addr 21 7, false⟩
  match unit with
  | 0 => if (stackOf addr).isSome then some (setPois s (addr / 32 * 32) 32) else none
  | 1 =>
    if addr ≥ 0x60000 then none
    else some (s.modCore d c (fun x => { x with spois := if x.spois.contains (addr / 8) then x.spois else addr / 8 :: x.spois }))
  | 2 => (lineAt s d (c / 8) (addr / 128)).map (fun l => s.modCluster d (c / 8) (fun x => { x with lines := Tab.set x.lines (addr / 128) (mark l) }))
  | 3 =>
    if (s.core d c).l1.any (fun e => e.1 == addr / 128) then
      some (s.modCore d c (fun x => { x with l1 := x.l1.map (fun e => if e.1 == addr / 128 then (e.1, mark e.2) else e) }))
    else none
  | 4 =>
    if addr ≥ 65536 then none
    else some (s.modCore d c (fun x =>
      { x with accPois := [addr / 2 * 2, addr / 2 * 2 + 1] ++ x.accPois.filter (fun e => e / 2 != addr / 2) }))
  | 5 =>
    let t := bitsOf addr 16 5
    let key := bitsOf addr 0 16 / 2 * 2
    (s.warp? f).map (fun _ => s.modWarp f (fun w => w.modThr t (fun x =>
      { x with pois := ([key, key + 1].filter (· != 0)) ++ x.pois.filter (fun k => k / 2 * 2 != key) })))
  | 6 => (s.warp? f).map (fun _ => s.modWarp f (fun w => { w with kpois := w.kpois ||| ((1 : W32) <<< bitsOf addr 0 5 &&& 0xFFFFFFFE) }))
  | _ => none

/-- `ECC_ERROR`: a corrected error is counted; an uncorrectable unit is counted and poisoned (R430, R431). -/
def execEccError (addr : Nat) (corrected : Bool) (die core unit : Nat) (s : State) : Host.Outcome State Fault Refusal :=
  .next (
    if corrected then s.modDie die (fun x => { x with eccCorr := sat16 x.eccCorr })
    else
      match poisonUnit s unit die core addr with
      | some s => s.modDie die (fun x => { x with eccUnc := sat16 x.eccUnc })
      | none => s)

/-- A soft error that no code sees changes an element of an accumulator store without poison; only a checksum can find it (R333, R438; log entry 100). -/
def flipAcc (s : State) (d c e : Nat) (v : W32) : State :=
  if c ≥ 96 || e ≥ 65536 then s else s.modCore d c (fun x => { x with acc := Tab.put x.acc e v 0 })

/-! ### Known-answer tests (R433) -/

/-- `KAT_DUE`: a test that is due ends; whether it finds a mismatch is the silicon's. A mismatch fences the lane, asks for a rotation
and posts a record. -/
def execKatDue (die core lane : Nat) (s : State) : Host.Outcome State Fault Refusal :=
  .next (
    let x := s.die die
    let c := s.core die core
    let intv := max 1 x.katIntv.toNat * 65536
    if !x.katEn || x.halt || x.inReset || s.cycOf die core < Tab.getD c.katAt lane 0 + intv then s
    else
      let s := s.modCore die core (fun c => { c with katAt := Tab.set c.katAt lane (s.cycOf die core) })
      let (bad, s) := s.takeBool
      if !bad then s
      else
        let s := s.modDie die (fun x => { x with katFail := if x.katFail == 0xFFFFFFFF then x.katFail else x.katFail + 1 })
        if c.fenced.contains lane then s
        else
          let s := s.modCore die core (fun c => { c with fenced := lane :: c.fenced, rotWant := true })
          postEvent s die (evRecord 5 die core lane 0xFF 0 0 0 0 0 (s.cycOf die core)))

/-! ### Sensors (R393) and resets (R12, R463, R465) -/

/-- `THERMAL_SENSOR_CHANGE`: a core is ineligible above thi, and eligible again below thi less the hysteresis (R393). -/
def execThermalSensorChange (die core : Nat) (temp : Nat) (s : State) : Host.Outcome State Fault Refusal :=
  .next (s.modCore die core (fun c => { c with temp := temp, hot := hotNow (s.die die).schctl { c with temp := temp } }))

/-- `DROOP_EVENT` (R393). -/
def execDroopEvent (die core : Nat) (s : State) : Host.Outcome State Fault Refusal :=
  .next (s.modCore die core (fun c => { c with droops := s.cycOf die core :: c.droops }))

/-- The identities of a die's warps and fragments. -/
def Die.uids (x : Die) : List Nat := x.wgs.flatMap (fun e => e.2.warps.flatMap (fun w => [w.2.wuid, w.2.s0.uid, w.2.s1.uid]))

/-- A request at a busy frame comes from a die: from its agents, its commands, or its fragments. -/
def askedBy (d : Nat) (cmds uids : List Nat) : Asker → Bool
  | .cmd id => cmds.contains id
  | .frag uid _ => uids.contains uid
  | .former e _ | .die e => e == d

/-- A die returns to its reset state. Its stacks keep their owners, its sensors their readings; its accesses and commands are gone
(log entry 18). -/
def dieReset (s : State) (d : Nat) : State :=
  let mine := s.cmds.filter (fun c => c.die == d)
  let s := mine.foldl (fun (s : State) (c : Cmd) => gatherUnpin (rebalCopied (releaseBusy s c.id false) c.id 0x17) c) s
  let bit (p : Nat → Bool) : BitVec 8 := (idxWhere 8 p).foldl (fun (b : BitVec 8) (i : Nat) => b ||| (1 <<< i)) 0
  let x := s.die d
  let hot := x.cores.map (fun (e : Nat × Core) => (e.1, ({ temp := e.2.temp, hot := e.2.temp > 95 } : Core)))
  let y : Die :=
    { Die.reset d with rev := x.rev, feat := x.feat, capinfo := x.capinfo, omap := s.stks.map (·.owner), cores := hot
                       own := bit (fun i => (s.stk i).owner == d), cyc0 := s.clock, tick0 := s.tick
                       hov := bit (fun i => (s.stk i).hov.any (fun h => h.give == d || h.take == d)) }
  let gone := (s.accs.filter (fun a => a.frag.die == d)).map (·.id)
  let s := s.modDie d (fun _ => y)
  { s with
    dirW := s.dirW.filter (fun e => e.1 != d), cmds := s.cmds.filter (fun c => c.die != d), accs := s.accs.filter (fun a => a.frag.die != d)
    stks := s.stks.map (fun k => { k with held := k.held.filter (fun i => !gone.contains i) })
    vxHome := { s.vxHome with held := s.vxHome.held.filter (fun i => !gone.contains i) }
    hid := s.hid.filter (fun h => !askedBy d (mine.map (·.id)) x.uids h.who)
    cycs := s.cycs.filter (fun e => e.1 / 96 != d)
    uses := s.uses.filter (fun u => !(u.2.1 == d && u.2.2.2 == 0))
    spanWait := s.spanWait.filter (fun e => e.2 != d) }

/-- `THERMAL_RESET`: the PMC resets a die whose hottest sensor exceeds 115 degrees, keeps the cause, and reports it (R465). -/
def execThermalReset (die : Nat) (s : State) : Host.Outcome State Fault Refusal :=
  .next (
    if (s.die die).cores.any (fun (e : Nat × Core) => e.2.temp > 115) then
      { dieReset s die with pmcCause := Tab.set s.pmcCause die 1, aer := s.aer + 1 }
    else s)

/-- The dies and the base dies come up: one whose image is refused stays in reset, and the versions are those of the beaters' images (R446, R463). -/
def boot (s : State) : State :=
  { s with
    dies := s.dies.zipIdx.map (fun (x, d) =>
      let h := fwHdr (fwImage s (d + 1))
      { x with inReset := fwDown s (d + 1)
               rev := (x.rev &&& 0xFFFFFFFF) ||| (BitVec.ofNat 64 (h.minor % 2 ^ 16) <<< 32) ||| (BitVec.ofNat 64 (h.major % 2 ^ 16) <<< 48) })
    stks := s.stks.zipIdx.map (fun (k, i) => { k with down := fwDown s (i + 5) }) }

/-- The state of a package after its reset: its dies have the lofts they had, and their cores count cycles from 0 (R30, R206). -/
def packageReset (s : State) : State :=
  let r := State.resetWith (fun d => (s.die d).capinfo.getLsbD 0)
  { r with dies := r.dies.map (fun x => { x with cyc0 := s.clock, tick0 := s.tick }) }

/-- `PACKAGE_RESET` (R12, R463). Memory keeps its contents (log entry 19), and images that were written through the management function take effect. -/
def execPackageReset (s : State) : Host.Outcome State Fault Refusal :=
  .next (boot
    { packageReset s with
      tick := s.tick, agenda := s.agenda, freeIx := s.freeIx, nextId := s.nextId, clock := s.clock
      mem := s.mem, poison := s.poison, hist := s.hist
      fw := s.fwNew.foldl (fun t e => Tab.set t e.1 e.2) s.fw })

/-! ### Loading (R244, R245, R250, R251) -/

/-- The `i`-th launch descriptor of an image that a loader has placed passes its checks (R250). -/
def kernelOk (s : State) (d : Nat) (img : Image) (i : Nat) : Bool :=
  match vread s { die := d } (img.lo + 64 * i) 64 with
  | .ok (s, b, p) => !p && descOk b (some img) && declsOk s (img.lo + 64 * i) (some img)
  | .error _ => false

/-- A die's loader reports an image that it has placed (log entry 54): one that fails a check of R250 is refused, and an earlier image at its place is gone. -/
def loadImage (s : State) (d : Nat) (img : Image) : State :=
  if fnDown s d || img.n % 64 != 0 || !(List.range (img.n / 64)).all (kernelOk s d img) || !img.decls.all (declOk s) then s
  else s.modDie d (fun x => { x with images := x.images.filter (fun i => !overlap i.lo i.n img.lo img.n) ++ [img] })

end Sys2Proof.Machine
end

