-- ==== Sys2Proof/Machine/Dispatch.lean ====
section
/-! DEFINITION. The meaning of every instruction and event: one direct call each. -/

namespace Sys2Proof.Machine

/-- What an instruction of the issuing fragment, or an event, does. -/
def exec (i : Instr) (s : State) : Host.Outcome State Fault Refusal :=
  match i with
  | .iadd h m d a b => Sys2Proof.Machine.execIadd h m d a b s
  | .isub h m d a b => Sys2Proof.Machine.execIsub h m d a b s
  | .imul h m d a b => Sys2Proof.Machine.execImul h m d a b s
  | .imulh h m d a b => Sys2Proof.Machine.execImulh h m d a b s
  | .imad h m d a b c => Sys2Proof.Machine.execImad h m d a b c s
  | .idiv h m d a b => Sys2Proof.Machine.execIdiv h m d a b s
  | .irem h m d a b => Sys2Proof.Machine.execIrem h m d a b s
  | .imin h m d a b => Sys2Proof.Machine.execImin h m d a b s
  | .imax h m d a b => Sys2Proof.Machine.execImax h m d a b s
  | .iabs h m d a => Sys2Proof.Machine.execIabs h m d a s
  | .and h m d a b => Sys2Proof.Machine.execAnd h m d a b s
  | .or h m d a b => Sys2Proof.Machine.execOr h m d a b s
  | .xor h m d a b => Sys2Proof.Machine.execXor h m d a b s
  | .andn h m d a b => Sys2Proof.Machine.execAndn h m d a b s
  | .shl h m d a b => Sys2Proof.Machine.execShl h m d a b s
  | .shr h m d a b => Sys2Proof.Machine.execShr h m d a b s
  | .sar h m d a b => Sys2Proof.Machine.execSar h m d a b s
  | .rot h m d a b => Sys2Proof.Machine.execRot h m d a b s
  | .bfx h m d a b => Sys2Proof.Machine.execBfx h m d a b s
  | .bfi h m d a b c => Sys2Proof.Machine.execBfi h m d a b c s
  | .popc h m d a => Sys2Proof.Machine.execPopc h m d a s
  | .clz h m d a => Sys2Proof.Machine.execClz h m d a s
  | .ctz h m d a => Sys2Proof.Machine.execCtz h m d a s
  | .brev h m d a => Sys2Proof.Machine.execBrev h m d a s
  | .mov h m d a => Sys2Proof.Machine.execMov h m d a s
  | .movi h m d v => Sys2Proof.Machine.execMovi h m d v s
  | .bperm h m d a b c => Sys2Proof.Machine.execBperm h m d a b c s
  | .idot4 h m d a b c => Sys2Proof.Machine.execIdot4 h m d a b c s
  | .guardFalseNop => Sys2Proof.Machine.execGuardFalseNop s
  | .fadd h m d a b => Sys2Proof.Machine.execFadd h m d a b s
  | .fsub h m d a b => Sys2Proof.Machine.execFsub h m d a b s
  | .fmul h m d a b => Sys2Proof.Machine.execFmul h m d a b s
  | .ffma h m d a b c => Sys2Proof.Machine.execFfma h m d a b c s
  | .fmin h m d a b => Sys2Proof.Machine.execFmin h m d a b s
  | .fmax h m d a b => Sys2Proof.Machine.execFmax h m d a b s
  | .fdiv h m d a b => Sys2Proof.Machine.execFdiv h m d a b s
  | .fsqrt h m d a => Sys2Proof.Machine.execFsqrt h m d a s
  | .frcp h m d a => Sys2Proof.Machine.execFrcp h m d a s
  | .frsq h m d a => Sys2Proof.Machine.execFrsq h m d a s
  | .fexp2 h m d a => Sys2Proof.Machine.execFexp2 h m d a s
  | .flog2 h m d a => Sys2Proof.Machine.execFlog2 h m d a s
  | .fsin h m d a => Sys2Proof.Machine.execFsin h m d a s
  | .fcos h m d a => Sys2Proof.Machine.execFcos h m d a s
  | .ftanh h m d a => Sys2Proof.Machine.execFtanh h m d a s
  | .frnd h m d a => Sys2Proof.Machine.execFrnd h m d a s
  | .h2add h m d a b => Sys2Proof.Machine.execH2add h m d a b s
  | .h2mul h m d a b => Sys2Proof.Machine.execH2mul h m d a b s
  | .h2fma h m d a b c => Sys2Proof.Machine.execH2fma h m d a b c s
  | .h2min h m d a b => Sys2Proof.Machine.execH2min h m d a b s
  | .h2max h m d a b => Sys2Proof.Machine.execH2max h m d a b s
  | .fdot2 h m d a b c => Sys2Proof.Machine.execFdot2 h m d a b c s
  | .fscl h m d a b => Sys2Proof.Machine.execFscl h m d a b s
  | .fclass h m d a => Sys2Proof.Machine.execFclass h m d a s
  | .icmp h cond comb nat w64 t f d a b => Sys2Proof.Machine.execIcmp h cond comb nat w64 t f d a b s
  | .fcmp h cond comb lo hi t f d a b => Sys2Proof.Machine.execFcmp h cond comb lo hi t f d a b s
  | .sel h n w64 d a b c => Sys2Proof.Machine.execSel h n w64 d a b c s
  | .cvt h rm sat dt st d a => Sys2Proof.Machine.execCvt h rm sat dt st d a s
  | .pack h sz d a b c => Sys2Proof.Machine.execPack h sz d a b c s
  | .unpk h sz sx d a b => Sys2Proof.Machine.execUnpk h sz sx d a b s
  | .t3enc h d a => Sys2Proof.Machine.execT3enc h d a s
  | .t3dec h d a => Sys2Proof.Machine.execT3dec h d a s
  | .mxscl h fmt d a => Sys2Proof.Machine.execMxscl h fmt d a s
  | .shfl h mode b64 d a b => Sys2Proof.Machine.execShfl h mode b64 d a b s
  | .vote h mode d a b => Sys2Proof.Machine.execVote h mode d a b s
  | .redi h op sat sg wd d a => Sys2Proof.Machine.execRedi h op sat sg wd d a s
  | .redf h op ty d a => Sys2Proof.Machine.execRedf h op ty d a s
  | .scan h op excl sg wd d a => Sys2Proof.Machine.execScan h op excl sg wd d a s
  | .topk h ty least d a b => Sys2Proof.Machine.execTopk h ty least d a b s
  | .topkm h ty least d a b c => Sys2Proof.Machine.execTopkm h ty least d a b c s
  | .matchEq h b64 d a => Sys2Proof.Machine.execMatchEq h b64 d a s
  | .br h off => Sys2Proof.Machine.execBr h off s
  | .bru h off => Sys2Proof.Machine.execBru h off s
  | .jn h => Sys2Proof.Machine.execJn h s
  | .call h off => Sys2Proof.Machine.execCall h off s
  | .ret h => Sys2Proof.Machine.execRet h s
  | .loop h sz cnt => Sys2Proof.Machine.execLoop h sz cnt s
  | .brl h off => Sys2Proof.Machine.execBrl h off s
  | .exit h => Sys2Proof.Machine.execExit h s
  | .jmp h a => Sys2Proof.Machine.execJmp h a s
  | .calli h a => Sys2Proof.Machine.execCalli h a s
  | .rgn h => Sys2Proof.Machine.execRgn h s
  | .rds h d ix => Sys2Proof.Machine.execRds h d ix s
  | .rdsId h d ix => Sys2Proof.Machine.execRdsId h d ix s
  | .wrs h ix src => Sys2Proof.Machine.execWrs h ix src s
  | .pairWord sw p0 p1 => Sys2Proof.Machine.execPairWord sw p0 p1 s
  | .ld h sz ord d m => Sys2Proof.Machine.execLd h sz ord d m s
  | .st h sz ord d m => Sys2Proof.Machine.execSt h sz ord d m s
  | .stNt h sz d m => Sys2Proof.Machine.execStNt h sz d m s
  | .ldk h sz ord d m => Sys2Proof.Machine.execLdk h sz ord d m s
  | .stk h sz ord d m => Sys2Proof.Machine.execStk h sz ord d m s
  | .lds h sz ord d m => Sys2Proof.Machine.execLds h sz ord d m s
  | .sts h sz ord d m => Sys2Proof.Machine.execSts h sz ord d m s
  | .ldsk h sz ord d m => Sys2Proof.Machine.execLdsk h sz ord d m s
  | .ldskH h d m => Sys2Proof.Machine.execLdskH h d m s
  | .stsk h sz ord d m => Sys2Proof.Machine.execStsk h sz ord d m s
  | .atom h m op d a b => Sys2Proof.Machine.execAtom h m op d a b s
  | .atoms h m op d a b => Sys2Proof.Machine.execAtoms h m op d a b s
  | .cas h m d a b c => Sys2Proof.Machine.execCas h m d a b c s
  | .cass h m d a b c => Sys2Proof.Machine.execCass h m d a b c s
  | .fence h form sc => Sys2Proof.Machine.execFence h form sc s
  | .ntdrain h => Sys2Proof.Machine.execNtdrain h s
  | .cmntWb h a b => Sys2Proof.Machine.execCmntWb h a b s
  | .cmntInv h a b => Sys2Proof.Machine.execCmntInv h a b s
  | .cmntWbi h a b => Sys2Proof.Machine.execCmntWbi h a b s
  | .prf h l1 m => Sys2Proof.Machine.execPrf h l1 m s
  | .cpy h dir cw d a b c => Sys2Proof.Machine.execCpy h dir cw d a b c s
  | .cpyk h glob cw d a b c => Sys2Proof.Machine.execCpyk h glob cw d a b c s
  | .waita h cond n64 acq sc a b => Sys2Proof.Machine.execWaita h cond n64 acq sc a b s
  | .htest h d a => Sys2Proof.Machine.execHtest h d a s
  | .hcan h a => Sys2Proof.Machine.execHcan h a s
  | .qbind h d a b => Sys2Proof.Machine.execQbind h d a b s
  | .send h ch a => Sys2Proof.Machine.execSend h ch a s
  | .recv h ch a => Sys2Proof.Machine.execRecv h ch a s
  | .qlen h d a => Sys2Proof.Machine.execQlen h d a s
  | .kmk h d a b => Sys2Proof.Machine.execKmk h d a b s
  | .kpar h d a => Sys2Proof.Machine.execKpar h d a s
  | .kchd h d a b => Sys2Proof.Machine.execKchd h d a b s
  | .knbr h d a b => Sys2Proof.Machine.execKnbr h d a b s
  | .klv h d a => Sys2Proof.Machine.execKlv h d a s
  | .kcrd h d a => Sys2Proof.Machine.execKcrd h d a s
  | .klook h d a e => Sys2Proof.Machine.execKlook h d a e s
  | .klookW h d a e => Sys2Proof.Machine.execKlookW h d a e s
  | .kown h d a => Sys2Proof.Machine.execKown h d a s
  | .kpinR h d a e => Sys2Proof.Machine.execKpinR h d a e s
  | .kpinW h d a e => Sys2Proof.Machine.execKpinW h d a e s
  | .kunpinR h a => Sys2Proof.Machine.execKunpinR h a s
  | .kunpinW h a => Sys2Proof.Machine.execKunpinW h a s
  | .refine h cw d a b c => Sys2Proof.Machine.execRefine h cw d a b c s
  | .coarsen h cw d a c => Sys2Proof.Machine.execCoarsen h cw d a c s
  | .rebal h cw d a b c => Sys2Proof.Machine.execRebal h cw d a b c s
  | .shovGive h d a => Sys2Proof.Machine.execShovGive h d a s
  | .shovTake h cw d a c => Sys2Proof.Machine.execShovTake h cw d a c s
  | .mma h mc nc kind row col d a b => Sys2Proof.Machine.execMma h mc nc kind row col d a b s
  | .mdrn h tq cw d a => Sys2Proof.Machine.execMdrn h tq cw d a s
  | .acpTs h row a nb => Sys2Proof.Machine.execAcpTs h row a nb s
  | .acpFs h row a nb => Sys2Proof.Machine.execAcpFs h row a nb s
  | .acpCkTs h row a nb => Sys2Proof.Machine.execAcpCkTs h row a nb s
  | .acpCkFs h row a nb => Sys2Proof.Machine.execAcpCkFs h row a nb s
  | .mmv h cw d a => Sys2Proof.Machine.execMmv h cw d a s
  | .mzero h mc nc i32 row col => Sys2Proof.Machine.execMzero h mc nc i32 row col s
  | .sgenQ h run cls d a => Sys2Proof.Machine.execSgenQ h run cls d a s
  | .sgenK h run cls d a => Sys2Proof.Machine.execSgenK h run cls d a s
  | .sand h run d a b => Sys2Proof.Machine.execSand h run d a b s
  | .sandC h run d a b => Sys2Proof.Machine.execSandC h run d a b s
  | .sor h run d a b => Sys2Proof.Machine.execSor h run d a b s
  | .sorC h run d a b => Sys2Proof.Machine.execSorC h run d a b s
  | .sxor h run d a b => Sys2Proof.Machine.execSxor h run d a b s
  | .sxorC h run d a b => Sys2Proof.Machine.execSxorC h run d a b s
  | .sxnor h run d a b => Sys2Proof.Machine.execSxnor h run d a b s
  | .smux h run d a b sp => Sys2Proof.Machine.execSmux h run d a b sp s
  | .sregen h run cls d a => Sys2Proof.Machine.execSregen h run cls d a s
  | .scnt h d a b => Sys2Proof.Machine.execScnt h d a b s
  | .scntr h d a => Sys2Proof.Machine.execScntr h d a s
  | .sinv h run d a => Sys2Proof.Machine.execSinv h run d a s
  | .slen h run d b => Sys2Proof.Machine.execSlen h run d b s
  | .smovZ h run d a => Sys2Proof.Machine.execSmovZ h run d a s
  | .smovTs h run a b => Sys2Proof.Machine.execSmovTs h run a b s
  | .smovFs h run d b => Sys2Proof.Machine.execSmovFs h run d b s
  | .smovSt h d a => Sys2Proof.Machine.execSmovSt h d a s
  | .slvb h m ex a b => Sys2Proof.Machine.execSlvb h m ex a b s
  | .slvx h => Sys2Proof.Machine.execSlvx h s
  | .acq h => Sys2Proof.Machine.execAcq h s
  | .rel h => Sys2Proof.Machine.execRel h s
  | .bar h sc => Sys2Proof.Machine.execBar h sc s
  | .fetchIdx h d e => Sys2Proof.Machine.execFetchIdx h d e s
  | .fetchTask h flt d e => Sys2Proof.Machine.execFetchTask h flt d e s
  | .deviceSideLaunch h d a => Sys2Proof.Machine.execDeviceSideLaunch h d a s
  | .join h d a => Sys2Proof.Machine.execJoin h d a s
  | .trel h d a => Sys2Proof.Machine.execTrel h d a s
  | .tabn h d a => Sys2Proof.Machine.execTabn h d a s
  | .trap h n => Sys2Proof.Machine.execTrap h n s
  | .tret h => Sys2Proof.Machine.execTret h s
  | .tretTo h a => Sys2Proof.Machine.execTretTo h a s
  | .tretCtx h a => Sys2Proof.Machine.execTretCtx h a s
  | .tmskM h => Sys2Proof.Machine.execTmskM h s
  | .tmskU h => Sys2Proof.Machine.execTmskU h s
  | .brk h n => Sys2Proof.Machine.execBrk h n s
  | .pmskD h => Sys2Proof.Machine.execPmskD h s
  | .pmskA h => Sys2Proof.Machine.execPmskA h s
  | .evnt h a n => Sys2Proof.Machine.execEvnt h a n s
  | .impreciseFaultReturn f => Sys2Proof.Machine.execImpreciseFaultReturn f s
  | .watchdogTrap f => Sys2Proof.Machine.execWatchdogTrap f s
  | .registerResultWrite id => Sys2Proof.Machine.execRegisterResultWrite id s
  | .lineFillReturn id => Sys2Proof.Machine.execLineFillReturn id s
  | .homeRequest id => Sys2Proof.Machine.execHomeRequest id s
  | .writeAcknowledge id => Sys2Proof.Machine.execWriteAcknowledge id s
  | .notOwnerResponse id => Sys2Proof.Machine.execNotOwnerResponse id s
  | .movedResponse id => Sys2Proof.Machine.execMovedResponse id s
  | .busyRetryResponse id => Sys2Proof.Machine.execBusyRetryResponse id s
  | .clusterStoreEviction die cluster line => Sys2Proof.Machine.execClusterStoreEviction die cluster line s
  | .pageWalk id => Sys2Proof.Machine.execPageWalk id s
  | .walkResume id => Sys2Proof.Machine.execWalkResume id s
  | .leaveGrant die ix => Sys2Proof.Machine.execLeaveGrant die ix s
  | .handoverStart stack => Sys2Proof.Machine.execHandoverStart stack s
  | .handoverWriteback stack => Sys2Proof.Machine.execHandoverWriteback stack s
  | .handoverShootdown stack => Sys2Proof.Machine.execHandoverShootdown stack s
  | .ownerFlip stack => Sys2Proof.Machine.execOwnerFlip stack s
  | .handoverFinish stack => Sys2Proof.Machine.execHandoverFinish stack s
  | .pageMoveStart id => Sys2Proof.Machine.execPageMoveStart id s
  | .pageMoveRewrite id => Sys2Proof.Machine.execPageMoveRewrite id s
  | .pageMoveFinish id => Sys2Proof.Machine.execPageMoveFinish id s
  | .copyCommandStart die core => Sys2Proof.Machine.execCopyCommandStart die core s
  | .gatherKeyStep id => Sys2Proof.Machine.execGatherKeyStep id s
  | .commandComplete id => Sys2Proof.Machine.execCommandComplete id s
  | .waitaWake f => Sys2Proof.Machine.execWaitaWake f s
  | .queueDead f => Sys2Proof.Machine.execQueueDead f s
  | .barrierComplete die core wg sc => Sys2Proof.Machine.execBarrierComplete die core wg sc s
  | .formerStartWarp die core wg => Sys2Proof.Machine.execFormerStartWarp die core wg s
  | .binRipe die core wg bin => Sys2Proof.Machine.execBinRipe die core wg bin s
  | .formerSwapOut die core wg => Sys2Proof.Machine.execFormerSwapOut die core wg s
  | .costAdd f => Sys2Proof.Machine.execCostAdd f s
  | .directoryOperation id => Sys2Proof.Machine.execDirectoryOperation id s
  | .rebalanceNotify id => Sys2Proof.Machine.execRebalanceNotify id s
  | .rebalancePlan sp => Sys2Proof.Machine.execRebalancePlan sp s
  | .rebalanceStops sp => Sys2Proof.Machine.execRebalanceStops sp s
  | .patienceExpiry sp => Sys2Proof.Machine.execPatienceExpiry sp s
  | .rebalanceAbort sp => Sys2Proof.Machine.execRebalanceAbort sp s
  | .rebalanceCommit sp => Sys2Proof.Machine.execRebalanceCommit sp s
  | .deckleInvalidate sp die => Sys2Proof.Machine.execDeckleInvalidate sp die s
  | .deckleInstall sp die => Sys2Proof.Machine.execDeckleInstall sp die s
  | .matrixLeaseGrant die core => Sys2Proof.Machine.execMatrixLeaseGrant die core s
  | .pulpLeaseGrant die core => Sys2Proof.Machine.execPulpLeaseGrant die core s
  | .leasePass die core pulp => Sys2Proof.Machine.execLeasePass die core pulp s
  | .allotmentGrant die core => Sys2Proof.Machine.execAllotmentGrant die core s
  | .mmvStart id => Sys2Proof.Machine.execMmvStart id s
  | .calenderStep die core wg => Sys2Proof.Machine.execCalenderStep die core wg s
  | .rotation die core => Sys2Proof.Machine.execRotation die core s
  | .preemptionRequest die core wg => Sys2Proof.Machine.execPreemptionRequest die core wg s
  | .preemptionHandlerEntry die core wg warp => Sys2Proof.Machine.execPreemptionHandlerEntry die core wg warp s
  | .preemptionOverdue die core wg => Sys2Proof.Machine.execPreemptionOverdue die core wg s
  | .workgroupRestore die core wg => Sys2Proof.Machine.execWorkgroupRestore die core wg s
  | .signal die queue bar tag addr val exch => Sys2Proof.Machine.execSignal die queue bar tag addr val exch s
  | .waitSignal die queue bar tag addr val cond => Sys2Proof.Machine.execWaitSignal die queue bar tag addr val cond s
  | .waitSignalMet die queue => Sys2Proof.Machine.execWaitSignalMet die queue s
  | .launch die queue bar tag rec => Sys2Proof.Machine.execLaunch die queue bar tag rec s
  | .spanLaunch bar tag recs shares n base => Sys2Proof.Machine.execSpanLaunch bar tag recs shares n base s
  | .copy die queue bar tag dst src len cwa cwv => Sys2Proof.Machine.execCopy die queue bar tag dst src len cwa cwv s
  | .pageMove die queue bar tag va dst npg psz flg cwa cwv => Sys2Proof.Machine.execPageMove die queue bar tag va dst npg psz flg cwa cwv s
  | .spaceCreate die queue bar tag desc sp => Sys2Proof.Machine.execSpaceCreate die queue bar tag desc sp s
  | .spaceDestroy die queue bar tag sp => Sys2Proof.Machine.execSpaceDestroy die queue bar tag sp s
  | .eventConfig die queue bar tag base lsz mask => Sys2Proof.Machine.execEventConfig die queue bar tag base lsz mask s
  | .nopPacket die queue bar tag => Sys2Proof.Machine.execNopPacket die queue bar tag s
  | .gridDispatch die ix => Sys2Proof.Machine.execGridDispatch die ix s
  | .gridComplete die grid => Sys2Proof.Machine.execGridComplete die grid s
  | .queueDoorbell fn queue wr => Sys2Proof.Machine.execQueueDoorbell fn queue wr s
  | .queueEnable fn queue w0 => Sys2Proof.Machine.execQueueEnable fn queue w0 s
  | .queueDisable fn queue w0 => Sys2Proof.Machine.execQueueDisable fn queue w0 s
  | .queueReconfigure fn queue word v => Sys2Proof.Machine.execQueueReconfigure fn queue word v s
  | .queueErrorClear fn queue v => Sys2Proof.Machine.execQueueErrorClear fn queue v s
  | .tlbInvalidate die v => Sys2Proof.Machine.execTlbInvalidate die v s
  | .tlbInvalidateAll die v => Sys2Proof.Machine.execTlbInvalidateAll die v s
  | .tlbInvalidateDone die => Sys2Proof.Machine.execTlbInvalidateDone die s
  | .nearMemoryCounterWrite stack ctr v => Sys2Proof.Machine.execNearMemoryCounterWrite stack ctr v s
  | .precmdAll die => Sys2Proof.Machine.execPrecmdAll die s
  | .debugHalt die => Sys2Proof.Machine.execDebugHalt die s
  | .debugResume die => Sys2Proof.Machine.execDebugResume die s
  | .versionHandshake die req => Sys2Proof.Machine.execVersionHandshake die req s
  | .eventRingConsume die rd => Sys2Proof.Machine.execEventRingConsume die rd s
  | .eventRecordPost die => Sys2Proof.Machine.execEventRecordPost die s
  | .overflowRecord die => Sys2Proof.Machine.execOverflowRecord die s
  | .attestationRequest nonce => Sys2Proof.Machine.execAttestationRequest nonce s
  | .registerWrite r => Sys2Proof.Machine.execRegisterWrite r s
  | .inboundPostedWrite req addr data ro => Sys2Proof.Machine.execInboundPostedWrite req addr data ro s
  | .orderingPointForward id => Sys2Proof.Machine.execOrderingPointForward id s
  | .inboundRead req addr n => Sys2Proof.Machine.execInboundRead req addr n s
  | .multicastFork die port => Sys2Proof.Machine.execMulticastFork die port s
  | .feltlinkTraining port maj min => Sys2Proof.Machine.execFeltlinkTraining port maj min s
  | .feltlinkFlitReceive port ver seq crcOk payload => Sys2Proof.Machine.execFeltlinkFlitReceive port ver seq crcOk payload s
  | .feltlinkSlotSend port => Sys2Proof.Machine.execFeltlinkSlotSend port s
  | .eccError addr corrected die core unit => Sys2Proof.Machine.execEccError addr corrected die core unit s
  | .katDue die core lane => Sys2Proof.Machine.execKatDue die core lane s
  | .thermalSensorChange die core temp => Sys2Proof.Machine.execThermalSensorChange die core temp s
  | .droopEvent die core => Sys2Proof.Machine.execDroopEvent die core s
  | .thermalReset die => Sys2Proof.Machine.execThermalReset die s
  | .packageReset => Sys2Proof.Machine.execPackageReset s
  | .feltlinkPortDown port => Sys2Proof.Machine.execFeltlinkPortDown port s
  | .matrixInstructionFinish die core => Sys2Proof.Machine.execMatrixInstructionFinish die core s
  | .pulpInstructionComplete die core => Sys2Proof.Machine.execPulpInstructionComplete die core s

end Sys2Proof.Machine
end

