-- ==== Sys2Proof/Machine/Turn.lean ====
section
/-! DEFINITION. The issue turn of a fragment: which slot of a lane issues, and what it issues or takes (02 R59; 07 R209; 17 R403; 18 R420, R429). -/

namespace Sys2Proof.Machine

/-- The state in which a fragment issues a word that it has fetched: the word stays with it until it has issued (R403). -/
def issuing (s : State) (f : FragRef) (w : W64) : State :=
  { s with cur := f, word := w }.modFrag f (fun p =>
    { p with iword := some w, prevIssue := p.lastIssue, lastIssue := s.tick, wait := if p.kept == Wait.none then p.wait else p.kept, kept := Wait.none })

/-- The fetch of a fragment (R60, R211). -/
def fetchOf (s : State) (f : FragRef) (p : Frag) : Fetched :=
  fetchWord s { die := f.die, core := some f.core, holds := p.wait == .walk, who := .frag p.uid p.seq } f.core p.pc.toNat

/-- The word of a fragment would issue, and not stall again (R403). -/
def wouldIssue (s : State) (f : FragRef) (p : Frag) (w : W64) : Bool :=
  match decode w with
  | none => true
  | some i =>
    match exec i (issuing s f w) with
    | .next t => (t.frag? f).all (fun q => q.uid != p.uid || q.pc != p.pc || q.seq != p.seq || q.wait.issued)
    | _ => true

/-- A fragment that is not stalled, or whose stall has ended: its word is there and would issue (R403). -/
def unstalled (s : State) (f : FragRef) (p : Frag) : Bool :=
  p.wait == .none ||
  (match p.iword with
    | some w => wouldIssue s f p w
    | none => (match fetchOf s f p with | .wait _ => false | _ => true))

/-- A PC slot is eligible (R403). -/
def slotReady (s : State) (g : Wg) (f : FragRef) (p : Frag) : Bool :=
  p.occ && g.resident && !p.stopped && !p.wait.byEvent && unstalled s f p

/-- The order of the issue choice: least recent issue, then lower warp slot, then lower tag, then S0 (R403). -/
def issueLt (a b : Nat × Nat × Nat × Bool) : Bool :=
  a.1 < b.1 || (a.1 == b.1 && (a.2.1 < b.2.1 || (a.2.1 == b.2.1 &&
    (a.2.2.1 < b.2.2.1 || (a.2.2.1 == b.2.2.1 && !a.2.2.2 && b.2.2.2)))))

/-- No eligible slot of the lane issued less recently (R403). -/
def laneTurn (s : State) (f : FragRef) (p : Frag) : Bool :=
  let mine := (p.lastIssue, f.warp, f.wg, f.s1)
  (s.die f.die).wgs.all (fun e => e.2.core != f.core || e.2.warps.all (fun w =>
    w.1 % 16 != f.warp % 16 || [false, true].all (fun s1 =>
      !issueLt ((w.2.slot s1).lastIssue, w.1, e.1, s1) mine || !slotReady s e.2 ⟨f.die, f.core, e.1, w.1, s1⟩ (w.2.slot s1))))

/-- What an issue turn of a fragment does: nothing or a trap, or the instruction it issues. -/
inductive Issue where
  | idle (s : State)
  | run (i : Instr) (s : State)
  deriving Repr, Inhabited

/-- The fragment issues a fetched word, or takes the illegal-instruction trap (R227). -/
def issueWord (s : State) (f : FragRef) (w : W64) : Issue :=
  match decode w with
  | some i => .run i (issuing s f w)
  | none => .idle (illegal (issuing s f w) f)

/-- A fragment's fetch is held up; the wait of its word, where that has waited already, comes back with the word. -/
def fetchHeld (s : State) (f : FragRef) (h : Held) : State :=
  holdFor (s.modFrag f (fun p =>
    { p with prevIssue := p.lastIssue, kept := match p.wait with | .task => .task | .popDead q => .popDead q | _ => p.kept })) f h

/-- A fragment issues its next word: the one that it has fetched already, or the one that lies at its pc (R211, R403). -/
def issueNext (s : State) (f : FragRef) (c : Ctx) : Issue :=
  match c.p.iword with
  | some w => issueWord s f w
  | none =>
    match fetchOf s f c.p with
    | .wait h => .idle (fetchHeld s f h)
    | .fault cause => .idle (takeImprecise s f ⟨cause, c.p.pc, c.p.pc, c.p.seq, c.p.am⟩)
    | .word w s => issueWord s f w

/-- The issue turn of a fragment (R59, R209, R403, R420, R429). A fragment that waits at `jn` takes a returned fault at once (log entry 105). -/
def issueTurn (s : State) (f : FragRef) : Issue :=
  match ctxOf s f with
  | none => .idle s
  | some c =>
    let die := s.die f.die
    if !c.g.resident || c.p.stopped || (die.halt && !c.p.defers) || die.inReset then .idle s
    else if c.p.wait.byEvent && !(c.p.wait == .jn && c.p.fault.isSome) then .idle s
    else if c.p.fault.isSome && c.p.wait != .join then
      match c.p.fault with
      | some r => if c.g.precise && !settledAll s f c.p.uid then .idle s else .idle (takeImprecise s f r)
      | none => .idle s
    else if c.p.wdDue.isSome && c.p.wait != .join then .idle (takeWatchdog s f)
    else if (c.g.preReq || c.w.preW) && !c.p.defers then .idle (s.modFrag f (fun p => { p with stopped := true }))
    else if !laneTurn s f c.p then .idle s
    else issueNext s f c

end Sys2Proof.Machine
end

