-- ==== Sys2Proof/Machine/Step.lean ====
section
/-! DEFINITION. One step of the package (log entry 2): the next turn of the agenda, or a free turn; and the placement of one
instruction where the next step fetches it. -/

namespace Sys2Proof.Machine

/-- One turn: a fragment issues, an event happens, a loader reports an image, or a soft error strikes an accumulator element. A program word is no event, and no event names a die, a core or a lane
that the package lacks (R10). -/
def runTurn (t : Turn) (s : State) : Host.Outcome State Fault Refusal :=
  match t with
  | .ev i => if (encode i).isSome || !i.wf then .next s else exec i s
  | .load d img => .next (loadImage s d img)
  | .flip d c e v => .next (flipAcc s d c e v)
  | .issue f =>
    match issueTurn s f with
    | .idle s => .next s
    | .run i s => exec i s

/-- One step. Time passes with it (log entry 5). -/
def step (s : State) : Host.Outcome State Fault Refusal :=
  let s := { s with tick := s.tick + 1, clock := s.clock + 1 }
  match s.agenda with
  | t :: rest => runTurn t { s with agenda := rest }
  | [] => runTurn (Config.turn s.tick) s

/-- The slot that `withFetchWord` fills: workgroup 0 of core 0 of die 0, warp 0. -/
def loaderSlot : FragRef := ⟨0, 0, 0, 0, false⟩

/-- The workgroup a launch of one warp leaves on the core, with its first fragment at `pc` (R187, R208). -/
def loaderWg (pc : W64) : Wg :=
  { warps := [(0, { s0 := { occ := true, pc := pc, am := 0xFFFFFFFF }
                    thr := (List.range 32).map (fun i => { tid := i, live := true }) })]
    entry := pc, trapv := pc, prol := 4, full := 4, splen := 4096, wlim := 0x100000000
    queues := List.replicate 16 {}, bars := List.replicate 4 {}, kimg := List.replicate 31 0 }

/-- Where the placed instruction lies: virtual and physical address. -/
def loaderAddr : Nat := 0x10000

/-- The state with an instruction placed where the next step fetches it (log entry 11): it stands for the loading and the
launch of a program of one warp. -/
def State.withFetchWord (s : State) (nbits w : Nat) : State :=
  let _ := nbits
  let pc : W64 := BitVec.ofNat 64 loaderAddr
  let s := wrBytes s loaderAddr (bytesOfWord (BitVec.ofNat 64 w))
  let s := s.modDie 0 (fun d => { d with pgroot := d.pgroot ||| 1, halt := false, inReset := false,
                                         own := d.own ||| 1, wgs := Tab.set d.wgs 0 (loaderWg pc) })
  let s := s.modStk 0 (fun k => { k with owner := 0, hov := none, busy := [] })
  let s := s.modCore 0 0 (fun c => { c with icache := Tab.erase c.icache loaderAddr
                                            tlb := [⟨loaderAddr, 0x10000, 0x0200000000010008 + 0x13, 0⟩] })
  { s with agenda := [.issue loaderSlot] }

end Sys2Proof.Machine
end

