-- ==== Sys2Proof/Certificates/Slice0/Obligations.lean ====
section
/-! DEFINITION. The statements for the provers, and the words they are written in. A statement about a word of a program takes the issuing
fragment as its context `c`; a statement about an event takes the state in which the event happens. -/

open Sys2Proof Sys2Proof.Machine

namespace Sys2Proof.Machine

/-! ### Reading a state -/

/-- Register `r` of thread `j` of the fragment in slot `f` (R199). -/
def wVal (s : State) (f : FragRef) (j r : Nat) : W32 :=
  match ctxOf s f with
  | some c => (c.w.thread j).readW c.p r
  | none => 0

/-- k register `i` of the warp of slot `f` (R205). -/
def kVal (s : State) (f : FragRef) (i : Nat) : W64 :=
  match s.warp? f with
  | some w => w.readK i
  | none => 0

/-- A fragment as it stands after a word that goes on at `pc`: it waits for nothing; a replay mask has served, but for one that a handler will
return to (R419). -/
def Frag.goesOn (p : Frag) (pc : W64) : Frag :=
  { p with pc := pc, wait := .none, kept := .none, seq := p.seq + 1, relOf := none, iword := none
           rplOn := p.rplOn && p.inH, rpl := if p.inH then p.rpl else 0 }

/-- A fragment that stays at its word, which has not issued, for a reason (R403). -/
def Frag.stays (p : Frag) (w : Wait) : Frag := { p with wait := w, lastIssue := p.prevIssue }

/-! ### When a word runs -/

/-- The issuing fragment is `c`; no switch marker or precise bit holds it (R225, R419); none of the k registers `ks`, which the word
reads, is pending (R80). -/
def Begins (sw : Bool) (ks : List Nat) (s : State) (c : Ctx) : Prop :=
  ctx? s = some c ∧ markerWaits s c sw = false ∧ ∀ i ∈ ks, c.w.kpend.getLsbD i = false

/-- The guard carries no poison, which a uniform word reads once and any other for its active threads; none of `ts` reads poison through an operand of `os` (R432). -/
def Clean (c : Ctx) (h : Hdr) (uni : Bool) (ts : List Nat) (os : List Opd) : Prop :=
  firstPois c (if uni then [0] else maskList c.p.am) [guardOpd h] = none ∧ firstPois c ts os = none

/-- Every queue source is bound, is no destination of a copy engine, and holds the words popped by `n` threads; a queue destination is bound,
is not fed by an engine, and has room for what is pushed once the pops are made; no access of the agent still works on the words (R90 to R92, R146). -/
def QueuesOpen (s : State) (c : Ctx) (n : Nat) (srcs : List Src) (d : Opd) (dw : Nat) : Prop :=
  (∀ x ∈ qNeeds n srcs, (c.g.queue x.1).port ≠ 2 ∧ (c.g.queue x.1).port ≠ 0 ∧ c.p.wait ≠ .popDead x.1 ∧
    needOf (qNeeds n srcs) x.1 ≤ (c.g.queue x.1).count) ∧
  (∀ i, d = .q i → (c.g.queue i.toNat).port ≠ 3 ∧ (c.g.queue i.toNat).port ≠ 0 ∧ c.p.wait ≠ .popDead i.toNat ∧
    pushCount n dw ≤ 256 - ((c.g.queue i.toNat).count - needOf (qNeeds n srcs) i.toNat)) ∧
  opsHeld s c (popRanges c n srcs) (pushRange c n d dw) = false

/-! ### Register words: integer, floating-point, packed, compare, convert and read-special -/

/-- What a register word is made of: guard, destination and its width, sources, lane cycles, generator class, elements drawn by a thread,
and the result of a thread from its draws and its source values (R172, R218, R252 to R254). -/
structure Row where
  h : Hdr
  d : Opd
  dw : Nat
  srcs : List Src
  cyc : Nat → Nat
  cls : Option (BitVec 4) := none
  els : Nat := 0
  op : (Nat → Nat) → List Nat → Res

/-- A row of the integer table (R255, R256). -/
def intRow (h : Hdr) (m : IntMod) (d : Opd) (srcs : List Opd) (cyc : Nat → Nat) (op : List Nat → Res) : Row :=
  { h := h, d := d, dw := wdth m.wd, srcs := srcs.map (isrc m), cyc := cyc, op := fun _ v => op v }

/-- A row of the scalar floating-point table: one rounding of an exact value (R261 to R263). -/
def fpRow (c : Ctx) (h : Hdr) (m : FpMod) (d : Opd) (srcs : List Opd) (cyc : Nat → Nat) (op : List FV → FV) : Row :=
  { h := h, d := d, dw := ftyW m.ty, srcs := srcs.map (fsrc m.ty), cyc := cyc, cls := rndClass m.rm, els := 1
    op := fpRes (flushes c m.ty) m op }

/-- A row of a function of one operand (R261 to R263). -/
def fnRow (c : Ctx) (h : Hdr) (m : FpMod) (d a : Opd) (op : Nat → FV → FV) : Row :=
  { h := h, d := d, dw := ftyW m.ty, srcs := [fsrc m.ty a], cyc := fnCyc m.ty, cls := rndClass m.rm, els := 1
    op := fun g v => fnRes (flushes c m.ty) m op g (arg v 0) }

/-- A row of the packed table: two elements, each as the scalar form computes it (R266). -/
def hpRow (h : Hdr) (m : HpMod) (d : Opd) (srcs : List Opd) (op : List FV → FV) : Row :=
  { h := h, d := d, dw := 32, srcs := srcs.map (hsrc m.bf), cyc := (ceilDiv · 4), cls := rndClass m.rm, els := 2
    op := hpRes m op }

/-- The two operands of an integer row as integers (R256). -/
def ints (m : IntMod) (op : Int → Int → Res) : List Nat → Res :=
  fun v => op (ival (wdth m.wd) m.sg (arg v 0)) (ival (wdth m.wd) m.sg (arg v 1))

/-- The integer and bit instructions (R255 to R260). -/
def intTable : Instr → Option Row
  | .iadd h m d a b => some (intRow h m d [a, b] (intCyc m.wd 2) (ints m (fun x y => fin (wdth m.wd) m.sat m.sg (x + y))))
  | .isub h m d a b => some (intRow h m d [a, b] (intCyc m.wd 2) (ints m (fun x y => fin (wdth m.wd) m.sat m.sg (x - y))))
  | .imul h m d a b => some (intRow h m d [a, b] (intCyc m.wd 4) (ints m (fun x y => fin (wdth m.wd) m.sat m.sg (x * y))))
  | .imulh h m d a b => some (intRow h m d [a, b] (intCyc m.wd 4)
      (ints m (fun x y => plain (wrapN (wdth m.wd) (x * y / (2 ^ wdth m.wd : Nat))))))
  | .imad h m d a b c => some (intRow h m d [a, b, c] (intCyc m.wd 4)
      (fun v => fin (wdth m.wd) m.sat m.sg
        (ival (wdth m.wd) m.sg (arg v 0) * ival (wdth m.wd) m.sg (arg v 1) + ival (wdth m.wd) m.sg (arg v 2))))
  | .idiv h m d a b => some (intRow h m d [a, b] (divCyc m.wd)
      (fun v => fin (wdth m.wd) m.sat m.sg (quot (wdth m.wd) m.sg (arg v 0) (arg v 1))))
  | .irem h m d a b => some (intRow h m d [a, b] (divCyc m.wd)
      (fun v => plain (wrapN (wdth m.wd) (remI (wdth m.wd) m.sg (arg v 0) (arg v 1)))))
  | .imin h m d a b => some (intRow h m d [a, b] (intCyc m.wd 2)
      (fun v => plain (if ival (wdth m.wd) m.sg (arg v 0) ≤ ival (wdth m.wd) m.sg (arg v 1) then arg v 0 % 2 ^ wdth m.wd
        else arg v 1 % 2 ^ wdth m.wd)))
  | .imax h m d a b => some (intRow h m d [a, b] (intCyc m.wd 2)
      (fun v => plain (if ival (wdth m.wd) m.sg (arg v 0) ≤ ival (wdth m.wd) m.sg (arg v 1) then arg v 1 % 2 ^ wdth m.wd
        else arg v 0 % 2 ^ wdth m.wd)))
  | .iabs h m d a => some (intRow h m d [a] (intCyc m.wd 2)
      (fun v => fin (wdth m.wd) m.sat false (Int.natAbs (ival (wdth m.wd) false (arg v 0)))))
  | .and h m d a b => some (intRow h m d [a, b] (intCyc m.wd 2) (fun v => plain (arg v 0 &&& arg v 1)))
  | .or h m d a b => some (intRow h m d [a, b] (intCyc m.wd 2) (fun v => plain (arg v 0 ||| arg v 1)))
  | .xor h m d a b => some (intRow h m d [a, b] (intCyc m.wd 2) (fun v => plain (arg v 0 ^^^ arg v 1)))
  | .andn h m d a b => some (intRow h m d [a, b] (intCyc m.wd 2)
      (fun v => plain (arg v 0 &&& (2 ^ wdth m.wd - 1 - arg v 1 % 2 ^ wdth m.wd))))
  | .shl h m d a b => some (intRow h m d [a, b] (intCyc m.wd 2)
      (fun v => plain (arg v 0 * 2 ^ (arg v 1 % wdth m.wd) % 2 ^ wdth m.wd)))
  | .shr h m d a b => some (intRow h m d [a, b] (intCyc m.wd 2) (fun v => plain (arg v 0 / 2 ^ (arg v 1 % wdth m.wd))))
  | .sar h m d a b => some (intRow h m d [a, b] (intCyc m.wd 2)
      (fun v => plain (wrapN (wdth m.wd) (sgn (wdth m.wd) (arg v 0) / (2 ^ (arg v 1 % wdth m.wd) : Nat)))))
  | .rot h m d a b => some (intRow h m d [a, b] (intCyc m.wd 2)
      (fun v => plain (rotl (wdth m.wd) (arg v 0)
        (if m.f = 1 then (wdth m.wd - arg v 1 % wdth m.wd) % wdth m.wd else arg v 1 % wdth m.wd))))
  | .bfx h m d a b => some (intRow h m d [a, b] (intCyc m.wd 2) (fun v => plain (bfxVal (wdth m.wd) m.sg (arg v 0) (arg v 1))))
  | .bfi h m d a b c => some (intRow h m d [a, b, c] (intCyc m.wd 2)
      (fun v => plain (bfiVal (wdth m.wd) (arg v 0) (arg v 1) (arg v 2))))
  | .popc h m d a => some (intRow h m d [a] (intCyc m.wd 2) (fun v => plain (popN (wdth m.wd) (arg v 0))))
  | .clz h m d a => some (intRow h m d [a] (intCyc m.wd 2) (fun v => plain (clzN (wdth m.wd) (arg v 0))))
  | .ctz h m d a => some (intRow h m d [a] (intCyc m.wd 2) (fun v => plain (ctzN (wdth m.wd) (arg v 0))))
  | .brev h m d a => some (intRow h m d [a] (intCyc m.wd 2) (fun v => plain (brevN (wdth m.wd) (arg v 0))))
  | .mov h m d a => some (intRow h m d [a] (intCyc m.wd 2) (fun v => plain (arg v 0)))
  | .movi h m d v => some (intRow h m d (if m.f = 0 then [] else [d]) (intCyc m.wd 2) (fun o => plain (moviVal m v (arg o 0))))
  | .bperm h m d a b c => some (intRow h m d [a, b, c] (intCyc m.wd 2) (fun v => plain (bpermVal (arg v 0) (arg v 1) (arg v 2))))
  | .idot4 h m d a b c => some (intRow h m d [a, b, c] (intCyc m.wd 2)
      (fun v => fin 32 m.sat m.sg (dot4 m.sg (arg v 0) (arg v 1) (arg v 2))))
  | _ => none

/-- The scalar and packed floating-point instructions (R261 to R266). -/
def fpTable (c : Ctx) : Instr → Option Row
  | .fadd h m d a b => some (fpRow c h m d [a, b] (fpCyc m.ty) (fun x => FV.add (farg x 0) (farg x 1) (m.rm == .rdn)))
  | .fsub h m d a b => some (fpRow c h m d [a, b] (fpCyc m.ty) (fun x => FV.add (farg x 0) (farg x 1).neg (m.rm == .rdn)))
  | .fmul h m d a b => some (fpRow c h m d [a, b] (fpCyc m.ty) (fun x => FV.mul (farg x 0) (farg x 1)))
  | .ffma h m d a b e => some (fpRow c h m d [a, b, e] (fpCyc m.ty)
      (fun x => FV.add (FV.mul (farg x 0) (farg x 1)) (farg x 2) (m.rm == .rdn)))
  | .fdiv h m d a b => some (fpRow c h m d [a, b] (fnCyc m.ty) (fun x => FV.div (farg x 0) (farg x 1)))
  | .fsqrt h m d a => some (fpRow c h m d [a] (fnCyc m.ty) (fun x => FV.sqrt (farg x 0)))
  | .frcp h m d a => some (fnRow c h m d a (fun _ => fRcp))
  | .frsq h m d a => some (fnRow c h m d a (fun _ => fRsq))
  | .fexp2 h m d a => some (fnRow c h m d a fExp2)
  | .flog2 h m d a => some (fnRow c h m d a fLog2)
  | .fsin h m d a => some (fnRow c h m d a fSin)
  | .fcos h m d a => some (fnRow c h m d a fCos)
  | .ftanh h m d a => some (fnRow c h m d a fTanh)
  | .frnd h m d a => some (fpRow c h m d [a] (fpCyc m.ty) (fun x => fRound m.rm (farg x 0)))
  | .fmin h m d a b => some { h := h, d := d, dw := ftyW m.ty, srcs := [fsrc m.ty a, fsrc m.ty b], cyc := fpCyc m.ty
                              op := fun _ v => plain (minmax (ftyFmt m.ty) (flushes c m.ty) false (arg v 0) (arg v 1)) }
  | .fmax h m d a b => some { h := h, d := d, dw := ftyW m.ty, srcs := [fsrc m.ty a, fsrc m.ty b], cyc := fpCyc m.ty
                              op := fun _ v => plain (minmax (ftyFmt m.ty) (flushes c m.ty) true (arg v 0) (arg v 1)) }
  | .fscl h m d a b => some { h := h, d := d, dw := ftyW m.ty, srcs := [fsrc m.ty a, ⟨b, 32, .int⟩], cyc := fpCyc m.ty
                              cls := rndClass m.rm, els := 1
                              op := fun g v => fnRes (flushes c m.ty) m (fun _ x => x.scale (sclExp (arg v 1))) g (arg v 0) }
  | .fclass h m d a => some { h := h, d := d, dw := 32, srcs := [fsrc m.ty a], cyc := fpCyc m.ty
                              op := fun _ v => plain (classOf (ftyFmt m.ty) (arg v 0)) }
  | .h2add h m d a b => some (hpRow h m d [a, b] (fun x => FV.add (farg x 0) (farg x 1) (m.rm == .rdn)))
  | .h2mul h m d a b => some (hpRow h m d [a, b] (fun x => FV.mul (farg x 0) (farg x 1)))
  | .h2fma h m d a b e => some (hpRow h m d [a, b, e] (fun x => FV.add (FV.mul (farg x 0) (farg x 1)) (farg x 2) (m.rm == .rdn)))
  | .h2min h m d a b => some { h := h, d := d, dw := 32, srcs := [hsrc m.bf a, hsrc m.bf b], cyc := (ceilDiv · 4)
                               op := fun _ v => hpMm m.bf false (arg v 0) (arg v 1) }
  | .h2max h m d a b => some { h := h, d := d, dw := 32, srcs := [hsrc m.bf a, hsrc m.bf b], cyc := (ceilDiv · 4)
                               op := fun _ v => hpMm m.bf true (arg v 0) (arg v 1) }
  | .fdot2 h m d a b e => some { h := h, d := d, dw := 32, srcs := [hsrc m.bf a, hsrc m.bf b, ⟨e, 32, .flt .f32⟩], cyc := (ceilDiv · 4)
                                 cls := rndClass m.rm, els := 1
                                 op := fun g v => dot2Res m g (arg v 0) (arg v 1) (arg v 2) }
  | _ => none

/-- The compare, select, convert, pack and trit instructions, and the reads of special registers (R267 to R273, R290, R291). -/
def moveTable (s : State) (c : Ctx) : Instr → Option Row
  | .icmp h cond comb nat w64 t f d a b =>
    some { h := h, d := d, dw := cmpDw d, srcs := [⟨a, wdth w64, .int⟩, ⟨b, wdth w64, .int⟩, ⟨d, cmpDw d, .int⟩], cyc := intCyc w64 2
           op := fun _ v => plain (icmpVal cond comb nat w64 t f (arg v 0) (arg v 1) (arg v 2)) }
  | .fcmp h cond comb lo hi t f d a b =>
    let ty := fcmpTy lo hi
    some { h := h, d := d, dw := cmpDw d, srcs := [fsrc ty a, fsrc ty b, ⟨d, cmpDw d, .int⟩], cyc := intCyc (ty == .f64) 2
           op := fun _ v =>
             let x := fdecode (ftyFmt ty) (arg v 0)
             let y := fdecode (ftyFmt ty) (arg v 1)
             plain (cmpWrite comb t.toNat f.toNat (arg v 2)
               (condHolds cond (if x.isNan || y.isNan then none else some (FV.cmp x y)))) }
  | .sel h n w64 d a b e =>
    some { h := h, d := d, dw := wdth w64, srcs := [⟨a, wdth w64, .int⟩, ⟨b, wdth w64, .int⟩, ⟨e, 32, .int⟩], cyc := intCyc w64 2
           op := fun _ v => plain (if bitAt (arg v 2) n.toNat then arg v 0 else arg v 1) }
  | .cvt h rm sat dt st d a =>
    some { h := h, d := d, dw := ctyW dt, srcs := [⟨a, ctyW st, .int⟩]
           cyc := fun n => (if c.g.conv && c.p.am != 0 && ctyWide st then 2 else 1) * max 1 (ceilDiv n 4), cls := rndClass rm, els := 1
           op := fun g v => cvtOne c.g.conv ⟨rm, g 0⟩ sat dt st (cvtSrc st a (arg v 0)) }
  | .pack h sz d a b e =>
    some { h := h, d := d, dw := 32, srcs := [⟨a, 32, .int⟩, ⟨b, 32, .int⟩, ⟨e, 32, .int⟩], cyc := intCyc false 1
           op := fun _ v => plain (packVal sz (arg v 0) (arg v 1) (arg v 2)) }
  | .unpk h sz sx d a b =>
    some { h := h, d := d, dw := 32, srcs := [⟨a, 32, .int⟩, ⟨b, 32, .int⟩], cyc := intCyc false 1
           op := fun _ v => plain (unpkVal sz sx (arg v 0) (arg v 1)) }
  | .t3enc h d a => some { h := h, d := d, dw := 32, srcs := [⟨a, 64, .int⟩], cyc := intCyc true 2, op := fun _ v => plain (t3encVal (arg v 0)) }
  | .t3dec h d a =>
    some { h := h, d := d, dw := 64, srcs := [⟨a, 32, .int⟩], cyc := intCyc true 2
           op := fun _ v => ⟨t3decVal (bitsOf (arg v 0) 0 8), flagBits (bitsOf (arg v 0) 0 8 ≥ 243) false false false false⟩ }
  | .rds h d ix => some { h := h, d := d, dw := rdsW d, srcs := [⟨.sp ix, rdsW d, .int⟩], cyc := fun _ => 1, op := fun _ v => plain (arg v 0) }
  | .rdsId h d ix =>
    some { h := h, d := d, dw := rdsW d, srcs := [], cyc := fun _ => 1
           op := fun _ _ => plain ((if ix = 0 then (s.die c.f.die).rev else (s.die c.f.die).feat).toNat % 2 ^ rdsW d) }
  | _ => none

/-- The register words of the opcode table. -/
def rowOf (s : State) (c : Ctx) (i : Instr) : Option Row := ((intTable i).orElse fun _ => fpTable c i).orElse fun _ => moveTable s c i

/-- The threads that a register word acts for: one at most where the destination makes it uniform (R215, R218). -/
def Row.threads (r : Row) (c : Ctx) : List Nat := if r.d.isK then (if uniHolds c r.h then [0] else []) else acting c r.h

/-- The results of a register word, one for each of its threads (R253): thread number `j` of `n` draws element `e` at draw `e n + j` (R172). -/
def Row.results (r : Row) (s : State) (c : Ctx) : List Res :=
  let n := (r.threads c).length
  (List.range n).map (fun j =>
    r.op (fun e => drawIf c.w r.cls (e * n + j))
      ((allVals c r.d.isK (r.threads c) r.srcs s).1.map (fun l => (l[j]?).getD 0)))

/-- The value of result `p`. -/
def Row.result (r : Row) (s : State) (c : Ctx) (p : Nat) : Nat := (((r.results s c)[p]?).map (·.v)).getD 0

/-- The flags that the results raise. -/
def Row.flags (r : Row) (s : State) (c : Ctx) : BitVec 5 := (r.results s c).foldl (fun a x => a ||| x.fl) 0

/-- The word runs: it is ready, its operands carry no poison, and its queues are open. -/
def Row.Runs (r : Row) (s : State) (c : Ctx) : Prop :=
  Begins r.h.sw (kRegs (guardOpd r.h :: r.srcs.map (·.o))) s c ∧ Clean c r.h r.d.isK (r.threads c) (r.srcs.map (·.o)) ∧
    QueuesOpen s c (r.threads c).length r.srcs r.d r.dw

end Sys2Proof.Machine

/-- O1. A register word that runs completes: its fragment goes on at the next word, its flags are raised, and the stochastic
index advances by the elements drawn (R172, R179). -/
def Obligations.RegisterWordsComplete : Prop :=
  ∀ (i : Instr) (s : State) (c : Ctx) (r : Row), rowOf s c i = some r → r.Runs s c →
    ∃ t, exec i s = .next t ∧
      t.frag? c.f = some (c.p.goesOn (c.p.pc + 8)) ∧
      (∃ w, t.warp? c.f = some w ∧ w.fpstat = c.w.fpstat ||| r.flags s c ∧
        w.srix = c.w.srix + (match r.cls with | some _ => BitVec.ofNat 32 (r.els * (r.threads c).length) | none => 0))

/-- O2. What a register word that runs writes, and what it leaves: each acting thread's destination register holds its result, or reads
zero where it is w0; every other w and k register keeps its value. A register word that runs stores nothing: every byte of memory and its poison, every access and command in flight, the stacks
and the key spaces are as before. -/
def Obligations.RegisterWordResultsAndFrame : Prop :=
  (∀ (i : Instr) (s t : State) (c : Ctx) (r : Row), rowOf s c i = some r → r.Runs s c → exec i s = .next t →
    (∀ p j, (r.threads c)[p]? = some j → j < c.w.thr.length →
      (∀ n, r.d = .w n → wVal t c.f j n.toNat =
        if n = 0 then 0 else BitVec.ofNat 32 (r.result s c p)) ∧
      (∀ n, r.d = .wp n → n ≠ 0 →
        wVal t c.f j (2 * n.toNat) = BitVec.ofNat 32 (r.result s c p) ∧
        wVal t c.f j (2 * n.toNat + 1) = BitVec.ofNat 32 ((r.result s c p) / 2 ^ 32))) ∧
    (∀ n, r.d = .k n → kVal t c.f n.toNat =
      if n = 0 then 0
      else match r.results s c with
        | [] => c.w.readK n.toNat
        | x :: _ => BitVec.ofNat 64 (x.v % 2 ^ r.dw)) ∧
    (∀ j m, m < 32 → (j ∈ r.threads c → r.d ≠ .w (BitVec.ofNat 5 m) ∧ (r.d ≠ .wp (BitVec.ofNat 4 (m / 2)) ∨ m < 2)) →
      wVal t c.f j m = (c.w.thread j).readW c.p m) ∧
    (∀ m, m < 32 → r.d ≠ .k (BitVec.ofNat 5 m) → kVal t c.f m = c.w.readK m)) ∧
  (∀ (i : Instr) (s t : State) (c : Ctx) (r : Row), rowOf s c i = some r → r.Runs s c → exec i s = .next t →
    (∀ a, rdB t a = rdB s a) ∧ t.poison = s.poison ∧ t.accs = s.accs ∧ t.cmds = s.cmds ∧ t.stks = s.stks ∧
      t.spaces = s.spaces ∧ t.inb = s.inb ∧ t.ports = s.ports)

namespace Sys2Proof.Machine

/-- The word of `c` is done in `t`: its fragment stands at the next word and waits for nothing. -/
def Done (t : State) (c : Ctx) : Prop :=
  (t.frag? c.f).map (fun p => (p.pc, p.seq, p.wait)) = some (c.p.pc + 8, c.p.seq + 1, Wait.none)

/-- Everything of a fragment that a trap leaves, with what it sets (R416). -/
def Trapped (t : State) (c : Ctx) (cause : Nat) (info epc : W64) (nr prc : Bool) : Prop :=
  ∃ p, t.frag? c.f = some p ∧ p.trapcause = causeWord cause epc nr prc ∧ p.trapinfo = info ∧ p.inH = true ∧ p.masked = true ∧
    p.pc = c.g.trapv ∧ p.am = c.p.am ∧ p.sm = c.p.sm

/-! ### Memory words -/

/-- What a load, store, atomic or compare-and-swap is made of: guard, whether it is uniform, the operands it may not find pending, those
whose poison it reads, the space, the order, whether it is a progress point, its cycles, and the request of a thread
(R209, R294 to R303). -/
structure MemRow where
  h : Hdr
  uni : Bool
  pend : List Opd
  os : List Opd
  glob : Bool
  rel : Option Scope := none
  acq : Option Scope := none
  prog : Bool := false
  cyc : Nat → Nat
  req : Option Nat → Req

/-- The request of a load (R297). -/
def loadReq (s : State) (c : Ctx) (sz : Sz) (d : Opd) (m : MemOp) (t : Option Nat) : Req :=
  { thr := t, va := effAddr s c (thrOf t) m, n := szBytes sz, kind := .load sz, dst := dstOf c (thrOf t) d }

/-- The request of a store (R297). -/
def storeReq (s : State) (c : Ctx) (k : AKind) (sz : Sz) (d : Opd) (m : MemOp) (t : Option Nat) : Req :=
  { thr := t, va := effAddr s c (thrOf t) m, n := szBytes sz, kind := k
    val := BitVec.ofNat 64 (opVal s c false (thrOf t) ⟨d, storeW sz, .int⟩ % 2 ^ (8 * szBytes sz)), pois := opPois c (thrOf t) d }

/-- The request of an atomic or a compare-and-swap (R302, R303). -/
def atomReq (s : State) (c : Ctx) (m : AtMod) (d a : Opd) (k : AKind × Nat) (t : Option Nat) : Req :=
  { thr := t, va := baseVal s c (thrOf t) a, n := atyW m.ty / 8, kind := k.1, val := BitVec.ofNat 64 k.2, dst := dstOf c (thrOf t) d }

/-- A load's row. -/
def loadRow (s : State) (c : Ctx) (glob uni : Bool) (h : Hdr) (sz : Sz) (ord : Option Scope) (d : Opd) (m : MemOp) : MemRow :=
  { h := h, uni := uni, pend := memOpds m, os := memOpds m, glob := glob, acq := ord, cyc := memCyc uni sz, req := loadReq s c sz d m }

/-- A store's row: a handle that is only copied may be pending, and in system mode poisoned data is written as poison (R299, R422, R427). -/
def storeRow (s : State) (c : Ctx) (glob uni : Bool) (k : AKind) (h : Hdr) (sz : Sz) (ord : Option Scope) (d : Opd) (m : MemOp) : MemRow :=
  { h := h, uni := uni, pend := if rawHandle glob uni sz c.p.sys then memOpds m else d :: memOpds m
    os := if c.p.sys then memOpds m else d :: memOpds m, glob := glob, rel := ord, prog := true, cyc := memCyc uni sz
    req := storeReq s c k sz d m }

/-- An atomic's row. -/
def atomRow (s : State) (c : Ctx) (glob prog : Bool) (h : Hdr) (m : AtMod) (d a : Opd) (os : List Opd) (k : Nat → AKind × Nat) : MemRow :=
  { h := h, uni := d.isK, pend := a :: os, os := a :: os, glob := glob, rel := ordRel m.ord m.sc, acq := ordAcq m.ord m.sc, prog := prog
    cyc := fun n => if d.isK then 1 else laneCycles n, req := fun t => atomReq s c m d a (k (thrOf t)) t }

/-- The memory words of the opcode table (R294 to R303). -/
def memRowOf (s : State) (c : Ctx) : Instr → Option MemRow
  | .ld h sz ord d m => some (loadRow s c true false h sz ord d m)
  | .ldk h sz ord d m => some (loadRow s c true true h sz ord d m)
  | .lds h sz ord d m => some (loadRow s c false false h sz ord d m)
  | .ldsk h sz ord d m => some (loadRow s c false true h sz ord d m)
  | .st h sz ord d m => some (storeRow s c true false .store h sz ord d m)
  | .stNt h sz d m => some (storeRow s c true false .storeNt h sz none d m)
  | .stk h sz ord d m => some (storeRow s c true true .store h sz ord d m)
  | .sts h sz ord d m => some (storeRow s c false false .store h sz ord d m)
  | .stsk h sz ord d m => some (storeRow s c false true .store h sz ord d m)
  | .atom h m op d a b => some (atomRow s c true true h m d a [b] (atomOpd m op b s c))
  | .atoms h m op d a b => some (atomRow s c false true h m d a [b] (atomOpd m op b s c))
  | .cas h m d a b n => some (atomRow s c true false h m d a [b, n] (casOpd m b n s c))
  | .cass h m d a b n => some (atomRow s c false false h m d a [b, n] (casOpd m b n s c))
  | _ => none

/-- The requests of a memory word, one for each acting thread or one for the warp. -/
def MemRow.reqs (r : MemRow) (c : Ctx) : List Req := (memThreads c r.h r.uni).map r.req

/-- The word begins with clean operands and somebody acts. -/
def MemRow.Starts (r : MemRow) (s : State) (c : Ctx) : Prop :=
  Begins r.h.sw (kRegs (guardOpd r.h :: r.pend)) s c ∧ Clean c r.h r.uni ((memThreads c r.h r.uni).map thrOf) r.os ∧
    memThreads c r.h r.uni ≠ []

/-- Every request is aligned and unlocked, and inside the allotment where it is of the scratchpad (R62, R88, R298). -/
def MemRow.Checked (r : MemRow) (s : State) (c : Ctx) : Prop :=
  (if r.glob then misaligned s c (r.reqs c) = none
   else (∀ q ∈ r.reqs c, q.va % q.n = 0) ∧ ∀ q ∈ r.reqs c, inAllot c.g q.va q.n = true) ∧
  locked s c r.glob (r.reqs c) = none

/-- Nothing earlier holds the word: no acquire is out, its release has been met, no earlier access or engine instruction that has not finished
works on the same bytes, and the core has room for its requests (R13, R135, R137, R140, R146). -/
def MemRow.Free (r : MemRow) (s : State) (c : Ctx) : Prop :=
  acqOut s c.p.uid = false ∧ (∀ sc, r.rel = some sc → released s c.f c.p.uid sc = true) ∧
    (if r.glob then (∀ q ∈ r.reqs c, orderHeld s c.p.uid q = false) ∧ requestsOut s c.f + (r.reqs c).length ≤ 1024
     else ∀ q ∈ r.reqs c, engineHeld s c q = false)

end Sys2Proof.Machine

/-- O3. A memory word completes: each request enters the flight list of the global space or is performed on the scratchpad; where there are several, each at
once or later, each on its own (R131). That their order is free where two of them share a byte, and is that of the threads elsewhere, is the model's choice
(log entry 24): R131 says that they are performed separately and in no defined order. -/
def Obligations.MemoryWordsComplete : Prop :=
  ∀ (i : Instr) (s : State) (c : Ctx) (r : MemRow), memRowOf s c i = some r → r.Starts s c → r.Checked s c → r.Free s c →
    exec i s = .next
      (let o := inOrder (r.reqs c) s
       let many := decide (o.1.length > 1)
       let u := if r.glob then o.1.foldl (fun s q => launchAcc s c r.acq q many) o.2 else o.1.foldl (launchScr c r.acq many) o.2
       finish (if r.prog then progress u c.f else u) c.f (r.cyc (memThreads c r.h r.uni).length)) ∧
    ∀ t, exec i s = .next t → Done t c

/-- O4. Alignment is checked first, then the allotment of a scratchpad word, then the range locks; each failure traps precisely with
the address of the first failing request or byte (R298). -/
def Obligations.MemoryWordChecks : Prop :=
  ∀ (i : Instr) (s : State) (c : Ctx) (r : MemRow), memRowOf s c i = some r → r.Starts s c → c.p.masked = false →
    (∀ q, r.glob = false → (r.reqs c).find? (fun q => q.va % q.n != 0) = some q →
      ∃ t, exec i s = .next t ∧ Trapped t c 4 (BitVec.ofNat 64 q.va) c.p.pc false true) ∧
    (∀ va, r.glob = true → misaligned s c (r.reqs c) = some va →
      ∃ t, exec i s = .next t ∧ Trapped t c 4 (BitVec.ofNat 64 va) c.p.pc false true) ∧
    (∀ q, r.glob = false → (∀ q ∈ r.reqs c, q.va % q.n = 0) → (r.reqs c).find? (fun q => !inAllot c.g q.va q.n) = some q →
      ∃ t, exec i s = .next t ∧ Trapped t c 2 (BitVec.ofNat 64 q.va) c.p.pc false true) ∧
    (∀ b, (if r.glob then misaligned s c (r.reqs c) = none
        else (∀ q ∈ r.reqs c, q.va % q.n = 0) ∧ ∀ q ∈ r.reqs c, inAllot c.g q.va q.n = true) →
      locked s c r.glob (r.reqs c) = some b →
      ∃ t, exec i s = .next t ∧ Trapped t c 0x0A (BitVec.ofNat 64 b) c.p.pc false true)

namespace Sys2Proof.Machine

/-- The access `a` is in flight under its identity. -/
def InFlight (s : State) (a : Acc) : Prop := s.acc? a.id = some a

/-- Of the dies' state at most the line of `a` in its cluster's store has changed. -/
def OtherLines (s t : State) (a : Acc) : Prop :=
  ∀ d, t.die d = { s.die d with clusters := (t.die d).clusters } ∧
    ∀ c, (∀ l, (d, c, l) ≠ (a.frag.die, a.frag.core / 8, a.pa / 128) → lineAt t d c l = lineAt s d c l) ∧
      t.cluster d c = { s.cluster d c with lines := (t.cluster d c).lines }

end Sys2Proof.Machine

/-- O5. A store that reaches its home, in a page that is no alias, writes its bytes there and no other byte (R33, R34, R132). A load that reaches its home receives the bytes there, extended as its size says, and their poison (R33, R297, R430);
where the page has lost its share level's guarantees, each byte is one that its location has held (R133). -/
def Obligations.StoresAndLoadsAtTheirHome : Prop :=
  (∀ (s : State) (a : Acc), InFlight s a → a.st = .home → a.al = false → (a.kind = .store ∨ a.kind = .storeNt) →
    pathHeld s a = false → port s a.frag.die a.route a.pa a.exempt = .ok → frameBusy s a.pa = false →
    ∃ t, exec (.homeRequest a.id) s = .next t ∧ t.acc? a.id = some { a with st := .ack } ∧
      (∀ x, rdB t x = if a.pa ≤ x ∧ x < a.pa + a.n then BitVec.ofNat 8 (a.val.toNat / 256 ^ (x - a.pa)) else rdB s x) ∧
      (a.kind = .store → t.dies = s.dies) ∧ OtherLines s t a ∧ t.stks = s.stks ∧ t.cmds = s.cmds ∧ t.spaces = s.spaces) ∧
  (∀ (s : State) (a : Acc) (sz : Sz), InFlight s a → a.st = .home → a.al = false → a.kind = .load sz →
    port s a.frag.die a.route a.pa a.exempt = .ok → frameBusy s a.pa = false →
    ∃ t bs, exec (.homeRequest a.id) s = .next t ∧
      t.acc? a.id = some { a with val := loadExt sz (leNat bs), vpois := isPois s a.pa a.n, st := .done } ∧
      bs.length = a.n ∧ (loose s a.pa = false → bs = rdBytes s a.pa a.n) ∧ (∀ i b, bs[i]? = some b → b ∈ everAt s (a.pa + i)) ∧
      t.mem = s.mem ∧ t.dies = s.dies ∧ t.stks = s.stks)

/-- O6. An atomic or compare-and-swap that reaches a home other than the host's returns the old value, and writes the new one in the same act,
where it writes one, in a page that has its share level's guarantees (R133, R302, R303). -/
def Obligations.AtomicAtItsHome : Prop :=
  ∀ (s : State) (a : Acc), InFlight s a → a.st = .home → a.kind.atomic = true → inHost a.pa = false →
    isPois s a.pa a.n = false → pathHeld s a = false → loose s a.pa = false →
    port s a.frag.die a.route a.pa a.exempt = .ok → frameBusy s a.pa = false →
    ∃ t, exec (.homeRequest a.id) s = .next t ∧
      t.acc? a.id = some { a with val2 := BitVec.ofNat 64 (rdN s a.pa a.n), st := .ack } ∧
      (∀ x, rdB t x =
        match (rmwNew a.kind a.val a.n (rdN s a.pa a.n)).1 with
        | some v => if a.pa ≤ x ∧ x < a.pa + a.n then BitVec.ofNat 8 (v / 256 ^ (x - a.pa)) else rdB s x
        | none => rdB s x)

/-- O7. Responses and results of accesses: each event has its effect on the access it names (R33, R42, R48, R49, R60, R65, R72, R137, R225, R298).
An acknowledged store leaves the flight list and an atomic has returned; a peer access is re-routed once, any other traps not-owner; a moved access
translates again, and its tracker holds it meanwhile; a retried one goes to its home again; a fill is delivered; a result is written to its register. -/
def Obligations.AccessEvents : Prop :=
  (∀ (s : State) (a : Acc), InFlight s a → a.st = .ack → a.kind = .store →
    ∃ t, exec (.writeAcknowledge a.id) s = .next t ∧ t.acc? a.id = none ∧ t.mem = s.mem) ∧
  (∀ (s : State) (a : Acc) (ty : ATy) (op : AOp), InFlight s a → a.st = .ack → a.kind = .atom ty op →
    ∃ t, exec (.writeAcknowledge a.id) s = .next t ∧ t.acc? a.id = some { a with st := .done, tracked := false }) ∧
  (∀ (s : State) (a : Acc) (i : Nat), InFlight s a → a.st = .notOwner → stackOf a.pa = some i → bitAt a.va 56 = true → a.rerouted = false →
    ∃ t, exec (.notOwnerResponse a.id) s = .next t ∧
      t.acc? a.id = some { a with st := a.again, rerouted := true, route := otherDie i a.route }) ∧
  (∀ (s : State) (a : Acc), InFlight s a → a.st = .notOwner → a.kind.isPref = false → (bitAt a.va 56 = false ∨ a.rerouted = true) →
    ∃ t, exec (.notOwnerResponse a.id) s = .next t ∧
      t.acc? a.id = some { a with st := .bad 3 (BitVec.ofNat 64 a.va), tracked := false }) ∧
  (∀ (s : State) (a : Acc), InFlight s a → a.st = .movedResp →
    ∃ t, exec (.movedResponse a.id) s = .next t ∧ t.acc? a.id = some { a with st := .walk, oldPa := some a.pa }) ∧
  (∀ (s : State) (a : Acc), InFlight s a → a.st = .retry →
    ∃ t, exec (.busyRetryResponse a.id) s = .next t ∧ t.acc? a.id = some { a with st := a.again }) ∧
  (∀ (s : State) (a : Acc) (sz : Sz) (data : List Byte) (ps : List Nat), InFlight s a → a.st = .filled data ps → a.kind = .load sz →
    lineAt s a.frag.die (a.frag.core / 8) (a.pa / 128) = none → (∀ e ∈ (s.core a.frag.die a.frag.core).l1, e.1 ≠ a.pa / 128) →
    (a.al = true ∨ loose s a.pa = false) → (a.flashed = true ∨ (s.cluster a.frag.die (a.frag.core / 8)).lines.length < csLines s a.frag.die) →
    ∃ t b, exec (.lineFillReturn a.id) s = .next t ∧ t.mem = s.mem ∧
      t.acc? a.id = some { a with val := loadExt sz (leNat (bytesAt data (a.pa % 128) a.n)), vpois := b, st := .done }) ∧
  (∀ (s : State) (a : Acc) (sz : Sz) (t key : Nat) (w : Warp), InFlight s a → a.st = .done → a.kind = .load sz → a.dst = .w t key →
    a.dst2 = .none → a.acq = none → s.warp? a.frag = some w → t < w.thr.length →
    ∃ u w', exec (.registerResultWrite a.id) s = .next u ∧ u.acc? a.id = none ∧ u.warp? a.frag = some w' ∧
      w'.thread t = (w.thread t).put key (a.val.truncate 32) a.vpois ∧ ∀ j, j ≠ t → w'.thread j = w.thread j) ∧
  (∀ (s : State) (a : Acc) (p : Frag), InFlight s a → s.frag? a.frag = some p → a.uid = p.uid → p.fault = none →
    (∀ x ∈ s.accs, x.uid = p.uid → x.id ≠ a.id → ∀ k v, x.st ≠ .bad k v) →
    ∀ cause info, a.st = .bad cause info →
      ∃ t q, exec (.impreciseFaultReturn a.frag) s = .next t ∧ t.acc? a.id = none ∧ t.frag? a.frag = some q ∧
        q.fault = some ⟨cause, info, a.word, a.seq, accMask p a⟩)

namespace Sys2Proof.Machine

/-- Access `a` waits for a table walk that can begin: its page is in no TLB, and a walker of its cluster is free (R56, R60). -/
def WalkDue (s : State) (a : Acc) : Prop :=
  InFlight s a ∧ a.st = .walk ∧ tlbFind s a.frag.die a.frag.core a.va = none ∧ walkersHeld s a.frag.die (a.frag.core / 8) < 16

/-- The walk of access `a` is stalled at a page-busy leaf, and holds its walker (R60). -/
def WalkStalled (s : State) (a : Acc) : Prop := InFlight s a ∧ a.st = .busyWalk

/-- What a walk from the root of the die of `a` finds for it now. -/
def walkOf (s : State) (a : Acc) : WalkRes := walk s a.frag.die (s.cluster a.frag.die (a.frag.core / 8)).walkc a.va

/-- A walk finds a leaf of a home-only page that gives the load or store `a` its access, at `p`. -/
def FindsHome (s : State) (a : Acc) (p : Phys) : Prop :=
  ((∃ sz, a.kind = .load sz) ∨ a.kind = .store) ∧ a.oldPa = none ∧ p.sl = 2 ∧
    ∃ e used dir, walkOf s a = .ok e used dir ∧ leafUse s a.frag.die a.va a.kind.want e = .ok p

/-- Access `a` on its way to the home of `p`. -/
def Acc.sentTo (a : Acc) (s : State) (p : Phys) : Acc :=
  { a with pa := p.pa, sl := p.sl, al := p.al, route := routeOf s a.frag.die p.peer p.pa, rerouted := false, st := .home }

end Sys2Proof.Machine

/-- O8. Translation of an access: a table walk that finds its leaf sends a load or store of a home-only page to its home with its physical address, and leaves
every other access as it is; a walk that finds none faults; one that meets a page-busy leaf stalls there, and holds its walker; it resumes with the same three ends
(R22, R24, R28, R56, R57, R60). A line leaves a cluster store: a dirty one is written back to its home byte for byte once its home can be reached, a
clean one changes no memory, and of the cluster's lines this one alone is gone (R70, R73). That a walk which ends in a fault or at a page-busy leaf leaves memory as
it was, its entries' accessed bits with it, is the model's choice (log entry 93). -/
def Obligations.WalksAndEvictions : Prop :=
  (∀ (s : State) (a : Acc) (p : Phys), WalkDue s a → FindsHome s a p →
    ∃ t, exec (.pageWalk a.id) s = .next t ∧ t.acc? a.id = some (a.sentTo s p) ∧ ∀ x ∈ s.accs, x.id ≠ a.id → x ∈ t.accs) ∧
  (∀ (s : State) (a : Acc) (p : Phys), WalkStalled s a → FindsHome s a p →
    ∃ t, exec (.walkResume a.id) s = .next t ∧ t.acc? a.id = some (a.sentTo s p) ∧ ∀ x ∈ s.accs, x.id ≠ a.id → x ∈ t.accs) ∧
  (∀ (s : State) (a : Acc), WalkDue s a → a.kind.isPref = false → walkOf s a = .fault →
    ∃ t, exec (.pageWalk a.id) s = .next t ∧ t.acc? a.id = some { a with st := .bad 1 (BitVec.ofNat 64 a.va), tracked := false } ∧
      t.mem = s.mem) ∧
  (∀ (s : State) (a : Acc), WalkStalled s a → a.kind.isPref = false → walkOf s a = .fault →
    ∃ t, exec (.walkResume a.id) s = .next t ∧ t.acc? a.id = some { a with st := .bad 1 (BitVec.ofNat 64 a.va), tracked := false } ∧
      t.mem = s.mem) ∧
  (∀ (s : State) (a : Acc), WalkDue s a → a.kind.isPref = false → walkOf s a = .busy →
    ∃ t, exec (.pageWalk a.id) s = .next t ∧ t.acc? a.id = some { a with st := .busyWalk } ∧ t.mem = s.mem) ∧
  (∀ (s : State) (a : Acc), WalkStalled s a → a.kind.isPref = false → walkOf s a = .busy →
    ∃ t, exec (.walkResume a.id) s = .next t ∧ t.acc? a.id = some a ∧ t.mem = s.mem) ∧
  (∀ (s : State) (d cl li : Nat) (l : Line), lineAt s d cl li = some l → l.data.length = 128 →
    (l.dirty = false ∨ portStalled s d (128 * li) = false ∧ frameBusy s (128 * li) = false) →
    ∃ t, exec (.clusterStoreEviction d cl li) s = .next t ∧ lineAt t d cl li = none ∧
      (∀ m, m ≠ li → lineAt t d cl m = lineAt s d cl m) ∧
      ∀ x, rdB t x = if l.dirty = true ∧ x / 128 = li then (l.data[x % 128]?).getD 0 else rdB s x)

namespace Sys2Proof.Machine

/-- A uniform word runs: it begins, its guard holds, and nothing it reads is poisoned (R215, R218, R432). -/
def UniRuns (h : Hdr) (os : List Opd) (s : State) (c : Ctx) : Prop :=
  Begins h.sw (kRegs (guardOpd h :: os)) s c ∧ uniHolds c h = true ∧ Clean c h true [0] os

/-- A uniform word does nothing but advance where its guard, which carries no poison, fails (R215, R432). -/
def UniSkips (h : Hdr) (os : List Opd) (s : State) (c : Ctx) : Prop :=
  Begins h.sw (kRegs (guardOpd h :: os)) s c ∧ uniHolds c h = false ∧ Clean c h true [] []

/-- The fragment of `c` has taken a branch to `target`; a backward one is counted (R209, R283). -/
def Jumped (t : State) (c : Ctx) (target : W64) : Prop :=
  t.frag? c.f = some ((countBranch c.g.wlim target c.p).goesOn target)

/-- The value of a uniform operand of 64 bits. -/
def uVal (s : State) (c : Ctx) (a : Opd) : W64 := BitVec.ofNat 64 (opVal s c true 0 ⟨a, 64, .int⟩)

end Sys2Proof.Machine

/-- O9. Branches: a uniform branch and an aligned indirect jump move the whole fragment, a misaligned one traps; a per-thread branch that every active
thread takes moves it, one that none takes falls through, and one that some take splits off the taken threads into a free slot as a
new fragment (R189, R211, R282, R283). -/
def Obligations.Branches : Prop :=
  (∀ (h : Hdr) (off : BitVec 19) (s : State) (c : Ctx), UniRuns h [] s c →
    ∃ t, exec (.bru h off) s = .next t ∧ Jumped t c (c.p.pc + off.signExtend 64 * 8)) ∧
  (∀ (h : Hdr) (a : Opd) (s : State) (c : Ctx), UniRuns h [a] s c → (uVal s c a).toNat % 8 = 0 →
    ∃ t, exec (.jmp h a) s = .next t ∧ Jumped t c (uVal s c a)) ∧
  (∀ (h : Hdr) (a : Opd) (s : State) (c : Ctx), UniRuns h [a] s c → (uVal s c a).toNat % 8 ≠ 0 → c.p.masked = false →
    (∃ t, exec (.jmp h a) s = .next t ∧ Trapped t c 4 (uVal s c a) c.p.pc false true) ∧
    (∃ t, exec (.calli h a) s = .next t ∧ Trapped t c 4 (uVal s c a) c.p.pc false true)) ∧
  (∀ (h : Hdr) (off : BitVec 19) (s : State) (c : Ctx), Begins h.sw (kRegs [guardOpd h]) s c → Clean c h false [] [] → acting c h = [] →
    ∃ t, exec (.br h off) s = .next t ∧ t.frag? c.f = some (c.p.goesOn (c.p.pc + 8))) ∧
  (∀ (h : Hdr) (off : BitVec 19) (s : State) (c : Ctx), Begins h.sw (kRegs [guardOpd h]) s c → Clean c h false [] [] →
    acting c h = maskList c.p.am → acting c h ≠ [] →
    ∃ t, exec (.br h off) s = .next t ∧ Jumped t c (c.p.pc + off.signExtend 64 * 8)) ∧
  (∀ (h : Hdr) (off : BitVec 19) (s : State) (c : Ctx), Begins h.sw (kRegs [guardOpd h]) s c → Clean c h false [] [] →
    acting c h ≠ [] → acting c h ≠ maskList c.p.am → resultsOut s c.p.uid = false → (c.w.slot (!c.f.s1)).occ = false →
    ∃ t p q, exec (.br h off) s = .next t ∧ t.frag? c.f = some p ∧ t.frag? (sibOf c.f) = some q ∧
      p.am = c.p.am &&& ~~~(maskOf (acting c h)) ∧ p.sm = c.p.sm ∧ p.pc = c.p.pc + 8 ∧
      q.am = maskOf (acting c h) ∧ q.sm = 0 ∧ q.pc = c.p.pc + off.signExtend 64 * 8 ∧
      q.fragid = c.w.fragCtr + 1 ∧ q.parentid = c.p.fragid ∧ q.lcnt = c.p.lcnt ∧ q.turn = c.p.turn)

/-- O10. Joins: alone, a fragment takes back its suspended threads and goes on; with a sibling that has not come, it waits; with a sibling that waits at
the same join in the same loop state, the two merge into S0 (R190, R196, R284). -/
def Obligations.Joins : Prop :=
  (∀ (h : Hdr) (s : State) (c : Ctx), Begins h.sw [] s c → resultsOut s c.p.uid = false → (c.w.slot (!c.f.s1)).occ = false →
    ∃ t p, exec (.jn h) s = .next t ∧ t.frag? c.f = some p ∧ p.am = c.p.am ||| c.p.sm ∧ p.sm = 0 ∧ p.pc = c.p.pc + 8 ∧ p.wait = .none) ∧
  (∀ (h : Hdr) (s : State) (c : Ctx), Begins h.sw [] s c → resultsOut s c.p.uid = false → (c.w.slot (!c.f.s1)).occ = true →
    (c.w.slot (!c.f.s1)).wait ≠ .jn → ∃ t, exec (.jn h) s = .next t ∧ t.frag? c.f = some { c.p with wait := .jn }) ∧
  (∀ (h : Hdr) (s : State) (c : Ctx), Begins h.sw [] s c → resultsOut s c.p.uid = false → (c.w.slot (!c.f.s1)).occ = true →
    (c.w.slot (!c.f.s1)).wait = .jn → (c.w.slot (!c.f.s1)).pc = c.p.pc → (c.w.slot (!c.f.s1)).turn = c.p.turn →
    (c.w.slot (!c.f.s1)).rsz = c.p.rsz → (c.w.slot (!c.f.s1)).lcnt = c.p.lcnt → (c.w.slot (!c.f.s1)).fault = none → settledAll s c.f c.p.uid = true →
    settledWg s (c.w.slot (!c.f.s1)).uid = true →
    ∃ t p, exec (.jn h) s = .next t ∧ t.frag? { c.f with s1 := false } = some p ∧ t.frag? { c.f with s1 := true } = none ∧
      p.am = c.w.s0.am ||| c.w.s0.sm ||| c.w.s1.am ||| c.w.s1.sm ∧ p.sm = 0 ∧ p.pc = c.p.pc + 8 ∧ p.wait = .none)

/-- O11. Calls and returns without a spill or a fill: a call slides the window of every thread of the slot one deeper, with the return address in w8 of the
new window; a return whose threads agree on their w8 slides it back and goes there (R199 to R201, R285, R286). -/
def Obligations.CallsAndReturns : Prop :=
  (∀ (h : Hdr) (off : BitVec 19) (s : State) (c : Ctx), UniRuns h [] s c → c.p.rsz = 0 →
    (∀ j ∈ slotThreads c.p, (c.w.thread j).dep + 1 < min c.g.stride 255 ∧ (c.w.thread j).res < c.g.nwin) →
    ∃ t, exec (.call h off) s = .next t ∧ Jumped t c (c.p.pc + off.signExtend 64 * 8) ∧
      ∀ j ∈ slotThreads c.p, j < c.w.thr.length →
        ∃ w, t.warp? c.f = some w ∧ (w.thread j).dep = (c.w.thread j).dep + 1 ∧ (w.thread j).res = (c.w.thread j).res + 1 ∧
          wVal t c.f j 8 = (c.p.pc + 8).truncate 32) ∧
  (∀ (h : Hdr) (a : Opd) (s : State) (c : Ctx), UniRuns h [a] s c → (uVal s c a).toNat % 8 = 0 → c.p.rsz = 0 →
    (∀ j ∈ slotThreads c.p, (c.w.thread j).dep + 1 < min c.g.stride 255 ∧ (c.w.thread j).res < c.g.nwin) →
    ∃ t, exec (.calli h a) s = .next t ∧ Jumped t c (uVal s c a) ∧
      ∀ j ∈ slotThreads c.p, j < c.w.thr.length →
        ∃ w, t.warp? c.f = some w ∧ (w.thread j).dep = (c.w.thread j).dep + 1 ∧ wVal t c.f j 8 = (c.p.pc + 8).truncate 32) ∧
  (∀ (h : Hdr) (s : State) (c : Ctx) (ra : W32), Begins h.sw [] s c → Clean c h false (slotThreads c.p) [.w 8] → c.p.rsz = 0 →
    slotThreads c.p ≠ [] →
    (∀ j ∈ slotThreads c.p, 0 < (c.w.thread j).dep ∧ 1 < (c.w.thread j).res ∧ (c.w.thread j).readW c.p 8 = ra) → ra.toNat % 8 = 0 →
    ∃ t, exec (.ret h) s = .next t ∧ Jumped t c (ra.zeroExtend 64) ∧
      ∀ j ∈ slotThreads c.p, j < c.w.thr.length →
        ∃ w, t.warp? c.f = some w ∧ (w.thread j).dep = (c.w.thread j).dep - 1 ∧ (w.thread j).res = (c.w.thread j).res - 1)

/-- O12. `rgn` (R289): it sets `regionpc` to its own address and adds 1 to `regioncnt`, which wraps; the watchdog count, which a progress point would clear, and everything else
of the fragment stay, and no other fragment and no byte of memory changes. -/
def Obligations.RegionWord : Prop :=
  ∀ (h : Hdr) (s : State) (c : Ctx), UniRuns h [] s c →
    ∃ t, exec (.rgn h) s = .next t ∧ t.frag? c.f =
        some ({ c.p with regionpc := c.p.pc, regioncnt := c.p.regioncnt + 1 }.goesOn (c.p.pc + 8)) ∧
      t.frag? (sibOf c.f) = s.frag? (sibOf c.f) ∧ ∀ a, rdB t a = rdB s a

/-- O13. Loops, special-register writes and exits (R173, R179, R196, R204, R206, R287 to R290, R412). -/
def Obligations.LoopAndExitWords : Prop :=
  (∀ (h : Hdr) (sz : BitVec 2) (cnt : Opd) (s : State) (c : Ctx), UniRuns h [cnt] s c →
    ∃ t, exec (.loop h sz cnt) s = .next t ∧ t.frag? c.f =
      some ({ c.p with lcnt := BitVec.ofNat 32 (opVal s c true 0 ⟨cnt, 32, .int⟩), rsz := sz.toNat, turn := 0 }.goesOn (c.p.pc + 8))) ∧
  (∀ (h : Hdr) (off : BitVec 19) (s : State) (c : Ctx), UniRuns h [] s c →
    ∃ t p, exec (.brl h off) s = .next t ∧ t.frag? c.f = some p ∧
      p.lcnt = (if c.p.lcnt = 0 then 0 else c.p.lcnt - 1) ∧
      p.turn = (if c.p.rsz = 1 ∨ c.p.rsz = 2 ∨ c.p.rsz = 3 then (c.p.turn + 1) % rotSize c.p.rsz else c.p.turn) ∧
      p.pc = if 1 < c.p.lcnt.toNat then c.p.pc + off.signExtend 64 * 8 else c.p.pc + 8) ∧
  (∀ (h : Hdr) (src : Opd) (s : State) (c : Ctx), UniRuns h [src] s c →
    (∃ t p, exec (.wrs h 7 src) s = .next t ∧ t.frag? c.f = some p ∧ p.pc = c.p.pc + 8 ∧
      p.am = c.p.am &&& (uVal s c src).truncate 32 ∧ p.sm = c.p.sm ||| (c.p.am &&& ~~~((uVal s c src).truncate 32))) ∧
    (∃ t w, exec (.wrs h 26 src) s = .next t ∧ Done t c ∧ t.warp? c.f = some w ∧ w.srix = (uVal s c src).truncate 32 ∧ w.fpstat = c.w.fpstat) ∧
    (∃ t w, exec (.wrs h 27 src) s = .next t ∧ Done t c ∧ t.warp? c.f = some w ∧
      w.fpstat = c.w.fpstat &&& ~~~((uVal s c src).truncate 5) ∧ w.srix = c.w.srix)) ∧
  (∀ (h : Hdr) (s : State) (c : Ctx), Begins h.sw (kRegs [guardOpd h]) s c → Clean c h false [] [] → resultsOut s c.p.uid = false →
    banksOut s c.p.uid = false → maskOf (acting c h) ≠ 0 → c.p.am &&& ~~~(maskOf (acting c h)) ≠ 0 → c.p.sys = false →
    ∃ t p w, exec (.exit h) s = .next t ∧ t.frag? c.f = some p ∧ t.warp? c.f = some w ∧ p.pc = c.p.pc + 8 ∧
      p.am = c.p.am &&& ~~~(maskOf (acting c h)) ∧
      ∀ j, j < c.w.thr.length → (w.thread j).live = ((c.w.thread j).live && !(c.p.am &&& maskOf (acting c h)).getLsbD j)) ∧
  (∀ (h : Hdr) (s : State) (c : Ctx), Begins h.sw (kRegs [guardOpd h]) s c → Clean c h false [] [] → resultsOut s c.p.uid = false →
    banksOut s c.p.uid = false → maskOf (acting c h) ≠ 0 → c.p.am &&& ~~~(maskOf (acting c h)) = 0 → c.p.sm = 0 → c.p.sys = false →
    (c.w.slot (!c.f.s1)).occ = true → (c.w.slot (!c.f.s1)).wait ≠ .jn →
    ∃ t, exec (.exit h) s = .next t ∧ t.frag? c.f = none ∧ t.frag? (sibOf c.f) = some (c.w.slot (!c.f.s1)))

namespace Sys2Proof.Machine

/-- The result of a half for thread `j` (R222, R223). -/
def halfValue (p : Half) (s : State) (c : Ctx) (j : Nat) : Res := hopRes p.op c.g.ftz ((hopSrcs p).map (fun x => opVal s c p.d.isK j x))

/-- The destination of a half that is no no-op holds its results in `t`: the register of each active thread, where w0 reads zero, or the k register of a half that acts once (R218, R222). -/
def HalfWrote (p : Half) (s t : State) (c : Ctx) : Prop :=
  p.op ≠ .nop →
    (∀ n : BitVec 5, p.d = .w n → ∀ j ∈ maskList c.p.am, j < c.w.thr.length →
      wVal t c.f j n.toNat = if n = 0 then 0 else BitVec.ofNat 32 (halfValue p s c j).v) ∧
    (∀ n : BitVec 5, p.d = .k n → kVal t c.f n.toNat = if n = 0 then 0 else BitVec.ofNat 64 ((halfValue p s c 0).v % 2 ^ 32))

/-- The flags that a half raises: those of the result of each thread that it acts for (R179, R222). -/
def halfFlags (p : Half) (s : State) (c : Ctx) : BitVec 5 :=
  if p.op = .nop then 0 else (if p.d.isK then [0] else maskList c.p.am).foldl (fun a j => a ||| (halfValue p s c j).fl) 0

/-- A half that is no no-op has the destination `o`. -/
def HalfWrites (p : Half) (o : Opd) : Prop := p.op ≠ .nop ∧ p.d = o

end Sys2Proof.Machine

/-- O14. A pair word (R220 to R223): both halves read the state before the word, so each destination, a w register of every active thread or a k register, holds the
half's result of the old values; the flags of both halves are raised; a half no-op does nothing; every other register, and every byte of memory, keeps its
value. -/
def Obligations.PairWords : Prop :=
  ∀ (sw : Bool) (p0 p1 : Half) (s : State) (c : Ctx), Begins sw (kRegs ((hopSrcs p0 ++ hopSrcs p1).map (·.o))) s c →
    halfPois c p0 = none → halfPois c p1 = none → (Instr.pairWord sw p0 p1).wf = true →
    ∃ t w, exec (.pairWord sw p0 p1) s = .next t ∧ t.frag? c.f = some (c.p.goesOn (c.p.pc + 8)) ∧
      HalfWrote p0 s t c ∧ HalfWrote p1 s t c ∧
      t.warp? c.f = some w ∧ w.fpstat = c.w.fpstat ||| halfFlags p0 s c ||| halfFlags p1 s c ∧
      (∀ j m, m < 32 → (j ∈ maskList c.p.am → ¬ HalfWrites p0 (.w (BitVec.ofNat 5 m)) ∧ ¬ HalfWrites p1 (.w (BitVec.ofNat 5 m))) →
        wVal t c.f j m = (c.w.thread j).readW c.p m) ∧
      (∀ m, m < 32 → ¬ HalfWrites p0 (.k (BitVec.ofNat 5 m)) → ¬ HalfWrites p1 (.k (BitVec.ofNat 5 m)) → kVal t c.f m = c.w.readK m) ∧
      (∀ a, rdB t a = rdB s a) ∧ t.accs = s.accs

namespace Sys2Proof.Machine

/-! ### Results of collectives and of uniform words -/

/-- The destination `d` of width `dw` holds in `t` the results `vs` of the threads `ts` (R217, R219, R253): each thread's own register or
pair, or the k register of a uniform word; w0 and k0 read zero. -/
def Wrote (t : State) (c : Ctx) (d : Opd) (dw : Nat) (ts vs : List Nat) : Prop :=
  (∀ (n : BitVec 5) (p j v : Nat), d = .w n → ts[p]? = some j → vs[p]? = some v → j < c.w.thr.length →
    wVal t c.f j n.toNat = if n = 0 then 0 else BitVec.ofNat 32 v) ∧
  (∀ (n : BitVec 4) (p j v : Nat), d = .wp n → n ≠ 0 → ts[p]? = some j → vs[p]? = some v → j < c.w.thr.length →
    wVal t c.f j (2 * n.toNat) = BitVec.ofNat 32 v ∧ wVal t c.f j (2 * n.toNat + 1) = BitVec.ofNat 32 (v / 2 ^ 32)) ∧
  (∀ (n : BitVec 5) (v : Nat), d = .k n → vs.head? = some v → kVal t c.f n.toNat = if n = 0 then 0 else BitVec.ofNat 64 (v % 2 ^ dw))

/-! ### Collectives (R274 to R281) -/

/-- What a collective is made of: its results are computed from the positions of the participants and the values of its sources, one
list for each source. -/
structure CollRow where
  h : Hdr
  d : Opd
  dw : Nat
  srcs : List Src
  op : List Nat → List (List Nat) → List Res

/-- `vote`: any, all, or the mask of the positions whose bit is set (R277). -/
def voteVal (mode : Nat) (ts : List Nat) (vals : List (List Nat)) : Nat :=
  let bs := ts.zipIdx.map (fun p => (p.1, bitAt (pval vals 0 p.2) (pval vals 1 p.2 % 32)))
  if mode = 0 then (if bs.any (·.2) then 1 else 0)
  else if mode = 1 then (if bs.all (·.2) then 1 else 0)
  else sumN (bs.map (fun x => if x.2 then 2 ^ x.1 else 0))

/-- `shfl`: the value of the named position where a participant stands there, else the thread's own (R276). -/
def shflVal (mode : BitVec 2) (ts : List Nat) (vals : List (List Nat)) (p : Nat × Nat) : Nat :=
  match (shflPos mode p.1 (pval vals 1 p.2)).bind (fun q => findIdx (· == q) ts) with
  | some j => pval vals 0 j
  | none => pval vals 0 p.2

/-- The tree of `redf` over the 32 positions; a NaN result is the canonical one (R165, R279). -/
def redfVal (op : BitVec 2) (ty : FTy) (ts : List Nat) (vals : List (List Nat)) : Res :=
  let leaf (q : Nat) : Option Res := (findIdx (· == q) ts).map (fun j => plain (pval vals 0 j % 2 ^ (ftyFmt ty).width))
  canonical (ftyFmt ty) (((((List.range 5).foldl (fun l _ => redLevel op ty l) ((List.range 32).map leaf)).head?).getD none).getD ⟨0, 0⟩)

/-- The operand kind of a ranking type (R280). -/
def rankKind (ty : BitVec 2) : Kind := if ty = 0 then .flt .f32 else .int

/-- The collectives of the opcode table. -/
def collOf : Instr → Option CollRow
  | .mxscl h fmt d a => some ⟨h, d, 32, [⟨a, 32, .flt .f32⟩], fun ts vals =>
      same ts (plain (blockScale (mxsclFmt fmt) (((vals[0]?).getD []).map (fdecode .f32))).toNat)⟩
  | .shfl h mode b64 d a b => some ⟨h, d, wdth b64, [⟨a, wdth b64, .int⟩, ⟨b, 32, .int⟩], fun ts vals =>
      ts.zipIdx.map (fun p => plain (shflVal mode ts vals p))⟩
  | .vote h mode d a b => some ⟨h, d, 32, [⟨a, 32, .int⟩, ⟨b, 32, .int⟩], fun ts vals => same ts (plain (voteVal mode.toNat ts vals))⟩
  | .matchEq h b64 d a => some ⟨h, d, 32, [⟨a, wdth b64, .int⟩], fun ts vals => ts.zipIdx.map (fun p =>
      plain (sumN (ts.zipIdx.map (fun q => if pval vals 0 q.2 = pval vals 0 p.2 then 2 ^ q.1 else 0))))⟩
  | .redi h op sat sg wd d a => some ⟨h, d, wdth wd, [⟨a, wdth wd, .int⟩], fun ts vals =>
      same ts (fin (wdth wd) sat sg (redInt op (wdth wd) sg ((vals[0]?).getD [])))⟩
  | .scan h op excl sg wd d a => some ⟨h, d, wdth wd, [⟨a, wdth wd, .int⟩], fun ts vals => ts.zipIdx.map (fun p =>
      fin (wdth wd) false sg (redInt op (wdth wd) sg (((vals[0]?).getD []).take (if excl then p.2 else p.2 + 1))))⟩
  | .redf h op ty d a => some ⟨h, d, ftyW ty, [fsrc ty a], fun ts vals => same ts (redfVal op ty ts vals)⟩
  | .topk h ty least d a b => some ⟨h, d, 32, [⟨a, 32, rankKind ty⟩, ⟨b, 32, .int⟩], fun ts vals =>
      rankOut ts (topCount (pval vals 1 0)) (ranking least (ts.zipIdx.map (fun p => (p.1, scoreOf ty (pval vals 0 p.2)))))⟩
  | .topkm h ty least d a b c => some ⟨h, d, 32, [⟨a, 32, rankKind ty⟩, ⟨b, 32, .int⟩, ⟨c, 32, rankKind ty⟩], fun ts vals =>
      let n := topCount (pval vals 1 0)
      let run := ts.zipIdx.filter (fun p => n > ts.length || p.1 < n)
      rankOut ts n (ranking least (run.map (fun p => (p.1, scoreOf ty (pval vals 0 p.2))) ++
        ts.zipIdx.map (fun p => (p.1 + 32, scoreOf ty (pval vals 2 p.2)))))⟩
  | _ => none

/-- The participants of a collective (R275). -/
def CollRow.threads (r : CollRow) (c : Ctx) : List Nat := if r.d.isK then maskList c.p.am else acting c r.h

/-- The threads for which its sources are read. -/
def CollRow.readers (r : CollRow) (c : Ctx) : List Nat := if r.d.isK then [0] else acting c r.h

/-- The values of its sources; a uniform collective has one value for all its participants. -/
def CollRow.vals (r : CollRow) (s : State) (c : Ctx) : List (List Nat) :=
  let vs := (allVals c r.d.isK (r.readers c) r.srcs s).1
  if r.d.isK then vs.map (fun l => (r.threads c).map (fun _ => (l.head?).getD 0)) else vs

/-- The collective runs: it begins, its uniform guard holds, somebody takes part, its operands carry no poison and its queues are open. -/
def CollRow.Runs (r : CollRow) (s : State) (c : Ctx) : Prop :=
  Begins r.h.sw (kRegs (guardOpd r.h :: r.srcs.map (·.o))) s c ∧ (r.d.isK = true → uniHolds c r.h = true) ∧ c.p.am ≠ 0 ∧
    r.threads c ≠ [] ∧ Clean c r.h r.d.isK (r.threads c) (r.srcs.map (·.o)) ∧ QueuesOpen s c (r.readers c).length r.srcs r.d r.dw

/-- Bytes 0 to 7 of a scratchpad offset as a number. -/
def scrNat (s : State) (c : Ctx) (off n : Nat) : Nat := leNat (scrRead (c.core s) off n)

end Sys2Proof.Machine

/-- O15. The all-zero word: it decodes to a word of its own, which changes nothing but the pc and the clock (R228). -/
def Obligations.AllZeroWord : Prop :=
  decode 0 = some .guardFalseNop ∧
  ∀ (s : State) (c : Ctx), Begins false [] s c → exec .guardFalseNop s = .next (finish s c.f 1)

/-- O16. A collective completes: every participant receives its result, and the flags are raised (R274 to R281). A collective without an active thread raises the illegal-convergence trap with reason 2, after its uniform guard (R275, R415). -/
def Obligations.Collectives : Prop :=
  (∀ (i : Instr) (s : State) (c : Ctx) (r : CollRow), collOf i = some r → r.Runs s c →
    ∃ t, exec i s = .next t ∧ t.frag? c.f = some (c.p.goesOn (c.p.pc + 8)) ∧ t.mem = s.mem ∧ t.accs = s.accs ∧
      Wrote t c r.d r.dw (r.threads c) ((r.op (r.threads c) (r.vals s c)).map (·.v)) ∧
      ∃ w, t.warp? c.f = some w ∧
        w.fpstat = c.w.fpstat ||| (r.op (r.threads c) (r.vals s c)).foldl (fun a x => a ||| x.fl) 0) ∧
  (∀ (i : Instr) (s : State) (c : Ctx) (r : CollRow), collOf i = some r →
    Begins r.h.sw (kRegs (guardOpd r.h :: r.srcs.map (·.o))) s c → (r.d.isK = true → uniHolds c r.h = true) → c.p.am = 0 →
    c.p.masked = false → ∃ t, exec i s = .next t ∧ Trapped t c 8 2 c.p.pc false true)

namespace Sys2Proof.Machine

/-- A fence of an order has nothing to wait for: a release's earlier accesses are performed, an acquire's loads and atomics have returned, and no engine
instruction of the agent still works (R136, R137, R146). -/
def FenceReady (form : AOrd) (sc : Scope) (s : State) (c : Ctx) : Prop :=
  acqOut s c.p.uid = false ∧ ((form = .rel ∨ form = .ar) → released s c.f c.p.uid sc = true) ∧
    ((form = .acq ∨ form = .ar) → returned s c.p.uid = true ∧ engOut s c.f = false)

/-- The three maintenance words of a guard and its operands. -/
def maintWord (k : Maint) (h : Hdr) (a b : Opd) : Instr :=
  match k with
  | .wb => .cmntWb h a b
  | .inv => .cmntInv h a b
  | .wbi => .cmntWbi h a b

/-- A maintenance word covers the `n` bytes of whole lines at `lo`; nothing earlier of the agent is under way, and no byte is locked (R306). -/
def MaintBegins (h : Hdr) (a b : Opd) (s : State) (c : Ctx) (lo n : Nat) : Prop :=
  let va := opVal s c true 0 ⟨a, 64, .int⟩
  let len := opVal s c true 0 ⟨b, 64, .int⟩
  UniRuns h [a, b] s c ∧ 0 < len ∧ len ≤ 2 ^ 32 ∧ lo = va / 128 * 128 ∧ n = (va + len + 127) / 128 * 128 - lo ∧
    lockHit (c.core s) true lo n true = none ∧ acqOut s c.p.uid = false ∧ settledAll s c.f c.p.uid = true

/-- A page that permits writes is found for `lo` at `p`, in the state `s1`, and its home is in reach. -/
def MaintFinds (ag : Agent) (lo : Nat) (s s1 : State) (p : Phys) : Prop :=
  xlatA s ag lo .m = .ok (s1, p) ∧ ∀ w, reach s1 ag lo p ≠ some (.busy w)

/-- A maintenance word whose range lies within 64 KiB, and so in one page, mapped to `pa`. `s1` is the state once the page has been found. -/
def MaintReady (h : Hdr) (a b : Opd) (s s1 : State) (c : Ctx) (n pa : Nat) : Prop :=
  ∃ lo p, MaintBegins h a b s c lo n ∧ lo % 2 ^ 16 + n ≤ 2 ^ 16 ∧ MaintFinds (ownAgent s c.f) lo s s1 p ∧ p.pa = pa

/-- Line `li` holds bytes of the `n` at `pa`. -/
def InLines (pa n li : Nat) : Prop := pa / 128 ≤ li ∧ li ≤ (pa + n - 1) / 128

/-- What maintaining the lines of `n` bytes at `pa` does, from `s` to `t` (R73, R306): an invalidation drops them from the cluster store and from the core's L1; a
write-back alone leaves them there, clean, and the L1 as it is; no other line changes; and memory takes the bytes of the dirty ones that are written back. -/
def Maintained (k : Maint) (d core pa n : Nat) (s t : State) : Prop :=
  (k ≠ .wb → ∀ li, InLines pa n li → lineAt t d (core / 8) li = none ∧ ∀ e ∈ (t.core d core).l1, e.1 ≠ li) ∧
  (k = .wb → (t.core d core).l1 = (s.core d core).l1 ∧ ∀ li l, InLines pa n li → lineAt s d (core / 8) li = some l →
    lineAt t d (core / 8) li = some { l with dirty := false }) ∧
  (∀ li, ¬ InLines pa n li → lineAt t d (core / 8) li = lineAt s d (core / 8) li ∧
    ∀ l, (li, l) ∈ (t.core d core).l1 ↔ (li, l) ∈ (s.core d core).l1) ∧
  (k = .inv → ∀ x, rdB t x = rdB s x) ∧
  (k ≠ .inv → ∀ x, rdB t x =
    match lineAt s d (core / 8) (x / 128) with
    | some l => if l.dirty = true ∧ pa / 128 ≤ x / 128 ∧ x / 128 ≤ (pa + n - 1) / 128 then (l.data[x % 128]?).getD 0 else rdB s x
    | none => rdB s x)

/-- The lines of a cluster are well formed: each stands once, with 128 bytes. -/
def LinesOk (s : State) (d cl : Nat) : Prop :=
  ((s.cluster d cl).lines.map (·.1)).Nodup ∧ ∀ e ∈ (s.cluster d cl).lines, e.2.data.length = 128

/-- An agent of a core maintains the `n` bytes at `lo` page by page, from `s` to `u`: 64 KiB bounds divide the range. -/
inductive MaintChain (ag : Agent) (core : Nat) (k : Maint) : Nat → Nat → State → State → Prop
  | done (lo : Nat) (s : State) : MaintChain ag core k lo 0 s s
  | page (lo n w : Nat) (s s1 u : State) (p : Phys) : 0 < n → w = min n (2 ^ 16 - lo % 2 ^ 16) → MaintFinds ag lo s s1 p →
      MaintChain ag core k (lo + w) (n - w) (maintPage ag core k lo p w s1) u → MaintChain ag core k lo n s u

end Sys2Proof.Machine

/-- O17. Fences, draining, maintenance, prefetch and the handle load (R136, R137, R299, R304 to R307): a fence that has nothing to wait for completes, and an
acquire of cluster scope or wider empties the L1; `ntdrain` completes once no non-temporal store is out; a maintenance word of length 0 does nothing; one of
lines writes back the dirty ones (`.wb`, `.wbi`), drops them all from the cluster store and from the core's L1 (`.inv`, `.wbi`), and changes no other line or byte; a range of
any length is maintained page by page; a prefetch starts an access for each thread whose line is not locked; `ldsk.h` loads a handle and marks the register pending. -/
def Obligations.OrderingWords : Prop :=
  (∀ (h : Hdr) (form : AOrd) (sc : Scope) (s : State) (c : Ctx), UniRuns h [] s c → FenceReady form sc s c →
    ∃ t, exec (.fence h form sc) s = .next t ∧ t.frag? c.f = some (c.p.goesOn (c.p.pc + 8)) ∧ t.mem = s.mem ∧
      ((form = .acq ∨ form = .ar) → sc ≠ .wp → sc ≠ .wg → (t.core c.f.die c.f.core).l1 = [])) ∧
  (∀ (h : Hdr) (s : State) (c : Ctx), UniRuns h [] s c → (∀ a ∈ s.accs, a.uid = c.p.uid → a.kind ≠ .storeNt) →
    ∃ t, exec (.ntdrain h) s = .next t ∧ t.frag? c.f = some (c.p.goesOn (c.p.pc + 8)) ∧ t.mem = s.mem ∧ t.accs = s.accs) ∧
  (∀ (k : Maint) (h : Hdr) (a b : Opd) (s : State) (c : Ctx), UniRuns h [a, b] s c → opVal s c true 0 ⟨b, 64, .int⟩ = 0 →
    ∃ t, exec (maintWord k h a b) s = .next t ∧ Done t c ∧ t.mem = s.mem ∧ t.accs = s.accs) ∧
  (∀ (k : Maint) (h : Hdr) (a b : Opd) (s s1 : State) (c : Ctx) (n pa : Nat), MaintReady h a b s s1 c n pa →
    LinesOk s1 c.f.die (c.f.core / 8) →
    ∃ t, exec (maintWord k h a b) s = .next t ∧ Done t c ∧ Maintained k c.f.die c.f.core pa n s1 t) ∧
  (∀ (k : Maint) (h : Hdr) (a b : Opd) (s u : State) (c : Ctx) (lo n : Nat), MaintBegins h a b s c lo n →
    MaintChain (ownAgent s c.f) c.f.core k lo n s u → exec (maintWord k h a b) s = .next (finish (progress u c.f) c.f 1)) ∧
  (∀ (ag : Agent) (core : Nat) (k : Maint) (va w : Nat) (p : Phys) (s : State), 0 < w → LinesOk s ag.die (core / 8) →
    Maintained k ag.die core p.pa w s (maintPage ag core k va p w s)) ∧
  (∀ (h : Hdr) (l1 : Bool) (m : MemOp) (s : State) (c : Ctx) (ts : List Nat), Begins h.sw (kRegs (guardOpd h :: memOpds m)) s c →
    Clean c h false (acting c h) (memOpds m) → acting c h ≠ [] →
    ts = (acting c h).filter (fun t => (lockHit (c.core s) true (effAddr s c t m / 128 * 128) 128 true).isNone) →
    requestsOut s c.f + ts.length ≤ 1024 →
    exec (.prf h l1 m) s = .next (finish (ts.foldl (fun s' t =>
      launchAcc s' c none { thr := some t, va := effAddr s c t m, n := 1, kind := .pref l1 }) s) c.f (laneCycles (acting c h).length)) ∧
    ∃ t, exec (.prf h l1 m) s = .next t ∧ Done t c ∧ t.mem = s.mem) ∧
  (∀ (h : Hdr) (i : BitVec 5) (m : MemOp) (s : State) (c : Ctx) (va : Nat), UniRuns h (memOpds m) s c → va = effAddr s c 0 m →
    va % 8 = 0 → inAllot c.g va 8 = true → lockHit (c.core s) false va 8 false = none → acqOut s c.p.uid = false →
    engineHeld s c { thr := none, va := va, n := 8, kind := .load .b64 } = false →
    ∃ t w, exec (.ldskH h (.k i) m) s = .next t ∧ Done t c ∧ t.mem = s.mem ∧ t.warp? c.f = some w ∧
      (i ≠ 0 → w.kpend.getLsbD i.toNat = true ∧ kVal t c.f i.toNat = BitVec.ofNat 64 (scrNat s c va 8)))

namespace Sys2Proof.Machine

/-! ### Commands (R74 to R84, R308) -/

/-- The guard, the completion, the destination, the operands and the request of a command word. -/
structure CmdRow where
  h : Hdr
  d : Opd
  os : List Opd
  req : State → Ctx → CmdReq

/-- The completion value, which a word with a completion reads from its destination register (R308). -/
def cwVal (cw : CwMod) (d : Opd) (s : State) (c : Ctx) : W64 := if cw.cw then BitVec.ofNat 64 (kNat s c d) else 0

/-- The operands a command word reads. -/
def cmdOs (cw : CwMod) (d : Opd) (os : List Opd) : List Opd := if cw.cw then d :: os else os

/-- The command words of the opcode table but for the two of the matrix engine (R309, R310, R319). -/
def cmdRowOf : Instr → Option CmdRow
  | .cpy h dir cw d a b e => some ⟨h, d, cmdOs cw d [a, b, e], fun s c => cpyReq c.g dir cw (cwVal cw d s c) (kNat s c a) (kNat s c b) (kNat s c e)⟩
  | .cpyk h g cw d a b e => some ⟨h, d, cmdOs cw d [a, b, e], fun s c => cpykReq s c g cw (cwVal cw d s c) (kNat s c a) (kNat s c b) (kNat s c e)⟩
  | .refine h cw d a b e => some ⟨h, d, cmdOs cw d (structOs cw [a, b] e), fun s c =>
      { fail := firstFail (structCw s c cw (cwVal cw d s c) e).1, kind := .refine (BitVec.ofNat 64 (kNat s c a)) (kNat s c b)
        cw := (structCw s c cw (cwVal cw d s c) e).2, sid := sidOf s (keySp (BitVec.ofNat 64 (kNat s c a))) }⟩
  | .coarsen h cw d a e => some ⟨h, d, cmdOs cw d (structOs cw [a] e), fun s c =>
      { fail := firstFail (structCw s c cw (cwVal cw d s c) e).1, kind := .coarsen (BitVec.ofNat 64 (kNat s c a))
        cw := (structCw s c cw (cwVal cw d s c) e).2, sid := sidOf s (keySp (BitVec.ofNat 64 (kNat s c a))) }⟩
  | .rebal h cw d a b e => some ⟨h, d, cmdOs cw d (structOs cw [a, b] e), fun s c =>
      rebalReq s c cw (cwVal cw d s c) (kNat s c a) (kNat s c b) e⟩
  | .shovGive h d a => some ⟨h, d, [a], fun s c =>
      { fail := firstFail [(kNat s c a ≥ 8 || !attached s c.f.die (kNat s c a), 0x22), (!(s.die c.f.die).own.getLsbD (kNat s c a), 0x21),
          (hovBusy s (kNat s c a), 0x24)]
        kind := .shovGive (kNat s c a), st := .leave }⟩
  | .shovTake h cw d a e => some ⟨h, d, cmdOs cw d (structOs cw [a] e), fun s c =>
      { fail := firstFail ((structCw s c cw (cwVal cw d s c) e).1 ++ [(kNat s c a ≥ 8 || !attached s c.f.die (kNat s c a), 0x22),
          (!(s.die c.f.die).own.getLsbD (kNat s c a) &&
            s.cmds.any (fun k => k.die == c.f.die && k.kind == .shovTake (kNat s c a) && k.st == .waiting), 0x24)])
        kind := .shovTake (kNat s c a), cw := (structCw s c cw (cwVal cw d s c) e).2
        st := if (s.die c.f.die).own.getLsbD (kNat s c a) then .done 0 else .waiting }⟩
  | _ => none

/-- A command has been accepted in `t`: it is the last of the list, its kind, completion word, state and space are those asked for, its handle-table entry is in
use under a new sequence number, and the destination holds the handle and is pending (R79, R80, R308, R389). Which free entry it takes is open: the lowest is the
model's choice (log entry 86). -/
def Accepted (s t : State) (c : Ctx) (d : Opd) (r : CmdReq) : Prop :=
  ∃ e cmd x, freeEnt (c.core s) = some e ∧ t.cmds = s.cmds ++ [cmd] ∧ cmd.kind = r.kind ∧ cmd.cw = r.cw ∧ cmd.st = r.st ∧ cmd.sid = r.sid ∧
    cmd.die = c.f.die ∧ cmd.core = c.f.core ∧ cmd.ent = some e ∧ cmd.hseq = x.seq ∧
    Tab.get? (t.core c.f.die c.f.core).handles e = some x ∧ x.used = true ∧ x.tag = c.f.wg ∧ x.status = none ∧
    (t.core c.f.die c.f.core).locks = (c.core s).locks ++ r.locks.map (fun l => mkLock l.1 l.2.1 l.2.2.1 l.2.2.2 cmd.id) ∧
    ∀ i : BitVec 5, d = .k i → i ≠ 0 → kVal t c.f i.toNat = handleVal c.f.wg e x.seq ∧
      ∃ w, t.warp? c.f = some w ∧ w.kpend.getLsbD i.toNat = true

end Sys2Proof.Machine

/-- O18. A command word that passes its checks is accepted and goes on, once the agent's earlier accesses are complete; one that fails a check, or finds no free
entry, gets an immediate handle with the code and issues no command; a `rebal` reads its descriptor, and so fails, only once those accesses are complete (R79, R80, R87, R308 to R310, R319).
That the handle names the lowest free entry is the model's choice (log entry 86). -/
def Obligations.CommandWords : Prop :=
  ∀ (i : Instr) (s : State) (c : Ctx) (r : CmdRow), cmdRowOf i = some r → UniRuns r.h r.os s c →
    (∀ e, freeEnt (c.core s) = some e → (r.req s c).fail = none → acqOut s c.p.uid = false → settledAll s c.f c.p.uid = true →
      (c.core s).locks.length + (r.req s c).locks.length ≤ 64 →
      ∃ t, exec i s = .next t ∧ Done t c ∧ Accepted s t c r.d (r.req s c)) ∧
    (∀ code, (freeEnt (c.core s) = none ∧ code = 0x1A ∨ freeEnt (c.core s) ≠ none ∧ (r.req s c).fail = some code) →
      (∀ h cw d a b e, i = .rebal h cw d a b e → acqOut s c.p.uid = false ∧ settledAll s c.f c.p.uid = true) →
      ∃ t, exec i s = .next t ∧ Done t c ∧ t.cmds = s.cmds ∧ t.mem = s.mem ∧
        ∀ i : BitVec 5, r.d = .k i → i ≠ 0 → kVal t c.f i.toNat = immHandle code)

namespace Sys2Proof.Machine

/-- A `cpy` moves the `n` bytes from `src` to `dst` piece by piece, from `s` to `t`: each piece is read unpoisoned from its side and written to the other (R75, R77). -/
inductive CopyChain (sg dg : Bool) : Cmd → Nat → Nat → Nat → State → State → Prop
  | done (x : Cmd) (dst src : Nat) (s : State) : CopyChain sg dg x dst src 0 s s
  | piece (x : Cmd) (dst src n : Nat) (bs : List Byte) (s s1 s2 t : State) : 0 < n → sideRead s x sg src (pieceLen dst src n) = .ok (s1, bs, false) →
      sideWrite s1 x dg dst bs = .ok s2 →
      CopyChain sg dg x.went (dst + pieceLen dst src n) (src + pieceLen dst src n) (n - pieceLen dst src n) s2 t → CopyChain sg dg x dst src n s t

/-- The byte of memory that a cluster sees: its line's where it holds one, but on a home-only page the home's (R65, R70, R145). -/
def seen (s : State) (d cl : Nat) (sl : BitVec 2) (x : Nat) : Byte :=
  match if sl = 2 then none else lineAt s d cl (x / 128) with
  | some l => (l.data[x % 128]?).getD 0
  | none => rdB s x

/-- An access of an engine of core `c` to `n` bytes at `va`, within one 64-byte unit, has found its page and can reach its home, in `s1` at `p`. -/
def EngineReaches (s s1 : State) (a : Agent) (c va n : Nat) (w : Want) (p : Phys) : Prop :=
  a.core = some c ∧ a.l1 = false ∧ 0 < n ∧ va % 64 + n ≤ 64 ∧ p.pa % 64 = va % 64 ∧ p.al = false ∧ xlatA s a va w = .ok (s1, p) ∧ reach s1 a va p = none ∧
    (p.sl ≠ 2 → lineTracked s1 a.die (c / 8) (p.pa / 128) = false)

/-- The bytes `bs` at `pa` are written in memory, and no other byte changes. -/
def WrittenAt (s t : State) (pa : Nat) (bs : List Byte) : Prop := ∀ x, rdB t x = if pa ≤ x ∧ x < pa + bs.length then (bs[x - pa]?).getD 0 else rdB s x

end Sys2Proof.Machine

/-- O19. Engine events: a copy command starts while fewer than 32 run; a running one moves bytes piece by piece, reads them as its cluster sees them, writes them to the
scratchpad, to the home, or to the lines of its cluster store, and ends with the last; a command whose status is known completes: its completion word holds the value,
or the status with bit 63, its range locks go, its handle resolves; a completion word at `.die` or wider waits for the stores that the cluster's tracker held; a
gather takes a key of its list, looks it up and pins its leaf, reads the block and lets the pin go, and writes the converted bytes (R71, R75 to R77, R81, R83, R84, R87, R145).
How many bytes move in one turn is a free value (log entry 32). -/
def Obligations.EngineEvents : Prop :=
  (∀ (s : State) (x : Cmd), s.cmds.find? (fun y => y.id == x.id) = some x →
    (s.cmds.filter (fun y => y.die == x.die && y.core == x.core && y.kind.copyEngine)).find? (fun y => y.st == .waiting) = some x →
    ((s.cmds.filter (fun y => y.die == x.die && y.core == x.core && y.kind.copyEngine)).filter (fun y => y.st == .running)).length < 32 →
    ∃ t, exec (.copyCommandStart x.die x.core) s = .next t ∧ t.cmd? x.id = some { x with st := .running } ∧ t.mem = s.mem) ∧
  (∀ (s u : State) (x : Cmd) (dir : CpyDir) (dst src len k : Nat), s.cmd? x.id = some x → x.st = .running → x.kind = .cpy dir dst src len → x.next < len →
    k = (s.takeNat (len - x.next + 1)).1 →
    CopyChain (dirSides dir).1 (dirSides dir).2 x (dst + x.next) (src + x.next) k (s.takeNat (len - x.next + 1)).2 u →
    (x.next + k < len → ∃ t z, exec (.commandComplete x.id) s = .next t ∧ t.mem = u.mem ∧ (t.core x.die x.core).scr = (u.core x.die x.core).scr ∧
      t.cmd? x.id = some z ∧ z.next = x.next + k ∧ z.st = .running ∧ z.kind = x.kind) ∧
    (x.next + k = len → x.cw = none → x.gcw = none → x.queue = 64 →
      ∃ t, exec (.commandComplete x.id) s = .next t ∧ t.mem = u.mem ∧ (t.core x.die x.core).scr = (u.core x.die x.core).scr ∧ t.cmd? x.id = none)) ∧
  (∀ (s : State) (x : Cmd) (dst src n : Nat), overlap dst n src n = false → scrPois (s.core x.die x.core) src n = false →
    x.die < s.dies.length → ∃ u, CopyChain false false x dst src n s u ∧ u.mem = s.mem ∧
      (∀ i, i < n → Tab.getD (u.core x.die x.core).scr (dst + i) 0 = Tab.getD (s.core x.die x.core).scr (src + i) 0) ∧
      ∀ a, a < dst ∨ dst + n ≤ a → Tab.getD (u.core x.die x.core).scr a 0 = Tab.getD (s.core x.die x.core).scr a 0) ∧
  (∀ (s s1 : State) (a : Agent) (c va n : Nat) (p : Phys), EngineReaches s s1 a c va n .r p → loose (noteUse s1 a.die (c / 8) p) p.pa = false →
    ∃ t po, vread s a va n = .ok (t, (List.range n).map (fun i => seen s1 a.die (c / 8) p.sl (p.pa + i)), po)) ∧
  (∀ (s s1 : State) (a : Agent) (c va : Nat) (bs : List Byte) (p : Phys), EngineReaches s s1 a c va bs.length .w p → pathBusy s1 a p bs.length = false →
    (p.sl = 2 ∨ p.sl = 1 → ∃ t, vwrite s a va bs = .ok t ∧ WrittenAt s1 t p.pa bs ∧
      (p.sl = 1 → ∀ l, lineAt s1 a.die (c / 8) (p.pa / 128) = some l → lineAt t a.die (c / 8) (p.pa / 128) = some (l.put (p.pa % 128) bs false))) ∧
    (p.sl = 0 → a.die < s1.dies.length → (lineAt s1 a.die (c / 8) (p.pa / 128)).isSome = true ∨ (s1.cluster a.die (c / 8)).lines.length < csLines s1 a.die →
      ∃ t, vwrite s a va bs = .ok t ∧ t.mem = s1.mem ∧ lineAt t a.die (c / 8) (p.pa / 128) =
        some { ((lineAt s1 a.die (c / 8) (p.pa / 128)).getD (lineFromHome s1 (p.pa / 128) false)).put (p.pa % 128) bs false with dirty := true })) ∧
  (∀ (s : State) (x : Cmd) (st : W64) (e : Nat) (y : HEnt), s.cmd? x.id = some x → x.st = .done st → x.core < 96 → x.gcw = none →
    x.pinned = none → x.queue = 64 → x.ent = some e → Tab.get? (s.core x.die x.core).handles e = some y → y.used = true → y.seq = x.hseq →
    x.die < s.dies.length →
    (x.mustWait s st = false → ∃ t, exec (.commandComplete x.id) s = .next t ∧ t.cmd? x.id = none ∧ t.mem = s.mem ∧
      Tab.get? (t.core x.die x.core).handles e = some { y with status := some st } ∧
      (∀ l ∈ (t.core x.die x.core).locks, l.cmd ≠ x.id) ∧
      (∀ w, x.cw = some w →
        leNat (scrRead (t.core x.die x.core) w.off 8) = (if st = 0 then w.val else st ||| (1 <<< 63)).toNat)) ∧
    (x.mustWait s st = true → ∃ t, exec (.commandComplete x.id) s = .next t ∧ t.cmd? x.id = some { x with relOf := some (x.relIds s) } ∧
      t.dies = s.dies ∧ t.mem = s.mem)) ∧
  (∀ (s : State) (x : Cmd) (glob : Bool) (dst list cnt sp stride fmt : Nat), s.cmd? x.id = some x → x.st = .running →
    x.kind = .cpyk glob dst list cnt sp stride fmt → s.dirW = [] →
    (x.out = [] → Tab.get? s.spaces sp = none →
      ∃ t y, exec (.gatherKeyStep x.id) s = .next t ∧ t.cmd? x.id = some y ∧ y.st = .done 0x30 ∧ t.mem = s.mem) ∧
    (∀ (y : Space) (key : W64) (n : Nat) (r : KRec), x.out = [] → x.pinned = none → x.keys.length = x.next → Tab.get? s.spaces sp = some y →
      sameSpace s x.sid sp = true → key = BitVec.ofNat 64 (leNat (scrRead (s.core x.die x.core) (list + 8 * x.next) 8)) →
      scrPois (s.core x.die x.core) (list + 8 * x.next) 8 = false → keySp key = sp → keyOkIn y key = true → gatherStall s y x.die key = false →
      lookRec y key = some (n, r) → r.key = key → r.st = 1 → r.rpin < 65535 →
      (putRec (gatherStart s x list).1 sp n { r with rpin := r.rpin + 1 }).dirW = [] →
      ∃ t z, exec (.gatherKeyStep x.id) s = .next t ∧ t.cmd? x.id = some { x with keys := x.keys ++ [(key, false)], pinned := some n } ∧
        Tab.get? t.spaces sp = some z ∧ Tab.get? z.recs n = some { r with rpin := r.rpin + 1 }) ∧
    (∀ (y : Space) (n k : Nat) (r : KRec) (s1 : State) (got bs : List Byte), got = ((x.out.head?).map (·.2)).getD [] → x.next < x.keys.length →
      x.pinned = some n → Tab.get? s.spaces sp = some y → Tab.get? y.recs n = some r → k = (s.takeNat (r.dsize.toNat - got.length + 1)).1 →
      vread (s.takeNat (r.dsize.toNat - got.length + 1)).2 (cmdAgent x) (r.slot.toNat + got.length) k = .ok (s1, bs, false) →
      (got.length + k < r.dsize.toNat → ∃ t z, exec (.gatherKeyStep x.id) s = .next t ∧ t.mem = s1.mem ∧ t.cmd? x.id = some z ∧ z.st = .running ∧
        z.next = x.next ∧ z.pinned = some n ∧ z.out = [(0, got ++ bs)]) ∧
      (∀ (o : List Byte) (fl : BitVec 5), r.dsize.toNat ≤ got.length + k → gatherBytes y r fmt (got ++ bs) = .ok (o, fl) → o.length ≤ stride → s1.dirW = [] →
        (gatherUnpin (noteStacks (s1.modCmd x.id (fun c => { c.went with out := [(0, got ++ bs)] })) x [(r.slot.toNat + got.length, k)]) x).dirW = [] →
        ∃ t z, exec (.gatherKeyStep x.id) s = .next t ∧ t.cmd? x.id = some z ∧ z.st = .running ∧ z.next = x.next ∧ z.pinned = none ∧ z.out = [(0, o)])) ∧
    (∀ (w k : Nat) (o : List Byte) (rest : List (Nat × List Byte)) (s2 : State), x.pinned = none → x.out = (w, o) :: rest → w < o.length →
      k = (s.takeNat (o.length - w + 1)).1 →
      sideWrite (s.takeNat (o.length - w + 1)).2 x glob (dst + x.next * stride + w) (bytesAt o w k) = .ok s2 →
      ∃ t z, exec (.gatherKeyStep x.id) s = .next t ∧ t.mem = s2.mem ∧ t.cmd? x.id = some z ∧
        (w + k < o.length → z.st = .running ∧ z.next = x.next ∧ z.out = [(w + k, o)]) ∧
        (o.length ≤ w + k → cnt ≤ x.next + 1 → z.st = .done 0) ∧
        (o.length ≤ w + k → x.next + 1 < cnt → z.st = .running ∧ z.next = x.next + 1 ∧ z.out = [])))

/-- O20. Waits on words and handles (R82, R85, R88, R225, R311 to R313, R429): a `waita` that no result of its fragment holds up, a marker whatever its `sw` bit, goes on where
its comparison holds, and parks otherwise; each later write of the word makes the comparison again, and once one has satisfied it, `WAITA_WAKE` ends the wait,
whatever the word holds by then; a write made under a full lock of the word ends it with the range-lock trap; a halted die ends no wait; `htest` tells whether
a handle is resolved; `hcan` frees the entry of a resolved handle, withdraws a waiting command, a drain that waits in its engine among them, with code 0x23, and stops a running copy or
gather with 0x17. That it does nothing to a drain which its engine has begun is the model's choice (log entry 106). -/
def Obligations.WaitsAndHandles : Prop :=
  (∀ (h : Hdr) (cond : BitVec 2) (n64 acq : Bool) (sc : Scope) (a b : Opd) (s : State) (c : Ctx) (off n : Nat) (w : Watch),
    UniRuns h [a, b] s c → resultsOut s c.p.uid = false → off = kNat s c a → n = (if n64 then 8 else 4) →
    w = ⟨off, n, BitVec.ofNat 64 (kNat s c b), cond, if acq then some sc else none⟩ →
    off % n = 0 → inAllot c.g off n = true → lockHit (c.core s) false off n false = none → acqOut s c.p.uid = false →
    opsHeld s c [(off, n)] [] = false →
    (watchHolds (c.core s) w = true → ∃ t, exec (.waita h cond n64 acq sc a b) s = .next t ∧ Done t c ∧ t.mem = s.mem) ∧
    (watchHolds (c.core s) w = false → ∃ t p, exec (.waita h cond n64 acq sc a b) s = .next t ∧ t.frag? c.f = some p ∧
      p.wait = .waita ∧ p.watch = some w ∧ p.pc = c.p.pc ∧ (⟨c.p.uid, w, false, none⟩ : Watcher) ∈ (t.core c.f.die c.f.core).watches)) ∧
  (∀ (k : Core) (o : Nat) (bs : List Byte) (p : Bool) (x : Watcher), x ∈ k.watches → x.hit = false → x.bad = none →
    overlap x.w.off x.w.n o bs.length = true →
    (∀ b, k.fullLock x.w.off x.w.n = some b → { x with bad := some b } ∈ (scrWrite k o bs p).watches) ∧
    (k.fullLock x.w.off x.w.n = none → { x with hit := watchHolds (scrWrite k o bs p) x.w } ∈ (scrWrite k o bs p).watches)) ∧
  (∀ (s : State) (c : Ctx) (w : Watch) (x : Watcher), ctxOf s c.f = some c → c.p.wait = .waita → c.p.watch = some w → c.g.resident = true →
    c.p.stopped = false → (c.core s).watches.find? (fun x => x.uid == c.p.uid) = some x →
    ((s.die c.f.die).halt = true → c.p.defers = false → exec (.waitaWake c.f) s = .next s) ∧
    (((s.die c.f.die).halt = false ∨ c.p.defers = true) → x.bad = none → x.hit = true → ∃ t, exec (.waitaWake c.f) s = .next t ∧ Done t c ∧ t.mem = s.mem) ∧
    (x.bad = none → x.hit = false → exec (.waitaWake c.f) s = .next s) ∧
    (∀ b, ((s.die c.f.die).halt = false ∨ c.p.defers = true) → x.bad = some b → c.p.masked = false →
      ∃ t, exec (.waitaWake c.f) s = .next t ∧ Trapped t c 0x0A (BitVec.ofNat 64 b) c.p.pc false true)) ∧
  (∀ (h : Hdr) (d : Opd) (i : BitVec 5) (s : State) (c : Ctx), Begins h.sw (kRegs [guardOpd h]) s c → uniHolds c h = true →
    Clean c h true [0] [.k i] →
    ∃ t v, exec (.htest h d (.k i)) s = .next t ∧ t.frag? c.f = some (c.p.goesOn (c.p.pc + 8)) ∧
      v = (if c.w.kpend.getLsbD i.toNat = true ∧ handleStatus (c.core s) c.f.wg (c.w.readK i.toNat) = none then 0 else 1) ∧
      (∀ n : BitVec 5, d = .k n → kVal t c.f n.toNat = if n = 0 then 0 else BitVec.ofNat 64 v) ∧
      ∀ n : BitVec 5, d = .w n → ∀ j ∈ maskList c.p.am, j < c.w.thr.length → wVal t c.f j n.toNat = if n = 0 then 0 else BitVec.ofNat 32 v) ∧
  (∀ (h : Hdr) (i : BitVec 5) (s : State) (c : Ctx), Begins h.sw (kRegs [guardOpd h]) s c → uniHolds c h = true → Clean c h true [0] [.k i] →
    (∃ t, exec (.hcan h (.k i)) s = .next t ∧ Done t c) ∧
    (∀ e x, (c.w.readK i.toNat).getLsbD 63 = false → handleEnt (c.core s) c.f.wg (c.w.readK i.toNat) = some (e, x) → x.status.isSome = true →
      ∃ t, exec (.hcan h (.k i)) s = .next t ∧
        Tab.get? (t.core c.f.die c.f.core).handles e = some { x with used := false, status := none }) ∧
    (∀ e x k, (c.w.readK i.toNat).getLsbD 63 = false → handleEnt (c.core s) c.f.wg (c.w.readK i.toNat) = some (e, x) → x.status = none →
      s.cmds.find? (fun k => k.die == c.f.die && k.core == c.f.core && k.wg == c.f.wg && k.ent == some e && k.hseq == x.seq) = some k → s.cmd? k.id = some k →
      (k.st = .waiting ∨ k.st = .leave → ∃ t, exec (.hcan h (.k i)) s = .next t ∧ t.cmd? k.id = some { k with st := .done 0x23 }) ∧
      (k.st = .running → k.kind.copyEngine = true → ∃ t, exec (.hcan h (.k i)) s = .next t ∧ t.cmd? k.id = some { k with st := .done 0x17 }) ∧
      (∀ b n m, k.st = .running → k.kind = .mdrn b n m → drainWaits s k = true →
        ∃ t, exec (.hcan h (.k i)) s = .next t ∧ t.cmd? k.id = some { k with st := .done 0x23 } ∧ drainWaits t k = false) ∧
      (∀ b n m, k.st = .running → k.kind = .mdrn b n m → drainWaits s k = false →
        ∃ t, exec (.hcan h (.k i)) s = .next t ∧ t.cmd? k.id = some k)))

/-- O21. Queues and channels (R90 to R92, R314 to R316): binding, its three traps, the count of words, the queue-dead trap; a send appends its 64
bytes to the channel, a receive takes the oldest slot. -/
def Obligations.QueuesAndChannels : Prop :=
  (∀ (h : Hdr) (d a b : Opd) (s : State) (c : Ctx), UniRuns h [a, b] s c →
    (kNat s c a < 4 → kNat s c b % 1024 = 0 → inAllot c.g (kNat s c b) 1024 = true →
      ∃ t g, exec (.qbind h d a b) s = .next t ∧ Done t c ∧ t.wgOf? c.f = some g ∧
        (qIdx d < 16 → g.queue (qIdx d) = { port := kNat s c a, ring := kNat s c b }) ∧
        ∀ j, j ≠ qIdx d → g.queue j = c.g.queue j) ∧
    (c.p.masked = false → 4 ≤ kNat s c a → ∃ t, exec (.qbind h d a b) s = .next t ∧ Trapped t c 5 s.word c.p.pc false true) ∧
    (c.p.masked = false → kNat s c a < 4 → kNat s c b % 1024 ≠ 0 →
      ∃ t, exec (.qbind h d a b) s = .next t ∧ Trapped t c 4 (BitVec.ofNat 64 (kNat s c b)) c.p.pc false true) ∧
    (c.p.masked = false → kNat s c a < 4 → kNat s c b % 1024 = 0 → inAllot c.g (kNat s c b) 1024 = false →
      ∃ t, exec (.qbind h d a b) s = .next t ∧ Trapped t c 2 (BitVec.ofNat 64 (kNat s c b)) c.p.pc false true)) ∧
  (∀ (h : Hdr) (d a : Opd) (s : State) (c : Ctx), UniRuns h [] s c →
    ∃ t, exec (.qlen h d a) s = .next t ∧ t.frag? c.f = some (c.p.goesOn (c.p.pc + 8)) ∧ t.mem = s.mem ∧
      (∀ n : BitVec 5, d = .k n → kVal t c.f n.toNat = if n = 0 then 0 else BitVec.ofNat 64 (c.g.queue (qIdx a)).count) ∧
      ∀ n : BitVec 5, d = .w n → ∀ j ∈ maskList c.p.am, j < c.w.thr.length →
        wVal t c.f j n.toNat = if n = 0 then 0 else BitVec.ofNat 32 (c.g.queue (qIdx a)).count) ∧
  (∀ (s : State) (c : Ctx) (i : Nat), ctxOf s c.f = some c → c.g.resident = true → c.p.stopped = false →
    (((s.die c.f.die).halt = false ∨ c.p.defers = true) → c.p.masked = false →
      (c.p.wait = .popDead i ∨ c.p.wait = .pop i ∧ ((c.g.queue i).port = 0 ∨
        ((c.g.queue i).port = 1 ∨ (c.g.queue i).port = 2) ∧ loneWarp c.g c.f.warp = true ∨
        (c.g.queue i).port = 3 ∧ (c.g.queue i).faulted = true ∧ pulpPending s c.f i = false)) →
      ∃ t, exec (.queueDead c.f) s = .next t ∧ Trapped t c 0x0B (BitVec.ofNat 64 i) c.p.pc false true) ∧
    ((s.die c.f.die).halt = true → c.p.defers = false → exec (.queueDead c.f) s = .next s)) ∧
  (∀ (h : Hdr) (ch : BitVec 6) (a : Opd) (s : State) (c : Ctx) (x : Chan) (off : Nat), UniRuns h [a] s c → off = kNat s c a →
    chanOf s c ch.toNat = some x → off % 8 = 0 → inAllot c.g off 64 = true → acqOut s c.p.uid = false →
    (x.prod = c.g.wgid → lockHit (c.core s) false off 64 false = none →
      engineHeld s c { thr := none, va := off, n := 64, kind := .load .b64 } = false → x.consGone = false →
      released s c.f c.p.uid .die = true → x.filled.length < x.cap →
      ∃ t y, exec (.send h ch a) s = .next t ∧ Done t c ∧ chanOf t c ch.toNat = some y ∧
        y.filled.map (·.1) = x.filled.map (·.1) ++ [scrRead (c.core s) off 64]) ∧
    (∀ bs ps rest, x.cons = c.g.wgid → lockHit (c.core s) false off 64 true = none →
      engineHeld s c { thr := none, va := off, n := 64, kind := .store } = false → x.filled = (bs, ps) :: rest → bs.length = 64 →
      ∃ t y, exec (.recv h ch a) s = .next t ∧ Done t c ∧ chanOf t c ch.toNat = some y ∧ y.filled = rest ∧
        scrRead (t.core c.f.die c.f.core) off 64 = bs))

namespace Sys2Proof.Machine

/-! ### Key words (R101, R317) -/

/-- The guard, destination, sources and outcome of a key-arithmetic word; the outcome depends on the spaces, the die, and the source values. -/
structure KeyRow where
  h : Hdr
  d : Opd
  srcs : List Src
  op : State → Nat → List Nat → KOut

/-- The key-arithmetic words of the opcode table: the invalid key gives a value of its own, a malformed key or operand the trap (R101). -/
def keyRowOf : Instr → Option KeyRow
  | .kmk h d a b => some ⟨h, d, [k64 a, k32 b], fun s die v => kmkOut s die (arg v 0) (arg v 1)⟩
  | .kpar h d a => some ⟨h, d, [k64 a], fun s die v => onKey s die (arg v 0) badKey (fun x k => .val (keyParent x.dim k))⟩
  | .kchd h d a b => some ⟨h, d, [k64 a, k32 b], fun s die v => onKey s die (arg v 0) badKey (fun x k =>
      if arg v 1 ≥ 2 ^ x.dim then .trap k else .val (keyChild x.dim k (arg v 1)))⟩
  | .knbr h d a b => some ⟨h, d, [k64 a, k32 b], fun s die v => onKey s die (arg v 0) badKey (fun x k =>
      if arg v 1 > 5 || arg v 1 / 2 ≥ x.dim then .trap k else .val (keyNbr x k (arg v 1)))⟩
  | .klv h d a => some ⟨h, d, [k64 a], fun s die v => onKey s die (arg v 0) 63 (fun _ k => .val (BitVec.ofNat 64 (keyLv k)))⟩
  | .kcrd h d a => some ⟨h, d, [k64 a], fun s die v => onKey s die (arg v 0) badKey (fun x k =>
      .val (BitVec.ofNat 64 (packCoords x.dim ((List.range x.dim).map (keyCoord x.dim k)))))⟩
  | _ => none

/-- The fragment's word has put an access into the flight list that returns `v` to `d`, or one that returns the key-space trap. -/
def Returns (t : State) (c : Ctx) (thr : Option Nat) (d : Dst) : KOut → Prop
  | .val v => d ≠ .none → ∃ a ∈ t.accs, a.uid = c.p.uid ∧ a.thr = thr ∧ a.dst = d ∧ a.val = v ∧ a.st = .done
  | .trap info => ∃ a ∈ t.accs, a.uid = c.p.uid ∧ a.thr = thr ∧ a.st = .bad 0x11 info
  | .open_ => ∃ a ∈ t.accs, ∃ info, a.uid = c.p.uid ∧ a.thr = thr ∧ a.st = .bad 0x11 info

/-! ### Directory words (R113 to R116, R318) -/

/-- The guard, the destination that makes the word uniform or not, the key operand, the release and acquire scopes, whether the word is a
progress point, and the operation of a thread with its destinations. -/
structure DirRow where
  h : Hdr
  uni : Bool
  a : Opd
  rel : Option Scope := none
  acq : Option Scope := none
  op : W64 → DirOp
  d : Opd := .w 0
  e : Opd := .w 0

/-- The directory words of the opcode table. -/
def dirRowOf : Instr → Option DirRow
  | .klook h d a e => some { h := h, uni := d.isK, a := a, acq := some .fab, op := fun k => .look k false, d := d, e := e }
  | .klookW h d a e => some { h := h, uni := d.isK, a := a, acq := some .fab, op := fun k => .look k true, d := d, e := e }
  | .kown h d a => some { h := h, uni := d.isK, a := a, op := .own, d := d }
  | .kpinR h d a e => some { h := h, uni := d.isK, a := a, acq := some .fab, op := fun k => .pin k false, d := d, e := e }
  | .kpinW h d a e => some { h := h, uni := d.isK, a := a, acq := some .fab, op := fun k => .pin k true, d := d, e := e }
  | .kunpinR h a => some { h := h, uni := a.isK, a := a, op := fun k => .unpin k false }
  | .kunpinW h a => some { h := h, uni := a.isK, a := a, rel := some .fab, op := fun k => .unpin k true }
  | _ => none

/-- The operation of a thread. -/
def DirRow.opOf (r : DirRow) (s : State) (c : Ctx) (t : Option Nat) : DirOp := r.op (keyVal s c r.uni (thrOf t) r.a)

/-- The word starts: nothing it reads is pending or poisoned, somebody acts, no acquire is out, its release is met. -/
def DirRow.Starts (r : DirRow) (s : State) (c : Ctx) : Prop :=
  Begins r.h.sw (kRegs [guardOpd r.h, r.a]) s c ∧ Clean c r.h r.uni ((memThreads c r.h r.uni).map thrOf) [r.a] ∧
    memThreads c r.h r.uni ≠ [] ∧ acqOut s c.p.uid = false ∧ (∀ sc, r.rel = some sc → released s c.f c.p.uid sc = true)

/-- No earlier write of a directory agent waits for its memory, and every write of the step `g` can be made now (R104). -/
def Passes (s : State) (g : State → State) : Prop := s.dirW = [] ∧ (g s).dirW = []

/-- An operation in flight that its agent can perform now: no earlier operation of the thread is out, the deckle is usable, its space is the one that was named at its
issue, and its writes can be made (R104, R112, R318, R389). -/
def AtAgent (s : State) (a : Acc) (op : DirOp) : Prop :=
  InFlight s a ∧ a.kind = .dir op ∧ a.st = .home ∧ dirWaits s a.frag.die op = false ∧ (op.sp? s).all (sameSpace s a.sid) = true ∧ Passes s (fun s => (dirDo s a.frag.die op).1) ∧
    ∀ x ∈ s.accs.takeWhile (fun x => x.id != a.id), x.uid ≠ a.uid ∨ x.thr ≠ a.thr

/-- The record of index `i` of space `sp` is `r`. -/
def HasRec (s : State) (sp i : Nat) (r : KRec) : Prop := ∃ x, Tab.get? s.spaces sp = some x ∧ Tab.get? x.recs i = some r

end Sys2Proof.Machine

/-- O22. Key arithmetic on well-formed keys (R98 to R101): the parent of a child is the key, the child index reads back, a parent precedes its
children and siblings follow in child-index order, and coordinates read back from the key made of them. Neighbours (R101): a step along an axis changes that coordinate by one and no other; across a face it wraps on a periodic axis and gives
the invalid key on any other. -/
def Obligations.KeyArithmetic : Prop :=
  (∀ (x : Space) (k : W64) (i : Nat), (x.dim = 1 ∨ x.dim = 2 ∨ x.dim = 3) → keyOkIn x k = true → keyLv k < maxLev x.dim → i < 2 ^ x.dim →
    keyParent x.dim (keyChild x.dim k i) = k ∧ keyLv (keyChild x.dim k i) = keyLv k + 1 ∧
    keyGroup x.dim (keyChild x.dim k i) (keyLv k + 1) = i ∧ keyOkIn x (keyChild x.dim k i) = true ∧
    k.toNat < (keyChild x.dim k i).toNat ∧ ∀ j < i, (keyChild x.dim k j).toNat < (keyChild x.dim k i).toNat) ∧
  (∀ (x : Space) (k : W64), (x.dim = 1 ∨ x.dim = 2 ∨ x.dim = 3) → keyOkIn x k = true →
    (keyLv k = maxLev x.dim → ∀ i, keyChild x.dim k i = badKey) ∧ (keyLv k = 0 → keyParent x.dim k = badKey)) ∧
  (∀ (d sp lv : Nat) (xs : List Nat), (d = 1 ∨ d = 2 ∨ d = 3) → sp < 16 → lv ≤ maxLev d → xs.length = d → (∀ v ∈ xs, v < 2 ^ lv) →
    keySp (keyMake sp d lv xs) = sp ∧ keyLv (keyMake sp d lv xs) = lv ∧
    ∀ a v, xs[a]? = some v → keyCoord d (keyMake sp d lv xs) a = v) ∧
  (∀ (x : Space) (k : W64) (a : Nat) (up : Bool), (x.dim = 1 ∨ x.dim = 2 ∨ x.dim = 3) → keyOkIn x k = true → a < x.dim →
    let dir := 2 * a + (if up then 1 else 0)
    let at_ := keyCoord x.dim k a
    let edge := if up then at_ = 2 ^ keyLv k - 1 else at_ = 0
    let k' := keyNbr x k dir
    (edge → x.per.getLsbD a = false → k' = badKey) ∧
    (¬ edge ∨ x.per.getLsbD a = true →
      keySp k' = keySp k ∧ keyLv k' = keyLv k ∧
      keyCoord x.dim k' a = (if up then at_ + 1 else at_ + 2 ^ keyLv k - 1) % 2 ^ keyLv k ∧
      ∀ b, b < x.dim → b ≠ a → keyCoord x.dim k' b = keyCoord x.dim k b))

/-- O23. A key-arithmetic word completes: for each acting thread an access returns the result to its destination, or the key-space trap (R101, R317). -/
def Obligations.KeyWords : Prop :=
  ∀ (i : Instr) (s : State) (c : Ctx) (r : KeyRow), keyRowOf i = some r →
    Begins r.h.sw (kRegs (guardOpd r.h :: r.srcs.map (·.o))) s c →
    Clean c r.h r.d.isK ((memThreads c r.h r.d.isK).map thrOf) (r.srcs.map (·.o)) →
    ∃ t, exec i s = .next t ∧ Done t c ∧ t.mem = s.mem ∧ t.spaces = s.spaces ∧
      (∃ new, t.accs = s.accs ++ new ∧ ∀ a ∈ new, a.uid = c.p.uid ∧ a.kind = .value) ∧
      ∀ thr ∈ memThreads c r.h r.d.isK,
        Returns t c thr (dstOf c (thrOf thr) r.d) (r.op s c.f.die (r.srcs.map (opVal s c r.d.isK (thrOf thr))))

/-- O24. A directory word completes: each acting thread's operation is on its way with its destinations, or has the key-space trap where its key is malformed or
not of this die's group; the fragment parks where an operation has to wait (R103, R114 to R116, R318). -/
def Obligations.DirectoryWords : Prop :=
  ∀ (i : Instr) (s : State) (c : Ctx) (r : DirRow), dirRowOf i = some r → r.Starts s c →
    ∃ t, exec i s = .next t ∧ t.mem = s.mem ∧ t.spaces = s.spaces ∧
      (t.frag? c.f).map (fun p => (p.pc, p.seq, p.wait)) = some (c.p.pc + 8, c.p.seq + 1,
        if (memThreads c r.h r.uni).any (fun thr => dirWaits s c.f.die (r.opOf s c thr)) then .dir else .none) ∧
      ∀ thr ∈ memThreads c r.h r.uni,
        ((∀ k, (r.opOf s c thr).key? = some k → (keyHere s c.f.die k).isSome = true) →
          ∃ a ∈ t.accs, a.uid = c.p.uid ∧ a.thr = thr ∧ a.kind = .dir (r.opOf s c thr) ∧ a.st = .home ∧
            a.dst = dstOf c (thrOf thr) r.d ∧ a.dst2 = dstOf c (thrOf thr) r.e ∧ a.acq = r.acq) ∧
        (∀ k, (r.opOf s c thr).key? = some k → keyHere s c.f.die k = none →
          ∃ a ∈ t.accs, a.uid = c.p.uid ∧ a.thr = thr ∧ a.st = .bad 0x11 k)

/-- O25. An operation at its directory agent (R113 to R115): a lookup returns the record's address and the lookup word; `kown` the owner target; a pin counts
on a record with room, and reports no record, a leaving block or a full count otherwise; an unpin counts down. An operation that its space's removal has overtaken traps,
whatever space has the number now (R389). -/
def Obligations.DirectoryOperations : Prop :=
  (∀ (s : State) (a : Acc) (op : DirOp), InFlight s a → a.kind = .dir op → a.st = .home → s.dirW = [] → dirWaits s a.frag.die op = false →
    (∀ x ∈ s.accs.takeWhile (fun x => x.id != a.id), x.uid ≠ a.uid ∨ x.thr ≠ a.thr) → (op.sp? s).all (sameSpace s a.sid) = false →
    ∃ t, exec (.directoryOperation a.id) s = .next t ∧ t.spaces = s.spaces ∧ t.acc? a.id = some { a with st := .bad 0x11 op.operand }) ∧
  (∀ (s : State) (a : Acc) (k : W64) (w : Bool) (x : Space), AtAgent s a (.look k w) → keyHere s a.frag.die k = some x →
    (∀ i r, lookRec x k = some (i, r) → ∃ t, exec (.directoryOperation a.id) s = .next t ∧ t.mem = s.mem ∧ t.spaces = s.spaces ∧
      t.acc? a.id = some { a with val := recAddr x r, val2 := lookWord r k, st := .done }) ∧
    (lookRec x k = none → ∃ t, exec (.directoryOperation a.id) s = .next t ∧ t.acc? a.id = some { a with st := .bad 0x11 k })) ∧
  (∀ (s : State) (a : Acc) (k : W64) (x : Space), AtAgent s a (.own k) → keyHere s a.frag.die k = some x →
    ∃ t, exec (.directoryOperation a.id) s = .next t ∧ t.mem = s.mem ∧ t.spaces = s.spaces ∧
      t.acc? a.id = some { a with val := BitVec.ofNat 64 (ownerTgt x k).toNat, val2 := 0, st := .done }) ∧
  (∀ (s : State) (a : Acc) (k : W64) (wr : Bool) (x : Space), AtAgent s a (.pin k wr) → keyHere s a.frag.die k = some x →
    (recOf x k = none → ∃ t, exec (.directoryOperation a.id) s = .next t ∧ t.spaces = s.spaces ∧
      t.acc? a.id = some { a with val := 0, val2 := 1, st := .done }) ∧
    (∀ i r, recOf x k = some (i, r) →
      (wr = true → r.st = 3 → ∃ t, exec (.directoryOperation a.id) s = .next t ∧ t.spaces = s.spaces ∧
        t.acc? a.id = some { a with val := recAddr x r, val2 := 2, st := .done }) ∧
      ((wr = false ∨ r.st ≠ 3) → 65535 ≤ (if wr then r.wpin else r.rpin) → ∃ t, exec (.directoryOperation a.id) s = .next t ∧
        t.spaces = s.spaces ∧ t.acc? a.id = some { a with val := recAddr x r, val2 := 3, st := .done }) ∧
      ((wr = false ∨ r.st ≠ 3) → (if wr then r.wpin else r.rpin) < 65535 → ∃ t, exec (.directoryOperation a.id) s = .next t ∧
        t.acc? a.id = some { a with val := recAddr x r, val2 := 0, st := .done } ∧
        HasRec t (keySp k) i (if wr then { r with wpin := r.wpin + 1 } else { r with rpin := r.rpin + 1 })))) ∧
  (∀ (s : State) (a : Acc) (va : W64) (wr : Bool), AtAgent s a (.unpin va wr) →
    (recAt s va = none → ∃ t, exec (.directoryOperation a.id) s = .next t ∧ t.acc? a.id = some { a with st := .bad 0x11 va }) ∧
    (∀ sp i r x, recAt s va = some (sp, i, r) → spaceOk s sp a.frag.die = some x → (if wr then r.wpin else r.rpin) ≠ 0 → r.st ≠ 0 →
      ∃ t, exec (.directoryOperation a.id) s = .next t ∧ t.acc? a.id = some { a with val := 0, val2 := 0, st := .done } ∧
        HasRec t sp i (if wr then { r with wpin := r.wpin - 1 } else { r with rpin := r.rpin - 1 })))

/-- O26. Structural commands at their agent (R104, R117 to R120), whose writes can be made: the first condition that fails ends the command with its status and changes no space; a `refine` that
passes makes the leaf interior with cost 0, a `coarsen` makes the block a leaf whose cost is the sum of its children's, which are gone; one that its space's removal has
overtaken ends with 0x0030 (R389). -/
def Obligations.StructuralCommands : Prop :=
  ∀ (s : State) (x : Cmd) (k : W64), s.acc? x.id = none → s.cmd? x.id = some x → x.st = .waiting → skeyHeld s x k = false →
    (∀ y, Tab.get? s.spaces (keySp k) = some y → deckleStall y x.die = false) → Passes s (fun s => structDo s x k) →
    (sameSpace s x.sid (keySp k) = false → (x.kind = .coarsen k ∨ ∃ fmt, x.kind = .refine k fmt) →
      ∃ t, exec (.directoryOperation x.id) s = .next t ∧ t.spaces = s.spaces ∧ t.cmd? x.id = some { x with st := .done 0x30 }) ∧
    (sameSpace s x.sid (keySp k) = true →
    (∀ fmt code, x.kind = .refine k fmt → refineFail s x.die k fmt = some code →
      ∃ t, exec (.directoryOperation x.id) s = .next t ∧ t.spaces = s.spaces ∧ t.mem = s.mem ∧
        t.cmd? x.id = some { x with st := .done (BitVec.ofNat 64 code) }) ∧
    (∀ code, x.kind = .coarsen k → coarsenFail s x.die k = some code →
      ∃ t, exec (.directoryOperation x.id) s = .next t ∧ t.spaces = s.spaces ∧ t.mem = s.mem ∧
        t.cmd? x.id = some { x with st := .done (BitVec.ofNat 64 code) }) ∧
    (∀ fmt y i r, x.kind = .refine k fmt → refineFail s x.die k fmt = none → keySpace s k = some y → recOf y k = some (i, r) →
      ∃ t, exec (.directoryOperation x.id) s = .next t ∧ t.cmd? x.id = some { x with st := .done 0 } ∧
        HasRec t (keySp k) i { r with st := 2, cost := 0 }) ∧
    (∀ y i r, x.kind = .coarsen k → coarsenFail s x.die k = none → keySpace s k = some y → recOf y k = some (i, r) →
      ∃ t y', exec (.directoryOperation x.id) s = .next t ∧ t.cmd? x.id = some { x with st := .done 0 } ∧
        Tab.get? t.spaces (keySp k) = some y' ∧
        Tab.get? y'.recs i = some { r with st := 1, cost := BitVec.ofNat 32 (min 0xFFFFFFFF
          (sumN ((y.recs.filter (fun e => (childKeys y k).contains e.2.key && e.2.st == 1)).map (fun e => e.2.cost.toNat)))) } ∧
        ∀ e ∈ y'.recs, (childKeys y k).contains e.2.key = true → e.2.st ≠ 1))

/-- O27. The steps of a rebalance (R112, R122 to R128) and a cost count (R121); a step that writes records takes place once its writes can be made (R104). A `rebal` is accepted where none is in progress, else ends with 0x36; agents are notified
one by one; when all are, cuts are planned and the records that change part leave; the wait ends with the patience or with the last write pin; a failed copy ends
the rebalance with its status; the home sends the invalidations on its space's multicast group, the copies of the deckle are invalidated as they arrive, the new
cuts are in force at the home, are sent out, and are installed at each die, the last of which gives the command status 0; the rebalance is in progress until the handle
resolves (R458). That the patience does not run out while the home die is halted is the model's choice (log entry 99). -/
def Obligations.RebalanceSteps : Prop :=
  (∀ (s : State) (x : Cmd) (y : Space) (sp desc : Nat), s.cmd? x.id = some x → x.kind = .rebal sp desc → x.st = .waiting →
    Tab.get? s.spaces sp = some y → rebalHeld s x sp = false → deckleStall y x.die = false → sameSpace s x.sid sp = true →
    (y.rebal.isSome = true → ∃ t, exec (.rebalanceNotify x.id) s = .next t ∧ t.cmd? x.id = some { x with st := .done 0x36 } ∧ t.spaces = s.spaces) ∧
    (y.rebal = none → ∃ t y' r, exec (.rebalanceNotify x.id) s = .next t ∧ t.cmd? x.id = some { x with st := .running } ∧
      Tab.get? t.spaces sp = some y' ∧ y'.rebal = some r ∧ r.cmd = x.id ∧ r.stage = 0 ∧ r.noted = [] ∧ y'.cuts = y.cuts ∧ y'.recs = y.recs)) ∧
  (∀ (s : State) (x : Cmd) (y : Space) (r : Rebal) (sp desc : Nat), s.cmd? x.id = some x → x.kind = .rebal sp desc → x.st = .running →
    Tab.get? s.spaces sp = some y → y.rebal = some r → r.ended = false → r.cmd = x.id → r.stage = 0 →
    (∃ j, j < y.parts.length ∧ r.noted.contains j = false) →
    ∃ t y' j, exec (.rebalanceNotify x.id) s = .next t ∧ Tab.get? t.spaces sp = some y' ∧ j < y.parts.length ∧
      r.noted.contains j = false ∧ y'.rebal = some { r with noted := j :: r.noted } ∧ y'.recs = y.recs) ∧
  (∀ (s : State) (y : Space) (r : Rebal) (sp : Nat), Tab.get? s.spaces sp = some y → y.rebal = some r → r.ended = false → r.stage = 0 →
    y.parts.length ≤ r.noted.length → Passes s (planStep sp) →
    ∃ t y', exec (.rebalancePlan sp) s = .next t ∧ Tab.get? t.spaces sp = some y' ∧ y'.cuts = y.cuts ∧
      y'.rebal = some { r with stage := 2, newCuts := planCuts y r, markAt := s.clock } ∧
      ∀ i k, Tab.get? y.recs i = some k → ∃ k', Tab.get? y'.recs i = some k' ∧ k'.key = k.key ∧ k'.slot = k.slot ∧
        ((k.st = 1 ∨ k.st = 2) → partOf y.cuts k.key ≠ partOf (planCuts y r) k.key →
          k'.st = 3 ∧ k'.ivm = (k.st == 2) ∧ k'.ftgt = partTgt y (partOf (planCuts y r) k.key)) ∧
        (partOf y.cuts k.key = partOf (planCuts y r) k.key → k' = k)) ∧
  (∀ (s : State) (y : Space) (r : Rebal) (sp : Nat), Tab.get? s.spaces sp = some y → y.rebal = some r → r.ended = false → r.stage = 2 →
    (s.die y.home).halt = false → r.markAt + r.pat ≤ s.clock →
    ∃ t y', exec (.patienceExpiry sp) s = .next t ∧ Tab.get? t.spaces sp = some y' ∧ y'.rebal = some { r with late := true }) ∧
  (∀ (s : State) (y : Space) (sp : Nat), Tab.get? s.spaces sp = some y → (s.die y.home).halt = true → exec (.patienceExpiry sp) s = .next s) ∧
  (∀ (s : State) (y : Space) (r : Rebal) (sp : Nat), Tab.get? s.spaces sp = some y → y.rebal = some r → r.ended = false → r.stage = 2 →
    (r.late = true ∨ ∀ e ∈ y.recs, e.2.st = 3 → e.2.wpin = 0) → Passes s (stopsStep sp) →
    ∃ t y' r', exec (.rebalanceStops sp) s = .next t ∧ Tab.get? t.spaces sp = some y' ∧ y'.cuts = y.cuts ∧ y'.rebal = some r' ∧ r'.stage = 3 ∧
      r'.cmd = r.cmd ∧ r'.newCuts = (y.cuts.zip r.newCuts).map (fun p => stopCut y p.1 p.2)) ∧
  (∀ (s : State) (x : Cmd) (y : Space) (r : Rebal) (sp : Nat) (st : W64), Tab.get? s.spaces sp = some y → y.rebal = some r → r.ended = false → r.stage = 3 →
    r.failed = some st → r.hovs = [] → s.cmd? r.cmd = some x → r.copies.all (fun e => e.1 != r.cmd) = true → Passes s (abortStep sp) →
    ∃ t y', exec (.rebalanceAbort sp) s = .next t ∧ Tab.get? t.spaces sp = some y' ∧ y'.cuts = y.cuts ∧
      y'.rebal = some { r with ended := true } ∧ t.cmd? r.cmd = some { x with st := .done st }) ∧
  (∀ (s : State) (y : Space) (r : Rebal) (sp : Nat), Tab.get? s.spaces sp = some y → y.rebal = some r → r.ended = false → r.stage = 3 →
    r.copies = [] → r.failed = none → r.hovs = [] → r.moving = [] → otherDies y ≠ [] → y.home < s.dies.length → Passes s (commitStep sp) →
    ∃ t y', exec (.rebalanceCommit sp) s = .next t ∧ Tab.get? t.spaces sp = some y' ∧ y'.cuts = y.cuts ∧ y'.inval = [y.home] ∧
      y'.rebal = some { r with stage := 4 } ∧
      (Tab.getD (s.die y.home).xbar (16 + sp) 0 ≠ 0 → (t.die y.home).mcast = (s.die y.home).mcast ++
        [⟨dirPort y.home, 16 + sp, Tab.getD (s.die y.home).xbar (16 + sp) 0, sp, false⟩])) ∧
  (∀ (s : State) (y : Space) (r : Rebal) (sp d : Nat), Tab.get? s.spaces sp = some y → y.rebal = some r → r.ended = false → r.stage = 4 →
    d ∈ otherDies y → d ∉ r.inv → hasMsg s d sp false = true →
    ∃ t y', exec (.deckleInvalidate sp d) s = .next t ∧ Tab.get? t.spaces sp = some y' ∧ deckleStall y' d = true ∧
      (∀ e, deckleStall y e = true → deckleStall y' e = true) ∧ y'.cuts = y.cuts ∧ y'.rebal = some { r with inv := d :: r.inv }) ∧
  (∀ (s : State) (y : Space) (r : Rebal) (sp : Nat), Tab.get? s.spaces sp = some y → y.rebal = some r → r.ended = false → r.stage = 4 → r.copies = [] →
    r.failed = none → r.hovs = [] → r.moving = [] → otherDies y ≠ [] → (∀ d ∈ otherDies y, d ∈ r.inv) → Passes s (commitStep sp) →
    ∃ t y', exec (.rebalanceCommit sp) s = .next t ∧ Tab.get? t.spaces sp = some y' ∧ y'.cuts = r.newCuts ∧
      y'.rebal = some { r with stage := 5 }) ∧
  (∀ (s : State) (x : Cmd) (y : Space) (r : Rebal) (sp d : Nat), Tab.get? s.spaces sp = some y → y.rebal = some r → r.ended = false → r.stage = 5 →
    d ∈ otherDies y → d ∉ r.inst → hasMsg s d sp true = true → s.cmd? r.cmd = some x → Passes s (installStep sp d) →
    ((∃ e ∈ otherDies y, e ≠ d ∧ e ∉ r.inst) → ∃ t y', exec (.deckleInstall sp d) s = .next t ∧ Tab.get? t.spaces sp = some y' ∧
      deckleStall y' d = false ∧ y'.rebal = some { r with inst := d :: r.inst }) ∧
    ((∀ e ∈ otherDies y, e = d ∨ e ∈ r.inst) → ∃ t y', exec (.deckleInstall sp d) s = .next t ∧ Tab.get? t.spaces sp = some y' ∧
      y'.rebal = some { r with inst := d :: r.inst, ended := true } ∧ y'.inval = [] ∧ y'.cuts = y.cuts ∧ t.cmd? r.cmd = some { x with st := .done 0 })) ∧
  (∀ (s : State) (x : Cmd) (y : Space) (r : Rebal) (sp desc : Nat) (st : W64), s.cmd? x.id = some x → x.kind = .rebal sp desc → x.st = .done st →
    x.gcw = none → x.queue = 64 → x.mustWait s st = false → Tab.get? s.spaces sp = some y → y.rebal = some r → r.cmd = x.id →
    ∃ t y', exec (.commandComplete x.id) s = .next t ∧ t.cmd? x.id = none ∧ Tab.get? t.spaces sp = some y' ∧ y'.rebal = none ∧ y'.cuts = y.cuts) ∧
  (∀ (s : State) (f : FragRef) (w : Warp) (k : W64) (y : Space) (i : Nat) (r : KRec), s.warp? f = some w → w.bound = some k → w.costDue ≠ 0 →
    keySpace s k = some y → deckleStall y f.die = false → lookRec y k = some (i, r) →
    ∃ t w', exec (.costAdd f) s = .next t ∧ t.warp? f = some w' ∧ w'.costDue = w.costDue - 1 ∧
      HasRec t (keySp k) i { r with cost := if r.cost = 0xFFFFFFFF then r.cost else r.cost + 1 })

namespace Sys2Proof.Machine

/-! ### Matrix words (R321 to R344) -/

/-- A matrix word runs: it begins, its warp passes the collective test, its guard holds, its operands carry no poison (R321). -/
def MxRuns (h : Hdr) (os : List Opd) (s : State) (c : Ctx) : Prop :=
  Begins h.sw (kRegs (guardOpd h :: os)) s c ∧ c.p.am ≠ 0 ∧ collective c = true ∧ uniHolds c h = true ∧ Clean c h true [0] os

/-- The guard and operands of a matrix word. -/
def mxForm : Instr → Option (Hdr × List Opd)
  | .mma h _ _ _ _ _ d a b => some (h, [d, a, b])
  | .mzero h _ _ _ _ _ => some (h, [])
  | .mdrn h _ cw d a => some (h, if cw.cw then [d, a] else [a])
  | .acpTs h _ a nb => some (h, [a, nb])
  | .acpFs h _ a nb => some (h, [a, nb])
  | .acpCkTs h _ a nb => some (h, [a, nb])
  | .acpCkFs h _ a nb => some (h, [a, nb])
  | .mmv h cw d a => some (h, if cw.cw then [d, a] else [a])
  | _ => none

/-- The window and the engine entry of an `mma` or `mzero`, with what its checks ask of the operands (R327, R328, R334). -/
structure MxRow where
  h : Hdr
  os : List Opd
  row : Nat
  col : Nat
  m : Nat
  n : Nat
  op : MxOp
  reads : List (Nat × Nat) := []
  ok : Prop

/-- `mma` and `mzero`. -/
def mxRowOf (s : State) (c : Ctx) : Instr → Option MxRow
  | .mma h mc nc kind row col d a b =>
    let w : W64 := BitVec.ofNat 64 (kNat s c d)
    let reads := mmaReads (fmtBlock w) (sizeOf2 mc) (sizeOf2 nc) (kNat s c a) (kNat s c b)
    some { h := h, os := [d, a, b], row := 16 * row.toNat, col := 16 * col.toNat, m := sizeOf2 mc, n := sizeOf2 nc
           op := .mma (16 * row.toNat) (16 * col.toNat) (sizeOf2 mc) (sizeOf2 nc) kind.toNat w (kNat s c a) (kNat s c b), reads := reads
           ok := mmaLegal (fmtBlock w) kind.toNat = true ∧ kNat s c a % 32 = 0 ∧ kNat s c b % 32 = 0 ∧
             operandTrap s c (reads.map (fun x => (x.1, x.2, false))) = none ∧
             typesAre (c.core s) (tilesOf (16 * row.toNat) (16 * col.toNat) (sizeOf2 mc) (sizeOf2 nc)) (kind != 0) = some true ∧
             acqOut s c.p.uid = false ∧ opsHeld s c reads [] = false }
  | .mzero h mc nc i32 row col =>
    some { h := h, os := [], row := 16 * row.toNat, col := 16 * col.toNat, m := sizeOf2 mc, n := sizeOf2 nc
           op := .mzero (16 * row.toNat) (16 * col.toNat) (sizeOf2 mc) (sizeOf2 nc) i32, ok := True }
  | _ => none

/-- The engine of the core has one more entry in `t`, the last, counted against the lease or not, with its operands as the warp finds them: the scratchpad's bytes, where no command
has put payload there that the warp may not see (R86, R322, R324); the accumulator store, the scratchpad and memory are as before. -/
def Entered (s t : State) (c : Ctx) (op : MxOp) (reads writes : List (Nat × Nat)) (leased : Bool) : Prop :=
  ∃ e, (t.core c.f.die c.f.core).mxq = (c.core s).mxq ++ [e] ∧ e.op = op ∧ e.reads = reads ∧ e.writes = writes ∧ e.frag = c.f ∧
    e.uid = c.p.uid ∧ e.word = c.p.pc ∧ e.leased = leased ∧ ((c.core s).lag = [] → e.snap = reads.flatMap (fun r => scrRead (c.core s) r.1 r.2)) ∧
    (t.core c.f.die c.f.core).acc = (c.core s).acc ∧ (t.core c.f.die c.f.core).scr = (c.core s).scr ∧ t.mem = s.mem

/-- The four band copies of the accumulator store: whether it loads the store, and whether it moves checksums (R340). -/
def acpOf : Instr → Option (Hdr × Bool × Bool × BitVec 4 × Opd × Opd)
  | .acpTs h row a nb => some (h, false, false, row, a, nb)
  | .acpFs h row a nb => some (h, true, false, row, a, nb)
  | .acpCkTs h row a nb => some (h, false, true, row, a, nb)
  | .acpCkFs h row a nb => some (h, true, true, row, a, nb)
  | _ => none

end Sys2Proof.Machine

/-- O28. The collective test of a matrix word comes before its guard: no active thread is reason 2, fewer than 32 active and live threads or
an occupied sibling slot reason 1 (R321, R415). That a warp without an active thread has reason 2 is the model's choice (log entry 47): R321 and R415 read either way. -/
def Obligations.MatrixConvergence : Prop :=
  ∀ (i : Instr) (s : State) (c : Ctx) (h : Hdr) (os : List Opd), mxForm i = some (h, os) → Begins h.sw (kRegs (guardOpd h :: os)) s c →
    c.p.masked = false →
    (c.p.am = 0 → ∃ t, exec i s = .next t ∧ Trapped t c 8 2 c.p.pc false true) ∧
    (c.p.am ≠ 0 → collective c = false → ∃ t, exec i s = .next t ∧ Trapped t c 8 1 c.p.pc false true) ∧
    (c.p.am ≠ 0 → collective c = true → uniHolds c h = false → Clean c h true [] [] → exec i s = .next (finish s c.f 1))

/-- O29. Matrix words at issue (R322, R323, R327, R328, R334, R340, R401): with the lease, whose bound is not used up while another workgroup waits, a legal window and
legal operands, the engine accepts an `mma` or `mzero` and counts it; without it the fragment parks and the workgroup joins the waiters; a band copy needs no lease. -/
def Obligations.MatrixWords : Prop :=
  (∀ (i : Instr) (s : State) (c : Ctx) (r : MxRow), mxRowOf s c i = some r → MxRuns r.h r.os s c →
    ((c.core s).mxLease.serves c.f.wg c.g.mlease = true → windowOk c.g r.row r.col r.m r.n = true → r.ok →
      reserved s c.f.die c.f.core r.row r.col r.m r.n = false → mxFull s c = false →
      ∃ t, exec i s = .next t ∧ t.frag? c.f = some (c.p.goesOn (c.p.pc + 8)) ∧ Entered s t c r.op r.reads [] true ∧
        (t.core c.f.die c.f.core).mxLease = { (c.core s).mxLease with count := (c.core s).mxLease.count + 1 }) ∧
    ((c.core s).mxLease.serves c.f.wg c.g.mlease = false → (c.core s).mxLease.waiters.contains c.f.wg = false →
      ∃ t, exec i s = .next t ∧ t.frag? c.f = some (c.p.stays .mxLease) ∧ t.mem = s.mem ∧
        (t.core c.f.die c.f.core).mxLease = { (c.core s).mxLease with waiters := (c.core s).mxLease.waiters ++ [c.f.wg] } ∧
        (t.die c.f.die).leaveQ = (s.die c.f.die).leaveQ ++ [(.matrix c.f.core c.f.wg, 0)])) ∧
  (∀ (i : Instr) (s : State) (c : Ctx) (h : Hdr) (fs ck : Bool) (row : BitVec 4) (a nb : Opd) (off n len : Nat),
    acpOf i = some (h, fs, ck, row, a, nb) → MxRuns h [a, nb] s c → off = kNat s c a → n = kNat s c nb → len = n * bandLen ck →
    (n = 0 ∨ 16 < n → c.p.masked = false → ∃ t, exec i s = .next t ∧ Trapped t c 5 s.word c.p.pc false true) ∧
    (0 < n → n ≤ 16 → windowOk c.g (16 * row.toNat) 0 (16 * n) 256 = true → off % 64 ≠ 0 → c.p.masked = false →
      ∃ t, exec i s = .next t ∧ Trapped t c 4 (BitVec.ofNat 64 off) c.p.pc false true) ∧
    (0 < n → n ≤ 16 → windowOk c.g (16 * row.toNat) 0 (16 * n) 256 = true → off % 64 = 0 → operandTrap s c [(off, len, !fs)] = none →
      reserved s c.f.die c.f.core (16 * row.toNat) 0 (16 * n) 256 = false → mxFull s c = false → acqOut s c.p.uid = false →
      opsHeld s c (if fs then [(off, len)] else []) (if fs then [] else [(off, len)]) = false →
      ∃ t, exec i s = .next t ∧ t.frag? c.f = some (c.p.goesOn (c.p.pc + 8)) ∧
        Entered s t c (.acp fs ck (16 * row.toNat) n off) (if fs then [(off, len)] else []) (if fs then [] else [(off, len)]) false))

/-- O30. The two commands of the matrix engine (R335 to R337, R342): a drain or a near-memory product that passes its checks is accepted as a command, a drain as
an engine entry too, with the stochastic index advanced by what it draws; a failing check gives an immediate handle. Both read their descriptor once the agent's
earlier accesses are complete. That the handle names the lowest free entry is the model's choice (log entry 86). -/
def Obligations.MatrixCommands : Prop :=
  (∀ (h : Hdr) (tq : Bool) (cw : CwMod) (d a : Opd) (s : State) (c : Ctx) (off : Nat) (ty : Bool) (dr : Drain) (r : CmdReq),
    MxRuns h (if cw.cw then [d, a] else [a]) s c → (c.core s).mxLease.serves c.f.wg c.g.mlease = true → off = kNat s c a →
    acqOut s c.p.uid = false → settledAll s c.f c.p.uid = true → dr = drainOf (scrRead (c.core s) off 64) → lockHit (c.core s) false off 64 false = none → drainTypes (c.core s) dr tq = some ty →
    r = mdrnReq s c tq cw (cwVal cw d s c) off ty →
    (r.fail = none → reserved s c.f.die c.f.core dr.row dr.col dr.m dr.n = false → mxFull s c = false → (∃ e, freeEnt (c.core s) = some e) →
      (c.core s).locks.length + r.locks.length ≤ 64 →
      ∃ t w, exec (.mdrn h tq cw d a) s = .next t ∧ Done t c ∧ Accepted s t c d r ∧
        Entered s t c (.mdrn s.nextId dr.row dr.col dr.m dr.n) [] [] true ∧ t.warp? c.f = some w ∧
        w.srix = c.w.srix + BitVec.ofNat 32 (drainDraws dr tq)) ∧
    (∀ code, r.fail = some code → freeEnt (c.core s) ≠ none →
      ∃ t, exec (.mdrn h tq cw d a) s = .next t ∧ Done t c ∧ t.cmds = s.cmds ∧
        ∀ i : BitVec 5, d = .k i → i ≠ 0 → kVal t c.f i.toNat = immHandle code)) ∧
  (∀ (h : Hdr) (cw : CwMod) (d a : Opd) (s : State) (c : Ctx) (off : Nat) (ty : Bool) (nm : NearMem) (r : CmdReq),
    MxRuns h (if cw.cw then [d, a] else [a]) s c → off = kNat s c a → acqOut s c.p.uid = false → settledAll s c.f c.p.uid = true →
    nm = nearMemOf (scrRead (c.core s) off 64) →
    lockHit (c.core s) false off 64 false = none → typesAre (c.core s) nm.tiles (nm.bfmt == 4) = some ty →
    r = mmvReq s c cw (cwVal cw d s c) off ty →
    (r.fail = none → reserved s c.f.die c.f.core nm.row nm.col nm.v nm.nrow = false → (∃ e, freeEnt (c.core s) = some e) →
      (c.core s).locks.length + r.locks.length ≤ 64 →
      ∃ t, exec (.mmv h cw d a) s = .next t ∧ Done t c ∧ Accepted s t c d r) ∧
    (∀ code, r.fail = some code → freeEnt (c.core s) ≠ none →
      ∃ t, exec (.mmv h cw d a) s = .next t ∧ Done t c ∧ t.cmds = s.cmds ∧
        ∀ i : BitVec 5, d = .k i → i ≠ 0 → kVal t c.f i.toNat = immHandle code))

/-- O31. The engine finishes the instruction that it accepted first (R323, R324, R330 to R334, R337, R341): a window is cleared; a product of operands that have not
changed since issue is accumulated with its checksums; a drain verifies its sub-tiles and takes its payload, or ends with the code of the failure; a
band is copied to the scratchpad, or loaded from it. -/
def Obligations.MatrixFinishes : Prop :=
  ∀ (s : State) (d k : Nat) (e : EngOp) (rest : List EngOp) (x : Core), d < s.dies.length → x = s.core d k → x.mxq = e :: rest →
    (∀ row col m n int, e.op = .mzero row col m n int → col + n ≤ 256 →
      ∃ t, exec (.matrixInstructionFinish d k) s = .next t ∧ (t.core d k).mxq = rest ∧ t.mem = s.mem ∧
        (∀ i j, j < 256 → (t.core d k).elem i j =
          if row ≤ i ∧ i < row + m ∧ col ≤ j ∧ j < col + n then 0 else x.elem i j) ∧
        ∀ b ∈ tilesOf row col m n, (t.core d k).tile b = ⟨int, false, true⟩) ∧
    (∀ row col m n kind w a b, e.op = .mma row col m n kind w a b → x.spois = [] →
      e.snap = e.reads.flatMap (fun r => scrRead x r.1 r.2) →
      ∃ t, exec (.matrixInstructionFinish d k) s = .next t ∧ t.mem = s.mem ∧
        t.core d k = (mmaDo { x with mxq := rest } row col m n kind (fmtBlock w) (cutReads e.reads e.snap)).1) ∧
    (∀ id row col m n cmd b tq srix core n' f, e.op = .mdrn id row col m n → s.cmd? id = some cmd → cmd.kind = .mdrn b tq srix →
      verifyTiles (tilesOf (drainOf b).row (drainOf b).col (drainOf b).m (drainOf b).n) ({ x with mxq := rest }, 0, none) = (core, n', f) →
      ∃ t, exec (.matrixInstructionFinish d k) s = .next t ∧ t.mem = s.mem ∧ t.core d k = core ∧
        (t.die d).ckcorr = satAdd (s.die d).ckcorr n' ∧
        (f = none → t.cmd? id = some { cmd with out := (drainOut core (drainOf b) tq srix).1 }) ∧
        (∀ code, f = some code → t.cmd? id = some { cmd with st := .done (BitVec.ofNat 64 code) } ∧
          (t.die d).ckfail = if code = 0x40 then satAdd (s.die d).ckfail 1 else (s.die d).ckfail)) ∧
    (∀ ck row off, e.op = .acp false ck row 1 off → x.accPois = [] →
      ∃ t, exec (.matrixInstructionFinish d k) s = .next t ∧ t.mem = s.mem ∧ (t.core d k).acc = x.acc ∧
        scrRead (t.core d k) off (bandLen ck) = bandBytes x ck (row / 16)) ∧
    (∀ ck row off, e.op = .acp true ck row 1 off → x.spois = [] → e.snap = scrRead x off (bandLen ck) →
      ∃ t, exec (.matrixInstructionFinish d k) s = .next t ∧ t.mem = s.mem ∧
        t.core d k = loadBand { x with mxq := rest } ck (row / 16) e.snap)

/-- O32. The arbiters of the two leases, and the start of a near-memory product (R322, R342, R345, R352, R401, R402): a free lease goes to the first waiter
once its leave is granted, with a stream set for the pulp unit, and once the counted instructions of the last holder, which may have exited, have finished; a holder that has
used its bound while another waits loses it, once its counted instructions have finished. -/
def Obligations.LeaseEvents : Prop :=
  (∀ (s : State) (d k w : Nat) (rest : List Nat), d < s.dies.length → (s.core d k).mxLease.holder = none →
    (s.core d k).mxLease.waiters = w :: rest → (s.die d).leaveQ.all (fun r => r.1 != .matrix k w) = true →
    ((∃ e ∈ (s.core d k).mxq, e.leased = true) → exec (.matrixLeaseGrant d k) s = .next s) ∧
    ((∀ e ∈ (s.core d k).mxq, e.leased = false) → ∃ t, exec (.matrixLeaseGrant d k) s = .next t ∧ (t.core d k).mxLease = { holder := some w, count := 0, waiters := rest } ∧
      ∀ f p, f.die = d → f.wg = w → t.frag? f = some p → p.wait ≠ .mxLease)) ∧
  (∀ (s : State) (d k w : Nat) (rest : List Nat) (y : Core), d < s.dies.length → (s.core d k).puLease.holder = none →
    (s.core d k).puLease.waiters = w :: rest → (s.die d).leaveQ.all (fun r => r.1 != .pulp k w) = true →
    takeSet (s.core d k) w = some y →
    ((∃ e ∈ (s.core d k).pq, e.leased = true) → exec (.pulpLeaseGrant d k) s = .next s) ∧
    ((∀ e ∈ (s.core d k).pq, e.leased = false) → ∃ t, exec (.pulpLeaseGrant d k) s = .next t ∧ (t.core d k).puLease = { holder := some w, count := 0, waiters := rest } ∧
      (t.core d k).sets = y.sets ∧ (setIx (t.core d k) w).isSome = true ∧
      ∀ f p, f.die = d → f.wg = w → t.frag? f = some p → p.wait ≠ .puLease)) ∧
  (∀ (s : State) (d k w : Nat) (g : Wg), d < s.dies.length → s.wg? d w = some g →
    ((s.core d k).mxLease.holder = some w → (∀ e ∈ (s.core d k).mxq, e.wg = w → e.leased = false) →
      (g.preReq = true ∨ (s.core d k).mxLease.waiters ≠ [] ∧ g.mlease ≤ (s.core d k).mxLease.count) →
      ∃ t, exec (.leasePass d k false) s = .next t ∧ (t.core d k).mxLease = { (s.core d k).mxLease with holder := none, count := 0 }) ∧
    ((s.core d k).puLease.holder = some w → (∀ e ∈ (s.core d k).pq, e.wg = w → e.leased = false) →
      (g.preReq = true ∨ (s.core d k).puLease.waiters ≠ [] ∧ g.please ≤ (s.core d k).puLease.count) →
      ∃ t, exec (.leasePass d k true) s = .next t ∧ (t.core d k).puLease = { (s.core d k).puLease with holder := none, count := 0 })) ∧
  (∀ (s : State) (x : Cmd) (b : List Byte), s.cmd? x.id = some x → x.kind = .mmv b → x.st = .leave →
    (s.die x.die).leaveQ.all (fun r => r.1 != .mmv x.id) = true →
    ∃ t, exec (.mmvStart x.id) s = .next t ∧ t.cmd? x.id = some { x with st := .running } ∧ t.mem = s.mem)

namespace Sys2Proof.Machine

/-! ### Pulp words (R345 to R363) -/

/-- A pulp word runs: it begins, its guard holds, a thread is active, its operands carry no poison (R351). -/
def PuRuns (h : Hdr) (os : List Opd) (s : State) (c : Ctx) : Prop := UniRuns h os s c ∧ c.p.am ≠ 0

/-- A word on runs of stream registers: the first failure of register `r` of the run, and the stream and state word it writes (R349, R350, R355 to R361). -/
structure ZRow where
  h : Hdr
  run : BitVec 2
  d : Opd
  srcs : List Opd
  chk : (Nat → W32) → Nat → Option W64 := fun _ _ => none
  op : (Nat → Stream) → (Nat → W32) → Nat → Stream × W32

/-- The failures of a two-operand word: unequal lengths; then correlated operands, or for a `.c` form operands not of one class (R350). -/
def logicChk (a b : Nat) (corr : Bool) (w : Nat → W32) (r : Nat) : Option W64 :=
  if wLen (w (a + r)) ≠ wLen (w (b + r)) then some (corrInfo 3 (b + r))
  else if corr then
    (if oneClass (wSet (w (a + r))) = false then some (corrInfo 2 (a + r))
     else if wSet (w (b + r)) ≠ wSet (w (a + r)) then some (corrInfo 2 (b + r)) else none)
  else if wSet (w (a + r)) &&& wSet (w (b + r)) ≠ 0 then some (corrInfo 1 (a + r)) else none

/-- A two-operand word. -/
def logicRow (h : Hdr) (run : BitVec 2) (d a b : Opd) (corr : Bool) (op : Stream → Stream → Stream) : ZRow :=
  { h := h, run := run, d := d, srcs := [a, b], chk := logicChk (zIdx a) (zIdx b) corr
    op := fun z w r => (op (z (zIdx a + r)) (z (zIdx b + r)),
      mkWord (wLen (w (zIdx a + r))) (wSet (w (zIdx a + r)) ||| wSet (w (zIdx b + r)))) }

/-- The failures of `smux` (R350). -/
def muxChk (a b e : Nat) (w : Nat → W32) (r : Nat) : Option W64 :=
  if wLen (w (a + r)) ≠ wLen (w (b + r)) then some (corrInfo 3 (b + r))
  else if wLen (w (a + r)) ≠ wLen (w (e + r)) then some (corrInfo 3 (e + r))
  else if wSet (w (e + r)) &&& (wSet (w (a + r)) ||| wSet (w (b + r))) ≠ 0 then some (corrInfo 4 (e + r)) else none

/-- A regenerated stream: the ones of each stream at the positions of the class's smallest values (R358). -/
def regenerated (cls k : Nat) (x : Stream) : Stream :=
  streamOf (fun i => (((ranks cls (codeLen k))[i % codeLen k]?).getD 0) <
    ((((List.range (4096 / codeLen k)).map (onesOf x (codeLen k)))[i / codeLen k]?).getD 0))

/-- The words on runs of stream registers. -/
def zRowOf : Instr → Option ZRow
  | .sand h run d a b => some (logicRow h run d a b false (fun x y => x &&& y))
  | .sandC h run d a b => some (logicRow h run d a b true (fun x y => x &&& y))
  | .sor h run d a b => some (logicRow h run d a b false (fun x y => x ||| y))
  | .sorC h run d a b => some (logicRow h run d a b true (fun x y => x ||| y))
  | .sxor h run d a b => some (logicRow h run d a b false (fun x y => x ^^^ y))
  | .sxorC h run d a b => some (logicRow h run d a b true (fun x y => x ^^^ y))
  | .sxnor h run d a b => some (logicRow h run d a b false (fun x y => ~~~(x ^^^ y)))
  | .smux h run d a b e => some
      { h := h, run := run, d := d, srcs := [a, b, e], chk := muxChk (zIdx a) (zIdx b) (zIdx e)
        op := fun z w r => ((z (zIdx b + r) &&& z (zIdx e + r)) ||| (z (zIdx a + r) &&& ~~~(z (zIdx e + r))),
          mkWord (wLen (w (zIdx a + r))) (wSet (w (zIdx a + r)) ||| wSet (w (zIdx b + r)) ||| wSet (w (zIdx e + r)))) }
  | .sinv h run d a => some { h := h, run := run, d := d, srcs := [a], op := fun z w r => (~~~(z (zIdx a + r)), w (zIdx a + r)) }
  | .smovZ h run d a => some { h := h, run := run, d := d, srcs := [a], op := fun z w r => (z (zIdx a + r), w (zIdx a + r)) }
  | .sregen h run cls d a => some
      { h := h, run := run, d := d, srcs := [a]
        op := fun z w r => (regenerated cls.toNat (wLen (w (zIdx a + r))) (z (zIdx a + r)), mkWord (wLen (w (zIdx a + r))) (2 ^ cls.toNat)) }
  | _ => none

/-- The unit has accepted the word of `c` in `t`: one more entry, one more counted instruction, and the fragment goes on. -/
def PuAccepted (s t : State) (c : Ctx) : Prop :=
  t.frag? c.f = some (c.p.goesOn (c.p.pc + 8)) ∧ (t.core c.f.die c.f.core).pq.length = (c.core s).pq.length + 1 ∧
    (t.core c.f.die c.f.core).puLease = { (c.core s).puLease with count := (c.core s).puLease.count + 1 } ∧ t.mem = s.mem

/-- Register `z` of the workgroup of `c` holds the stream `v` and the state word `w`. -/
def ZHolds (t : State) (c : Ctx) (z : Nat) (v : Stream) (w : W32) : Prop :=
  zBits (t.core c.f.die c.f.core) c.f.wg z = v ∧ zWord (t.core c.f.die c.f.core) c.f.wg z = w

end Sys2Proof.Machine

/-- O33. Words on runs of stream registers (R345, R349 to R353, R355 to R358, R361): every destination register of the run receives the result of the old
sources, and no other register changes; the first failing register traps with its reason; a run past z31 is illegal; without the lease
the fragment parks. -/
def Obligations.StreamWords : Prop :=
  ∀ (i : Instr) (s : State) (c : Ctx) (r : ZRow), zRowOf i = some r → PuRuns r.h [] s c →
    ((c.core s).puLease.serves c.f.wg c.g.please = false → ∃ t, exec i s = .next t ∧ t.frag? c.f = some (c.p.stays .puLease)) ∧
    ((c.core s).puLease.serves c.f.wg c.g.please = true →
      (runOk (runRegs r.run) (zIdx r.d :: r.srcs.map zIdx) = false → c.p.masked = false →
        ∃ t, exec i s = .next t ∧ Trapped t c 5 s.word c.p.pc false true) ∧
      (runOk (runRegs r.run) (zIdx r.d :: r.srcs.map zIdx) = true →
        (∀ info, (List.range (runRegs r.run)).findSome? (r.chk (zWord (c.core s) c.f.wg)) = some info → c.p.masked = false →
          ∃ t, exec i s = .next t ∧ Trapped t c 9 info c.p.pc false true) ∧
        ((∀ n, n < runRegs r.run → r.chk (zWord (c.core s) c.f.wg) n = none) → (c.core s).pq.length < 16 →
          (setIx (c.core s) c.f.wg).isSome = true →
          ∃ t, exec i s = .next t ∧ PuAccepted s t c ∧
            (∀ n, n < runRegs r.run → ZHolds t c (zIdx r.d + n) (r.op (zBits (c.core s) c.f.wg) (zWord (c.core s) c.f.wg) n).1
              (r.op (zBits (c.core s) c.f.wg) (zWord (c.core s) c.f.wg) n).2) ∧
            ∀ z, (z < zIdx r.d ∨ zIdx r.d + runRegs r.run ≤ z) →
              ZHolds t c z (zBits (c.core s) c.f.wg z) (zWord (c.core s) c.f.wg z))))

/-- O34. Generation, lengths, counts and moves of streams (R349, R353, R354, R359 to R361). -/
def Obligations.StreamGeneratorsAndMoves : Prop :=
  (∀ (h : Hdr) (run : BitVec 2) (cls : BitVec 4) (d a : Opd) (s : State) (c : Ctx), PuRuns h [a] s c →
    (c.core s).puLease.serves c.f.wg c.g.please = true → zIdx d + runRegs run ≤ 32 → (c.core s).pq.length < 16 → (setIx (c.core s) c.f.wg).isSome = true →
    ∃ t, exec (.sgenK h run cls d a) s = .next t ∧ PuAccepted s t c ∧ ∀ n k, n < runRegs run → k = wLen (zWord (c.core s) c.f.wg (zIdx d + n)) →
      ZHolds t c (zIdx d + n) (sgenBits cls.toNat (codeLen k) (List.replicate (4096 / codeLen k) (kNat s c a % 2 ^ 16))) (mkWord k (2 ^ cls.toNat))) ∧
  (∀ (h : Hdr) (run : BitVec 2) (cls : BitVec 4) (d : Opd) (i : BitVec 4) (s : State) (c : Ctx) (need : Nat), PuRuns h [] s c →
    (c.core s).puLease.serves c.f.wg c.g.please = true → zIdx d + runRegs run ≤ 32 → (c.core s).pq.length < 16 → c.p.wait ≠ .popDead i.toNat →
    need = sumN ((List.range (runRegs run)).map (fun r => 4096 / codeLen (wLen (zWord (c.core s) c.f.wg (zIdx d + r))))) →
    (c.g.queue i.toNat).port = 2 → need ≤ 256 → need ≤ (c.g.queue i.toNat).count →
    opsHeld s c ((c.g.queue i.toNat).range (c.g.queue i.toNat).head need) [] = false →
    ∃ t g, exec (.sgenQ h run cls d (.q i)) s = .next t ∧ PuAccepted s t c ∧ t.wgOf? c.f = some g ∧
      g.queue i.toNat = { (c.g.queue i.toNat) with head := (c.g.queue i.toNat).head + need } ∧
      (t.core c.f.die c.f.core).sets =
        (sgenPut c.f.wg cls.toNat (zIdx d) (runRegs run) (popWords s c.f i.toNat need).1 (c.core s)).sets) ∧
  (∀ (h : Hdr) (run : BitVec 2) (d b : Opd) (s : State) (c : Ctx), PuRuns h [b] s c → (c.core s).puLease.serves c.f.wg c.g.please = true →
    zIdx d + runRegs run ≤ 32 → kNat s c b ≤ 3 → (c.core s).pq.length < 16 → (setIx (c.core s) c.f.wg).isSome = true →
    ∃ t, exec (.slen h run d b) s = .next t ∧ PuAccepted s t c ∧ ∀ n, n < runRegs run → ZHolds t c (zIdx d + n) 0 (mkWord (kNat s c b) 0)) ∧
  (∀ (h : Hdr) (a b : Opd) (s : State) (c : Ctx) (cnt : List Nat), (c.core s).puLease.serves c.f.wg c.g.please = true →
    cnt = countsOf (c.core s) c.f.wg (zIdx a) →
    (∀ n : BitVec 5, PuRuns h [b] s c → (c.core s).pq = [] → ∃ t, exec (.scnt h (.k n) a b) s = .next t ∧ Done t c ∧
      kVal t c.f n.toNat = if n = 0 then 0 else BitVec.ofNat 64 ((cnt[kNat s c b]?).getD 0)) ∧
    (∀ n : BitVec 5, PuRuns h [b] s c → (c.core s).pq = [] → ∃ t, exec (.scnt h (.w n) a b) s = .next t ∧ Done t c ∧
      ∀ j ∈ maskList c.p.am, j < c.w.thr.length →
        wVal t c.f j n.toNat = if n = 0 then 0 else BitVec.ofNat 32 ((cnt[kNat s c b + j]?).getD 0)) ∧
    (∀ i : BitVec 4, PuRuns h [] s c → (c.g.queue i.toNat).port = 3 → (c.core s).pq.length < 16 →
      (∃ t e, exec (.scnt h (.q i) a b) s = .next t ∧ PuAccepted s t c ∧ (t.core c.f.die c.f.core).pq = (c.core s).pq ++ [e] ∧
        e.outQ = some i.toNat ∧ e.leased = true ∧ e.push = cnt.map (BitVec.ofNat 32) ∧ e.writes = unitRange (c.core s) c.g c.f.wg i.toNat cnt.length) ∧
      (∃ t e, exec (.scntr h (.q i) a) s = .next t ∧ PuAccepted s t c ∧ (t.core c.f.die c.f.core).pq = (c.core s).pq ++ [e] ∧
        e.outQ = some i.toNat ∧ e.leased = true ∧ e.push = [BitVec.ofNat 32 (sumN cnt)] ∧ e.writes = unitRange (c.core s) c.g c.f.wg i.toNat 1)) ∧
    (∀ n : BitVec 5, PuRuns h [] s c → (c.core s).pq = [] → ∃ t, exec (.scntr h (.k n) a) s = .next t ∧ Done t c ∧
      kVal t c.f n.toNat = if n = 0 then 0 else BitVec.ofNat 64 (sumN cnt))) ∧
  (∀ (h : Hdr) (run : BitVec 2) (a b : Opd) (s : State) (c : Ctx) (off : Nat), PuRuns h [b] s c → off = kNat s c b →
    zIdx a + runRegs run ≤ 32 → off % 64 = 0 → operandTrap s c [(off, 576 * runRegs run, true)] = none → acqOut s c.p.uid = false →
    opsHeld s c [] [(off, 576 * runRegs run)] = false → pulpBusy s c = false → puFull s c = false →
    ∃ t, exec (.smovTs h run a b) s = .next t ∧ t.frag? c.f = some (c.p.goesOn (c.p.pc + 8)) ∧ t.mem = s.mem ∧
      ∀ n, n < runRegs run → scrRead (t.core c.f.die c.f.core) (off + 576 * n) 576 =
        zImage (zBits (c.core s) c.f.wg (zIdx a + n)) (zWord (c.core s) c.f.wg (zIdx a + n))) ∧
  (∀ (h : Hdr) (run : BitVec 2) (d b : Opd) (s : State) (c : Ctx) (off : Nat) (y : Core), PuRuns h [b] s c → off = kNat s c b →
    zIdx d + runRegs run ≤ 32 → off % 64 = 0 → operandTrap s c [(off, 576 * runRegs run, false)] = none → acqOut s c.p.uid = false →
    opsHeld s c [(off, 576 * runRegs run)] [] = false → (c.core s).spois = [] → takeSet (c.core s) c.f.wg = some y →
    (c.core s).pq.length < 16 →
    ∃ t, exec (.smovFs h run d b) s = .next t ∧ t.frag? c.f = some (c.p.goesOn (c.p.pc + 8)) ∧ t.mem = s.mem ∧
      (t.core c.f.die c.f.core).puLease = (c.core s).puLease ∧
      ∀ n, n < runRegs run → ZHolds t c (zIdx d + n) (BitVec.ofNat 4096 (leNat (scrRead (c.core s) (off + 576 * n) 512)))
        (mkWord (bitsOf (leNat (scrRead (c.core s) (off + 576 * n + 512) 8)) 16 2) (bitsOf (leNat (scrRead (c.core s) (off + 576 * n + 512) 8)) 0 15))) ∧
  (∀ (h : Hdr) (n : BitVec 5) (a : Opd) (s : State) (c : Ctx), PuRuns h [] s c → pulpBusy s c = false → puFull s c = false →
    ∃ t, exec (.smovSt h (.k n) a) s = .next t ∧ t.frag? c.f = some (c.p.goesOn (c.p.pc + 8)) ∧ t.mem = s.mem ∧
      kVal t c.f n.toNat = if n = 0 then 0 else (zWord (c.core s) c.f.wg (zIdx a)).zeroExtend 64)

/-- O35. The pulp unit completes the instruction that it accepted first: it leaves the unit's queue, and the words of a counting instruction enter the
ring of the queue it pushes, which must have room; words whose binding has gone are dropped, and their queue takes the fault to its pops (R90, R92, R353, R359). That the fault
goes to the queue as it then stands is the model's choice (log entry 48); so is it that words of a workgroup that has exited are dropped, and that those of one that is away
wait for its return (log entry 107). -/
def Obligations.StreamCompletion : Prop :=
  ∀ (s : State) (d k : Nat) (e : EngOp) (rest : List EngOp), d < s.dies.length → (s.core d k).pq = e :: rest →
    (e.outQ = none → ∃ t, exec (.pulpInstructionComplete d k) s = .next t ∧ (t.core d k).pq = rest ∧ t.mem = s.mem) ∧
    (∀ i g, e.outQ = some i → e.frag.die = d → e.frag.core = k → e.frag.wg = e.wg → s.wgOf? e.frag = some g → i < 16 →
      (g.queue i).port = 3 → e.dead = false → g.exited = false →
      (g.resident = true → (g.queue i).count + e.push.length ≤ 256 → ∃ t g', exec (.pulpInstructionComplete d k) s = .next t ∧ (t.core d k).pq = rest ∧
        t.wgOf? e.frag = some g' ∧ g'.queue i = { (g.queue i) with tail := (g.queue i).tail + e.push.length } ∧
        ∀ j v, e.push[j]? = some v →
          leNat (scrRead (t.core d k) ((g.queue i).ring + 4 * (((g.queue i).tail + j) % 256)) 4) = v.toNat) ∧
      ((g.resident = false ∨ 256 < (g.queue i).count + e.push.length) → exec (.pulpInstructionComplete d k) s = .next s)) ∧
    (∀ i g, e.outQ = some i → s.wg? d e.wg = some g → i < 16 → (e.dead = true ∨ (g.queue i).port ≠ 3 ∨ g.exited = true) →
      (∀ x ∈ rest, x.wg = e.wg → x.outQ = some i → x.dead = true) →
      ∃ t g', exec (.pulpInstructionComplete d k) s = .next t ∧ (t.core d k).pq = rest ∧ t.wg? d e.wg = some g' ∧
        g'.queue i = { (g.queue i) with faulted := true } ∧ t.mem = s.mem)

namespace Sys2Proof.Machine

/-! ### The solve region (R365 to R379) -/

/-- A word that is a marker whatever its `sw` bit runs: its guard holds, and the fragment's results have arrived (R225). -/
def Marks (h : Hdr) (os : List Opd) (s : State) (c : Ctx) : Prop := UniRuns h os s c ∧ resultsOut s c.p.uid = false

/-- A warp may arrive at a solve word: it runs, all its live threads are active, its stores are out and no acquire (R225, R368). -/
def Arrives (h : Hdr) (os : List Opd) (s : State) (c : Ctx) : Prop :=
  Marks h os s c ∧ c.p.am ≠ 0 ∧ mayArrive c = true ∧ released s c.f c.p.uid .wg = true ∧ acqOut s c.p.uid = false

/-- What `slvb` brings. -/
def slvbArr (s : State) (c : Ctx) (m : BitVec 3) (ex : Bool) (a b : Opd) : SlvArr :=
  { warp := c.f.warp, s1 := c.f.s1, op := true, at_ := c.p.pc, word := s.word, tau := BitVec.ofNat 64 (kNat s c a)
    kd := BitVec.ofNat 64 (kNat s c b), m := m.toNat, exc := ex }

/-- What `slvx` brings. -/
def slvxArr (s : State) (c : Ctx) : SlvArr := { warp := c.f.warp, s1 := c.f.s1, op := false, at_ := c.p.pc, word := s.word }

/-- The warp of `c` is the only one of its workgroup, none is swapped out, and nobody has arrived. -/
def Lone (c : Ctx) : Prop := (∀ e ∈ c.g.warps, e.1 = c.f.warp) ∧ c.g.outWarps = [] ∧ c.g.slv.arr = []

/-- The tiles of an open region. -/
def stepTiles (z : Solve) : List Tile := slvTiles z.desc z.descAt z.m

/-- The elements of the carried tiles, and of their images (R372). -/
def stepX (x : Core) (z : Solve) : List FV := (stepTiles z).flatMap (fun t => elemsAt x (slvFmt z.desc) t.x t.nel)

/-- The elements of the images. -/
def stepG (x : Core) (z : Solve) : List FV := (stepTiles z).flatMap (fun t => elemsAt x (slvFmt z.desc) t.g t.nel)

/-- The residual, and its norm, of one step (R372). -/
def stepF (x : Core) (z : Solve) : List FV := ((stepG x z).zip (stepX x z)).map (fun e => sub64 e.1 e.2)

/-- The norm of the residual. -/
def stepNorm (x : Core) (z : Solve) : FV := r64 (FV.sqrt (dot64 (stepF x z) (stepF x z)))

/-- The norm as the bits of `slvnorm` (R375). -/
def normWord (v : FV) : W64 := BitVec.ofNat 64 (roundTo .f64 .rne false v).bits

/-- The carried tiles as ranges. -/
def stepCarried (z : Solve) : List (Nat × Nat) := (stepTiles z).map (fun t => (t.x, t.nel * slvEsz z.desc))

/-- The workgroup `w` of core `k` is first in the calender, the fragment of `f` alone has arrived at `slvx`, the scratchpad carries no poison, no lock on it
is another's, and no command at work is writing a carried tile. -/
def AtStep (s : State) (d k w : Nat) (rest : List Nat) (g : Wg) (f : FragRef) (p : Frag) (a : SlvArr) : Prop :=
  d < s.dies.length ∧ (s.core d k).calQ = w :: rest ∧ s.wg? d w = some g ∧ g.core = k ∧ (s.core d k).spois = [] ∧
    g.slv.arr = [a] ∧ f = arrRef d k w a ∧ s.frag? f = some p ∧ (∀ l ∈ (s.core d k).locks, l.glob = true ∨ l.cmd = g.slv.lockId) ∧
    ∀ x ∈ s.cmds, x.die = d → x.core = k → x.st = .running → ∀ q, tornCopy (stepCarried g.slv) q x = q

end Sys2Proof.Machine

/-- O36. Arrivals at the solve words (R367 to R371, R415): without an active thread reason 2, with threads missing reason 1; while another warp has not come the
fragment waits with what it brings; the last `slvb` that passes its checks opens the region, locks its ranges and clears `slvk` and `slvnorm`, and the
warp goes on as after `rgn`; the last `slvx` of an open region enters the calender, of a closed one is illegal. That the threads which must be active are the warp's live ones is
the model's choice (log entry 50). -/
def Obligations.SolveArrivals : Prop :=
  (∀ (h : Hdr) (m : BitVec 3) (ex : Bool) (a b : Opd) (s : State) (c : Ctx), c.p.masked = false →
    (c.p.am = 0 → Marks h [a, b] s c → ∃ t, exec (.slvb h m ex a b) s = .next t ∧ Trapped t c 8 2 c.p.pc false true) ∧
    (c.p.am = 0 → Marks h [] s c → ∃ t, exec (.slvx h) s = .next t ∧ Trapped t c 8 2 c.p.pc false true) ∧
    (c.p.am ≠ 0 → mayArrive c = false → Marks h [a, b] s c →
      ∃ t, exec (.slvb h m ex a b) s = .next t ∧ Trapped t c 8 1 c.p.pc false true) ∧
    (c.p.am ≠ 0 → mayArrive c = false → Marks h [] s c → ∃ t, exec (.slvx h) s = .next t ∧ Trapped t c 8 1 c.p.pc false true)) ∧
  (∀ (h : Hdr) (m : BitVec 3) (ex : Bool) (a b : Opd) (s : State) (c : Ctx),
    (∃ e ∈ c.g.warps, e.1 ≠ c.f.warp ∧ ∀ r ∈ c.g.slv.arr, r.warp ≠ e.1) →
    (Arrives h [a, b] s c → ∃ t g, exec (.slvb h m ex a b) s = .next t ∧ (t.frag? c.f).map (fun p => (p.pc, p.wait)) = some (c.p.pc, .slvb) ∧
      t.wgOf? c.f = some g ∧ g.slv.arr = c.g.slv.arr.filter (fun r => r.warp != c.f.warp) ++ [slvbArr s c m ex a b]) ∧
    (Arrives h [] s c → ∃ t g, exec (.slvx h) s = .next t ∧ (t.frag? c.f).map (fun p => (p.pc, p.wait)) = some (c.p.pc, .slvx) ∧
      t.wgOf? c.f = some g ∧ g.slv.arr = c.g.slv.arr.filter (fun r => r.warp != c.f.warp) ++ [slvxArr s c])) ∧
  (∀ (h : Hdr) (m : BitVec 3) (ex : Bool) (a b : Opd) (s : State) (c : Ctx) (r : SlvArr) (desc : List Byte) (ts : List Tile), Arrives h [a, b] s c →
    Lone c → c.g.slv.opened = false → r = slvbArr s c m ex a b → slvCheck s c.g c.f.die r = none → desc = scrRead (c.core s) r.kd.toNat 64 →
    ts = slvTiles desc r.kd.toNat r.m → (c.core s).locks.length + 1 + ts.length ≤ 64 →
    ∃ t g p, exec (.slvb h m ex a b) s = .next t ∧ t.wgOf? c.f = some g ∧ t.frag? c.f = some p ∧ g.slvk = 0 ∧ g.slvnorm = 0 ∧
      g.slv.opened = true ∧ g.slv.k = 0 ∧ g.slv.m = m.toNat ∧ g.slv.exc = ex ∧ g.slv.desc = desc ∧ g.slv.at_ = c.p.pc ∧ g.slv.arr = [] ∧
      (t.core c.f.die c.f.core).locks = (c.core s).locks ++
        mkLock false (r.kd.toNat + fieldAt desc 24 4) (sumN (ts.map (fun x => (2 * r.m + 2) * slotSize x.nel))) true g.slv.lockId ::
          ts.map (fun x => mkLock false x.x (x.nel * slvEsz desc) false g.slv.lockId) ∧
      p.pc = c.p.pc + 8 ∧ p.wait = .none ∧ p.regionpc = c.p.pc + 8 ∧ p.regioncnt = c.p.regioncnt + 1) ∧
  (∀ (h : Hdr) (s : State) (c : Ctx), Arrives h [] s c → Lone c →
    (c.g.slv.opened = true → ∃ t, exec (.slvx h) s = .next t ∧ c.f.wg ∈ (t.core c.f.die c.f.core).calQ ∧
      (t.frag? c.f).map (fun p => (p.pc, p.wait)) = some (c.p.pc, .slvx)) ∧
    (c.g.slv.opened = false → c.p.masked = false → ∃ t, exec (.slvx h) s = .next t ∧ Trapped t c 5 s.word c.p.pc false true))

/-- O37. One step of the calender (R372, R374 to R377): a norm within the tolerance ends the region and the warp goes on after `slvx`; one that is not finite, or the
last step allowed, ends it with the no-convergence trap, or without one under `.x`; any other step mixes and the warp goes on after `slvb`. A step of the machine
is one of the calender's cycles, which is the model's choice (log entry 5). -/
def Obligations.CalenderSteps : Prop :=
  ∀ (s : State) (d k w : Nat) (rest : List Nat) (g : Wg) (f : FragRef) (p : Frag) (a : SlvArr), AtStep s d k w rest g f p a →
    let x := s.core d k
    let norm := stepNorm x g.slv
    let ends := ceilDiv (stepX x g.slv).length 16
    (norm.isFin = true → FV.cmp norm (fdecode .f64 g.slv.tau.toNat) ≤ 0 →
      ∃ t g' p', exec (.calenderStep d k w) s = .next t ∧ t.wg? d w = some g' ∧ t.frag? f = some p' ∧ p'.pc = a.at_ + 8 ∧ p'.wait = .none ∧
        g'.slvk = slvkWord (bitsOf g.slvk.toNat 24 4) 1 (g.slv.k + 1) ∧ g'.slvnorm = normWord norm ∧ g'.slv.opened = false ∧
        (t.core d k).calQ = rest ∧ (∀ l ∈ (t.core d k).locks, l.cmd ≠ g.slv.lockId) ∧ t.mem = s.mem ∧
        t.cycOf d k + 1 = s.cycOf d k + ends * 4 + 32) ∧
    (∀ st, (norm.isFin = false ∧ st = 3 ∨ norm.isFin = true ∧ ¬ FV.cmp norm (fdecode .f64 g.slv.tau.toNat) ≤ 0 ∧
        g.slv.k + 1 = fieldAt g.slv.desc 4 2 ∧ st = 2) → (g.slv.exc = true ∨ p.masked = false) →
      ∃ t g' p', exec (.calenderStep d k w) s = .next t ∧ t.wg? d w = some g' ∧ t.frag? f = some p' ∧
        g'.slvk = slvkWord (bitsOf g.slvk.toNat 24 4) st (g.slv.k + 1) ∧ g'.slvnorm = normWord norm ∧ g'.slv.opened = false ∧
        (g.slv.exc = true → p'.pc = a.at_ + 8) ∧
        (g.slv.exc = false → p'.pc = g.trapv ∧ p'.masked = true ∧ p'.trapinfo = g'.slvk ∧
          p'.trapcause = causeWord 0x10 (a.at_ + 8) false true)) ∧
    (norm.isFin = true → ¬ FV.cmp norm (fdecode .f64 g.slv.tau.toNat) ≤ 0 → g.slv.k + 1 ≠ fieldAt g.slv.desc 4 2 →
      ∃ t g' p', exec (.calenderStep d k w) s = .next t ∧ t.wg? d w = some g' ∧ t.frag? f = some p' ∧ p'.pc = g.slv.at_ + 8 ∧
        p'.regionpc = g.slv.at_ + 8 ∧ p'.regioncnt = p.regioncnt + 1 ∧ g'.slv.opened = g.slv.opened ∧ g'.slv.k = g.slv.k + 1 ∧
        g'.slvnorm = normWord norm ∧
        g'.slvk = slvkWord (mixStep g.slv (stepTiles g.slv) (stepX x g.slv) (stepF x g.slv) { x with calQ := rest }).2 0 (g.slv.k + 1) ∧
        t.core d k = (mixStep g.slv (stepTiles g.slv) (stepX x g.slv) (stepF x g.slv) { x with calQ := rest }).1)

/-- O38. Allotments (R69, R208, R406, R407): `acq` goes on when the full allotment is held, else parks its request; the grant gives windows, cleared
bands and scratchpad and lets the fragments go on; `rel` gives them back. -/
def Obligations.Allotments : Prop :=
  (∀ (h : Hdr) (s : State) (c : Ctx), UniRuns h [] s c →
    (c.g.fullHeld = true → exec (.acq h) s = .next (finish s c.f 1)) ∧
    (c.g.fullHeld = false → c.g.acqPend = false → ∃ t g, exec (.acq h) s = .next t ∧ t.frag? c.f = some { c.p with wait := .acq } ∧
      t.wgOf? c.f = some g ∧ g.acqPend = true ∧ (t.core c.f.die c.f.core).acqQ = (c.core s).acqQ ++ [c.f.wg])) ∧
  (∀ (s : State) (d k w : Nat) (rest : List Nat) (g : Wg) (others : List (Nat × Wg)), d < s.dies.length →
    (s.core d k).acqQ = w :: rest → s.wg? d w = some g → g.core = k → others = (residents s d k).filter (fun e => e.1 != w) →
    (s.die d).leaveQ.all (fun r => r.1 != .acq k w) = true → lanesFit ((g.nslot, g.nwinFull) :: laneUse others) = true →
    g.bandsFull ≤ (idxWhere 16 (fun i => !(bandsHeld others).getLsbD i)).length →
    bytesFree others (g.spbase + 1024 * g.prol) (1024 * (g.full - g.prol)) = true →
    ∃ t g', exec (.allotmentGrant d k) s = .next t ∧ t.wg? d w = some g' ∧ g'.fullHeld = true ∧ g'.acqPend = false ∧
      g'.splen = 1024 * g.full ∧ g'.nwin = max g.nwin g.nwinFull ∧ g'.bands &&& bandsHeld others = 0 ∧
      (List.range 16).countP (fun i => g'.bands.getLsbD i) = g.bandsFull ∧ (t.core d k).acqQ = rest ∧ t.mem = s.mem ∧
      ∀ f p, f.die = d → f.core = k → f.wg = w → s.frag? f = some p → p.wait = .acq →
        ∃ q, t.frag? f = some q ∧ q.pc = p.pc + 8 ∧ q.wait = .none) ∧
  (∀ (h : Hdr) (s : State) (c : Ctx), UniRuns h [] s c →
    (c.g.fullHeld = false → exec (.rel h) s = .next (finish s c.f 1)) ∧
    (c.g.fullHeld = true → c.g.slv.opened = true → c.p.masked = false → ∃ t, exec (.rel h) s = .next t ∧ Trapped t c 5 s.word c.p.pc false true) ∧
    (∀ s1, c.g.fullHeld = true → c.g.slv.opened = false → relHeld s c = false → spillHeld s c.f c.g = false → spillAll s c.f c.g = .ok s1 →
      ∃ t g, exec (.rel h) s = .next t ∧ Done t c ∧ t.mem = s1.mem ∧ t.wgOf? c.f = some g ∧ g.nwin = 2 ∧ g.bands = 0 ∧ g.fullHeld = false ∧
        g.splen = 1024 * c.g.prol ∧ (t.core c.f.die c.f.core).mxLease.holder ≠ some c.f.wg))

/-- O39. Barriers (R144, R198, R225, R395, R408): an arrival, a marker whatever its `sw` bit, waits and is counted; once every fragment of every participant has arrived, at any scope, the instance
departs: its participants count it and are empty, and their fragments go on with an acquire; a departure at the die's scope is a phase boundary of the grid's dispenser, which takes the best table of
the next phase, with its counter and costs at zero; a fragment whose instance departed while it was saved goes on at once. -/
def Obligations.Barriers : Prop :=
  (∀ (h : Hdr) (sc : BitVec 2) (s : State) (c : Ctx), Marks h [] s c →
    ((c.g.bar sc.toNat).departed.contains c.p.uid = false → (c.g.bar sc.toNat).arrived.contains c.p.uid = false → acqOut s c.p.uid = false →
      released s c.f c.p.uid (barScope sc.toNat) = true →
      ∃ t g, exec (.bar h sc) s = .next t ∧ (t.frag? c.f).map (fun p => (p.pc, p.wait)) = some (c.p.pc, .bar sc.toNat) ∧
        t.wgOf? c.f = some g ∧ g.bar sc.toNat = { (c.g.bar sc.toNat) with arrived := (c.g.bar sc.toNat).arrived ++ [c.p.uid] }) ∧
    ((c.g.bar sc.toNat).departed.contains c.p.uid = true → ∃ t, exec (.bar h sc) s = .next t ∧ Done t c)) ∧
  (∀ (s : State) (d k w : Nat) (sc : BitVec 2) (g : Wg) (ps : List (Nat × Nat)), s.wg? d w = some g → g.core = k → ps = barParts s d w g sc.toNat →
    spanOpen s d g sc.toNat = false → ps.Nodup → (∀ e ∈ ps, ∀ x, s.wg? e.1 e.2 = some x → wgArrived x sc.toNat = true) → (g.bar sc.toNat).arrived ≠ [] →
    ∃ t, exec (.barrierComplete d k w sc) s = .next t ∧ t.mem = s.mem ∧
      (∀ e ∈ ps, ∀ x, s.wg? e.1 e.2 = some x → ∃ x', t.wg? e.1 e.2 = some x' ∧ (x'.bar sc.toNat).inst = (x.bar sc.toNat).inst + 1 ∧ (x'.bar sc.toNat).arrived = [] ∧
        ∀ f p, f.die = e.1 → f.core = x.core → f.wg = e.2 → s.frag? f = some p → p.wait = .bar sc.toNat →
          (∀ y, s.warp? f = some y → y.entered = false ∧ y.swapped = false) → (x.bar sc.toNat).arrived.contains p.uid = true →
          ∃ q, t.frag? f = some q ∧ q.pc = p.pc + 8 ∧ q.wait = .none) ∧
      (∀ y, sc = 2 → s.grid? d g.grid = some y → y.disp = 1 → y.mode ≠ 0 → y.sch ≠ [] → y.cstk < s.stks.length →
        ∃ y', t.grid? d g.grid = some y' ∧ y'.phase = (y.phase + 1) % 16 ∧ y'.cost = [] ∧
          y'.curTab = (if y.hadTab = true then bestTab y (phaseTabs y ((y.phase + 1) % 16)) else (phaseTabs y ((y.phase + 1) % 16)).head?) ∧
          Tab.getD (t.stk y.cstk).counters y.ctr 0 = 0)) ∧
  (∀ (s : State) (d k w : Nat) (sc : BitVec 2) (g x : Wg) (e : Nat × Nat), s.wg? d w = some g → e ∈ barParts s d w g sc.toNat → s.wg? e.1 e.2 = some x →
    wgArrived x sc.toNat = false → exec (.barrierComplete d k w sc) s = .next s)

namespace Sys2Proof.Machine

/-- The two results `v` and `v2` of the word of `c` are on their way to k registers `d` and `e`. -/
def PairSent (t : State) (c : Ctx) (d e : BitVec 5) (v v2 : W64) : Prop :=
  ∃ a ∈ t.accs, a.st = .done ∧ a.uid = c.p.uid ∧ a.dst = .k d.toNat ∧ a.dst2 = .k e.toNat ∧ a.val = v ∧ a.val2 = v2

/-- The warp of `c`, which has no task, asks the dispenser `y` in state `s` for one (R397, R409): it takes the head of its cluster's queue, learns that every task is
over, or parks. -/
def Asks (s t : State) (c : Ctx) (y : Grid) (d e : BitVec 5) : Prop :=
  (∀ r s1, readyHead y (c.f.core / 8) = some r → tcbWr s c.f.die r.tcb 42 1 2 = .ok s1 →
    Done t c ∧ t.mem = s1.mem ∧ PairSent t c d e r.tcb r.key ∧
      (∃ w, t.warp? c.f = some w ∧ w.task = some r.tcb ∧ w.bound = (if r.key = badKey then none else some r.key)) ∧
      ∃ y', t.grid? c.f.die c.g.grid = some y' ∧ ∀ x ∈ y'.ready, x.tcb ≠ r.tcb) ∧
  (∀ r h, readyHead y (c.f.core / 8) = some r → tcbWr s c.f.die r.tcb 42 1 2 = .error (.busy h) → t.frag? c.f = some (c.p.stays .task) ∧ t.mem = s.mem) ∧
  (∀ s1, readyHead y (c.f.core / 8) = none → tasksOver s c.f.die y = .ok (s1, true) → Done t c ∧ PairSent t c d e 0 badKey ∧ t.mem = s1.mem) ∧
  (∀ s1, readyHead y (c.f.core / 8) = none → tasksOver s c.f.die y = .ok (s1, false) → t.frag? c.f = some (c.p.stays .task) ∧ t.mem = s1.mem) ∧
  (∀ h, readyHead y (c.f.core / 8) = none → tasksOver s c.f.die y = .error (.busy h) → t.frag? c.f = some (c.p.stays .task) ∧ t.mem = s.mem)

/-- The task `k` has ended: done, with its successors decremented, or faulted with a code and a record (R398, R412). -/
def TaskEnds (s s1 : State) (c : Ctx) (k : W64) : Option Nat → Prop
  | none => ∃ sa, tcbWr s c.f.die k 42 1 3 = .ok sa ∧ runSuccs sa c.f.die c.g.grid c.g.wgid k = .ok s1
  | some code => ∃ sa sb, tcbWr s c.f.die k 42 1 4 = .ok sa ∧ tcbWr sa c.f.die k 44 4 code = .ok sb ∧
      postFault sb c.f.die c.g.grid k code c.g.wgid = .ok s1

/-- What the part that a workgroup has held adds to the cost of slice `i` of its `n` (R395). -/
def sliceCost (cyc n i : Nat) : Nat := cyc / n + (if i = 0 then cyc % n else 0)

end Sys2Proof.Machine

/-- O40. Dispensers (R394 to R398, R409): `fetch.idx` hands out the next guided chunk and advances the grid's counter, or, under a schedule table, the workgroup's next part, or zeros
when nothing remains; what the part before cost is spread over its slices; `fetch.task` ends the warp's task, done or with the fault that `.flt` names, once its earlier
accesses are performed, and then takes the head of the cluster's ready queue, parks, or reports the end when every task is over; `.flt` without a task is illegal. -/
def Obligations.Dispensers : Prop :=
  (∀ (h : Hdr) (d e : BitVec 5) (s : State) (c : Ctx) (y : Grid) (n : Nat), UniRuns h [] s c → s.grid? c.f.die c.g.grid = some y → y.disp = 1 →
    y.curTab = none → n = (Tab.getD (s.stk y.cstk).counters y.ctr 0).toNat → n ≤ y.nidx → y.nidx < 2 ^ 64 → y.cstk < s.stks.length →
    ∃ t a, exec (.fetchIdx h (.k d) (.k e)) s = .next t ∧ Done t c ∧ t.mem = s.mem ∧ t.accs = s.accs ++ [a] ∧ a.st = .done ∧ a.uid = c.p.uid ∧
      a.dst = .k d.toNat ∧ a.dst2 = .k e.toNat ∧
      (n = y.nidx → a.val = 0 ∧ a.val2 = 0 ∧ (Tab.getD (t.stk y.cstk).counters y.ctr 0).toNat = n) ∧
      (n < y.nidx → ∀ m, m = min (y.nidx - n) (max y.minch (ceilDiv (y.nidx - n) (2 * y.P))) →
        a.val = y.ibase + BitVec.ofNat 64 n ∧ a.val2 = BitVec.ofNat 64 m ∧ (Tab.getD (t.stk y.cstk).counters y.ctr 0).toNat = n + m)) ∧
  (∀ (h : Hdr) (d e : BitVec 5) (s : State) (c : Ctx) (y : Grid) (tab : SchTab), UniRuns h [] s c → s.grid? c.f.die c.g.grid = some y → y.disp = 1 →
    y.curTab = some tab →
    ∃ t g y', exec (.fetchIdx h (.k d) (.k e)) s = .next t ∧ Done t c ∧ t.mem = s.mem ∧ t.stks = s.stks ∧ t.wgOf? c.f = some g ∧
      t.grid? c.f.die c.g.grid = some y' ∧
      (nextPart y tab c.g = none → PairSent t c d e 0 0 ∧ g.fetchCur = none) ∧
      (∀ k p, nextPart y tab c.g = some (k, p) →
        PairSent t c d e (y.ibase + BitVec.ofNat 64 (partRange y tab p).1) (BitVec.ofNat 64 ((partRange y tab p).2 - (partRange y tab p).1)) ∧
        g.fetchPart = k + 1 ∧ g.fetchCur = some p ∧ g.fetchAt = s.cycOf c.f.die c.f.core) ∧
      (c.g.fetchCur = none → y'.cost = y.cost) ∧
      ∀ p a b, c.g.fetchCur = some p → (a, b) = partSlices tab p → c.f.core = c.g.core →
        ∀ i, Tab.getD y'.cost i 0 = Tab.getD y.cost i 0 +
          (if a ≤ i ∧ i < b then sliceCost (s.cycOf c.f.die c.f.core - c.g.fetchAt) (b - a) (i - a) else 0)) ∧
  (∀ (h : Hdr) (flt : Option Opd) (d e : BitVec 5) (s : State) (c : Ctx) (y : Grid), UniRuns h flt.toList s c → s.grid? c.f.die c.g.grid = some y →
    y.disp = 2 → y.jobs = [] →
    (c.w.task = none → (flt = none ∨ c.p.wait = .task) → ∃ t, exec (.fetchTask h flt (.k d) (.k e)) s = .next t ∧ Asks s t c y d e) ∧
    (∀ k s1 y1, c.w.task = some k → acqOut s c.p.uid = false → released s c.f c.p.uid .die = true → (c.w.bound = none ∨ c.w.costDue = 0) →
      TaskEnds s s1 c k (flt.map (fun o => opVal s c true 0 ⟨o, 32, .int⟩)) → s1.grid? c.f.die c.g.grid = some y1 → y1.jobs = [] →
      ∃ t, exec (.fetchTask h flt (.k d) (.k e)) s = .next t ∧
        Asks (s1.modWarp c.f (fun w => { w with task := none, bound := none, issueCyc := 0 })) t c y1 d e)) ∧
  (∀ (h : Hdr) (flt : Option Opd) (d e : Opd) (s : State) (c : Ctx), UniRuns h flt.toList s c → c.p.masked = false →
    ((∀ y, s.grid? c.f.die c.g.grid = some y → y.disp ≠ 2) ∨ flt ≠ none ∧ c.w.task = none ∧ c.p.wait ≠ .task) →
    ∃ t, exec (.fetchTask h flt d e) s = .next t ∧ Trapped t c 5 s.word c.p.pc false true)

/-- O41. Words on tasks and launches (R400, R410, R411): a misaligned TCB traps; `trel` makes a faulted task done, decrements its successors and
answers 0, and answers 1 for any other; `tabn` abandons a faulted task and the armed ones behind it, however many it reaches, and answers their number; a TCB that is held up
is tried again; a device-side launch enters the pool as a command; `join` copies the status of a resolved handle, or waits. That `join` of a register that is not pending copies it is the
model's choice (log entry 56), and so is the entry of the table that a handle names (log entry 86). -/
def Obligations.TaskWords : Prop :=
  (∀ (h : Hdr) (d a : Opd) (s : State) (c : Ctx), UniRuns h [a] s c → c.p.masked = false → kNat s c a % 64 ≠ 0 →
    (∃ t, exec (.trel h d a) s = .next t ∧ Trapped t c 4 (BitVec.ofNat 64 (kNat s c a)) c.p.pc false true) ∧
    (∃ t, exec (.tabn h d a) s = .next t ∧ Trapped t c 4 (BitVec.ofNat 64 (kNat s c a)) c.p.pc false true)) ∧
  (∀ (h : Hdr) (d : BitVec 5) (a : Opd) (s s1 : State) (c : Ctx) (tcb : W64) (st : Nat), UniRuns h [a] s c → tcb = BitVec.ofNat 64 (kNat s c a) →
    kNat s c a % 64 = 0 → (∀ y, s.grid? c.f.die c.g.grid = some y → y.jobs = []) → tcbRd s c.f.die tcb 42 1 = .ok (s1, st) →
    (st ≠ 4 →
      (∃ t, exec (.trel h (.k d) a) s = .next t ∧ Done t c ∧ t.mem = s1.mem ∧ kVal t c.f d.toNat = if d = 0 then 0 else 1) ∧
      (∃ t, exec (.tabn h (.k d) a) s = .next t ∧ Done t c ∧ t.mem = s1.mem ∧ kVal t c.f d.toNat = if d = 0 then 0 else 0xFFFFFFFF)) ∧
    (∀ s2 s3, st = 4 → tcbWr s1 c.f.die tcb 42 1 3 = .ok s2 → runSuccs s2 c.f.die c.g.grid c.g.wgid tcb = .ok s3 →
      ∃ t, exec (.trel h (.k d) a) s = .next t ∧ Done t c ∧ t.mem = s3.mem ∧ kVal t c.f d.toNat = 0) ∧
    (∀ s2 s3 s4 reached armed, st = 4 → reachTasks c.f.die taskFuel [tcb] [] s1 = .ok (s2, reached) →
      waitingOf c.f.die (reached.filter (· != tcb)) s2 = .ok (s3, armed) →
      (tcb :: armed).foldlM (fun u x => tcbWr u c.f.die x 42 1 5) s3 = .ok s4 →
      ∃ t, exec (.tabn h (.k d) a) s = .next t ∧ Done t c ∧ t.mem = s4.mem ∧
        kVal t c.f d.toNat = if d = 0 then 0 else BitVec.ofNat 64 (armed.length + 1))) ∧
  (∀ (h : Hdr) (d a : Opd) (s : State) (c : Ctx) (b : Held), UniRuns h [a] s c → kNat s c a % 64 = 0 →
    (∀ y, s.grid? c.f.die c.g.grid = some y → y.jobs = []) → tcbRd s c.f.die (BitVec.ofNat 64 (kNat s c a)) 42 1 = .error (.busy b) →
    (∃ t, exec (.trel h d a) s = .next t ∧ t.frag? c.f = some (c.p.stays .stall) ∧ t.mem = s.mem) ∧
    (∃ t, exec (.tabn h d a) s = .next t ∧ t.frag? c.f = some (c.p.stays .stall) ∧ t.mem = s.mem)) ∧
  (∀ (h : Hdr) (d a : Opd) (s : State) (c : Ctx) (r : W64), UniRuns h [a] s c → r = BitVec.ofNat 64 (kNat s c a) →
    (∀ e, r.toNat % 64 = 0 → ((s.die c.f.die).grids.filter (inPool s)).length < 256 → freeEnt (c.core s) = some e → acqOut s c.p.uid = false →
      settledAll s c.f c.p.uid = true → (c.core s).locks.length ≤ 64 →
      ∃ t y cmd, exec (.deviceSideLaunch h d a) s = .next t ∧ Done t c ∧ Accepted s t c d { fail := none, kind := .launch r } ∧
        t.cmds = s.cmds ++ [cmd] ∧ (t.die c.f.die).grids = (s.die c.f.die).grids ++ [y] ∧ y.grec = r ∧ y.src = .device cmd.id ∧ y.dispatched = false) ∧
    (∀ code, freeEnt (c.core s) ≠ none → (r.toNat % 64 ≠ 0 ∧ code = 0x51 ∨
        r.toNat % 64 = 0 ∧ 256 ≤ ((s.die c.f.die).grids.filter (inPool s)).length ∧ code = 0x50) →
      ∃ t, exec (.deviceSideLaunch h d a) s = .next t ∧ Done t c ∧ t.cmds = s.cmds ∧
        ∀ i : BitVec 5, d = .k i → i ≠ 0 → kVal t c.f i.toNat = immHandle code)) ∧
  (∀ (h : Hdr) (d i : BitVec 5) (s : State) (c : Ctx), Begins h.sw (kRegs [guardOpd h]) s c → uniHolds c h = true → Clean c h true [0] [.k i] →
    (c.w.kpend.getLsbD i.toNat = false → ∃ t, exec (.join h (.k d) (.k i)) s = .next t ∧ Done t c ∧
      kVal t c.f d.toNat = if d = 0 then 0 else c.w.readK i.toNat) ∧
    (c.w.kpend.getLsbD i.toNat = true → i ≠ 0 →
      (∀ st, handleStatus (c.core s) c.f.wg (c.w.readK i.toNat) = some st →
        ∃ t, exec (.join h (.k d) (.k i)) s = .next t ∧ Done t c ∧ kVal t c.f i.toNat = st ∧ (d ≠ 0 → kVal t c.f d.toNat = st)) ∧
      (handleStatus (c.core s) c.f.wg (c.w.readK i.toNat) = none →
        ∃ t p, exec (.join h (.k d) (.k i)) s = .next t ∧ t.frag? c.f = some p ∧ p.wait = .join ∧ p.pc = c.p.pc)))

namespace Sys2Proof.Machine

/-- The launch of `y` is answered with a status, after the records `recs` (R385, R390, R410, R455): its packet completes, a failure as error 7 of its queue with a record; or the handle
of its command resolves. -/
def LaunchAnswered (s t : State) (d : Nat) (y : Grid) (st : W64) (recs : List (List Byte)) : Prop :=
  match y.src with
  | .packet q tag rd =>
    t.queue d q = { (if st = 0 then s.queue d q else (s.queue d q).error 7) with outst := (s.queue d q).outst.erase rd.toNat } ∧
      (t.die d).evPend = (s.die d).evPend ++ recs ++ (if st = 0 then [] else [evRecord 1 d 0xFFFF 0xFF q 7 tag 0 (rd.zeroExtend 64) st (s.cyc d)])
  | .device id => (t.die d).evPend = (s.die d).evPend ++ recs ∧ ∀ c e x, s.cmd? id = some c → (∃ r, c.kind = .launch r) → c.cw = none → c.gcw = none → 64 ≤ c.queue →
      c.die = d → c.core < 96 → c.ent = some e → Tab.get? (s.core d c.core).handles e = some x → x.used = true → x.seq = c.hseq →
      t.cmd? id = none ∧ ∃ x', Tab.get? (t.core d c.core).handles e = some x' ∧ x'.status = some st

/-- What issued a launch: a packet, or a device-side launch whose command writes no global word and holds no pin. -/
def Source (s : State) (y : Grid) : Prop :=
  (∃ q tag rd, y.src = .packet q tag rd ∧ q < 64) ∨ (∃ id, y.src = .device id ∧ ∀ c, s.cmd? id = some c → c.gcw = none ∧ c.pinned = none)

/-- A launch that waits to be dispatched: of a packet, or of a device-side launch that is in the pool (R390, R400). -/
def Launched (s : State) (y : Grid) : Prop := Source s y ∧ ∀ id, y.src = .device id → inPool s y = true

/-- The image and the limits of a record are such that its launch is invalid (R245, R250, R390, R423). -/
def LaunchBad (s : State) (d : Nat) (y : Grid) (r b : List Byte) : Prop :=
  y.grec.toNat % 64 ≠ 0 ∨ recordOk r = false ∨ descOk b (imageOf s d (BitVec.ofNat 64 (fieldAt r 0 8))) = false ∨
    declsOk s (fieldAt r 0 8) (imageOf s d (BitVec.ofNat 64 (fieldAt r 0 8))) = false ∨ (s.die d).csz.toNat * 65536 < 4096 + 8192 * fieldAt b 25 1

end Sys2Proof.Machine

/-- O42. Grids (R245, R250, R385, R387, R390, R391, R393, R400, R423, R453): a record that cannot be read, breaks a limit, or names an image whose key spaces are not as it declares, ends its
launch with status 0x51, which its packet's queue or its handle reports; a legal one that has cores is dispatched with the fields of its record, a workgroup on each of its cores,
and its counter at zero; one whose cores or memory are not free waits; a finished grid adds to its completion signal, leaves with its workgroups, answers its packet or handle with
success and posts its record. That the record's queue field is 0xFF is the model's choice (log entry 79). -/
def Obligations.Grids : Prop :=
  (∀ (s : State) (d ix : Nat) (y : Grid), d < s.dies.length → ((s.die d).grids.filter (fun y => !y.dispatched))[ix]? = some y →
    (∀ id, y.src = .device id → inPool s y = false → ∃ t, exec (.gridDispatch d ix) s = .next t ∧ t.mem = s.mem ∧ t.cmds = s.cmds ∧ ∀ z ∈ (t.die d).grids, z.id ≠ y.id) ∧
    (Launched s y → poolBefore s d y = true → exec (.gridDispatch d ix) s = .next s) ∧
    (Launched s y → poolBefore s d y = false →
      (∀ h, readLaunch s d y.grec = .error (.busy h) → ∃ t, exec (.gridDispatch d ix) s = .next t ∧ t.mem = s.mem ∧ t.dies = s.dies) ∧
      (∀ e, (∀ h, e ≠ AErr.busy h) → readLaunch s d y.grec = .error e →
        ∃ t, exec (.gridDispatch d ix) s = .next t ∧ t.mem = s.mem ∧ (∀ z ∈ (t.die d).grids, z.id ≠ y.id) ∧ LaunchAnswered s t d y 0x51 []) ∧
      (∀ s1 r k b l, readLaunch s d y.grec = .ok (s1, r, k, b, l) → s1.cmds = s.cmds → LaunchBad s1 d y r b →
        ∃ t, exec (.gridDispatch d ix) s = .next t ∧ t.mem = s1.mem ∧ (∀ z ∈ (t.die d).grids, z.id ≠ y.id) ∧ LaunchAnswered s1 t d y 0x51 []) ∧
      (∀ s1 r k b l, readLaunch s d y.grec = .ok (s1, r, k, b, l) → ¬ LaunchBad s1 d y r b →
        (placeAll s1 d (fieldAt r 40 2) (fieldAt b 27 1) (BitVec.ofNat 12 (fieldAt r 42 2)) = none →
          ∃ t, exec (.gridDispatch d ix) s = .next t ∧ t.mem = s1.mem ∧ t.dies = s1.dies) ∧
        (∀ cores more, placeAll s1 d (fieldAt r 40 2) (fieldAt b 27 1) (BitVec.ofNat 12 (fieldAt r 42 2)) = some (cores, more) → cores.length = fieldAt r 40 2 →
          s1.grid? d y.id = some y → fieldAt r 45 1 < s1.stks.length →
          ∃ t y', exec (.gridDispatch d ix) s = .next t ∧ t.grid? d y.id = some y' ∧ y'.dispatched = true ∧ y'.P = fieldAt r 40 2 ∧
            y'.disp = fieldAt r 44 1 ∧ y'.cstk = fieldAt r 45 1 ∧ y'.ctr = fieldAt r 46 2 ∧ y'.minch = fieldAt r 64 4 ∧
            y'.wgs.length = y.wgs.length + fieldAt r 40 2 ∧ Tab.getD (t.stk y'.cstk).counters y'.ctr 0 = 0 ∧
            (fieldAt r 44 1 ≠ 2 → t.mem = s1.mem) ∧
            (∀ id x, y.src = .device id → s1.cmd? id = some x → t.cmd? id = some { x with st := .running }) ∧
            ∀ i core, cores[i]? = some core → ∃ w g, w ∈ y'.wgs ∧ t.wg? d w = some g ∧ g.wgid = i ∧ g.core = core ∧ g.grid = y.id)))) ∧
  (∀ (s u : State) (d id : Nat) (y : Grid), s.grid? d id = some y → gridOver s d y = true → d < s.dies.length →
    (y.sig = 0 ∧ u = s ∨ y.sig ≠ 0 ∧ homeAtomic s d y.sig.toNat (fun v => v + y.sigv.toNat) = .ok u ∨
      y.sig ≠ 0 ∧ ∃ e, homeAtomic s d y.sig.toNat (fun v => v + y.sigv.toNat) = .error e ∧ (∀ h, e ≠ .busy h) ∧ u = { s with freeIx := s.freeIx + 1 }) →
    Source u y →
    ∃ t, exec (.gridComplete d id) s = .next t ∧ t.mem = u.mem ∧ (∀ z ∈ (t.die d).grids, z.id ≠ id) ∧ (∀ e ∈ (t.die d).wgs, e.1 ∉ y.wgs) ∧
      LaunchAnswered u t d y 0 [evRecord 7 d 0xFFFF 0xFF 0xFF 0 (match y.src with | .packet _ tag _ => tag | .device _ => 0) 0 y.grec (y.mode.zeroExtend 64) (u.cyc d)]) ∧
  (∀ (s s1 : State) (d id : Nat) (y : Grid) (p : Phys), s.grid? d id = some y → gridOver s d y = true → y.sig ≠ 0 → (∃ q tag rd, y.src = .packet q tag rd ∧ q < 64) →
    xlat s d y.sig.toNat .at = .ok (s1, p) → reach s1 { die := d } y.sig.toNat p = none → p.al = false → isPois s1 p.pa 8 = false → inHost p.pa = false →
    ∃ t, exec (.gridComplete d id) s = .next t ∧ ∀ a, rdB t a =
      if p.pa ≤ a ∧ a < p.pa + 8 then BitVec.ofNat 8 ((rdN s1 p.pa 8 + y.sigv.toNat) % 2 ^ 64 / 256 ^ (a - p.pa)) else rdB s1 a) ∧
  (∀ (s : State) (d id : Nat) (y : Grid), s.grid? d id = some y → y.jobs = [] → gridOver s d y = false → exec (.gridComplete d id) s = .next s)

namespace Sys2Proof.Machine

/-- A rotation of core `k` has begun. -/
def Rotated (s t : State) (d k : Nat) : Prop :=
  (t.core d k).rotWant = false ∧ (t.core d k).lastRot = s.cycOf d k ∧ (t.core d k).rotNo = (s.core d k).rotNo + 1 ∧ t.mem = s.mem

/-- The workgroup `w` is asked to leave, by the last rotation of its core. -/
def Victim (t : State) (d k w : Nat) : Prop := w ∈ (t.die d).preWant ∧ ∀ g, t.wg? d w = some g → g.outRot = (t.core d k).rotNo

end Sys2Proof.Machine

/-- O43. The former and the rotation (R194, R195, R210, R404, R433): a bin ripens; a ripe bin starts a warp of its oldest records in a free slot; where no slot is
free the warp parked longest is asked to leave; a rotation, which is due every 2^20 cycles of the core while a workgroup waits, or at once when the core is fenced, asks its victims to leave and marks
them as the last ones; a workgroup that was swapped out by an earlier rotation comes in before one that has not run, and that before one of this rotation. -/
def Obligations.FormerAndRotation : Prop :=
  (∀ (s : State) (d k w n : Nat) (g : Wg) (b : Bin), s.wg? d w = some g → g.core = k → g.bins[n]? = some b → b.last + 1024 ≤ s.cycOf d k →
    ∃ t g', exec (.binRipe d k w n) s = .next t ∧ t.wg? d w = some g' ∧ g'.bins[n]? = some { b with ripe := true }) ∧
  (∀ (s s1 : State) (d k w i : Nat) (g : Wg) (b : Bin) (ts : List Thr) (flt : Option FaultRec), s.wg? d w = some g → g.core = k → g.resident = true →
    freeSlot g = some i → ripeBin g = some b → readRecs { die := d, core := some k, l1 := true, holds := g.fwalk, who := .former d w } k ((b.recs.take 32).map (·.2)) s [] none = .ok (s1, ts, flt) →
    ∃ t g' x, exec (.formerStartWarp d k w) s = .next t ∧ t.wg? d w = some g' ∧ Tab.get? g'.warps i = some x ∧ x.s0.occ = true ∧ x.s0.pc = b.pc ∧
      x.s0.am = maskOf (List.range ts.length) ∧ x.s0.lcnt = b.lcnt ∧ x.s0.turn = b.turn ∧ x.s0.rsz = b.rsz ∧ x.s0.parentid = 0xFFFFFFFE ∧
      x.s1.occ = false ∧ ∀ j v, ts[j]? = some v → x.thread j = v) ∧
  (∀ (s : State) (d k w : Nat) (g : Wg) (e : Nat × Warp), s.wg? d w = some g → g.core = k → g.resident = true → freeSlot g = none →
    (∃ b ∈ g.bins, b.recs ≠ []) → (∀ x ∈ g.warps, x.2.preW = false ∧ x.2.entered = false) → g.preReq = false →
    (sortBy (fun (a b : Nat × Warp) => decide (a.2.parkedAt < b.2.parkedAt)) (g.warps.filter (fun x => barParked x.2))).head? = some e →
    ∃ t g' x, exec (.formerSwapOut d k w) s = .next t ∧ t.wg? d w = some g' ∧ Tab.get? g'.warps e.1 = some x ∧ x.preW = true) ∧
  (∀ (s : State) (d k : Nat), d < s.dies.length → (s.core d k).rotWant = true →
    ∃ t, exec (.rotation d k) s = .next t ∧ Rotated s t d k ∧ ∀ e ∈ residents s d k, e.2.preReq = false → Victim t d k e.1) ∧
  (∀ (s : State) (d k : Nat) (e : Nat × Wg), d < s.dies.length → (s.core d k).rotWant = false → (incoming s d k ≠ [] ∨ coreStuck (residents s d k) = true) →
    (s.core d k).lastRot + 2 ^ 20 ≤ s.cycOf d k → (sortBy victimLt ((residents s d k).filter (fun x => !x.2.preReq))).head? = some e →
    ∃ t, exec (.rotation d k) s = .next t ∧ Rotated s t d k ∧ Victim t d k e.1) ∧
  (∀ (s : State) (d k w : Nat) (g : Wg) (rest : List (Nat × Wg)), (s.core d k).rotWant = false → s.cycOf d k < (s.core d k).lastRot + 2 ^ 20 →
    incoming s d k = (w, g) :: rest → g.started = false → exec (.rotation d k) s = .next (startWg s d w)) ∧
  (∀ (rot : Nat) (a b : Nat × Wg), rotClass rot a.2 < rotClass rot b.2 → incomingLt rot a b = true ∧ incomingLt rot b a = false)

namespace Sys2Proof.Machine

/-- The uniform words of control flow, order, queues, commands, scheduling, the solve region, the pulp unit and the system, with the guard and the operands they read
(R215, R282, R299, R307, R308, R346, R367, R405, R435). -/
def uniForm : Instr → Option (Hdr × List Opd)
  | .bru h _ => some (h, [])
  | .jmp h a => some (h, [a])
  | .call h _ => some (h, [])
  | .calli h a => some (h, [a])
  | .loop h _ cnt => some (h, [cnt])
  | .brl h _ => some (h, [])
  | .rgn h => some (h, [])
  | .wrs h _ src => some (h, [src])
  | .fence h _ _ => some (h, [])
  | .ntdrain h => some (h, [])
  | .cmntWb h a b => some (h, [a, b])
  | .cmntInv h a b => some (h, [a, b])
  | .cmntWbi h a b => some (h, [a, b])
  | .waita h _ _ _ _ a b => some (h, [a, b])
  | .htest h _ _ => some (h, [])
  | .hcan h _ => some (h, [])
  | .qbind h _ a b => some (h, [a, b])
  | .qlen h _ _ => some (h, [])
  | .send h _ a => some (h, [a])
  | .recv h _ a => some (h, [a])
  | .slvb h _ _ a b => some (h, [a, b])
  | .slvx h => some (h, [])
  | .acq h => some (h, [])
  | .rel h => some (h, [])
  | .bar h _ => some (h, [])
  | .fetchIdx h _ _ => some (h, [])
  | .fetchTask h flt _ _ => some (h, flt.toList)
  | .deviceSideLaunch h _ a => some (h, [a])
  | .join h _ _ => some (h, [])
  | .trel h _ a => some (h, [a])
  | .tabn h _ a => some (h, [a])
  | .trap h _ => some (h, [])
  | .tret h => some (h, [])
  | .tretTo h a => some (h, [a])
  | .tretCtx h a => some (h, [a])
  | .tmskM h => some (h, [])
  | .tmskU h => some (h, [])
  | .brk h _ => some (h, [])
  | .pmskD h => some (h, [])
  | .pmskA h => some (h, [])
  | .evnt h a _ => some (h, [a])
  | .ldskH h _ m => some (h, memOpds m)
  | .sgenK h _ _ _ a => some (h, [a])
  | .sgenQ h _ _ _ _ => some (h, [])
  | .slen h _ _ b => some (h, [b])
  | .scnt h d _ b => some (h, if d.isK || d.isW then [b] else [])
  | .scntr h _ _ => some (h, [])
  | .smovTs h _ _ b => some (h, [b])
  | .smovFs h _ _ b => some (h, [b])
  | .smovSt h _ _ => some (h, [])
  | i => ((cmdRowOf i).map (fun r => (r.h, r.os))).orElse (fun _ => (zRowOf i).map (fun r => (r.h, [])))

/-- The words that act for each acting thread, or once for the warp: memory, directory and key words, with the guard, whether the word is uniform, and the operands that it may not
find pending (R214, R215). -/
def actForm (s : State) (c : Ctx) (i : Instr) : Option (Hdr × Bool × List Opd) :=
  (((memRowOf s c i).map (fun r => (r.h, r.uni, r.pend))).orElse (fun _ => (dirRowOf i).map (fun r => (r.h, r.uni, [r.a])))).orElse
    (fun _ => (keyRowOf i).map (fun r => (r.h, r.d.isK, r.srcs.map (·.o))))

/-- The address to which a `tret` returns: `epc` of `trapcause` (R414). -/
def Frag.epc (p : Frag) : W64 := BitVec.ofNat 64 (bitsOf p.trapcause.toNat 10 54 * 8)

/-- The die that a warp in the pre-emption handler sees: its slots are empty but S0, which starts at `pc` with every live thread, traps masked and
pre-emption deferred (R421). -/
def HandlerStart (w : Warp) (x : Warp) (pc : W64) : Prop :=
  x.s0.occ = true ∧ x.s0.pc = pc ∧ x.s0.am = w.liveMask ∧ x.s0.sm = 0 ∧ x.s0.masked = true ∧ x.s0.pdef = true ∧ x.s0.sys = true ∧
    x.s0.trapcause = causeWord 0x28 0 false true ∧ x.s0.trapinfo = 0 ∧ x.s1.occ = false ∧ x.entered = true

/-- Pre-emption handler entry is due for a warp: it is asked to leave, has not entered, and its slots have stopped with their accesses complete,
those of its engine instructions among them (R139, R378, R420). -/
def MayEnter (s : State) (f : FragRef) (g : Wg) (w : Warp) : Prop :=
  s.wgOf? f = some g ∧ s.warp? f = some w ∧ g.resident = true ∧ (g.preReq = true ∨ w.preW = true) ∧ w.entered = false ∧ w.swapped = false ∧
    slotStopped s w.s0 = true ∧ slotStopped s w.s1 = true ∧ engOut s f = false ∧ (s.core f.die f.core).calQ.contains f.wg = false ∧
    (s.die f.die).halt = false

/-- The agent that writes the blocks of a warp. -/
def saver (d k : Nat) (g : Wg) (x : Warp) : Agent := { die := d, core := some k, l1 := true, holds := g.fwalk, who := .frag x.wuid 0 }

/-- What the bytes of a workgroup block give back of the allotment and the barriers (R208, R426). -/
def Reloaded (b : List Byte) (g g' : Wg) : Prop :=
  g'.fullHeld = bitAt (fieldAt b 352 8) 0 ∧ g'.acqPend = bitAt (fieldAt b 352 8) 4 ∧ g'.nwin = bitsOf (fieldAt b 352 8) 5 3 ∧
    g'.bands = BitVec.ofNat 16 (bitsOf (fieldAt b 352 8) 8 16) ∧ g'.splen = 1024 * (if bitAt (fieldAt b 352 8) 0 = true then g.full else g.prol) ∧
    ∀ i, i < 4 → (g'.bar i).arrived = (g.bar i).arrived.take (fieldAt b (361 + 2 * i) 1) ∧
      (fieldAt b (361 + 2 * i) 1 ≠ 0 → (g'.bar i).inst = (g.bar i).inst / 256 * 256 + fieldAt b (360 + 2 * i) 1)

end Sys2Proof.Machine

/-- O44. A uniform word whose k guard fails, and a memory, directory or key word for which no thread acts, does nothing: it advances, and takes the lane for one cycle (R214, R215). That a
word which is a marker whatever its `sw` bit does not wait for results where its guard fails is the model's choice (log entry 102). -/
def Obligations.UniformWordsSkip : Prop :=
  (∀ (i : Instr) (h : Hdr) (os : List Opd) (s : State) (c : Ctx), uniForm i = some (h, os) → UniSkips h os s c →
    exec i s = .next (finish s c.f 1)) ∧
  (∀ (i : Instr) (h : Hdr) (uni : Bool) (os : List Opd) (s : State) (c : Ctx), actForm s c i = some (h, uni, os) →
    Begins h.sw (kRegs (guardOpd h :: os)) s c → memThreads c h uni = [] → Clean c h uni [] [] → exec i s = .next (finish s c.f 1)) ∧
  (∀ (i : Instr) (s : State) (c : Ctx) (r : CollRow), collOf i = some r → r.d.isK = true → UniSkips r.h (r.srcs.map (·.o)) s c →
    exec i s = .next (finish s c.f 1))

/-- O45. Trap entry (R416, R419): it writes `trapcause` and `trapinfo`, marks the fragment in handler with traps masked, ends the replay mask of a handler it left unmasked, and goes
on at the trap vector with the active mask, the suspended set, the window and every register unchanged; the sibling slot and every other warp stay as they were. That a watchdog trap which is due then is kept until traps are unmasked is the model's choice
(log entry 101). -/
def Obligations.TrapEntry : Prop :=
  ∀ (s : State) (f : FragRef) (c : Ctx) (cause : Nat) (info epc : W64) (nr prc : Bool), ctxOf s f = some c → c.p.masked = false →
    ∀ t, t = takeTrap s f cause info epc nr prc →
      t.frag? f = some { c.p with trapcause := causeWord cause epc nr prc, trapinfo := info, inH := true, masked := true, pc := c.g.trapv
                                  wait := .none, kept := .none, fault := none, wdt := none, relOf := none, iword := none, rplOn := c.p.rplOn && !c.p.inH
                                  wdHeld := if cause = 0x18 then none else c.p.wdt.or c.p.wdHeld
                                  wdc := if cause = 0x18 then 0 else c.p.wdc } ∧
      (∀ j r, wVal t f j r = wVal s f j r) ∧ (∀ j, (t.warp? f).map (fun w => w.thread j) = some (c.w.thread j)) ∧
      (∀ i, kVal t f i = kVal s f i) ∧
      t.frag? (sibOf f) = s.frag? (sibOf f) ∧
      (∀ g, (g.die, g.wg, g.warp) ≠ (f.die, f.wg, f.warp) → t.warp? g = s.warp? g ∧ t.frag? g = s.frag? g) ∧ t.mem = s.mem

/-- O46. The trap words and the system words (R428, R429, R435, R436). A double trap (R417): beside a live sibling that waits at no join, the fragment's threads, active and suspended, end, its slot empties, and a double-trap
record with cause, `trapinfo` and epc goes to the event ring; the sibling goes on. -/
def Obligations.TrapAndSystemWords : Prop :=
  (∀ (h : Hdr) (n : BitVec 16) (s : State) (c : Ctx), UniRuns h [] s c →
    (c.p.masked = false → ∃ t, exec (.trap h n) s = .next t ∧ Trapped t c 0x20 (n.zeroExtend 64) (c.p.pc + 8) false true) ∧
    ((s.die c.f.die).bkh = false → c.p.masked = false →
      ∃ t, exec (.brk h n) s = .next t ∧ Trapped t c 0x19 (n.zeroExtend 64) (c.p.pc + 8) false true) ∧
    ((s.die c.f.die).bkh = true → ∃ t, exec (.brk h n) s = .next t ∧ Done t c ∧ (t.die c.f.die).halt = true)) ∧
  (∀ (h : Hdr) (s : State) (c : Ctx), UniRuns h [] s c →
    (c.p.inH = false → c.p.masked = false → ∃ t, exec (.tret h) s = .next t ∧ Trapped t c 5 s.word c.p.pc false true) ∧
    (c.p.inH = true → ∃ t, exec (.tret h) s = .next t ∧ t.frag? c.f =
      some { c.p with inH := false, masked := false, wait := .none, kept := .none, iword := none, seq := c.p.seq + 1, pc := c.p.epc })) ∧
  (∀ (h : Hdr) (a : Opd) (s : State) (c : Ctx), UniRuns h [a] s c →
    (c.p.inH = false → c.p.masked = false → ∃ t, exec (.tretTo h a) s = .next t ∧ Trapped t c 5 s.word c.p.pc false true) ∧
    (c.p.inH = true → kNat s c a % 8 ≠ 0 → c.p.masked = false →
      ∃ t, exec (.tretTo h a) s = .next t ∧ Trapped t c 4 (BitVec.ofNat 64 (kNat s c a)) c.p.pc false true) ∧
    (c.p.inH = true → kNat s c a % 8 = 0 → ∃ t, exec (.tretTo h a) s = .next t ∧ t.frag? c.f =
      some { c.p with inH := false, masked := false, wait := .none, kept := .none, iword := none, seq := c.p.seq + 1, rplOn := false, rpl := 0
                      pc := BitVec.ofNat 64 (bitsOf (kNat s c a) 3 54 * 8) })) ∧
  (∀ (h : Hdr) (s : State) (c : Ctx), UniRuns h [] s c →
    (∃ t, exec (.tmskM h) s = .next t ∧ t.frag? c.f = some ({ c.p with masked := true }.goesOn (c.p.pc + 8))) ∧
    (∃ t, exec (.tmskU h) s = .next t ∧ t.frag? c.f = some ({ c.p with masked := false }.goesOn (c.p.pc + 8))) ∧
    (∃ t, exec (.pmskD h) s = .next t ∧ t.frag? c.f = some ({ c.p with pdef := true }.goesOn (c.p.pc + 8))) ∧
    (∃ t, exec (.pmskA h) s = .next t ∧ t.frag? c.f = some ({ c.p with pdef := false }.goesOn (c.p.pc + 8)))) ∧
  (∀ (h : Hdr) (a : Opd) (n : BitVec 16) (s : State) (c : Ctx), UniRuns h [a] s c →
    ∃ t, exec (.evnt h a n) s = .next t ∧ Done t c ∧ (t.die c.f.die).evPend = (s.die c.f.die).evPend ++
      [evRecord 6 c.f.die c.f.core (c.f.warp % 16) 0xFF n.toNat 0 c.g.wgid (BitVec.ofNat 64 (kNat s c a)) 0 (s.cycOf c.f.die c.f.core)]) ∧
  (∀ (s : State) (f : FragRef) (c : Ctx) (cause : Nat) (info epc : W64) (nr prc : Bool), ctxOf s f = some c → c.p.masked = true →
    c.w.task = none → (c.w.slot (!f.s1)).occ = true → (c.w.slot (!f.s1)).wait ≠ .jn →
    ∀ t, t = takeTrap s f cause info epc nr prc →
      t.frag? f = none ∧ t.frag? (sibOf f) = some (c.w.slot (!f.s1)) ∧ t.mem = s.mem ∧
      (∃ w, t.warp? f = some w ∧ ∀ j, j < c.w.thr.length →
        (w.thread j).live = ((c.w.thread j).live && !(c.p.am ||| c.p.sm).getLsbD j)) ∧
      (t.die f.die).evPend = (s.die f.die).evPend ++ [evRecord 3 f.die f.core (f.warp % 16) 0xFF cause 0 c.g.wgid info epc (s.cycOf f.die f.core)])

/-- O47. The watchdog, pre-emption and halts (R209, R420 to R424, R428, R429): the watchdog trap names the branch; a due request stops its workgroup; a stopped warp
writes its blocks and starts at the handler, the lowest one last; an overdue entry is reported once, and not while the die is halted; PRECMD asks
every resident workgroup; DBGCTL halts and resumes a die, and a halted one enters no handler. That the lowest warp comes last is the model's choice (log entry 58), and so is that an overdue
entry is not reported while the die is halted (log entry 99); an area other than the slot's own, where a warp that left the slot is still saved there, is too (log entry 87). -/
def Obligations.WatchdogAndPreemption : Prop :=
  (∀ (s : State) (f : FragRef) (c : Ctx) (br : W64), ctxOf s f = some c → c.p.wdDue = some br → c.g.resident = true → c.p.stopped = false →
    (s.die f.die).halt = false → c.p.wait.parked = false → c.p.masked = false →
    ∃ t, exec (.watchdogTrap f) s = .next t ∧ Trapped t c 0x18 br c.p.pc false true ∧ (t.frag? f).map (·.wdc) = some 0) ∧
  (∀ (s : State) (d k w : Nat) (g : Wg), s.wg? d w = some g → g.core = k → w ∈ (s.die d).preWant → g.resident = true → g.exited = false →
    g.preReq = false →
    ∃ t, exec (.preemptionRequest d k w) s = .next t ∧ t.wg? d w = some { g with preReq := true, preAt := s.cycOf d k, preOver := false } ∧
      w ∉ (t.die d).preWant) ∧
  (∀ (s s1 s2 : State) (d k w i : Nat) (f : FragRef) (g : Wg) (x x1 : Warp), f = ⟨d, k, w, i, false⟩ → MayEnter s f g x →
    ¬ (g.preReq = true ∧ ∀ e ∈ g.warps, i ≤ e.1) →
    (idxWhere 32 (fun j => (x.thread j).live)).foldlM (fun (s : State) (j : Nat) => spillOld s f j 1) s = .ok s1 → s1.warp? f = some x1 →
    vwrite s1 (saver d k g x) (warpArea s d g (saveArea g i)).toNat (warpBytes x1) = .ok s2 → s2.warp? f = some x1 →
    ∃ t y, exec (.preemptionHandlerEntry d k w i) s = .next t ∧ t.mem = s2.mem ∧ t.warp? f = some y ∧
      HandlerStart x1 y (s2.die d).vec ∧ y.readK 31 = warpArea s d g (saveArea g i) ∧ y.area = saveArea g i ∧ y.sv0 = x1.s0 ∧ y.sv1 = x1.s1) ∧
  (∀ (s s1 s2 s3 : State) (d k w i : Nat) (f : FragRef) (g : Wg) (x x1 : Warp), f = ⟨d, k, w, i, false⟩ → MayEnter s f g x →
    g.preReq = true → (∀ e ∈ g.warps, i ≤ e.1 ∧ (e.1 ≠ i → e.2.entered = true ∨ e.2.swapped = true)) →
    (idxWhere 32 (fun j => (x.thread j).live)).foldlM (fun (s : State) (j : Nat) => spillOld s f j 1) s = .ok s1 → s1.warp? f = some x1 →
    vwrite s1 (saver d k g x) (warpArea s d g (saveArea g i)).toNat (warpBytes x1) = .ok s2 →
    vwrite s2 (saver d k g x) (wgArea s2 d g) (wgBytes g) = .ok s3 → s3.warp? f = some x1 →
    ∃ t y g', exec (.preemptionHandlerEntry d k w i) s = .next t ∧ t.mem = s3.mem ∧ t.warp? f = some y ∧ HandlerStart x1 y (s3.die d).vec ∧
      t.wg? d w = some g' ∧ g'.preReq = false) ∧
  (∀ (s : State) (d k w : Nat) (g : Wg), s.wg? d w = some g → g.core = k → g.preReq = true → g.preOver = false →
    (s.die d).halt = false → g.preAt + (s.die d).dl.toNat ≤ s.cycOf d k →
    ∃ t, exec (.preemptionOverdue d k w) s = .next t ∧ t.wg? d w = some { g with preOver := true } ∧
      (t.die d).evPend = (s.die d).evPend ++ [evRecord 4 d k 0xFF 0xFF 0 0 g.wgid ((s.die d).dl.zeroExtend 64) 0 (s.cyc d)]) ∧
  (∀ (s : State) (d k w : Nat), (s.die d).halt = true → exec (.preemptionOverdue d k w) s = .next s ∧ ∀ i, exec (.preemptionHandlerEntry d k w i) s = .next s) ∧
  (∀ (s : State) (d : Nat), d < s.dies.length →
    (∃ t, exec (.precmdAll d) s = .next t ∧
      ∀ e ∈ (s.die d).wgs, e.2.resident = true → e.2.exited = false → e.1 ∈ (t.die d).preWant) ∧
    (∃ t, exec (.debugHalt d) s = .next t ∧ (t.die d).halt = true) ∧
    (∃ t, exec (.debugResume d) s = .next t ∧ (t.die d).halt = false))

/-- O48. Restore (R139, R421, R425, R426, R436): a workgroup that may come in is resident again with the queues, `slvk`, `slvnorm`, region, allotment and barriers of its block, its pending request for an allotment queued again, each of its
warps at the restore entry; `tret.ctx` reloads both slots and the warp's fields from a slot block, and leaves system mode. Which fragments have arrived at a barrier comes from the workgroup as it left, and which bytes of the block say so is the
model's choice (log entry 58); what a slot block does not hold comes from the slot as it stopped (log entry 14). -/
def Obligations.RestoreAndResume : Prop :=
  (∀ (s s1 : State) (d k w : Nat) (g : Wg) (b : List Byte) (po : Bool), s.wg? d w = some g → mayRestore s d k w g = true → (s.die d).halt = false →
    vread s { die := d, core := some k, holds := g.fwalk, who := .former d w } (wgArea s d g) 368 = .ok (s1, b, po) → s1.wg? d w = some g →
    ∃ t g', exec (.workgroupRestore d k w) s = .next t ∧ t.wg? d w = some g' ∧ t.mem = s1.mem ∧ g'.resident = true ∧ g'.core = k ∧ Reloaded b g g' ∧
      (bitAt (fieldAt b 352 8) 4 = true → w ∈ (t.core d k).acqQ) ∧
      g'.slvk = BitVec.ofNat 64 (fieldAt b 336 8) ∧ g'.slvnorm = BitVec.ofNat 64 (fieldAt b 344 8) ∧
      g'.slv.opened = (fieldAt b 320 1 == 1) ∧ g'.slv.tau = BitVec.ofNat 64 (fieldAt b 328 8) ∧ g'.slv.desc = bytesAt b 256 64 ∧
      (∀ i, i < 16 → (g'.queue i).port = fieldAt b (16 * i) 1 ∧ (g'.queue i).ring = fieldAt b (16 * i + 4) 4 ∧
        (g'.queue i).head = fieldAt b (16 * i + 8) 4 ∧ (g'.queue i).tail = fieldAt b (16 * i + 12) 4) ∧
      ∀ e ∈ g.warps, ∃ x, Tab.get? g'.warps e.1 = some x ∧ ∃ e' ∈ g.warps, e'.1 = e.1 ∧ HandlerStart e'.2 x ((s1.die d).vec + 8)) ∧
  (∀ (h : Hdr) (a : Opd) (s s1 : State) (c : Ctx) (b : List Byte) (po : Bool), UniRuns h [a] s c →
    (c.p.sys = false → c.p.masked = false → ∃ t, exec (.tretCtx h a) s = .next t ∧ Trapped t c 5 s.word c.p.pc false true) ∧
    (c.p.sys = true → resultsOut s c.p.uid = false → ownHeld s c.f c.p.uid (kNat s c a) 192 false = false →
      vread s (ownAgent s c.f) (kNat s c a) 192 = .ok (s1, b, po) → s1.warp? c.f = some c.w →
      ∃ t w, exec (.tretCtx h a) s = .next t ∧ t.warp? c.f = some w ∧ t.mem = s1.mem ∧
        w.s0 = slotFrom (bytesAt b 0 80) c.w.sv0 ∧ w.s1 = slotFrom (bytesAt b 80 80) c.w.sv1 ∧ w.s0.sys = false ∧ w.s1.sys = false ∧
        w.srix = BitVec.ofNat 32 (fieldAt b 160 4) ∧ w.fpstat = BitVec.ofNat 5 (fieldAt b 164 1) ∧
        w.spills = BitVec.ofNat 32 (fieldAt b 168 4) ∧ w.fills = BitVec.ofNat 32 (fieldAt b 172 4) ∧
        w.readK 31 = BitVec.ofNat 64 (fieldAt b 176 8) ∧
        w.kpend = (BitVec.ofNat 32 (fieldAt b 184 4) &&& ~~~1) ∧ w.entered = false ∧
        (t.core c.f.die c.f.core).l1 = []))

namespace Sys2Proof.Machine

/-- The queue of a packet: its die and its number. -/
def packetAt : Instr → Option (Nat × Nat)
  | .signal d q _ _ _ _ _ => some (d, q)
  | .waitSignal d q _ _ _ _ _ => some (d, q)
  | .launch d q _ _ _ => some (d, q)
  | .copy d q _ _ _ _ _ _ _ => some (d, q)
  | .pageMove d q _ _ _ _ _ _ _ _ _ => some (d, q)
  | .spaceCreate d q _ _ _ _ => some (d, q)
  | .eventConfig d q _ _ _ _ _ => some (d, q)
  | .nopPacket d q _ _ => some (d, q)
  | _ => none

/-- The packet `i` is in the beat of die `d`, in the lane of queue `q`, and no group of a lower type code is left (R386). -/
def InBeat (s : State) (d q : Nat) (i : Instr) : Prop :=
  (q, i) ∈ ((beatOf s d).die d).beat ∧ ∀ e ∈ ((beatOf s d).die d).beat, packetType i ≤ packetType e.2

/-- The index of the packet that queue `q` parses. -/
def rdOf (s : State) (d q : Nat) : W32 := ((beatOf s d).queue d q).rd

/-- The state once the packet has left its beat, with `rd` past it (R385). -/
def parsed (s : State) (d q : Nat) (i : Instr) : State :=
  ((beatOf s d).modDie d (fun x => { x with beat := x.beat.erase (q, i) })).modQueue d q (fun x => { x with rd := rdOf s d q + 1 })

/-- The packet is open: it has been parsed and has not completed (R387). -/
def LeftOpen (s t : State) (d q : Nat) : Prop :=
  (t.queue d q).outst = ((beatOf s d).queue d q).outst ++ [(rdOf s d q).toNat] ∧ (t.queue d q).rd = rdOf s d q + 1

/-- A command of the beater for the packet has been added. -/
def BeaterCmd (s t : State) (d q : Nat) (tag : W32) (kind : CmdKind) (gcw : Option (W64 × W64)) (st : CmdSt) : Prop :=
  LeftOpen s t d q ∧ ∃ c, t.cmds = (beatOf s d).cmds ++ [c] ∧ c.die = d ∧ c.core = 96 ∧ c.kind = kind ∧ c.gcw = gcw ∧ c.st = st ∧ c.queue = q ∧
    c.tag = tag ∧ c.qrd = rdOf s d q

/-- Queue 63 of die `d` has the launch of its share, beside whose index the share's range stands (R392). -/
def Shared (s u : State) (recs : List W64) (shares : List Byte) (n base : W64) (d : Nat) : Prop :=
  (u.queue d 63).wr = (s.queue d 63).wr + 1 ∧ (s.nextId, d) ∈ u.spanWait ∧
    { rec_ := (recs[d]?).getD 0, ix := (s.queue d 63).wr, span := s.nextId, n := BitVec.ofNat 64 (shareStart shares n (d + 1) - shareStart shares n d)
      base := base + BitVec.ofNat 64 (shareStart shares n d) } ∈ (u.die d).spanQ

/-- A record stands in the event ring of die `d`, in the entry that `wr` named, and MSI-X vector 0 is raised; no other byte changed
(R452). -/
def Posted (s t : State) (d : Nat) (r : List Byte) : Prop :=
  (t.die d).evWr = (s.die d).evWr + 1 ∧ (d, 0) ∈ t.msix ∧
    ∀ a n, n = (s.die d).evBase.toNat + 64 * ((s.die d).evWr.toNat % 2 ^ (s.die d).evLsz.toNat) →
      rdB t a = if n ≤ a then (r[a - n]?).getD (rdB s a) else rdB s a

end Sys2Proof.Machine

/-- O49. Packets of the host queues (R45, R46, R161, R385 to R392, R455, R456): a beat is parsed in order of type code; a signal acts on its word at the home in one act;
a wait blocks its queue, while that is enabled, until its comparison holds at a reading, and one that an atomic's value has satisfied ends; a launch enters the pool; the packet of
the group queue is read from its ring and checked, and a spanning launch puts a launch into queue 63 of each die with a share; a copy and a page move become commands of the beater, which
fail with 0x13 where their completion word is misaligned or out of range; a space is created from a legal descriptor with a number below 16, and removed when nothing holds it; an event ring is
configured. The model's choices are the ending of a met wait (log entry 63), the completion fields that a page move checks with flags 0 (log entry 43), and how the group queue reaches its ring and the
shares (log entry 61). -/
def Obligations.Packets : Prop :=
  (∀ (s : State) (i : Instr) (d q : Nat), packetAt i = some (d, q) →
    ((q, i) ∉ ((beatOf s d).die d).beat ∨ ∃ e ∈ ((beatOf s d).die d).beat, packetType e.2 < packetType i) → exec i s = .next (beatOf s d)) ∧
  (∀ (s : State) (d q : Nat) (bar : Bool) (tag : W32), InBeat s d q (.nopPacket d q bar tag) →
    exec (.nopPacket d q bar tag) s = .next (parsed s d q (.nopPacket d q bar tag))) ∧
  (∀ (s s1 : State) (d q : Nat) (bar : Bool) (tag : W32) (addr val : W64) (ex : Bool) (p : Phys) (i : Instr), i = .signal d q bar tag addr val ex →
    InBeat s d q i → xlat (parsed s d q i) d addr.toNat .at = .ok (s1, p) → reach s1 { die := d } addr.toNat p = none → p.al = false →
    isPois s1 p.pa 8 = false → inHost p.pa = false →
    ∃ t, exec i s = .next t ∧ ∀ a, rdB t a =
      if p.pa ≤ a ∧ a < p.pa + 8 then
        BitVec.ofNat 8 ((if ex then val.toNat else (rdN s1 p.pa 8 + val.toNat) % 2 ^ 64) / 256 ^ (a - p.pa))
      else rdB s1 a) ∧
  (∀ (s s1 : State) (d q v : Nat) (bar : Bool) (tag : W32) (addr val : W64) (cond : BitVec 2) (i : Instr),
    i = .waitSignal d q bar tag addr val cond → InBeat s d q i → vrdN (parsed s d q i) { die := d } addr.toNat 8 = .ok (s1, v) →
    ∃ t, exec i s = .next t ∧ t.mem = s1.mem ∧
      (t.queue d q).blocked = if waitHolds cond v val.toNat = true ∨ ((beatOf s d).queue d q).on = false then none else some ⟨addr, val, cond, tag, rdOf s d q, false⟩) ∧
  (∀ (s s1 : State) (d q v : Nat) (w : WaitSig), (s.queue d q).blocked = some w → w.met = false → vrdN s { die := d } w.addr.toNat 8 = .ok (s1, v) →
    ∃ t, exec (.waitSignalMet d q) s = .next t ∧ t.mem = s1.mem ∧
      (t.queue d q).blocked = if waitHolds w.cond v w.val.toNat = true ∨ (s.queue d q).on = false then none else some w) ∧
  (∀ (s : State) (d q : Nat) (w : WaitSig), d < s.dies.length → (s.queue d q).blocked = some w → w.met = true →
    ∃ t, exec (.waitSignalMet d q) s = .next t ∧ t.mem = s.mem ∧ (t.queue d q).blocked = none) ∧
  (∀ (s : State) (d q : Nat) (bar : Bool) (tag : W32) (r : W64), InBeat s d q (.launch d q bar tag r) →
    ∃ t y, exec (.launch d q bar tag r) s = .next t ∧ LeftOpen s t d q ∧ t.mem = (beatOf s d).mem ∧
      (t.die d).grids = ((beatOf s d).die d).grids ++ [y] ∧ y.grec = r ∧ y.src = .packet q tag (rdOf s d q) ∧ y.dispatched = false ∧ y.wgs = [] ∧
      (q ≠ 63 → y.base? = none ∧ y.span = none) ∧
      ∀ e, q = 63 → ((beatOf s d).die d).spanQ.find? (fun e => e.ix == rdOf s d q) = some e → y.base? = some (e.n, e.base) ∧ y.span = some e.span ∧
        e ∉ (t.die d).spanQ) ∧
  (∀ (s : State) (bar : Bool) (tag : W32) (recs : List W64) (shares : List Byte) (n base : W64) (pa : Nat), s.grp.open_ = true → s.grp.rd ≠ s.grp.wr →
    pa = s.grp.at_ s.grp.rd →
    ((backed pa 64 = false ∨ isPois s pa 64 = true) → exec (.spanLaunch bar tag recs shares n base) s = .next (groupBad s 5)) ∧
    (backed pa 64 = true → isPois s pa 64 = false → groupBusy s pa = false → (bitAt (rdN s (pa + 2) 1) 0 = true → s.grp.outst = []) →
      (∀ code, spanOfPacket (rdBytes s pa 64) = .error code → exec (.spanLaunch bar tag recs shares n base) s = .next (groupBad s code)) ∧
      (spanOfPacket (rdBytes s pa 64) = .ok (.spanLaunch bar tag recs shares n base) →
        (sumN (shares.map (·.toNat)) ≠ 256 → exec (.spanLaunch bar tag recs shares n base) s = .next (groupBad s 0x0B)) ∧
        (∀ u, sumN (shares.map (·.toNat)) = 256 →
          putShares s.nextId recs shares tag n base (shareDies shares) { s with nextId := s.nextId + 1, grp := { s.grp with rd := s.grp.rd + 1 } } = .ok u →
          exec (.spanLaunch bar tag recs shares n base) s = .next u ∧ u.grp.rd = s.grp.rd + 1 ∧
          ∀ d, d ∈ shareDies shares → d < s.dies.length → Shared s u recs shares n base d)))) ∧
  (∀ (s s1 s2 : State) (span d : Nat) (tag : W32) (recs : List W64) (shares : List Byte) (n base : W64), putShare s span recs shares tag n base d = .ok s1 →
    vwrite s { die := d } ((s.queue d 63).at_ (s.queue d 63).wr) (launchBytes tag ((recs[d]?).getD 0)) = .ok s2 → s1.mem = s2.mem) ∧
  (∀ (s : State) (d q : Nat) (bar : Bool) (tag : W32) (dst src len cwa cwv : W64) (i : Instr), i = .copy d q bar tag dst src len cwa cwv →
    InBeat s d q i →
    ∃ t, exec i s = .next t ∧ t.mem = (beatOf s d).mem ∧ BeaterCmd s t d q tag (.bcopy dst.toNat src.toNat len.toNat)
      (if cwa = 0 ∨ cwa.toNat % 8 ≠ 0 then none else some (cwa, cwv))
      (if cwa.toNat % 8 ≠ 0 then .done 0x13 else if overlap dst.toNat len.toNat src.toNat len.toNat then .done 0x16 else .waiting)) ∧
  (∀ (s : State) (d q : Nat) (bar : Bool) (tag : W32) (va dst : W64) (npg : W32) (psz flg : Byte) (cwa cwv : W64) (i : Instr) (bad : Bool),
    i = .pageMove d q bar tag va dst npg psz flg cwa cwv → InBeat s d q i →
    bad = (flg.toNat > 1 || cwa.toNat % 8 != 0 || cwa.toNat ≥ 2 ^ 57 || cwv.getLsbD 63) →
    ∃ t, exec i s = .next t ∧ t.mem = (beatOf s d).mem ∧
      BeaterCmd s t d q tag (.pmove va.toNat dst.toNat npg.toNat psz.toNat) (if flg.getLsbD 0 = true ∧ cwa.toNat % 8 = 0 ∧ cwa.toNat < 2 ^ 57 then some (cwa, cwv) else none)
        (match pmoveCheck (parsed s d q i) d va.toNat dst.toNat npg.toNat psz.toNat bad with
          | .fail st => .done (BitVec.ofNat 64 st)
          | _ => .waiting)) ∧
  (∀ (s s1 : State) (d q : Nat) (bar : Bool) (tag : W32) (desc : W64) (sp : Byte) (b : List Byte) (i : Instr),
    i = .spaceCreate d q bar tag desc sp → sp.toNat < 16 → InBeat s d q i → readDesc (parsed s d q i) d desc.toNat = .ok (s1, some b) →
    (∀ s2, createSpace s1 d sp.toNat b = some s2 → exec i s = .next s2 ∧ ∃ x, Tab.get? s2.spaces sp.toNat = some x ∧
      x.dim = fieldAt b 0 1 ∧ x.home = d ∧ x.home = fieldAt b 3 1 ∧ x.elems = fieldAt b 8 4 ∧ x.slot = fieldAt b 12 4 ∧
      x.parts.length = fieldAt b 4 1 + 1 ∧
      ∀ e ∈ x.recs, e.2.key ∈ treeKeys sp.toNat x.dim (fieldAt b 6 1) 0 0 ∧ (e.2.st = 1 ↔ keyLv e.2.key = fieldAt b 6 1)) ∧
    (createSpace s1 d sp.toNat b = none → exec i s = .next (queueError s1 d q 8 tag (rdOf s d q) 0))) ∧
  (∀ (s : State) (d q : Nat) (bar : Bool) (tag : W32) (sp : Byte) (x : Space), InBeat s d q (.spaceDestroy d q bar tag sp) →
    (∀ r ∈ (s.die d).destroyQ, ¬ (r.queue = q ∧ r.tag = tag ∧ r.sp = sp.toNat)) → Tab.get? (beatOf s d).spaces sp.toNat = some x →
    (spaceIdle x = true → ∃ t, exec (.spaceDestroy d q bar tag sp) s = .next t ∧ Tab.get? t.spaces sp.toNat = none) ∧
    (spaceIdle x = false → ∃ t, exec (.spaceDestroy d q bar tag sp) s = .next t ∧ Tab.get? t.spaces sp.toNat = some x ∧ LeftOpen s t d q ∧
      ⟨sp.toNat, q, tag, rdOf s d q⟩ ∈ (t.die d).destroyQ)) ∧
  (∀ (s : State) (d q : Nat) (bar : Bool) (tag : W32) (base : W64) (lsz : Byte) (mask : BitVec 16), InBeat s d q (.eventConfig d q bar tag base lsz mask) →
    ∃ t, exec (.eventConfig d q bar tag base lsz mask) s = .next t ∧ (t.die d).evEn = true ∧ (t.die d).evBase = base ∧
      (t.die d).evLsz = lsz.truncate 5 ∧ (t.die d).evMsk = mask ||| 0xE ∧ (t.die d).evWr = 0 ∧ (t.die d).evRd = 0 ∧ (t.die d).evPend = [])

/-- O50. The event ring (R451, R452, R454): a masked record is dropped; one that finds room is stored at `wr`, which rises, with MSI-X vector 0; one that finds none
is lost and counted, saturating; an overflow record that is owed is posted when room has freed. -/
def Obligations.EventRing : Prop :=
  (∀ (s : State) (d : Nat) (r : List Byte) (rest : List (List Byte)), (s.die d).evPend = r :: rest → (s.die d).inReset = false →
    ((s.die d).posts r = false →
      ∃ t, exec (.eventRecordPost d) s = .next t ∧ (t.die d).evPend = rest ∧ t.mem = s.mem ∧ (t.die d).evWr = (s.die d).evWr) ∧
    ((s.die d).posts r = true → (s.die d).ringRoom = true → (s.die d).evSince = 0 →
      ∃ t, exec (.eventRecordPost d) s = .next t ∧ (t.die d).evPend = rest ∧ Posted s t d r) ∧
    ((s.die d).posts r = true → (s.die d).ringRoom = false →
      ∃ t, exec (.eventRecordPost d) s = .next t ∧ (t.die d).evPend = rest ∧ t.mem = s.mem ∧ (t.die d).evSince = (s.die d).evSince + 1 ∧
        (t.die d).evLost = if (s.die d).evLost = 0xFFFFFFFF then 0xFFFFFFFF else (s.die d).evLost + 1)) ∧
  (∀ (s : State) (d : Nat), (s.die d).inReset = false → (s.die d).evSince ≠ 0 → (s.die d).ringRoom = true →
    ∃ t, exec (.overflowRecord d) s = .next t ∧ (t.die d).evSince = 0 ∧
      Posted s t d (evRecord 2 d 0xFFFF 0xFF 0xFF 0 0 0 (BitVec.ofNat 64 (s.die d).evSince) 0 (s.cyc d)))

namespace Sys2Proof.Machine

/-- The register block of function `fn` answers: a die that is up, or VX (R463). -/
def FnUp (s : State) (fn : Nat) : Prop := fn = 4 ∨ (fn < 4 ∧ fn < s.dies.length ∧ (s.die fn).inReset = false)

/-- What a write of word 0 leaves in a queue's registers (R384). -/
def Word0Written (x y : HQueue) (en : Bool) (v : W64) : Prop :=
  y.en = en ∧ y.wr = x.wr ∧ y.err = x.err ∧ y.stop = x.stop ∧ y.lsz = x.lsz ∧ (en = false → y.blocked = none) ∧ (en = true → y.blocked = x.blocked) ∧
    (if x.on = true ∨ queueBase v = x.base then y.base = x.base ∧ y.rd = x.rd else y.base = queueBase v ∧ y.rd = 0)

/-- An inbound request has been appended, forwarded or held. -/
def InbAdded (s t : State) (req addr : Nat) (data : List Byte) (rd : Option Nat) (ro sent : Bool) : Prop :=
  t.inb = s.inb ++ [{ id := s.nextId, req := req, addr := addr, data := data, rd := rd, ro := ro, route := inbRoute s addr, sent := sent }]

/-- The index past one in a ring's word modulo 2^64. -/
def next64 (n : Nat) : Nat := (n + 1) % 2 ^ 64

end Sys2Proof.Machine

/-- O51. Registers that the host writes (R5, R52, R58, R93, R383, R384, R393, R428, R433, R451, R455, R458): a doorbell stores `wr`, and reports an overrun; word 0 and word 1 of a queue; the error
bits; TLBINV invalidates and then reads not busy; counters, VERHS and EVPTR; every other register, the crossbar and egress tables and the alias entries read back what their fields hold, and a write of SCHCTL judges every core
anew; an access that is not one of eight aligned bytes is an Unsupported Request. That PGROOT lies at 0x28 (log entry 15) and that an overrun leaves `rd` where it is (log entry 60) are the
model's choices. -/
def Obligations.HostRegisters : Prop :=
  (∀ (s : State) (fn q : Nat) (wr : W32), FnUp s fn → ¬ (fn < 4 ∧ q = 63) →
    ((wr - (hostQueue s fn q).rd).toNat ≤ 2 ^ (hostQueue s fn q).lsz.toNat →
      ∃ t, exec (.queueDoorbell fn q wr) s = .next t ∧ hostQueue t fn q = { hostQueue s fn q with wr := wr }) ∧
    (2 ^ (hostQueue s fn q).lsz.toNat < (wr - (hostQueue s fn q).rd).toNat →
      ∃ t, exec (.queueDoorbell fn q wr) s = .next t ∧ hostQueue t fn q = ({ hostQueue s fn q with wr := wr } : HQueue).error 4)) ∧
  (∀ (s : State) (fn q : Nat) (v : W64), FnUp s fn →
    (∃ t, exec (.queueEnable fn q v) s = .next t ∧ Word0Written (hostQueue s fn q) (hostQueue t fn q) true v) ∧
    (∃ t, exec (.queueDisable fn q v) s = .next t ∧ Word0Written (hostQueue s fn q) (hostQueue t fn q) false v) ∧
    (∃ t, exec (.queueReconfigure fn q 0 v) s = .next t ∧ Word0Written (hostQueue s fn q) (hostQueue t fn q) (v.getLsbD 63) v) ∧
    (∀ w, w ≠ 0 → ∃ t, exec (.queueReconfigure fn q w v) s = .next t ∧ hostQueue t fn q =
      (if (hostQueue s fn q).on = true ∨ v.truncate 5 = (hostQueue s fn q).lsz then hostQueue s fn q
        else { hostQueue s fn q with lsz := v.truncate 5, rd := 0 })) ∧
    (∃ t, exec (.queueErrorClear fn q v) s = .next t ∧ ∃ e, e = (hostQueue s fn q).err &&& ~~~(v.extractLsb' 48 16) ∧
      hostQueue t fn q = { hostQueue s fn q with err := e, stop := (hostQueue s fn q).stop && e != 0 })) ∧
  (∀ (s : State) (d : Nat) (v : W64), d < s.dies.length → d < 4 → (s.die d).inReset = false → (s.die d).tlbinv.getLsbD 0 = false →
    (∃ t, exec (.tlbInvalidate d v) s = .next t ∧ (t.die d).tlbinv = (v &&& 0x01FFFFFFFFFFFF00) ||| 1 ∧ t.mem = s.mem) ∧
    (∃ t, exec (.tlbInvalidateAll d v) s = .next t ∧ (t.die d).tlbinv = (v &&& 0x01FFFFFFFFFFFF00) ||| 3 ∧ t.mem = s.mem)) ∧
  (∀ (s : State) (d : Nat) (v : W64), (s.die d).tlbinv.getLsbD 0 = true →
    exec (.tlbInvalidate d v) s = .next s ∧ exec (.tlbInvalidateAll d v) s = .next s ∧
    ∃ t, exec (.tlbInvalidateDone d) s = .next t ∧ (t.die d).tlbinv = (s.die d).tlbinv &&& 0xFFFFFFFFFFFFFFFE ∧ t.mem = s.mem ∧
      (∀ k, (t.core d k).tlb = (s.core d k).tlb.filter (fun e => !tlbNamed (s.die d).tlbinv e)) ∧
      ∀ k, (t.cluster d k).walkc = [] ∧ (t.cluster d k).tlb2 = (s.cluster d k).tlb2.filter (fun e => !tlbNamed (s.die d).tlbinv e)) ∧
  (∀ (s : State) (i n : Nat) (v : W64), i < s.stks.length →
    ∃ t, exec (.nearMemoryCounterWrite i n v) s = .next t ∧ t.mem = s.mem ∧
      ∀ j m, Tab.getD (t.stk j).counters m 0 = if j = i ∧ m = n then v else Tab.getD (s.stk j).counters m 0) ∧
  (∀ (s : State) (d : Nat) (req : Byte), d < 4 → d < s.dies.length → (s.die d).inReset = false →
    ∃ t, exec (.versionHandshake d req) s = .next t ∧ (t.die d).vreq = req ∧ ∀ hi lo, hi = bitsOf (s.die d).rev.toNat 24 8 →
      lo = bitsOf (s.die d).rev.toNat 16 8 → (t.die d).vans.toNat = if lo ≤ min req.toNat hi then min req.toNat hi else 0) ∧
  (∀ (s : State) (d : Nat) (rd : W32), d < 4 → d < s.dies.length → (s.die d).inReset = false →
    ∃ t, exec (.eventRingConsume d rd) s = .next t ∧ t.die d = { s.die d with evRd := rd }) ∧
  (∀ (s : State) (fn off : Nat) (v : W64), fn < 4 → fn < s.dies.length → (s.die fn).inReset = false → off % 8 = 0 →
    ∃ t, exec (.registerWrite ⟨fn, off, v, 8⟩) s = .next t ∧ t.mem = s.mem ∧
      (off = 0x20 → regRead t fn off = v &&& 0xF) ∧ (off = 0x28 → regRead t fn off = v &&& 0x000FFFFFFFFFF001) ∧
      (off = 0x40 → regRead t fn off = v) ∧ (off = 0x60 → regRead t fn off = v &&& 0x0000FFFFFFFFFF03) ∧
      (off = 0x70 → regRead t fn off = v &&& 0x01FFFFFFFFFFFFF8) ∧ (off = 0x78 → regRead t fn off = v &&& 0x0000FFFFFFFFFFFF) ∧
      (off = 0x88 → regRead t fn off = v &&& 0x0000FFFFFFFFFFFF) ∧ (off = 0x90 → regRead t fn off = v &&& 0xFFFF0001) ∧
      (off = 0x110 → regRead t fn off = v &&& 0xFFFFFFFF) ∧ (off = 0x118 → regRead t fn off = (v &&& 0xFFFF) ||| 0xE) ∧
      (off = 0x60 → ∀ k, (t.core fn k).hot = hotNow (v &&& 0x0000FFFFFFFFFF03) (s.core fn k)) ∧
      (off = 0x80 → regRead t fn off = (v &&& 5) ||| (if debugHalted (t.die fn) then 2 else 0)) ∧
      (off = 0x98 → regRead t fn off = word64 [(32, v.toNat / 2 ^ 32), (0, fencedLanes (s.die fn))]) ∧
      (off = 0x100 → regRead t fn off = (v &&& 0x000FFFFFFFFFFFDF) |||
        (if v.getLsbD 63 = true ∧ ringOk (v &&& 0x000FFFFFFFFFFFC0).toNat (v.toNat % 32) = true then 0x8000000000000000 else 0)) ∧
      (0x8000 ≤ off → off < 0xA000 → regRead t fn off = v) ∧ (0xA000 ≤ off → off < 0x10000 → regRead t fn off = v &&& 0x83FF) ∧
      (off ∈ [0x00, 0x08, 0x10, 0x18] → t.die fn = s.die fn)) ∧
  (∀ (s : State) (st i : Nat) (v : W64), st < 8 → st < s.stks.length → i < 64 →
    ∃ t, exec (.registerWrite ⟨4, 0x10000 * (st + 1) + 0x1000 + 8 * i, v, 8⟩) s = .next t ∧ t.mem = s.mem ∧
      regRead t 4 (0x10000 * (st + 1) + 0x1000 + 8 * i) =
        if i % 4 = 0 ∧ 5 ≤ bitsOf v.toNat 52 4 then v &&& 0x00FFFFFFFFFF0000 else v &&& aliasMask (i % 4)) ∧
  (∀ (s : State) (i : Nat) (v : W64), i < 12 → i < s.ports.length →
    ∃ t, exec (.registerWrite ⟨4, 0x4000 + 8 * i, v, 8⟩) s = .next t ∧ t.mem = s.mem ∧
      t.port i = { s.port i with crc := v.extractLsb' 48 16, rply := v.extractLsb' 32 16 }) ∧
  (∀ (s : State) (fn off n : Nat) (v : W64), off % 8 ≠ 0 ∨ n ≠ 8 →
    exec (.registerWrite ⟨fn, off, v, n⟩) s = .next { s with aer := s.aer + 1 } ∧ hostRead s fn off n = none)

namespace Sys2Proof.Machine

/-- A port grants `f`: a flit at the head of an input that requests it, and of those the one whose input it granted least recently (R457). -/
def GrantsOldest (x : Die) (p : Nat) (f : McFlit) : Prop :=
  f ∈ x.heads ∧ f.mask.getLsbD p = true ∧ ∀ h ∈ x.heads, h.mask.getLsbD p = true → x.grants.idxOf (p, h.inp) ≤ x.grants.idxOf (p, f.inp)

/-- The copy of `f` that port `p` of die `d` takes has arrived at the die's own agents, or on die `far` behind link `l` (R458). -/
def Arrived (s t : State) (d p : Nat) (f : McFlit) : Prop :=
  (t.die d).mcGot = (if dirPort d = p then (s.die d).mcGot ++ [(f.sp, f.inst)] else (s.die d).mcGot) ∧
  ∀ l far, l < 3 → far = farDie d l → linkPort d l = p → far < s.dies.length → ∀ e, e = Tab.getD (s.die d).egress (1024 * l + f.grp) 0 →
    (e.getLsbD 15 = false → (t.die far).mcast = (s.die far).mcast) ∧
    (e.getLsbD 15 = true → ∀ m, m = Tab.getD (s.die far).xbar (bitsOf e.toNat 0 10) 0 →
      (t.die far).mcast = if m = 0 then (s.die far).mcast
        else (s.die far).mcast ++ [⟨linkPort far (linkTo far d), bitsOf e.toNat 0 10, m, f.sp, f.inst⟩])

end Sys2Proof.Machine

/-- O52. Inbound requests and the fabric (R160, R445, R448, R449, R457 to R462, R464): a posted write to unbacked memory is dropped and counted, a read of it completes with Unsupported
Request status, and a write that may not pass an earlier one of its requester on another route is held; at its home a write stores its data, and a read completes with the bytes; a crosspoint takes its
copy of the flit that its port grants, once, which arrives at the die's agents or on the far die; training agrees on 1.0 or fails, and either way each die gets a port-change record; flits and
slots move the rings; a port sends the flits again that the far end asks for; an attestation request leaves the signed report for the host to read. That a flit which fails its check counts in both
counters, that training takes one turn and the order of the CRC's bits (log entry 68), the layout of the report (log entry 16) and its window (log entry 111) and the die behind each link (log entry 110) are the
model's choices. -/
def Obligations.FabricEvents : Prop :=
  (∀ (s : State) (req addr : Nat) (data : List Byte) (ro : Bool), data ≠ [] →
    (backed addr data.length = false → exec (.inboundPostedWrite req addr data ro) s = .next { s with aer := s.aer + 1 }) ∧
    (∀ n, n ≠ 0 → backed addr n = false → exec (.inboundRead req addr n) s = .next { s with cpls := ⟨req, addr, none⟩ :: s.cpls }) ∧
    (backed addr data.length = true → (s.inb.filter (fun b => b.rd.isNone)).length < 4096 →
      ((ro = true ∨ ∀ x ∈ s.inb, x.req = req → x.rd = none → x.ro = true ∨ (x.route = inbRoute s addr ∧ x.sent = true)) →
        ∃ t, exec (.inboundPostedWrite req addr data ro) s = .next t ∧ t.mem = s.mem ∧ InbAdded s t req addr data none ro true) ∧
      (ro = false → (∀ x ∈ s.inb, x.id ≠ s.nextId) → (∃ x ∈ s.inb, x.req = req ∧ x.rd = none ∧ x.ro = false ∧ x.route ≠ inbRoute s addr) →
        ∃ t, exec (.inboundPostedWrite req addr data ro) s = .next t ∧ t.mem = s.mem ∧ InbAdded s t req addr data none ro false))) ∧
  (∀ (s : State) (req addr n : Nat), n ≠ 0 → backed addr n = true → (∀ x ∈ s.inb, x.id ≠ s.nextId) →
    ∃ t, exec (.inboundRead req addr n) s = .next t ∧ t.mem = s.mem ∧
      InbAdded s t req addr [] (some n) false (s.inb.all (fun x => !(x.req == req && x.rd.isNone)))) ∧
  (∀ (s : State) (b : Inb), s.inb.find? (fun x => x.id == b.id) = some b → b.sent = false → inbMay s { b with route := inbRoute s b.addr } = true →
    ∃ t, exec (.orderingPointForward b.id) s = .next t ∧ t.mem = s.mem ∧
      t.inb.find? (fun x => x.id == b.id) = some { b with route := inbRoute s b.addr, sent := true }) ∧
  (∀ (s : State) (b : Inb), s.acc? b.id = none → s.inb.find? (fun x => x.id == b.id) = some b → b.sent = true → b.done = false → b.busy = false →
    inbAhead s b = false → port s b.route b.route b.addr false = .ok → frameBusy s b.addr = false →
    (b.rd = none → ∃ t, exec (.homeRequest b.id) s = .next t ∧ t.inb.find? (fun x => x.id == b.id) = some { b with done := true } ∧
      ∀ a, rdB t a = if b.addr ≤ a then (b.data[a - b.addr]?).getD (rdB s a) else rdB s a) ∧
    (∀ n, b.rd = some n → ∃ t, exec (.homeRequest b.id) s = .next t ∧ t.inb = s.inb.filter (fun x => x.id != b.id) ∧ t.mem = s.mem ∧
      t.cpls = ⟨b.req, b.addr, some (rdBytes s b.addr n)⟩ :: s.cpls)) ∧
  (∀ (s : State) (d p : Nat), p < 64 → d < 4 → d < s.dies.length →
    ((s.die d).granted p = none → exec (.multicastFork d p) s = .next s ∧ ∀ f ∈ (s.die d).heads, f.mask.getLsbD p = false) ∧
    (∀ f, (s.die d).granted p = some f → ((s.die d).grants.Nodup → GrantsOldest (s.die d) p f) ∧
      ∃ t, exec (.multicastFork d p) s = .next t ∧ t.mem = s.mem ∧ (t.die d).grants = (p, f.inp) :: (s.die d).grants.filter (· != (p, f.inp)) ∧ Arrived s t d p f ∧
        ∀ m, m = f.mask &&& ~~~portBit p →
          (t.die d).mcast = if m = 0 then (s.die d).mcast.erase f else (s.die d).mcast.replace f { f with mask := m })) ∧
  (∀ (s : State) (p : Nat) (maj min : Byte), p < 12 → p < s.ports.length →
    ((s.port p).up = false → ∃ t, exec (.feltlinkTraining p maj min) s = .next t ∧ (t.port p).trn = false ∧ (t.port p).up = (maj == 1) ∧
      (maj = 1 → (t.port p).vmaj = 1 ∧ (t.port p).vmin = 0) ∧
      ∀ d, d < 4 → d < s.dies.length → (t.die d).evPend = (s.die d).evPend ++
        [evRecord 8 d 0xFFFF 0xFF 0xFF p 0 0 (if maj = 1 then 256 else 0) 0 (s.cyc d)]) ∧
    ((s.port p).up = true → ∃ t, exec (.feltlinkPortDown p) s = .next t ∧ (t.port p).up = false ∧
      ∀ d, d < 4 → d < s.dies.length → (t.die d).evPend = (s.die d).evPend ++ [evRecord 8 d 0xFFFF 0xFF 0xFF p 0 0 0 0 (s.cyc d)])) ∧
  (∀ (s : State) (p tail head : Nat) (ver : Byte) (seq : W32) (pay : List Byte), p < 12 → p < s.ports.length → (s.port p).up = true →
    tail = rdN s (portArea p + 0x40) 8 → head = rdN s (portArea p + 0x48) 8 → (tail + 2 ^ 64 - head) % 2 ^ 64 < 255 →
    (∃ t, exec (.feltlinkFlitReceive p ver seq false pay) s = .next t ∧ t.mem = s.mem ∧ (t.port p).rxSeq = (s.port p).rxSeq ∧
      (t.port p).crc = sat16 (s.port p).crc ∧ (t.port p).rply = sat16 (s.port p).rply) ∧
    (ver = (s.port p).vmaj → seq = (s.port p).rxSeq → ∃ t, exec (.feltlinkFlitReceive p ver seq true pay) s = .next t ∧
      (t.port p).rxSeq = seq + 1 ∧ rdN t (portArea p + 0x40) 8 = next64 tail ∧
      ∀ i, i < 224 → rdB t (portArea p + 0x10000 + 256 * (tail % 255) + i) = (pay[i]?).getD 0)) ∧
  (∀ (s : State) (p tail head : Nat), p < 12 → p < s.ports.length → (s.port p).up = true → tail = rdN s (portArea p) 8 → head = rdN s (portArea p + 8) 8 →
    (∀ n, (s.takeNat ((s.port p).kept.length + 1)).1 = n → n ≠ 0 → ∃ t, exec (.feltlinkSlotSend p) s = .next t ∧ t.mem = s.mem ∧
      t.port p = { s.port p with out := (s.port p).kept.take n ++ (s.port p).out, rply := sat16 (s.port p).rply }) ∧
    ((s.takeNat ((s.port p).kept.length + 1)).1 = 0 → tail ≠ head → ∃ t flit, exec (.feltlinkSlotSend p) s = .next t ∧
      (t.port p).txSeq = (s.port p).txSeq + 1 ∧ (t.port p).kept = (flit :: (s.port p).kept).take 128 ∧ (t.port p).out = flit :: (s.port p).out ∧
      flit.length = 256 ∧ bytesAt flit 240 8 = leBytes 8 (crc64 (flit.take 240)).toNat ∧ bytesAt flit 16 224 = rdBytes s (portArea p + 0x100 + 256 * (head % 255)) 224 ∧ flit.head? = some (s.port p).vmaj ∧
      bytesAt flit 4 4 = leBytes 4 (s.port p).txSeq.toNat ∧ rdN t (portArea p + 8) 8 = next64 head)) ∧
  (∀ (s : State) (nonce b : List Byte), b = attestReport s nonce ++ attestSign (attestReport s nonce) →
    ∃ t, exec (.attestationRequest nonce) s = .next t ∧ t = { s with attest := some b } ∧
      ∀ i, i < 4096 → regRead t 4 (0x8000 + 8 * i) = BitVec.ofNat 64 (fieldAt b (8 * i) 8))

/-- O53. Errors, tests, sensors and resets (R12, R393, R430, R431, R433, R463, R465): errors are counted, and an uncorrectable unit is poisoned; a known-answer test that fails fences its lane and asks
for a rotation; sensors make a core hot; a die above 115 degrees is reset, loses its accesses, commands and workgroups, and counts its
cycles from 0; memory changes only where a gather lets go of a pinned record; a package reset loses
everything in flight, and keeps memory; the dies and base dies whose image is refused stay down, and images that were written take effect. The numbers of the stores (log entry 17), what else a die's reset
does (log entry 18), that a package reset keeps memory and poison, the image's checks (log entry 19) and its window (log entry 111) are the model's choices. -/
def Obligations.SiliconEvents : Prop :=
  (∀ (s : State) (a d k : Nat), d < s.dies.length →
    (∃ t, exec (.eccError a true d k 0) s = .next t ∧ (t.die d).eccCorr = sat16 (s.die d).eccCorr ∧ t.poison = s.poison) ∧
    (stackOf a ≠ none → ∃ t, exec (.eccError a false d k 0) s = .next t ∧ (t.die d).eccUnc = sat16 (s.die d).eccUnc ∧ t.mem = s.mem ∧
      isPois t (a / 32 * 32) 32 = true) ∧
    (a < 0x60000 → ∃ t, exec (.eccError a false d k 1) s = .next t ∧ (t.die d).eccUnc = sat16 (s.die d).eccUnc ∧ a / 8 ∈ (t.core d k).spois) ∧
    (∀ l, k < 96 → lineAt s d (k / 8) (a / 128) = some l → ∃ t l', exec (.eccError a false d k 2) s = .next t ∧ (t.die d).eccUnc = sat16 (s.die d).eccUnc ∧
      lineAt t d (k / 8) (a / 128) = some l' ∧ l'.data = l.data ∧ a % 128 / 8 ∈ l'.pois) ∧
    (a < 65536 → ∃ t, exec (.eccError a false d k 4) s = .next t ∧ (t.die d).eccUnc = sat16 (s.die d).eccUnc ∧ (∀ e, e / 2 = a / 2 → e ∈ (t.core d k).accPois) ∧
      (t.core d k).acc = (s.core d k).acc) ∧
    (∀ f w, f = ⟨d, k, a / 2 ^ 28, a / 2 ^ 21 % 128, false⟩ → s.warp? f = some w →
      (a / 2 ^ 16 % 32 < w.thr.length → ∃ t w', exec (.eccError a false d k 5) s = .next t ∧ t.warp? f = some w' ∧
        ∀ key, key ≠ 0 → key / 2 = a % 65536 / 2 → key ∈ (w'.thread (a / 2 ^ 16 % 32)).pois) ∧
      ∃ t w', exec (.eccError a false d k 6) s = .next t ∧ t.warp? f = some w' ∧ ∀ r, r < 32 → w'.kpois.getLsbD r = (w.kpois.getLsbD r || (r != 0 && r == a % 32))) ∧
    (∀ unit, 6 < unit → exec (.eccError a false d k unit) s = .next s)) ∧
  (∀ (s : State) (d k lane : Nat), d < s.dies.length → (s.die d).katEn = true → (s.die d).halt = false → (s.die d).inReset = false →
    Tab.getD (s.core d k).katAt lane 0 + max 1 (s.die d).katIntv.toNat * 65536 ≤ s.cycOf d k →
    ∃ t, exec (.katDue d k lane) s = .next t ∧ Tab.getD (t.core d k).katAt lane 0 = s.cycOf d k ∧ t.mem = s.mem ∧
      (Config.freeBool s.freeIx = false → (t.die d).katFail = (s.die d).katFail ∧ (t.core d k).fenced = (s.core d k).fenced) ∧
      (Config.freeBool s.freeIx = true → (t.die d).katFail = (if (s.die d).katFail = 0xFFFFFFFF then 0xFFFFFFFF else (s.die d).katFail + 1) ∧
        lane ∈ (t.core d k).fenced ∧
        (lane ∉ (s.core d k).fenced → (t.core d k).rotWant = true ∧
          (t.die d).evPend = (s.die d).evPend ++ [evRecord 5 d k lane 0xFF 0 0 0 0 0 (s.cycOf d k)]))) ∧
  (∀ (s : State) (d k temp thi hyst : Nat), d < s.dies.length → thi = bitsOf (s.die d).schctl.toNat 8 8 → hyst = bitsOf (s.die d).schctl.toNat 16 8 →
    (∃ t, exec (.thermalSensorChange d k temp) s = .next t ∧ (t.core d k).temp = temp ∧ (thi < temp → (t.core d k).hot = true) ∧
      (temp + hyst < thi → (t.core d k).hot = false) ∧ (thi ≤ temp + hyst → temp ≤ thi → (t.core d k).hot = (s.core d k).hot)) ∧
    (∃ t, exec (.droopEvent d k) s = .next t ∧ (t.core d k).droops = s.cycOf d k :: (s.core d k).droops)) ∧
  (∀ (s : State) (d : Nat), ((s.die d).cores.any (fun e => decide (e.2.temp > 115))) = true →
    ∃ t, exec (.thermalReset d) s = .next t ∧ t.aer = s.aer + 1 ∧ Tab.get? t.pmcCause d = some 1 ∧ (t.die d).wgs = [] ∧
      ((∀ c ∈ s.cmds, c.die = d → c.pinned = none) → t.mem = s.mem) ∧ t.cyc d = 0 ∧ (∀ k, k < 96 → t.cycOf d k = 0) ∧
      (t.die d).grids = [] ∧ (t.die d).queues = [] ∧ (t.die d).pgroot = 0 ∧ (∀ a ∈ t.accs, a.frag.die ≠ d) ∧ ∀ c ∈ t.cmds, c.die ≠ d) ∧
  (∀ (s : State), ∃ t, exec .packageReset s = .next t ∧ t.mem = s.mem ∧ t.poison = s.poison ∧ t.accs = [] ∧ t.cmds = [] ∧ t.spaces = [] ∧ t.inb = [] ∧
    t.dies.length = 4 ∧ t.stks.length = 8 ∧ (∀ c b, s.fwNew = [(c, b)] → fwImage t c = b) ∧ (∀ i, i < 8 → (t.stk i).down = fwDown t (i + 5)) ∧
    ∀ d, d < 4 → (t.die d).own = (Die.reset d).own ∧ (t.die d).queues = [] ∧ (t.die d).pgroot = 0 ∧ (t.die d).wgs = [] ∧ (t.die d).inReset = fwDown t (d + 1) ∧
      t.cyc d = 0 ∧ (∀ k, t.cycOf d k = 0) ∧ (t.die d).rev.toNat % 2 ^ 32 = revReset.toNat ∧
      ∀ h, h = fwHdr (fwImage t (d + 1)) → (t.die d).rev.toNat / 2 ^ 32 = h.minor % 2 ^ 16 + 2 ^ 16 * (h.major % 2 ^ 16)) ∧
  (∀ (s : State) (c : Nat) (v w : W64), v.toNat = c →
    (∃ t, exec (.registerWrite ⟨4, 0x5000, v, 8⟩) s = .next t ∧ t.fwSel = c ∧ Tab.get? t.fwNew c = some [] ∧ t.mem = s.mem) ∧
    (∀ b, s.fwSel = c → Tab.get? s.fwNew c = some b → ∃ t, exec (.registerWrite ⟨4, 0x5008, w, 8⟩) s = .next t ∧ Tab.get? t.fwNew c = some (b ++ leBytes 8 w.toNat) ∧ t.fw = s.fw))

namespace Sys2Proof.Machine

/-- A hand-over of stack `i` stands at a step (R36). -/
def HovAt (s : State) (i : Nat) (h : Hov) (step : Nat) : Prop := i < s.stks.length ∧ i < 8 ∧ (s.stk i).hov = some h ∧ h.step = step

/-- A running page move of one page, which waits for its next step. -/
def MoveAt (s : State) (c : Cmd) (va dst psz step : Nat) (st : CmdSt) : Prop :=
  s.cmd? c.id = some c ∧ c.kind = .pmove va dst 1 psz ∧ c.st = st ∧ c.next = step

/-- `a` lies outside the `n` bytes at `b`. -/
def Outside (a b n : Nat) : Prop := a < b ∨ b + n ≤ a

end Sys2Proof.Machine

/-- O54. Hand-overs (R35 to R38, R41, R402): leave goes to a request that no earlier one bars; step 1 marks both dies; step 3 writes back every dirty line of the stack
and drops its lines; step 4 drops the translations tagged with it; step 5 flips the owner everywhere, and step 6 gives it to the receiver and
resolves its pending takes. That a hand-over and a page move of one stack go in the order in which they came is the model's choice (log entry 41). -/
def Obligations.HandOvers : Prop :=
  (∀ (s : State) (d ix : Nat) (r : LeaveFor × Nat), (s.die d).leaveQ[ix]? = some r → mayLeave (s.die d).leaveQ ix = true →
    ∃ t, exec (.leaveGrant d ix) s = .next t ∧
      (t.die d).leaveQ = ((s.die d).leaveQ.take ix).map (fun e => (e.1, e.2 + 1)) ++ (s.die d).leaveQ.drop (ix + 1) ∧ t.mem = s.mem ∧
      ∀ id c, r.1 = .give id → s.cmd? id = some c → t.cmd? id = some { c with st := .running }) ∧
  (∀ (s : State) (i : Nat) (c : Cmd), i < 8 → i < s.stks.length → s.cmds.find? (fun x => x.kind == .shovGive i && x.st == .running) = some c →
    c.die < s.dies.length → otherDie i c.die < s.dies.length → (s.stk i).hov = none → moveOn s i c.id = false →
    ∃ t, exec (.handoverStart i) s = .next t ∧ (t.stk i).hov = some ⟨c.id, c.die, otherDie i c.die, 1⟩ ∧
      (t.die c.die).hov.getLsbD i = true ∧ (t.die (otherDie i c.die)).hov.getLsbD i = true ∧ t.mem = s.mem) ∧
  (∀ (s : State) (i : Nat) (h : Hov), HovAt s i h 1 →
    (drained s h.give i = false → exec (.handoverWriteback i) s = .next s) ∧
    (drained s h.give i = true → ∃ t, exec (.handoverWriteback i) s = .next t ∧ (t.stk i).hov = some { h with step := 3 } ∧
      (∀ cl, cl < 12 → ∀ e ∈ (t.cluster h.give cl).lines, stackOf (128 * e.1) ≠ some i) ∧
      (∀ k, ∀ e ∈ (t.core h.give k).l1, stackOf (128 * e.1) ≠ some i) ∧
      ((∀ cl, cl < 12 → ∀ e ∈ (s.cluster h.give cl).lines, e.2.data.length = 128) →
        (∀ a, stackOf a ≠ some i → rdB t a = rdB s a) ∧
        ∀ cl li l, cl < 12 → (li, l) ∈ (s.cluster h.give cl).lines → l.dirty = true → stackOf (128 * li) = some i → h.give < s.dies.length →
          (∀ cl', cl' < 12 → ∀ e ∈ (s.cluster h.give cl').lines, e.1 = li → e.2.dirty = true → e.2 = l) →
          ∀ j, j < 128 → some (rdB t (128 * li + j)) = l.data[j]?))) ∧
  (∀ (s : State) (i : Nat) (h : Hov), HovAt s i h 3 →
    ∃ t, exec (.handoverShootdown i) s = .next t ∧ (t.stk i).hov = some { h with step := 4 } ∧ t.mem = s.mem ∧
      ∀ k, (t.core h.give k).tlb = (s.core h.give k).tlb.filter (fun e => !e.tagged i)) ∧
  (∀ (s : State) (i : Nat) (h : Hov), HovAt s i h 4 →
    ∃ t, exec (.ownerFlip i) s = .next t ∧ (t.stk i).owner = h.take ∧ (t.stk i).hov = some { h with step := 5 } ∧ t.mem = s.mem ∧
      (t.die h.give).own.getLsbD i = false ∧ t.vxmap = s.vxmap.set i h.take ∧ ∀ d, d < s.dies.length → (t.die d).omap = (s.die d).omap.set i h.take) ∧
  (∀ (s : State) (i : Nat) (h : Hov), HovAt s i h 5 → h.give < s.dies.length → h.take < s.dies.length →
    ∃ t, exec (.handoverFinish i) s = .next t ∧ (t.stk i).hov = none ∧ (t.stk i).owner = (s.stk i).owner ∧ (t.die h.take).own.getLsbD i = true ∧
      (t.die h.take).hov.getLsbD i = false ∧ (t.die h.give).hov.getLsbD i = false ∧
      ∀ c ∈ t.cmds, ¬ (c.die = h.take ∧ c.kind = .shovTake i ∧ c.st = .waiting))

/-- O55. Page moves (R36, R46 to R48, R50, R149), on one page: a move that fails its checks ends; one that passes comes to its first step under an identity of its own, waits there behind
a hand-over of a stack it names that asked leave before, and else sets `pb` in its leaf, marks its old frame busy and copies it, and changes no other byte; the
leaf is rewritten to the new frame, or a leaf that changed ends the move; the end releases the frame, and requests for it that are held or on their way are
answered moved. That a hand-over and a move of one stack go in the order in which they came (log entry 41), that the checks are made again after a wait, with those of the
ports, and which requests are answered moved (log entry 42), are the model's choices. -/
def Obligations.PageMoves : Prop :=
  (∀ (s : State) (c : Cmd) (va dst psz : Nat), MoveAt s c va dst psz 0 .waiting →
    (∀ st, pmoveCheck s c.die va dst 1 psz false = .fail st → c.gcw = none → ∃ t, exec (.pageMoveStart c.id) s = .next t ∧ t.cmd? c.id = none) ∧
    (pmoveCheck s c.die va dst 1 psz false = .wait → exec (.pageMoveStart c.id) s = .next s) ∧
    (∀ at_ e sz s1, pmoveCheck s c.die va dst 1 psz false = .ok [(at_, e)] → sz = pszBytes psz → s.cmd? s.nextId = none →
      s1 = (pmoveQueue s c [(at_, e)]).2 →
      ((moveStacks dst [(at_, e)]).any (moveBehind s1 s.nextId) = true →
        ∃ t, exec (.pageMoveStart c.id) s = .next t ∧ t.mem = s.mem ∧ t.cmd? s.nextId = some { c with id := s.nextId, next := 1, old := [(at_, e)] }) ∧
      (∀ i, (moveStacks dst [(at_, e)]).any (moveBehind s1 s.nextId) = false → Memory.wf s = true → stackOf (pteAddr e) = some i → i < s.stks.length →
        (∀ j, j < 8 → Outside (at_ + j) dst sz ∧ Outside (at_ + j) (pteAddr e) sz) →
        ∃ t, exec (.pageMoveStart c.id) s = .next t ∧
          t.cmd? s.nextId = some { c with id := s.nextId, st := .running, next := 2, old := [(at_, e ||| (1 <<< 63))] } ∧
          BitVec.ofNat 64 (rdN t at_ 8) = e ||| (1 <<< 63) ∧ frameBusy t (pteAddr e) = true ∧
          (∀ j, j < sz → rdB t (dst + j) = rdB s (pteAddr e + j)) ∧
          ∀ a, Outside a dst sz → Outside a at_ 8 → rdB t a = rdB s a))) ∧
  (∀ (s : State) (c : Cmd) (va dst psz at_ : Nat) (e : W64), MoveAt s c va dst psz 2 .running → c.old = [(at_, e)] →
    (rdN s at_ 8 = e.toNat → ∃ t, exec (.pageMoveRewrite c.id) s = .next t ∧ t.cmd? c.id = some { c with next := 3 } ∧
      BitVec.ofNat 64 (rdN t at_ 8) = movedLeaf e dst ∧ ∀ a, Outside a at_ 8 → rdB t a = rdB s a) ∧
    (rdN s at_ 8 ≠ e.toNat → c.gcw = none → ∃ t, exec (.pageMoveRewrite c.id) s = .next t ∧ t.cmd? c.id = none ∧
      ∀ k ∈ t.vxHome :: t.stks, ∀ b ∈ k.busy, b.1 ≠ c.id)) ∧
  (∀ (s : State) (c : Cmd) (va dst psz : Nat), MoveAt s c va dst psz 3 .running → c.gcw = none →
    ∃ t, exec (.pageMoveFinish c.id) s = .next t ∧ t.cmd? c.id = none ∧ (∀ k ∈ t.vxHome :: t.stks, ∀ b ∈ k.busy, b.1 ≠ c.id) ∧
      ∀ k ∈ s.vxHome :: s.stks, ∀ b ∈ k.busy, b.1 = c.id →
        (∀ a ∈ s.accs, b.2.1 ≤ a.pa → a.pa < b.2.2 → (a.st = .held ∨ a.st = .home ∨ a.st = .fill ∨ a.st = .retry ∨ a.st = .notOwner ∧ a.va.testBit 56 = true ∧ a.rerouted = false) →
          ∃ x ∈ t.accs, x.id = a.id ∧ x.st = .movedResp) ∧
        ∀ h ∈ s.hid, b.2.1 ≤ h.pa → h.pa < b.2.2 → h.who ≠ .cmd c.id → { h with moved := true } ∈ t.hid)

namespace Sys2Proof.Machine

/-- A fragment may issue: it is resident, not stopped, not parked for an event; its die runs; it has no fault or watchdog trap to take, or is parked at `join`, and no
pre-emption to obey; and it is its lane's turn (R59, R209, R403, R420, R429). -/
def MayIssue (s : State) (c : Ctx) : Prop :=
  ctxOf s c.f = some c ∧ c.g.resident = true ∧ c.p.stopped = false ∧ ((s.die c.f.die).halt = false ∨ c.p.defers = true) ∧
    (s.die c.f.die).inReset = false ∧ c.p.wait.byEvent = false ∧ ((c.p.fault = none ∧ c.p.wdDue = none) ∨ c.p.wait = .join) ∧
    ((c.g.preReq = false ∧ c.w.preW = false) ∨ c.p.defers = true) ∧ laneTurn s c.f c.p = true

/-- `s` is the state `s'` in which a fetched word issues: it is the current one, its slot has issued now, and a wait that its fetch has put off comes back. -/
def Issued (s' s : State) (f : FragRef) (w : W64) : Prop :=
  s = ({ s' with cur := f, word := w } : State).modFrag f (fun p =>
    { p with iword := some w, prevIssue := p.lastIssue, lastIssue := s'.tick, wait := if p.kept = .none then p.wait else p.kept, kept := .none })

/-- The state after the turn at the head of the agenda is taken. -/
def begun (s : State) (rest : List Turn) : State := { s with tick := s.tick + 1, clock := s.clock + 1, agenda := rest }

/-- The fetch of a fragment's word as an agent of its die (R60, R211). -/
def fetcher (c : Ctx) : Agent := { die := c.f.die, core := some c.f.core, holds := c.p.wait == .walk, who := .frag c.p.uid c.p.seq }

/-- The hard-wired true predicate (R215). -/
def tp : Hdr := ⟨false, true, false, 0, 0⟩

end Sys2Proof.Machine

/-- O56. A step runs the decoded instruction (R211, R212, R226, R227, R403): where the word at a fragment's program counter decodes to `i`, an issue turn of the fragment is `exec i` in
the state whose current word it is; the word comes from memory through the translation of the program counter, or is the one that the fragment has fetched before and that waited; a word that decodes to
nothing takes the illegal-instruction trap; and a turn that names an event is `exec` of the event, where every die, core and lane that it names is there (R10);
a loader's turn adds its image (log entry 54), and a soft error's changes an accumulator element (log entry 100). -/
def Obligations.StepRunsTheDecodedInstruction : Prop :=
  (∀ (s s2 : State) (rest : List Turn) (c : Ctx) (w : W64), s.agenda = .issue c.f :: rest → MayIssue (begun s rest) c →
    (c.p.iword = some w ∧ s2 = begun s rest ∨ c.p.iword = none ∧ fetchWord (begun s rest) (fetcher c) c.f.core c.p.pc.toNat = .word w s2) →
    ∀ s3, Issued s2 s3 c.f w → (∀ i, decode w = some i → step s = exec i s3) ∧ (decode w = none → step s = .next (illegal s3 c.f))) ∧
  (∀ (s : State) (rest : List Turn) (c : Ctx) (t : TlbEnt) (p : Phys) (i : Instr), s.agenda = .issue c.f :: rest → MayIssue (begun s rest) c → c.p.iword = none →
    c.p.pc.toNat < 2 ^ 57 → (s.die c.f.die).pgroot.getLsbD 0 = true → tlbFind (begun s rest) c.f.die c.f.core c.p.pc.toNat = some t →
    leafUse (begun s rest) c.f.die c.p.pc.toNat .x t = .ok p → reach (begun s rest) (fetcher c) c.p.pc.toNat p = none →
    (p.sl = 0 → lineAt s c.f.die (c.f.core / 8) (p.pa / 128) = none) → Tab.get? (s.core c.f.die c.f.core).icache p.pa = none →
    decode (BitVec.ofNat 64 (rdN s p.pa 8)) = some i →
    ∃ s2 s3, s2.mem = s.mem ∧ s2.accs = s.accs ∧ Issued s2 s3 c.f (BitVec.ofNat 64 (rdN s p.pa 8)) ∧ step s = exec i s3) ∧
  (∀ (s : State) (rest : List Turn) (i : Instr), s.agenda = .ev i :: rest →
    (encode i = none → i.wf = true → step s = exec i (begun s rest)) ∧
    (encode i ≠ none ∨ i.wf = false → step s = .next (begun s rest))) ∧
  (∀ (s : State) (rest : List Turn) (d : Nat) (img : Image), s.agenda = .load d img :: rest → step s = .next (loadImage (begun s rest) d img)) ∧
  (∀ (s : State) (rest : List Turn) (d c e : Nat) (v : W32), s.agenda = .flip d c e v :: rest →
    (c < 96 → e < 65536 → d < s.dies.length → ∃ t, step s = .next t ∧ t.mem = s.mem ∧ ∀ x, Tab.getD (t.core d c).acc x 0 = if x = e then v else Tab.getD (s.core d c).acc x 0) ∧
    (96 ≤ c ∨ 65536 ≤ e → step s = .next (begun s rest)))

/-- O57. Decoding the words that the specification writes out gives the instructions that it writes beside them. -/
def Obligations.WordsOfTheSpecificationDecode : Prop :=
  decode 0x20006402800800C0 = some (.movi tp ⟨false, false, false, 0⟩ (.k 8) 192) ∧
  decode 0x2000640290080020 = some (.movi tp ⟨false, false, false, 0⟩ (.k 9) 32) ∧
  decode 0x2000080050353000 = some (.imul tp ⟨false, false, false, 0⟩ (.w 5) (.w 3) (.si 6)) ∧
  decode 0x20019C0000000000 = some (.exit tp) ∧
  decode 0x20019410_00080003 = some (.loop tp 1 (.im 3)) ∧
  decode 0x2001AC0249600000 = some (.rds tp (.k 4) 22) ∧
  decode 0x200340A002513000 = some (.slvb tp 2 true (.k 5) (.k 6)) ∧
  decode 0x2003800000080005 = some (.trap tp 5) ∧
  decode 0x2003940002480007 = some (.evnt tp (.k 4) 7) ∧
  decode 0 = some .guardFalseNop

/-- O58. Encoding and decoding agree (R211 to R217, R226): the word of a well-formed instruction other than the all-zero word decodes to the instruction, with every operand
and modifier as it was; and every word that decodes is the word of the instruction it decodes to, so no two words share a meaning. That a field which a form does not use holds zero, as `Instr.wf` and
`decode` ask, is the model's choice (log entry 1). -/
def Obligations.EncodingAndDecodingAgree : Prop :=
  (∀ (i : Instr) (w : W64), i.wf = true → encode i = some w → w ≠ 0 → decode w = some i) ∧
  (∀ (i : Instr) (w : W64), decode w = some i → encode i = some w ∧ i.wf = true)

/-- O59. Every step keeps memory in its canonical form: addresses rise strictly, and no entry equals what an unlisted address reads as. -/
def Obligations.StepsKeepMemoryForm : Prop :=
  ∀ (s t : State), Memory.wf s = true → step s = .next t → Memory.wf t = true

/-- O60. The machine after reset (R12, R29, R32, R34, R393, R423, R431, R433, R446, R447, R451): what each die's registers hold, who owns each stack, no workgroup, grid, queue, access or
command; memory is in its canonical form and, by the model's choice (log entries 6 and 81), reads zero, and every die has its loft. -/
def Obligations.ResetState : Prop :=
  State.reset.dies.length = 4 ∧ State.reset.stks.length = 8 ∧
  (∀ d, d < 4 → ∃ x, State.reset.die d = x ∧ x.pgroot = 0 ∧ x.own = BitVec.ofNat 8 (3 * 4 ^ d) ∧ x.hov = 0 ∧ x.allow = 0 ∧ x.tlbinv = 0 ∧
    x.vec = 0 ∧ x.csz = 1 ∧ x.dl = 0x100000 ∧ x.bkh = false ∧ x.halt = false ∧ x.eccCons = 0 ∧ x.eccUnc = 0 ∧ x.eccCorr = 0 ∧ x.katIntv = 16 ∧
    x.katEn = true ∧ x.katFail = 0 ∧ x.vreq = 0 ∧ x.vans = 0 ∧ x.evEn = false ∧ x.evWr = 0 ∧ x.evRd = 0 ∧ x.evLost = 0 ∧ x.evMsk = 0x017E ∧
    x.schctl = 0x0000040810045F01 ∧ x.capinfo = capOf d true ∧ x.queues = [] ∧ x.wgs = [] ∧ x.grids = [] ∧ x.omap = [0, 0, 1, 1, 2, 2, 3, 3]) ∧
  (∀ i, i < 8 → (State.reset.stk i).owner = i / 2 ∧ (State.reset.stk i).hov = none) ∧
  State.reset.accs = [] ∧ State.reset.cmds = [] ∧ State.reset.spaces = [] ∧ Memory.wf State.reset = true ∧ ∀ a, rdB State.reset a = 0
end

