-- ==== Sys2Proof/Laws/State.lean ====
section
/-! SUPPORT. One lemma per field of the state and per update: what the update leaves there. -/

namespace Sys2Proof.Machine

@[simp] theorem State.modDie_tick (s : State) (d : Nat) (g : Die → Die) : (s.modDie d g).tick = s.tick := rfl
@[simp] theorem State.modDie_agenda (s : State) (d : Nat) (g : Die → Die) : (s.modDie d g).agenda = s.agenda := rfl
@[simp] theorem State.modDie_cur (s : State) (d : Nat) (g : Die → Die) : (s.modDie d g).cur = s.cur := rfl
@[simp] theorem State.modDie_word (s : State) (d : Nat) (g : Die → Die) : (s.modDie d g).word = s.word := rfl
@[simp] theorem State.modDie_freeIx (s : State) (d : Nat) (g : Die → Die) : (s.modDie d g).freeIx = s.freeIx := rfl
@[simp] theorem State.modDie_nextId (s : State) (d : Nat) (g : Die → Die) : (s.modDie d g).nextId = s.nextId := rfl
@[simp] theorem State.modDie_clock (s : State) (d : Nat) (g : Die → Die) : (s.modDie d g).clock = s.clock := rfl
@[simp] theorem State.modDie_cycs (s : State) (d : Nat) (g : Die → Die) : (s.modDie d g).cycs = s.cycs := rfl
@[simp] theorem State.modDie_mem (s : State) (d : Nat) (g : Die → Die) : (s.modDie d g).mem = s.mem := rfl
@[simp] theorem State.modDie_poison (s : State) (d : Nat) (g : Die → Die) : (s.modDie d g).poison = s.poison := rfl
@[simp] theorem State.modDie_dies (s : State) (d : Nat) (g : Die → Die) : (s.modDie d g).dies = listMod s.dies d g := rfl
@[simp] theorem State.modDie_stks (s : State) (d : Nat) (g : Die → Die) : (s.modDie d g).stks = s.stks := rfl
@[simp] theorem State.modDie_vxHome (s : State) (d : Nat) (g : Die → Die) : (s.modDie d g).vxHome = s.vxHome := rfl
@[simp] theorem State.modDie_hid (s : State) (d : Nat) (g : Die → Die) : (s.modDie d g).hid = s.hid := rfl
@[simp] theorem State.modDie_hist (s : State) (d : Nat) (g : Die → Die) : (s.modDie d g).hist = s.hist := rfl
@[simp] theorem State.modDie_uses (s : State) (d : Nat) (g : Die → Die) : (s.modDie d g).uses = s.uses := rfl
@[simp] theorem State.modDie_accs (s : State) (d : Nat) (g : Die → Die) : (s.modDie d g).accs = s.accs := rfl
@[simp] theorem State.modDie_cmds (s : State) (d : Nat) (g : Die → Die) : (s.modDie d g).cmds = s.cmds := rfl
@[simp] theorem State.modDie_spaces (s : State) (d : Nat) (g : Die → Die) : (s.modDie d g).spaces = s.spaces := rfl
@[simp] theorem State.modDie_dirW (s : State) (d : Nat) (g : Die → Die) : (s.modDie d g).dirW = s.dirW := rfl
@[simp] theorem State.modDie_grp (s : State) (d : Nat) (g : Die → Die) : (s.modDie d g).grp = s.grp := rfl
@[simp] theorem State.modDie_vxmap (s : State) (d : Nat) (g : Die → Die) : (s.modDie d g).vxmap = s.vxmap := rfl
@[simp] theorem State.modDie_inb (s : State) (d : Nat) (g : Die → Die) : (s.modDie d g).inb = s.inb := rfl
@[simp] theorem State.modDie_cpls (s : State) (d : Nat) (g : Die → Die) : (s.modDie d g).cpls = s.cpls := rfl
@[simp] theorem State.modDie_ports (s : State) (d : Nat) (g : Die → Die) : (s.modDie d g).ports = s.ports := rfl
@[simp] theorem State.modDie_attest (s : State) (d : Nat) (g : Die → Die) : (s.modDie d g).attest = s.attest := rfl
@[simp] theorem State.modDie_pmcCause (s : State) (d : Nat) (g : Die → Die) : (s.modDie d g).pmcCause = s.pmcCause := rfl
@[simp] theorem State.modDie_msix (s : State) (d : Nat) (g : Die → Die) : (s.modDie d g).msix = s.msix := rfl
@[simp] theorem State.modDie_aer (s : State) (d : Nat) (g : Die → Die) : (s.modDie d g).aer = s.aer := rfl
@[simp] theorem State.modDie_spanWait (s : State) (d : Nat) (g : Die → Die) : (s.modDie d g).spanWait = s.spanWait := rfl
@[simp] theorem State.modDie_fw (s : State) (d : Nat) (g : Die → Die) : (s.modDie d g).fw = s.fw := rfl
@[simp] theorem State.modDie_fwNew (s : State) (d : Nat) (g : Die → Die) : (s.modDie d g).fwNew = s.fwNew := rfl
@[simp] theorem State.modDie_fwSel (s : State) (d : Nat) (g : Die → Die) : (s.modDie d g).fwSel = s.fwSel := rfl

@[simp] theorem State.modStk_tick (s : State) (i : Nat) (g : Stack → Stack) : (s.modStk i g).tick = s.tick := rfl
@[simp] theorem State.modStk_agenda (s : State) (i : Nat) (g : Stack → Stack) : (s.modStk i g).agenda = s.agenda := rfl
@[simp] theorem State.modStk_cur (s : State) (i : Nat) (g : Stack → Stack) : (s.modStk i g).cur = s.cur := rfl
@[simp] theorem State.modStk_word (s : State) (i : Nat) (g : Stack → Stack) : (s.modStk i g).word = s.word := rfl
@[simp] theorem State.modStk_freeIx (s : State) (i : Nat) (g : Stack → Stack) : (s.modStk i g).freeIx = s.freeIx := rfl
@[simp] theorem State.modStk_nextId (s : State) (i : Nat) (g : Stack → Stack) : (s.modStk i g).nextId = s.nextId := rfl
@[simp] theorem State.modStk_clock (s : State) (i : Nat) (g : Stack → Stack) : (s.modStk i g).clock = s.clock := rfl
@[simp] theorem State.modStk_cycs (s : State) (i : Nat) (g : Stack → Stack) : (s.modStk i g).cycs = s.cycs := rfl
@[simp] theorem State.modStk_mem (s : State) (i : Nat) (g : Stack → Stack) : (s.modStk i g).mem = s.mem := rfl
@[simp] theorem State.modStk_poison (s : State) (i : Nat) (g : Stack → Stack) : (s.modStk i g).poison = s.poison := rfl
@[simp] theorem State.modStk_dies (s : State) (i : Nat) (g : Stack → Stack) : (s.modStk i g).dies = s.dies := rfl
@[simp] theorem State.modStk_stks (s : State) (i : Nat) (g : Stack → Stack) : (s.modStk i g).stks = listMod s.stks i g := rfl
@[simp] theorem State.modStk_vxHome (s : State) (i : Nat) (g : Stack → Stack) : (s.modStk i g).vxHome = s.vxHome := rfl
@[simp] theorem State.modStk_hid (s : State) (i : Nat) (g : Stack → Stack) : (s.modStk i g).hid = s.hid := rfl
@[simp] theorem State.modStk_hist (s : State) (i : Nat) (g : Stack → Stack) : (s.modStk i g).hist = s.hist := rfl
@[simp] theorem State.modStk_uses (s : State) (i : Nat) (g : Stack → Stack) : (s.modStk i g).uses = s.uses := rfl
@[simp] theorem State.modStk_accs (s : State) (i : Nat) (g : Stack → Stack) : (s.modStk i g).accs = s.accs := rfl
@[simp] theorem State.modStk_cmds (s : State) (i : Nat) (g : Stack → Stack) : (s.modStk i g).cmds = s.cmds := rfl
@[simp] theorem State.modStk_spaces (s : State) (i : Nat) (g : Stack → Stack) : (s.modStk i g).spaces = s.spaces := rfl
@[simp] theorem State.modStk_dirW (s : State) (i : Nat) (g : Stack → Stack) : (s.modStk i g).dirW = s.dirW := rfl
@[simp] theorem State.modStk_grp (s : State) (i : Nat) (g : Stack → Stack) : (s.modStk i g).grp = s.grp := rfl
@[simp] theorem State.modStk_vxmap (s : State) (i : Nat) (g : Stack → Stack) : (s.modStk i g).vxmap = s.vxmap := rfl
@[simp] theorem State.modStk_inb (s : State) (i : Nat) (g : Stack → Stack) : (s.modStk i g).inb = s.inb := rfl
@[simp] theorem State.modStk_cpls (s : State) (i : Nat) (g : Stack → Stack) : (s.modStk i g).cpls = s.cpls := rfl
@[simp] theorem State.modStk_ports (s : State) (i : Nat) (g : Stack → Stack) : (s.modStk i g).ports = s.ports := rfl
@[simp] theorem State.modStk_attest (s : State) (i : Nat) (g : Stack → Stack) : (s.modStk i g).attest = s.attest := rfl
@[simp] theorem State.modStk_pmcCause (s : State) (i : Nat) (g : Stack → Stack) : (s.modStk i g).pmcCause = s.pmcCause := rfl
@[simp] theorem State.modStk_msix (s : State) (i : Nat) (g : Stack → Stack) : (s.modStk i g).msix = s.msix := rfl
@[simp] theorem State.modStk_aer (s : State) (i : Nat) (g : Stack → Stack) : (s.modStk i g).aer = s.aer := rfl
@[simp] theorem State.modStk_spanWait (s : State) (i : Nat) (g : Stack → Stack) : (s.modStk i g).spanWait = s.spanWait := rfl
@[simp] theorem State.modStk_fw (s : State) (i : Nat) (g : Stack → Stack) : (s.modStk i g).fw = s.fw := rfl
@[simp] theorem State.modStk_fwNew (s : State) (i : Nat) (g : Stack → Stack) : (s.modStk i g).fwNew = s.fwNew := rfl
@[simp] theorem State.modStk_fwSel (s : State) (i : Nat) (g : Stack → Stack) : (s.modStk i g).fwSel = s.fwSel := rfl

@[simp] theorem State.modCore_tick (s : State) (d c : Nat) (g : Core → Core) : (s.modCore d c g).tick = s.tick := rfl
@[simp] theorem State.modCore_agenda (s : State) (d c : Nat) (g : Core → Core) : (s.modCore d c g).agenda = s.agenda := rfl
@[simp] theorem State.modCore_cur (s : State) (d c : Nat) (g : Core → Core) : (s.modCore d c g).cur = s.cur := rfl
@[simp] theorem State.modCore_word (s : State) (d c : Nat) (g : Core → Core) : (s.modCore d c g).word = s.word := rfl
@[simp] theorem State.modCore_freeIx (s : State) (d c : Nat) (g : Core → Core) : (s.modCore d c g).freeIx = s.freeIx := rfl
@[simp] theorem State.modCore_nextId (s : State) (d c : Nat) (g : Core → Core) : (s.modCore d c g).nextId = s.nextId := rfl
@[simp] theorem State.modCore_clock (s : State) (d c : Nat) (g : Core → Core) : (s.modCore d c g).clock = s.clock := rfl
@[simp] theorem State.modCore_cycs (s : State) (d c : Nat) (g : Core → Core) : (s.modCore d c g).cycs = s.cycs := rfl
@[simp] theorem State.modCore_mem (s : State) (d c : Nat) (g : Core → Core) : (s.modCore d c g).mem = s.mem := rfl
@[simp] theorem State.modCore_poison (s : State) (d c : Nat) (g : Core → Core) : (s.modCore d c g).poison = s.poison := rfl
@[simp] theorem State.modCore_stks (s : State) (d c : Nat) (g : Core → Core) : (s.modCore d c g).stks = s.stks := rfl
@[simp] theorem State.modCore_vxHome (s : State) (d c : Nat) (g : Core → Core) : (s.modCore d c g).vxHome = s.vxHome := rfl
@[simp] theorem State.modCore_hid (s : State) (d c : Nat) (g : Core → Core) : (s.modCore d c g).hid = s.hid := rfl
@[simp] theorem State.modCore_hist (s : State) (d c : Nat) (g : Core → Core) : (s.modCore d c g).hist = s.hist := rfl
@[simp] theorem State.modCore_uses (s : State) (d c : Nat) (g : Core → Core) : (s.modCore d c g).uses = s.uses := rfl
@[simp] theorem State.modCore_accs (s : State) (d c : Nat) (g : Core → Core) : (s.modCore d c g).accs = s.accs := rfl
@[simp] theorem State.modCore_cmds (s : State) (d c : Nat) (g : Core → Core) : (s.modCore d c g).cmds = s.cmds := rfl
@[simp] theorem State.modCore_spaces (s : State) (d c : Nat) (g : Core → Core) : (s.modCore d c g).spaces = s.spaces := rfl
@[simp] theorem State.modCore_dirW (s : State) (d c : Nat) (g : Core → Core) : (s.modCore d c g).dirW = s.dirW := rfl
@[simp] theorem State.modCore_grp (s : State) (d c : Nat) (g : Core → Core) : (s.modCore d c g).grp = s.grp := rfl
@[simp] theorem State.modCore_vxmap (s : State) (d c : Nat) (g : Core → Core) : (s.modCore d c g).vxmap = s.vxmap := rfl
@[simp] theorem State.modCore_inb (s : State) (d c : Nat) (g : Core → Core) : (s.modCore d c g).inb = s.inb := rfl
@[simp] theorem State.modCore_cpls (s : State) (d c : Nat) (g : Core → Core) : (s.modCore d c g).cpls = s.cpls := rfl
@[simp] theorem State.modCore_ports (s : State) (d c : Nat) (g : Core → Core) : (s.modCore d c g).ports = s.ports := rfl
@[simp] theorem State.modCore_attest (s : State) (d c : Nat) (g : Core → Core) : (s.modCore d c g).attest = s.attest := rfl
@[simp] theorem State.modCore_pmcCause (s : State) (d c : Nat) (g : Core → Core) : (s.modCore d c g).pmcCause = s.pmcCause := rfl
@[simp] theorem State.modCore_msix (s : State) (d c : Nat) (g : Core → Core) : (s.modCore d c g).msix = s.msix := rfl
@[simp] theorem State.modCore_aer (s : State) (d c : Nat) (g : Core → Core) : (s.modCore d c g).aer = s.aer := rfl
@[simp] theorem State.modCore_spanWait (s : State) (d c : Nat) (g : Core → Core) : (s.modCore d c g).spanWait = s.spanWait := rfl
@[simp] theorem State.modCore_fw (s : State) (d c : Nat) (g : Core → Core) : (s.modCore d c g).fw = s.fw := rfl
@[simp] theorem State.modCore_fwNew (s : State) (d c : Nat) (g : Core → Core) : (s.modCore d c g).fwNew = s.fwNew := rfl
@[simp] theorem State.modCore_fwSel (s : State) (d c : Nat) (g : Core → Core) : (s.modCore d c g).fwSel = s.fwSel := rfl

@[simp] theorem State.modCluster_tick (s : State) (d c : Nat) (g : Cluster → Cluster) : (s.modCluster d c g).tick = s.tick := rfl
@[simp] theorem State.modCluster_agenda (s : State) (d c : Nat) (g : Cluster → Cluster) : (s.modCluster d c g).agenda = s.agenda := rfl
@[simp] theorem State.modCluster_cur (s : State) (d c : Nat) (g : Cluster → Cluster) : (s.modCluster d c g).cur = s.cur := rfl
@[simp] theorem State.modCluster_word (s : State) (d c : Nat) (g : Cluster → Cluster) : (s.modCluster d c g).word = s.word := rfl
@[simp] theorem State.modCluster_freeIx (s : State) (d c : Nat) (g : Cluster → Cluster) : (s.modCluster d c g).freeIx = s.freeIx := rfl
@[simp] theorem State.modCluster_nextId (s : State) (d c : Nat) (g : Cluster → Cluster) : (s.modCluster d c g).nextId = s.nextId := rfl
@[simp] theorem State.modCluster_clock (s : State) (d c : Nat) (g : Cluster → Cluster) : (s.modCluster d c g).clock = s.clock := rfl
@[simp] theorem State.modCluster_cycs (s : State) (d c : Nat) (g : Cluster → Cluster) : (s.modCluster d c g).cycs = s.cycs := rfl
@[simp] theorem State.modCluster_mem (s : State) (d c : Nat) (g : Cluster → Cluster) : (s.modCluster d c g).mem = s.mem := rfl
@[simp] theorem State.modCluster_poison (s : State) (d c : Nat) (g : Cluster → Cluster) : (s.modCluster d c g).poison = s.poison := rfl
@[simp] theorem State.modCluster_stks (s : State) (d c : Nat) (g : Cluster → Cluster) : (s.modCluster d c g).stks = s.stks := rfl
@[simp] theorem State.modCluster_vxHome (s : State) (d c : Nat) (g : Cluster → Cluster) : (s.modCluster d c g).vxHome = s.vxHome := rfl
@[simp] theorem State.modCluster_hid (s : State) (d c : Nat) (g : Cluster → Cluster) : (s.modCluster d c g).hid = s.hid := rfl
@[simp] theorem State.modCluster_hist (s : State) (d c : Nat) (g : Cluster → Cluster) : (s.modCluster d c g).hist = s.hist := rfl
@[simp] theorem State.modCluster_uses (s : State) (d c : Nat) (g : Cluster → Cluster) : (s.modCluster d c g).uses = s.uses := rfl
@[simp] theorem State.modCluster_accs (s : State) (d c : Nat) (g : Cluster → Cluster) : (s.modCluster d c g).accs = s.accs := rfl
@[simp] theorem State.modCluster_cmds (s : State) (d c : Nat) (g : Cluster → Cluster) : (s.modCluster d c g).cmds = s.cmds := rfl
@[simp] theorem State.modCluster_spaces (s : State) (d c : Nat) (g : Cluster → Cluster) : (s.modCluster d c g).spaces = s.spaces := rfl
@[simp] theorem State.modCluster_dirW (s : State) (d c : Nat) (g : Cluster → Cluster) : (s.modCluster d c g).dirW = s.dirW := rfl
@[simp] theorem State.modCluster_grp (s : State) (d c : Nat) (g : Cluster → Cluster) : (s.modCluster d c g).grp = s.grp := rfl
@[simp] theorem State.modCluster_vxmap (s : State) (d c : Nat) (g : Cluster → Cluster) : (s.modCluster d c g).vxmap = s.vxmap := rfl
@[simp] theorem State.modCluster_inb (s : State) (d c : Nat) (g : Cluster → Cluster) : (s.modCluster d c g).inb = s.inb := rfl
@[simp] theorem State.modCluster_cpls (s : State) (d c : Nat) (g : Cluster → Cluster) : (s.modCluster d c g).cpls = s.cpls := rfl
@[simp] theorem State.modCluster_ports (s : State) (d c : Nat) (g : Cluster → Cluster) : (s.modCluster d c g).ports = s.ports := rfl
@[simp] theorem State.modCluster_attest (s : State) (d c : Nat) (g : Cluster → Cluster) : (s.modCluster d c g).attest = s.attest := rfl
@[simp] theorem State.modCluster_pmcCause (s : State) (d c : Nat) (g : Cluster → Cluster) : (s.modCluster d c g).pmcCause = s.pmcCause := rfl
@[simp] theorem State.modCluster_msix (s : State) (d c : Nat) (g : Cluster → Cluster) : (s.modCluster d c g).msix = s.msix := rfl
@[simp] theorem State.modCluster_aer (s : State) (d c : Nat) (g : Cluster → Cluster) : (s.modCluster d c g).aer = s.aer := rfl
@[simp] theorem State.modCluster_spanWait (s : State) (d c : Nat) (g : Cluster → Cluster) : (s.modCluster d c g).spanWait = s.spanWait := rfl
@[simp] theorem State.modCluster_fw (s : State) (d c : Nat) (g : Cluster → Cluster) : (s.modCluster d c g).fw = s.fw := rfl
@[simp] theorem State.modCluster_fwNew (s : State) (d c : Nat) (g : Cluster → Cluster) : (s.modCluster d c g).fwNew = s.fwNew := rfl
@[simp] theorem State.modCluster_fwSel (s : State) (d c : Nat) (g : Cluster → Cluster) : (s.modCluster d c g).fwSel = s.fwSel := rfl

@[simp] theorem State.modWg_tick (s : State) (d t : Nat) (g : Wg → Wg) : (s.modWg d t g).tick = s.tick := rfl
@[simp] theorem State.modWg_agenda (s : State) (d t : Nat) (g : Wg → Wg) : (s.modWg d t g).agenda = s.agenda := rfl
@[simp] theorem State.modWg_cur (s : State) (d t : Nat) (g : Wg → Wg) : (s.modWg d t g).cur = s.cur := rfl
@[simp] theorem State.modWg_word (s : State) (d t : Nat) (g : Wg → Wg) : (s.modWg d t g).word = s.word := rfl
@[simp] theorem State.modWg_freeIx (s : State) (d t : Nat) (g : Wg → Wg) : (s.modWg d t g).freeIx = s.freeIx := rfl
@[simp] theorem State.modWg_nextId (s : State) (d t : Nat) (g : Wg → Wg) : (s.modWg d t g).nextId = s.nextId := rfl
@[simp] theorem State.modWg_clock (s : State) (d t : Nat) (g : Wg → Wg) : (s.modWg d t g).clock = s.clock := rfl
@[simp] theorem State.modWg_cycs (s : State) (d t : Nat) (g : Wg → Wg) : (s.modWg d t g).cycs = s.cycs := rfl
@[simp] theorem State.modWg_mem (s : State) (d t : Nat) (g : Wg → Wg) : (s.modWg d t g).mem = s.mem := rfl
@[simp] theorem State.modWg_poison (s : State) (d t : Nat) (g : Wg → Wg) : (s.modWg d t g).poison = s.poison := rfl
@[simp] theorem State.modWg_stks (s : State) (d t : Nat) (g : Wg → Wg) : (s.modWg d t g).stks = s.stks := rfl
@[simp] theorem State.modWg_vxHome (s : State) (d t : Nat) (g : Wg → Wg) : (s.modWg d t g).vxHome = s.vxHome := rfl
@[simp] theorem State.modWg_hid (s : State) (d t : Nat) (g : Wg → Wg) : (s.modWg d t g).hid = s.hid := rfl
@[simp] theorem State.modWg_hist (s : State) (d t : Nat) (g : Wg → Wg) : (s.modWg d t g).hist = s.hist := rfl
@[simp] theorem State.modWg_uses (s : State) (d t : Nat) (g : Wg → Wg) : (s.modWg d t g).uses = s.uses := rfl
@[simp] theorem State.modWg_accs (s : State) (d t : Nat) (g : Wg → Wg) : (s.modWg d t g).accs = s.accs := rfl
@[simp] theorem State.modWg_cmds (s : State) (d t : Nat) (g : Wg → Wg) : (s.modWg d t g).cmds = s.cmds := rfl
@[simp] theorem State.modWg_spaces (s : State) (d t : Nat) (g : Wg → Wg) : (s.modWg d t g).spaces = s.spaces := rfl
@[simp] theorem State.modWg_dirW (s : State) (d t : Nat) (g : Wg → Wg) : (s.modWg d t g).dirW = s.dirW := rfl
@[simp] theorem State.modWg_grp (s : State) (d t : Nat) (g : Wg → Wg) : (s.modWg d t g).grp = s.grp := rfl
@[simp] theorem State.modWg_vxmap (s : State) (d t : Nat) (g : Wg → Wg) : (s.modWg d t g).vxmap = s.vxmap := rfl
@[simp] theorem State.modWg_inb (s : State) (d t : Nat) (g : Wg → Wg) : (s.modWg d t g).inb = s.inb := rfl
@[simp] theorem State.modWg_cpls (s : State) (d t : Nat) (g : Wg → Wg) : (s.modWg d t g).cpls = s.cpls := rfl
@[simp] theorem State.modWg_ports (s : State) (d t : Nat) (g : Wg → Wg) : (s.modWg d t g).ports = s.ports := rfl
@[simp] theorem State.modWg_attest (s : State) (d t : Nat) (g : Wg → Wg) : (s.modWg d t g).attest = s.attest := rfl
@[simp] theorem State.modWg_pmcCause (s : State) (d t : Nat) (g : Wg → Wg) : (s.modWg d t g).pmcCause = s.pmcCause := rfl
@[simp] theorem State.modWg_msix (s : State) (d t : Nat) (g : Wg → Wg) : (s.modWg d t g).msix = s.msix := rfl
@[simp] theorem State.modWg_aer (s : State) (d t : Nat) (g : Wg → Wg) : (s.modWg d t g).aer = s.aer := rfl
@[simp] theorem State.modWg_spanWait (s : State) (d t : Nat) (g : Wg → Wg) : (s.modWg d t g).spanWait = s.spanWait := rfl
@[simp] theorem State.modWg_fw (s : State) (d t : Nat) (g : Wg → Wg) : (s.modWg d t g).fw = s.fw := rfl
@[simp] theorem State.modWg_fwNew (s : State) (d t : Nat) (g : Wg → Wg) : (s.modWg d t g).fwNew = s.fwNew := rfl
@[simp] theorem State.modWg_fwSel (s : State) (d t : Nat) (g : Wg → Wg) : (s.modWg d t g).fwSel = s.fwSel := rfl

@[simp] theorem State.modGrid_tick (s : State) (d id : Nat) (g : Grid → Grid) : (s.modGrid d id g).tick = s.tick := rfl
@[simp] theorem State.modGrid_agenda (s : State) (d id : Nat) (g : Grid → Grid) : (s.modGrid d id g).agenda = s.agenda := rfl
@[simp] theorem State.modGrid_cur (s : State) (d id : Nat) (g : Grid → Grid) : (s.modGrid d id g).cur = s.cur := rfl
@[simp] theorem State.modGrid_word (s : State) (d id : Nat) (g : Grid → Grid) : (s.modGrid d id g).word = s.word := rfl
@[simp] theorem State.modGrid_freeIx (s : State) (d id : Nat) (g : Grid → Grid) : (s.modGrid d id g).freeIx = s.freeIx := rfl
@[simp] theorem State.modGrid_nextId (s : State) (d id : Nat) (g : Grid → Grid) : (s.modGrid d id g).nextId = s.nextId := rfl
@[simp] theorem State.modGrid_clock (s : State) (d id : Nat) (g : Grid → Grid) : (s.modGrid d id g).clock = s.clock := rfl
@[simp] theorem State.modGrid_cycs (s : State) (d id : Nat) (g : Grid → Grid) : (s.modGrid d id g).cycs = s.cycs := rfl
@[simp] theorem State.modGrid_mem (s : State) (d id : Nat) (g : Grid → Grid) : (s.modGrid d id g).mem = s.mem := rfl
@[simp] theorem State.modGrid_poison (s : State) (d id : Nat) (g : Grid → Grid) : (s.modGrid d id g).poison = s.poison := rfl
@[simp] theorem State.modGrid_stks (s : State) (d id : Nat) (g : Grid → Grid) : (s.modGrid d id g).stks = s.stks := rfl
@[simp] theorem State.modGrid_vxHome (s : State) (d id : Nat) (g : Grid → Grid) : (s.modGrid d id g).vxHome = s.vxHome := rfl
@[simp] theorem State.modGrid_hid (s : State) (d id : Nat) (g : Grid → Grid) : (s.modGrid d id g).hid = s.hid := rfl
@[simp] theorem State.modGrid_hist (s : State) (d id : Nat) (g : Grid → Grid) : (s.modGrid d id g).hist = s.hist := rfl
@[simp] theorem State.modGrid_uses (s : State) (d id : Nat) (g : Grid → Grid) : (s.modGrid d id g).uses = s.uses := rfl
@[simp] theorem State.modGrid_accs (s : State) (d id : Nat) (g : Grid → Grid) : (s.modGrid d id g).accs = s.accs := rfl
@[simp] theorem State.modGrid_cmds (s : State) (d id : Nat) (g : Grid → Grid) : (s.modGrid d id g).cmds = s.cmds := rfl
@[simp] theorem State.modGrid_spaces (s : State) (d id : Nat) (g : Grid → Grid) : (s.modGrid d id g).spaces = s.spaces := rfl
@[simp] theorem State.modGrid_dirW (s : State) (d id : Nat) (g : Grid → Grid) : (s.modGrid d id g).dirW = s.dirW := rfl
@[simp] theorem State.modGrid_grp (s : State) (d id : Nat) (g : Grid → Grid) : (s.modGrid d id g).grp = s.grp := rfl
@[simp] theorem State.modGrid_vxmap (s : State) (d id : Nat) (g : Grid → Grid) : (s.modGrid d id g).vxmap = s.vxmap := rfl
@[simp] theorem State.modGrid_inb (s : State) (d id : Nat) (g : Grid → Grid) : (s.modGrid d id g).inb = s.inb := rfl
@[simp] theorem State.modGrid_cpls (s : State) (d id : Nat) (g : Grid → Grid) : (s.modGrid d id g).cpls = s.cpls := rfl
@[simp] theorem State.modGrid_ports (s : State) (d id : Nat) (g : Grid → Grid) : (s.modGrid d id g).ports = s.ports := rfl
@[simp] theorem State.modGrid_attest (s : State) (d id : Nat) (g : Grid → Grid) : (s.modGrid d id g).attest = s.attest := rfl
@[simp] theorem State.modGrid_pmcCause (s : State) (d id : Nat) (g : Grid → Grid) : (s.modGrid d id g).pmcCause = s.pmcCause := rfl
@[simp] theorem State.modGrid_msix (s : State) (d id : Nat) (g : Grid → Grid) : (s.modGrid d id g).msix = s.msix := rfl
@[simp] theorem State.modGrid_aer (s : State) (d id : Nat) (g : Grid → Grid) : (s.modGrid d id g).aer = s.aer := rfl
@[simp] theorem State.modGrid_spanWait (s : State) (d id : Nat) (g : Grid → Grid) : (s.modGrid d id g).spanWait = s.spanWait := rfl
@[simp] theorem State.modGrid_fw (s : State) (d id : Nat) (g : Grid → Grid) : (s.modGrid d id g).fw = s.fw := rfl
@[simp] theorem State.modGrid_fwNew (s : State) (d id : Nat) (g : Grid → Grid) : (s.modGrid d id g).fwNew = s.fwNew := rfl
@[simp] theorem State.modGrid_fwSel (s : State) (d id : Nat) (g : Grid → Grid) : (s.modGrid d id g).fwSel = s.fwSel := rfl

@[simp] theorem State.modQueue_tick (s : State) (d q : Nat) (g : HQueue → HQueue) : (s.modQueue d q g).tick = s.tick := rfl
@[simp] theorem State.modQueue_agenda (s : State) (d q : Nat) (g : HQueue → HQueue) : (s.modQueue d q g).agenda = s.agenda := rfl
@[simp] theorem State.modQueue_cur (s : State) (d q : Nat) (g : HQueue → HQueue) : (s.modQueue d q g).cur = s.cur := rfl
@[simp] theorem State.modQueue_word (s : State) (d q : Nat) (g : HQueue → HQueue) : (s.modQueue d q g).word = s.word := rfl
@[simp] theorem State.modQueue_freeIx (s : State) (d q : Nat) (g : HQueue → HQueue) : (s.modQueue d q g).freeIx = s.freeIx := rfl
@[simp] theorem State.modQueue_nextId (s : State) (d q : Nat) (g : HQueue → HQueue) : (s.modQueue d q g).nextId = s.nextId := rfl
@[simp] theorem State.modQueue_clock (s : State) (d q : Nat) (g : HQueue → HQueue) : (s.modQueue d q g).clock = s.clock := rfl
@[simp] theorem State.modQueue_cycs (s : State) (d q : Nat) (g : HQueue → HQueue) : (s.modQueue d q g).cycs = s.cycs := rfl
@[simp] theorem State.modQueue_mem (s : State) (d q : Nat) (g : HQueue → HQueue) : (s.modQueue d q g).mem = s.mem := rfl
@[simp] theorem State.modQueue_poison (s : State) (d q : Nat) (g : HQueue → HQueue) : (s.modQueue d q g).poison = s.poison := rfl
@[simp] theorem State.modQueue_stks (s : State) (d q : Nat) (g : HQueue → HQueue) : (s.modQueue d q g).stks = s.stks := rfl
@[simp] theorem State.modQueue_vxHome (s : State) (d q : Nat) (g : HQueue → HQueue) : (s.modQueue d q g).vxHome = s.vxHome := rfl
@[simp] theorem State.modQueue_hid (s : State) (d q : Nat) (g : HQueue → HQueue) : (s.modQueue d q g).hid = s.hid := rfl
@[simp] theorem State.modQueue_hist (s : State) (d q : Nat) (g : HQueue → HQueue) : (s.modQueue d q g).hist = s.hist := rfl
@[simp] theorem State.modQueue_uses (s : State) (d q : Nat) (g : HQueue → HQueue) : (s.modQueue d q g).uses = s.uses := rfl
@[simp] theorem State.modQueue_accs (s : State) (d q : Nat) (g : HQueue → HQueue) : (s.modQueue d q g).accs = s.accs := rfl
@[simp] theorem State.modQueue_cmds (s : State) (d q : Nat) (g : HQueue → HQueue) : (s.modQueue d q g).cmds = s.cmds := rfl
@[simp] theorem State.modQueue_spaces (s : State) (d q : Nat) (g : HQueue → HQueue) : (s.modQueue d q g).spaces = s.spaces := rfl
@[simp] theorem State.modQueue_dirW (s : State) (d q : Nat) (g : HQueue → HQueue) : (s.modQueue d q g).dirW = s.dirW := rfl
@[simp] theorem State.modQueue_grp (s : State) (d q : Nat) (g : HQueue → HQueue) : (s.modQueue d q g).grp = s.grp := rfl
@[simp] theorem State.modQueue_vxmap (s : State) (d q : Nat) (g : HQueue → HQueue) : (s.modQueue d q g).vxmap = s.vxmap := rfl
@[simp] theorem State.modQueue_inb (s : State) (d q : Nat) (g : HQueue → HQueue) : (s.modQueue d q g).inb = s.inb := rfl
@[simp] theorem State.modQueue_cpls (s : State) (d q : Nat) (g : HQueue → HQueue) : (s.modQueue d q g).cpls = s.cpls := rfl
@[simp] theorem State.modQueue_ports (s : State) (d q : Nat) (g : HQueue → HQueue) : (s.modQueue d q g).ports = s.ports := rfl
@[simp] theorem State.modQueue_attest (s : State) (d q : Nat) (g : HQueue → HQueue) : (s.modQueue d q g).attest = s.attest := rfl
@[simp] theorem State.modQueue_pmcCause (s : State) (d q : Nat) (g : HQueue → HQueue) : (s.modQueue d q g).pmcCause = s.pmcCause := rfl
@[simp] theorem State.modQueue_msix (s : State) (d q : Nat) (g : HQueue → HQueue) : (s.modQueue d q g).msix = s.msix := rfl
@[simp] theorem State.modQueue_aer (s : State) (d q : Nat) (g : HQueue → HQueue) : (s.modQueue d q g).aer = s.aer := rfl
@[simp] theorem State.modQueue_spanWait (s : State) (d q : Nat) (g : HQueue → HQueue) : (s.modQueue d q g).spanWait = s.spanWait := rfl
@[simp] theorem State.modQueue_fw (s : State) (d q : Nat) (g : HQueue → HQueue) : (s.modQueue d q g).fw = s.fw := rfl
@[simp] theorem State.modQueue_fwNew (s : State) (d q : Nat) (g : HQueue → HQueue) : (s.modQueue d q g).fwNew = s.fwNew := rfl
@[simp] theorem State.modQueue_fwSel (s : State) (d q : Nat) (g : HQueue → HQueue) : (s.modQueue d q g).fwSel = s.fwSel := rfl

@[simp] theorem State.modWgOf_tick (s : State) (f : FragRef) (g : Wg → Wg) : (s.modWgOf f g).tick = s.tick := rfl
@[simp] theorem State.modWgOf_agenda (s : State) (f : FragRef) (g : Wg → Wg) : (s.modWgOf f g).agenda = s.agenda := rfl
@[simp] theorem State.modWgOf_cur (s : State) (f : FragRef) (g : Wg → Wg) : (s.modWgOf f g).cur = s.cur := rfl
@[simp] theorem State.modWgOf_word (s : State) (f : FragRef) (g : Wg → Wg) : (s.modWgOf f g).word = s.word := rfl
@[simp] theorem State.modWgOf_freeIx (s : State) (f : FragRef) (g : Wg → Wg) : (s.modWgOf f g).freeIx = s.freeIx := rfl
@[simp] theorem State.modWgOf_nextId (s : State) (f : FragRef) (g : Wg → Wg) : (s.modWgOf f g).nextId = s.nextId := rfl
@[simp] theorem State.modWgOf_clock (s : State) (f : FragRef) (g : Wg → Wg) : (s.modWgOf f g).clock = s.clock := rfl
@[simp] theorem State.modWgOf_cycs (s : State) (f : FragRef) (g : Wg → Wg) : (s.modWgOf f g).cycs = s.cycs := rfl
@[simp] theorem State.modWgOf_mem (s : State) (f : FragRef) (g : Wg → Wg) : (s.modWgOf f g).mem = s.mem := rfl
@[simp] theorem State.modWgOf_poison (s : State) (f : FragRef) (g : Wg → Wg) : (s.modWgOf f g).poison = s.poison := rfl
@[simp] theorem State.modWgOf_stks (s : State) (f : FragRef) (g : Wg → Wg) : (s.modWgOf f g).stks = s.stks := rfl
@[simp] theorem State.modWgOf_vxHome (s : State) (f : FragRef) (g : Wg → Wg) : (s.modWgOf f g).vxHome = s.vxHome := rfl
@[simp] theorem State.modWgOf_hid (s : State) (f : FragRef) (g : Wg → Wg) : (s.modWgOf f g).hid = s.hid := rfl
@[simp] theorem State.modWgOf_hist (s : State) (f : FragRef) (g : Wg → Wg) : (s.modWgOf f g).hist = s.hist := rfl
@[simp] theorem State.modWgOf_uses (s : State) (f : FragRef) (g : Wg → Wg) : (s.modWgOf f g).uses = s.uses := rfl
@[simp] theorem State.modWgOf_accs (s : State) (f : FragRef) (g : Wg → Wg) : (s.modWgOf f g).accs = s.accs := rfl
@[simp] theorem State.modWgOf_cmds (s : State) (f : FragRef) (g : Wg → Wg) : (s.modWgOf f g).cmds = s.cmds := rfl
@[simp] theorem State.modWgOf_spaces (s : State) (f : FragRef) (g : Wg → Wg) : (s.modWgOf f g).spaces = s.spaces := rfl
@[simp] theorem State.modWgOf_dirW (s : State) (f : FragRef) (g : Wg → Wg) : (s.modWgOf f g).dirW = s.dirW := rfl
@[simp] theorem State.modWgOf_grp (s : State) (f : FragRef) (g : Wg → Wg) : (s.modWgOf f g).grp = s.grp := rfl
@[simp] theorem State.modWgOf_vxmap (s : State) (f : FragRef) (g : Wg → Wg) : (s.modWgOf f g).vxmap = s.vxmap := rfl
@[simp] theorem State.modWgOf_inb (s : State) (f : FragRef) (g : Wg → Wg) : (s.modWgOf f g).inb = s.inb := rfl
@[simp] theorem State.modWgOf_cpls (s : State) (f : FragRef) (g : Wg → Wg) : (s.modWgOf f g).cpls = s.cpls := rfl
@[simp] theorem State.modWgOf_ports (s : State) (f : FragRef) (g : Wg → Wg) : (s.modWgOf f g).ports = s.ports := rfl
@[simp] theorem State.modWgOf_attest (s : State) (f : FragRef) (g : Wg → Wg) : (s.modWgOf f g).attest = s.attest := rfl
@[simp] theorem State.modWgOf_pmcCause (s : State) (f : FragRef) (g : Wg → Wg) : (s.modWgOf f g).pmcCause = s.pmcCause := rfl
@[simp] theorem State.modWgOf_msix (s : State) (f : FragRef) (g : Wg → Wg) : (s.modWgOf f g).msix = s.msix := rfl
@[simp] theorem State.modWgOf_aer (s : State) (f : FragRef) (g : Wg → Wg) : (s.modWgOf f g).aer = s.aer := rfl
@[simp] theorem State.modWgOf_spanWait (s : State) (f : FragRef) (g : Wg → Wg) : (s.modWgOf f g).spanWait = s.spanWait := rfl
@[simp] theorem State.modWgOf_fw (s : State) (f : FragRef) (g : Wg → Wg) : (s.modWgOf f g).fw = s.fw := rfl
@[simp] theorem State.modWgOf_fwNew (s : State) (f : FragRef) (g : Wg → Wg) : (s.modWgOf f g).fwNew = s.fwNew := rfl
@[simp] theorem State.modWgOf_fwSel (s : State) (f : FragRef) (g : Wg → Wg) : (s.modWgOf f g).fwSel = s.fwSel := rfl

@[simp] theorem State.modWarp_tick (s : State) (f : FragRef) (g : Warp → Warp) : (s.modWarp f g).tick = s.tick := rfl
@[simp] theorem State.modWarp_agenda (s : State) (f : FragRef) (g : Warp → Warp) : (s.modWarp f g).agenda = s.agenda := rfl
@[simp] theorem State.modWarp_cur (s : State) (f : FragRef) (g : Warp → Warp) : (s.modWarp f g).cur = s.cur := rfl
@[simp] theorem State.modWarp_word (s : State) (f : FragRef) (g : Warp → Warp) : (s.modWarp f g).word = s.word := rfl
@[simp] theorem State.modWarp_freeIx (s : State) (f : FragRef) (g : Warp → Warp) : (s.modWarp f g).freeIx = s.freeIx := rfl
@[simp] theorem State.modWarp_nextId (s : State) (f : FragRef) (g : Warp → Warp) : (s.modWarp f g).nextId = s.nextId := rfl
@[simp] theorem State.modWarp_clock (s : State) (f : FragRef) (g : Warp → Warp) : (s.modWarp f g).clock = s.clock := rfl
@[simp] theorem State.modWarp_cycs (s : State) (f : FragRef) (g : Warp → Warp) : (s.modWarp f g).cycs = s.cycs := rfl
@[simp] theorem State.modWarp_mem (s : State) (f : FragRef) (g : Warp → Warp) : (s.modWarp f g).mem = s.mem := rfl
@[simp] theorem State.modWarp_poison (s : State) (f : FragRef) (g : Warp → Warp) : (s.modWarp f g).poison = s.poison := rfl
@[simp] theorem State.modWarp_stks (s : State) (f : FragRef) (g : Warp → Warp) : (s.modWarp f g).stks = s.stks := rfl
@[simp] theorem State.modWarp_vxHome (s : State) (f : FragRef) (g : Warp → Warp) : (s.modWarp f g).vxHome = s.vxHome := rfl
@[simp] theorem State.modWarp_hid (s : State) (f : FragRef) (g : Warp → Warp) : (s.modWarp f g).hid = s.hid := rfl
@[simp] theorem State.modWarp_hist (s : State) (f : FragRef) (g : Warp → Warp) : (s.modWarp f g).hist = s.hist := rfl
@[simp] theorem State.modWarp_uses (s : State) (f : FragRef) (g : Warp → Warp) : (s.modWarp f g).uses = s.uses := rfl
@[simp] theorem State.modWarp_accs (s : State) (f : FragRef) (g : Warp → Warp) : (s.modWarp f g).accs = s.accs := rfl
@[simp] theorem State.modWarp_cmds (s : State) (f : FragRef) (g : Warp → Warp) : (s.modWarp f g).cmds = s.cmds := rfl
@[simp] theorem State.modWarp_spaces (s : State) (f : FragRef) (g : Warp → Warp) : (s.modWarp f g).spaces = s.spaces := rfl
@[simp] theorem State.modWarp_dirW (s : State) (f : FragRef) (g : Warp → Warp) : (s.modWarp f g).dirW = s.dirW := rfl
@[simp] theorem State.modWarp_grp (s : State) (f : FragRef) (g : Warp → Warp) : (s.modWarp f g).grp = s.grp := rfl
@[simp] theorem State.modWarp_vxmap (s : State) (f : FragRef) (g : Warp → Warp) : (s.modWarp f g).vxmap = s.vxmap := rfl
@[simp] theorem State.modWarp_inb (s : State) (f : FragRef) (g : Warp → Warp) : (s.modWarp f g).inb = s.inb := rfl
@[simp] theorem State.modWarp_cpls (s : State) (f : FragRef) (g : Warp → Warp) : (s.modWarp f g).cpls = s.cpls := rfl
@[simp] theorem State.modWarp_ports (s : State) (f : FragRef) (g : Warp → Warp) : (s.modWarp f g).ports = s.ports := rfl
@[simp] theorem State.modWarp_attest (s : State) (f : FragRef) (g : Warp → Warp) : (s.modWarp f g).attest = s.attest := rfl
@[simp] theorem State.modWarp_pmcCause (s : State) (f : FragRef) (g : Warp → Warp) : (s.modWarp f g).pmcCause = s.pmcCause := rfl
@[simp] theorem State.modWarp_msix (s : State) (f : FragRef) (g : Warp → Warp) : (s.modWarp f g).msix = s.msix := rfl
@[simp] theorem State.modWarp_aer (s : State) (f : FragRef) (g : Warp → Warp) : (s.modWarp f g).aer = s.aer := rfl
@[simp] theorem State.modWarp_spanWait (s : State) (f : FragRef) (g : Warp → Warp) : (s.modWarp f g).spanWait = s.spanWait := rfl
@[simp] theorem State.modWarp_fw (s : State) (f : FragRef) (g : Warp → Warp) : (s.modWarp f g).fw = s.fw := rfl
@[simp] theorem State.modWarp_fwNew (s : State) (f : FragRef) (g : Warp → Warp) : (s.modWarp f g).fwNew = s.fwNew := rfl
@[simp] theorem State.modWarp_fwSel (s : State) (f : FragRef) (g : Warp → Warp) : (s.modWarp f g).fwSel = s.fwSel := rfl

@[simp] theorem State.modFrag_tick (s : State) (f : FragRef) (g : Frag → Frag) : (s.modFrag f g).tick = s.tick := rfl
@[simp] theorem State.modFrag_agenda (s : State) (f : FragRef) (g : Frag → Frag) : (s.modFrag f g).agenda = s.agenda := rfl
@[simp] theorem State.modFrag_cur (s : State) (f : FragRef) (g : Frag → Frag) : (s.modFrag f g).cur = s.cur := rfl
@[simp] theorem State.modFrag_word (s : State) (f : FragRef) (g : Frag → Frag) : (s.modFrag f g).word = s.word := rfl
@[simp] theorem State.modFrag_freeIx (s : State) (f : FragRef) (g : Frag → Frag) : (s.modFrag f g).freeIx = s.freeIx := rfl
@[simp] theorem State.modFrag_nextId (s : State) (f : FragRef) (g : Frag → Frag) : (s.modFrag f g).nextId = s.nextId := rfl
@[simp] theorem State.modFrag_clock (s : State) (f : FragRef) (g : Frag → Frag) : (s.modFrag f g).clock = s.clock := rfl
@[simp] theorem State.modFrag_cycs (s : State) (f : FragRef) (g : Frag → Frag) : (s.modFrag f g).cycs = s.cycs := rfl
@[simp] theorem State.modFrag_mem (s : State) (f : FragRef) (g : Frag → Frag) : (s.modFrag f g).mem = s.mem := rfl
@[simp] theorem State.modFrag_poison (s : State) (f : FragRef) (g : Frag → Frag) : (s.modFrag f g).poison = s.poison := rfl
@[simp] theorem State.modFrag_stks (s : State) (f : FragRef) (g : Frag → Frag) : (s.modFrag f g).stks = s.stks := rfl
@[simp] theorem State.modFrag_vxHome (s : State) (f : FragRef) (g : Frag → Frag) : (s.modFrag f g).vxHome = s.vxHome := rfl
@[simp] theorem State.modFrag_hid (s : State) (f : FragRef) (g : Frag → Frag) : (s.modFrag f g).hid = s.hid := rfl
@[simp] theorem State.modFrag_hist (s : State) (f : FragRef) (g : Frag → Frag) : (s.modFrag f g).hist = s.hist := rfl
@[simp] theorem State.modFrag_uses (s : State) (f : FragRef) (g : Frag → Frag) : (s.modFrag f g).uses = s.uses := rfl
@[simp] theorem State.modFrag_accs (s : State) (f : FragRef) (g : Frag → Frag) : (s.modFrag f g).accs = s.accs := rfl
@[simp] theorem State.modFrag_cmds (s : State) (f : FragRef) (g : Frag → Frag) : (s.modFrag f g).cmds = s.cmds := rfl
@[simp] theorem State.modFrag_spaces (s : State) (f : FragRef) (g : Frag → Frag) : (s.modFrag f g).spaces = s.spaces := rfl
@[simp] theorem State.modFrag_dirW (s : State) (f : FragRef) (g : Frag → Frag) : (s.modFrag f g).dirW = s.dirW := rfl
@[simp] theorem State.modFrag_grp (s : State) (f : FragRef) (g : Frag → Frag) : (s.modFrag f g).grp = s.grp := rfl
@[simp] theorem State.modFrag_vxmap (s : State) (f : FragRef) (g : Frag → Frag) : (s.modFrag f g).vxmap = s.vxmap := rfl
@[simp] theorem State.modFrag_inb (s : State) (f : FragRef) (g : Frag → Frag) : (s.modFrag f g).inb = s.inb := rfl
@[simp] theorem State.modFrag_cpls (s : State) (f : FragRef) (g : Frag → Frag) : (s.modFrag f g).cpls = s.cpls := rfl
@[simp] theorem State.modFrag_ports (s : State) (f : FragRef) (g : Frag → Frag) : (s.modFrag f g).ports = s.ports := rfl
@[simp] theorem State.modFrag_attest (s : State) (f : FragRef) (g : Frag → Frag) : (s.modFrag f g).attest = s.attest := rfl
@[simp] theorem State.modFrag_pmcCause (s : State) (f : FragRef) (g : Frag → Frag) : (s.modFrag f g).pmcCause = s.pmcCause := rfl
@[simp] theorem State.modFrag_msix (s : State) (f : FragRef) (g : Frag → Frag) : (s.modFrag f g).msix = s.msix := rfl
@[simp] theorem State.modFrag_aer (s : State) (f : FragRef) (g : Frag → Frag) : (s.modFrag f g).aer = s.aer := rfl
@[simp] theorem State.modFrag_spanWait (s : State) (f : FragRef) (g : Frag → Frag) : (s.modFrag f g).spanWait = s.spanWait := rfl
@[simp] theorem State.modFrag_fw (s : State) (f : FragRef) (g : Frag → Frag) : (s.modFrag f g).fw = s.fw := rfl
@[simp] theorem State.modFrag_fwNew (s : State) (f : FragRef) (g : Frag → Frag) : (s.modFrag f g).fwNew = s.fwNew := rfl
@[simp] theorem State.modFrag_fwSel (s : State) (f : FragRef) (g : Frag → Frag) : (s.modFrag f g).fwSel = s.fwSel := rfl

@[simp] theorem State.modAcc_tick (s : State) (id : Nat) (g : Acc → Acc) : (s.modAcc id g).tick = s.tick := rfl
@[simp] theorem State.modAcc_agenda (s : State) (id : Nat) (g : Acc → Acc) : (s.modAcc id g).agenda = s.agenda := rfl
@[simp] theorem State.modAcc_cur (s : State) (id : Nat) (g : Acc → Acc) : (s.modAcc id g).cur = s.cur := rfl
@[simp] theorem State.modAcc_word (s : State) (id : Nat) (g : Acc → Acc) : (s.modAcc id g).word = s.word := rfl
@[simp] theorem State.modAcc_freeIx (s : State) (id : Nat) (g : Acc → Acc) : (s.modAcc id g).freeIx = s.freeIx := rfl
@[simp] theorem State.modAcc_nextId (s : State) (id : Nat) (g : Acc → Acc) : (s.modAcc id g).nextId = s.nextId := rfl
@[simp] theorem State.modAcc_clock (s : State) (id : Nat) (g : Acc → Acc) : (s.modAcc id g).clock = s.clock := rfl
@[simp] theorem State.modAcc_cycs (s : State) (id : Nat) (g : Acc → Acc) : (s.modAcc id g).cycs = s.cycs := rfl
@[simp] theorem State.modAcc_mem (s : State) (id : Nat) (g : Acc → Acc) : (s.modAcc id g).mem = s.mem := rfl
@[simp] theorem State.modAcc_poison (s : State) (id : Nat) (g : Acc → Acc) : (s.modAcc id g).poison = s.poison := rfl
@[simp] theorem State.modAcc_dies (s : State) (id : Nat) (g : Acc → Acc) : (s.modAcc id g).dies = s.dies := rfl
@[simp] theorem State.modAcc_stks (s : State) (id : Nat) (g : Acc → Acc) : (s.modAcc id g).stks = s.stks := rfl
@[simp] theorem State.modAcc_vxHome (s : State) (id : Nat) (g : Acc → Acc) : (s.modAcc id g).vxHome = s.vxHome := rfl
@[simp] theorem State.modAcc_hid (s : State) (id : Nat) (g : Acc → Acc) : (s.modAcc id g).hid = s.hid := rfl
@[simp] theorem State.modAcc_hist (s : State) (id : Nat) (g : Acc → Acc) : (s.modAcc id g).hist = s.hist := rfl
@[simp] theorem State.modAcc_uses (s : State) (id : Nat) (g : Acc → Acc) : (s.modAcc id g).uses = s.uses := rfl
@[simp] theorem State.modAcc_accs (s : State) (id : Nat) (g : Acc → Acc) : (s.modAcc id g).accs = s.accs.map (fun a => if a.id == id then g a else a) := rfl
@[simp] theorem State.modAcc_cmds (s : State) (id : Nat) (g : Acc → Acc) : (s.modAcc id g).cmds = s.cmds := rfl
@[simp] theorem State.modAcc_spaces (s : State) (id : Nat) (g : Acc → Acc) : (s.modAcc id g).spaces = s.spaces := rfl
@[simp] theorem State.modAcc_dirW (s : State) (id : Nat) (g : Acc → Acc) : (s.modAcc id g).dirW = s.dirW := rfl
@[simp] theorem State.modAcc_grp (s : State) (id : Nat) (g : Acc → Acc) : (s.modAcc id g).grp = s.grp := rfl
@[simp] theorem State.modAcc_vxmap (s : State) (id : Nat) (g : Acc → Acc) : (s.modAcc id g).vxmap = s.vxmap := rfl
@[simp] theorem State.modAcc_inb (s : State) (id : Nat) (g : Acc → Acc) : (s.modAcc id g).inb = s.inb := rfl
@[simp] theorem State.modAcc_cpls (s : State) (id : Nat) (g : Acc → Acc) : (s.modAcc id g).cpls = s.cpls := rfl
@[simp] theorem State.modAcc_ports (s : State) (id : Nat) (g : Acc → Acc) : (s.modAcc id g).ports = s.ports := rfl
@[simp] theorem State.modAcc_attest (s : State) (id : Nat) (g : Acc → Acc) : (s.modAcc id g).attest = s.attest := rfl
@[simp] theorem State.modAcc_pmcCause (s : State) (id : Nat) (g : Acc → Acc) : (s.modAcc id g).pmcCause = s.pmcCause := rfl
@[simp] theorem State.modAcc_msix (s : State) (id : Nat) (g : Acc → Acc) : (s.modAcc id g).msix = s.msix := rfl
@[simp] theorem State.modAcc_aer (s : State) (id : Nat) (g : Acc → Acc) : (s.modAcc id g).aer = s.aer := rfl
@[simp] theorem State.modAcc_spanWait (s : State) (id : Nat) (g : Acc → Acc) : (s.modAcc id g).spanWait = s.spanWait := rfl
@[simp] theorem State.modAcc_fw (s : State) (id : Nat) (g : Acc → Acc) : (s.modAcc id g).fw = s.fw := rfl
@[simp] theorem State.modAcc_fwNew (s : State) (id : Nat) (g : Acc → Acc) : (s.modAcc id g).fwNew = s.fwNew := rfl
@[simp] theorem State.modAcc_fwSel (s : State) (id : Nat) (g : Acc → Acc) : (s.modAcc id g).fwSel = s.fwSel := rfl

@[simp] theorem State.dropAcc_tick (s : State) (id : Nat) : (s.dropAcc id).tick = s.tick := rfl
@[simp] theorem State.dropAcc_agenda (s : State) (id : Nat) : (s.dropAcc id).agenda = s.agenda := rfl
@[simp] theorem State.dropAcc_cur (s : State) (id : Nat) : (s.dropAcc id).cur = s.cur := rfl
@[simp] theorem State.dropAcc_word (s : State) (id : Nat) : (s.dropAcc id).word = s.word := rfl
@[simp] theorem State.dropAcc_freeIx (s : State) (id : Nat) : (s.dropAcc id).freeIx = s.freeIx := rfl
@[simp] theorem State.dropAcc_nextId (s : State) (id : Nat) : (s.dropAcc id).nextId = s.nextId := rfl
@[simp] theorem State.dropAcc_clock (s : State) (id : Nat) : (s.dropAcc id).clock = s.clock := rfl
@[simp] theorem State.dropAcc_cycs (s : State) (id : Nat) : (s.dropAcc id).cycs = s.cycs := rfl
@[simp] theorem State.dropAcc_mem (s : State) (id : Nat) : (s.dropAcc id).mem = s.mem := rfl
@[simp] theorem State.dropAcc_poison (s : State) (id : Nat) : (s.dropAcc id).poison = s.poison := rfl
@[simp] theorem State.dropAcc_dies (s : State) (id : Nat) : (s.dropAcc id).dies = s.dies := rfl
@[simp] theorem State.dropAcc_stks (s : State) (id : Nat) : (s.dropAcc id).stks = s.stks := rfl
@[simp] theorem State.dropAcc_vxHome (s : State) (id : Nat) : (s.dropAcc id).vxHome = s.vxHome := rfl
@[simp] theorem State.dropAcc_hid (s : State) (id : Nat) : (s.dropAcc id).hid = s.hid := rfl
@[simp] theorem State.dropAcc_hist (s : State) (id : Nat) : (s.dropAcc id).hist = s.hist := rfl
@[simp] theorem State.dropAcc_uses (s : State) (id : Nat) : (s.dropAcc id).uses = s.uses := rfl
@[simp] theorem State.dropAcc_accs (s : State) (id : Nat) : (s.dropAcc id).accs = s.accs.filter (fun a => a.id != id) := rfl
@[simp] theorem State.dropAcc_cmds (s : State) (id : Nat) : (s.dropAcc id).cmds = s.cmds := rfl
@[simp] theorem State.dropAcc_spaces (s : State) (id : Nat) : (s.dropAcc id).spaces = s.spaces := rfl
@[simp] theorem State.dropAcc_dirW (s : State) (id : Nat) : (s.dropAcc id).dirW = s.dirW := rfl
@[simp] theorem State.dropAcc_grp (s : State) (id : Nat) : (s.dropAcc id).grp = s.grp := rfl
@[simp] theorem State.dropAcc_vxmap (s : State) (id : Nat) : (s.dropAcc id).vxmap = s.vxmap := rfl
@[simp] theorem State.dropAcc_inb (s : State) (id : Nat) : (s.dropAcc id).inb = s.inb := rfl
@[simp] theorem State.dropAcc_cpls (s : State) (id : Nat) : (s.dropAcc id).cpls = s.cpls := rfl
@[simp] theorem State.dropAcc_ports (s : State) (id : Nat) : (s.dropAcc id).ports = s.ports := rfl
@[simp] theorem State.dropAcc_attest (s : State) (id : Nat) : (s.dropAcc id).attest = s.attest := rfl
@[simp] theorem State.dropAcc_pmcCause (s : State) (id : Nat) : (s.dropAcc id).pmcCause = s.pmcCause := rfl
@[simp] theorem State.dropAcc_msix (s : State) (id : Nat) : (s.dropAcc id).msix = s.msix := rfl
@[simp] theorem State.dropAcc_aer (s : State) (id : Nat) : (s.dropAcc id).aer = s.aer := rfl
@[simp] theorem State.dropAcc_spanWait (s : State) (id : Nat) : (s.dropAcc id).spanWait = s.spanWait := rfl
@[simp] theorem State.dropAcc_fw (s : State) (id : Nat) : (s.dropAcc id).fw = s.fw := rfl
@[simp] theorem State.dropAcc_fwNew (s : State) (id : Nat) : (s.dropAcc id).fwNew = s.fwNew := rfl
@[simp] theorem State.dropAcc_fwSel (s : State) (id : Nat) : (s.dropAcc id).fwSel = s.fwSel := rfl

@[simp] theorem State.sendAcc_tick (s : State) (a : Acc) : (s.sendAcc a).tick = s.tick := rfl
@[simp] theorem State.sendAcc_agenda (s : State) (a : Acc) : (s.sendAcc a).agenda = s.agenda := rfl
@[simp] theorem State.sendAcc_cur (s : State) (a : Acc) : (s.sendAcc a).cur = s.cur := rfl
@[simp] theorem State.sendAcc_word (s : State) (a : Acc) : (s.sendAcc a).word = s.word := rfl
@[simp] theorem State.sendAcc_freeIx (s : State) (a : Acc) : (s.sendAcc a).freeIx = s.freeIx := rfl
@[simp] theorem State.sendAcc_nextId (s : State) (a : Acc) : (s.sendAcc a).nextId = s.nextId := rfl
@[simp] theorem State.sendAcc_clock (s : State) (a : Acc) : (s.sendAcc a).clock = s.clock := rfl
@[simp] theorem State.sendAcc_cycs (s : State) (a : Acc) : (s.sendAcc a).cycs = s.cycs := rfl
@[simp] theorem State.sendAcc_mem (s : State) (a : Acc) : (s.sendAcc a).mem = s.mem := rfl
@[simp] theorem State.sendAcc_poison (s : State) (a : Acc) : (s.sendAcc a).poison = s.poison := rfl
@[simp] theorem State.sendAcc_dies (s : State) (a : Acc) : (s.sendAcc a).dies = s.dies := rfl
@[simp] theorem State.sendAcc_stks (s : State) (a : Acc) : (s.sendAcc a).stks = s.stks := rfl
@[simp] theorem State.sendAcc_vxHome (s : State) (a : Acc) : (s.sendAcc a).vxHome = s.vxHome := rfl
@[simp] theorem State.sendAcc_hid (s : State) (a : Acc) : (s.sendAcc a).hid = s.hid := rfl
@[simp] theorem State.sendAcc_hist (s : State) (a : Acc) : (s.sendAcc a).hist = s.hist := rfl
@[simp] theorem State.sendAcc_uses (s : State) (a : Acc) : (s.sendAcc a).uses = s.uses := rfl
@[simp] theorem State.sendAcc_accs (s : State) (a : Acc) : (s.sendAcc a).accs = s.accs.filter (fun x => x.id != a.id) ++ [a] := rfl
@[simp] theorem State.sendAcc_cmds (s : State) (a : Acc) : (s.sendAcc a).cmds = s.cmds := rfl
@[simp] theorem State.sendAcc_spaces (s : State) (a : Acc) : (s.sendAcc a).spaces = s.spaces := rfl
@[simp] theorem State.sendAcc_dirW (s : State) (a : Acc) : (s.sendAcc a).dirW = s.dirW := rfl
@[simp] theorem State.sendAcc_grp (s : State) (a : Acc) : (s.sendAcc a).grp = s.grp := rfl
@[simp] theorem State.sendAcc_vxmap (s : State) (a : Acc) : (s.sendAcc a).vxmap = s.vxmap := rfl
@[simp] theorem State.sendAcc_inb (s : State) (a : Acc) : (s.sendAcc a).inb = s.inb := rfl
@[simp] theorem State.sendAcc_cpls (s : State) (a : Acc) : (s.sendAcc a).cpls = s.cpls := rfl
@[simp] theorem State.sendAcc_ports (s : State) (a : Acc) : (s.sendAcc a).ports = s.ports := rfl
@[simp] theorem State.sendAcc_attest (s : State) (a : Acc) : (s.sendAcc a).attest = s.attest := rfl
@[simp] theorem State.sendAcc_pmcCause (s : State) (a : Acc) : (s.sendAcc a).pmcCause = s.pmcCause := rfl
@[simp] theorem State.sendAcc_msix (s : State) (a : Acc) : (s.sendAcc a).msix = s.msix := rfl
@[simp] theorem State.sendAcc_aer (s : State) (a : Acc) : (s.sendAcc a).aer = s.aer := rfl
@[simp] theorem State.sendAcc_spanWait (s : State) (a : Acc) : (s.sendAcc a).spanWait = s.spanWait := rfl
@[simp] theorem State.sendAcc_fw (s : State) (a : Acc) : (s.sendAcc a).fw = s.fw := rfl
@[simp] theorem State.sendAcc_fwNew (s : State) (a : Acc) : (s.sendAcc a).fwNew = s.fwNew := rfl
@[simp] theorem State.sendAcc_fwSel (s : State) (a : Acc) : (s.sendAcc a).fwSel = s.fwSel := rfl

@[simp] theorem State.modCmd_tick (s : State) (id : Nat) (g : Cmd → Cmd) : (s.modCmd id g).tick = s.tick := rfl
@[simp] theorem State.modCmd_agenda (s : State) (id : Nat) (g : Cmd → Cmd) : (s.modCmd id g).agenda = s.agenda := rfl
@[simp] theorem State.modCmd_cur (s : State) (id : Nat) (g : Cmd → Cmd) : (s.modCmd id g).cur = s.cur := rfl
@[simp] theorem State.modCmd_word (s : State) (id : Nat) (g : Cmd → Cmd) : (s.modCmd id g).word = s.word := rfl
@[simp] theorem State.modCmd_freeIx (s : State) (id : Nat) (g : Cmd → Cmd) : (s.modCmd id g).freeIx = s.freeIx := rfl
@[simp] theorem State.modCmd_nextId (s : State) (id : Nat) (g : Cmd → Cmd) : (s.modCmd id g).nextId = s.nextId := rfl
@[simp] theorem State.modCmd_clock (s : State) (id : Nat) (g : Cmd → Cmd) : (s.modCmd id g).clock = s.clock := rfl
@[simp] theorem State.modCmd_cycs (s : State) (id : Nat) (g : Cmd → Cmd) : (s.modCmd id g).cycs = s.cycs := rfl
@[simp] theorem State.modCmd_mem (s : State) (id : Nat) (g : Cmd → Cmd) : (s.modCmd id g).mem = s.mem := rfl
@[simp] theorem State.modCmd_poison (s : State) (id : Nat) (g : Cmd → Cmd) : (s.modCmd id g).poison = s.poison := rfl
@[simp] theorem State.modCmd_dies (s : State) (id : Nat) (g : Cmd → Cmd) : (s.modCmd id g).dies = s.dies := rfl
@[simp] theorem State.modCmd_stks (s : State) (id : Nat) (g : Cmd → Cmd) : (s.modCmd id g).stks = s.stks := rfl
@[simp] theorem State.modCmd_vxHome (s : State) (id : Nat) (g : Cmd → Cmd) : (s.modCmd id g).vxHome = s.vxHome := rfl
@[simp] theorem State.modCmd_hid (s : State) (id : Nat) (g : Cmd → Cmd) : (s.modCmd id g).hid = s.hid := rfl
@[simp] theorem State.modCmd_hist (s : State) (id : Nat) (g : Cmd → Cmd) : (s.modCmd id g).hist = s.hist := rfl
@[simp] theorem State.modCmd_uses (s : State) (id : Nat) (g : Cmd → Cmd) : (s.modCmd id g).uses = s.uses := rfl
@[simp] theorem State.modCmd_accs (s : State) (id : Nat) (g : Cmd → Cmd) : (s.modCmd id g).accs = s.accs := rfl
@[simp] theorem State.modCmd_cmds (s : State) (id : Nat) (g : Cmd → Cmd) : (s.modCmd id g).cmds = s.cmds.map (fun c => if c.id == id then g c else c) := rfl
@[simp] theorem State.modCmd_spaces (s : State) (id : Nat) (g : Cmd → Cmd) : (s.modCmd id g).spaces = s.spaces := rfl
@[simp] theorem State.modCmd_dirW (s : State) (id : Nat) (g : Cmd → Cmd) : (s.modCmd id g).dirW = s.dirW := rfl
@[simp] theorem State.modCmd_grp (s : State) (id : Nat) (g : Cmd → Cmd) : (s.modCmd id g).grp = s.grp := rfl
@[simp] theorem State.modCmd_vxmap (s : State) (id : Nat) (g : Cmd → Cmd) : (s.modCmd id g).vxmap = s.vxmap := rfl
@[simp] theorem State.modCmd_inb (s : State) (id : Nat) (g : Cmd → Cmd) : (s.modCmd id g).inb = s.inb := rfl
@[simp] theorem State.modCmd_cpls (s : State) (id : Nat) (g : Cmd → Cmd) : (s.modCmd id g).cpls = s.cpls := rfl
@[simp] theorem State.modCmd_ports (s : State) (id : Nat) (g : Cmd → Cmd) : (s.modCmd id g).ports = s.ports := rfl
@[simp] theorem State.modCmd_attest (s : State) (id : Nat) (g : Cmd → Cmd) : (s.modCmd id g).attest = s.attest := rfl
@[simp] theorem State.modCmd_pmcCause (s : State) (id : Nat) (g : Cmd → Cmd) : (s.modCmd id g).pmcCause = s.pmcCause := rfl
@[simp] theorem State.modCmd_msix (s : State) (id : Nat) (g : Cmd → Cmd) : (s.modCmd id g).msix = s.msix := rfl
@[simp] theorem State.modCmd_aer (s : State) (id : Nat) (g : Cmd → Cmd) : (s.modCmd id g).aer = s.aer := rfl
@[simp] theorem State.modCmd_spanWait (s : State) (id : Nat) (g : Cmd → Cmd) : (s.modCmd id g).spanWait = s.spanWait := rfl
@[simp] theorem State.modCmd_fw (s : State) (id : Nat) (g : Cmd → Cmd) : (s.modCmd id g).fw = s.fw := rfl
@[simp] theorem State.modCmd_fwNew (s : State) (id : Nat) (g : Cmd → Cmd) : (s.modCmd id g).fwNew = s.fwNew := rfl
@[simp] theorem State.modCmd_fwSel (s : State) (id : Nat) (g : Cmd → Cmd) : (s.modCmd id g).fwSel = s.fwSel := rfl

@[simp] theorem State.setSpace_tick (s : State) (sp : Nat) (x : Space) : (s.setSpace sp x).tick = s.tick := rfl
@[simp] theorem State.setSpace_agenda (s : State) (sp : Nat) (x : Space) : (s.setSpace sp x).agenda = s.agenda := rfl
@[simp] theorem State.setSpace_cur (s : State) (sp : Nat) (x : Space) : (s.setSpace sp x).cur = s.cur := rfl
@[simp] theorem State.setSpace_word (s : State) (sp : Nat) (x : Space) : (s.setSpace sp x).word = s.word := rfl
@[simp] theorem State.setSpace_freeIx (s : State) (sp : Nat) (x : Space) : (s.setSpace sp x).freeIx = s.freeIx := rfl
@[simp] theorem State.setSpace_nextId (s : State) (sp : Nat) (x : Space) : (s.setSpace sp x).nextId = s.nextId := rfl
@[simp] theorem State.setSpace_clock (s : State) (sp : Nat) (x : Space) : (s.setSpace sp x).clock = s.clock := rfl
@[simp] theorem State.setSpace_cycs (s : State) (sp : Nat) (x : Space) : (s.setSpace sp x).cycs = s.cycs := rfl
@[simp] theorem State.setSpace_mem (s : State) (sp : Nat) (x : Space) : (s.setSpace sp x).mem = s.mem := rfl
@[simp] theorem State.setSpace_poison (s : State) (sp : Nat) (x : Space) : (s.setSpace sp x).poison = s.poison := rfl
@[simp] theorem State.setSpace_dies (s : State) (sp : Nat) (x : Space) : (s.setSpace sp x).dies = s.dies := rfl
@[simp] theorem State.setSpace_stks (s : State) (sp : Nat) (x : Space) : (s.setSpace sp x).stks = s.stks := rfl
@[simp] theorem State.setSpace_vxHome (s : State) (sp : Nat) (x : Space) : (s.setSpace sp x).vxHome = s.vxHome := rfl
@[simp] theorem State.setSpace_hid (s : State) (sp : Nat) (x : Space) : (s.setSpace sp x).hid = s.hid := rfl
@[simp] theorem State.setSpace_hist (s : State) (sp : Nat) (x : Space) : (s.setSpace sp x).hist = s.hist := rfl
@[simp] theorem State.setSpace_uses (s : State) (sp : Nat) (x : Space) : (s.setSpace sp x).uses = s.uses := rfl
@[simp] theorem State.setSpace_accs (s : State) (sp : Nat) (x : Space) : (s.setSpace sp x).accs = s.accs := rfl
@[simp] theorem State.setSpace_cmds (s : State) (sp : Nat) (x : Space) : (s.setSpace sp x).cmds = s.cmds := rfl
@[simp] theorem State.setSpace_spaces (s : State) (sp : Nat) (x : Space) : (s.setSpace sp x).spaces = Tab.set s.spaces sp x := rfl
@[simp] theorem State.setSpace_dirW (s : State) (sp : Nat) (x : Space) : (s.setSpace sp x).dirW = s.dirW := rfl
@[simp] theorem State.setSpace_grp (s : State) (sp : Nat) (x : Space) : (s.setSpace sp x).grp = s.grp := rfl
@[simp] theorem State.setSpace_vxmap (s : State) (sp : Nat) (x : Space) : (s.setSpace sp x).vxmap = s.vxmap := rfl
@[simp] theorem State.setSpace_inb (s : State) (sp : Nat) (x : Space) : (s.setSpace sp x).inb = s.inb := rfl
@[simp] theorem State.setSpace_cpls (s : State) (sp : Nat) (x : Space) : (s.setSpace sp x).cpls = s.cpls := rfl
@[simp] theorem State.setSpace_ports (s : State) (sp : Nat) (x : Space) : (s.setSpace sp x).ports = s.ports := rfl
@[simp] theorem State.setSpace_attest (s : State) (sp : Nat) (x : Space) : (s.setSpace sp x).attest = s.attest := rfl
@[simp] theorem State.setSpace_pmcCause (s : State) (sp : Nat) (x : Space) : (s.setSpace sp x).pmcCause = s.pmcCause := rfl
@[simp] theorem State.setSpace_msix (s : State) (sp : Nat) (x : Space) : (s.setSpace sp x).msix = s.msix := rfl
@[simp] theorem State.setSpace_aer (s : State) (sp : Nat) (x : Space) : (s.setSpace sp x).aer = s.aer := rfl
@[simp] theorem State.setSpace_spanWait (s : State) (sp : Nat) (x : Space) : (s.setSpace sp x).spanWait = s.spanWait := rfl
@[simp] theorem State.setSpace_fw (s : State) (sp : Nat) (x : Space) : (s.setSpace sp x).fw = s.fw := rfl
@[simp] theorem State.setSpace_fwNew (s : State) (sp : Nat) (x : Space) : (s.setSpace sp x).fwNew = s.fwNew := rfl
@[simp] theorem State.setSpace_fwSel (s : State) (sp : Nat) (x : Space) : (s.setSpace sp x).fwSel = s.fwSel := rfl

@[simp] theorem State.modPort_tick (s : State) (p : Nat) (g : Port → Port) : (s.modPort p g).tick = s.tick := rfl
@[simp] theorem State.modPort_agenda (s : State) (p : Nat) (g : Port → Port) : (s.modPort p g).agenda = s.agenda := rfl
@[simp] theorem State.modPort_cur (s : State) (p : Nat) (g : Port → Port) : (s.modPort p g).cur = s.cur := rfl
@[simp] theorem State.modPort_word (s : State) (p : Nat) (g : Port → Port) : (s.modPort p g).word = s.word := rfl
@[simp] theorem State.modPort_freeIx (s : State) (p : Nat) (g : Port → Port) : (s.modPort p g).freeIx = s.freeIx := rfl
@[simp] theorem State.modPort_nextId (s : State) (p : Nat) (g : Port → Port) : (s.modPort p g).nextId = s.nextId := rfl
@[simp] theorem State.modPort_clock (s : State) (p : Nat) (g : Port → Port) : (s.modPort p g).clock = s.clock := rfl
@[simp] theorem State.modPort_cycs (s : State) (p : Nat) (g : Port → Port) : (s.modPort p g).cycs = s.cycs := rfl
@[simp] theorem State.modPort_mem (s : State) (p : Nat) (g : Port → Port) : (s.modPort p g).mem = s.mem := rfl
@[simp] theorem State.modPort_poison (s : State) (p : Nat) (g : Port → Port) : (s.modPort p g).poison = s.poison := rfl
@[simp] theorem State.modPort_dies (s : State) (p : Nat) (g : Port → Port) : (s.modPort p g).dies = s.dies := rfl
@[simp] theorem State.modPort_stks (s : State) (p : Nat) (g : Port → Port) : (s.modPort p g).stks = s.stks := rfl
@[simp] theorem State.modPort_vxHome (s : State) (p : Nat) (g : Port → Port) : (s.modPort p g).vxHome = s.vxHome := rfl
@[simp] theorem State.modPort_hid (s : State) (p : Nat) (g : Port → Port) : (s.modPort p g).hid = s.hid := rfl
@[simp] theorem State.modPort_hist (s : State) (p : Nat) (g : Port → Port) : (s.modPort p g).hist = s.hist := rfl
@[simp] theorem State.modPort_uses (s : State) (p : Nat) (g : Port → Port) : (s.modPort p g).uses = s.uses := rfl
@[simp] theorem State.modPort_accs (s : State) (p : Nat) (g : Port → Port) : (s.modPort p g).accs = s.accs := rfl
@[simp] theorem State.modPort_cmds (s : State) (p : Nat) (g : Port → Port) : (s.modPort p g).cmds = s.cmds := rfl
@[simp] theorem State.modPort_spaces (s : State) (p : Nat) (g : Port → Port) : (s.modPort p g).spaces = s.spaces := rfl
@[simp] theorem State.modPort_dirW (s : State) (p : Nat) (g : Port → Port) : (s.modPort p g).dirW = s.dirW := rfl
@[simp] theorem State.modPort_grp (s : State) (p : Nat) (g : Port → Port) : (s.modPort p g).grp = s.grp := rfl
@[simp] theorem State.modPort_vxmap (s : State) (p : Nat) (g : Port → Port) : (s.modPort p g).vxmap = s.vxmap := rfl
@[simp] theorem State.modPort_inb (s : State) (p : Nat) (g : Port → Port) : (s.modPort p g).inb = s.inb := rfl
@[simp] theorem State.modPort_cpls (s : State) (p : Nat) (g : Port → Port) : (s.modPort p g).cpls = s.cpls := rfl
@[simp] theorem State.modPort_ports (s : State) (p : Nat) (g : Port → Port) : (s.modPort p g).ports = listMod s.ports p g := rfl
@[simp] theorem State.modPort_attest (s : State) (p : Nat) (g : Port → Port) : (s.modPort p g).attest = s.attest := rfl
@[simp] theorem State.modPort_pmcCause (s : State) (p : Nat) (g : Port → Port) : (s.modPort p g).pmcCause = s.pmcCause := rfl
@[simp] theorem State.modPort_msix (s : State) (p : Nat) (g : Port → Port) : (s.modPort p g).msix = s.msix := rfl
@[simp] theorem State.modPort_aer (s : State) (p : Nat) (g : Port → Port) : (s.modPort p g).aer = s.aer := rfl
@[simp] theorem State.modPort_spanWait (s : State) (p : Nat) (g : Port → Port) : (s.modPort p g).spanWait = s.spanWait := rfl
@[simp] theorem State.modPort_fw (s : State) (p : Nat) (g : Port → Port) : (s.modPort p g).fw = s.fw := rfl
@[simp] theorem State.modPort_fwNew (s : State) (p : Nat) (g : Port → Port) : (s.modPort p g).fwNew = s.fwNew := rfl
@[simp] theorem State.modPort_fwSel (s : State) (p : Nat) (g : Port → Port) : (s.modPort p g).fwSel = s.fwSel := rfl

@[simp] theorem wrB_tick (s : State) (pa : Nat) (b : Byte) : (wrB s pa b).tick = s.tick := rfl
@[simp] theorem wrB_agenda (s : State) (pa : Nat) (b : Byte) : (wrB s pa b).agenda = s.agenda := rfl
@[simp] theorem wrB_cur (s : State) (pa : Nat) (b : Byte) : (wrB s pa b).cur = s.cur := rfl
@[simp] theorem wrB_word (s : State) (pa : Nat) (b : Byte) : (wrB s pa b).word = s.word := rfl
@[simp] theorem wrB_freeIx (s : State) (pa : Nat) (b : Byte) : (wrB s pa b).freeIx = s.freeIx := rfl
@[simp] theorem wrB_nextId (s : State) (pa : Nat) (b : Byte) : (wrB s pa b).nextId = s.nextId := rfl
@[simp] theorem wrB_clock (s : State) (pa : Nat) (b : Byte) : (wrB s pa b).clock = s.clock := rfl
@[simp] theorem wrB_cycs (s : State) (pa : Nat) (b : Byte) : (wrB s pa b).cycs = s.cycs := rfl
@[simp] theorem wrB_mem (s : State) (pa : Nat) (b : Byte) : (wrB s pa b).mem = Tab.put s.mem pa b memDefault := rfl
@[simp] theorem wrB_poison (s : State) (pa : Nat) (b : Byte) : (wrB s pa b).poison = s.poison := rfl
@[simp] theorem wrB_dies (s : State) (pa : Nat) (b : Byte) : (wrB s pa b).dies = s.dies := rfl
@[simp] theorem wrB_stks (s : State) (pa : Nat) (b : Byte) : (wrB s pa b).stks = s.stks := rfl
@[simp] theorem wrB_vxHome (s : State) (pa : Nat) (b : Byte) : (wrB s pa b).vxHome = s.vxHome := rfl
@[simp] theorem wrB_hid (s : State) (pa : Nat) (b : Byte) : (wrB s pa b).hid = s.hid := rfl
@[simp] theorem wrB_hist (s : State) (pa : Nat) (b : Byte) : (wrB s pa b).hist = s.hist := rfl
@[simp] theorem wrB_uses (s : State) (pa : Nat) (b : Byte) : (wrB s pa b).uses = s.uses := rfl
@[simp] theorem wrB_accs (s : State) (pa : Nat) (b : Byte) : (wrB s pa b).accs = s.accs := rfl
@[simp] theorem wrB_cmds (s : State) (pa : Nat) (b : Byte) : (wrB s pa b).cmds = s.cmds := rfl
@[simp] theorem wrB_spaces (s : State) (pa : Nat) (b : Byte) : (wrB s pa b).spaces = s.spaces := rfl
@[simp] theorem wrB_dirW (s : State) (pa : Nat) (b : Byte) : (wrB s pa b).dirW = s.dirW := rfl
@[simp] theorem wrB_grp (s : State) (pa : Nat) (b : Byte) : (wrB s pa b).grp = s.grp := rfl
@[simp] theorem wrB_vxmap (s : State) (pa : Nat) (b : Byte) : (wrB s pa b).vxmap = s.vxmap := rfl
@[simp] theorem wrB_inb (s : State) (pa : Nat) (b : Byte) : (wrB s pa b).inb = s.inb := rfl
@[simp] theorem wrB_cpls (s : State) (pa : Nat) (b : Byte) : (wrB s pa b).cpls = s.cpls := rfl
@[simp] theorem wrB_ports (s : State) (pa : Nat) (b : Byte) : (wrB s pa b).ports = s.ports := rfl
@[simp] theorem wrB_attest (s : State) (pa : Nat) (b : Byte) : (wrB s pa b).attest = s.attest := rfl
@[simp] theorem wrB_pmcCause (s : State) (pa : Nat) (b : Byte) : (wrB s pa b).pmcCause = s.pmcCause := rfl
@[simp] theorem wrB_msix (s : State) (pa : Nat) (b : Byte) : (wrB s pa b).msix = s.msix := rfl
@[simp] theorem wrB_aer (s : State) (pa : Nat) (b : Byte) : (wrB s pa b).aer = s.aer := rfl
@[simp] theorem wrB_spanWait (s : State) (pa : Nat) (b : Byte) : (wrB s pa b).spanWait = s.spanWait := rfl
@[simp] theorem wrB_fw (s : State) (pa : Nat) (b : Byte) : (wrB s pa b).fw = s.fw := rfl
@[simp] theorem wrB_fwNew (s : State) (pa : Nat) (b : Byte) : (wrB s pa b).fwNew = s.fwNew := rfl
@[simp] theorem wrB_fwSel (s : State) (pa : Nat) (b : Byte) : (wrB s pa b).fwSel = s.fwSel := rfl

@[simp] theorem clearPois_tick (s : State) (pa n : Nat) : (clearPois s pa n).tick = s.tick := rfl
@[simp] theorem clearPois_agenda (s : State) (pa n : Nat) : (clearPois s pa n).agenda = s.agenda := rfl
@[simp] theorem clearPois_cur (s : State) (pa n : Nat) : (clearPois s pa n).cur = s.cur := rfl
@[simp] theorem clearPois_word (s : State) (pa n : Nat) : (clearPois s pa n).word = s.word := rfl
@[simp] theorem clearPois_freeIx (s : State) (pa n : Nat) : (clearPois s pa n).freeIx = s.freeIx := rfl
@[simp] theorem clearPois_nextId (s : State) (pa n : Nat) : (clearPois s pa n).nextId = s.nextId := rfl
@[simp] theorem clearPois_clock (s : State) (pa n : Nat) : (clearPois s pa n).clock = s.clock := rfl
@[simp] theorem clearPois_cycs (s : State) (pa n : Nat) : (clearPois s pa n).cycs = s.cycs := rfl
@[simp] theorem clearPois_mem (s : State) (pa n : Nat) : (clearPois s pa n).mem = s.mem := rfl
@[simp] theorem clearPois_dies (s : State) (pa n : Nat) : (clearPois s pa n).dies = s.dies := rfl
@[simp] theorem clearPois_stks (s : State) (pa n : Nat) : (clearPois s pa n).stks = s.stks := rfl
@[simp] theorem clearPois_vxHome (s : State) (pa n : Nat) : (clearPois s pa n).vxHome = s.vxHome := rfl
@[simp] theorem clearPois_hid (s : State) (pa n : Nat) : (clearPois s pa n).hid = s.hid := rfl
@[simp] theorem clearPois_hist (s : State) (pa n : Nat) : (clearPois s pa n).hist = s.hist := rfl
@[simp] theorem clearPois_uses (s : State) (pa n : Nat) : (clearPois s pa n).uses = s.uses := rfl
@[simp] theorem clearPois_accs (s : State) (pa n : Nat) : (clearPois s pa n).accs = s.accs := rfl
@[simp] theorem clearPois_cmds (s : State) (pa n : Nat) : (clearPois s pa n).cmds = s.cmds := rfl
@[simp] theorem clearPois_spaces (s : State) (pa n : Nat) : (clearPois s pa n).spaces = s.spaces := rfl
@[simp] theorem clearPois_dirW (s : State) (pa n : Nat) : (clearPois s pa n).dirW = s.dirW := rfl
@[simp] theorem clearPois_grp (s : State) (pa n : Nat) : (clearPois s pa n).grp = s.grp := rfl
@[simp] theorem clearPois_vxmap (s : State) (pa n : Nat) : (clearPois s pa n).vxmap = s.vxmap := rfl
@[simp] theorem clearPois_inb (s : State) (pa n : Nat) : (clearPois s pa n).inb = s.inb := rfl
@[simp] theorem clearPois_cpls (s : State) (pa n : Nat) : (clearPois s pa n).cpls = s.cpls := rfl
@[simp] theorem clearPois_ports (s : State) (pa n : Nat) : (clearPois s pa n).ports = s.ports := rfl
@[simp] theorem clearPois_attest (s : State) (pa n : Nat) : (clearPois s pa n).attest = s.attest := rfl
@[simp] theorem clearPois_pmcCause (s : State) (pa n : Nat) : (clearPois s pa n).pmcCause = s.pmcCause := rfl
@[simp] theorem clearPois_msix (s : State) (pa n : Nat) : (clearPois s pa n).msix = s.msix := rfl
@[simp] theorem clearPois_aer (s : State) (pa n : Nat) : (clearPois s pa n).aer = s.aer := rfl
@[simp] theorem clearPois_spanWait (s : State) (pa n : Nat) : (clearPois s pa n).spanWait = s.spanWait := rfl
@[simp] theorem clearPois_fw (s : State) (pa n : Nat) : (clearPois s pa n).fw = s.fw := rfl
@[simp] theorem clearPois_fwNew (s : State) (pa n : Nat) : (clearPois s pa n).fwNew = s.fwNew := rfl
@[simp] theorem clearPois_fwSel (s : State) (pa n : Nat) : (clearPois s pa n).fwSel = s.fwSel := rfl

@[simp] theorem flashFills_tick (s : State) (d c : Nat) (p : Acc → Bool) : (flashFills s d c p).tick = s.tick := rfl
@[simp] theorem flashFills_agenda (s : State) (d c : Nat) (p : Acc → Bool) : (flashFills s d c p).agenda = s.agenda := rfl
@[simp] theorem flashFills_cur (s : State) (d c : Nat) (p : Acc → Bool) : (flashFills s d c p).cur = s.cur := rfl
@[simp] theorem flashFills_word (s : State) (d c : Nat) (p : Acc → Bool) : (flashFills s d c p).word = s.word := rfl
@[simp] theorem flashFills_freeIx (s : State) (d c : Nat) (p : Acc → Bool) : (flashFills s d c p).freeIx = s.freeIx := rfl
@[simp] theorem flashFills_nextId (s : State) (d c : Nat) (p : Acc → Bool) : (flashFills s d c p).nextId = s.nextId := rfl
@[simp] theorem flashFills_clock (s : State) (d c : Nat) (p : Acc → Bool) : (flashFills s d c p).clock = s.clock := rfl
@[simp] theorem flashFills_cycs (s : State) (d c : Nat) (p : Acc → Bool) : (flashFills s d c p).cycs = s.cycs := rfl
@[simp] theorem flashFills_mem (s : State) (d c : Nat) (p : Acc → Bool) : (flashFills s d c p).mem = s.mem := rfl
@[simp] theorem flashFills_poison (s : State) (d c : Nat) (p : Acc → Bool) : (flashFills s d c p).poison = s.poison := rfl
@[simp] theorem flashFills_dies (s : State) (d c : Nat) (p : Acc → Bool) : (flashFills s d c p).dies = s.dies := rfl
@[simp] theorem flashFills_stks (s : State) (d c : Nat) (p : Acc → Bool) : (flashFills s d c p).stks = s.stks := rfl
@[simp] theorem flashFills_vxHome (s : State) (d c : Nat) (p : Acc → Bool) : (flashFills s d c p).vxHome = s.vxHome := rfl
@[simp] theorem flashFills_hid (s : State) (d c : Nat) (p : Acc → Bool) : (flashFills s d c p).hid = s.hid := rfl
@[simp] theorem flashFills_hist (s : State) (d c : Nat) (p : Acc → Bool) : (flashFills s d c p).hist = s.hist := rfl
@[simp] theorem flashFills_uses (s : State) (d c : Nat) (p : Acc → Bool) : (flashFills s d c p).uses = s.uses := rfl
@[simp] theorem flashFills_cmds (s : State) (d c : Nat) (p : Acc → Bool) : (flashFills s d c p).cmds = s.cmds := rfl
@[simp] theorem flashFills_spaces (s : State) (d c : Nat) (p : Acc → Bool) : (flashFills s d c p).spaces = s.spaces := rfl
@[simp] theorem flashFills_dirW (s : State) (d c : Nat) (p : Acc → Bool) : (flashFills s d c p).dirW = s.dirW := rfl
@[simp] theorem flashFills_grp (s : State) (d c : Nat) (p : Acc → Bool) : (flashFills s d c p).grp = s.grp := rfl
@[simp] theorem flashFills_vxmap (s : State) (d c : Nat) (p : Acc → Bool) : (flashFills s d c p).vxmap = s.vxmap := rfl
@[simp] theorem flashFills_inb (s : State) (d c : Nat) (p : Acc → Bool) : (flashFills s d c p).inb = s.inb := rfl
@[simp] theorem flashFills_cpls (s : State) (d c : Nat) (p : Acc → Bool) : (flashFills s d c p).cpls = s.cpls := rfl
@[simp] theorem flashFills_ports (s : State) (d c : Nat) (p : Acc → Bool) : (flashFills s d c p).ports = s.ports := rfl
@[simp] theorem flashFills_attest (s : State) (d c : Nat) (p : Acc → Bool) : (flashFills s d c p).attest = s.attest := rfl
@[simp] theorem flashFills_pmcCause (s : State) (d c : Nat) (p : Acc → Bool) : (flashFills s d c p).pmcCause = s.pmcCause := rfl
@[simp] theorem flashFills_msix (s : State) (d c : Nat) (p : Acc → Bool) : (flashFills s d c p).msix = s.msix := rfl
@[simp] theorem flashFills_aer (s : State) (d c : Nat) (p : Acc → Bool) : (flashFills s d c p).aer = s.aer := rfl
@[simp] theorem flashFills_spanWait (s : State) (d c : Nat) (p : Acc → Bool) : (flashFills s d c p).spanWait = s.spanWait := rfl
@[simp] theorem flashFills_fw (s : State) (d c : Nat) (p : Acc → Bool) : (flashFills s d c p).fw = s.fw := rfl
@[simp] theorem flashFills_fwNew (s : State) (d c : Nat) (p : Acc → Bool) : (flashFills s d c p).fwNew = s.fwNew := rfl
@[simp] theorem flashFills_fwSel (s : State) (d c : Nat) (p : Acc → Bool) : (flashFills s d c p).fwSel = s.fwSel := rfl

@[simp] theorem State.addCyc_tick (s : State) (d c n : Nat) : (s.addCyc d c n).tick = s.tick := rfl
@[simp] theorem State.addCyc_agenda (s : State) (d c n : Nat) : (s.addCyc d c n).agenda = s.agenda := rfl
@[simp] theorem State.addCyc_cur (s : State) (d c n : Nat) : (s.addCyc d c n).cur = s.cur := rfl
@[simp] theorem State.addCyc_word (s : State) (d c n : Nat) : (s.addCyc d c n).word = s.word := rfl
@[simp] theorem State.addCyc_freeIx (s : State) (d c n : Nat) : (s.addCyc d c n).freeIx = s.freeIx := rfl
@[simp] theorem State.addCyc_nextId (s : State) (d c n : Nat) : (s.addCyc d c n).nextId = s.nextId := rfl
@[simp] theorem State.addCyc_clock (s : State) (d c n : Nat) : (s.addCyc d c n).clock = s.clock + n := rfl
@[simp] theorem State.addCyc_cycs (s : State) (d c n : Nat) : (s.addCyc d c n).cycs = Tab.set s.cycs (96 * d + c) (Tab.getD s.cycs (96 * d + c) 0 + n) := rfl
@[simp] theorem State.addCyc_mem (s : State) (d c n : Nat) : (s.addCyc d c n).mem = s.mem := rfl
@[simp] theorem State.addCyc_poison (s : State) (d c n : Nat) : (s.addCyc d c n).poison = s.poison := rfl
@[simp] theorem State.addCyc_dies (s : State) (d c n : Nat) : (s.addCyc d c n).dies = s.dies := rfl
@[simp] theorem State.addCyc_stks (s : State) (d c n : Nat) : (s.addCyc d c n).stks = s.stks := rfl
@[simp] theorem State.addCyc_vxHome (s : State) (d c n : Nat) : (s.addCyc d c n).vxHome = s.vxHome := rfl
@[simp] theorem State.addCyc_hid (s : State) (d c n : Nat) : (s.addCyc d c n).hid = s.hid := rfl
@[simp] theorem State.addCyc_hist (s : State) (d c n : Nat) : (s.addCyc d c n).hist = s.hist := rfl
@[simp] theorem State.addCyc_uses (s : State) (d c n : Nat) : (s.addCyc d c n).uses = s.uses := rfl
@[simp] theorem State.addCyc_accs (s : State) (d c n : Nat) : (s.addCyc d c n).accs = s.accs := rfl
@[simp] theorem State.addCyc_cmds (s : State) (d c n : Nat) : (s.addCyc d c n).cmds = s.cmds := rfl
@[simp] theorem State.addCyc_spaces (s : State) (d c n : Nat) : (s.addCyc d c n).spaces = s.spaces := rfl
@[simp] theorem State.addCyc_dirW (s : State) (d c n : Nat) : (s.addCyc d c n).dirW = s.dirW := rfl
@[simp] theorem State.addCyc_grp (s : State) (d c n : Nat) : (s.addCyc d c n).grp = s.grp := rfl
@[simp] theorem State.addCyc_vxmap (s : State) (d c n : Nat) : (s.addCyc d c n).vxmap = s.vxmap := rfl
@[simp] theorem State.addCyc_inb (s : State) (d c n : Nat) : (s.addCyc d c n).inb = s.inb := rfl
@[simp] theorem State.addCyc_cpls (s : State) (d c n : Nat) : (s.addCyc d c n).cpls = s.cpls := rfl
@[simp] theorem State.addCyc_ports (s : State) (d c n : Nat) : (s.addCyc d c n).ports = s.ports := rfl
@[simp] theorem State.addCyc_attest (s : State) (d c n : Nat) : (s.addCyc d c n).attest = s.attest := rfl
@[simp] theorem State.addCyc_pmcCause (s : State) (d c n : Nat) : (s.addCyc d c n).pmcCause = s.pmcCause := rfl
@[simp] theorem State.addCyc_msix (s : State) (d c n : Nat) : (s.addCyc d c n).msix = s.msix := rfl
@[simp] theorem State.addCyc_aer (s : State) (d c n : Nat) : (s.addCyc d c n).aer = s.aer := rfl
@[simp] theorem State.addCyc_spanWait (s : State) (d c n : Nat) : (s.addCyc d c n).spanWait = s.spanWait := rfl
@[simp] theorem State.addCyc_fw (s : State) (d c n : Nat) : (s.addCyc d c n).fw = s.fw := rfl
@[simp] theorem State.addCyc_fwNew (s : State) (d c n : Nat) : (s.addCyc d c n).fwNew = s.fwNew := rfl
@[simp] theorem State.addCyc_fwSel (s : State) (d c n : Nat) : (s.addCyc d c n).fwSel = s.fwSel := rfl

@[simp] theorem noteWrite_tick (s : State) (pa : Nat) (bs : List Byte) : (noteWrite s pa bs).tick = s.tick := rfl
@[simp] theorem noteWrite_agenda (s : State) (pa : Nat) (bs : List Byte) : (noteWrite s pa bs).agenda = s.agenda := rfl
@[simp] theorem noteWrite_cur (s : State) (pa : Nat) (bs : List Byte) : (noteWrite s pa bs).cur = s.cur := rfl
@[simp] theorem noteWrite_word (s : State) (pa : Nat) (bs : List Byte) : (noteWrite s pa bs).word = s.word := rfl
@[simp] theorem noteWrite_freeIx (s : State) (pa : Nat) (bs : List Byte) : (noteWrite s pa bs).freeIx = s.freeIx := rfl
@[simp] theorem noteWrite_nextId (s : State) (pa : Nat) (bs : List Byte) : (noteWrite s pa bs).nextId = s.nextId := rfl
@[simp] theorem noteWrite_clock (s : State) (pa : Nat) (bs : List Byte) : (noteWrite s pa bs).clock = s.clock := rfl
@[simp] theorem noteWrite_cycs (s : State) (pa : Nat) (bs : List Byte) : (noteWrite s pa bs).cycs = s.cycs := rfl
@[simp] theorem noteWrite_mem (s : State) (pa : Nat) (bs : List Byte) : (noteWrite s pa bs).mem = s.mem := rfl
@[simp] theorem noteWrite_poison (s : State) (pa : Nat) (bs : List Byte) : (noteWrite s pa bs).poison = s.poison := rfl
@[simp] theorem noteWrite_dies (s : State) (pa : Nat) (bs : List Byte) : (noteWrite s pa bs).dies = s.dies := rfl
@[simp] theorem noteWrite_stks (s : State) (pa : Nat) (bs : List Byte) : (noteWrite s pa bs).stks = s.stks := rfl
@[simp] theorem noteWrite_vxHome (s : State) (pa : Nat) (bs : List Byte) : (noteWrite s pa bs).vxHome = s.vxHome := rfl
@[simp] theorem noteWrite_hid (s : State) (pa : Nat) (bs : List Byte) : (noteWrite s pa bs).hid = s.hid := rfl
@[simp] theorem noteWrite_hist (s : State) (pa : Nat) (bs : List Byte) : (noteWrite s pa bs).hist = (pa, bs) :: s.hist := rfl
@[simp] theorem noteWrite_uses (s : State) (pa : Nat) (bs : List Byte) : (noteWrite s pa bs).uses = s.uses := rfl
@[simp] theorem noteWrite_accs (s : State) (pa : Nat) (bs : List Byte) : (noteWrite s pa bs).accs = s.accs := rfl
@[simp] theorem noteWrite_cmds (s : State) (pa : Nat) (bs : List Byte) : (noteWrite s pa bs).cmds = s.cmds := rfl
@[simp] theorem noteWrite_spaces (s : State) (pa : Nat) (bs : List Byte) : (noteWrite s pa bs).spaces = s.spaces := rfl
@[simp] theorem noteWrite_dirW (s : State) (pa : Nat) (bs : List Byte) : (noteWrite s pa bs).dirW = s.dirW := rfl
@[simp] theorem noteWrite_grp (s : State) (pa : Nat) (bs : List Byte) : (noteWrite s pa bs).grp = s.grp := rfl
@[simp] theorem noteWrite_vxmap (s : State) (pa : Nat) (bs : List Byte) : (noteWrite s pa bs).vxmap = s.vxmap := rfl
@[simp] theorem noteWrite_inb (s : State) (pa : Nat) (bs : List Byte) : (noteWrite s pa bs).inb = s.inb := rfl
@[simp] theorem noteWrite_cpls (s : State) (pa : Nat) (bs : List Byte) : (noteWrite s pa bs).cpls = s.cpls := rfl
@[simp] theorem noteWrite_ports (s : State) (pa : Nat) (bs : List Byte) : (noteWrite s pa bs).ports = s.ports := rfl
@[simp] theorem noteWrite_attest (s : State) (pa : Nat) (bs : List Byte) : (noteWrite s pa bs).attest = s.attest := rfl
@[simp] theorem noteWrite_pmcCause (s : State) (pa : Nat) (bs : List Byte) : (noteWrite s pa bs).pmcCause = s.pmcCause := rfl
@[simp] theorem noteWrite_msix (s : State) (pa : Nat) (bs : List Byte) : (noteWrite s pa bs).msix = s.msix := rfl
@[simp] theorem noteWrite_aer (s : State) (pa : Nat) (bs : List Byte) : (noteWrite s pa bs).aer = s.aer := rfl
@[simp] theorem noteWrite_spanWait (s : State) (pa : Nat) (bs : List Byte) : (noteWrite s pa bs).spanWait = s.spanWait := rfl
@[simp] theorem noteWrite_fw (s : State) (pa : Nat) (bs : List Byte) : (noteWrite s pa bs).fw = s.fw := rfl
@[simp] theorem noteWrite_fwNew (s : State) (pa : Nat) (bs : List Byte) : (noteWrite s pa bs).fwNew = s.fwNew := rfl
@[simp] theorem noteWrite_fwSel (s : State) (pa : Nat) (bs : List Byte) : (noteWrite s pa bs).fwSel = s.fwSel := rfl

@[simp] theorem setPois_tick (s : State) (pa n : Nat) : (setPois s pa n).tick = s.tick := rfl
@[simp] theorem setPois_agenda (s : State) (pa n : Nat) : (setPois s pa n).agenda = s.agenda := rfl
@[simp] theorem setPois_cur (s : State) (pa n : Nat) : (setPois s pa n).cur = s.cur := rfl
@[simp] theorem setPois_word (s : State) (pa n : Nat) : (setPois s pa n).word = s.word := rfl
@[simp] theorem setPois_freeIx (s : State) (pa n : Nat) : (setPois s pa n).freeIx = s.freeIx := rfl
@[simp] theorem setPois_nextId (s : State) (pa n : Nat) : (setPois s pa n).nextId = s.nextId := rfl
@[simp] theorem setPois_clock (s : State) (pa n : Nat) : (setPois s pa n).clock = s.clock := rfl
@[simp] theorem setPois_cycs (s : State) (pa n : Nat) : (setPois s pa n).cycs = s.cycs := rfl
@[simp] theorem setPois_mem (s : State) (pa n : Nat) : (setPois s pa n).mem = s.mem := rfl
@[simp] theorem setPois_dies (s : State) (pa n : Nat) : (setPois s pa n).dies = s.dies := rfl
@[simp] theorem setPois_stks (s : State) (pa n : Nat) : (setPois s pa n).stks = s.stks := rfl
@[simp] theorem setPois_vxHome (s : State) (pa n : Nat) : (setPois s pa n).vxHome = s.vxHome := rfl
@[simp] theorem setPois_hid (s : State) (pa n : Nat) : (setPois s pa n).hid = s.hid := rfl
@[simp] theorem setPois_hist (s : State) (pa n : Nat) : (setPois s pa n).hist = s.hist := rfl
@[simp] theorem setPois_uses (s : State) (pa n : Nat) : (setPois s pa n).uses = s.uses := rfl
@[simp] theorem setPois_accs (s : State) (pa n : Nat) : (setPois s pa n).accs = s.accs := rfl
@[simp] theorem setPois_cmds (s : State) (pa n : Nat) : (setPois s pa n).cmds = s.cmds := rfl
@[simp] theorem setPois_spaces (s : State) (pa n : Nat) : (setPois s pa n).spaces = s.spaces := rfl
@[simp] theorem setPois_dirW (s : State) (pa n : Nat) : (setPois s pa n).dirW = s.dirW := rfl
@[simp] theorem setPois_grp (s : State) (pa n : Nat) : (setPois s pa n).grp = s.grp := rfl
@[simp] theorem setPois_vxmap (s : State) (pa n : Nat) : (setPois s pa n).vxmap = s.vxmap := rfl
@[simp] theorem setPois_inb (s : State) (pa n : Nat) : (setPois s pa n).inb = s.inb := rfl
@[simp] theorem setPois_cpls (s : State) (pa n : Nat) : (setPois s pa n).cpls = s.cpls := rfl
@[simp] theorem setPois_ports (s : State) (pa n : Nat) : (setPois s pa n).ports = s.ports := rfl
@[simp] theorem setPois_attest (s : State) (pa n : Nat) : (setPois s pa n).attest = s.attest := rfl
@[simp] theorem setPois_pmcCause (s : State) (pa n : Nat) : (setPois s pa n).pmcCause = s.pmcCause := rfl
@[simp] theorem setPois_msix (s : State) (pa n : Nat) : (setPois s pa n).msix = s.msix := rfl
@[simp] theorem setPois_aer (s : State) (pa n : Nat) : (setPois s pa n).aer = s.aer := rfl
@[simp] theorem setPois_spanWait (s : State) (pa n : Nat) : (setPois s pa n).spanWait = s.spanWait := rfl
@[simp] theorem setPois_fw (s : State) (pa n : Nat) : (setPois s pa n).fw = s.fw := rfl
@[simp] theorem setPois_fwNew (s : State) (pa n : Nat) : (setPois s pa n).fwNew = s.fwNew := rfl
@[simp] theorem setPois_fwSel (s : State) (pa n : Nat) : (setPois s pa n).fwSel = s.fwSel := rfl

@[simp] theorem letGo_tick (s : State) (w : Asker) (va : Nat) : (letGo s w va).tick = s.tick := rfl
@[simp] theorem letGo_agenda (s : State) (w : Asker) (va : Nat) : (letGo s w va).agenda = s.agenda := rfl
@[simp] theorem letGo_cur (s : State) (w : Asker) (va : Nat) : (letGo s w va).cur = s.cur := rfl
@[simp] theorem letGo_word (s : State) (w : Asker) (va : Nat) : (letGo s w va).word = s.word := rfl
@[simp] theorem letGo_freeIx (s : State) (w : Asker) (va : Nat) : (letGo s w va).freeIx = s.freeIx := rfl
@[simp] theorem letGo_nextId (s : State) (w : Asker) (va : Nat) : (letGo s w va).nextId = s.nextId := rfl
@[simp] theorem letGo_clock (s : State) (w : Asker) (va : Nat) : (letGo s w va).clock = s.clock := rfl
@[simp] theorem letGo_cycs (s : State) (w : Asker) (va : Nat) : (letGo s w va).cycs = s.cycs := rfl
@[simp] theorem letGo_mem (s : State) (w : Asker) (va : Nat) : (letGo s w va).mem = s.mem := rfl
@[simp] theorem letGo_poison (s : State) (w : Asker) (va : Nat) : (letGo s w va).poison = s.poison := rfl
@[simp] theorem letGo_dies (s : State) (w : Asker) (va : Nat) : (letGo s w va).dies = s.dies := rfl
@[simp] theorem letGo_stks (s : State) (w : Asker) (va : Nat) : (letGo s w va).stks = s.stks := rfl
@[simp] theorem letGo_vxHome (s : State) (w : Asker) (va : Nat) : (letGo s w va).vxHome = s.vxHome := rfl
@[simp] theorem letGo_hid (s : State) (w : Asker) (va : Nat) : (letGo s w va).hid = s.hid.filter (fun h => !(h.who == w && h.va == va)) := rfl
@[simp] theorem letGo_hist (s : State) (w : Asker) (va : Nat) : (letGo s w va).hist = s.hist := rfl
@[simp] theorem letGo_uses (s : State) (w : Asker) (va : Nat) : (letGo s w va).uses = s.uses := rfl
@[simp] theorem letGo_accs (s : State) (w : Asker) (va : Nat) : (letGo s w va).accs = s.accs := rfl
@[simp] theorem letGo_cmds (s : State) (w : Asker) (va : Nat) : (letGo s w va).cmds = s.cmds := rfl
@[simp] theorem letGo_spaces (s : State) (w : Asker) (va : Nat) : (letGo s w va).spaces = s.spaces := rfl
@[simp] theorem letGo_dirW (s : State) (w : Asker) (va : Nat) : (letGo s w va).dirW = s.dirW := rfl
@[simp] theorem letGo_grp (s : State) (w : Asker) (va : Nat) : (letGo s w va).grp = s.grp := rfl
@[simp] theorem letGo_vxmap (s : State) (w : Asker) (va : Nat) : (letGo s w va).vxmap = s.vxmap := rfl
@[simp] theorem letGo_inb (s : State) (w : Asker) (va : Nat) : (letGo s w va).inb = s.inb := rfl
@[simp] theorem letGo_cpls (s : State) (w : Asker) (va : Nat) : (letGo s w va).cpls = s.cpls := rfl
@[simp] theorem letGo_ports (s : State) (w : Asker) (va : Nat) : (letGo s w va).ports = s.ports := rfl
@[simp] theorem letGo_attest (s : State) (w : Asker) (va : Nat) : (letGo s w va).attest = s.attest := rfl
@[simp] theorem letGo_pmcCause (s : State) (w : Asker) (va : Nat) : (letGo s w va).pmcCause = s.pmcCause := rfl
@[simp] theorem letGo_msix (s : State) (w : Asker) (va : Nat) : (letGo s w va).msix = s.msix := rfl
@[simp] theorem letGo_aer (s : State) (w : Asker) (va : Nat) : (letGo s w va).aer = s.aer := rfl
@[simp] theorem letGo_spanWait (s : State) (w : Asker) (va : Nat) : (letGo s w va).spanWait = s.spanWait := rfl
@[simp] theorem letGo_fw (s : State) (w : Asker) (va : Nat) : (letGo s w va).fw = s.fw := rfl
@[simp] theorem letGo_fwNew (s : State) (w : Asker) (va : Nat) : (letGo s w va).fwNew = s.fwNew := rfl
@[simp] theorem letGo_fwSel (s : State) (w : Asker) (va : Nat) : (letGo s w va).fwSel = s.fwSel := rfl

@[simp] theorem goTo_tick (s : State) (f : FragRef) (pc : W64) : (goTo s f pc).tick = s.tick := rfl
@[simp] theorem goTo_agenda (s : State) (f : FragRef) (pc : W64) : (goTo s f pc).agenda = s.agenda := rfl
@[simp] theorem goTo_cur (s : State) (f : FragRef) (pc : W64) : (goTo s f pc).cur = s.cur := rfl
@[simp] theorem goTo_word (s : State) (f : FragRef) (pc : W64) : (goTo s f pc).word = s.word := rfl
@[simp] theorem goTo_freeIx (s : State) (f : FragRef) (pc : W64) : (goTo s f pc).freeIx = s.freeIx := rfl
@[simp] theorem goTo_nextId (s : State) (f : FragRef) (pc : W64) : (goTo s f pc).nextId = s.nextId := rfl
@[simp] theorem goTo_clock (s : State) (f : FragRef) (pc : W64) : (goTo s f pc).clock = s.clock := rfl
@[simp] theorem goTo_cycs (s : State) (f : FragRef) (pc : W64) : (goTo s f pc).cycs = s.cycs := rfl
@[simp] theorem goTo_mem (s : State) (f : FragRef) (pc : W64) : (goTo s f pc).mem = s.mem := rfl
@[simp] theorem goTo_poison (s : State) (f : FragRef) (pc : W64) : (goTo s f pc).poison = s.poison := rfl
@[simp] theorem goTo_stks (s : State) (f : FragRef) (pc : W64) : (goTo s f pc).stks = s.stks := rfl
@[simp] theorem goTo_vxHome (s : State) (f : FragRef) (pc : W64) : (goTo s f pc).vxHome = s.vxHome := rfl
@[simp] theorem goTo_hid (s : State) (f : FragRef) (pc : W64) : (goTo s f pc).hid = s.hid := rfl
@[simp] theorem goTo_hist (s : State) (f : FragRef) (pc : W64) : (goTo s f pc).hist = s.hist := rfl
@[simp] theorem goTo_uses (s : State) (f : FragRef) (pc : W64) : (goTo s f pc).uses = s.uses := rfl
@[simp] theorem goTo_accs (s : State) (f : FragRef) (pc : W64) : (goTo s f pc).accs = s.accs := rfl
@[simp] theorem goTo_cmds (s : State) (f : FragRef) (pc : W64) : (goTo s f pc).cmds = s.cmds := rfl
@[simp] theorem goTo_spaces (s : State) (f : FragRef) (pc : W64) : (goTo s f pc).spaces = s.spaces := rfl
@[simp] theorem goTo_dirW (s : State) (f : FragRef) (pc : W64) : (goTo s f pc).dirW = s.dirW := rfl
@[simp] theorem goTo_grp (s : State) (f : FragRef) (pc : W64) : (goTo s f pc).grp = s.grp := rfl
@[simp] theorem goTo_vxmap (s : State) (f : FragRef) (pc : W64) : (goTo s f pc).vxmap = s.vxmap := rfl
@[simp] theorem goTo_inb (s : State) (f : FragRef) (pc : W64) : (goTo s f pc).inb = s.inb := rfl
@[simp] theorem goTo_cpls (s : State) (f : FragRef) (pc : W64) : (goTo s f pc).cpls = s.cpls := rfl
@[simp] theorem goTo_ports (s : State) (f : FragRef) (pc : W64) : (goTo s f pc).ports = s.ports := rfl
@[simp] theorem goTo_attest (s : State) (f : FragRef) (pc : W64) : (goTo s f pc).attest = s.attest := rfl
@[simp] theorem goTo_pmcCause (s : State) (f : FragRef) (pc : W64) : (goTo s f pc).pmcCause = s.pmcCause := rfl
@[simp] theorem goTo_msix (s : State) (f : FragRef) (pc : W64) : (goTo s f pc).msix = s.msix := rfl
@[simp] theorem goTo_aer (s : State) (f : FragRef) (pc : W64) : (goTo s f pc).aer = s.aer := rfl
@[simp] theorem goTo_spanWait (s : State) (f : FragRef) (pc : W64) : (goTo s f pc).spanWait = s.spanWait := rfl
@[simp] theorem goTo_fw (s : State) (f : FragRef) (pc : W64) : (goTo s f pc).fw = s.fw := rfl
@[simp] theorem goTo_fwNew (s : State) (f : FragRef) (pc : W64) : (goTo s f pc).fwNew = s.fwNew := rfl
@[simp] theorem goTo_fwSel (s : State) (f : FragRef) (pc : W64) : (goTo s f pc).fwSel = s.fwSel := rfl

@[simp] theorem spend_tick (s : State) (f : FragRef) (n : Nat) : (spend s f n).tick = s.tick := rfl
@[simp] theorem spend_agenda (s : State) (f : FragRef) (n : Nat) : (spend s f n).agenda = s.agenda := rfl
@[simp] theorem spend_cur (s : State) (f : FragRef) (n : Nat) : (spend s f n).cur = s.cur := rfl
@[simp] theorem spend_word (s : State) (f : FragRef) (n : Nat) : (spend s f n).word = s.word := rfl
@[simp] theorem spend_freeIx (s : State) (f : FragRef) (n : Nat) : (spend s f n).freeIx = s.freeIx := rfl
@[simp] theorem spend_nextId (s : State) (f : FragRef) (n : Nat) : (spend s f n).nextId = s.nextId := rfl
@[simp] theorem spend_clock (s : State) (f : FragRef) (n : Nat) : (spend s f n).clock = s.clock + (n - 1) := rfl
@[simp] theorem spend_mem (s : State) (f : FragRef) (n : Nat) : (spend s f n).mem = s.mem := rfl
@[simp] theorem spend_poison (s : State) (f : FragRef) (n : Nat) : (spend s f n).poison = s.poison := rfl
@[simp] theorem spend_stks (s : State) (f : FragRef) (n : Nat) : (spend s f n).stks = s.stks := rfl
@[simp] theorem spend_vxHome (s : State) (f : FragRef) (n : Nat) : (spend s f n).vxHome = s.vxHome := rfl
@[simp] theorem spend_hid (s : State) (f : FragRef) (n : Nat) : (spend s f n).hid = s.hid := rfl
@[simp] theorem spend_hist (s : State) (f : FragRef) (n : Nat) : (spend s f n).hist = s.hist := rfl
@[simp] theorem spend_uses (s : State) (f : FragRef) (n : Nat) : (spend s f n).uses = s.uses := rfl
@[simp] theorem spend_accs (s : State) (f : FragRef) (n : Nat) : (spend s f n).accs = s.accs := rfl
@[simp] theorem spend_cmds (s : State) (f : FragRef) (n : Nat) : (spend s f n).cmds = s.cmds := rfl
@[simp] theorem spend_spaces (s : State) (f : FragRef) (n : Nat) : (spend s f n).spaces = s.spaces := rfl
@[simp] theorem spend_dirW (s : State) (f : FragRef) (n : Nat) : (spend s f n).dirW = s.dirW := rfl
@[simp] theorem spend_grp (s : State) (f : FragRef) (n : Nat) : (spend s f n).grp = s.grp := rfl
@[simp] theorem spend_vxmap (s : State) (f : FragRef) (n : Nat) : (spend s f n).vxmap = s.vxmap := rfl
@[simp] theorem spend_inb (s : State) (f : FragRef) (n : Nat) : (spend s f n).inb = s.inb := rfl
@[simp] theorem spend_cpls (s : State) (f : FragRef) (n : Nat) : (spend s f n).cpls = s.cpls := rfl
@[simp] theorem spend_ports (s : State) (f : FragRef) (n : Nat) : (spend s f n).ports = s.ports := rfl
@[simp] theorem spend_attest (s : State) (f : FragRef) (n : Nat) : (spend s f n).attest = s.attest := rfl
@[simp] theorem spend_pmcCause (s : State) (f : FragRef) (n : Nat) : (spend s f n).pmcCause = s.pmcCause := rfl
@[simp] theorem spend_msix (s : State) (f : FragRef) (n : Nat) : (spend s f n).msix = s.msix := rfl
@[simp] theorem spend_aer (s : State) (f : FragRef) (n : Nat) : (spend s f n).aer = s.aer := rfl
@[simp] theorem spend_spanWait (s : State) (f : FragRef) (n : Nat) : (spend s f n).spanWait = s.spanWait := rfl
@[simp] theorem spend_fw (s : State) (f : FragRef) (n : Nat) : (spend s f n).fw = s.fw := rfl
@[simp] theorem spend_fwNew (s : State) (f : FragRef) (n : Nat) : (spend s f n).fwNew = s.fwNew := rfl
@[simp] theorem spend_fwSel (s : State) (f : FragRef) (n : Nat) : (spend s f n).fwSel = s.fwSel := rfl

@[simp] theorem finish_tick (s : State) (f : FragRef) (n : Nat) : (finish s f n).tick = s.tick := rfl
@[simp] theorem finish_agenda (s : State) (f : FragRef) (n : Nat) : (finish s f n).agenda = s.agenda := rfl
@[simp] theorem finish_cur (s : State) (f : FragRef) (n : Nat) : (finish s f n).cur = s.cur := rfl
@[simp] theorem finish_word (s : State) (f : FragRef) (n : Nat) : (finish s f n).word = s.word := rfl
@[simp] theorem finish_freeIx (s : State) (f : FragRef) (n : Nat) : (finish s f n).freeIx = s.freeIx := rfl
@[simp] theorem finish_nextId (s : State) (f : FragRef) (n : Nat) : (finish s f n).nextId = s.nextId := rfl
@[simp] theorem finish_clock (s : State) (f : FragRef) (n : Nat) : (finish s f n).clock = s.clock + (n - 1) := rfl
@[simp] theorem finish_mem (s : State) (f : FragRef) (n : Nat) : (finish s f n).mem = s.mem := rfl
@[simp] theorem finish_poison (s : State) (f : FragRef) (n : Nat) : (finish s f n).poison = s.poison := rfl
@[simp] theorem finish_stks (s : State) (f : FragRef) (n : Nat) : (finish s f n).stks = s.stks := rfl
@[simp] theorem finish_vxHome (s : State) (f : FragRef) (n : Nat) : (finish s f n).vxHome = s.vxHome := rfl
@[simp] theorem finish_hid (s : State) (f : FragRef) (n : Nat) : (finish s f n).hid = s.hid := rfl
@[simp] theorem finish_hist (s : State) (f : FragRef) (n : Nat) : (finish s f n).hist = s.hist := rfl
@[simp] theorem finish_uses (s : State) (f : FragRef) (n : Nat) : (finish s f n).uses = s.uses := rfl
@[simp] theorem finish_accs (s : State) (f : FragRef) (n : Nat) : (finish s f n).accs = s.accs := rfl
@[simp] theorem finish_cmds (s : State) (f : FragRef) (n : Nat) : (finish s f n).cmds = s.cmds := rfl
@[simp] theorem finish_spaces (s : State) (f : FragRef) (n : Nat) : (finish s f n).spaces = s.spaces := rfl
@[simp] theorem finish_dirW (s : State) (f : FragRef) (n : Nat) : (finish s f n).dirW = s.dirW := rfl
@[simp] theorem finish_grp (s : State) (f : FragRef) (n : Nat) : (finish s f n).grp = s.grp := rfl
@[simp] theorem finish_vxmap (s : State) (f : FragRef) (n : Nat) : (finish s f n).vxmap = s.vxmap := rfl
@[simp] theorem finish_inb (s : State) (f : FragRef) (n : Nat) : (finish s f n).inb = s.inb := rfl
@[simp] theorem finish_cpls (s : State) (f : FragRef) (n : Nat) : (finish s f n).cpls = s.cpls := rfl
@[simp] theorem finish_ports (s : State) (f : FragRef) (n : Nat) : (finish s f n).ports = s.ports := rfl
@[simp] theorem finish_attest (s : State) (f : FragRef) (n : Nat) : (finish s f n).attest = s.attest := rfl
@[simp] theorem finish_pmcCause (s : State) (f : FragRef) (n : Nat) : (finish s f n).pmcCause = s.pmcCause := rfl
@[simp] theorem finish_msix (s : State) (f : FragRef) (n : Nat) : (finish s f n).msix = s.msix := rfl
@[simp] theorem finish_aer (s : State) (f : FragRef) (n : Nat) : (finish s f n).aer = s.aer := rfl
@[simp] theorem finish_spanWait (s : State) (f : FragRef) (n : Nat) : (finish s f n).spanWait = s.spanWait := rfl
@[simp] theorem finish_fw (s : State) (f : FragRef) (n : Nat) : (finish s f n).fw = s.fw := rfl
@[simp] theorem finish_fwNew (s : State) (f : FragRef) (n : Nat) : (finish s f n).fwNew = s.fwNew := rfl
@[simp] theorem finish_fwSel (s : State) (f : FragRef) (n : Nat) : (finish s f n).fwSel = s.fwSel := rfl

@[simp] theorem hold_tick (s : State) (f : FragRef) (w : Wait) : (hold s f w).tick = s.tick := rfl
@[simp] theorem hold_agenda (s : State) (f : FragRef) (w : Wait) : (hold s f w).agenda = s.agenda := rfl
@[simp] theorem hold_cur (s : State) (f : FragRef) (w : Wait) : (hold s f w).cur = s.cur := rfl
@[simp] theorem hold_word (s : State) (f : FragRef) (w : Wait) : (hold s f w).word = s.word := rfl
@[simp] theorem hold_freeIx (s : State) (f : FragRef) (w : Wait) : (hold s f w).freeIx = s.freeIx := rfl
@[simp] theorem hold_nextId (s : State) (f : FragRef) (w : Wait) : (hold s f w).nextId = s.nextId := rfl
@[simp] theorem hold_clock (s : State) (f : FragRef) (w : Wait) : (hold s f w).clock = s.clock := rfl
@[simp] theorem hold_cycs (s : State) (f : FragRef) (w : Wait) : (hold s f w).cycs = s.cycs := rfl
@[simp] theorem hold_mem (s : State) (f : FragRef) (w : Wait) : (hold s f w).mem = s.mem := rfl
@[simp] theorem hold_poison (s : State) (f : FragRef) (w : Wait) : (hold s f w).poison = s.poison := rfl
@[simp] theorem hold_stks (s : State) (f : FragRef) (w : Wait) : (hold s f w).stks = s.stks := rfl
@[simp] theorem hold_vxHome (s : State) (f : FragRef) (w : Wait) : (hold s f w).vxHome = s.vxHome := rfl
@[simp] theorem hold_hid (s : State) (f : FragRef) (w : Wait) : (hold s f w).hid = s.hid := rfl
@[simp] theorem hold_hist (s : State) (f : FragRef) (w : Wait) : (hold s f w).hist = s.hist := rfl
@[simp] theorem hold_uses (s : State) (f : FragRef) (w : Wait) : (hold s f w).uses = s.uses := rfl
@[simp] theorem hold_accs (s : State) (f : FragRef) (w : Wait) : (hold s f w).accs = s.accs := rfl
@[simp] theorem hold_cmds (s : State) (f : FragRef) (w : Wait) : (hold s f w).cmds = s.cmds := rfl
@[simp] theorem hold_spaces (s : State) (f : FragRef) (w : Wait) : (hold s f w).spaces = s.spaces := rfl
@[simp] theorem hold_dirW (s : State) (f : FragRef) (w : Wait) : (hold s f w).dirW = s.dirW := rfl
@[simp] theorem hold_grp (s : State) (f : FragRef) (w : Wait) : (hold s f w).grp = s.grp := rfl
@[simp] theorem hold_vxmap (s : State) (f : FragRef) (w : Wait) : (hold s f w).vxmap = s.vxmap := rfl
@[simp] theorem hold_inb (s : State) (f : FragRef) (w : Wait) : (hold s f w).inb = s.inb := rfl
@[simp] theorem hold_cpls (s : State) (f : FragRef) (w : Wait) : (hold s f w).cpls = s.cpls := rfl
@[simp] theorem hold_ports (s : State) (f : FragRef) (w : Wait) : (hold s f w).ports = s.ports := rfl
@[simp] theorem hold_attest (s : State) (f : FragRef) (w : Wait) : (hold s f w).attest = s.attest := rfl
@[simp] theorem hold_pmcCause (s : State) (f : FragRef) (w : Wait) : (hold s f w).pmcCause = s.pmcCause := rfl
@[simp] theorem hold_msix (s : State) (f : FragRef) (w : Wait) : (hold s f w).msix = s.msix := rfl
@[simp] theorem hold_aer (s : State) (f : FragRef) (w : Wait) : (hold s f w).aer = s.aer := rfl
@[simp] theorem hold_spanWait (s : State) (f : FragRef) (w : Wait) : (hold s f w).spanWait = s.spanWait := rfl
@[simp] theorem hold_fw (s : State) (f : FragRef) (w : Wait) : (hold s f w).fw = s.fw := rfl
@[simp] theorem hold_fwNew (s : State) (f : FragRef) (w : Wait) : (hold s f w).fwNew = s.fwNew := rfl
@[simp] theorem hold_fwSel (s : State) (f : FragRef) (w : Wait) : (hold s f w).fwSel = s.fwSel := rfl

@[simp] theorem progress_tick (s : State) (f : FragRef) : (progress s f).tick = s.tick := rfl
@[simp] theorem progress_agenda (s : State) (f : FragRef) : (progress s f).agenda = s.agenda := rfl
@[simp] theorem progress_cur (s : State) (f : FragRef) : (progress s f).cur = s.cur := rfl
@[simp] theorem progress_word (s : State) (f : FragRef) : (progress s f).word = s.word := rfl
@[simp] theorem progress_freeIx (s : State) (f : FragRef) : (progress s f).freeIx = s.freeIx := rfl
@[simp] theorem progress_nextId (s : State) (f : FragRef) : (progress s f).nextId = s.nextId := rfl
@[simp] theorem progress_clock (s : State) (f : FragRef) : (progress s f).clock = s.clock := rfl
@[simp] theorem progress_cycs (s : State) (f : FragRef) : (progress s f).cycs = s.cycs := rfl
@[simp] theorem progress_mem (s : State) (f : FragRef) : (progress s f).mem = s.mem := rfl
@[simp] theorem progress_poison (s : State) (f : FragRef) : (progress s f).poison = s.poison := rfl
@[simp] theorem progress_stks (s : State) (f : FragRef) : (progress s f).stks = s.stks := rfl
@[simp] theorem progress_vxHome (s : State) (f : FragRef) : (progress s f).vxHome = s.vxHome := rfl
@[simp] theorem progress_hid (s : State) (f : FragRef) : (progress s f).hid = s.hid := rfl
@[simp] theorem progress_hist (s : State) (f : FragRef) : (progress s f).hist = s.hist := rfl
@[simp] theorem progress_uses (s : State) (f : FragRef) : (progress s f).uses = s.uses := rfl
@[simp] theorem progress_accs (s : State) (f : FragRef) : (progress s f).accs = s.accs := rfl
@[simp] theorem progress_cmds (s : State) (f : FragRef) : (progress s f).cmds = s.cmds := rfl
@[simp] theorem progress_spaces (s : State) (f : FragRef) : (progress s f).spaces = s.spaces := rfl
@[simp] theorem progress_dirW (s : State) (f : FragRef) : (progress s f).dirW = s.dirW := rfl
@[simp] theorem progress_grp (s : State) (f : FragRef) : (progress s f).grp = s.grp := rfl
@[simp] theorem progress_vxmap (s : State) (f : FragRef) : (progress s f).vxmap = s.vxmap := rfl
@[simp] theorem progress_inb (s : State) (f : FragRef) : (progress s f).inb = s.inb := rfl
@[simp] theorem progress_cpls (s : State) (f : FragRef) : (progress s f).cpls = s.cpls := rfl
@[simp] theorem progress_ports (s : State) (f : FragRef) : (progress s f).ports = s.ports := rfl
@[simp] theorem progress_attest (s : State) (f : FragRef) : (progress s f).attest = s.attest := rfl
@[simp] theorem progress_pmcCause (s : State) (f : FragRef) : (progress s f).pmcCause = s.pmcCause := rfl
@[simp] theorem progress_msix (s : State) (f : FragRef) : (progress s f).msix = s.msix := rfl
@[simp] theorem progress_aer (s : State) (f : FragRef) : (progress s f).aer = s.aer := rfl
@[simp] theorem progress_spanWait (s : State) (f : FragRef) : (progress s f).spanWait = s.spanWait := rfl
@[simp] theorem progress_fw (s : State) (f : FragRef) : (progress s f).fw = s.fw := rfl
@[simp] theorem progress_fwNew (s : State) (f : FragRef) : (progress s f).fwNew = s.fwNew := rfl
@[simp] theorem progress_fwSel (s : State) (f : FragRef) : (progress s f).fwSel = s.fwSel := rfl

@[simp] theorem setFlags_tick (s : State) (f : FragRef) (fl : BitVec 5) : (setFlags s f fl).tick = s.tick := rfl
@[simp] theorem setFlags_agenda (s : State) (f : FragRef) (fl : BitVec 5) : (setFlags s f fl).agenda = s.agenda := rfl
@[simp] theorem setFlags_cur (s : State) (f : FragRef) (fl : BitVec 5) : (setFlags s f fl).cur = s.cur := rfl
@[simp] theorem setFlags_word (s : State) (f : FragRef) (fl : BitVec 5) : (setFlags s f fl).word = s.word := rfl
@[simp] theorem setFlags_freeIx (s : State) (f : FragRef) (fl : BitVec 5) : (setFlags s f fl).freeIx = s.freeIx := rfl
@[simp] theorem setFlags_nextId (s : State) (f : FragRef) (fl : BitVec 5) : (setFlags s f fl).nextId = s.nextId := rfl
@[simp] theorem setFlags_clock (s : State) (f : FragRef) (fl : BitVec 5) : (setFlags s f fl).clock = s.clock := rfl
@[simp] theorem setFlags_cycs (s : State) (f : FragRef) (fl : BitVec 5) : (setFlags s f fl).cycs = s.cycs := rfl
@[simp] theorem setFlags_mem (s : State) (f : FragRef) (fl : BitVec 5) : (setFlags s f fl).mem = s.mem := rfl
@[simp] theorem setFlags_poison (s : State) (f : FragRef) (fl : BitVec 5) : (setFlags s f fl).poison = s.poison := rfl
@[simp] theorem setFlags_stks (s : State) (f : FragRef) (fl : BitVec 5) : (setFlags s f fl).stks = s.stks := rfl
@[simp] theorem setFlags_vxHome (s : State) (f : FragRef) (fl : BitVec 5) : (setFlags s f fl).vxHome = s.vxHome := rfl
@[simp] theorem setFlags_hid (s : State) (f : FragRef) (fl : BitVec 5) : (setFlags s f fl).hid = s.hid := rfl
@[simp] theorem setFlags_hist (s : State) (f : FragRef) (fl : BitVec 5) : (setFlags s f fl).hist = s.hist := rfl
@[simp] theorem setFlags_uses (s : State) (f : FragRef) (fl : BitVec 5) : (setFlags s f fl).uses = s.uses := rfl
@[simp] theorem setFlags_accs (s : State) (f : FragRef) (fl : BitVec 5) : (setFlags s f fl).accs = s.accs := rfl
@[simp] theorem setFlags_cmds (s : State) (f : FragRef) (fl : BitVec 5) : (setFlags s f fl).cmds = s.cmds := rfl
@[simp] theorem setFlags_spaces (s : State) (f : FragRef) (fl : BitVec 5) : (setFlags s f fl).spaces = s.spaces := rfl
@[simp] theorem setFlags_dirW (s : State) (f : FragRef) (fl : BitVec 5) : (setFlags s f fl).dirW = s.dirW := rfl
@[simp] theorem setFlags_grp (s : State) (f : FragRef) (fl : BitVec 5) : (setFlags s f fl).grp = s.grp := rfl
@[simp] theorem setFlags_vxmap (s : State) (f : FragRef) (fl : BitVec 5) : (setFlags s f fl).vxmap = s.vxmap := rfl
@[simp] theorem setFlags_inb (s : State) (f : FragRef) (fl : BitVec 5) : (setFlags s f fl).inb = s.inb := rfl
@[simp] theorem setFlags_cpls (s : State) (f : FragRef) (fl : BitVec 5) : (setFlags s f fl).cpls = s.cpls := rfl
@[simp] theorem setFlags_ports (s : State) (f : FragRef) (fl : BitVec 5) : (setFlags s f fl).ports = s.ports := rfl
@[simp] theorem setFlags_attest (s : State) (f : FragRef) (fl : BitVec 5) : (setFlags s f fl).attest = s.attest := rfl
@[simp] theorem setFlags_pmcCause (s : State) (f : FragRef) (fl : BitVec 5) : (setFlags s f fl).pmcCause = s.pmcCause := rfl
@[simp] theorem setFlags_msix (s : State) (f : FragRef) (fl : BitVec 5) : (setFlags s f fl).msix = s.msix := rfl
@[simp] theorem setFlags_aer (s : State) (f : FragRef) (fl : BitVec 5) : (setFlags s f fl).aer = s.aer := rfl
@[simp] theorem setFlags_spanWait (s : State) (f : FragRef) (fl : BitVec 5) : (setFlags s f fl).spanWait = s.spanWait := rfl
@[simp] theorem setFlags_fw (s : State) (f : FragRef) (fl : BitVec 5) : (setFlags s f fl).fw = s.fw := rfl
@[simp] theorem setFlags_fwNew (s : State) (f : FragRef) (fl : BitVec 5) : (setFlags s f fl).fwNew = s.fwNew := rfl
@[simp] theorem setFlags_fwSel (s : State) (f : FragRef) (fl : BitVec 5) : (setFlags s f fl).fwSel = s.fwSel := rfl

@[simp] theorem modFills_tick (s : State) (d c : Nat) (p : Acc → Bool) (g : Acc → Acc) : (modFills s d c p g).tick = s.tick := rfl
@[simp] theorem modFills_agenda (s : State) (d c : Nat) (p : Acc → Bool) (g : Acc → Acc) : (modFills s d c p g).agenda = s.agenda := rfl
@[simp] theorem modFills_cur (s : State) (d c : Nat) (p : Acc → Bool) (g : Acc → Acc) : (modFills s d c p g).cur = s.cur := rfl
@[simp] theorem modFills_word (s : State) (d c : Nat) (p : Acc → Bool) (g : Acc → Acc) : (modFills s d c p g).word = s.word := rfl
@[simp] theorem modFills_freeIx (s : State) (d c : Nat) (p : Acc → Bool) (g : Acc → Acc) : (modFills s d c p g).freeIx = s.freeIx := rfl
@[simp] theorem modFills_nextId (s : State) (d c : Nat) (p : Acc → Bool) (g : Acc → Acc) : (modFills s d c p g).nextId = s.nextId := rfl
@[simp] theorem modFills_clock (s : State) (d c : Nat) (p : Acc → Bool) (g : Acc → Acc) : (modFills s d c p g).clock = s.clock := rfl
@[simp] theorem modFills_cycs (s : State) (d c : Nat) (p : Acc → Bool) (g : Acc → Acc) : (modFills s d c p g).cycs = s.cycs := rfl
@[simp] theorem modFills_mem (s : State) (d c : Nat) (p : Acc → Bool) (g : Acc → Acc) : (modFills s d c p g).mem = s.mem := rfl
@[simp] theorem modFills_poison (s : State) (d c : Nat) (p : Acc → Bool) (g : Acc → Acc) : (modFills s d c p g).poison = s.poison := rfl
@[simp] theorem modFills_dies (s : State) (d c : Nat) (p : Acc → Bool) (g : Acc → Acc) : (modFills s d c p g).dies = s.dies := rfl
@[simp] theorem modFills_stks (s : State) (d c : Nat) (p : Acc → Bool) (g : Acc → Acc) : (modFills s d c p g).stks = s.stks := rfl
@[simp] theorem modFills_vxHome (s : State) (d c : Nat) (p : Acc → Bool) (g : Acc → Acc) : (modFills s d c p g).vxHome = s.vxHome := rfl
@[simp] theorem modFills_hid (s : State) (d c : Nat) (p : Acc → Bool) (g : Acc → Acc) : (modFills s d c p g).hid = s.hid := rfl
@[simp] theorem modFills_hist (s : State) (d c : Nat) (p : Acc → Bool) (g : Acc → Acc) : (modFills s d c p g).hist = s.hist := rfl
@[simp] theorem modFills_uses (s : State) (d c : Nat) (p : Acc → Bool) (g : Acc → Acc) : (modFills s d c p g).uses = s.uses := rfl
@[simp] theorem modFills_cmds (s : State) (d c : Nat) (p : Acc → Bool) (g : Acc → Acc) : (modFills s d c p g).cmds = s.cmds := rfl
@[simp] theorem modFills_spaces (s : State) (d c : Nat) (p : Acc → Bool) (g : Acc → Acc) : (modFills s d c p g).spaces = s.spaces := rfl
@[simp] theorem modFills_dirW (s : State) (d c : Nat) (p : Acc → Bool) (g : Acc → Acc) : (modFills s d c p g).dirW = s.dirW := rfl
@[simp] theorem modFills_grp (s : State) (d c : Nat) (p : Acc → Bool) (g : Acc → Acc) : (modFills s d c p g).grp = s.grp := rfl
@[simp] theorem modFills_vxmap (s : State) (d c : Nat) (p : Acc → Bool) (g : Acc → Acc) : (modFills s d c p g).vxmap = s.vxmap := rfl
@[simp] theorem modFills_inb (s : State) (d c : Nat) (p : Acc → Bool) (g : Acc → Acc) : (modFills s d c p g).inb = s.inb := rfl
@[simp] theorem modFills_cpls (s : State) (d c : Nat) (p : Acc → Bool) (g : Acc → Acc) : (modFills s d c p g).cpls = s.cpls := rfl
@[simp] theorem modFills_ports (s : State) (d c : Nat) (p : Acc → Bool) (g : Acc → Acc) : (modFills s d c p g).ports = s.ports := rfl
@[simp] theorem modFills_attest (s : State) (d c : Nat) (p : Acc → Bool) (g : Acc → Acc) : (modFills s d c p g).attest = s.attest := rfl
@[simp] theorem modFills_pmcCause (s : State) (d c : Nat) (p : Acc → Bool) (g : Acc → Acc) : (modFills s d c p g).pmcCause = s.pmcCause := rfl
@[simp] theorem modFills_msix (s : State) (d c : Nat) (p : Acc → Bool) (g : Acc → Acc) : (modFills s d c p g).msix = s.msix := rfl
@[simp] theorem modFills_aer (s : State) (d c : Nat) (p : Acc → Bool) (g : Acc → Acc) : (modFills s d c p g).aer = s.aer := rfl
@[simp] theorem modFills_spanWait (s : State) (d c : Nat) (p : Acc → Bool) (g : Acc → Acc) : (modFills s d c p g).spanWait = s.spanWait := rfl
@[simp] theorem modFills_fw (s : State) (d c : Nat) (p : Acc → Bool) (g : Acc → Acc) : (modFills s d c p g).fw = s.fw := rfl
@[simp] theorem modFills_fwNew (s : State) (d c : Nat) (p : Acc → Bool) (g : Acc → Acc) : (modFills s d c p g).fwNew = s.fwNew := rfl
@[simp] theorem modFills_fwSel (s : State) (d c : Nat) (p : Acc → Bool) (g : Acc → Acc) : (modFills s d c p g).fwSel = s.fwSel := rfl

@[simp] theorem refetch_tick (s : State) (d c : Nat) (p : Nat → Bool) : (refetch s d c p).tick = s.tick := rfl
@[simp] theorem refetch_agenda (s : State) (d c : Nat) (p : Nat → Bool) : (refetch s d c p).agenda = s.agenda := rfl
@[simp] theorem refetch_cur (s : State) (d c : Nat) (p : Nat → Bool) : (refetch s d c p).cur = s.cur := rfl
@[simp] theorem refetch_word (s : State) (d c : Nat) (p : Nat → Bool) : (refetch s d c p).word = s.word := rfl
@[simp] theorem refetch_freeIx (s : State) (d c : Nat) (p : Nat → Bool) : (refetch s d c p).freeIx = s.freeIx := rfl
@[simp] theorem refetch_nextId (s : State) (d c : Nat) (p : Nat → Bool) : (refetch s d c p).nextId = s.nextId := rfl
@[simp] theorem refetch_clock (s : State) (d c : Nat) (p : Nat → Bool) : (refetch s d c p).clock = s.clock := rfl
@[simp] theorem refetch_cycs (s : State) (d c : Nat) (p : Nat → Bool) : (refetch s d c p).cycs = s.cycs := rfl
@[simp] theorem refetch_mem (s : State) (d c : Nat) (p : Nat → Bool) : (refetch s d c p).mem = s.mem := rfl
@[simp] theorem refetch_poison (s : State) (d c : Nat) (p : Nat → Bool) : (refetch s d c p).poison = s.poison := rfl
@[simp] theorem refetch_dies (s : State) (d c : Nat) (p : Nat → Bool) : (refetch s d c p).dies = s.dies := rfl
@[simp] theorem refetch_stks (s : State) (d c : Nat) (p : Nat → Bool) : (refetch s d c p).stks = s.stks := rfl
@[simp] theorem refetch_vxHome (s : State) (d c : Nat) (p : Nat → Bool) : (refetch s d c p).vxHome = s.vxHome := rfl
@[simp] theorem refetch_hid (s : State) (d c : Nat) (p : Nat → Bool) : (refetch s d c p).hid = s.hid := rfl
@[simp] theorem refetch_hist (s : State) (d c : Nat) (p : Nat → Bool) : (refetch s d c p).hist = s.hist := rfl
@[simp] theorem refetch_uses (s : State) (d c : Nat) (p : Nat → Bool) : (refetch s d c p).uses = s.uses := rfl
@[simp] theorem refetch_cmds (s : State) (d c : Nat) (p : Nat → Bool) : (refetch s d c p).cmds = s.cmds := rfl
@[simp] theorem refetch_spaces (s : State) (d c : Nat) (p : Nat → Bool) : (refetch s d c p).spaces = s.spaces := rfl
@[simp] theorem refetch_dirW (s : State) (d c : Nat) (p : Nat → Bool) : (refetch s d c p).dirW = s.dirW := rfl
@[simp] theorem refetch_grp (s : State) (d c : Nat) (p : Nat → Bool) : (refetch s d c p).grp = s.grp := rfl
@[simp] theorem refetch_vxmap (s : State) (d c : Nat) (p : Nat → Bool) : (refetch s d c p).vxmap = s.vxmap := rfl
@[simp] theorem refetch_inb (s : State) (d c : Nat) (p : Nat → Bool) : (refetch s d c p).inb = s.inb := rfl
@[simp] theorem refetch_cpls (s : State) (d c : Nat) (p : Nat → Bool) : (refetch s d c p).cpls = s.cpls := rfl
@[simp] theorem refetch_ports (s : State) (d c : Nat) (p : Nat → Bool) : (refetch s d c p).ports = s.ports := rfl
@[simp] theorem refetch_attest (s : State) (d c : Nat) (p : Nat → Bool) : (refetch s d c p).attest = s.attest := rfl
@[simp] theorem refetch_pmcCause (s : State) (d c : Nat) (p : Nat → Bool) : (refetch s d c p).pmcCause = s.pmcCause := rfl
@[simp] theorem refetch_msix (s : State) (d c : Nat) (p : Nat → Bool) : (refetch s d c p).msix = s.msix := rfl
@[simp] theorem refetch_aer (s : State) (d c : Nat) (p : Nat → Bool) : (refetch s d c p).aer = s.aer := rfl
@[simp] theorem refetch_spanWait (s : State) (d c : Nat) (p : Nat → Bool) : (refetch s d c p).spanWait = s.spanWait := rfl
@[simp] theorem refetch_fw (s : State) (d c : Nat) (p : Nat → Bool) : (refetch s d c p).fw = s.fw := rfl
@[simp] theorem refetch_fwNew (s : State) (d c : Nat) (p : Nat → Bool) : (refetch s d c p).fwNew = s.fwNew := rfl
@[simp] theorem refetch_fwSel (s : State) (d c : Nat) (p : Nat → Bool) : (refetch s d c p).fwSel = s.fwSel := rfl

@[simp] theorem dropLines_tick (s : State) (d c : Nat) (p : Nat × Line → Bool) : (dropLines s d c p).tick = s.tick := rfl
@[simp] theorem dropLines_agenda (s : State) (d c : Nat) (p : Nat × Line → Bool) : (dropLines s d c p).agenda = s.agenda := rfl
@[simp] theorem dropLines_cur (s : State) (d c : Nat) (p : Nat × Line → Bool) : (dropLines s d c p).cur = s.cur := rfl
@[simp] theorem dropLines_word (s : State) (d c : Nat) (p : Nat × Line → Bool) : (dropLines s d c p).word = s.word := rfl
@[simp] theorem dropLines_freeIx (s : State) (d c : Nat) (p : Nat × Line → Bool) : (dropLines s d c p).freeIx = s.freeIx := rfl
@[simp] theorem dropLines_nextId (s : State) (d c : Nat) (p : Nat × Line → Bool) : (dropLines s d c p).nextId = s.nextId := rfl
@[simp] theorem dropLines_clock (s : State) (d c : Nat) (p : Nat × Line → Bool) : (dropLines s d c p).clock = s.clock := rfl
@[simp] theorem dropLines_cycs (s : State) (d c : Nat) (p : Nat × Line → Bool) : (dropLines s d c p).cycs = s.cycs := rfl
@[simp] theorem dropLines_mem (s : State) (d c : Nat) (p : Nat × Line → Bool) : (dropLines s d c p).mem = s.mem := rfl
@[simp] theorem dropLines_poison (s : State) (d c : Nat) (p : Nat × Line → Bool) : (dropLines s d c p).poison = s.poison := rfl
@[simp] theorem dropLines_stks (s : State) (d c : Nat) (p : Nat × Line → Bool) : (dropLines s d c p).stks = s.stks := rfl
@[simp] theorem dropLines_vxHome (s : State) (d c : Nat) (p : Nat × Line → Bool) : (dropLines s d c p).vxHome = s.vxHome := rfl
@[simp] theorem dropLines_hid (s : State) (d c : Nat) (p : Nat × Line → Bool) : (dropLines s d c p).hid = s.hid := rfl
@[simp] theorem dropLines_hist (s : State) (d c : Nat) (p : Nat × Line → Bool) : (dropLines s d c p).hist = s.hist := rfl
@[simp] theorem dropLines_uses (s : State) (d c : Nat) (p : Nat × Line → Bool) : (dropLines s d c p).uses = s.uses := rfl
@[simp] theorem dropLines_cmds (s : State) (d c : Nat) (p : Nat × Line → Bool) : (dropLines s d c p).cmds = s.cmds := rfl
@[simp] theorem dropLines_spaces (s : State) (d c : Nat) (p : Nat × Line → Bool) : (dropLines s d c p).spaces = s.spaces := rfl
@[simp] theorem dropLines_dirW (s : State) (d c : Nat) (p : Nat × Line → Bool) : (dropLines s d c p).dirW = s.dirW := rfl
@[simp] theorem dropLines_grp (s : State) (d c : Nat) (p : Nat × Line → Bool) : (dropLines s d c p).grp = s.grp := rfl
@[simp] theorem dropLines_vxmap (s : State) (d c : Nat) (p : Nat × Line → Bool) : (dropLines s d c p).vxmap = s.vxmap := rfl
@[simp] theorem dropLines_inb (s : State) (d c : Nat) (p : Nat × Line → Bool) : (dropLines s d c p).inb = s.inb := rfl
@[simp] theorem dropLines_cpls (s : State) (d c : Nat) (p : Nat × Line → Bool) : (dropLines s d c p).cpls = s.cpls := rfl
@[simp] theorem dropLines_ports (s : State) (d c : Nat) (p : Nat × Line → Bool) : (dropLines s d c p).ports = s.ports := rfl
@[simp] theorem dropLines_attest (s : State) (d c : Nat) (p : Nat × Line → Bool) : (dropLines s d c p).attest = s.attest := rfl
@[simp] theorem dropLines_pmcCause (s : State) (d c : Nat) (p : Nat × Line → Bool) : (dropLines s d c p).pmcCause = s.pmcCause := rfl
@[simp] theorem dropLines_msix (s : State) (d c : Nat) (p : Nat × Line → Bool) : (dropLines s d c p).msix = s.msix := rfl
@[simp] theorem dropLines_aer (s : State) (d c : Nat) (p : Nat × Line → Bool) : (dropLines s d c p).aer = s.aer := rfl
@[simp] theorem dropLines_spanWait (s : State) (d c : Nat) (p : Nat × Line → Bool) : (dropLines s d c p).spanWait = s.spanWait := rfl
@[simp] theorem dropLines_fw (s : State) (d c : Nat) (p : Nat × Line → Bool) : (dropLines s d c p).fw = s.fw := rfl
@[simp] theorem dropLines_fwNew (s : State) (d c : Nat) (p : Nat × Line → Bool) : (dropLines s d c p).fwNew = s.fwNew := rfl
@[simp] theorem dropLines_fwSel (s : State) (d c : Nat) (p : Nat × Line → Bool) : (dropLines s d c p).fwSel = s.fwSel := rfl

@[simp] theorem l1Install_tick (s : State) (d c li : Nat) (l : Line) : (l1Install s d c li l).tick = s.tick := rfl
@[simp] theorem l1Install_agenda (s : State) (d c li : Nat) (l : Line) : (l1Install s d c li l).agenda = s.agenda := rfl
@[simp] theorem l1Install_cur (s : State) (d c li : Nat) (l : Line) : (l1Install s d c li l).cur = s.cur := rfl
@[simp] theorem l1Install_word (s : State) (d c li : Nat) (l : Line) : (l1Install s d c li l).word = s.word := rfl
@[simp] theorem l1Install_freeIx (s : State) (d c li : Nat) (l : Line) : (l1Install s d c li l).freeIx = s.freeIx := rfl
@[simp] theorem l1Install_nextId (s : State) (d c li : Nat) (l : Line) : (l1Install s d c li l).nextId = s.nextId := rfl
@[simp] theorem l1Install_clock (s : State) (d c li : Nat) (l : Line) : (l1Install s d c li l).clock = s.clock := rfl
@[simp] theorem l1Install_cycs (s : State) (d c li : Nat) (l : Line) : (l1Install s d c li l).cycs = s.cycs := rfl
@[simp] theorem l1Install_mem (s : State) (d c li : Nat) (l : Line) : (l1Install s d c li l).mem = s.mem := rfl
@[simp] theorem l1Install_poison (s : State) (d c li : Nat) (l : Line) : (l1Install s d c li l).poison = s.poison := rfl
@[simp] theorem l1Install_stks (s : State) (d c li : Nat) (l : Line) : (l1Install s d c li l).stks = s.stks := rfl
@[simp] theorem l1Install_vxHome (s : State) (d c li : Nat) (l : Line) : (l1Install s d c li l).vxHome = s.vxHome := rfl
@[simp] theorem l1Install_hid (s : State) (d c li : Nat) (l : Line) : (l1Install s d c li l).hid = s.hid := rfl
@[simp] theorem l1Install_hist (s : State) (d c li : Nat) (l : Line) : (l1Install s d c li l).hist = s.hist := rfl
@[simp] theorem l1Install_uses (s : State) (d c li : Nat) (l : Line) : (l1Install s d c li l).uses = s.uses := rfl
@[simp] theorem l1Install_accs (s : State) (d c li : Nat) (l : Line) : (l1Install s d c li l).accs = s.accs := rfl
@[simp] theorem l1Install_cmds (s : State) (d c li : Nat) (l : Line) : (l1Install s d c li l).cmds = s.cmds := rfl
@[simp] theorem l1Install_spaces (s : State) (d c li : Nat) (l : Line) : (l1Install s d c li l).spaces = s.spaces := rfl
@[simp] theorem l1Install_dirW (s : State) (d c li : Nat) (l : Line) : (l1Install s d c li l).dirW = s.dirW := rfl
@[simp] theorem l1Install_grp (s : State) (d c li : Nat) (l : Line) : (l1Install s d c li l).grp = s.grp := rfl
@[simp] theorem l1Install_vxmap (s : State) (d c li : Nat) (l : Line) : (l1Install s d c li l).vxmap = s.vxmap := rfl
@[simp] theorem l1Install_inb (s : State) (d c li : Nat) (l : Line) : (l1Install s d c li l).inb = s.inb := rfl
@[simp] theorem l1Install_cpls (s : State) (d c li : Nat) (l : Line) : (l1Install s d c li l).cpls = s.cpls := rfl
@[simp] theorem l1Install_ports (s : State) (d c li : Nat) (l : Line) : (l1Install s d c li l).ports = s.ports := rfl
@[simp] theorem l1Install_attest (s : State) (d c li : Nat) (l : Line) : (l1Install s d c li l).attest = s.attest := rfl
@[simp] theorem l1Install_pmcCause (s : State) (d c li : Nat) (l : Line) : (l1Install s d c li l).pmcCause = s.pmcCause := rfl
@[simp] theorem l1Install_msix (s : State) (d c li : Nat) (l : Line) : (l1Install s d c li l).msix = s.msix := rfl
@[simp] theorem l1Install_aer (s : State) (d c li : Nat) (l : Line) : (l1Install s d c li l).aer = s.aer := rfl
@[simp] theorem l1Install_spanWait (s : State) (d c li : Nat) (l : Line) : (l1Install s d c li l).spanWait = s.spanWait := rfl
@[simp] theorem l1Install_fw (s : State) (d c li : Nat) (l : Line) : (l1Install s d c li l).fw = s.fw := rfl
@[simp] theorem l1Install_fwNew (s : State) (d c li : Nat) (l : Line) : (l1Install s d c li l).fwNew = s.fwNew := rfl
@[simp] theorem l1Install_fwSel (s : State) (d c li : Nat) (l : Line) : (l1Install s d c li l).fwSel = s.fwSel := rfl

@[simp] theorem l1Put_tick (s : State) (d c li o : Nat) (bs : List Byte) (p : Bool) : (l1Put s d c li o bs p).tick = s.tick := rfl
@[simp] theorem l1Put_agenda (s : State) (d c li o : Nat) (bs : List Byte) (p : Bool) : (l1Put s d c li o bs p).agenda = s.agenda := rfl
@[simp] theorem l1Put_cur (s : State) (d c li o : Nat) (bs : List Byte) (p : Bool) : (l1Put s d c li o bs p).cur = s.cur := rfl
@[simp] theorem l1Put_word (s : State) (d c li o : Nat) (bs : List Byte) (p : Bool) : (l1Put s d c li o bs p).word = s.word := rfl
@[simp] theorem l1Put_freeIx (s : State) (d c li o : Nat) (bs : List Byte) (p : Bool) : (l1Put s d c li o bs p).freeIx = s.freeIx := rfl
@[simp] theorem l1Put_nextId (s : State) (d c li o : Nat) (bs : List Byte) (p : Bool) : (l1Put s d c li o bs p).nextId = s.nextId := rfl
@[simp] theorem l1Put_clock (s : State) (d c li o : Nat) (bs : List Byte) (p : Bool) : (l1Put s d c li o bs p).clock = s.clock := rfl
@[simp] theorem l1Put_cycs (s : State) (d c li o : Nat) (bs : List Byte) (p : Bool) : (l1Put s d c li o bs p).cycs = s.cycs := rfl
@[simp] theorem l1Put_mem (s : State) (d c li o : Nat) (bs : List Byte) (p : Bool) : (l1Put s d c li o bs p).mem = s.mem := rfl
@[simp] theorem l1Put_poison (s : State) (d c li o : Nat) (bs : List Byte) (p : Bool) : (l1Put s d c li o bs p).poison = s.poison := rfl
@[simp] theorem l1Put_stks (s : State) (d c li o : Nat) (bs : List Byte) (p : Bool) : (l1Put s d c li o bs p).stks = s.stks := rfl
@[simp] theorem l1Put_vxHome (s : State) (d c li o : Nat) (bs : List Byte) (p : Bool) : (l1Put s d c li o bs p).vxHome = s.vxHome := rfl
@[simp] theorem l1Put_hid (s : State) (d c li o : Nat) (bs : List Byte) (p : Bool) : (l1Put s d c li o bs p).hid = s.hid := rfl
@[simp] theorem l1Put_hist (s : State) (d c li o : Nat) (bs : List Byte) (p : Bool) : (l1Put s d c li o bs p).hist = s.hist := rfl
@[simp] theorem l1Put_uses (s : State) (d c li o : Nat) (bs : List Byte) (p : Bool) : (l1Put s d c li o bs p).uses = s.uses := rfl
@[simp] theorem l1Put_accs (s : State) (d c li o : Nat) (bs : List Byte) (p : Bool) : (l1Put s d c li o bs p).accs = s.accs := rfl
@[simp] theorem l1Put_cmds (s : State) (d c li o : Nat) (bs : List Byte) (p : Bool) : (l1Put s d c li o bs p).cmds = s.cmds := rfl
@[simp] theorem l1Put_spaces (s : State) (d c li o : Nat) (bs : List Byte) (p : Bool) : (l1Put s d c li o bs p).spaces = s.spaces := rfl
@[simp] theorem l1Put_dirW (s : State) (d c li o : Nat) (bs : List Byte) (p : Bool) : (l1Put s d c li o bs p).dirW = s.dirW := rfl
@[simp] theorem l1Put_grp (s : State) (d c li o : Nat) (bs : List Byte) (p : Bool) : (l1Put s d c li o bs p).grp = s.grp := rfl
@[simp] theorem l1Put_vxmap (s : State) (d c li o : Nat) (bs : List Byte) (p : Bool) : (l1Put s d c li o bs p).vxmap = s.vxmap := rfl
@[simp] theorem l1Put_inb (s : State) (d c li o : Nat) (bs : List Byte) (p : Bool) : (l1Put s d c li o bs p).inb = s.inb := rfl
@[simp] theorem l1Put_cpls (s : State) (d c li o : Nat) (bs : List Byte) (p : Bool) : (l1Put s d c li o bs p).cpls = s.cpls := rfl
@[simp] theorem l1Put_ports (s : State) (d c li o : Nat) (bs : List Byte) (p : Bool) : (l1Put s d c li o bs p).ports = s.ports := rfl
@[simp] theorem l1Put_attest (s : State) (d c li o : Nat) (bs : List Byte) (p : Bool) : (l1Put s d c li o bs p).attest = s.attest := rfl
@[simp] theorem l1Put_pmcCause (s : State) (d c li o : Nat) (bs : List Byte) (p : Bool) : (l1Put s d c li o bs p).pmcCause = s.pmcCause := rfl
@[simp] theorem l1Put_msix (s : State) (d c li o : Nat) (bs : List Byte) (p : Bool) : (l1Put s d c li o bs p).msix = s.msix := rfl
@[simp] theorem l1Put_aer (s : State) (d c li o : Nat) (bs : List Byte) (p : Bool) : (l1Put s d c li o bs p).aer = s.aer := rfl
@[simp] theorem l1Put_spanWait (s : State) (d c li o : Nat) (bs : List Byte) (p : Bool) : (l1Put s d c li o bs p).spanWait = s.spanWait := rfl
@[simp] theorem l1Put_fw (s : State) (d c li o : Nat) (bs : List Byte) (p : Bool) : (l1Put s d c li o bs p).fw = s.fw := rfl
@[simp] theorem l1Put_fwNew (s : State) (d c li o : Nat) (bs : List Byte) (p : Bool) : (l1Put s d c li o bs p).fwNew = s.fwNew := rfl
@[simp] theorem l1Put_fwSel (s : State) (d c li o : Nat) (bs : List Byte) (p : Bool) : (l1Put s d c li o bs p).fwSel = s.fwSel := rfl

@[simp] theorem dropWatch_tick (s : State) (f : FragRef) (u : Nat) : (dropWatch s f u).tick = s.tick := rfl
@[simp] theorem dropWatch_agenda (s : State) (f : FragRef) (u : Nat) : (dropWatch s f u).agenda = s.agenda := rfl
@[simp] theorem dropWatch_cur (s : State) (f : FragRef) (u : Nat) : (dropWatch s f u).cur = s.cur := rfl
@[simp] theorem dropWatch_word (s : State) (f : FragRef) (u : Nat) : (dropWatch s f u).word = s.word := rfl
@[simp] theorem dropWatch_freeIx (s : State) (f : FragRef) (u : Nat) : (dropWatch s f u).freeIx = s.freeIx := rfl
@[simp] theorem dropWatch_nextId (s : State) (f : FragRef) (u : Nat) : (dropWatch s f u).nextId = s.nextId := rfl
@[simp] theorem dropWatch_clock (s : State) (f : FragRef) (u : Nat) : (dropWatch s f u).clock = s.clock := rfl
@[simp] theorem dropWatch_cycs (s : State) (f : FragRef) (u : Nat) : (dropWatch s f u).cycs = s.cycs := rfl
@[simp] theorem dropWatch_mem (s : State) (f : FragRef) (u : Nat) : (dropWatch s f u).mem = s.mem := rfl
@[simp] theorem dropWatch_poison (s : State) (f : FragRef) (u : Nat) : (dropWatch s f u).poison = s.poison := rfl
@[simp] theorem dropWatch_stks (s : State) (f : FragRef) (u : Nat) : (dropWatch s f u).stks = s.stks := rfl
@[simp] theorem dropWatch_vxHome (s : State) (f : FragRef) (u : Nat) : (dropWatch s f u).vxHome = s.vxHome := rfl
@[simp] theorem dropWatch_hid (s : State) (f : FragRef) (u : Nat) : (dropWatch s f u).hid = s.hid := rfl
@[simp] theorem dropWatch_hist (s : State) (f : FragRef) (u : Nat) : (dropWatch s f u).hist = s.hist := rfl
@[simp] theorem dropWatch_uses (s : State) (f : FragRef) (u : Nat) : (dropWatch s f u).uses = s.uses := rfl
@[simp] theorem dropWatch_accs (s : State) (f : FragRef) (u : Nat) : (dropWatch s f u).accs = s.accs := rfl
@[simp] theorem dropWatch_cmds (s : State) (f : FragRef) (u : Nat) : (dropWatch s f u).cmds = s.cmds := rfl
@[simp] theorem dropWatch_spaces (s : State) (f : FragRef) (u : Nat) : (dropWatch s f u).spaces = s.spaces := rfl
@[simp] theorem dropWatch_dirW (s : State) (f : FragRef) (u : Nat) : (dropWatch s f u).dirW = s.dirW := rfl
@[simp] theorem dropWatch_grp (s : State) (f : FragRef) (u : Nat) : (dropWatch s f u).grp = s.grp := rfl
@[simp] theorem dropWatch_vxmap (s : State) (f : FragRef) (u : Nat) : (dropWatch s f u).vxmap = s.vxmap := rfl
@[simp] theorem dropWatch_inb (s : State) (f : FragRef) (u : Nat) : (dropWatch s f u).inb = s.inb := rfl
@[simp] theorem dropWatch_cpls (s : State) (f : FragRef) (u : Nat) : (dropWatch s f u).cpls = s.cpls := rfl
@[simp] theorem dropWatch_ports (s : State) (f : FragRef) (u : Nat) : (dropWatch s f u).ports = s.ports := rfl
@[simp] theorem dropWatch_attest (s : State) (f : FragRef) (u : Nat) : (dropWatch s f u).attest = s.attest := rfl
@[simp] theorem dropWatch_pmcCause (s : State) (f : FragRef) (u : Nat) : (dropWatch s f u).pmcCause = s.pmcCause := rfl
@[simp] theorem dropWatch_msix (s : State) (f : FragRef) (u : Nat) : (dropWatch s f u).msix = s.msix := rfl
@[simp] theorem dropWatch_aer (s : State) (f : FragRef) (u : Nat) : (dropWatch s f u).aer = s.aer := rfl
@[simp] theorem dropWatch_spanWait (s : State) (f : FragRef) (u : Nat) : (dropWatch s f u).spanWait = s.spanWait := rfl
@[simp] theorem dropWatch_fw (s : State) (f : FragRef) (u : Nat) : (dropWatch s f u).fw = s.fw := rfl
@[simp] theorem dropWatch_fwNew (s : State) (f : FragRef) (u : Nat) : (dropWatch s f u).fwNew = s.fwNew := rfl
@[simp] theorem dropWatch_fwSel (s : State) (f : FragRef) (u : Nat) : (dropWatch s f u).fwSel = s.fwSel := rfl

@[simp] theorem countCons_tick (s : State) (d : Nat) : (countCons s d).tick = s.tick := rfl
@[simp] theorem countCons_agenda (s : State) (d : Nat) : (countCons s d).agenda = s.agenda := rfl
@[simp] theorem countCons_cur (s : State) (d : Nat) : (countCons s d).cur = s.cur := rfl
@[simp] theorem countCons_word (s : State) (d : Nat) : (countCons s d).word = s.word := rfl
@[simp] theorem countCons_freeIx (s : State) (d : Nat) : (countCons s d).freeIx = s.freeIx := rfl
@[simp] theorem countCons_nextId (s : State) (d : Nat) : (countCons s d).nextId = s.nextId := rfl
@[simp] theorem countCons_clock (s : State) (d : Nat) : (countCons s d).clock = s.clock := rfl
@[simp] theorem countCons_cycs (s : State) (d : Nat) : (countCons s d).cycs = s.cycs := rfl
@[simp] theorem countCons_mem (s : State) (d : Nat) : (countCons s d).mem = s.mem := rfl
@[simp] theorem countCons_poison (s : State) (d : Nat) : (countCons s d).poison = s.poison := rfl
@[simp] theorem countCons_stks (s : State) (d : Nat) : (countCons s d).stks = s.stks := rfl
@[simp] theorem countCons_vxHome (s : State) (d : Nat) : (countCons s d).vxHome = s.vxHome := rfl
@[simp] theorem countCons_hid (s : State) (d : Nat) : (countCons s d).hid = s.hid := rfl
@[simp] theorem countCons_hist (s : State) (d : Nat) : (countCons s d).hist = s.hist := rfl
@[simp] theorem countCons_uses (s : State) (d : Nat) : (countCons s d).uses = s.uses := rfl
@[simp] theorem countCons_accs (s : State) (d : Nat) : (countCons s d).accs = s.accs := rfl
@[simp] theorem countCons_cmds (s : State) (d : Nat) : (countCons s d).cmds = s.cmds := rfl
@[simp] theorem countCons_spaces (s : State) (d : Nat) : (countCons s d).spaces = s.spaces := rfl
@[simp] theorem countCons_dirW (s : State) (d : Nat) : (countCons s d).dirW = s.dirW := rfl
@[simp] theorem countCons_grp (s : State) (d : Nat) : (countCons s d).grp = s.grp := rfl
@[simp] theorem countCons_vxmap (s : State) (d : Nat) : (countCons s d).vxmap = s.vxmap := rfl
@[simp] theorem countCons_inb (s : State) (d : Nat) : (countCons s d).inb = s.inb := rfl
@[simp] theorem countCons_cpls (s : State) (d : Nat) : (countCons s d).cpls = s.cpls := rfl
@[simp] theorem countCons_ports (s : State) (d : Nat) : (countCons s d).ports = s.ports := rfl
@[simp] theorem countCons_attest (s : State) (d : Nat) : (countCons s d).attest = s.attest := rfl
@[simp] theorem countCons_pmcCause (s : State) (d : Nat) : (countCons s d).pmcCause = s.pmcCause := rfl
@[simp] theorem countCons_msix (s : State) (d : Nat) : (countCons s d).msix = s.msix := rfl
@[simp] theorem countCons_aer (s : State) (d : Nat) : (countCons s d).aer = s.aer := rfl
@[simp] theorem countCons_spanWait (s : State) (d : Nat) : (countCons s d).spanWait = s.spanWait := rfl
@[simp] theorem countCons_fw (s : State) (d : Nat) : (countCons s d).fw = s.fw := rfl
@[simp] theorem countCons_fwNew (s : State) (d : Nat) : (countCons s d).fwNew = s.fwNew := rfl
@[simp] theorem countCons_fwSel (s : State) (d : Nat) : (countCons s d).fwSel = s.fwSel := rfl

@[simp] theorem postEvent_tick (s : State) (d : Nat) (r : List Byte) : (postEvent s d r).tick = s.tick := rfl
@[simp] theorem postEvent_agenda (s : State) (d : Nat) (r : List Byte) : (postEvent s d r).agenda = s.agenda := rfl
@[simp] theorem postEvent_cur (s : State) (d : Nat) (r : List Byte) : (postEvent s d r).cur = s.cur := rfl
@[simp] theorem postEvent_word (s : State) (d : Nat) (r : List Byte) : (postEvent s d r).word = s.word := rfl
@[simp] theorem postEvent_freeIx (s : State) (d : Nat) (r : List Byte) : (postEvent s d r).freeIx = s.freeIx := rfl
@[simp] theorem postEvent_nextId (s : State) (d : Nat) (r : List Byte) : (postEvent s d r).nextId = s.nextId := rfl
@[simp] theorem postEvent_clock (s : State) (d : Nat) (r : List Byte) : (postEvent s d r).clock = s.clock := rfl
@[simp] theorem postEvent_cycs (s : State) (d : Nat) (r : List Byte) : (postEvent s d r).cycs = s.cycs := rfl
@[simp] theorem postEvent_mem (s : State) (d : Nat) (r : List Byte) : (postEvent s d r).mem = s.mem := rfl
@[simp] theorem postEvent_poison (s : State) (d : Nat) (r : List Byte) : (postEvent s d r).poison = s.poison := rfl
@[simp] theorem postEvent_stks (s : State) (d : Nat) (r : List Byte) : (postEvent s d r).stks = s.stks := rfl
@[simp] theorem postEvent_vxHome (s : State) (d : Nat) (r : List Byte) : (postEvent s d r).vxHome = s.vxHome := rfl
@[simp] theorem postEvent_hid (s : State) (d : Nat) (r : List Byte) : (postEvent s d r).hid = s.hid := rfl
@[simp] theorem postEvent_hist (s : State) (d : Nat) (r : List Byte) : (postEvent s d r).hist = s.hist := rfl
@[simp] theorem postEvent_uses (s : State) (d : Nat) (r : List Byte) : (postEvent s d r).uses = s.uses := rfl
@[simp] theorem postEvent_accs (s : State) (d : Nat) (r : List Byte) : (postEvent s d r).accs = s.accs := rfl
@[simp] theorem postEvent_cmds (s : State) (d : Nat) (r : List Byte) : (postEvent s d r).cmds = s.cmds := rfl
@[simp] theorem postEvent_spaces (s : State) (d : Nat) (r : List Byte) : (postEvent s d r).spaces = s.spaces := rfl
@[simp] theorem postEvent_dirW (s : State) (d : Nat) (r : List Byte) : (postEvent s d r).dirW = s.dirW := rfl
@[simp] theorem postEvent_grp (s : State) (d : Nat) (r : List Byte) : (postEvent s d r).grp = s.grp := rfl
@[simp] theorem postEvent_vxmap (s : State) (d : Nat) (r : List Byte) : (postEvent s d r).vxmap = s.vxmap := rfl
@[simp] theorem postEvent_inb (s : State) (d : Nat) (r : List Byte) : (postEvent s d r).inb = s.inb := rfl
@[simp] theorem postEvent_cpls (s : State) (d : Nat) (r : List Byte) : (postEvent s d r).cpls = s.cpls := rfl
@[simp] theorem postEvent_ports (s : State) (d : Nat) (r : List Byte) : (postEvent s d r).ports = s.ports := rfl
@[simp] theorem postEvent_attest (s : State) (d : Nat) (r : List Byte) : (postEvent s d r).attest = s.attest := rfl
@[simp] theorem postEvent_pmcCause (s : State) (d : Nat) (r : List Byte) : (postEvent s d r).pmcCause = s.pmcCause := rfl
@[simp] theorem postEvent_msix (s : State) (d : Nat) (r : List Byte) : (postEvent s d r).msix = s.msix := rfl
@[simp] theorem postEvent_aer (s : State) (d : Nat) (r : List Byte) : (postEvent s d r).aer = s.aer := rfl
@[simp] theorem postEvent_spanWait (s : State) (d : Nat) (r : List Byte) : (postEvent s d r).spanWait = s.spanWait := rfl
@[simp] theorem postEvent_fw (s : State) (d : Nat) (r : List Byte) : (postEvent s d r).fw = s.fw := rfl
@[simp] theorem postEvent_fwNew (s : State) (d : Nat) (r : List Byte) : (postEvent s d r).fwNew = s.fwNew := rfl
@[simp] theorem postEvent_fwSel (s : State) (d : Nat) (r : List Byte) : (postEvent s d r).fwSel = s.fwSel := rfl

@[simp] theorem resolveEnt_tick (s : State) (d c e : Nat) (q : BitVec 23) (st : W64) : (resolveEnt s d c e q st).tick = s.tick := rfl
@[simp] theorem resolveEnt_agenda (s : State) (d c e : Nat) (q : BitVec 23) (st : W64) : (resolveEnt s d c e q st).agenda = s.agenda := rfl
@[simp] theorem resolveEnt_cur (s : State) (d c e : Nat) (q : BitVec 23) (st : W64) : (resolveEnt s d c e q st).cur = s.cur := rfl
@[simp] theorem resolveEnt_word (s : State) (d c e : Nat) (q : BitVec 23) (st : W64) : (resolveEnt s d c e q st).word = s.word := rfl
@[simp] theorem resolveEnt_freeIx (s : State) (d c e : Nat) (q : BitVec 23) (st : W64) : (resolveEnt s d c e q st).freeIx = s.freeIx := rfl
@[simp] theorem resolveEnt_nextId (s : State) (d c e : Nat) (q : BitVec 23) (st : W64) : (resolveEnt s d c e q st).nextId = s.nextId := rfl
@[simp] theorem resolveEnt_clock (s : State) (d c e : Nat) (q : BitVec 23) (st : W64) : (resolveEnt s d c e q st).clock = s.clock := rfl
@[simp] theorem resolveEnt_cycs (s : State) (d c e : Nat) (q : BitVec 23) (st : W64) : (resolveEnt s d c e q st).cycs = s.cycs := rfl
@[simp] theorem resolveEnt_mem (s : State) (d c e : Nat) (q : BitVec 23) (st : W64) : (resolveEnt s d c e q st).mem = s.mem := rfl
@[simp] theorem resolveEnt_poison (s : State) (d c e : Nat) (q : BitVec 23) (st : W64) : (resolveEnt s d c e q st).poison = s.poison := rfl
@[simp] theorem resolveEnt_stks (s : State) (d c e : Nat) (q : BitVec 23) (st : W64) : (resolveEnt s d c e q st).stks = s.stks := rfl
@[simp] theorem resolveEnt_vxHome (s : State) (d c e : Nat) (q : BitVec 23) (st : W64) : (resolveEnt s d c e q st).vxHome = s.vxHome := rfl
@[simp] theorem resolveEnt_hid (s : State) (d c e : Nat) (q : BitVec 23) (st : W64) : (resolveEnt s d c e q st).hid = s.hid := rfl
@[simp] theorem resolveEnt_hist (s : State) (d c e : Nat) (q : BitVec 23) (st : W64) : (resolveEnt s d c e q st).hist = s.hist := rfl
@[simp] theorem resolveEnt_uses (s : State) (d c e : Nat) (q : BitVec 23) (st : W64) : (resolveEnt s d c e q st).uses = s.uses := rfl
@[simp] theorem resolveEnt_accs (s : State) (d c e : Nat) (q : BitVec 23) (st : W64) : (resolveEnt s d c e q st).accs = s.accs := rfl
@[simp] theorem resolveEnt_cmds (s : State) (d c e : Nat) (q : BitVec 23) (st : W64) : (resolveEnt s d c e q st).cmds = s.cmds := rfl
@[simp] theorem resolveEnt_spaces (s : State) (d c e : Nat) (q : BitVec 23) (st : W64) : (resolveEnt s d c e q st).spaces = s.spaces := rfl
@[simp] theorem resolveEnt_dirW (s : State) (d c e : Nat) (q : BitVec 23) (st : W64) : (resolveEnt s d c e q st).dirW = s.dirW := rfl
@[simp] theorem resolveEnt_grp (s : State) (d c e : Nat) (q : BitVec 23) (st : W64) : (resolveEnt s d c e q st).grp = s.grp := rfl
@[simp] theorem resolveEnt_vxmap (s : State) (d c e : Nat) (q : BitVec 23) (st : W64) : (resolveEnt s d c e q st).vxmap = s.vxmap := rfl
@[simp] theorem resolveEnt_inb (s : State) (d c e : Nat) (q : BitVec 23) (st : W64) : (resolveEnt s d c e q st).inb = s.inb := rfl
@[simp] theorem resolveEnt_cpls (s : State) (d c e : Nat) (q : BitVec 23) (st : W64) : (resolveEnt s d c e q st).cpls = s.cpls := rfl
@[simp] theorem resolveEnt_ports (s : State) (d c e : Nat) (q : BitVec 23) (st : W64) : (resolveEnt s d c e q st).ports = s.ports := rfl
@[simp] theorem resolveEnt_attest (s : State) (d c e : Nat) (q : BitVec 23) (st : W64) : (resolveEnt s d c e q st).attest = s.attest := rfl
@[simp] theorem resolveEnt_pmcCause (s : State) (d c e : Nat) (q : BitVec 23) (st : W64) : (resolveEnt s d c e q st).pmcCause = s.pmcCause := rfl
@[simp] theorem resolveEnt_msix (s : State) (d c e : Nat) (q : BitVec 23) (st : W64) : (resolveEnt s d c e q st).msix = s.msix := rfl
@[simp] theorem resolveEnt_aer (s : State) (d c e : Nat) (q : BitVec 23) (st : W64) : (resolveEnt s d c e q st).aer = s.aer := rfl
@[simp] theorem resolveEnt_spanWait (s : State) (d c e : Nat) (q : BitVec 23) (st : W64) : (resolveEnt s d c e q st).spanWait = s.spanWait := rfl
@[simp] theorem resolveEnt_fw (s : State) (d c e : Nat) (q : BitVec 23) (st : W64) : (resolveEnt s d c e q st).fw = s.fw := rfl
@[simp] theorem resolveEnt_fwNew (s : State) (d c e : Nat) (q : BitVec 23) (st : W64) : (resolveEnt s d c e q st).fwNew = s.fwNew := rfl
@[simp] theorem resolveEnt_fwSel (s : State) (d c e : Nat) (q : BitVec 23) (st : W64) : (resolveEnt s d c e q st).fwSel = s.fwSel := rfl

@[simp] theorem jnAlone_tick (s : State) (f : FragRef) : (jnAlone s f).tick = s.tick := rfl
@[simp] theorem jnAlone_agenda (s : State) (f : FragRef) : (jnAlone s f).agenda = s.agenda := rfl
@[simp] theorem jnAlone_cur (s : State) (f : FragRef) : (jnAlone s f).cur = s.cur := rfl
@[simp] theorem jnAlone_word (s : State) (f : FragRef) : (jnAlone s f).word = s.word := rfl
@[simp] theorem jnAlone_freeIx (s : State) (f : FragRef) : (jnAlone s f).freeIx = s.freeIx := rfl
@[simp] theorem jnAlone_nextId (s : State) (f : FragRef) : (jnAlone s f).nextId = s.nextId := rfl
@[simp] theorem jnAlone_clock (s : State) (f : FragRef) : (jnAlone s f).clock = s.clock := rfl
@[simp] theorem jnAlone_cycs (s : State) (f : FragRef) : (jnAlone s f).cycs = s.cycs := rfl
@[simp] theorem jnAlone_mem (s : State) (f : FragRef) : (jnAlone s f).mem = s.mem := rfl
@[simp] theorem jnAlone_poison (s : State) (f : FragRef) : (jnAlone s f).poison = s.poison := rfl
@[simp] theorem jnAlone_stks (s : State) (f : FragRef) : (jnAlone s f).stks = s.stks := rfl
@[simp] theorem jnAlone_vxHome (s : State) (f : FragRef) : (jnAlone s f).vxHome = s.vxHome := rfl
@[simp] theorem jnAlone_hid (s : State) (f : FragRef) : (jnAlone s f).hid = s.hid := rfl
@[simp] theorem jnAlone_hist (s : State) (f : FragRef) : (jnAlone s f).hist = s.hist := rfl
@[simp] theorem jnAlone_uses (s : State) (f : FragRef) : (jnAlone s f).uses = s.uses := rfl
@[simp] theorem jnAlone_accs (s : State) (f : FragRef) : (jnAlone s f).accs = s.accs := rfl
@[simp] theorem jnAlone_cmds (s : State) (f : FragRef) : (jnAlone s f).cmds = s.cmds := rfl
@[simp] theorem jnAlone_spaces (s : State) (f : FragRef) : (jnAlone s f).spaces = s.spaces := rfl
@[simp] theorem jnAlone_dirW (s : State) (f : FragRef) : (jnAlone s f).dirW = s.dirW := rfl
@[simp] theorem jnAlone_grp (s : State) (f : FragRef) : (jnAlone s f).grp = s.grp := rfl
@[simp] theorem jnAlone_vxmap (s : State) (f : FragRef) : (jnAlone s f).vxmap = s.vxmap := rfl
@[simp] theorem jnAlone_inb (s : State) (f : FragRef) : (jnAlone s f).inb = s.inb := rfl
@[simp] theorem jnAlone_cpls (s : State) (f : FragRef) : (jnAlone s f).cpls = s.cpls := rfl
@[simp] theorem jnAlone_ports (s : State) (f : FragRef) : (jnAlone s f).ports = s.ports := rfl
@[simp] theorem jnAlone_attest (s : State) (f : FragRef) : (jnAlone s f).attest = s.attest := rfl
@[simp] theorem jnAlone_pmcCause (s : State) (f : FragRef) : (jnAlone s f).pmcCause = s.pmcCause := rfl
@[simp] theorem jnAlone_msix (s : State) (f : FragRef) : (jnAlone s f).msix = s.msix := rfl
@[simp] theorem jnAlone_aer (s : State) (f : FragRef) : (jnAlone s f).aer = s.aer := rfl
@[simp] theorem jnAlone_spanWait (s : State) (f : FragRef) : (jnAlone s f).spanWait = s.spanWait := rfl
@[simp] theorem jnAlone_fw (s : State) (f : FragRef) : (jnAlone s f).fw = s.fw := rfl
@[simp] theorem jnAlone_fwNew (s : State) (f : FragRef) : (jnAlone s f).fwNew = s.fwNew := rfl
@[simp] theorem jnAlone_fwSel (s : State) (f : FragRef) : (jnAlone s f).fwSel = s.fwSel := rfl

@[simp] theorem l1Drop_tick (s : State) (d c li : Nat) : (l1Drop s d c li).tick = s.tick := rfl
@[simp] theorem l1Drop_agenda (s : State) (d c li : Nat) : (l1Drop s d c li).agenda = s.agenda := rfl
@[simp] theorem l1Drop_cur (s : State) (d c li : Nat) : (l1Drop s d c li).cur = s.cur := rfl
@[simp] theorem l1Drop_word (s : State) (d c li : Nat) : (l1Drop s d c li).word = s.word := rfl
@[simp] theorem l1Drop_freeIx (s : State) (d c li : Nat) : (l1Drop s d c li).freeIx = s.freeIx := rfl
@[simp] theorem l1Drop_nextId (s : State) (d c li : Nat) : (l1Drop s d c li).nextId = s.nextId := rfl
@[simp] theorem l1Drop_clock (s : State) (d c li : Nat) : (l1Drop s d c li).clock = s.clock := rfl
@[simp] theorem l1Drop_cycs (s : State) (d c li : Nat) : (l1Drop s d c li).cycs = s.cycs := rfl
@[simp] theorem l1Drop_mem (s : State) (d c li : Nat) : (l1Drop s d c li).mem = s.mem := rfl
@[simp] theorem l1Drop_poison (s : State) (d c li : Nat) : (l1Drop s d c li).poison = s.poison := rfl
@[simp] theorem l1Drop_stks (s : State) (d c li : Nat) : (l1Drop s d c li).stks = s.stks := rfl
@[simp] theorem l1Drop_vxHome (s : State) (d c li : Nat) : (l1Drop s d c li).vxHome = s.vxHome := rfl
@[simp] theorem l1Drop_hid (s : State) (d c li : Nat) : (l1Drop s d c li).hid = s.hid := rfl
@[simp] theorem l1Drop_hist (s : State) (d c li : Nat) : (l1Drop s d c li).hist = s.hist := rfl
@[simp] theorem l1Drop_uses (s : State) (d c li : Nat) : (l1Drop s d c li).uses = s.uses := rfl
@[simp] theorem l1Drop_accs (s : State) (d c li : Nat) : (l1Drop s d c li).accs = s.accs := rfl
@[simp] theorem l1Drop_cmds (s : State) (d c li : Nat) : (l1Drop s d c li).cmds = s.cmds := rfl
@[simp] theorem l1Drop_spaces (s : State) (d c li : Nat) : (l1Drop s d c li).spaces = s.spaces := rfl
@[simp] theorem l1Drop_dirW (s : State) (d c li : Nat) : (l1Drop s d c li).dirW = s.dirW := rfl
@[simp] theorem l1Drop_grp (s : State) (d c li : Nat) : (l1Drop s d c li).grp = s.grp := rfl
@[simp] theorem l1Drop_vxmap (s : State) (d c li : Nat) : (l1Drop s d c li).vxmap = s.vxmap := rfl
@[simp] theorem l1Drop_inb (s : State) (d c li : Nat) : (l1Drop s d c li).inb = s.inb := rfl
@[simp] theorem l1Drop_cpls (s : State) (d c li : Nat) : (l1Drop s d c li).cpls = s.cpls := rfl
@[simp] theorem l1Drop_ports (s : State) (d c li : Nat) : (l1Drop s d c li).ports = s.ports := rfl
@[simp] theorem l1Drop_attest (s : State) (d c li : Nat) : (l1Drop s d c li).attest = s.attest := rfl
@[simp] theorem l1Drop_pmcCause (s : State) (d c li : Nat) : (l1Drop s d c li).pmcCause = s.pmcCause := rfl
@[simp] theorem l1Drop_msix (s : State) (d c li : Nat) : (l1Drop s d c li).msix = s.msix := rfl
@[simp] theorem l1Drop_aer (s : State) (d c li : Nat) : (l1Drop s d c li).aer = s.aer := rfl
@[simp] theorem l1Drop_spanWait (s : State) (d c li : Nat) : (l1Drop s d c li).spanWait = s.spanWait := rfl
@[simp] theorem l1Drop_fw (s : State) (d c li : Nat) : (l1Drop s d c li).fw = s.fw := rfl
@[simp] theorem l1Drop_fwNew (s : State) (d c li : Nat) : (l1Drop s d c li).fwNew = s.fwNew := rfl
@[simp] theorem l1Drop_fwSel (s : State) (d c li : Nat) : (l1Drop s d c li).fwSel = s.fwSel := rfl

@[simp] theorem tlbFill_tick (s : State) (d c : Nat) (t : TlbEnt) : (tlbFill s d c t).tick = s.tick := rfl
@[simp] theorem tlbFill_agenda (s : State) (d c : Nat) (t : TlbEnt) : (tlbFill s d c t).agenda = s.agenda := rfl
@[simp] theorem tlbFill_cur (s : State) (d c : Nat) (t : TlbEnt) : (tlbFill s d c t).cur = s.cur := rfl
@[simp] theorem tlbFill_word (s : State) (d c : Nat) (t : TlbEnt) : (tlbFill s d c t).word = s.word := rfl
@[simp] theorem tlbFill_freeIx (s : State) (d c : Nat) (t : TlbEnt) : (tlbFill s d c t).freeIx = s.freeIx := rfl
@[simp] theorem tlbFill_nextId (s : State) (d c : Nat) (t : TlbEnt) : (tlbFill s d c t).nextId = s.nextId := rfl
@[simp] theorem tlbFill_clock (s : State) (d c : Nat) (t : TlbEnt) : (tlbFill s d c t).clock = s.clock := rfl
@[simp] theorem tlbFill_cycs (s : State) (d c : Nat) (t : TlbEnt) : (tlbFill s d c t).cycs = s.cycs := rfl
@[simp] theorem tlbFill_mem (s : State) (d c : Nat) (t : TlbEnt) : (tlbFill s d c t).mem = s.mem := rfl
@[simp] theorem tlbFill_poison (s : State) (d c : Nat) (t : TlbEnt) : (tlbFill s d c t).poison = s.poison := rfl
@[simp] theorem tlbFill_stks (s : State) (d c : Nat) (t : TlbEnt) : (tlbFill s d c t).stks = s.stks := rfl
@[simp] theorem tlbFill_vxHome (s : State) (d c : Nat) (t : TlbEnt) : (tlbFill s d c t).vxHome = s.vxHome := rfl
@[simp] theorem tlbFill_hid (s : State) (d c : Nat) (t : TlbEnt) : (tlbFill s d c t).hid = s.hid := rfl
@[simp] theorem tlbFill_hist (s : State) (d c : Nat) (t : TlbEnt) : (tlbFill s d c t).hist = s.hist := rfl
@[simp] theorem tlbFill_uses (s : State) (d c : Nat) (t : TlbEnt) : (tlbFill s d c t).uses = s.uses := rfl
@[simp] theorem tlbFill_accs (s : State) (d c : Nat) (t : TlbEnt) : (tlbFill s d c t).accs = s.accs := rfl
@[simp] theorem tlbFill_cmds (s : State) (d c : Nat) (t : TlbEnt) : (tlbFill s d c t).cmds = s.cmds := rfl
@[simp] theorem tlbFill_spaces (s : State) (d c : Nat) (t : TlbEnt) : (tlbFill s d c t).spaces = s.spaces := rfl
@[simp] theorem tlbFill_dirW (s : State) (d c : Nat) (t : TlbEnt) : (tlbFill s d c t).dirW = s.dirW := rfl
@[simp] theorem tlbFill_grp (s : State) (d c : Nat) (t : TlbEnt) : (tlbFill s d c t).grp = s.grp := rfl
@[simp] theorem tlbFill_vxmap (s : State) (d c : Nat) (t : TlbEnt) : (tlbFill s d c t).vxmap = s.vxmap := rfl
@[simp] theorem tlbFill_inb (s : State) (d c : Nat) (t : TlbEnt) : (tlbFill s d c t).inb = s.inb := rfl
@[simp] theorem tlbFill_cpls (s : State) (d c : Nat) (t : TlbEnt) : (tlbFill s d c t).cpls = s.cpls := rfl
@[simp] theorem tlbFill_ports (s : State) (d c : Nat) (t : TlbEnt) : (tlbFill s d c t).ports = s.ports := rfl
@[simp] theorem tlbFill_attest (s : State) (d c : Nat) (t : TlbEnt) : (tlbFill s d c t).attest = s.attest := rfl
@[simp] theorem tlbFill_pmcCause (s : State) (d c : Nat) (t : TlbEnt) : (tlbFill s d c t).pmcCause = s.pmcCause := rfl
@[simp] theorem tlbFill_msix (s : State) (d c : Nat) (t : TlbEnt) : (tlbFill s d c t).msix = s.msix := rfl
@[simp] theorem tlbFill_aer (s : State) (d c : Nat) (t : TlbEnt) : (tlbFill s d c t).aer = s.aer := rfl
@[simp] theorem tlbFill_spanWait (s : State) (d c : Nat) (t : TlbEnt) : (tlbFill s d c t).spanWait = s.spanWait := rfl
@[simp] theorem tlbFill_fw (s : State) (d c : Nat) (t : TlbEnt) : (tlbFill s d c t).fw = s.fw := rfl
@[simp] theorem tlbFill_fwNew (s : State) (d c : Nat) (t : TlbEnt) : (tlbFill s d c t).fwNew = s.fwNew := rfl
@[simp] theorem tlbFill_fwSel (s : State) (d c : Nat) (t : TlbEnt) : (tlbFill s d c t).fwSel = s.fwSel := rfl

@[simp] theorem walkFill_tick (s : State) (d c : Nat) (l : List (Nat × W64)) : (walkFill s d c l).tick = s.tick := rfl
@[simp] theorem walkFill_agenda (s : State) (d c : Nat) (l : List (Nat × W64)) : (walkFill s d c l).agenda = s.agenda := rfl
@[simp] theorem walkFill_cur (s : State) (d c : Nat) (l : List (Nat × W64)) : (walkFill s d c l).cur = s.cur := rfl
@[simp] theorem walkFill_word (s : State) (d c : Nat) (l : List (Nat × W64)) : (walkFill s d c l).word = s.word := rfl
@[simp] theorem walkFill_freeIx (s : State) (d c : Nat) (l : List (Nat × W64)) : (walkFill s d c l).freeIx = s.freeIx := rfl
@[simp] theorem walkFill_nextId (s : State) (d c : Nat) (l : List (Nat × W64)) : (walkFill s d c l).nextId = s.nextId := rfl
@[simp] theorem walkFill_clock (s : State) (d c : Nat) (l : List (Nat × W64)) : (walkFill s d c l).clock = s.clock := rfl
@[simp] theorem walkFill_cycs (s : State) (d c : Nat) (l : List (Nat × W64)) : (walkFill s d c l).cycs = s.cycs := rfl
@[simp] theorem walkFill_mem (s : State) (d c : Nat) (l : List (Nat × W64)) : (walkFill s d c l).mem = s.mem := rfl
@[simp] theorem walkFill_poison (s : State) (d c : Nat) (l : List (Nat × W64)) : (walkFill s d c l).poison = s.poison := rfl
@[simp] theorem walkFill_stks (s : State) (d c : Nat) (l : List (Nat × W64)) : (walkFill s d c l).stks = s.stks := rfl
@[simp] theorem walkFill_vxHome (s : State) (d c : Nat) (l : List (Nat × W64)) : (walkFill s d c l).vxHome = s.vxHome := rfl
@[simp] theorem walkFill_hid (s : State) (d c : Nat) (l : List (Nat × W64)) : (walkFill s d c l).hid = s.hid := rfl
@[simp] theorem walkFill_hist (s : State) (d c : Nat) (l : List (Nat × W64)) : (walkFill s d c l).hist = s.hist := rfl
@[simp] theorem walkFill_uses (s : State) (d c : Nat) (l : List (Nat × W64)) : (walkFill s d c l).uses = s.uses := rfl
@[simp] theorem walkFill_accs (s : State) (d c : Nat) (l : List (Nat × W64)) : (walkFill s d c l).accs = s.accs := rfl
@[simp] theorem walkFill_cmds (s : State) (d c : Nat) (l : List (Nat × W64)) : (walkFill s d c l).cmds = s.cmds := rfl
@[simp] theorem walkFill_spaces (s : State) (d c : Nat) (l : List (Nat × W64)) : (walkFill s d c l).spaces = s.spaces := rfl
@[simp] theorem walkFill_dirW (s : State) (d c : Nat) (l : List (Nat × W64)) : (walkFill s d c l).dirW = s.dirW := rfl
@[simp] theorem walkFill_grp (s : State) (d c : Nat) (l : List (Nat × W64)) : (walkFill s d c l).grp = s.grp := rfl
@[simp] theorem walkFill_vxmap (s : State) (d c : Nat) (l : List (Nat × W64)) : (walkFill s d c l).vxmap = s.vxmap := rfl
@[simp] theorem walkFill_inb (s : State) (d c : Nat) (l : List (Nat × W64)) : (walkFill s d c l).inb = s.inb := rfl
@[simp] theorem walkFill_cpls (s : State) (d c : Nat) (l : List (Nat × W64)) : (walkFill s d c l).cpls = s.cpls := rfl
@[simp] theorem walkFill_ports (s : State) (d c : Nat) (l : List (Nat × W64)) : (walkFill s d c l).ports = s.ports := rfl
@[simp] theorem walkFill_attest (s : State) (d c : Nat) (l : List (Nat × W64)) : (walkFill s d c l).attest = s.attest := rfl
@[simp] theorem walkFill_pmcCause (s : State) (d c : Nat) (l : List (Nat × W64)) : (walkFill s d c l).pmcCause = s.pmcCause := rfl
@[simp] theorem walkFill_msix (s : State) (d c : Nat) (l : List (Nat × W64)) : (walkFill s d c l).msix = s.msix := rfl
@[simp] theorem walkFill_aer (s : State) (d c : Nat) (l : List (Nat × W64)) : (walkFill s d c l).aer = s.aer := rfl
@[simp] theorem walkFill_spanWait (s : State) (d c : Nat) (l : List (Nat × W64)) : (walkFill s d c l).spanWait = s.spanWait := rfl
@[simp] theorem walkFill_fw (s : State) (d c : Nat) (l : List (Nat × W64)) : (walkFill s d c l).fw = s.fw := rfl
@[simp] theorem walkFill_fwNew (s : State) (d c : Nat) (l : List (Nat × W64)) : (walkFill s d c l).fwNew = s.fwNew := rfl
@[simp] theorem walkFill_fwSel (s : State) (d c : Nat) (l : List (Nat × W64)) : (walkFill s d c l).fwSel = s.fwSel := rfl

@[simp] theorem shootdown_tick (s : State) (d : Nat) (p : TlbEnt → Bool) : (shootdown s d p).tick = s.tick := rfl
@[simp] theorem shootdown_agenda (s : State) (d : Nat) (p : TlbEnt → Bool) : (shootdown s d p).agenda = s.agenda := rfl
@[simp] theorem shootdown_cur (s : State) (d : Nat) (p : TlbEnt → Bool) : (shootdown s d p).cur = s.cur := rfl
@[simp] theorem shootdown_word (s : State) (d : Nat) (p : TlbEnt → Bool) : (shootdown s d p).word = s.word := rfl
@[simp] theorem shootdown_freeIx (s : State) (d : Nat) (p : TlbEnt → Bool) : (shootdown s d p).freeIx = s.freeIx := rfl
@[simp] theorem shootdown_nextId (s : State) (d : Nat) (p : TlbEnt → Bool) : (shootdown s d p).nextId = s.nextId := rfl
@[simp] theorem shootdown_clock (s : State) (d : Nat) (p : TlbEnt → Bool) : (shootdown s d p).clock = s.clock := rfl
@[simp] theorem shootdown_cycs (s : State) (d : Nat) (p : TlbEnt → Bool) : (shootdown s d p).cycs = s.cycs := rfl
@[simp] theorem shootdown_mem (s : State) (d : Nat) (p : TlbEnt → Bool) : (shootdown s d p).mem = s.mem := rfl
@[simp] theorem shootdown_poison (s : State) (d : Nat) (p : TlbEnt → Bool) : (shootdown s d p).poison = s.poison := rfl
@[simp] theorem shootdown_stks (s : State) (d : Nat) (p : TlbEnt → Bool) : (shootdown s d p).stks = s.stks := rfl
@[simp] theorem shootdown_vxHome (s : State) (d : Nat) (p : TlbEnt → Bool) : (shootdown s d p).vxHome = s.vxHome := rfl
@[simp] theorem shootdown_hid (s : State) (d : Nat) (p : TlbEnt → Bool) : (shootdown s d p).hid = s.hid := rfl
@[simp] theorem shootdown_hist (s : State) (d : Nat) (p : TlbEnt → Bool) : (shootdown s d p).hist = s.hist := rfl
@[simp] theorem shootdown_uses (s : State) (d : Nat) (p : TlbEnt → Bool) : (shootdown s d p).uses = s.uses := rfl
@[simp] theorem shootdown_accs (s : State) (d : Nat) (p : TlbEnt → Bool) : (shootdown s d p).accs = s.accs := rfl
@[simp] theorem shootdown_cmds (s : State) (d : Nat) (p : TlbEnt → Bool) : (shootdown s d p).cmds = s.cmds := rfl
@[simp] theorem shootdown_spaces (s : State) (d : Nat) (p : TlbEnt → Bool) : (shootdown s d p).spaces = s.spaces := rfl
@[simp] theorem shootdown_dirW (s : State) (d : Nat) (p : TlbEnt → Bool) : (shootdown s d p).dirW = s.dirW := rfl
@[simp] theorem shootdown_grp (s : State) (d : Nat) (p : TlbEnt → Bool) : (shootdown s d p).grp = s.grp := rfl
@[simp] theorem shootdown_vxmap (s : State) (d : Nat) (p : TlbEnt → Bool) : (shootdown s d p).vxmap = s.vxmap := rfl
@[simp] theorem shootdown_inb (s : State) (d : Nat) (p : TlbEnt → Bool) : (shootdown s d p).inb = s.inb := rfl
@[simp] theorem shootdown_cpls (s : State) (d : Nat) (p : TlbEnt → Bool) : (shootdown s d p).cpls = s.cpls := rfl
@[simp] theorem shootdown_ports (s : State) (d : Nat) (p : TlbEnt → Bool) : (shootdown s d p).ports = s.ports := rfl
@[simp] theorem shootdown_attest (s : State) (d : Nat) (p : TlbEnt → Bool) : (shootdown s d p).attest = s.attest := rfl
@[simp] theorem shootdown_pmcCause (s : State) (d : Nat) (p : TlbEnt → Bool) : (shootdown s d p).pmcCause = s.pmcCause := rfl
@[simp] theorem shootdown_msix (s : State) (d : Nat) (p : TlbEnt → Bool) : (shootdown s d p).msix = s.msix := rfl
@[simp] theorem shootdown_aer (s : State) (d : Nat) (p : TlbEnt → Bool) : (shootdown s d p).aer = s.aer := rfl
@[simp] theorem shootdown_spanWait (s : State) (d : Nat) (p : TlbEnt → Bool) : (shootdown s d p).spanWait = s.spanWait := rfl
@[simp] theorem shootdown_fw (s : State) (d : Nat) (p : TlbEnt → Bool) : (shootdown s d p).fw = s.fw := rfl
@[simp] theorem shootdown_fwNew (s : State) (d : Nat) (p : TlbEnt → Bool) : (shootdown s d p).fwNew = s.fwNew := rfl
@[simp] theorem shootdown_fwSel (s : State) (d : Nat) (p : TlbEnt → Bool) : (shootdown s d p).fwSel = s.fwSel := rfl

@[simp] theorem trapReturn_tick (s : State) (f : FragRef) (t : Option W64) : (trapReturn s f t).tick = s.tick := rfl
@[simp] theorem trapReturn_agenda (s : State) (f : FragRef) (t : Option W64) : (trapReturn s f t).agenda = s.agenda := rfl
@[simp] theorem trapReturn_cur (s : State) (f : FragRef) (t : Option W64) : (trapReturn s f t).cur = s.cur := rfl
@[simp] theorem trapReturn_word (s : State) (f : FragRef) (t : Option W64) : (trapReturn s f t).word = s.word := rfl
@[simp] theorem trapReturn_freeIx (s : State) (f : FragRef) (t : Option W64) : (trapReturn s f t).freeIx = s.freeIx := rfl
@[simp] theorem trapReturn_nextId (s : State) (f : FragRef) (t : Option W64) : (trapReturn s f t).nextId = s.nextId := rfl
@[simp] theorem trapReturn_clock (s : State) (f : FragRef) (t : Option W64) : (trapReturn s f t).clock = s.clock := rfl
@[simp] theorem trapReturn_cycs (s : State) (f : FragRef) (t : Option W64) : (trapReturn s f t).cycs = s.cycs := rfl
@[simp] theorem trapReturn_mem (s : State) (f : FragRef) (t : Option W64) : (trapReturn s f t).mem = s.mem := rfl
@[simp] theorem trapReturn_poison (s : State) (f : FragRef) (t : Option W64) : (trapReturn s f t).poison = s.poison := rfl
@[simp] theorem trapReturn_stks (s : State) (f : FragRef) (t : Option W64) : (trapReturn s f t).stks = s.stks := rfl
@[simp] theorem trapReturn_vxHome (s : State) (f : FragRef) (t : Option W64) : (trapReturn s f t).vxHome = s.vxHome := rfl
@[simp] theorem trapReturn_hid (s : State) (f : FragRef) (t : Option W64) : (trapReturn s f t).hid = s.hid := rfl
@[simp] theorem trapReturn_hist (s : State) (f : FragRef) (t : Option W64) : (trapReturn s f t).hist = s.hist := rfl
@[simp] theorem trapReturn_uses (s : State) (f : FragRef) (t : Option W64) : (trapReturn s f t).uses = s.uses := rfl
@[simp] theorem trapReturn_accs (s : State) (f : FragRef) (t : Option W64) : (trapReturn s f t).accs = s.accs := rfl
@[simp] theorem trapReturn_cmds (s : State) (f : FragRef) (t : Option W64) : (trapReturn s f t).cmds = s.cmds := rfl
@[simp] theorem trapReturn_spaces (s : State) (f : FragRef) (t : Option W64) : (trapReturn s f t).spaces = s.spaces := rfl
@[simp] theorem trapReturn_dirW (s : State) (f : FragRef) (t : Option W64) : (trapReturn s f t).dirW = s.dirW := rfl
@[simp] theorem trapReturn_grp (s : State) (f : FragRef) (t : Option W64) : (trapReturn s f t).grp = s.grp := rfl
@[simp] theorem trapReturn_vxmap (s : State) (f : FragRef) (t : Option W64) : (trapReturn s f t).vxmap = s.vxmap := rfl
@[simp] theorem trapReturn_inb (s : State) (f : FragRef) (t : Option W64) : (trapReturn s f t).inb = s.inb := rfl
@[simp] theorem trapReturn_cpls (s : State) (f : FragRef) (t : Option W64) : (trapReturn s f t).cpls = s.cpls := rfl
@[simp] theorem trapReturn_ports (s : State) (f : FragRef) (t : Option W64) : (trapReturn s f t).ports = s.ports := rfl
@[simp] theorem trapReturn_attest (s : State) (f : FragRef) (t : Option W64) : (trapReturn s f t).attest = s.attest := rfl
@[simp] theorem trapReturn_pmcCause (s : State) (f : FragRef) (t : Option W64) : (trapReturn s f t).pmcCause = s.pmcCause := rfl
@[simp] theorem trapReturn_msix (s : State) (f : FragRef) (t : Option W64) : (trapReturn s f t).msix = s.msix := rfl
@[simp] theorem trapReturn_aer (s : State) (f : FragRef) (t : Option W64) : (trapReturn s f t).aer = s.aer := rfl
@[simp] theorem trapReturn_spanWait (s : State) (f : FragRef) (t : Option W64) : (trapReturn s f t).spanWait = s.spanWait := rfl
@[simp] theorem trapReturn_fw (s : State) (f : FragRef) (t : Option W64) : (trapReturn s f t).fw = s.fw := rfl
@[simp] theorem trapReturn_fwNew (s : State) (f : FragRef) (t : Option W64) : (trapReturn s f t).fwNew = s.fwNew := rfl
@[simp] theorem trapReturn_fwSel (s : State) (f : FragRef) (t : Option W64) : (trapReturn s f t).fwSel = s.fwSel := rfl

@[simp] theorem wakeWhere_tick (s : State) (d : Nat) (q : Nat → Wg → Bool) (p : Wait → Bool) : (wakeWhere s d q p).tick = s.tick := rfl
@[simp] theorem wakeWhere_agenda (s : State) (d : Nat) (q : Nat → Wg → Bool) (p : Wait → Bool) : (wakeWhere s d q p).agenda = s.agenda := rfl
@[simp] theorem wakeWhere_cur (s : State) (d : Nat) (q : Nat → Wg → Bool) (p : Wait → Bool) : (wakeWhere s d q p).cur = s.cur := rfl
@[simp] theorem wakeWhere_word (s : State) (d : Nat) (q : Nat → Wg → Bool) (p : Wait → Bool) : (wakeWhere s d q p).word = s.word := rfl
@[simp] theorem wakeWhere_freeIx (s : State) (d : Nat) (q : Nat → Wg → Bool) (p : Wait → Bool) : (wakeWhere s d q p).freeIx = s.freeIx := rfl
@[simp] theorem wakeWhere_nextId (s : State) (d : Nat) (q : Nat → Wg → Bool) (p : Wait → Bool) : (wakeWhere s d q p).nextId = s.nextId := rfl
@[simp] theorem wakeWhere_clock (s : State) (d : Nat) (q : Nat → Wg → Bool) (p : Wait → Bool) : (wakeWhere s d q p).clock = s.clock := rfl
@[simp] theorem wakeWhere_cycs (s : State) (d : Nat) (q : Nat → Wg → Bool) (p : Wait → Bool) : (wakeWhere s d q p).cycs = s.cycs := rfl
@[simp] theorem wakeWhere_mem (s : State) (d : Nat) (q : Nat → Wg → Bool) (p : Wait → Bool) : (wakeWhere s d q p).mem = s.mem := rfl
@[simp] theorem wakeWhere_poison (s : State) (d : Nat) (q : Nat → Wg → Bool) (p : Wait → Bool) : (wakeWhere s d q p).poison = s.poison := rfl
@[simp] theorem wakeWhere_stks (s : State) (d : Nat) (q : Nat → Wg → Bool) (p : Wait → Bool) : (wakeWhere s d q p).stks = s.stks := rfl
@[simp] theorem wakeWhere_vxHome (s : State) (d : Nat) (q : Nat → Wg → Bool) (p : Wait → Bool) : (wakeWhere s d q p).vxHome = s.vxHome := rfl
@[simp] theorem wakeWhere_hid (s : State) (d : Nat) (q : Nat → Wg → Bool) (p : Wait → Bool) : (wakeWhere s d q p).hid = s.hid := rfl
@[simp] theorem wakeWhere_hist (s : State) (d : Nat) (q : Nat → Wg → Bool) (p : Wait → Bool) : (wakeWhere s d q p).hist = s.hist := rfl
@[simp] theorem wakeWhere_uses (s : State) (d : Nat) (q : Nat → Wg → Bool) (p : Wait → Bool) : (wakeWhere s d q p).uses = s.uses := rfl
@[simp] theorem wakeWhere_accs (s : State) (d : Nat) (q : Nat → Wg → Bool) (p : Wait → Bool) : (wakeWhere s d q p).accs = s.accs := rfl
@[simp] theorem wakeWhere_cmds (s : State) (d : Nat) (q : Nat → Wg → Bool) (p : Wait → Bool) : (wakeWhere s d q p).cmds = s.cmds := rfl
@[simp] theorem wakeWhere_spaces (s : State) (d : Nat) (q : Nat → Wg → Bool) (p : Wait → Bool) : (wakeWhere s d q p).spaces = s.spaces := rfl
@[simp] theorem wakeWhere_dirW (s : State) (d : Nat) (q : Nat → Wg → Bool) (p : Wait → Bool) : (wakeWhere s d q p).dirW = s.dirW := rfl
@[simp] theorem wakeWhere_grp (s : State) (d : Nat) (q : Nat → Wg → Bool) (p : Wait → Bool) : (wakeWhere s d q p).grp = s.grp := rfl
@[simp] theorem wakeWhere_vxmap (s : State) (d : Nat) (q : Nat → Wg → Bool) (p : Wait → Bool) : (wakeWhere s d q p).vxmap = s.vxmap := rfl
@[simp] theorem wakeWhere_inb (s : State) (d : Nat) (q : Nat → Wg → Bool) (p : Wait → Bool) : (wakeWhere s d q p).inb = s.inb := rfl
@[simp] theorem wakeWhere_cpls (s : State) (d : Nat) (q : Nat → Wg → Bool) (p : Wait → Bool) : (wakeWhere s d q p).cpls = s.cpls := rfl
@[simp] theorem wakeWhere_ports (s : State) (d : Nat) (q : Nat → Wg → Bool) (p : Wait → Bool) : (wakeWhere s d q p).ports = s.ports := rfl
@[simp] theorem wakeWhere_attest (s : State) (d : Nat) (q : Nat → Wg → Bool) (p : Wait → Bool) : (wakeWhere s d q p).attest = s.attest := rfl
@[simp] theorem wakeWhere_pmcCause (s : State) (d : Nat) (q : Nat → Wg → Bool) (p : Wait → Bool) : (wakeWhere s d q p).pmcCause = s.pmcCause := rfl
@[simp] theorem wakeWhere_msix (s : State) (d : Nat) (q : Nat → Wg → Bool) (p : Wait → Bool) : (wakeWhere s d q p).msix = s.msix := rfl
@[simp] theorem wakeWhere_aer (s : State) (d : Nat) (q : Nat → Wg → Bool) (p : Wait → Bool) : (wakeWhere s d q p).aer = s.aer := rfl
@[simp] theorem wakeWhere_spanWait (s : State) (d : Nat) (q : Nat → Wg → Bool) (p : Wait → Bool) : (wakeWhere s d q p).spanWait = s.spanWait := rfl
@[simp] theorem wakeWhere_fw (s : State) (d : Nat) (q : Nat → Wg → Bool) (p : Wait → Bool) : (wakeWhere s d q p).fw = s.fw := rfl
@[simp] theorem wakeWhere_fwNew (s : State) (d : Nat) (q : Nat → Wg → Bool) (p : Wait → Bool) : (wakeWhere s d q p).fwNew = s.fwNew := rfl
@[simp] theorem wakeWhere_fwSel (s : State) (d : Nat) (q : Nat → Wg → Bool) (p : Wait → Bool) : (wakeWhere s d q p).fwSel = s.fwSel := rfl

@[simp] theorem State.takeWord_tick (s : State) : s.takeWord.2.tick = s.tick := rfl
@[simp] theorem State.takeWord_agenda (s : State) : s.takeWord.2.agenda = s.agenda := rfl
@[simp] theorem State.takeWord_cur (s : State) : s.takeWord.2.cur = s.cur := rfl
@[simp] theorem State.takeWord_word (s : State) : s.takeWord.2.word = s.word := rfl
@[simp] theorem State.takeWord_freeIx (s : State) : s.takeWord.2.freeIx = s.freeIx + 1 := rfl
@[simp] theorem State.takeWord_nextId (s : State) : s.takeWord.2.nextId = s.nextId := rfl
@[simp] theorem State.takeWord_clock (s : State) : s.takeWord.2.clock = s.clock := rfl
@[simp] theorem State.takeWord_cycs (s : State) : s.takeWord.2.cycs = s.cycs := rfl
@[simp] theorem State.takeWord_mem (s : State) : s.takeWord.2.mem = s.mem := rfl
@[simp] theorem State.takeWord_poison (s : State) : s.takeWord.2.poison = s.poison := rfl
@[simp] theorem State.takeWord_dies (s : State) : s.takeWord.2.dies = s.dies := rfl
@[simp] theorem State.takeWord_stks (s : State) : s.takeWord.2.stks = s.stks := rfl
@[simp] theorem State.takeWord_vxHome (s : State) : s.takeWord.2.vxHome = s.vxHome := rfl
@[simp] theorem State.takeWord_hid (s : State) : s.takeWord.2.hid = s.hid := rfl
@[simp] theorem State.takeWord_hist (s : State) : s.takeWord.2.hist = s.hist := rfl
@[simp] theorem State.takeWord_uses (s : State) : s.takeWord.2.uses = s.uses := rfl
@[simp] theorem State.takeWord_accs (s : State) : s.takeWord.2.accs = s.accs := rfl
@[simp] theorem State.takeWord_cmds (s : State) : s.takeWord.2.cmds = s.cmds := rfl
@[simp] theorem State.takeWord_spaces (s : State) : s.takeWord.2.spaces = s.spaces := rfl
@[simp] theorem State.takeWord_dirW (s : State) : s.takeWord.2.dirW = s.dirW := rfl
@[simp] theorem State.takeWord_grp (s : State) : s.takeWord.2.grp = s.grp := rfl
@[simp] theorem State.takeWord_vxmap (s : State) : s.takeWord.2.vxmap = s.vxmap := rfl
@[simp] theorem State.takeWord_inb (s : State) : s.takeWord.2.inb = s.inb := rfl
@[simp] theorem State.takeWord_cpls (s : State) : s.takeWord.2.cpls = s.cpls := rfl
@[simp] theorem State.takeWord_ports (s : State) : s.takeWord.2.ports = s.ports := rfl
@[simp] theorem State.takeWord_attest (s : State) : s.takeWord.2.attest = s.attest := rfl
@[simp] theorem State.takeWord_pmcCause (s : State) : s.takeWord.2.pmcCause = s.pmcCause := rfl
@[simp] theorem State.takeWord_msix (s : State) : s.takeWord.2.msix = s.msix := rfl
@[simp] theorem State.takeWord_aer (s : State) : s.takeWord.2.aer = s.aer := rfl
@[simp] theorem State.takeWord_spanWait (s : State) : s.takeWord.2.spanWait = s.spanWait := rfl
@[simp] theorem State.takeWord_fw (s : State) : s.takeWord.2.fw = s.fw := rfl
@[simp] theorem State.takeWord_fwNew (s : State) : s.takeWord.2.fwNew = s.fwNew := rfl
@[simp] theorem State.takeWord_fwSel (s : State) : s.takeWord.2.fwSel = s.fwSel := rfl

@[simp] theorem State.takeBool_tick (s : State) : s.takeBool.2.tick = s.tick := rfl
@[simp] theorem State.takeBool_agenda (s : State) : s.takeBool.2.agenda = s.agenda := rfl
@[simp] theorem State.takeBool_cur (s : State) : s.takeBool.2.cur = s.cur := rfl
@[simp] theorem State.takeBool_word (s : State) : s.takeBool.2.word = s.word := rfl
@[simp] theorem State.takeBool_freeIx (s : State) : s.takeBool.2.freeIx = s.freeIx + 1 := rfl
@[simp] theorem State.takeBool_nextId (s : State) : s.takeBool.2.nextId = s.nextId := rfl
@[simp] theorem State.takeBool_clock (s : State) : s.takeBool.2.clock = s.clock := rfl
@[simp] theorem State.takeBool_cycs (s : State) : s.takeBool.2.cycs = s.cycs := rfl
@[simp] theorem State.takeBool_mem (s : State) : s.takeBool.2.mem = s.mem := rfl
@[simp] theorem State.takeBool_poison (s : State) : s.takeBool.2.poison = s.poison := rfl
@[simp] theorem State.takeBool_dies (s : State) : s.takeBool.2.dies = s.dies := rfl
@[simp] theorem State.takeBool_stks (s : State) : s.takeBool.2.stks = s.stks := rfl
@[simp] theorem State.takeBool_vxHome (s : State) : s.takeBool.2.vxHome = s.vxHome := rfl
@[simp] theorem State.takeBool_hid (s : State) : s.takeBool.2.hid = s.hid := rfl
@[simp] theorem State.takeBool_hist (s : State) : s.takeBool.2.hist = s.hist := rfl
@[simp] theorem State.takeBool_uses (s : State) : s.takeBool.2.uses = s.uses := rfl
@[simp] theorem State.takeBool_accs (s : State) : s.takeBool.2.accs = s.accs := rfl
@[simp] theorem State.takeBool_cmds (s : State) : s.takeBool.2.cmds = s.cmds := rfl
@[simp] theorem State.takeBool_spaces (s : State) : s.takeBool.2.spaces = s.spaces := rfl
@[simp] theorem State.takeBool_dirW (s : State) : s.takeBool.2.dirW = s.dirW := rfl
@[simp] theorem State.takeBool_grp (s : State) : s.takeBool.2.grp = s.grp := rfl
@[simp] theorem State.takeBool_vxmap (s : State) : s.takeBool.2.vxmap = s.vxmap := rfl
@[simp] theorem State.takeBool_inb (s : State) : s.takeBool.2.inb = s.inb := rfl
@[simp] theorem State.takeBool_cpls (s : State) : s.takeBool.2.cpls = s.cpls := rfl
@[simp] theorem State.takeBool_ports (s : State) : s.takeBool.2.ports = s.ports := rfl
@[simp] theorem State.takeBool_attest (s : State) : s.takeBool.2.attest = s.attest := rfl
@[simp] theorem State.takeBool_pmcCause (s : State) : s.takeBool.2.pmcCause = s.pmcCause := rfl
@[simp] theorem State.takeBool_msix (s : State) : s.takeBool.2.msix = s.msix := rfl
@[simp] theorem State.takeBool_aer (s : State) : s.takeBool.2.aer = s.aer := rfl
@[simp] theorem State.takeBool_spanWait (s : State) : s.takeBool.2.spanWait = s.spanWait := rfl
@[simp] theorem State.takeBool_fw (s : State) : s.takeBool.2.fw = s.fw := rfl
@[simp] theorem State.takeBool_fwNew (s : State) : s.takeBool.2.fwNew = s.fwNew := rfl
@[simp] theorem State.takeBool_fwSel (s : State) : s.takeBool.2.fwSel = s.fwSel := rfl

@[simp] theorem State.fresh_tick (s : State) : s.fresh.2.tick = s.tick := rfl
@[simp] theorem State.fresh_agenda (s : State) : s.fresh.2.agenda = s.agenda := rfl
@[simp] theorem State.fresh_cur (s : State) : s.fresh.2.cur = s.cur := rfl
@[simp] theorem State.fresh_word (s : State) : s.fresh.2.word = s.word := rfl
@[simp] theorem State.fresh_freeIx (s : State) : s.fresh.2.freeIx = s.freeIx := rfl
@[simp] theorem State.fresh_nextId (s : State) : s.fresh.2.nextId = s.nextId + 1 := rfl
@[simp] theorem State.fresh_clock (s : State) : s.fresh.2.clock = s.clock := rfl
@[simp] theorem State.fresh_cycs (s : State) : s.fresh.2.cycs = s.cycs := rfl
@[simp] theorem State.fresh_mem (s : State) : s.fresh.2.mem = s.mem := rfl
@[simp] theorem State.fresh_poison (s : State) : s.fresh.2.poison = s.poison := rfl
@[simp] theorem State.fresh_dies (s : State) : s.fresh.2.dies = s.dies := rfl
@[simp] theorem State.fresh_stks (s : State) : s.fresh.2.stks = s.stks := rfl
@[simp] theorem State.fresh_vxHome (s : State) : s.fresh.2.vxHome = s.vxHome := rfl
@[simp] theorem State.fresh_hid (s : State) : s.fresh.2.hid = s.hid := rfl
@[simp] theorem State.fresh_hist (s : State) : s.fresh.2.hist = s.hist := rfl
@[simp] theorem State.fresh_uses (s : State) : s.fresh.2.uses = s.uses := rfl
@[simp] theorem State.fresh_accs (s : State) : s.fresh.2.accs = s.accs := rfl
@[simp] theorem State.fresh_cmds (s : State) : s.fresh.2.cmds = s.cmds := rfl
@[simp] theorem State.fresh_spaces (s : State) : s.fresh.2.spaces = s.spaces := rfl
@[simp] theorem State.fresh_dirW (s : State) : s.fresh.2.dirW = s.dirW := rfl
@[simp] theorem State.fresh_grp (s : State) : s.fresh.2.grp = s.grp := rfl
@[simp] theorem State.fresh_vxmap (s : State) : s.fresh.2.vxmap = s.vxmap := rfl
@[simp] theorem State.fresh_inb (s : State) : s.fresh.2.inb = s.inb := rfl
@[simp] theorem State.fresh_cpls (s : State) : s.fresh.2.cpls = s.cpls := rfl
@[simp] theorem State.fresh_ports (s : State) : s.fresh.2.ports = s.ports := rfl
@[simp] theorem State.fresh_attest (s : State) : s.fresh.2.attest = s.attest := rfl
@[simp] theorem State.fresh_pmcCause (s : State) : s.fresh.2.pmcCause = s.pmcCause := rfl
@[simp] theorem State.fresh_msix (s : State) : s.fresh.2.msix = s.msix := rfl
@[simp] theorem State.fresh_aer (s : State) : s.fresh.2.aer = s.aer := rfl
@[simp] theorem State.fresh_spanWait (s : State) : s.fresh.2.spanWait = s.spanWait := rfl
@[simp] theorem State.fresh_fw (s : State) : s.fresh.2.fw = s.fw := rfl
@[simp] theorem State.fresh_fwNew (s : State) : s.fresh.2.fwNew = s.fwNew := rfl
@[simp] theorem State.fresh_fwSel (s : State) : s.fresh.2.fwSel = s.fwSel := rfl

@[simp] theorem State.takeNat_tick (s : State) (n : Nat) : (s.takeNat n).2.tick = s.tick := rfl
@[simp] theorem State.takeNat_agenda (s : State) (n : Nat) : (s.takeNat n).2.agenda = s.agenda := rfl
@[simp] theorem State.takeNat_cur (s : State) (n : Nat) : (s.takeNat n).2.cur = s.cur := rfl
@[simp] theorem State.takeNat_word (s : State) (n : Nat) : (s.takeNat n).2.word = s.word := rfl
@[simp] theorem State.takeNat_freeIx (s : State) (n : Nat) : (s.takeNat n).2.freeIx = s.freeIx + 1 := rfl
@[simp] theorem State.takeNat_nextId (s : State) (n : Nat) : (s.takeNat n).2.nextId = s.nextId := rfl
@[simp] theorem State.takeNat_clock (s : State) (n : Nat) : (s.takeNat n).2.clock = s.clock := rfl
@[simp] theorem State.takeNat_cycs (s : State) (n : Nat) : (s.takeNat n).2.cycs = s.cycs := rfl
@[simp] theorem State.takeNat_mem (s : State) (n : Nat) : (s.takeNat n).2.mem = s.mem := rfl
@[simp] theorem State.takeNat_poison (s : State) (n : Nat) : (s.takeNat n).2.poison = s.poison := rfl
@[simp] theorem State.takeNat_dies (s : State) (n : Nat) : (s.takeNat n).2.dies = s.dies := rfl
@[simp] theorem State.takeNat_stks (s : State) (n : Nat) : (s.takeNat n).2.stks = s.stks := rfl
@[simp] theorem State.takeNat_vxHome (s : State) (n : Nat) : (s.takeNat n).2.vxHome = s.vxHome := rfl
@[simp] theorem State.takeNat_hid (s : State) (n : Nat) : (s.takeNat n).2.hid = s.hid := rfl
@[simp] theorem State.takeNat_hist (s : State) (n : Nat) : (s.takeNat n).2.hist = s.hist := rfl
@[simp] theorem State.takeNat_uses (s : State) (n : Nat) : (s.takeNat n).2.uses = s.uses := rfl
@[simp] theorem State.takeNat_accs (s : State) (n : Nat) : (s.takeNat n).2.accs = s.accs := rfl
@[simp] theorem State.takeNat_cmds (s : State) (n : Nat) : (s.takeNat n).2.cmds = s.cmds := rfl
@[simp] theorem State.takeNat_spaces (s : State) (n : Nat) : (s.takeNat n).2.spaces = s.spaces := rfl
@[simp] theorem State.takeNat_dirW (s : State) (n : Nat) : (s.takeNat n).2.dirW = s.dirW := rfl
@[simp] theorem State.takeNat_grp (s : State) (n : Nat) : (s.takeNat n).2.grp = s.grp := rfl
@[simp] theorem State.takeNat_vxmap (s : State) (n : Nat) : (s.takeNat n).2.vxmap = s.vxmap := rfl
@[simp] theorem State.takeNat_inb (s : State) (n : Nat) : (s.takeNat n).2.inb = s.inb := rfl
@[simp] theorem State.takeNat_cpls (s : State) (n : Nat) : (s.takeNat n).2.cpls = s.cpls := rfl
@[simp] theorem State.takeNat_ports (s : State) (n : Nat) : (s.takeNat n).2.ports = s.ports := rfl
@[simp] theorem State.takeNat_attest (s : State) (n : Nat) : (s.takeNat n).2.attest = s.attest := rfl
@[simp] theorem State.takeNat_pmcCause (s : State) (n : Nat) : (s.takeNat n).2.pmcCause = s.pmcCause := rfl
@[simp] theorem State.takeNat_msix (s : State) (n : Nat) : (s.takeNat n).2.msix = s.msix := rfl
@[simp] theorem State.takeNat_aer (s : State) (n : Nat) : (s.takeNat n).2.aer = s.aer := rfl
@[simp] theorem State.takeNat_spanWait (s : State) (n : Nat) : (s.takeNat n).2.spanWait = s.spanWait := rfl
@[simp] theorem State.takeNat_fw (s : State) (n : Nat) : (s.takeNat n).2.fw = s.fw := rfl
@[simp] theorem State.takeNat_fwNew (s : State) (n : Nat) : (s.takeNat n).2.fwNew = s.fwNew := rfl
@[simp] theorem State.takeNat_fwSel (s : State) (n : Nat) : (s.takeNat n).2.fwSel = s.fwSel := rfl

end Sys2Proof.Machine
end

