-- ==== Sys2Proof/Laws/Memory.lean ====
section
/-! SUPPORT. Laws of sparse tables and of physical memory: reads after writes, and that every operation on memory keeps the
canonical form. -/

namespace Sys2Proof.Machine

/-! ### Tables -/

theorem Tab.risingFrom_mono {α : Type} {t : Tab α} {a b : Nat} (hab : a ≤ b) (h : Tab.risingFrom b t = true) :
    Tab.risingFrom a t = true := by
  cases t with
  | nil => rfl
  | cons e t =>
    obtain ⟨k, v⟩ := e
    simp only [Tab.risingFrom, Bool.and_eq_true, decide_eq_true_eq] at h ⊢
    exact ⟨by omega, h.2⟩

theorem Tab.get?_of_risingFrom {α : Type} {t : Tab α} {lo i : Nat} (h : Tab.risingFrom lo t = true) (hi : i < lo) :
    Tab.get? t i = none := by
  induction t generalizing lo with
  | nil => rfl
  | cons e t ih =>
    obtain ⟨k, v⟩ := e
    simp [Tab.risingFrom] at h
    simp [Tab.get?, show ¬ k = i by omega, ih h.2 (by omega)]

theorem Tab.get?_set {α : Type} (t : Tab α) (i j : Nat) (x : α) :
    Tab.get? (Tab.set t i x) j = if i = j then some x else Tab.get? t j := by
  induction t with
  | nil => rfl
  | cons e t ih =>
    obtain ⟨k, v⟩ := e
    unfold Tab.set
    split
    · simp [Tab.get?]
    · split
      · subst k; simp only [Tab.get?]; split <;> simp_all
      · simp only [Tab.get?, ih]
        by_cases hkj : k = j
        · simp [hkj, show ¬ i = j by omega]
        · simp [hkj]

theorem Tab.get?_erase {α : Type} (t : Tab α) (i j : Nat) :
    Tab.get? (Tab.erase t i) j = if i = j then none else Tab.get? t j := by
  induction t with
  | nil => simp [Tab.erase, Tab.get?]
  | cons e t ih =>
    obtain ⟨k, v⟩ := e
    unfold Tab.erase
    by_cases hki : k = i
    · subst k
      simp only [if_true, Tab.get?, ih]
      split <;> rfl
    · simp only [hki, if_false, Tab.get?, ih]
      by_cases hkj : k = j
      · simp [hkj, show ¬ i = j by omega]
      · simp [hkj]

theorem Tab.getD_put {α : Type} [DecidableEq α] (t : Tab α) (i j : Nat) (x d : α) :
    Tab.getD (Tab.put t i x d) j d = if i = j then x else Tab.getD t j d := by
  unfold Tab.put Tab.getD
  split
  · rw [Tab.get?_erase]; split <;> simp_all
  · rw [Tab.get?_set]; split <;> simp

theorem Tab.risingFrom_set {α : Type} {t : Tab α} {lo i : Nat} {x : α} (h : Tab.risingFrom lo t = true) (hi : lo ≤ i) :
    Tab.risingFrom lo (Tab.set t i x) = true := by
  induction t generalizing lo with
  | nil => simpa [Tab.set, Tab.risingFrom] using hi
  | cons e t ih =>
    obtain ⟨k, v⟩ := e
    simp [Tab.risingFrom] at h
    unfold Tab.set
    split
    · simp [Tab.risingFrom, h.2]; omega
    · split
      · subst k; simp [Tab.risingFrom, h.2, hi]
      · simp [Tab.risingFrom, h.1, ih h.2 (by omega)]

theorem Tab.risingFrom_erase {α : Type} {t : Tab α} {lo i : Nat} (h : Tab.risingFrom lo t = true) :
    Tab.risingFrom lo (Tab.erase t i) = true := by
  induction t generalizing lo with
  | nil => rfl
  | cons e t ih =>
    obtain ⟨k, v⟩ := e
    simp [Tab.risingFrom] at h
    unfold Tab.erase
    split
    · exact Tab.risingFrom_mono (by omega) (ih h.2)
    · simp [Tab.risingFrom, h.1, ih h.2]

theorem Tab.risingFrom_filter {α : Type} {t : Tab α} {lo : Nat} (p : Nat × α → Bool) (h : Tab.risingFrom lo t = true) :
    Tab.risingFrom lo (t.filter p) = true := by
  induction t generalizing lo with
  | nil => rfl
  | cons e t ih =>
    obtain ⟨k, v⟩ := e
    simp [Tab.risingFrom] at h
    simp only [List.filter_cons]
    split
    · simp [Tab.risingFrom, h.1, ih h.2]
    · exact ih (Tab.risingFrom_mono (by omega) h.2)

theorem Tab.mem_set {α : Type} {t : Tab α} {i : Nat} {x : α} {e : Nat × α} (h : e ∈ Tab.set t i x) : e = (i, x) ∨ e ∈ t := by
  induction t with
  | nil => simp [Tab.set] at h; exact .inl h
  | cons k t ih =>
    obtain ⟨k, v⟩ := k
    by_cases before : i < k
    · simpa [Tab.set, before] using h
    by_cases same : k = i
    · subst same
      exact (List.mem_cons.mp (by simpa [Tab.set] using h)).imp_right (List.mem_cons_of_mem _)
    · rw [Tab.set, if_neg before, if_neg same] at h
      exact (List.mem_cons.mp h).elim (fun e => .inr (e ▸ List.mem_cons_self)) (fun m => (ih m).imp_right (List.mem_cons_of_mem _))

theorem Tab.mem_erase {α : Type} {t : Tab α} {i : Nat} {e : Nat × α} (h : e ∈ Tab.erase t i) : e ∈ t := by
  induction t with
  | nil => exact absurd h (by simp [Tab.erase])
  | cons c rest below =>
    by_cases gone : c.1 = i
    · exact .tail _ (below (by simpa [Tab.erase, gone] using h))
    · have m : e ∈ c :: Tab.erase rest i := by simpa [Tab.erase, gone] using h
      exact List.mem_cons.mpr ((List.mem_cons.mp m).imp_right below)

/-! ### The canonical form -/

theorem memWf_put {m : List Host.Cell} {i : Nat} {b : Byte} (h : memWf m = true) : memWf (Tab.put m i b memDefault) = true := by
  unfold memWf at h ⊢
  simp only [Bool.and_eq_true, List.all_eq_true] at h ⊢
  unfold Tab.put
  split
  · exact ⟨Tab.risingFrom_erase h.1, fun e he => h.2 e (Tab.mem_erase he)⟩
  · rename_i hb
    refine ⟨Tab.risingFrom_set h.1 (Nat.zero_le i), fun e he => ?_⟩
    rcases Tab.mem_set he with he | he
    · subst he; simpa using hb
    · exact h.2 e he

theorem memWf_filter {m : List Host.Cell} (p : Host.Cell → Bool) (h : memWf m = true) : memWf (m.filter p) = true := by
  unfold memWf at h ⊢
  simp only [Bool.and_eq_true, List.all_eq_true] at h ⊢
  exact ⟨Tab.risingFrom_filter p h.1, fun e he => h.2 e (List.mem_filter.mp he).1⟩

theorem reset_memory_wf : Memory.wf State.reset = true := rfl

theorem Memory.wf_of_mem {s t : State} (h : t.mem = s.mem) (hs : Memory.wf s = true) : Memory.wf t = true := by
  unfold Memory.wf at *; rw [h]; exact hs

theorem wrB_wf {s : State} {pa : Nat} {b : Byte} (h : Memory.wf s = true) : Memory.wf (wrB s pa b) = true := memWf_put h

theorem wrRaw_wf {s : State} {pa : Nat} {bs : List Byte} (h : Memory.wf s = true) : Memory.wf (wrRaw s pa bs) = true := by
  induction bs generalizing s pa with
  | nil => exact h
  | cons b t ih => exact ih (wrB_wf h)

theorem wrBytes_wf {s : State} {pa : Nat} {bs : List Byte} (h : Memory.wf s = true) : Memory.wf (wrBytes s pa bs) = true :=
  wrRaw_wf h

theorem wrN_wf {s : State} {pa n v : Nat} (h : Memory.wf s = true) : Memory.wf (wrN s pa n v) = true := wrBytes_wf h

theorem wrBits_wf {s : State} {a b w v : Nat} (h : Memory.wf s = true) : Memory.wf (wrBits s a b w v) = true := wrN_wf h

theorem orEntry_wf {s : State} {a b : Nat} (h : Memory.wf s = true) : Memory.wf (orEntry s a b) = true := by
  unfold orEntry; simp only; split
  · exact h
  · exact wrN_wf h

/-- What every step of a fold keeps, the fold keeps. -/
theorem foldl_keeps {α β : Type} {P : β → Prop} {g : β → α → β} (hg : ∀ s a, P s → P (g s a)) (l : List α) :
    ∀ s, P s → P (l.foldl g s) := by
  induction l with
  | nil => exact fun s h => h
  | cons a l ih => exact fun s h => ih _ (hg s a h)

theorem touchEntries_wf {s : State} {l : List Nat} {a : Nat} {wt : Want} (h : Memory.wf s = true) :
    Memory.wf (touchEntries s l a wt) = true := by
  have h' := foldl_keeps (P := fun s => Memory.wf s = true) (g := fun s a => orEntry s a 4) (fun s a h => orEntry_wf h) l s h
  unfold touchEntries
  cases wt <;> first | exact h' | exact orEntry_wf h'

/-- An operation that may fail keeps the canonical form: what it answers, when it answers, holds a well-formed memory. -/
def AnswersWf {α : Type} (st : α → State) (x : Except AErr α) : Prop := ∀ v, x = .ok v → Memory.wf (st v) = true

theorem AnswersWf.ok {α : Type} {st : α → State} {v : α} (h : Memory.wf (st v) = true) : AnswersWf st (.ok v) := by
  rintro _ ⟨⟩; exact h

theorem AnswersWf.error {α : Type} {st : α → State} {e : AErr} : AnswersWf st (.error e) := nofun

theorem AnswersWf.bind {α β : Type} {st : α → State} {st' : β → State} {x : Except AErr α} {g : α → Except AErr β}
    (hx : AnswersWf st x) (hg : ∀ v, Memory.wf (st v) = true → AnswersWf st' (g v)) : AnswersWf st' (x >>= g) := by
  cases x with
  | error e => nofun
  | ok v => exact hg v (hx v rfl)

theorem setDirty_wf {s : State} {d c : Nat} {t : TlbEnt} (h : Memory.wf s = true) : Memory.wf (setDirty s d c t) = true := by
  unfold setDirty
  split
  · exact h
  · exact Memory.wf_of_mem (s := orEntry s t.at_ 5) rfl (orEntry_wf h)

theorem xlat_answers {s : State} {d va : Nat} {wt : Want} (h : Memory.wf s = true) :
    AnswersWf (fun v : State × Phys => v.1) (xlat s d va wt) := by
  unfold xlat
  split <;> try exact .error
  split
  · exact .error
  · exact .ok (touchEntries_wf h)

theorem agentLeaf_answers {s : State} {d c va : Nat} {wt : Want} {t : TlbEnt} (h : Memory.wf s = true) :
    AnswersWf (fun v : State × Phys => v.1) (agentLeaf s d c va wt t) := by
  unfold agentLeaf
  split
  · exact .error
  · refine .ok ?_
    show Memory.wf (if wt.writes then setDirty s d c t else s) = true
    split
    · exact setDirty_wf h
    · exact h

theorem xlatA_answers {s : State} {a : Agent} {va : Nat} {wt : Want} (h : Memory.wf s = true) :
    AnswersWf (fun v : State × Phys => v.1) (xlatA s a va wt) := by
  unfold xlatA
  repeat' split
  any_goals exact .error
  · exact xlat_answers h
  · exact agentLeaf_answers h
  · exact agentLeaf_answers (Memory.wf_of_mem (s := touchEntries s _ _ _) rfl (touchEntries_wf h))

theorem xlat_wf {s t : State} {d va : Nat} {wt : Want} {p : Phys} (h : Memory.wf s = true)
    (hx : xlat s d va wt = .ok (t, p)) : Memory.wf t = true := xlat_answers h _ hx

theorem xlatA_wf {s t : State} {a : Agent} {va : Nat} {wt : Want} {p : Phys} (h : Memory.wf s = true)
    (hx : xlatA s a va wt = .ok (t, p)) : Memory.wf t = true := xlatA_answers h _ hx

theorem aliasPut_wf {s : State} {a : AliasEnt} {blk : Nat} {vs : List FV} (h : Memory.wf s = true) :
    Memory.wf (aliasPut s a blk vs) = true := by
  unfold aliasPut
  exact foldl_keeps (P := fun s => Memory.wf s = true) (fun s a h => wrBits_wf h) _ _ (wrB_wf h)

theorem aliasWrite_wf {s t : State} {pa : Nat} {bs : List Byte} {p : Bool} (h : Memory.wf s = true)
    (ht : aliasWrite s pa bs p = some t) : Memory.wf t = true := by
  unfold aliasWrite at ht
  simp only [Option.map_eq_some_iff] at ht
  obtain ⟨a, -, rfl⟩ := ht
  refine foldl_keeps (P := fun s => Memory.wf s = true) (fun u r hu => ?_) _ _ (aliasPut_wf h)
  split <;> exact Memory.wf_of_mem (s := u) rfl hu

@[simp] theorem noteUse_mem (s : State) (d cl : Nat) (p : Phys) : (noteUse s d cl p).mem = s.mem := by
  unfold noteUse; split <;> rfl

@[simp] theorem readAs_mem (s : State) (pa : Nat) (bs : List Byte) : (readAs s pa bs).2.mem = s.mem := by
  induction bs generalizing s pa with
  | nil => rfl
  | cons b t ih =>
    unfold readAs
    split
    · exact ih _ _
    · rfl

theorem writeBack_wf {s : State} {li : Nat} {l : Line} (h : Memory.wf s = true) : Memory.wf (writeBack s li l) = true := by
  unfold writeBack
  exact foldl_keeps (P := fun s => Memory.wf s = true)
    (fun s u h => Memory.wf_of_mem (setPois_mem _ _ _) h) _ _ (wrBytes_wf h)

theorem dropLine_wf {s : State} {d c li : Nat} {l : Line} (h : Memory.wf s = true) : Memory.wf (dropLine s d c li l) = true := by
  have hw : Memory.wf (if l.dirty then writeBack s li l else s) = true := by
    split
    · exact writeBack_wf h
    · exact h
  exact Memory.wf_of_mem rfl hw

theorem lineRoom_wf {s t : State} {d c li : Nat} (h : Memory.wf s = true) (ht : lineRoom s d c li = some t) : Memory.wf t = true := by
  unfold lineRoom at ht
  dsimp only at ht
  split at ht
  · rwa [← Option.some.inj ht]
  · obtain ⟨e, -, rfl⟩ := Option.map_eq_some_iff.mp ht
    exact dropLine_wf (Memory.wf_of_mem (s := s) rfl h)

theorem lineInstall_wf {s : State} {d c li : Nat} {l : Line} (h : Memory.wf s = true) : Memory.wf (lineInstall s d c li l) = true := by
  unfold lineInstall
  cases hr : lineRoom s d c li with
  | none => exact h
  | some u => exact Memory.wf_of_mem (s := u) rfl (lineRoom_wf h hr)

theorem lineRead_answers {s : State} {a : Agent} {c n : Nat} {p : Phys} (h : Memory.wf s = true) :
    AnswersWf (fun v : State × List Byte × Bool => v.1) (lineRead s a c p n) := by
  have near {u : State} (l : Line) (hu : Memory.wf u = true) :
      Memory.wf (if a.l1 then l1Install u a.die c (p.pa / 128) l else u) = true := by
    split
    · exact Memory.wf_of_mem (s := u) rfl hu
    · exact hu
  unfold lineRead
  dsimp only
  generalize (if a.l1 = true then _ else none : Option (Nat × Line)) = e
  cases e with
  | some e => exact .ok h
  | none =>
    cases lineAt s a.die (c / 8) (p.pa / 128) with
    | some l => exact .ok (near l h)
    | none =>
      by_cases ht : lineTracked s a.die (c / 8) (p.pa / 128) = true
      · rw [if_pos ht]; exact .error
      · rw [if_neg ht]; exact .ok (near _ (lineInstall_wf h))

theorem readChunk_answers {s : State} {a : Agent} {va n : Nat} {wt : Want} (h : Memory.wf s = true) :
    AnswersWf (fun v : State × List Byte × Bool => v.1) (readChunk s a va n wt) := by
  refine (xlatA_answers h).bind fun ⟨u, p⟩ hu => ?_
  dsimp only
  cases reach u a va p with
  | some e => exact .error
  | none =>
    dsimp only
    by_cases hal : p.al = true
    · rw [if_pos hal]
      cases aliasRead (letGo u a.who va) p.pa n with
      | none => exact .error
      | some bs => exact .ok hu
    · rw [if_neg hal]
      cases a.core with
      | none => exact .ok hu
      | some c =>
        have hn : Memory.wf (noteUse (letGo u a.who va) a.die (c / 8) p) = true :=
          Memory.wf_of_mem (s := u) (noteUse_mem _ _ _ _) hu
        have out (v : State × List Byte × Bool) (hv : Memory.wf v.1 = true) :
            AnswersWf (fun v : State × List Byte × Bool => v.1)
              (.ok ((readAs v.1 p.pa v.2.1).2, (readAs v.1 p.pa v.2.1).1, v.2.2)) :=
          .ok (Memory.wf_of_mem (readAs_mem _ _ _) hv)
        dsimp only
        by_cases h2 : (p.sl == 2) = true
        · rw [if_pos h2]; exact out _ hn
        · rw [if_neg h2]; exact (lineRead_answers hn).bind out

theorem readChunk_wf {s t : State} {a : Agent} {va n : Nat} {wt : Want} {r : List Byte × Bool} (h : Memory.wf s = true)
    (hr : readChunk s a va n wt = .ok (t, r)) : Memory.wf t = true := readChunk_answers h _ hr

theorem l1Wrote_wf {s : State} {a : Agent} {c li o : Nat} {bs : List Byte} {p : Bool} (h : Memory.wf s = true) :
    Memory.wf (l1Wrote s a c li o bs p) = true := by
  unfold l1Wrote; split <;> exact Memory.wf_of_mem (s := s) rfl h

theorem writeChunk_answers {s : State} {a : Agent} {va : Nat} {bs : List Byte} {po : Bool} {wt : Want} (h : Memory.wf s = true) :
    AnswersWf (fun v : State => v) (writeChunk s a va bs po wt) := by
  refine (xlatA_answers h).bind fun ⟨u, p⟩ hu => ?_
  have home (v : State) (hv : Memory.wf v = true) :
      Memory.wf (if po then setPois (wrBytes v p.pa bs) p.pa bs.length else wrBytes v p.pa bs) = true := by
    split
    · exact Memory.wf_of_mem (setPois_mem _ _ _) (wrBytes_wf hv)
    · exact wrBytes_wf hv
  have line (v : State) (c : Nat) (g : Cluster → Cluster) (hv : Memory.wf v = true) :
      Memory.wf ((l1Wrote v a c (p.pa / 128) (p.pa % 128) bs po).modCluster a.die (c / 8) g) = true := l1Wrote_wf hv
  dsimp only
  generalize (if pathBusy u a p bs.length = true then some (AErr.busy Held.unit) else reach u a va p) = stop
  cases stop with
  | some e => exact .error
  | none =>
    dsimp only
    have hu' : Memory.wf (letGo u a.who va) = true := hu
    revert hu'
    generalize letGo u a.who va = u'
    intro hu
    by_cases hal : p.al = true
    · rw [if_pos hal]
      cases ha : aliasWrite u' p.pa bs po with
      | none => exact .error
      | some v => exact .ok (aliasWrite_wf hu ha)
    · rw [if_neg hal]
      cases a.core with
      | none => exact .ok (home _ hu)
      | some c =>
        dsimp only
        have hv : Memory.wf (noteUse u' a.die (c / 8) p) = true := Memory.wf_of_mem (s := u') (noteUse_mem _ _ _ _) hu
        by_cases h2 : (p.sl == 2) = true
        · rw [if_pos h2]; exact .ok (home _ hv)
        rw [if_neg h2]
        by_cases h1 : (p.sl == 1) = true
        · rw [if_pos h1]
          by_cases ht : lineTracked (noteUse u' a.die (c / 8) p) a.die (c / 8) (p.pa / 128) = true
          · rw [if_pos ht]; exact .error
          · rw [if_neg ht]; exact .ok (line _ _ _ (Memory.wf_of_mem rfl (home _ hv)))
        · rw [if_neg h1]
          cases hr : lineRoom (noteUse u' a.die (c / 8) p) a.die (c / 8) (p.pa / 128) with
          | none => exact .error
          | some w =>
            refine .ok (Memory.wf_of_mem (s := l1Wrote w a c (p.pa / 128) (p.pa % 128) bs po) rfl ?_)
            exact l1Wrote_wf (lineRoom_wf hv hr)

theorem writeChunk_wf {s t : State} {a : Agent} {va : Nat} {bs : List Byte} {po : Bool} {wt : Want} (h : Memory.wf s = true)
    (hr : writeChunk s a va bs po wt = .ok t) : Memory.wf t = true := writeChunk_answers h _ hr

theorem vreadFuel_answers {f : Nat} {s : State} {a : Agent} {va n : Nat} (h : Memory.wf s = true) :
    AnswersWf (fun v : State × List Byte × Bool => v.1) (vreadFuel f s a va n) := by
  induction f generalizing s va n with
  | zero => exact .ok h
  | succ f ih =>
    unfold vreadFuel
    split
    · exact .ok h
    · exact (readChunk_answers h).bind fun v hv => (ih hv).bind fun w hw => .ok hw

theorem vreadFuel_wf {f : Nat} {s t : State} {a : Agent} {va n : Nat} {r : List Byte × Bool} (h : Memory.wf s = true)
    (hr : vreadFuel f s a va n = .ok (t, r)) : Memory.wf t = true := vreadFuel_answers h _ hr

theorem vread_wf {s t : State} {a : Agent} {va n : Nat} {r : List Byte × Bool} (h : Memory.wf s = true)
    (hr : vread s a va n = .ok (t, r)) : Memory.wf t = true := vreadFuel_wf h hr

theorem vwriteFuel_answers {p : Bool} {wt : Want} {f : Nat} {s : State} {a : Agent} {va : Nat} {bs : List Byte}
    (h : Memory.wf s = true) : AnswersWf (fun v : State => v) (vwriteFuel p wt f s a va bs) := by
  induction f generalizing s va bs with
  | zero => exact .ok h
  | succ f ih =>
    unfold vwriteFuel
    split
    · exact .ok h
    · exact (writeChunk_answers h).bind fun u hu => ih hu

theorem vwriteFuel_wf {p : Bool} {wt : Want} {f : Nat} {s t : State} {a : Agent} {va : Nat} {bs : List Byte}
    (h : Memory.wf s = true) (hr : vwriteFuel p wt f s a va bs = .ok t) : Memory.wf t = true := vwriteFuel_answers h _ hr

theorem vwrite_wf {s t : State} {a : Agent} {va : Nat} {bs : List Byte} {po : Bool} {wt : Want} (h : Memory.wf s = true)
    (hr : vwrite s a va bs po wt = .ok t) : Memory.wf t = true := vwriteFuel_wf h hr

theorem vrdN_wf {s t : State} {a : Agent} {va n v : Nat} (h : Memory.wf s = true) (hr : vrdN s a va n = .ok (t, v)) :
    Memory.wf t = true :=
  (vreadFuel_answers h).bind (st' := fun w : State × Nat => w.1) (fun _ hu => .ok hu) _ hr

theorem vwrN_wf {s t : State} {a : Agent} {va n v : Nat} (h : Memory.wf s = true) (hr : vwrN s a va n v = .ok t) :
    Memory.wf t = true := vwrite_wf h hr

/-! ### Reads after writes -/

theorem rdB_wrB (s : State) (a x : Nat) (b : Byte) : rdB (wrB s a b) x = if a = x then b else rdB s x :=
  Tab.getD_put s.mem a x b memDefault

theorem rdB_wrRaw (s : State) (a x : Nat) (bs : List Byte) :
    rdB (wrRaw s a bs) x = if a ≤ x ∧ x < a + bs.length then (bs[x - a]?).getD 0 else rdB s x := by
  induction bs generalizing s a with
  | nil => simp [wrRaw, show ¬ (a ≤ x ∧ x < a) by omega]
  | cons b t ih =>
    simp only [wrRaw, ih, rdB_wrB, List.length_cons]
    by_cases h1 : a = x
    · subst h1; simp [show ¬ a + 1 ≤ a by omega]
    · by_cases h2 : a + 1 ≤ x ∧ x < a + 1 + t.length
      · obtain ⟨k, rfl⟩ : ∃ k, x = a + 1 + k := ⟨x - (a + 1), by omega⟩
        simp [show a ≤ a + 1 + k by omega, show a + 1 + k < a + (t.length + 1) by omega,
          show a + 1 + k < a + 1 + t.length by omega, show a + 1 + k - a = k + 1 by omega]
      · rw [if_neg h2, if_neg (show ¬ (a ≤ x ∧ x < a + (t.length + 1)) by omega), if_neg h1]

theorem rdBytes_noteWrite (s : State) (a b n : Nat) (bs : List Byte) : rdBytes (noteWrite s a bs) b n = rdBytes s b n := rfl

theorem rdB_of_mem {s t : State} (h : t.mem = s.mem) (x : Nat) : rdB t x = rdB s x := by unfold rdB; rw [h]

theorem rdB_wrBytes (s : State) (a x : Nat) (bs : List Byte) :
    rdB (wrBytes s a bs) x = if a ≤ x ∧ x < a + bs.length then (bs[x - a]?).getD 0 else rdB s x := by
  unfold wrBytes
  rw [rdB_of_mem (clearPois_mem _ _ _), rdB_wrRaw]; rfl

theorem movePhys_wf {s : State} {src dst n : Nat} (h : Memory.wf s = true) : Memory.wf (movePhys s src dst n) = true := by
  unfold movePhys
  refine foldl_keeps (P := fun s => Memory.wf s = true) (fun s u h => Memory.wf_of_mem (setPois_mem _ _ _) h) _ _ ?_
  refine foldl_keeps (P := fun s => Memory.wf s = true) (fun s u h => wrB_wf h) _ _ ?_
  exact memWf_filter _ h

end Sys2Proof.Machine
end

