-- ==== Sys2Proof/Laws/Paths.lean ====
section
/-! SUPPORT. Laws of the paths into the state: what a part reads as after a part has changed. -/

namespace Sys2Proof.Machine

theorem getElem?_listMod {α : Type} (l : List α) (i j : Nat) (g : α → α) :
    (listMod l i g)[j]? = if i = j then (l[j]?).map g else l[j]? := by
  induction l generalizing i j with
  | nil => simp [listMod]
  | cons x t ih =>
    cases i with
    | zero => cases j <;> simp [listMod]
    | succ i => cases j <;> simp [listMod, ih]

@[simp] theorem length_listMod {α : Type} (l : List α) (i : Nat) (g : α → α) : (listMod l i g).length = l.length := by
  induction l generalizing i with
  | nil => rfl
  | cons x t ih => cases i <;> simp [listMod, ih]

theorem Tab.get?_modify {α : Type} (t : Tab α) (i j : Nat) (g : α → α) :
    Tab.get? (Tab.modify t i g) j = if i = j then (Tab.get? t j).map g else Tab.get? t j := by
  unfold Tab.modify
  split
  · rename_i x hx
    rw [Tab.get?_set]
    by_cases h : i = j
    · subst h; simp [hx]
    · simp [h]
  · rename_i hx
    by_cases h : i = j
    · subst h; simp [hx]
    · simp [h]

/-! ### Dies and stacks -/

theorem die_modDie (s : State) (d e : Nat) (g : Die → Die) :
    (s.modDie d g).die e = if d = e ∧ d < s.dies.length then g (s.die e) else s.die e := by
  unfold State.die State.modDie
  simp only [getElem?_listMod]
  by_cases h : d = e
  · subst h
    by_cases hd : d < s.dies.length
    · simp [hd]
    · simp [hd]
  · simp [h]

theorem die_modDie_of_ne {s : State} {d e : Nat} {g : Die → Die} (h : d ≠ e) : (s.modDie d g).die e = s.die e := by
  rw [die_modDie]; simp [h]

theorem stk_modStk (s : State) (i j : Nat) (g : Stack → Stack) :
    (s.modStk i g).stk j = if i = j ∧ i < s.stks.length then g (s.stk j) else s.stk j := by
  unfold State.stk State.modStk
  simp only [getElem?_listMod]
  by_cases h : i = j
  · subst h
    by_cases hd : i < s.stks.length
    · simp [hd]
    · simp [hd]
  · simp [h]

@[simp] theorem die_modStk (s : State) (i e : Nat) (g : Stack → Stack) : (s.modStk i g).die e = s.die e := rfl
@[simp] theorem stk_modDie (s : State) (d i : Nat) (g : Die → Die) : (s.modDie d g).stk i = s.stk i := rfl

/-! ### Workgroups, warps and fragments -/

theorem wg?_modWg (s : State) (d t e u : Nat) (g : Wg → Wg) :
    (s.modWg d t g).wg? e u = if d = e ∧ t = u then (s.wg? e u).map g else s.wg? e u := by
  unfold State.wg? State.modWg
  rw [die_modDie]
  by_cases hd : d = e
  · subst hd
    by_cases hl : d < s.dies.length
    · simp only [hl, and_true, if_true, true_and, Tab.get?_modify]
    · have : s.die d = default := by simp [State.die, hl]
      have h0 : Tab.get? (s.die d).wgs u = none := by rw [this]; rfl
      simp [hl, h0]
  · simp [hd]

theorem wgOf?_modWgOf {s : State} {f : FragRef} {g : Wg → Wg} (hg : ∀ x, (g x).core = x.core) :
    (s.modWgOf f g).wgOf? f = (s.wgOf? f).map g := by
  unfold State.wgOf? State.modWgOf
  rw [wg?_modWg]
  cases s.wg? f.die f.wg with
  | none => simp
  | some x => simp [hg]

theorem wgOf?_modWarp (s : State) (f : FragRef) (g : Warp → Warp) :
    (s.modWarp f g).wgOf? f = (s.wgOf? f).map (fun x => { x with warps := Tab.modify x.warps f.warp g }) :=
  wgOf?_modWgOf (fun _ => rfl)

theorem warp?_modWarp (s : State) (f : FragRef) (g : Warp → Warp) : (s.modWarp f g).warp? f = (s.warp? f).map g := by
  unfold State.warp?
  rw [wgOf?_modWarp]
  cases s.wgOf? f with
  | none => rfl
  | some x => simp [Tab.get?_modify]

/-- The context of a slot after its warp has changed. -/
theorem ctxOf_modWarp {s : State} {f : FragRef} {c : Ctx} (h : ctxOf s f = some c) {g : Warp → Warp}
    (ho : ((g c.w).slot f.s1).occ = true) :
    ctxOf (s.modWarp f g) f =
      some ⟨f, { c.g with warps := Tab.modify c.g.warps f.warp g }, g c.w, (g c.w).slot f.s1⟩ := by
  unfold ctxOf at h ⊢
  rw [wgOf?_modWarp]
  cases hg : s.wgOf? f with
  | none => simp [hg] at h
  | some x =>
    simp only [hg] at h
    cases hw : Tab.get? x.warps f.warp with
    | none => simp [hw] at h
    | some w =>
      simp only [hw] at h
      split at h
      · cases h; simp [Tab.get?_modify, hw, ho]
      · cases h

theorem ctxOf_f {s : State} {f : FragRef} {c : Ctx} (h : ctxOf s f = some c) :
    c.f = f ∧ s.wgOf? f = some c.g ∧ s.warp? f = some c.w ∧ c.p = c.w.slot f.s1 ∧ c.p.occ = true := by
  unfold ctxOf at h
  cases hg : s.wgOf? f with
  | none => simp [hg] at h
  | some x =>
    simp only [hg] at h
    cases hw : Tab.get? x.warps f.warp with
    | none => simp [hw] at h
    | some w =>
      simp only [hw] at h
      split at h
      · rename_i ho; cases h; simp [State.warp?, hg, hw, ho]
      · cases h

theorem frag?_of_ctxOf {s : State} {f : FragRef} {c : Ctx} (h : ctxOf s f = some c) : s.frag? f = some c.p := by
  obtain ⟨hf, hg, hw, hp, ho⟩ := ctxOf_f h
  rw [hp] at ho
  simp [State.frag?, hw, ho, hp]

theorem Warp.slot_modSlot (w : Warp) (b : Bool) (g : Frag → Frag) : (w.modSlot b g).slot b = g (w.slot b) := by
  cases b <;> rfl

theorem Warp.slot_modSlot_not (w : Warp) (b : Bool) (g : Frag → Frag) : (w.modSlot b g).slot (!b) = w.slot (!b) := by
  cases b <;> rfl

/-- The fragment of a slot after it has changed. -/
theorem frag?_modFrag {s : State} {f : FragRef} {p : Frag} {g : Frag → Frag} (h : s.frag? f = some p)
    (ho : (g p).occ = true) : (s.modFrag f g).frag? f = some (g p) := by
  unfold State.frag? at h ⊢
  unfold State.modFrag
  rw [warp?_modWarp]
  cases hw : s.warp? f with
  | none => simp [hw] at h
  | some w =>
    simp only [hw] at h
    split at h
    · cases h; simp [Warp.slot_modSlot, ho]
    · cases h

/-- The fragment of a slot after its warp has changed elsewhere. -/
theorem frag?_modWarp {s : State} {f : FragRef} {p : Frag} {g : Warp → Warp} (h : s.frag? f = some p)
    (hg : ∀ w, (g w).slot f.s1 = w.slot f.s1) : (s.modWarp f g).frag? f = some p := by
  unfold State.frag? at h ⊢
  rw [warp?_modWarp]
  cases hw : s.warp? f with
  | none => simp [hw] at h
  | some w =>
    simp only [hw] at h
    simpa [hg] using h

/-- A fragment that is found is alive. -/
theorem frag?_occ {s : State} {f : FragRef} {p : Frag} (h : s.frag? f = some p) : p.occ = true := by
  cases e : s.warp? f with
  | none => simp [State.frag?, e] at h
  | some w =>
    have ⟨o, q⟩ : (w.slot f.s1).occ = true ∧ w.slot f.s1 = p := by simpa [State.frag?, e] using h
    exact q ▸ o

/-- What a word that is done leaves of its fragment. -/
theorem frag?_finish {s : State} {f : FragRef} {p : Frag} {n : Nat} (h : s.frag? f = some p) :
    (finish s f n).frag? f = some (p.next (p.pc + 8)) := by
  have ho : p.occ = true := frag?_occ h
  unfold finish
  refine frag?_modFrag (p := p) (g := fun p => p.next (p.pc + 8)) ?_ ho
  unfold spend
  refine frag?_modWarp (s := s.addCyc f.die f.core (n - 1)) h ?_
  intro w
  cases w.bound <;> rfl

end Sys2Proof.Machine
end

