-- ==== Sys2Proof/Laws/Words.lean ====
section
/-! SUPPORT. What the shared operations of a program word do: its beginning, its poison and queue checks, the register words, the
uniform words and the collectives. -/

namespace Sys2Proof.Machine

/-- A word with a context, nothing to wait for and no pending register that it reads begins, and changes nothing. -/
theorem begin_go {s : State} {c : Ctx} {sw : Bool} {ks : List Nat} (hc : ctx? s = some c)
    (hm : markerWaits s c sw = false) (hk : ∀ i ∈ ks, c.w.kpend.getLsbD i = false) : begin sw ks s = .go c s := by
  have hr : ks.filter (fun i => c.w.kpend.getLsbD i) = [] := by
    simpa [List.filter_eq_nil_iff] using hk
  have hs : settleK s c ks = some s := by unfold settleK; simp only [hr, allSome]; rfl
  unfold begin
  simp [hc, hm, hs]

/-- A switch marker holds the word while a result is out. -/
theorem begin_marker {s : State} {c : Ctx} {sw : Bool} {ks : List Nat} (hc : ctx? s = some c)
    (hm : markerWaits s c sw = true) : begin sw ks s = .stop (hold s c.f .marker) := by
  unfold begin; simp [hc, hm]

/-- Operands without poison pass. -/
theorem checkPois_go {c : Ctx} {h : Hdr} {uni : Bool} {ts : List Nat} {os : List Opd} {s : State}
    (hg : firstPois c (if uni then [0] else maskList c.p.am) [guardOpd h] = none) (ho : firstPois c ts os = none) :
    checkPois c h uni ts os s = .go c s := by
  unfold checkPois; simp [hg, ho]

/-- A poisoned operand traps. -/
theorem checkPois_stop {c : Ctx} {h : Hdr} {uni : Bool} {ts : List Nat} {os : List Opd} {s : State} {o : Opd}
    (hg : firstPois c (if uni then [0] else maskList c.p.am) [guardOpd h] = none) (ho : firstPois c ts os = some o) :
    checkPois c h uni ts os s = .stop (poisTrap s c.f o) := by
  unfold checkPois; simp [hg, ho]

/-- A uniform word that begins, whose guard holds and whose operands carry no poison, is its body. -/
theorem uniOp_go {h : Hdr} {os : List Opd} {body : Ctx → State → State} {s : State} {c : Ctx} (hc : ctx? s = some c)
    (hm : markerWaits s c h.sw = false) (hk : ∀ i ∈ kRegs (guardOpd h :: os), c.w.kpend.getLsbD i = false) (hu : uniHolds c h = true)
    (hg : firstPois c [0] [guardOpd h] = none) (ho : firstPois c [0] os = none) : uniOp h os body s = body c s := by
  have hp : checkPois c h true [0] os s = .go c s := checkPois_go hg ho
  simp [uniOp, uniBody, begin_go hc hm hk, hp, Go.run, hu]

/-- A uniform word that begins and whose guard fails only goes on. -/
theorem uniOp_off {h : Hdr} {os : List Opd} {body : Ctx → State → State} {s : State} {c : Ctx} (hc : ctx? s = some c)
    (hm : markerWaits s c h.sw = false) (hk : ∀ i ∈ kRegs (guardOpd h :: os), c.w.kpend.getLsbD i = false) (hu : uniHolds c h = false)
    (hg : firstPois c [0] [guardOpd h] = none) : uniOp h os body s = finish s c.f 1 := by
  have hp : checkPois c h true [] os s = .go c s := by
    unfold checkPois; rw [if_pos rfl, hg]; have : os.find? (fun _ => false) = none := by simp
    simp [firstPois, this]
  simp [uniOp, uniBody, begin_go hc hm hk, hp, Go.run, hu]

/-- Queues that hold what is popped and have room for what is pushed pass. -/
theorem checkQueues_go {c : Ctx} {n dw : Nat} {srcs : List Src} {d : Opd} {s : State}
    (hs : ∀ x ∈ qNeeds n srcs, (c.g.queue x.1).port ≠ 2 ∧ (c.g.queue x.1).port ≠ 0 ∧ c.p.wait ≠ .popDead x.1 ∧
      needOf (qNeeds n srcs) x.1 ≤ (c.g.queue x.1).count)
    (hd : ∀ i, d = .q i → (c.g.queue i.toNat).port ≠ 3 ∧ (c.g.queue i.toNat).port ≠ 0 ∧ c.p.wait ≠ .popDead i.toNat ∧
      pushCount n dw ≤ 256 - ((c.g.queue i.toNat).count - needOf (qNeeds n srcs) i.toNat))
    (ho : opsHeld s c (popRanges c n srcs) (pushRange c n d dw) = false) :
    checkQueues c n srcs d dw s = .go c s := by
  have h1 : (qNeeds n srcs).any (fun x => (c.g.queue x.1).port == 2) = false := by
    rw [List.any_eq_false]; intro x hx; simpa using (hs x hx).1
  have h2 : (qNeeds n srcs).find? (fun x => (c.g.queue x.1).port == 0 || c.p.wait == .popDead x.1 ||
      (c.g.queue x.1).count < needOf (qNeeds n srcs) x.1) = none := by
    rw [List.find?_eq_none]
    intro x hx
    obtain ⟨-, a, b, e⟩ := hs x hx
    simp [a, b, e]
  unfold checkQueues
  cases d with
  | q i =>
    obtain ⟨a, b, w, e⟩ := hd i rfl
    have e' : ¬ 256 - ((c.g.queue i.toNat).count - needOf (qNeeds n srcs) i.toNat) < pushCount n dw := by omega
    simp [h1, h2, a, b, w, e', ho]
  | _ => simp [h1, h2, ho]

/-- What a register word does once its checks have passed. -/
theorem alu_go {h : Hdr} {d : Opd} {dw : Nat} {srcs : List Src} {cyc : Nat → Nat} {cls : Option (BitVec 4)} {els : Nat}
    {op : Ctx → (Nat → Nat) → List Nat → Res} {s : State} {c : Ctx} {ts : List Nat}
    (hb : begin h.sw (kRegs (guardOpd h :: srcs.map (·.o))) s = .go c s)
    (ht : ts = if d.isK then (if uniHolds c h then [0] else []) else acting c h)
    (hp : checkPois c h d.isK ts (srcs.map (·.o)) s = .go c s)
    (hq : checkQueues c ts.length srcs d dw s = .go c s) :
    alu h d dw srcs cyc cls els op s =
      (let v := allVals c d.isK ts srcs s
       let n := ts.length
       let rs := (List.range n).map (fun j =>
         op c (fun e => drawIf c.w cls (e * n + j)) (v.1.map (fun l => (l[j]?).getD 0)))
       let s := setFlags (writeDst v.2 c d dw ts (rs.map (·.v))) c.f (rs.foldl (fun a r => a ||| r.fl) 0)
       let s := match cls with
         | some _ => s.modWarp c.f (fun w => { w with srix := w.srix + BitVec.ofNat 32 (els * n) })
         | none => s
       finish s c.f (if d.isK then 1 else max 1 (cyc n))) := by
  subst ht
  unfold alu
  cases cls <;> simp only [hb, Go.run, hp, hq]

end Sys2Proof.Machine
end

