-- ==== Sys2Proof/Safety.lean ====
section
/-! DEFINITION. What counts as a safe run, and what a change confined to one die is. -/

namespace Sys2Proof.Machine

/-- One step leads from `s` to `t`. -/
def Steps (s t : State) : Prop := step s = .next t

/-- States that a run from `s` reaches. -/
inductive Reach (s : State) : State → Prop where
  | start : Reach s s
  | step {t u : State} : Reach s t → Steps t u → Reach s u

/-- A run from `s` never stops with a fault or a refusal. -/
def Safe (s : State) : Prop := ∀ t, Reach s t → ∃ u, Steps t u

/-- Between `s` and `t` nothing but the clock, the cycle counts of cores, the workgroups and the cores of die `d` has changed. -/
structure Local (d : Nat) (s t : State) : Prop where
  rest : t = { s with dies := t.dies, clock := t.clock, cycs := t.cycs }
  other : ∀ e, e ≠ d → t.die e = s.die e
  this : t.die d = { s.die d with wgs := (t.die d).wgs, cores := (t.die d).cores }

end Sys2Proof.Machine
end

