-- ==== Sys2Proof/Laws/Local.lean ====
section
/-! SUPPORT. Which shared operations stay within one die: they change nothing but the clock, the cycle counts of cores, the workgroups and the cores of it. -/

namespace Sys2Proof.Machine

theorem Local.refl (d : Nat) (s : State) : Local d s s := ⟨rfl, fun _ _ => rfl, rfl⟩

theorem Local.trans {d : Nat} {s t u : State} (h : Local d s t) (k : Local d t u) : Local d s u := by
  refine ⟨?_, fun e he => (k.other e he).trans (h.other e he), ?_⟩
  · rw [k.rest, h.rest]
  · rw [k.this, h.this]

theorem Local.addCyc {d : Nat} (s : State) (e c n : Nat) : Local d s (s.addCyc e c n) := ⟨rfl, fun _ _ => rfl, rfl⟩

theorem Local.modDie {s : State} {d : Nat} {g : Die → Die}
    (hg : ∀ x, g x = { x with wgs := (g x).wgs, cores := (g x).cores }) : Local d s (s.modDie d g) := by
  refine ⟨rfl, fun e he => die_modDie_of_ne (Ne.symm he), ?_⟩
  rw [die_modDie]
  split
  · exact hg _
  · rfl

theorem Local.modWg (s : State) (d t : Nat) (g : Wg → Wg) : Local d s (s.modWg d t g) := Local.modDie (fun _ => rfl)

theorem Local.modCore (s : State) (d c : Nat) (g : Core → Core) : Local d s (s.modCore d c g) := Local.modDie (fun _ => rfl)

theorem Local.modWgOf (s : State) (f : FragRef) (g : Wg → Wg) : Local f.die s (s.modWgOf f g) := Local.modWg _ _ _ _

theorem Local.modWarp (s : State) (f : FragRef) (g : Warp → Warp) : Local f.die s (s.modWarp f g) := Local.modWg _ _ _ _

theorem Local.modFrag (s : State) (f : FragRef) (g : Frag → Frag) : Local f.die s (s.modFrag f g) := Local.modWg _ _ _ _

theorem spend_local (s : State) (f : FragRef) (n : Nat) : Local f.die s (spend s f n) :=
  (Local.addCyc s _ _ _).trans (Local.modWarp _ _ _)

theorem goTo_local (s : State) (f : FragRef) (pc : W64) : Local f.die s (goTo s f pc) := Local.modFrag _ _ _

theorem finish_local (s : State) (f : FragRef) (n : Nat) : Local f.die s (finish s f n) :=
  (spend_local s f n).trans (Local.modFrag _ _ _)

theorem progress_local (s : State) (f : FragRef) : Local f.die s (progress s f) := Local.modFrag _ _ _

theorem setFlags_local (s : State) (f : FragRef) (fl : BitVec 5) : Local f.die s (setFlags s f fl) := Local.modWarp _ _ _

theorem hold_local (s : State) (f : FragRef) (w : Wait) : Local f.die s (hold s f w) :=
  (Local.modWarp s f _).trans (Local.modFrag _ _ _)

theorem pushWords_local (s : State) (f : FragRef) (i : Nat) (ws : List W32) : Local f.die s (pushWords s f i ws) := by
  unfold pushWords
  split
  · exact Local.refl _ _
  · exact (Local.modCore _ _ _ _).trans (Local.modWgOf _ _ _)

theorem popWords_local (s : State) (f : FragRef) (i n : Nat) : Local f.die s (popWords s f i n).2 := by
  unfold popWords
  split
  · exact Local.refl _ _
  · exact Local.modWgOf _ _ _

theorem srcVals_local (s : State) (c : Ctx) (uni : Bool) (ts : List Nat) (x : Src) :
    Local c.f.die s (srcVals s c uni ts x).2 := by
  unfold srcVals
  split
  · split
    · exact popWords_local _ _ _ _
    · exact popWords_local _ _ _ _
  · exact Local.refl _ _

theorem allVals_local (c : Ctx) (uni : Bool) (ts : List Nat) (l : List Src) (s : State) :
    Local c.f.die s (allVals c uni ts l s).2 := by
  induction l generalizing s with
  | nil => exact Local.refl _ _
  | cons x t ih => exact (srcVals_local s c uni ts x).trans (ih _)

theorem writeDst_local (s : State) (c : Ctx) (d : Opd) (dw : Nat) (ts rs : List Nat) :
    Local c.f.die s (writeDst s c d dw ts rs) := by
  unfold writeDst
  repeat' split
  all_goals first
    | exact Local.refl c.f.die s
    | exact Local.modWarp s c.f _
    | exact pushWords_local s c.f _ _

end Sys2Proof.Machine
end

