-- ==== Sys2Proof/Tests/Slice0.lean ====
section
/-! SUPPORT. The model's own tests: decoding, ill-formed terms, one step each, and a witness for the hypotheses of each statement. -/

set_option Elab.async false

namespace Sys2Proof.Tests

open Sys2Proof Sys2Proof.Machine

/-! ### Small states -/

/-- A fragment at 0x10000 with threads 0 to 3 active. -/
def fr : Frag := { occ := true, uid := 1, pc := 0x10000, am := 0xF }

/-- A warp of four live threads with the slots `p` and `q`. -/
def wr (p : Frag) (q : Frag := {}) : Warp := { s0 := p, s1 := q, thr := (List.range 4).map (fun i => { tid := i, live := true }) }

/-- A workgroup with the warp `w` in slot 0. -/
def wg0 (w : Warp) : Wg :=
  { warps := [(0, w)], trapv := 0x20000, prol := 4, full := 4, splen := 4096, wlim := 0x100000000
    queues := List.replicate 16 {}, bars := List.replicate 4 {} }

/-- The package after reset with the workgroup `g` in slot 0 of core 0 of die 0. -/
def st (g : Wg) : State := State.reset.modDie 0 (fun d => { d with wgs := [(0, g)] })

/-- The context of the issuing fragment. -/
def cx (s : State) : Ctx := (ctx? s).getD default

/-- A warp, alone in its workgroup, and the package that runs it. -/
def sA : State := st (wg0 (wr fr))

/-- The same with its fragment changed. -/
def sF (f : Frag → Frag) : State := st (wg0 (wr (f fr)))

/-! ### Hypotheses from checks -/

/-- The check behind `Begins`. -/
def bBegins (sw : Bool) (ks : List Nat) (s : State) : Bool :=
  (ctx? s).isSome && !markerWaits s (cx s) sw && ks.all (fun i => !(cx s).w.kpend.getLsbD i)

theorem begins_of {sw : Bool} {ks : List Nat} {s : State} (h : bBegins sw ks s = true) : Begins sw ks s (cx s) := by
  simp only [bBegins, Bool.and_eq_true, List.all_eq_true, Bool.not_eq_true'] at h
  refine ⟨?_, h.1.2, h.2⟩
  unfold cx
  cases hc : ctx? s with
  | none => simp [hc] at h
  | some c => rfl

theorem uni_of {h : Hdr} {os : List Opd} {s : State} (hu : bBegins h.sw (kRegs (guardOpd h :: os)) s = true ∧ uniHolds (cx s) h = true ∧
    firstPois (cx s) [0] [guardOpd h] = none ∧ firstPois (cx s) [0] os = none) : UniRuns h os s (cx s) :=
  ⟨begins_of hu.1, hu.2⟩

theorem free_of {r : MemRow} {s : State} (h : acqOut s (cx s).p.uid = false ∧ r.rel.all (fun sc => released s (cx s).f (cx s).p.uid sc) = true ∧
    if r.glob then (∀ q ∈ r.reqs (cx s), orderHeld s (cx s).p.uid q = false) ∧ requestsOut s (cx s).f + (r.reqs (cx s)).length ≤ 1024
    else ∀ q ∈ r.reqs (cx s), engineHeld s (cx s) q = false) : r.Free s (cx s) :=
  ⟨h.1, fun sc hsc => by simpa [hsc] using h.2.1, h.2.2⟩

/-- A result that satisfies a test. -/
theorem ok_sat {ε α : Type} {x : Except ε α} (p : α → Bool) (h : (match x with | .ok a => p a | .error _ => false) = true) :
    ∃ a, x = .ok a ∧ p a = true := by
  cases x with
  | ok a => exact ⟨a, rfl, h⟩
  | error e => exact nomatch h

/-- What a computation that succeeds answers. -/
def got {ε α : Type} [Inhabited α] (x : Except ε α) : α := match x with | .ok a => a | .error _ => default

theorem got_eq {ε α : Type} [Inhabited α] {x : Except ε α} (h : (match x with | .ok _ => true | .error _ => false) = true) : x = .ok (got x) := by
  cases x with
  | ok a => rfl
  | error e => exact nomatch h

/-! ### Decoding: words written from the specification's encodings, with the assembly beside each -/

/-- `iadd (w5.3 clear) w9, w10, -3` -/
theorem test_decode_iadd : decode 0x028C000090A5E800 = some (.iadd ⟨false, false, false, 5, 3⟩ ⟨false, false, false, 0⟩ (.w 9) (.w 10) (.si 0x1D)) := by decide +kernel
/-- `movi k8, 192` -/
theorem test_decode_movi : decode 0x20006402800800C0 = some (.movi tp ⟨false, false, false, 0⟩ (.k 8) 192) := by decide +kernel
/-- `imul w5, w3, 6` -/
theorem test_decode_imul : decode 0x2000080050353000 = some (.imul tp ⟨false, false, false, 0⟩ (.w 5) (.w 3) (.si 6)) := by decide +kernel
/-- `isub k6, k5, 64` -/
theorem test_decode_isub : decode 0x2000040262580040 = some (.isub tp ⟨false, false, false, 0⟩ (.k 6) (.k 5) (.im 64)) := by decide +kernel
/-- `shl w4, w3, 4` -/
theorem test_decode_shl : decode 0x2000380040352000 = some (.shl tp ⟨false, false, false, 0⟩ (.w 4) (.w 3) (.si 4)) := by decide +kernel
/-- `imad k5, k7, 6, k4` -/
theorem test_decode_imad : decode 0x2000100252753024 = some (.imad tp ⟨false, false, false, 0⟩ (.k 5) (.k 7) (.si 6) (.k 4)) := by decide +kernel
/-- `rds k4, spbase` -/
theorem test_decode_rds : decode 0x2001AC0249600000 = some (.rds tp (.k 4) 22) := by decide +kernel
/-- `fcmp.gt.f16 (w2.0) w2.4, w13, w9` -/
theorem test_decode_fcmp : decode 0x0101061020D04884 = some (.fcmp ⟨false, false, false, 2, 0⟩ 4 0 true false 4 4 (.w 2) (.w 13) (.w 9)) := by decide +kernel
/-- `sel (w2.0) w12, w10, w8, w2.2` -/
theorem test_decode_sel : decode 0x01010820C0A04002 = some (.sel ⟨false, false, false, 2, 0⟩ 2 false (.w 12) (.w 10) (.w 8) (.w 2)) := by decide +kernel
/-- `icmp.lt.n32 w2.0.1, w3, k7` -/
theorem test_decode_icmp : decode 0x2001011020313820 = some (.icmp tp 2 0 true false 0 1 (.w 2) (.w 3) (.k 7)) := by decide +kernel
/-- `topk.max.f32 w4, w2, 3` -/
theorem test_decode_topk : decode 0x2001540040251800 = some (.topk tp 0 false (.w 4) (.w 2) (.si 3)) := by decide +kernel
/-- `topkm.max.f32 w6, w5, 3, w3` -/
theorem test_decode_topkm : decode 0x2001580060551803 = some (.topkm tp 0 false (.w 6) (.w 5) (.si 3) (.w 3)) := by decide +kernel
/-- `brl to the word before` -/
theorem test_decode_brl : decode 0x20019800000FFFFF = some (.brl tp 0x7FFFF) := by decide +kernel
/-- `exit` -/
theorem test_decode_exit : decode 0x20019C0000000000 = some (.exit tp) := by decide +kernel
/-- `loop.r4 3` -/
theorem test_decode_loop : decode 0x2001941000080003 = some (.loop tp 1 (.im 3)) := by decide +kernel
/-- `cpy.gs.cw k5, k4, k6, k7` -/
theorem test_decode_cpy : decode 0x2002405252413027 = some (.cpy tp .gs ⟨true, .wg⟩ (.k 5) (.k 4) (.k 6) (.k 7)) := by decide +kernel
/-- `waita.acq.wg.n64 [k8], 1` -/
theorem test_decode_waita : decode 0x200248C002850802 = some (.waita tp 0 true true .wg (.k 8) (.si 1)) := by decide +kernel
/-- `hcan k13` -/
theorem test_decode_hcan : decode 0x2002500002D00000 = some (.hcan tp (.k 13)) := by decide +kernel
/-- `mma.m16.n32 acc[0,0], k21, k4, k5` -/
theorem test_decode_mma : decode 0x2002C04352412800 = some (.mma tp 0 1 0 0 0 (.k 21) (.k 4) (.k 5)) := by decide +kernel
/-- `sand z3, z1, z2` -/
theorem test_decode_sand : decode 0x2003040636131000 = some (.sand tp 0 (.z 3) (.z 1) (.z 2)) := by decide +kernel
/-- `scnt w6, z3, 0` -/
theorem test_decode_scnt : decode 0x20031C0066350000 = some (.scnt tp (.w 6) (.z 3) (.si 0)) := by decide +kernel
/-- `sgen.k.g8 z1, k7` -/
theorem test_decode_sgenK : decode 0x2003001612700008 = some (.sgenK tp 0 8 (.z 1) (.k 7)) := by decide +kernel
/-- `sgen.q.g9 z2, q1` -/
theorem test_decode_sgenQ : decode 0x2003000624100009 = some (.sgenQ tp 0 9 (.z 2) (.q 1)) := by decide +kernel
/-- `slen.x2 z1, 1` -/
theorem test_decode_slen : decode 0x2003290610050800 = some (.slen tp 1 (.z 1) (.si 1)) := by decide +kernel
/-- `slvb.h2.exit k5, k6` -/
theorem test_decode_slvb : decode 0x200340A002513000 = some (.slvb tp 2 true (.k 5) (.k 6)) := by decide +kernel
/-- `slvx` -/
theorem test_decode_slvx : decode 0x2003440000000000 = some (.slvx tp) := by decide +kernel
/-- `fetch.task.flt k24, k25, k26` -/
theorem test_decode_fetchTask_flt : decode 0x20036C338001D039 = some (.fetchTask tp (some (.k 26)) (.k 24) (.k 25)) := by decide +kernel
/-- `fetch.task k8, k9` -/
theorem test_decode_fetchTask : decode 0x20036C1280000029 = some (.fetchTask tp none (.k 8) (.k 9)) := by decide +kernel
/-- `join k6, k5` -/
theorem test_decode_join : decode 0x2003740262500000 = some (.join tp (.k 6) (.k 5)) := by decide +kernel
/-- `launch k5, k4` -/
theorem test_decode_launch : decode 0x2003700252400000 = some (.deviceSideLaunch tp (.k 5) (.k 4)) := by decide +kernel
/-- `trel k7, k4` -/
theorem test_decode_trel : decode 0x2003780272400000 = some (.trel tp (.k 7) (.k 4)) := by decide +kernel
/-- `tabn k7, k4` -/
theorem test_decode_tabn : decode 0x20037C0272400000 = some (.tabn tp (.k 7) (.k 4)) := by decide +kernel
/-- `bar.die` -/
theorem test_decode_bar : decode 0x2003682000000000 = some (.bar tp 2) := by decide +kernel
/-- `acq` -/
theorem test_decode_acq : decode 0x2003600000000000 = some (.acq tp) := by decide +kernel
/-- `rel` -/
theorem test_decode_rel : decode 0x2003640000000000 = some (.rel tp) := by decide +kernel
/-- `trap 5` -/
theorem test_decode_trap : decode 0x2003800000080005 = some (.trap tp 5) := by decide +kernel
/-- `tret` -/
theorem test_decode_tret : decode 0x2003840000000000 = some (.tret tp) := by decide +kernel
/-- `tret.to k4` -/
theorem test_decode_tretTo : decode 0x2003841002400000 = some (.tretTo tp (.k 4)) := by decide +kernel
/-- `tret.ctx k31` -/
theorem test_decode_tretCtx : decode 0x2003842003F00000 = some (.tretCtx tp (.k 31)) := by decide +kernel
/-- `tmsk.m` -/
theorem test_decode_tmskM : decode 0x2003880000000000 = some (.tmskM tp) := by decide +kernel
/-- `tmsk.u` -/
theorem test_decode_tmskU : decode 0x2003881000000000 = some (.tmskU tp) := by decide +kernel
/-- `brk 1` -/
theorem test_decode_brk : decode 0x20038C0000080001 = some (.brk tp 1) := by decide +kernel
/-- `pmsk.d` -/
theorem test_decode_pmskD : decode 0x2003900000000000 = some (.pmskD tp) := by decide +kernel
/-- `pmsk.a` -/
theorem test_decode_pmskA : decode 0x2003901000000000 = some (.pmskA tp) := by decide +kernel
/-- `evnt k4, 7` -/
theorem test_decode_evnt : decode 0x2003940002480007 = some (.evnt tp (.k 4) 7) := by decide +kernel
/-- `iadd w9, w10, 1000` (R228's worked words). -/
theorem test_decode_imm19 : decode 0x2000000090A803E8 = some (.iadd tp ⟨false, false, false, 0⟩ (.w 9) (.w 10) (.im 1000)) := by decide +kernel
/-- `(!k3.0) iadd.sw w9, w10, k5` -/
theorem test_decode_switch :
    decode 0xB180000090A12800 = some (.iadd ⟨true, true, true, 3, 0⟩ ⟨false, false, false, 0⟩ (.w 9) (.w 10) (.k 5)) := by decide +kernel
/-- `iadd w4, w6, 3 || fmul w5, w7, w9` -/
theorem test_decode_pair :
    decode 0x408203518F050709 = some (.pairWord false ⟨.iadd, .w 4, .w 6, .si 3⟩ ⟨.fmul, .w 5, .w 7, .w 9⟩) := by decide +kernel
/-- `iadd w4, w6, 3 || fmul w5, w7, w4` breaks the bank rule (R221): the index of w4 is even in half 1. -/
theorem test_decode_pair_bank : decode 0x408203518F050704 = none := by decide +kernel
/-- A reserved opcode (R226). -/
theorem test_decode_reserved : decode 0x2003C00000000000 = none := by decide +kernel
/-- `movi` without `im` is illegal (R259). -/
theorem test_decode_movi_im : decode 0x2000640280000000 = none := by decide +kernel
/-- `(w2.0) lds.n16 w10, [k4 + w5 + 2]` -/
theorem test_decode_lds : decode 0x0101D180A2402802 = some (.lds ⟨false, false, false, 2, 0⟩ .n16 none (.w 10) (.reg (.k 4) (.w 5) 0 2)) := by decide +kernel
/-- `kpar k7, k4` -/
theorem test_decode_kpar : decode 0x2002840272400000 = some (.kpar tp (.k 7) (.k 4)) := by decide +kernel
/-- `klook.w k5, k4, k6` -/
theorem test_decode_klook : decode 0x2002941252400026 = some (.klookW tp (.k 5) (.k 4) (.k 6)) := by decide +kernel
/-- `h2add.sat.bf16.sr3 w1, w2, w3` (R261, R266) -/
theorem test_decode_h2add : decode 0x2000C2C010201803 = some (.h2add tp ⟨true, true, .sr 3⟩ (.w 1) (.w 2) (.w 3)) := by decide +kernel
/-- `fmul.f16.rtz w5, w7, 0.5`: imm19 carries the pattern 0x3800 in bits 18 to 3 (R216, R261) -/
theorem test_decode_fmul : decode 0x200089105079C000 = some (.fmul tp ⟨false, .f16, .rtz⟩ (.w 5) (.w 7) (.im 0x1C000)) := by decide +kernel
/-- `atom.add.n32.acq.fab w3, [k4], w5` (R301) -/
theorem test_decode_atom : decode 0x2001E0C032402A00 = some (.atom tp ⟨.n32, .fab, .acq⟩ .add (.w 3) (.k 4) (.w 5)) := by decide +kernel
/-- `cas.i64 k5, [k4], k6, k7` (R303) -/
theorem test_decode_cas : decode 0x2001E90252413027 = some (.cas tp ⟨.i64, .die, .rlx⟩ (.k 5) (.k 4) (.k 6) (.k 7)) := by decide +kernel
/-- `fence.acq.sys` (R304) -/
theorem test_decode_fence : decode 0x2001F0D000000000 = some (.fence tp .acq .sys) := by decide +kernel
/-- `mzero` with `.i32`, M and N codes 1 and 0, and x = 0x12 (R334) -/
theorem test_decode_mzero : decode 0x2002D11000000012 = some (.mzero tp 1 0 true 2 1) := by decide +kernel

/-! ### Ill-formed terms: one for each check of `Instr.wf` -/

/-- A guard that reads bit 1 of w2, one that reads k3, and the guard that never holds. -/
def guW : Hdr := ⟨false, false, false, 2, 1⟩
def guK : Hdr := ⟨false, false, true, 3, 0⟩
def guN : Hdr := ⟨false, false, false, 0, 0⟩
/-- The plain modifiers. -/
def im0 : IntMod := ⟨false, false, false, 0⟩
def fm0 : FpMod := ⟨false, .f32, .rne⟩
def hm0 : HpMod := ⟨false, false, .rne⟩
def cw0 : CwMod := ⟨false, .wg⟩
def am0 : AtMod := ⟨.i32, .die, .rlx⟩
/-- None of the terms is legal. -/
def ill (l : List Instr) : Bool := l.all (fun i => !i.wf)

/-- R215: a w guard, and the guard that never holds, on uniform instructions. -/
theorem test_wf_guard : ill [.iadd guW im0 (.k 4) (.k 5) (.si 1), .iadd guN im0 (.k 4) (.k 5) (.si 1), .bru guW 4, .ldk guW .b64 none (.k 4) (.imm (.k 5) 0),
    .stk guW .b64 none (.k 4) (.imm (.k 5) 0), .fence guW .ar .die, .cpy guW .gg cw0 (.k 4) (.k 5) (.k 6) (.k 7), .mzero guW 0 0 false 0 0, .slvx guW,
    .jn guK, .ret guK, .brl guK 4, .rgn guK, .jmp guW (.k 4), .wrs guW 7 (.si 1), .kpar guW (.k 4) (.k 5), .acq guW] = true := by decide +kernel
/-- R217: stream registers outside the pulp unit, a pair in a 32-bit operand, a w register in a 64-bit one, and destinations that are not registers. -/
theorem test_wf_classes : ill [.iadd tp im0 (.z 1) (.w 1) (.w 2), .iadd tp im0 (.w 1) (.z 1) (.w 2), .iadd tp im0 (.w 1) (.wp 1) (.w 2),
    .iadd tp ⟨false, false, true, 0⟩ (.wp 1) (.w 1) (.wp 2), .iadd tp im0 (.sp 1) (.w 1) (.w 2), .iadd tp im0 (.si 1) (.w 1) (.w 2),
    .iadd tp im0 (.w 1) (.im 3) (.w 2)] = true := by decide +kernel
/-- R218: a w or q source with a k destination. -/
theorem test_wf_uniform : ill [.iadd tp im0 (.k 4) (.w 1) (.k 5), .imad tp im0 (.k 4) (.k 1) (.k 5) (.q 2), .fadd tp fm0 (.k 4) (.k 1) (.w 5), .sel tp 0 false (.k 4) (.k 5) (.k 6) (.w 1),
    .shfl tp 0 false (.k 4) (.w 1) (.k 5), .atom tp am0 .add (.k 4) (.k 5) (.w 1), .klook tp (.k 4) (.k 5) (.w 6), .kchd tp (.k 4) (.k 5) (.w 6)] = true := by decide +kernel
/-- R255, R256: modifiers that a form does not take. -/
theorem test_wf_int : ill [.imulh tp ⟨true, false, false, 0⟩ (.w 1) (.w 2) (.w 3), .and tp ⟨false, true, false, 0⟩ (.w 1) (.w 2) (.w 3),
    .iadd tp ⟨false, false, false, 1⟩ (.w 1) (.w 2) (.w 3), .rot tp ⟨false, false, false, 2⟩ (.w 1) (.w 2) (.w 3), .popc tp ⟨true, false, false, 0⟩ (.w 1) (.w 2),
    .bperm tp ⟨false, false, true, 0⟩ (.wp 1) (.wp 2) (.wp 3) (.wp 4), .idot4 tp ⟨false, false, true, 0⟩ (.wp 1) (.wp 2) (.wp 3) (.wp 4),
    .movi tp ⟨false, false, false, 4⟩ (.w 1) 0, .movi tp ⟨false, false, false, 2⟩ (.w 1) 0, .movi tp ⟨false, false, false, 1⟩ (.q 1) 0,
    .movi tp ⟨false, false, false, 1⟩ (.w 1) 0x10000] = true := by decide +kernel
/-- R172, R216, R262, R266: types, rounding codes, overflow bit and immediates. -/
theorem test_wf_fp : ill [.fadd tp ⟨false, .f32, .sr 15⟩ (.w 1) (.w 2) (.w 3), .ffma tp ⟨false, .f32, .sr 3⟩ (.w 1) (.w 2) (.w 3) (.w 4), .fmin tp ⟨true, .f32, .rne⟩ (.w 1) (.w 2) (.w 3),
    .fmin tp ⟨false, .f32, .rup⟩ (.w 1) (.w 2) (.w 3), .fsin tp ⟨false, .f64, .rne⟩ (.wp 1) (.wp 2), .frcp tp ⟨false, .f32, .sr 0⟩ (.w 1) (.w 2), .fadd tp ⟨false, .f16, .rne⟩ (.w 1) (.w 2) (.im 1),
    .fadd tp ⟨false, .f32, .sr 1⟩ (.w 1) (.w 2) (.im 8), .fadd tp ⟨false, .f64, .rne⟩ (.w 1) (.wp 2) (.wp 3), .h2add tp hm0 (.w 1) (.w 2) (.im 1), .h2min tp ⟨true, false, .rne⟩ (.w 1) (.w 2) (.w 3),
    .h2fma tp ⟨false, false, .sr 2⟩ (.w 1) (.w 2) (.w 3) (.w 4), .fscl tp fm0 (.wp 1) (.w 2) (.w 3), .fclass tp ⟨false, .f32, .rtz⟩ (.w 1) (.w 2), .cvt tp (.sr 15) false .f32 .i32 (.w 1) (.w 2),
    .cvt tp .rne false .f64 .i32 (.w 1) (.w 2)] = true := by decide +kernel
/-- R267 to R281: compares, selects, packing and collectives. -/
theorem test_wf_warp : ill [.icmp tp 6 0 false false 0 1 (.w 1) (.w 2) (.w 3), .icmp tp 0 0 false false 0 1 (.q 1) (.w 2) (.w 3), .fcmp tp 0 0 false true 0 1 (.w 1) (.w 2) (.w 3),
    .sel tp 0 false (.w 1) (.w 2) (.w 3) (.wp 1), .pack tp 0 (.wp 1) (.w 2) (.w 3) (.w 4), .unpk tp 0 false (.w 1) (.wp 2) (.si 0), .t3enc tp (.w 1) (.w 2), .t3dec tp (.w 1) (.w 2),
    .mxscl tp 5 (.w 1) (.w 2), .vote tp 3 (.w 1) (.w 2) (.w 3), .redi tp 6 false false false (.w 1) (.w 2), .redi tp 1 true false false (.w 1) (.w 2), .redf tp 3 .f32 (.w 1) (.w 2),
    .scan tp 6 false false false (.w 1) (.w 2), .topk tp 3 false (.w 1) (.w 2) (.si 1), .topk tp 0 false (.w 1) (.w 2) (.w 3), .topkm tp 0 false (.w 1) (.w 2) (.im 1) (.w 3),
    .matchEq tp true (.w 1) (.w 2)] = true := by decide +kernel
/-- R284 to R291: control flow and special registers. -/
theorem test_wf_control : ill [.loop tp 0 (.w 1), .loop tp 0 (.im 0x40000), .jmp tp (.w 4), .calli tp (.si 1), .rds tp (.q 1) 0, .rdsId tp (.w 1) 2, .wrs tp 3 (.si 1),
    .wrs tp 7 (.w 1)] = true := by decide +kernel
/-- R221: the bank pairing rule, unused fields, one register written twice, and a class that a half does not take. -/
theorem test_wf_pair : ill [.pairWord false ⟨.iadd, .w 5, .w 6, .si 3⟩ ⟨.nop, .w 0, .w 0, .w 0⟩, .pairWord false ⟨.iadd, .w 4, .w 6, .w 7⟩ ⟨.nop, .w 0, .w 0, .w 0⟩,
    .pairWord false ⟨.nop, .w 2, .w 0, .w 0⟩ ⟨.nop, .w 0, .w 0, .w 0⟩, .pairWord false ⟨.mov, .w 2, .w 4, .w 2⟩ ⟨.nop, .w 0, .w 0, .w 0⟩,
    .pairWord false ⟨.mov, .k 2, .k 4, .w 0⟩ ⟨.mov, .k 2, .k 5, .w 0⟩, .pairWord false ⟨.mov, .k 2, .w 4, .w 0⟩ ⟨.nop, .w 0, .w 0, .w 0⟩,
    .pairWord false ⟨.mov, .si 2, .k 4, .w 0⟩ ⟨.nop, .w 0, .w 0, .w 0⟩, .pairWord false ⟨.mov, .w 2, .q 4, .w 0⟩ ⟨.nop, .w 0, .w 0, .w 0⟩] = true := by decide +kernel
/-- R294 to R304: memory operands, sizes, atomics and fences. -/
theorem test_wf_memory : ill [.ld tp .b64 none (.w 1) (.imm (.k 4) 0), .ld tp .b32 none (.wp 1) (.imm (.k 4) 0), .ld tp .b32 none (.k 1) (.imm (.k 4) 0), .st tp .i8 none (.w 1) (.imm (.k 4) 0),
    .st tp .b64 none (.w 1) (.imm (.k 4) 0), .stk tp .i16 none (.k 1) (.imm (.k 4) 0), .ld tp .b32 none (.w 1) (.imm (.si 4) 0), .ld tp .b32 none (.w 1) (.reg (.k 4) (.wp 1) 0 0),
    .ldk tp .b32 none (.k 1) (.imm (.w 4) 0), .ldsk tp .b32 none (.w 1) (.imm (.k 4) 0), .prf tp false (.imm (.q 1) 0), .atom tp ⟨.f32, .die, .rlx⟩ .and (.w 1) (.k 2) (.w 3),
    .atom tp am0 .add (.w 1) (.w 2) (.w 3), .atoms tp am0 .add (.w 1) (.wp 2) (.w 3), .atom tp ⟨.i64, .die, .rlx⟩ .add (.w 1) (.k 2) (.wp 3), .cas tp ⟨.f32, .die, .rlx⟩ (.w 1) (.k 2) (.w 3) (.w 4),
    .fence tp .rlx .die, .cmntWb tp (.w 1) (.k 2)] = true := by decide +kernel
/-- R308 to R320: commands, queues and keys. -/
theorem test_wf_commands : ill [.cpy tp .gg ⟨true, .wp⟩ (.k 4) (.k 5) (.k 6) (.k 7), .cpy tp .gg ⟨false, .die⟩ (.k 4) (.k 5) (.k 6) (.k 7), .cpy tp .gg cw0 (.w 4) (.k 5) (.k 6) (.k 7),
    .waita tp 0 false false .wg (.w 4) (.k 5), .htest tp (.k 4) (.w 5), .hcan tp (.w 4), .qbind tp (.w 1) (.k 2) (.k 3), .qbind tp (.q 1) (.w 2) (.k 3), .qbind tp (.q 1) (.k 2) (.w 3),
    .send tp 1 (.w 4), .qlen tp (.w 1) (.w 2), .kpar tp (.w 4) (.k 5), .kmk tp (.wp 4) (.wp 5) (.q 1), .klook tp (.wp 1) (.wp 2) (.k 3), .kunpinR tp (.w 1),
    .refine tp ⟨true, .die⟩ (.k 4) (.k 5) (.im 3) (.k 6), .coarsen tp cw0 (.k 4) (.k 5) (.k 6), .coarsen tp ⟨true, .die⟩ (.k 4) (.k 5) (.w 0), .rebal tp cw0 (.k 4) (.si 16) (.k 6) (.w 0),
    .shovGive tp (.k 4) (.im 2)] = true := by decide +kernel
/-- R321 to R378, R405, R413 to R431: matrix, pulp-unit, solve, scheduling and system words. -/
theorem test_wf_units : ill [.mma tp 0 0 3 0 0 (.k 4) (.k 5) (.k 6), .mma tp 0 0 0 0 0 (.k 4) (.w 5) (.k 6), .mdrn tp false cw0 (.k 4) (.w 5), .acpTs tp 0 (.w 4) (.k 5), .acpFs tp 0 (.k 4) (.w 5), .mmv tp cw0 (.w 4) (.k 5),
    .sgenQ tp 0 15 (.z 1) (.q 1), .sgenK tp 3 0 (.z 25) (.k 1), .sand tp 1 (.z 0) (.z 31) (.z 2), .sregen tp 0 15 (.z 1) (.z 2), .scnt tp (.q 1) (.z 2) (.si 1), .scnt tp (.w 1) (.z 2) (.si 16), .scntr tp (.z 1) (.z 2),
    .slen tp 0 (.z 1) (.si 4), .smovTs tp 0 (.z 1) (.w 1), .slvb tp 0 false (.k 4) (.k 5), .slvb tp 7 false (.k 4) (.k 5), .fetchIdx tp (.w 1) (.k 2), .fetchTask tp (some (.w 1)) (.k 2) (.k 3), .join tp (.w 1) (.k 2),
    .tretTo tp (.w 4), .evnt tp (.w 4) 1] = true := by decide +kernel
/-- Packets and events that name what the machine does not have. -/
theorem test_wf_events : ill [.rotation 4 0, .rotation 0 96, .handoverStart 8, .rebalancePlan 16, .gridDispatch 4 0, .queueDoorbell 5 0 0, .queueDoorbell 0 64 0, .feltlinkSlotSend 12, .attestationRequest [], .registerWrite ⟨5, 0, 0, 8⟩,
    .inboundRead 0 (2 ^ 40) 4, .inboundRead 0 0 513, .tlbInvalidate 0 2, .tlbInvalidateAll 0 0, .nearMemoryCounterWrite 8 0 0, .preemptionHandlerEntry 0 0 0 128, .copyCommandStart 0 97] = true := by decide +kernel
/-- And legal neighbours of some of them. -/
theorem test_wf_legal : [Instr.iadd guW im0 (.w 4) (.w 5) (.si 1), .iadd guK im0 (.k 4) (.k 5) (.si 1), .fadd tp ⟨false, .f64, .sr 14⟩ (.wp 1) (.wp 2) (.wp 3), .ld tp .i32x none (.wp 1) (.imm (.k 4) 0),
    .atom tp ⟨.f32, .die, .rlx⟩ .min (.w 1) (.k 2) (.w 3), .sgenK tp 3 0 (.z 24) (.k 1), .slen tp 0 (.z 1) (.si 3)].all Instr.wf = true := by decide +kernel

/-! ### One step each: expected values worked by hand from the rules cited -/

/-- A warp of `n` live active threads: thread t holds `a t`, `b t`, `c t` in w2, w3, w4. -/
def ldw (n : Nat) (a b c : Nat → W32) : State :=
  st (wg0 { s0 := { fr with am := BitVec.ofNat 32 (2 ^ n - 1) }
            thr := (List.range n).map (fun t => { tid := t, live := true, regs := [(2, a t), (3, b t), (4, c t)] }) })
/-- What w1 holds in the first `n` threads after one instruction. -/
def outs (n : Nat) (i : Instr) (a b c : Nat → W32) : List W32 :=
  match exec i (ldw n a b c) with
  | .next t => (List.range n).map (fun q => ((cx t).w.thread q).readW (cx t).p 1)
  | _ => []
/-- The same for equal values in one thread, with `fpstat`. -/
def out1 (i : Instr) (a b c : W32) : W32 × BitVec 5 :=
  match exec i (ldw 1 (fun _ => a) (fun _ => b) (fun _ => c)) with
  | .next t => (((cx t).w.thread 0).readW (cx t).p 1, (cx t).w.fpstat)
  | _ => (0xDEAD, 0)
/-- One register form `w1, w2, w3`. -/
def r3 (f : Hdr → IntMod → Opd → Opd → Opd → Instr) (m : IntMod) : Instr := f tp m (.w 1) (.w 2) (.w 3)
def sat0 : IntMod := ⟨true, false, false, 0⟩
def nat0 : IntMod := ⟨false, true, false, 0⟩
def f3 (f : Hdr → FpMod → Opd → Opd → Opd → Instr) : Instr := f tp fm0 (.w 1) (.w 2) (.w 3)

/-- R256: the sum wraps. -/
theorem test_iadd_wraps : out1 (r3 .iadd im0) 0xFFFFFFFF 5 0 = (4, 0) := by decide +kernel
/-- R257: the sum clamps and sets `ovf`, bit 2 (R179). -/
theorem test_iadd_sat : out1 (r3 .iadd sat0) 0x7FFFFFFF 1 0 = (0x7FFFFFFF, 4) := by decide +kernel
theorem test_isub : out1 (r3 .isub im0) 3 5 0 = (0xFFFFFFFE, 0) := by decide +kernel
/-- R256: −1 × 5 has the high half −1; as naturals it is 4. -/
theorem test_imulh : out1 (r3 .imulh im0) 0xFFFFFFFF 5 0 = (0xFFFFFFFF, 0) := by decide +kernel
theorem test_imulh_nat : out1 (r3 .imulh nat0) 0xFFFFFFFF 5 0 = (4, 0) := by decide +kernel
theorem test_imad : out1 (.imad tp im0 (.w 1) (.w 2) (.w 3) (.w 4)) 0xFFFFFFFF 5 7 = (2, 0) := by decide +kernel
/-- R257: −7 / 2 truncates towards zero and the remainder has the dividend's sign. -/
theorem test_idiv : out1 (r3 .idiv im0) 0xFFFFFFF9 2 0 = (0xFFFFFFFD, 0) := by decide +kernel
theorem test_idiv_zero : out1 (r3 .idiv im0) 7 0 0 = (0xFFFFFFFF, 0) := by decide +kernel
theorem test_irem : out1 (r3 .irem im0) 0xFFFFFFF9 2 0 = (0xFFFFFFFF, 0) := by decide +kernel
theorem test_irem_zero : out1 (r3 .irem im0) 7 0 0 = (7, 0) := by decide +kernel
theorem test_imin : out1 (r3 .imin im0) 0xFFFFFFFF 5 0 = (0xFFFFFFFF, 0) := by decide +kernel
theorem test_imax_nat : out1 (r3 .imax nat0) 0xFFFFFFFF 5 0 = (0xFFFFFFFF, 0) := by decide +kernel
theorem test_iabs_sat : out1 (.iabs tp sat0 (.w 1) (.w 2)) 0x80000000 0 0 = (0x7FFFFFFF, 4) := by decide +kernel
theorem test_andn : out1 (r3 .andn im0) 0xFF 0x0F 0 = (0xF0, 0) := by decide +kernel
/-- R256: only b[4:0] counts. -/
theorem test_shl : out1 (r3 .shl im0) 1 33 0 = (2, 0) := by decide +kernel
theorem test_shr : out1 (r3 .shr im0) 0x80000000 31 0 = (1, 0) := by decide +kernel
theorem test_sar : out1 (r3 .sar im0) 0x80000000 4 0 = (0xF8000000, 0) := by decide +kernel
theorem test_rot_right : out1 (r3 .rot ⟨false, false, false, 1⟩) 0x00000011 4 0 = (0x10000001, 0) := by decide +kernel
/-- R258: 8 bits at position 4. -/
theorem test_bfx : out1 (r3 .bfx im0) 0x12345678 0x0804 0 = (0x67, 0) := by decide +kernel
theorem test_bfi : out1 (.bfi tp im0 (.w 1) (.w 2) (.w 3) (.w 4)) 0xAB 0x0804 0xFFFFFFFF = (0xFFFFFABF, 0) := by decide +kernel
theorem test_clz_zero : out1 (.clz tp im0 (.w 1) (.w 2)) 0 0 0 = (32, 0) := by decide +kernel
theorem test_ctz : out1 (.ctz tp im0 (.w 1) (.w 2)) 0x28 0 0 = (3, 0) := by decide +kernel
theorem test_popc : out1 (.popc tp im0 (.w 1) (.w 2)) 0xF0F1 0 0 = (9, 0) := by decide +kernel
theorem test_brev : out1 (.brev tp im0 (.w 1) (.w 2)) 6 0 0 = (0x60000000, 0) := by decide +kernel
theorem test_movi_h1 : out1 (.movi tp ⟨false, false, false, 1⟩ (.w 1) 0x1234) 0 0 0 = (0x12340000, 0) := by decide +kernel
/-- R260: selectors 4, 7, 0 and 8, from the least byte. -/
theorem test_bperm : out1 (.bperm tp im0 (.w 1) (.w 2) (.w 3) (.w 4)) 0x33221100 0x8074 0x77665544 = (0x00007744, 0) := by decide +kernel
/-- R260: 1 × 2 + (−1) × 3 = −1. -/
theorem test_idot4 : out1 (.idot4 tp im0 (.w 1) (.w 2) (.w 3) (.w 4)) 0x0000FF01 0x00000302 10 = (9, 0) := by decide +kernel
/-- R263: 1 + 2 = 3; infinity − infinity sets `inv`, bit 1; 1 / 0 sets nothing. -/
theorem test_fadd : out1 (f3 .fadd) 0x3F800000 0x40000000 0 = (0x40400000, 0) := by decide +kernel
theorem test_fsub_invalid : (out1 (f3 .fsub) 0x7F800000 0x7F800000 0).2 = 2 := by decide +kernel
theorem test_fdiv_zero : out1 (f3 .fdiv) 0x3F800000 0x80000000 0 = (0xFF800000, 0) := by decide +kernel
theorem test_fmul : out1 (f3 .fmul) 0xC0000000 0x40400000 0 = (0xC0C00000, 0) := by decide +kernel
/-- R264. -/
theorem test_fmin_zero : out1 (f3 .fmin) 0x80000000 0 0 = (0x80000000, 0) := by decide +kernel
theorem test_fmax_nan : out1 (f3 .fmax) 0x7FC00000 0x3F800000 0 = (0x3F800000, 0) := by decide +kernel
theorem test_fclass : out1 (.fclass tp fm0 (.w 1) (.w 2)) 0x80000001 0 0 = (4, 0) := by decide +kernel
theorem test_fsqrt : out1 (.fsqrt tp fm0 (.w 1) (.w 2)) 0x40800000 0 0 = (0x40000000, 0) := by decide +kernel
/-- R266: 1 + 1 = 2 and 2 + 2 = 4 in f16. -/
theorem test_h2add : out1 (.h2add tp hm0 (.w 1) (.w 2) (.w 3)) 0x40003C00 0x40003C00 0 = (0x44004000, 0) := by decide +kernel
/-- R267: bit 4 becomes the condition and bit 5 its complement. -/
theorem test_icmp : out1 (.icmp tp 2 0 false false 4 5 (.w 1) (.w 2) (.w 3)) 0xFFFFFFFF 1 0 = (0x10, 0) := by decide +kernel
theorem test_icmp_nat : out1 (.icmp tp 2 0 true false 4 5 (.w 1) (.w 2) (.w 3)) 0xFFFFFFFF 1 0 = (0x20, 0) := by decide +kernel
theorem test_fcmp_unordered : out1 (.fcmp tp 1 0 false false 0 1 (.w 1) (.w 2) (.w 3)) 0x7FC00000 1 0 = (1, 0) := by decide +kernel
theorem test_sel : out1 (.sel tp 3 false (.w 1) (.w 2) (.w 3) (.w 4)) 11 22 8 = (11, 0) := by decide +kernel
/-- R271, R175: 3.7 towards zero; a float source always saturates and sets `ovf` or `inv`. -/
theorem test_cvt_trunc : out1 (.cvt tp .rtz false .i32 .f32 (.w 1) (.w 2)) 0x406CCCCD 0 0 = (3, 0) := by decide +kernel
/-- R272. -/
theorem test_pack : out1 (.pack tp 0 (.w 1) (.w 2) (.w 3) (.w 4)) 0xAB 1 0x11223344 = (0x1122AB44, 0) := by decide +kernel
theorem test_unpk_sx : out1 (.unpk tp 0 true (.w 1) (.w 2) (.w 3)) 0x11F23344 2 0 = (0xFFFFFFF2, 0) := by decide +kernel
/-- R274: a maximum of 1000 under e4m3 gives 0x80. -/
theorem test_mxscl : outs 2 (.mxscl tp 0 (.w 1) (.w 2)) (fun t => if t = 0 then 0x447A0000 else 0xBF800000) 0 0 = [0x80, 0x80] := by decide +kernel
/-- R276: positions outside the participants keep their own value. -/
theorem test_shfl_up : outs 3 (.shfl tp 1 false (.w 1) (.w 2) (.si 1)) (fun t => BitVec.ofNat 32 (10 + t)) 0 0 = [10, 10, 11] := by decide +kernel
/-- R277. -/
theorem test_vote_ballot : outs 3 (.vote tp 2 (.w 1) (.w 2) (.si 0)) (fun t => BitVec.ofNat 32 t) 0 0 = [2, 2, 2] := by decide +kernel
theorem test_match : outs 3 (.matchEq tp false (.w 1) (.w 2)) (fun t => BitVec.ofNat 32 (t % 2)) 0 0 = [5, 2, 5] := by decide +kernel
/-- R278. -/
theorem test_redi_add : outs 3 (.redi tp 0 false false false (.w 1) (.w 2)) (fun t => BitVec.ofNat 32 (t + 1)) 0 0 = [6, 6, 6] := by decide +kernel
theorem test_scan_excl : outs 3 (.scan tp 0 true false false (.w 1) (.w 2)) (fun t => BitVec.ofNat 32 (t + 1)) 0 0 = [0, 1, 3] := by decide +kernel
/-- R280's worked batch. -/
def batch2 (t : Nat) : W32 := ([0x40400000, 0x40F00000, 0x80000000, 0x40F00000, 0x7FC00000, 0x40000000, 0, 0x40F00000][t]?).getD 0
def batch3 (t : Nat) : W32 := ([0x3F800000, 0x3F000000, 0x41100000, 0x40000000, 0x40800000, 0x40F00000, 0xBF800000, 0x40400000][t]?).getD 0
theorem test_topk : outs 8 (.topk tp 0 false (.w 1) (.w 2) (.si 3)) batch2 0 0 =
    [1, 3, 7, 0xFFFFFFFF, 0xFFFFFFFF, 0xFFFFFFFF, 0xFFFFFFFF, 0xFFFFFFFF] := by decide +kernel
/-- R281's worked merge: w5 holds 7.5 at positions 0 to 2 and w2 above. -/
theorem test_topkm : outs 8 (.topkm tp 0 false (.w 1) (.w 2) (.si 3) (.w 3)) (fun t => if t < 3 then 0x40F00000 else batch2 t) batch3 0 =
    [0x22, 0, 1, 0xFFFFFFFF, 0xFFFFFFFF, 0xFFFFFFFF, 0xFFFFFFFF, 0xFFFFFFFF] := by decide +kernel

/-! Words whose result is not in w1. -/

/-- The issuing fragment after one instruction. -/
def aft (i : Instr) (s : State) : Ctx := match exec i s with | .next t => cx t | _ => default

/-- R273, R169: 0x58 decodes to 1, −1, 0, 0, 1. -/
theorem test_t3dec : let c := aft (.t3dec tp (.wp 3) (.w 2)) (ldw 1 (fun _ => 0x58) 0 0)
    ((c.w.thread 0).readW c.p 6, (c.w.thread 0).readW c.p 7) = (0x0000FF01, 1) := by decide +kernel
/-- R287: `loop.r4 3`, and a `brl` that is taken, then one that falls through. -/
theorem test_loop : let p := (aft (.loop tp 1 (.im 3)) sA).p
    (p.lcnt, rotSize p.rsz, p.turn) = (3, 4, 0) := by decide +kernel
theorem test_brl : (let p := (aft (.brl tp 0x7FFFF) (sF (fun f => { f with lcnt := 2, rsz := 1 }))).p; (p.lcnt, p.turn, p.pc)) = (1, 1, 0xFFF8) ∧
    (let p := (aft (.brl tp 0x7FFFF) (sF (fun f => { f with lcnt := 1, rsz := 1, turn := 3 }))).p; (p.lcnt, p.turn, p.pc)) = (0, 0, 0x10008) := by
  decide +kernel
/-- R283: `bru` three words ahead. -/
theorem test_bru : (aft (.bru tp 3) sA).p.pc = 0x10018 := by decide +kernel
/-- R220, R222: both halves act. -/
theorem test_pair : let c := aft (.pairWord false ⟨.iadd, .w 6, .w 2, .si 3⟩ ⟨.isub, .w 5, .w 3, .w 3⟩) (ldw 1 (fun _ => 4) (fun _ => 9) 0)
    ((c.w.thread 0).readW c.p 6, (c.w.thread 0).readW c.p 5) = (7, 0) := by decide +kernel
/-- R217: w0 reads zero and discards writes. -/
theorem test_w0 : let c := aft (.iadd tp im0 (.w 0) (.w 2) (.si 1)) (ldw 1 (fun _ => 4) 0 0)
    (c.w.thread 0).readW c.p 0 = 0 := by decide +kernel
/-- The first step after reset with `movi k8, 192` placed. -/
theorem test_step_movi : (match step (State.reset.withFetchWord 64 0x20006402800800C0) with
    | .next t => (((t.dies[0]?).getD default).wgs.map (fun (g : Nat × Wg) => g.2.warps.map (fun (w : Nat × Warp) => w.2.readK 8)))
    | _ => []) = [[192]] := by decide +kernel

/-! ### Witnesses: the hypotheses of each statement can be met -/

/-- iadd w1, w2, 5 on four threads. -/
def iAdd : Instr := .iadd tp ⟨false, false, false, 0⟩ (.w 1) (.w 2) (.si 5)

theorem witness_RegisterWordsComplete :
    ∃ r, rowOf sA (cx sA) iAdd = some r ∧ r.Runs sA (cx sA) ∧ r.threads (cx sA) = [0, 1, 2, 3] :=
  ⟨_, rfl, ⟨begins_of (by decide +kernel), ⟨by decide +kernel, by decide +kernel⟩, ⟨by decide +kernel, (fun _ h => nomatch h), rfl⟩⟩, by decide +kernel⟩
theorem witness_RegisterWordResultsAndFrame :
    ∃ r t, rowOf sA (cx sA) iAdd = some r ∧ r.Runs sA (cx sA) ∧ exec iAdd sA = .next t :=
  ⟨_, _, rfl, ⟨begins_of (by decide +kernel), ⟨by decide +kernel, by decide +kernel⟩, ⟨by decide +kernel, (fun _ h => nomatch h), rfl⟩⟩, rfl⟩
/-- isub k6, k5, 64 into a k register; the uniform form. -/
theorem witness_RegisterWordResultsAndFrame_uniform :
    ∃ r t, rowOf sA (cx sA) (.isub tp ⟨false, false, false, 0⟩ (.k 6) (.k 5) (.im 64)) = some r ∧ r.Runs sA (cx sA) ∧
      exec (.isub tp ⟨false, false, false, 0⟩ (.k 6) (.k 5) (.im 64)) sA = .next t ∧ r.threads (cx sA) = [0] :=
  ⟨_, _, rfl, ⟨begins_of (by decide +kernel), ⟨by decide +kernel, by decide +kernel⟩, ⟨by decide +kernel, (fun _ h => nomatch h), rfl⟩⟩, rfl, by decide +kernel⟩

/-- Three k registers: k4 = `a`, k5 = `b`, k6 = `e`. -/
def withK (a b e : W64) : Warp := { wr fr with k := [(4, a), (5, b), (6, e)] }

/-- st.b32 w1, [k4 + 0] and its scratchpad and load forms. -/
def iSt : Instr := .st tp .b32 none (.w 1) (.imm (.k 4) 0)
def iSts : Instr := .sts tp .b32 none (.w 1) (.imm (.k 4) 0)
def iLdk : Instr := .ldk tp .b64 (some .die) (.k 7) (.imm (.k 4) 8)

def sK (a b e : W64) : State := st (wg0 (withK a b e))

/-- The Boolean form of `MemRow.Starts`, `Checked` and `Free` together is decided part by part. -/
theorem witness_MemoryWordsComplete :
    ∃ r, memRowOf (sK 0x10000 0 0) (cx (sK 0x10000 0 0)) iSt = some r ∧ r.Starts (sK 0x10000 0 0) (cx (sK 0x10000 0 0)) ∧
      r.Checked (sK 0x10000 0 0) (cx (sK 0x10000 0 0)) ∧ r.Free (sK 0x10000 0 0) (cx (sK 0x10000 0 0)) :=
  ⟨_, rfl, ⟨begins_of (by decide +kernel), ⟨by decide +kernel, by decide +kernel⟩, by decide +kernel⟩, ⟨by decide +kernel, by decide +kernel⟩,
    free_of (by decide +kernel)⟩
theorem witness_MemoryWordsComplete_scratchpad :
    ∃ r, memRowOf (sK 0 0 0) (cx (sK 0 0 0)) iSts = some r ∧ r.Starts (sK 0 0 0) (cx (sK 0 0 0)) ∧
      r.Checked (sK 0 0 0) (cx (sK 0 0 0)) ∧ r.Free (sK 0 0 0) (cx (sK 0 0 0)) :=
  ⟨_, rfl, ⟨begins_of (by decide +kernel), ⟨by decide +kernel, by decide +kernel⟩, by decide +kernel⟩, ⟨by decide +kernel, by decide +kernel⟩,
    free_of (by decide +kernel)⟩
/-- The first clause: a scratchpad store at offset 2. -/
theorem witness_MemoryWordChecks_scratchpad :
    ∃ r q, memRowOf (sK 2 0 0) (cx (sK 2 0 0)) iSts = some r ∧ r.Starts (sK 2 0 0) (cx (sK 2 0 0)) ∧ (cx (sK 2 0 0)).p.masked = false ∧
      r.glob = false ∧ (r.reqs (cx (sK 2 0 0))).find? (fun q => q.va % q.n != 0) = some q :=
  ⟨_, _, rfl, ⟨begins_of (by decide +kernel), ⟨by decide +kernel, by decide +kernel⟩, by decide +kernel⟩, rfl, rfl, rfl⟩
/-- The second clause: a global store at 0x10002. -/
theorem witness_MemoryWordChecks_global :
    ∃ r va, memRowOf (sK 0x10002 0 0) (cx (sK 0x10002 0 0)) iSt = some r ∧ r.Starts (sK 0x10002 0 0) (cx (sK 0x10002 0 0)) ∧
      (cx (sK 0x10002 0 0)).p.masked = false ∧ r.glob = true ∧ misaligned (sK 0x10002 0 0) (cx (sK 0x10002 0 0)) (r.reqs (cx (sK 0x10002 0 0))) = some va :=
  ⟨_, _, rfl, ⟨begins_of (by decide +kernel), ⟨by decide +kernel, by decide +kernel⟩, by decide +kernel⟩, rfl, rfl, rfl⟩
/-- The third clause: the first word past an allotment of 4,096 bytes. -/
theorem witness_MemoryWordChecks_allotment :
    ∃ r q, memRowOf (sK 4096 0 0) (cx (sK 4096 0 0)) iSts = some r ∧ r.Starts (sK 4096 0 0) (cx (sK 4096 0 0)) ∧ r.glob = false ∧
      (∀ q ∈ r.reqs (cx (sK 4096 0 0)), q.va % q.n = 0) ∧
      (r.reqs (cx (sK 4096 0 0))).find? (fun q => !inAllot (cx (sK 4096 0 0)).g q.va q.n) = some q :=
  ⟨_, _, rfl, ⟨begins_of (by decide +kernel), ⟨by decide +kernel, by decide +kernel⟩, by decide +kernel⟩, rfl, by decide +kernel, rfl⟩
/-- The fourth clause: bytes 0 to 63 of the scratchpad are locked. -/
def sLock : State := (sK 0 0 0).modDie 0 (fun d => { d with cores := [(0, { ({} : Core) with locks := [⟨false, 0, 63, true, 9⟩] })] })
theorem witness_MemoryWordChecks_locked :
    ∃ r b, memRowOf sLock (cx sLock) iSts = some r ∧ r.Starts sLock (cx sLock) ∧
      ((∀ q ∈ r.reqs (cx sLock), q.va % q.n = 0) ∧ ∀ q ∈ r.reqs (cx sLock), inAllot (cx sLock).g q.va q.n = true) ∧
      locked sLock (cx sLock) r.glob (r.reqs (cx sLock)) = some b :=
  ⟨_, _, rfl, ⟨begins_of (by decide +kernel), ⟨by decide +kernel, by decide +kernel⟩, by decide +kernel⟩, by decide +kernel, rfl⟩

/-! An access of thread 0 of `fr` at the address 0x2000 of stack 0. -/

def ac (k : AKind) (x : ASt) : Acc :=
  { id := 1, frag := default, word := 0x10000, uid := 1, thr := some 0, kind := k, va := 0x2000, n := 4, val := 7, st := x, pa := 0x2000 }
def sAc (a : Acc) : State := { sA with accs := [a] }

theorem witness_StoresAndLoadsAtTheirHome :
    (InFlight (sAc (ac .store .home)) (ac .store .home) ∧ (ac .store .home).al = false ∧ pathHeld (sAc (ac .store .home)) (ac .store .home) = false ∧
      port (sAc (ac .store .home)) 0 0 0x2000 false = .ok ∧ frameBusy (sAc (ac .store .home)) 0x2000 = false) ∧
    (InFlight (sAc (ac (.load .b32) .home)) (ac (.load .b32) .home) ∧ loose (sAc (ac (.load .b32) .home)) 0x2000 = false ∧ port (sAc (ac (.load .b32) .home)) 0 0 0x2000 false = .ok ∧
      frameBusy (sAc (ac (.load .b32) .home)) 0x2000 = false) :=
  ⟨⟨rfl, by decide +kernel⟩, rfl, by decide +kernel⟩
theorem witness_AtomicAtItsHome :
    let a := ac (.atom .i32 .add) .home
    InFlight (sAc a) a ∧ a.kind.atomic = true ∧ inHost a.pa = false ∧ isPois (sAc a) a.pa a.n = false ∧ pathHeld (sAc a) a = false ∧ loose (sAc a) a.pa = false ∧
      port (sAc a) 0 0 0x2000 false = .ok ∧ frameBusy (sAc a) 0x2000 = false := ⟨rfl, by decide +kernel⟩
theorem witness_AccessEvents_acknowledge :
    InFlight (sAc (ac .store .ack)) (ac .store .ack) ∧ InFlight (sAc (ac (.atom .i32 .add) .ack)) (ac (.atom .i32 .add) .ack) := ⟨rfl, rfl⟩
theorem witness_AccessEvents_notOwner :
    let a := { ac .store .notOwner with va := 2 ^ 56 + 0x2000 }
    InFlight (sAc a) a ∧ stackOf a.pa = some 0 ∧ bitAt a.va 56 = true ∧ a.rerouted = false := ⟨rfl, by decide +kernel⟩
theorem witness_AccessEvents_notOwner_trap :
    InFlight (sAc (ac .store .notOwner)) (ac .store .notOwner) ∧ (ac .store .notOwner).kind.isPref = false ∧
      bitAt (ac .store .notOwner).va 56 = false := ⟨rfl, by decide +kernel⟩
theorem witness_AccessEvents_movedAndRetried :
    InFlight (sAc (ac .store .movedResp)) (ac .store .movedResp) ∧ InFlight (sAc (ac .store .retry)) (ac .store .retry) := ⟨rfl, rfl⟩
theorem witness_AccessEvents_fill :
    let a := ac (.load .b32) (.filled (List.replicate 128 3) [])
    InFlight (sAc a) a ∧ lineAt (sAc a) 0 0 (a.pa / 128) = none ∧ (∀ e ∈ ((sAc a).core 0 0).l1, e.1 ≠ a.pa / 128) ∧ loose (sAc a) a.pa = false ∧ ((sAc a).cluster 0 0).lines.length < csLines (sAc a) 0 := ⟨rfl, by decide +kernel⟩
theorem witness_AccessEvents_result :
    let a := { ac (.load .b32) .done with dst := .w 0 5 }
    InFlight (sAc a) a ∧ a.dst2 = .none ∧ a.acq = none ∧ ((sAc a).warp? a.frag).map (fun w => decide (0 < w.thr.length)) = some true := ⟨rfl, by decide +kernel⟩
theorem witness_AccessEvents_fault :
    let a := ac .store (.bad 1 0x2000)
    ∃ p, InFlight (sAc a) a ∧ (sAc a).frag? a.frag = some p ∧ a.uid = p.uid ∧ p.fault = none ∧
      ∀ x ∈ (sAc a).accs, x.uid = p.uid → x.id ≠ a.id → ∀ k v, x.st ≠ .bad k v := by
  refine ⟨fr, rfl, rfl, rfl, rfl, fun x hx _ hn => ?_⟩
  simp only [sAc, List.mem_singleton] at hx
  exact absurd (by rw [hx]) hn

/-- A state whose die 0 maps addresses below 2^30 by the leaf byte `hi` above `v r w x`: root 0x100000, tables 0x101000 and 0x102000. -/
def withTab (hi : Byte) (s : State) : State :=
  { s.modDie 0 (fun d => { d with pgroot := 0x100001 }) with
    mem := [(0x100000, 1), (0x100001, 0x10), (0x100002, 0x10), (0x101000, 1), (0x101001, 0x20), (0x101002, 0x10), (0x102000, 0xF), (0x102007, hi)] }

/-- The three ends of a walk, of an access that begins one and of one that is stalled: a leaf of a home-only page; no leaf; a page-busy leaf. -/
theorem witness_WalksAndEvictions_walk :
    ∀ x ∈ [ASt.walk, .busyWalk],
      let a := ac (.load .b32) x
      let s := withTab 2 (sAc a)
      InFlight s a ∧ tlbFind s 0 0 a.va = none ∧ walkersHeld s 0 0 < 16 ∧ FindsHome s a ⟨0x2000, 2, false, false⟩ := by
  intro x hx
  simp only [List.mem_cons, List.not_mem_nil, or_false] at hx
  rcases hx with rfl | rfl <;>
    exact ⟨rfl, by decide +kernel, by decide +kernel, ⟨Or.inl ⟨_, rfl⟩, rfl, rfl, ⟨0, 2 ^ 30, 0x020000000000000F, 0x102000⟩,
      [0x102000, 0x101000, 0x100000], [(0x101000, 0x102001), (0x100000, 0x101001)], by decide +kernel, rfl⟩⟩
theorem witness_WalksAndEvictions_fault :
    ∀ x ∈ [ASt.walk, .busyWalk],
      let a := ac (.load .b32) x
      InFlight (sAc a) a ∧ tlbFind (sAc a) 0 0 a.va = none ∧ walkersHeld (sAc a) 0 0 < 16 ∧ a.kind.isPref = false ∧ walkOf (sAc a) a = .fault := by
  intro x hx
  simp only [List.mem_cons, List.not_mem_nil, or_false] at hx
  rcases hx with rfl | rfl <;> exact ⟨rfl, by decide +kernel⟩
theorem witness_WalksAndEvictions_busy :
    ∀ x ∈ [ASt.walk, .busyWalk],
      let a := ac (.load .b32) x
      let s := withTab 0x82 (sAc a)
      InFlight s a ∧ tlbFind s 0 0 a.va = none ∧ walkersHeld s 0 0 < 16 ∧ walkOf s a = .busy := by
  intro x hx
  simp only [List.mem_cons, List.not_mem_nil, or_false] at hx
  rcases hx with rfl | rfl <;> exact ⟨rfl, by decide +kernel⟩
/-- A dirty line of cluster 0. -/
def sLine : State := sA.modDie 0 (fun d => { d with clusters := [(0, { ({} : Cluster) with lines := [(5, { data := List.replicate 128 1, dirty := true })] })] })
theorem witness_WalksAndEvictions_eviction :
    ∃ l, lineAt sLine 0 0 5 = some l ∧ l.data.length = 128 ∧ l.dirty = true ∧ portStalled sLine 0 (128 * 5) = false ∧ frameBusy sLine (128 * 5) = false :=
  ⟨_, rfl, by decide +kernel⟩

/-! Branches, joins, calls. -/

/-- The guard `w1.0`. -/
def g10 : Hdr := ⟨false, false, false, 1, 0⟩
/-- `fr` with w1 = 1 in the threads of `ts`. -/
def wSome (ts : List Nat) : Warp :=
  { wr fr with thr := (List.range 4).map (fun i => { tid := i, live := true, regs := if ts.contains i then [(1, 1)] else [] }) }
def sW (ts : List Nat) : State := st (wg0 (wSome ts))

theorem witness_Branches_uniform : UniRuns tp [] sA (cx sA) := uni_of (by decide +kernel)
theorem witness_Branches_jump :
    UniRuns tp [.k 4] (sK 0x10080 0 0) (cx (sK 0x10080 0 0)) ∧ (uVal (sK 0x10080 0 0) (cx (sK 0x10080 0 0)) (.k 4)).toNat % 8 = 0 :=
  ⟨uni_of (by decide +kernel), by decide +kernel⟩
theorem witness_Branches_misaligned :
    UniRuns tp [.k 4] (sK 0x10084 0 0) (cx (sK 0x10084 0 0)) ∧ (uVal (sK 0x10084 0 0) (cx (sK 0x10084 0 0)) (.k 4)).toNat % 8 ≠ 0 ∧
      (cx (sK 0x10084 0 0)).p.masked = false :=
  ⟨uni_of (by decide +kernel), by decide +kernel⟩
theorem witness_Branches_none :
    Begins g10.sw (kRegs [guardOpd g10]) sA (cx sA) ∧ Clean (cx sA) g10 false [] [] ∧ acting (cx sA) g10 = [] :=
  ⟨begins_of (by decide +kernel), ⟨by decide +kernel, rfl⟩, by decide +kernel⟩
theorem witness_Branches_all :
    let s := sW [0, 1, 2, 3]
    Begins g10.sw (kRegs [guardOpd g10]) s (cx s) ∧ Clean (cx s) g10 false [] [] ∧ acting (cx s) g10 = maskList (cx s).p.am ∧ acting (cx s) g10 ≠ [] :=
  ⟨begins_of (by decide +kernel), ⟨by decide +kernel, rfl⟩, by decide +kernel⟩
theorem witness_Branches_some :
    let s := sW [0, 2]
    Begins g10.sw (kRegs [guardOpd g10]) s (cx s) ∧ Clean (cx s) g10 false [] [] ∧ acting (cx s) g10 ≠ [] ∧ acting (cx s) g10 ≠ maskList (cx s).p.am ∧
      resultsOut s (cx s).p.uid = false ∧ ((cx s).w.slot (!(cx s).f.s1)).occ = false :=
  ⟨begins_of (by decide +kernel), ⟨by decide +kernel, rfl⟩, by decide +kernel⟩
theorem witness_Joins_alone :
    Begins tp.sw [] sA (cx sA) ∧ resultsOut sA (cx sA).p.uid = false ∧ ((cx sA).w.slot (!(cx sA).f.s1)).occ = false :=
  ⟨begins_of (by decide +kernel), by decide +kernel⟩
/-- Threads 0 and 1 in S0, threads 2 and 3 in S1, which waits for `x`. -/
def sTwo (x : Wait) : State := st (wg0 (wr { fr with am := 3 } { fr with uid := 2, am := 0xC, wait := x }))
theorem witness_Joins_wait :
    let s := sTwo .none
    Begins tp.sw [] s (cx s) ∧ resultsOut s (cx s).p.uid = false ∧ ((cx s).w.slot (!(cx s).f.s1)).occ = true ∧
      ((cx s).w.slot (!(cx s).f.s1)).wait ≠ .jn := ⟨begins_of (by decide +kernel), by decide +kernel⟩
theorem witness_Joins_merge :
    let s := sTwo .jn
    let o := (cx s).w.slot (!(cx s).f.s1)
    Begins tp.sw [] s (cx s) ∧ resultsOut s (cx s).p.uid = false ∧ o.occ = true ∧ o.wait = .jn ∧ o.pc = (cx s).p.pc ∧ o.turn = (cx s).p.turn ∧
      o.rsz = (cx s).p.rsz ∧ o.lcnt = (cx s).p.lcnt ∧ o.fault = none ∧ settledAll s (cx s).f (cx s).p.uid = true ∧ settledWg s o.uid = true :=
  ⟨begins_of (by decide +kernel), by decide +kernel⟩
theorem witness_CallsAndReturns_call :
    (UniRuns tp [] sA (cx sA) ∧ (cx sA).p.rsz = 0 ∧
      ∀ j ∈ slotThreads (cx sA).p, ((cx sA).w.thread j).dep + 1 < min (cx sA).g.stride 255 ∧ ((cx sA).w.thread j).res < (cx sA).g.nwin) :=
  ⟨uni_of (by decide +kernel), by decide +kernel⟩
theorem witness_CallsAndReturns_indirect :
    let s := sK 0x10080 0 0
    UniRuns tp [.k 4] s (cx s) ∧ (uVal s (cx s) (.k 4)).toNat % 8 = 0 ∧ (cx s).p.rsz = 0 ∧
      ∀ j ∈ slotThreads (cx s).p, ((cx s).w.thread j).dep + 1 < min (cx s).g.stride 255 ∧ ((cx s).w.thread j).res < (cx s).g.nwin :=
  ⟨uni_of (by decide +kernel), by decide +kernel⟩
/-- Every thread is one call deep and returns to 0x10008. -/
def sDeep : State :=
  st (wg0 { wr fr with thr := (List.range 4).map (fun i => { tid := i, live := true, dep := 1, res := 2, regs := [(32, 0x10008)] }) })
theorem witness_CallsAndReturns_ret :
    Begins tp.sw [] sDeep (cx sDeep) ∧ Clean (cx sDeep) tp false (slotThreads (cx sDeep).p) [.w 8] ∧ (cx sDeep).p.rsz = 0 ∧
      slotThreads (cx sDeep).p ≠ [] ∧
      (∀ j ∈ slotThreads (cx sDeep).p, 0 < ((cx sDeep).w.thread j).dep ∧ 1 < ((cx sDeep).w.thread j).res ∧
        ((cx sDeep).w.thread j).readW (cx sDeep).p 8 = 0x10008) ∧ (0x10008 : W32).toNat % 8 = 0 :=
  ⟨begins_of (by decide +kernel), ⟨by decide +kernel, by decide +kernel⟩, by decide +kernel⟩
theorem witness_RegionWord : UniRuns tp [] sA (cx sA) := uni_of (by decide +kernel)
theorem witness_LoopAndExitWords_loop : UniRuns tp [.im 3] sA (cx sA) := uni_of (by decide +kernel)
/-- The count of a loop at its boundaries: 0, 1 and 2 passes left. -/
theorem witness_LoopAndExitWords_brl :
    UniRuns tp [] (sF id) (cx (sF id)) ∧ UniRuns tp [] (sF (fun p => { p with lcnt := 1 })) (cx (sF (fun p => { p with lcnt := 1 }))) ∧
      UniRuns tp [] (sF (fun p => { p with lcnt := 2, rsz := 3, turn := 15 })) (cx (sF (fun p => { p with lcnt := 2, rsz := 3, turn := 15 }))) :=
  ⟨uni_of (by decide +kernel), uni_of (by decide +kernel), uni_of (by decide +kernel)⟩
theorem witness_LoopAndExitWords_wrs : UniRuns tp [.si 3] sA (cx sA) := uni_of (by decide +kernel)
theorem witness_LoopAndExitWords_exit :
    let s := sW [0, 2]
    Begins g10.sw (kRegs [guardOpd g10]) s (cx s) ∧ Clean (cx s) g10 false [] [] ∧ resultsOut s (cx s).p.uid = false ∧ banksOut s (cx s).p.uid = false ∧
      maskOf (acting (cx s) g10) ≠ 0 ∧ (cx s).p.am &&& ~~~(maskOf (acting (cx s) g10)) ≠ 0 ∧ (cx s).p.sys = false :=
  ⟨begins_of (by decide +kernel), ⟨by decide +kernel, rfl⟩, by decide +kernel⟩
theorem witness_LoopAndExitWords_last :
    let s := sTwo .none
    Begins tp.sw (kRegs [guardOpd tp]) s (cx s) ∧ Clean (cx s) tp false [] [] ∧ resultsOut s (cx s).p.uid = false ∧ banksOut s (cx s).p.uid = false ∧
      maskOf (acting (cx s) tp) ≠ 0 ∧ (cx s).p.am &&& ~~~(maskOf (acting (cx s) tp)) = 0 ∧ (cx s).p.sm = 0 ∧ (cx s).p.sys = false ∧
      ((cx s).w.slot (!(cx s).f.s1)).occ = true ∧ ((cx s).w.slot (!(cx s).f.s1)).wait ≠ .jn :=
  ⟨begins_of (by decide +kernel), ⟨by decide +kernel, rfl⟩, by decide +kernel⟩
/-- iadd w2, w2, 1 || iadd w3, w3, 2. -/
def h0 : Half := ⟨.iadd, .w 2, .w 2, .si 1⟩
def h1 : Half := ⟨.iadd, .w 3, .w 3, .si 2⟩
theorem witness_PairWords :
    Begins false (kRegs ((hopSrcs h0 ++ hopSrcs h1).map (·.o))) sA (cx sA) ∧ halfPois (cx sA) h0 = none ∧ halfPois (cx sA) h1 = none ∧
      (0 : Nat) ∈ maskList (cx sA).p.am :=
  ⟨begins_of (by decide +kernel), by decide +kernel⟩
/-- iadd k8, k4, 3 || isub k4, k5, 1, and iadd w0, w2, 2 beside a half no-op. -/
def hK0 : Half := ⟨.iadd, .k 8, .k 4, .si 3⟩
def hK1 : Half := ⟨.isub, .k 4, .k 5, .si 1⟩
def hW0 : Half := ⟨.iadd, .w 0, .w 2, .si 2⟩
def hNop : Half := ⟨.nop, .w 0, .w 0, .w 0⟩
theorem witness_PairWords_uniform :
    Begins false (kRegs ((hopSrcs hK0 ++ hopSrcs hK1).map (·.o))) (sK 1 2 3) (cx (sK 1 2 3)) ∧ halfPois (cx (sK 1 2 3)) hK0 = none ∧
      halfPois (cx (sK 1 2 3)) hK1 = none ∧ (Instr.pairWord false hK0 hK1).wf = true := ⟨begins_of (by decide +kernel), by decide +kernel⟩
theorem witness_PairWords_w0 :
    Begins false (kRegs ((hopSrcs hW0 ++ hopSrcs hNop).map (·.o))) sA (cx sA) ∧ halfPois (cx sA) hW0 = none ∧ halfPois (cx sA) hNop = none ∧
      (Instr.pairWord false hW0 hNop).wf = true := ⟨begins_of (by decide +kernel), by decide +kernel⟩
theorem witness_AllZeroWord : Begins false [] sA (cx sA) := begins_of (by decide +kernel)
/-- vote.any w1, w2, 0. -/
def iVote : Instr := .vote tp 0 (.w 1) (.w 2) (.si 0)
theorem witness_Collectives_complete : ∃ r, collOf iVote = some r ∧ r.Runs sA (cx sA) :=
  ⟨_, rfl, begins_of (by decide +kernel), fun _ => rfl, by decide +kernel, by decide +kernel, ⟨by decide +kernel, by decide +kernel⟩,
    by decide +kernel, (fun _ h => nomatch h), rfl⟩
theorem witness_Collectives_trap :
    let s := sF (fun p => { p with am := 0, sm := 0xF })
    ∃ r, collOf iVote = some r ∧ Begins r.h.sw (kRegs (guardOpd r.h :: r.srcs.map (·.o))) s (cx s) ∧ (r.d.isK = true → uniHolds (cx s) r.h = true) ∧
      (cx s).p.am = 0 ∧ (cx s).p.masked = false :=
  ⟨_, rfl, begins_of (by decide +kernel), fun _ => rfl, by decide +kernel⟩
theorem witness_OrderingWords_fence : UniRuns tp [] sA (cx sA) ∧ FenceReady .ar .sys sA (cx sA) :=
  ⟨uni_of (by decide +kernel), rfl, fun _ => by decide +kernel, fun _ => by decide +kernel⟩
theorem witness_OrderingWords_ntdrain : UniRuns tp [] sA (cx sA) ∧ ∀ a ∈ sA.accs, a.uid = (cx sA).p.uid → a.kind ≠ .storeNt :=
  ⟨uni_of (by decide +kernel), by decide +kernel⟩
theorem witness_OrderingWords_empty : UniRuns tp [.k 4, .k 5] (sK 0x2000 0 0) (cx (sK 0x2000 0 0)) ∧
    opVal (sK 0x2000 0 0) (cx (sK 0x2000 0 0)) true 0 ⟨.k 5, 64, .int⟩ = 0 :=
  ⟨uni_of (by decide +kernel), by decide +kernel⟩
/-- The state of `MaintReady` with two lines at 0x2000, of which the first is dirty in the cluster store. -/
def sMaint : State :=
  (withTab 2 (sK 0x2000 256 0)).modDie 0 (fun d => { d with clusters := [(0, { ({} : Cluster) with lines := [(64, { data := List.replicate 128 1, dirty := true })] })] })
/-- The page of `va` as the agent of core 0 finds it in `s`. -/
def mt (s : State) (va : Nat) : State × Phys := got (xlatA s (ownAgent s (cx s).f) va .m)
theorem witness_OrderingWords_maintenance :
    MaintReady tp (.k 4) (.k 5) sMaint (mt sMaint 0x2000).1 (cx sMaint) 256 0x2000 ∧ LinesOk (mt sMaint 0x2000).1 0 0 :=
  ⟨⟨0x2000, (mt sMaint 0x2000).2, ⟨uni_of (by decide +kernel), by decide +kernel⟩, by decide +kernel,
    ⟨got_eq (by decide +kernel), fun w hw => nomatch (show reach _ _ _ _ = none by decide +kernel).symm.trans hw⟩, by decide +kernel⟩, by decide +kernel, by decide +kernel⟩
/-- 256 bytes across a 64 KiB bound, page by page. -/
def sTwoPages : State := withTab 2 (sK 0xFF80 256 0)
def mtAgent : Agent := ownAgent sTwoPages (cx sTwoPages).f
def mtOne : State × Phys := got (xlatA sTwoPages mtAgent 0xFF80 .m)
def mtMid : State := maintPage mtAgent 0 .wbi 0xFF80 mtOne.2 128 mtOne.1
def mtTwo : State × Phys := got (xlatA mtMid mtAgent 0x10000 .m)
theorem witness_OrderingWords_maintenance_pages :
    MaintBegins tp (.k 4) (.k 5) sTwoPages (cx sTwoPages) 0xFF80 256 ∧
      MaintChain mtAgent 0 .wbi 0xFF80 256 sTwoPages (maintPage mtAgent 0 .wbi 0x10000 mtTwo.2 128 mtTwo.1) :=
  ⟨⟨uni_of (by decide +kernel), by decide +kernel⟩,
    .page _ _ 128 _ mtOne.1 _ mtOne.2 (by decide) (by decide) ⟨got_eq (by decide +kernel), fun w hw => nomatch (show reach _ _ _ _ = none by decide +kernel).symm.trans hw⟩
      (.page _ _ 128 _ mtTwo.1 _ mtTwo.2 (by decide) (by decide) ⟨got_eq (by decide +kernel), fun w hw => nomatch (show reach _ _ _ _ = none by decide +kernel).symm.trans hw⟩
        (.done _ _))⟩
theorem witness_OrderingWords_prefetch :
    let s := sK 0x2000 0 0
    let m : MemOp := .imm (.k 4) 0
    Begins tp.sw (kRegs (guardOpd tp :: memOpds m)) s (cx s) ∧ Clean (cx s) tp false (acting (cx s) tp) (memOpds m) ∧ acting (cx s) tp ≠ [] ∧
      [0, 1, 2, 3] = (acting (cx s) tp).filter (fun t => (lockHit ((cx s).core s) true (effAddr s (cx s) t m / 128 * 128) 128 true).isNone) ∧
      requestsOut s (cx s).f + 4 ≤ 1024 :=
  ⟨begins_of (by decide +kernel), ⟨by decide +kernel, by decide +kernel⟩, by decide +kernel⟩
theorem witness_OrderingWords_handle :
    let s := sK 64 0 0
    let m : MemOp := .imm (.k 4) 0
    UniRuns tp (memOpds m) s (cx s) ∧ 64 = effAddr s (cx s) 0 m ∧ 64 % 8 = 0 ∧ inAllot (cx s).g 64 8 = true ∧ lockHit ((cx s).core s) false 64 8 false = none ∧
      acqOut s (cx s).p.uid = false ∧ engineHeld s (cx s) { thr := none, va := 64, n := 8, kind := .load .b64 } = false :=
  ⟨uni_of (by decide +kernel), by decide +kernel⟩

/-! Commands and the engine. -/

/-- cpy.ss k7, k4, k5, k6. -/
def iCpy : Instr := .cpy tp .ss ⟨false, .wg⟩ (.k 7) (.k 4) (.k 5) (.k 6)
theorem witness_CommandWords_accepted :
    let s := sK 0 512 64
    ∃ r e, cmdRowOf iCpy = some r ∧ UniRuns r.h r.os s (cx s) ∧ freeEnt ((cx s).core s) = some e ∧ (r.req s (cx s)).fail = none ∧
      acqOut s (cx s).p.uid = false ∧ settledAll s (cx s).f (cx s).p.uid = true ∧ ((cx s).core s).locks.length + (r.req s (cx s)).locks.length ≤ 64 :=
  ⟨_, 0, rfl, uni_of (by decide +kernel), by decide +kernel⟩
theorem witness_CommandWords_failed :
    let s := sK 0 512 0
    ∃ r code, cmdRowOf iCpy = some r ∧ UniRuns r.h r.os s (cx s) ∧ freeEnt ((cx s).core s) ≠ none ∧ (r.req s (cx s)).fail = some code :=
  ⟨_, 0x16, rfl, uni_of (by decide +kernel), by decide +kernel, by decide +kernel⟩
/-- All 512 handle-table entries are in use. -/
def sFull : State := (sK 0 512 64).modDie 0 (fun d => { d with cores := [(0, { ({} : Core) with handles := (List.range 512).map (fun i => (i, { used := true })) })] })
theorem witness_CommandWords_noEntry :
    ∃ r, cmdRowOf iCpy = some r ∧ UniRuns r.h r.os sFull (cx sFull) ∧ freeEnt ((cx sFull).core sFull) = none :=
  ⟨_, rfl, uni_of (by decide +kernel), by decide +kernel⟩

/-- A command of core 0 of die 0, and the state that holds it with its handle-table entry. -/
def cmd (k : CmdKind) (x : CmdSt) : Cmd := { id := 5, die := 0, core := 0, ent := some 3, hseq := 9, kind := k, st := x }
def sCmd (c : Cmd) : State :=
  { (sK 0 512 64).modDie 0 (fun d => { d with cores := [(0, { ({} : Core) with handles := [(3, { used := true, seq := 9 })] })] }) with cmds := [c] }
theorem witness_EngineEvents_start :
    let x := cmd (.cpy .ss 0 512 64) .waiting
    let s := sCmd x
    s.cmds.find? (fun y => y.id == x.id) = some x ∧
      (s.cmds.filter (fun y => y.die == x.die && y.core == x.core && y.kind.copyEngine)).find? (fun y => y.st == .waiting) = some x ∧
      ((s.cmds.filter (fun y => y.die == x.die && y.core == x.core && y.kind.copyEngine)).filter (fun y => y.st == .running)).length < 32 := by
  decide +kernel
/-- A free choice below two. -/
theorem takeNat_two (s : State) : (s.takeNat 2).1 = 0 ∨ (s.takeNat 2).1 = 1 := by
  show Config.freeNat s.freeIx % 2 = 0 ∨ Config.freeNat s.freeIx % 2 = 1
  omega
/-- A copy of one byte: whether it moves in this turn is free. -/
def xOne : Cmd := cmd (.cpy .ss 0 512 1) .running
theorem witness_EngineEvents_copy :
    (sCmd xOne).cmd? xOne.id = some xOne ∧ xOne.st = .running ∧ xOne.next < 1 ∧ xOne.cw = none ∧ xOne.gcw = none ∧ xOne.queue = 64 ∧
      ∃ u k, k = ((sCmd xOne).takeNat (1 - xOne.next + 1)).1 ∧ (xOne.next + k < 1 ∨ xOne.next + k = 1) ∧
        CopyChain false false xOne 0 512 k ((sCmd xOne).takeNat (1 - xOne.next + 1)).2 u := by
  refine ⟨by decide +kernel, rfl, by decide, rfl, rfl, rfl, ?_⟩
  show ∃ u k, k = ((sCmd xOne).takeNat 2).1 ∧ (0 + k < 1 ∨ 0 + k = 1) ∧ CopyChain false false xOne 0 512 k ((sCmd xOne).takeNat 2).2 u
  rcases takeNat_two (sCmd xOne) with h | h <;> rw [h]
  · exact ⟨_, 0, rfl, Or.inl (by decide), .done _ _ _ _⟩
  · obtain ⟨q, hq, h1⟩ := ok_sat (x := sideRead ((sCmd xOne).takeNat 2).2 xOne false 512 (pieceLen 0 512 1)) (fun q => !q.2.2) (by decide +kernel)
    have e : q = (q.1, q.2.1, false) := by rw [Bool.not_eq_true'] at h1; rw [← h1]
    refine ⟨_, 1, rfl, Or.inr rfl, .piece xOne 0 512 1 q.2.1 _ q.1 _ _ (by decide) (hq.trans (congrArg _ e)) rfl (.done _ _ _ _)⟩
theorem witness_EngineEvents_copy_bytes :
    overlap 0 64 512 64 = false ∧ scrPois ((sCmd xOne).core 0 0) 512 64 = false ∧ (0 : Nat) < (sCmd xOne).dies.length := by decide +kernel
/-- An engine's access of 8 bytes at 0x2000, in a page of share level 0, 1 or 2. -/
def egA : Agent := cmdAgent (cmd (.cpy .gs 0 0x2000 8) .running)
def egS (hi : Byte) : State := withTab hi (sCmd (cmd (.cpy .gs 0 0x2000 8) .running))
def eg (hi : Byte) (w : Want) : State × Phys := got (xlatA (egS hi) egA 0x2000 w)
theorem witness_EngineEvents_reads :
    EngineReaches (egS 1) (eg 1 .r).1 egA 0 0x2000 8 .r (eg 1 .r).2 ∧ loose (noteUse (eg 1 .r).1 0 0 (eg 1 .r).2) (eg 1 .r).2.pa = false :=
  ⟨⟨rfl, rfl, by decide, by decide, by decide +kernel, by decide +kernel, got_eq (by decide +kernel), by decide +kernel, by decide +kernel⟩, by decide +kernel⟩
theorem witness_EngineEvents_writes :
    (EngineReaches (egS 2) (eg 2 .w).1 egA 0 0x2000 8 .w (eg 2 .w).2 ∧ pathBusy (eg 2 .w).1 egA (eg 2 .w).2 8 = false ∧ (eg 2 .w).2.sl = 2) ∧
    (EngineReaches (egS 1) (eg 1 .w).1 egA 0 0x2000 8 .w (eg 1 .w).2 ∧ pathBusy (eg 1 .w).1 egA (eg 1 .w).2 8 = false ∧ (eg 1 .w).2.sl = 1) ∧
    (EngineReaches (egS 0) (eg 0 .w).1 egA 0 0x2000 8 .w (eg 0 .w).2 ∧ pathBusy (eg 0 .w).1 egA (eg 0 .w).2 8 = false ∧ (eg 0 .w).2.sl = 0 ∧
      ((eg 0 .w).1.cluster 0 0).lines.length < csLines (eg 0 .w).1 0 ∧ 0 < (eg 0 .w).1.dies.length) := by
  refine ⟨⟨⟨rfl, rfl, by decide, by decide, ?_, ?_, got_eq (by decide +kernel), ?_, ?_⟩, ?_⟩, ⟨⟨rfl, rfl, by decide, by decide, ?_, ?_, got_eq (by decide +kernel), ?_, ?_⟩, ?_⟩,
    ⟨rfl, rfl, by decide, by decide, ?_, ?_, got_eq (by decide +kernel), ?_, ?_⟩, ?_⟩ <;> decide +kernel
theorem witness_EngineEvents_complete :
    let x := { cmd (.cpy .ss 0 512 64) (.done 0) with cw := some ⟨64, 1, .wg⟩ }
    let s := sCmd x
    ∃ y, s.cmd? x.id = some x ∧ x.core < 96 ∧ x.gcw = none ∧ x.pinned = none ∧ x.queue = 64 ∧ x.ent = some 3 ∧
      Tab.get? (s.core x.die x.core).handles 3 = some y ∧ y.used = true ∧ y.seq = x.hseq ∧ x.die < s.dies.length ∧ x.mustWait s 0 = false :=
  ⟨{ used := true, seq := 9 }, by decide +kernel⟩
/-- A completion word at `.die`, behind a store that the cluster's tracker holds. -/
theorem witness_EngineEvents_release :
    let x := { cmd (.cpy .ss 0 512 64) (.done 0) with cw := some ⟨64, 1, .die⟩ }
    let s := { sCmd x with accs := [{ ac .store .home with tracked := true }] }
    s.cmd? x.id = some x ∧ x.core < 96 ∧ x.gcw = none ∧ x.pinned = none ∧ x.queue = 64 ∧ x.mustWait s 0 = true := by decide +kernel
theorem witness_EngineEvents_gather :
    let x := cmd (.cpyk false 0 512 2 0 64 0) .running
    (sCmd x).cmd? x.id = some x ∧ (sCmd x).dirW = [] ∧ x.out = [] ∧ Tab.get? (sCmd x).spaces 0 = none := by decide +kernel
/-- A space of one dimension: leaf `lv0` of level 0 held by die 0, one record of 64 bytes at the address 0x2000. -/
def rec0 : KRec := { key := keyMake 0 1 0 [0], part := 0, rix := 0, slot := 0x2000, sto := 0, sti := 0, st := 1, otgt := 0, efmt := 3, dsize := 64 }
def space0 : Space :=
  { dim := 1, per := 0, grp := 0xF, home := 0, elems := 16, slot := 64, b21 := false, hovOk := false, efmt := 3, img := 0, cuts := []
    parts := [{ tgt := 0, agent := 0, seg := 0x100000, nrec := 4, nslt := 4, recFree := [], slotFree := [] }], recs := [(0, rec0)] }
def sSp (s : State) : State := { s with spaces := [(0, space0)] }
/-- Bytes 0 to 7 of a key, at the scratchpad's start. -/
def sGather : State :=
  let x := cmd (.cpyk false 64 0 1 0 64 3) .running
  let s := withTab 2 (sSp (sCmd x))
  s.modCore 0 0 (fun c => { c with scr := [(0, BitVec.ofNat 8 (rec0.key.toNat % 256)), (7, BitVec.ofNat 8 (rec0.key.toNat / 2 ^ 56))] })
def xGather : Cmd := cmd (.cpyk false 64 0 1 0 64 3) .running
/-- The key is taken, and its leaf found. -/
theorem witness_EngineEvents_gather_look :
    sGather.cmd? xGather.id = some xGather ∧ sGather.dirW = [] ∧ xGather.out = [] ∧ xGather.pinned = none ∧ xGather.keys.length = xGather.next ∧
      Tab.get? sGather.spaces 0 = some space0 ∧ (0 : W64) = BitVec.ofNat 64 (leNat (scrRead (sGather.core 0 0) 0 8)) ∧
      scrPois (sGather.core 0 0) 0 8 = false ∧ sameSpace sGather xGather.sid 0 = true ∧ keySp 0 = 0 ∧ keyOkIn space0 0 = true ∧ gatherStall sGather space0 0 0 = false ∧
      lookRec space0 0 = some (0, rec0) ∧ rec0.key = 0 ∧ rec0.st = 1 ∧ rec0.rpin < 65535 ∧
      (putRec (gatherStart sGather xGather 0).1 0 0 { rec0 with rpin := rec0.rpin + 1 }).dirW = [] := by decide +kernel
/-- The key's leaf is pinned, and its block of 64 bytes but for the last `n` is read. -/
def xRead (n : Nat) : Cmd := { xGather with keys := [(0, false)], pinned := some 0, out := [(0, List.replicate (64 - n) 1)] }
def spRead : Space := { space0 with recs := [(0, { rec0 with rpin := 1 })] }
def sRead (n : Nat) : State := { sGather with cmds := [xRead n], spaces := [(0, spRead)] }
/-- One byte is left: whether it is read in this turn is free. -/
theorem witness_EngineEvents_gather_read :
    (sRead 1).cmd? (xRead 1).id = some (xRead 1) ∧ (sRead 1).dirW = [] ∧ (xRead 1).next < (xRead 1).keys.length ∧ (xRead 1).pinned = some 0 ∧
      Tab.get? (sRead 1).spaces 0 = some spRead ∧ Tab.get? spRead.recs 0 = some { rec0 with rpin := 1 } ∧
      ∃ q, vread ((sRead 1).takeNat (64 - 63 + 1)).2 (cmdAgent (xRead 1)) (0x2000 + 63) ((sRead 1).takeNat (64 - 63 + 1)).1 = .ok q ∧ (!q.2.2) = true := by
  refine ⟨by decide +kernel, by decide +kernel, by decide, rfl, rfl, rfl, ?_⟩
  show ∃ q, vread ((sRead 1).takeNat 2).2 (cmdAgent (xRead 1)) (0x2000 + 63) ((sRead 1).takeNat 2).1 = .ok q ∧ (!q.2.2) = true
  rcases takeNat_two (sRead 1) with h | h <;> rw [h] <;> exact ok_sat _ (by decide +kernel)
/-- No byte is left: the block is converted. -/
theorem witness_EngineEvents_gather_got :
    (sRead 0).cmd? (xRead 0).id = some (xRead 0) ∧ (sRead 0).dirW = [] ∧
      ∃ q, vread ((sRead 0).takeNat (64 - 64 + 1)).2 (cmdAgent (xRead 0)) (0x2000 + 64) ((sRead 0).takeNat (64 - 64 + 1)).1 = .ok q ∧
        (!q.2.2 && q.1.dirW.isEmpty && (match gatherBytes spRead { rec0 with rpin := 1 } 3 (List.replicate 64 1 ++ q.2.1) with
          | .ok (o, _) => decide (o.length ≤ 64)
          | .error _ => false) && ((gatherUnpin (noteStacks (q.1.modCmd (xRead 0).id (fun c => { c.went with out := [(0, List.replicate 64 1 ++ q.2.1)] })) (xRead 0)
            [(0x2000 + 64, 0)]) (xRead 0)).dirW).isEmpty) = true := by
  refine ⟨by decide +kernel, by decide +kernel, ?_⟩
  have h : ((sRead 0).takeNat (64 - 64 + 1)).1 = 0 := Nat.mod_one _
  rw [h]
  exact ok_sat _ (by decide +kernel)
/-- The last converted byte of the key waits to be written, or has been. -/
def xOut : Cmd := { xGather with keys := [(0, false)], out := [(2, [1, 2, 3])] }
def sOut : State := { sGather with cmds := [xOut] }
theorem witness_EngineEvents_gather_write :
    sOut.cmd? xOut.id = some xOut ∧ xOut.pinned = none ∧
      ∃ q, sideWrite (sOut.takeNat (3 - 2 + 1)).2 xOut false (64 + 2) (bytesAt [1, 2, 3] 2 (sOut.takeNat (3 - 2 + 1)).1) = .ok q ∧ (fun _ => true) q = true := by
  refine ⟨by decide +kernel, rfl, ?_⟩
  show ∃ q, sideWrite (sOut.takeNat 2).2 xOut false (64 + 2) (bytesAt [1, 2, 3] 2 (sOut.takeNat 2).1) = .ok q ∧ (fun _ => true) q = true
  rcases takeNat_two sOut with h | h <;> rw [h] <;> exact ok_sat _ (by decide +kernel)

/-! Waits, handles, queues and channels. -/

/-- waita.eq [k4], k5 on a workgroup whose scratchpad is zero: the comparison with 0 holds, that with 1 does not. -/
theorem witness_WaitsAndHandles_waita :
    ∀ v ∈ [((0 : W64), true), (1, false)],
      let s := sK 64 v.1 0
      UniRuns { tp with sw := true } [.k 4, .k 5] s (cx s) ∧ resultsOut s (cx s).p.uid = false ∧ 64 = kNat s (cx s) (.k 4) ∧ 64 % 8 = 0 ∧ inAllot (cx s).g 64 8 = true ∧
        lockHit ((cx s).core s) false 64 8 false = none ∧ acqOut s (cx s).p.uid = false ∧ opsHeld s (cx s) [(64, 8)] [] = false ∧
        watchHolds ((cx s).core s) ⟨64, 8, BitVec.ofNat 64 (kNat s (cx s) (.k 5)), 0, none⟩ = v.2 := by
  intro v hv
  simp only [List.mem_cons, List.not_mem_nil, or_false] at hv
  rcases hv with rfl | rfl <;> exact ⟨uni_of (by decide +kernel), by decide +kernel⟩
/-- The waiter for [64] = 0; a write of 8 bytes at 64 meets it, with and without a full lock. -/
def wat0 (hit : Bool) (bad : Option Nat) : Watcher := ⟨1, ⟨64, 8, 0, 0, none⟩, hit, bad⟩
theorem witness_WaitsAndHandles_write :
    let k : Core := { ({} : Core) with watches := [wat0 false none] }
    let l : Core := { k with locks := [⟨false, 64, 71, true, 9⟩] }
    wat0 false none ∈ k.watches ∧ overlap (wat0 false none).w.off (wat0 false none).w.n 64 8 = true ∧ k.fullLock 64 8 = none ∧
      wat0 false none ∈ l.watches ∧ l.fullLock 64 8 = some 64 := by decide +kernel
/-- A check for the context of a slot, for the statements about events. -/
theorem ctx_of {s : State} (h : (ctx? s).isSome = true) : ctxOf s s.cur = some (cx s) := by
  unfold cx ctx? at *
  cases hc : ctxOf s s.cur with
  | none => simp [hc] at h
  | some c => rfl
/-- A parked `waita`: no write has satisfied it, one has, and one came under a full lock. -/
def sWat (hit : Bool) (bad : Option Nat) : State :=
  (sF (fun p => { p with wait := .waita, watch := some ⟨64, 8, 0, 0, none⟩ })).modDie 0
    (fun d => { d with cores := [(0, { ({} : Core) with watches := [wat0 hit bad] })] })
theorem witness_WaitsAndHandles_wake :
    ∀ v ∈ [(false, (none : Option Nat)), (true, none), (false, some 64)],
      let s := sWat v.1 v.2
      ctxOf s s.cur = some (cx s) ∧ (cx s).f = s.cur ∧ (cx s).p.wait = .waita ∧ (cx s).p.watch = some ⟨64, 8, 0, 0, none⟩ ∧ (cx s).g.resident = true ∧
        (cx s).p.stopped = false ∧ (cx s).p.masked = false ∧ ((cx s).core s).watches.find? (fun x => x.uid == (cx s).p.uid) = some (wat0 v.1 v.2) := by
  intro v hv
  simp only [List.mem_cons, List.not_mem_nil, or_false] at hv
  rcases hv with rfl | rfl | rfl <;> exact ⟨ctx_of rfl, by decide +kernel⟩
/-- The die is halted, and the fragment defers nothing. -/
def halted (s : State) : State := s.modDie 0 (fun d => { d with halt := true })
theorem witness_WaitsAndHandles_wake_halted :
    let s := halted (sWat true none)
    ctxOf s s.cur = some (cx s) ∧ (cx s).p.wait = .waita ∧ ((cx s).core s).watches.find? (fun x => x.uid == (cx s).p.uid) = some (wat0 true none) ∧
      (s.die 0).halt = true ∧ (cx s).p.defers = false := ⟨ctx_of rfl, by decide +kernel⟩
/-- k4 pending on the entry 3, which is in use with the status `st`; the command 5 waits. -/
def sHand (v : Option W64) : State :=
  { st (wg0 { wr fr with k := [(4, handleVal 0 3 9)], kpend := 16 }) with cmds := [cmd (.cpy .ss 0 512 64) .waiting] }.modDie 0
    (fun d => { d with cores := [(0, { ({} : Core) with handles := [(3, { used := true, seq := 9, status := v })] })] })
theorem witness_WaitsAndHandles_htest :
    Begins tp.sw (kRegs [guardOpd tp]) (sHand none) (cx (sHand none)) ∧ uniHolds (cx (sHand none)) tp = true ∧ Clean (cx (sHand none)) tp true [0] [.k 4] :=
  ⟨begins_of (by decide +kernel), rfl, by decide +kernel, by decide +kernel⟩
theorem witness_WaitsAndHandles_hcan_resolved :
    let s := sHand (some 0)
    ∃ e x, Begins tp.sw (kRegs [guardOpd tp]) s (cx s) ∧ uniHolds (cx s) tp = true ∧ Clean (cx s) tp true [0] [.k 4] ∧
      ((cx s).w.readK 4).getLsbD 63 = false ∧ handleEnt ((cx s).core s) (cx s).f.wg ((cx s).w.readK 4) = some (e, x) ∧ x.status.isSome = true :=
  ⟨3, { used := true, seq := 9, status := some 0 }, begins_of (by decide +kernel), rfl, ⟨by decide +kernel, by decide +kernel⟩, by decide +kernel⟩
theorem witness_WaitsAndHandles_hcan_waiting :
    let s := sHand none
    ∃ e x k, Begins tp.sw (kRegs [guardOpd tp]) s (cx s) ∧ uniHolds (cx s) tp = true ∧ Clean (cx s) tp true [0] [.k 4] ∧
      ((cx s).w.readK 4).getLsbD 63 = false ∧ handleEnt ((cx s).core s) (cx s).f.wg ((cx s).w.readK 4) = some (e, x) ∧ x.status = none ∧
      s.cmds.find? (fun k => k.die == (cx s).f.die && k.core == (cx s).f.core && k.wg == (cx s).f.wg && k.ent == some e && k.hseq == x.seq) = some k ∧ s.cmd? k.id = some k ∧ k.st = .waiting :=
  ⟨3, { used := true, seq := 9 }, cmd (.cpy .ss 0 512 64) .waiting, begins_of (by decide +kernel), rfl, ⟨by decide +kernel, by decide +kernel⟩,
    by decide +kernel⟩
/-- A running copy; a drain that waits in its engine; one that the engine has begun. -/
def xDrain : Cmd := cmd (.mdrn [] false 0) .running
def sHcan (k : Cmd) (q : List EngOp) : State :=
  { sHand none with cmds := [k] }.modDie 0 (fun d => { d with cores := [(0, { ({} : Core) with handles := [(3, { used := true, seq := 9 })], mxq := q })] })
theorem witness_WaitsAndHandles_hcan_running :
    ∀ v ∈ [(cmd (.cpy .ss 0 512 64) .running, ([] : List EngOp)), (xDrain, [{ wg := 0, warp := 0, op := .mdrn 5 0 0 0 0 }]), (xDrain, [])],
      let s := sHcan v.1 v.2
      Begins tp.sw (kRegs [guardOpd tp]) s (cx s) ∧ uniHolds (cx s) tp = true ∧ Clean (cx s) tp true [0] [.k 4] ∧
        ((cx s).w.readK 4).getLsbD 63 = false ∧ handleEnt ((cx s).core s) (cx s).f.wg ((cx s).w.readK 4) = some (3, { used := true, seq := 9 }) ∧
        s.cmds.find? (fun k => k.die == (cx s).f.die && k.core == (cx s).f.core && k.wg == (cx s).f.wg && k.ent == some 3 && k.hseq == 9) = some v.1 ∧
        s.cmd? v.1.id = some v.1 ∧ v.1.st = .running ∧ (v.1.kind.copyEngine = true ∨ v.1.kind = .mdrn [] false 0 ∧ drainWaits s v.1 = !v.2.isEmpty) := by
  intro v hv
  simp only [List.mem_cons, List.not_mem_nil, or_false] at hv
  rcases hv with rfl | rfl | rfl <;>
    exact ⟨begins_of (by decide +kernel), by decide +kernel, ⟨by decide +kernel, by decide +kernel⟩, by decide +kernel⟩
/-- The four cases of a binding of q3, at their boundaries: port 3 and the last kilobyte; port 4; a misaligned ring; the first kilobyte outside. -/
theorem witness_QueuesAndChannels_bind :
    let s := sK 3 3072 0
    UniRuns tp [.k 4, .k 5] s (cx s) ∧ kNat s (cx s) (.k 4) < 4 ∧ kNat s (cx s) (.k 5) % 1024 = 0 ∧ inAllot (cx s).g (kNat s (cx s) (.k 5)) 1024 = true :=
  ⟨uni_of (by decide +kernel), by decide +kernel⟩
theorem witness_QueuesAndChannels_bind_port :
    let s := sK 4 3072 0
    UniRuns tp [.k 4, .k 5] s (cx s) ∧ (cx s).p.masked = false ∧ 4 ≤ kNat s (cx s) (.k 4) :=
  ⟨uni_of (by decide +kernel), by decide +kernel⟩
theorem witness_QueuesAndChannels_bind_misaligned :
    let s := sK 3 512 0
    UniRuns tp [.k 4, .k 5] s (cx s) ∧ kNat s (cx s) (.k 4) < 4 ∧ kNat s (cx s) (.k 5) % 1024 ≠ 0 :=
  ⟨uni_of (by decide +kernel), by decide +kernel⟩
theorem witness_QueuesAndChannels_bind_outside :
    let s := sK 3 4096 0
    UniRuns tp [.k 4, .k 5] s (cx s) ∧ kNat s (cx s) (.k 4) < 4 ∧ kNat s (cx s) (.k 5) % 1024 = 0 ∧ inAllot (cx s).g (kNat s (cx s) (.k 5)) 1024 = false :=
  ⟨uni_of (by decide +kernel), by decide +kernel⟩
theorem witness_QueuesAndChannels_dead :
    let s := sF (fun p => { p with wait := .pop 2 })
    ctxOf s s.cur = some (cx s) ∧ (cx s).g.resident = true ∧ (cx s).p.stopped = false ∧ (cx s).p.masked = false ∧ (cx s).p.wait = .pop 2 ∧
      ((cx s).g.queue 2).port = 0 := ⟨ctx_of rfl, by decide +kernel⟩
/-- The other ends of a queue: the last warp waits for itself, and no pulp instruction pushes any more into a faulted ring; and a halted die. -/
theorem witness_QueuesAndChannels_dead_ends :
    ∀ q ∈ [({ port := 1 } : QReg), { port := 3, faulted := true }],
      let s := st { wg0 (wr { fr with wait := .pop 0 }) with queues := [q] }
      ctxOf s s.cur = some (cx s) ∧ (cx s).p.wait = .pop 0 ∧ (s.die 0).halt = false ∧ (((cx s).g.queue 0).port = 1 ∧ loneWarp (cx s).g (cx s).f.warp = true ∨
        ((cx s).g.queue 0).port = 3 ∧ ((cx s).g.queue 0).faulted = true ∧ pulpPending s (cx s).f 0 = false) := by
  intro q hq
  simp only [List.mem_cons, List.not_mem_nil, or_false] at hq
  rcases hq with rfl | rfl <;> exact ⟨ctx_of rfl, by decide +kernel⟩
theorem witness_QueuesAndChannels_dead_halted :
    let s := halted (sF (fun p => { p with wait := .pop 2 }))
    ctxOf s s.cur = some (cx s) ∧ (s.die 0).halt = true ∧ (cx s).p.defers = false := ⟨ctx_of rfl, by decide +kernel⟩
theorem witness_QueuesAndChannels_popDead :
    let s := sF (fun p => { p with wait := .popDead 2 })
    ctxOf s s.cur = some (cx s) ∧ (cx s).g.resident = true ∧ (cx s).p.stopped = false ∧ (cx s).p.masked = false ∧ (cx s).p.wait = .popDead 2 :=
  ⟨ctx_of rfl, by decide +kernel⟩
/-- The workgroup 0 of grid 7 with channel 2 from itself to itself. -/
def sChan (fill : List (List Byte × List Nat)) : State :=
  (st { wg0 { wr fr with k := [(4, 128)] } with grid := 7 }).modDie 0
    (fun d => { d with grids := [{ id := 7, grec := 0, chans := [(2, { cap := 2, prod := 0, cons := 0, filled := fill })] }] })
theorem witness_QueuesAndChannels_send :
    let s := sChan []
    ∃ x, UniRuns tp [.k 4] s (cx s) ∧ 128 = kNat s (cx s) (.k 4) ∧ 128 % 8 = 0 ∧ chanOf s (cx s) 2 = some x ∧ inAllot (cx s).g 128 64 = true ∧
      acqOut s (cx s).p.uid = false ∧ x.prod = (cx s).g.wgid ∧ lockHit ((cx s).core s) false 128 64 false = none ∧
      engineHeld s (cx s) { thr := none, va := 128, n := 64, kind := .load .b64 } = false ∧ x.consGone = false ∧
      released s (cx s).f (cx s).p.uid .die = true ∧ x.filled.length < x.cap :=
  ⟨{ cap := 2, prod := 0, cons := 0 }, uni_of (by decide +kernel), by decide +kernel⟩
theorem witness_QueuesAndChannels_recv :
    let s := sChan [(List.replicate 64 5, [])]
    ∃ x, UniRuns tp [.k 4] s (cx s) ∧ 128 = kNat s (cx s) (.k 4) ∧ 128 % 8 = 0 ∧ chanOf s (cx s) 2 = some x ∧ inAllot (cx s).g 128 64 = true ∧
      acqOut s (cx s).p.uid = false ∧ x.cons = (cx s).g.wgid ∧ lockHit ((cx s).core s) false 128 64 true = none ∧
      engineHeld s (cx s) { thr := none, va := 128, n := 64, kind := .store } = false ∧ x.filled = [(List.replicate 64 5, [])] :=
  ⟨{ cap := 2, prod := 0, cons := 0, filled := [(List.replicate 64 5, [])] }, uni_of (by decide +kernel), by decide +kernel⟩
theorem witness_QueuesAndChannels_qlen : UniRuns tp [] sA (cx sA) := uni_of (by decide +kernel)

/-! Keys. -/

theorem witness_KeyArithmetic :
    space0.dim = 1 ∧ keyOkIn space0 rec0.key = true ∧ keyLv rec0.key < maxLev space0.dim ∧ (1 : Nat) < 2 ^ space0.dim := by decide +kernel
/-- The deepest level, where no child exists, and level 0, where no parent exists. -/
theorem witness_KeyArithmetic_ends :
    keyOkIn space0 (keyMake 0 1 (maxLev 1) [5]) = true ∧ keyLv (keyMake 0 1 (maxLev 1) [5]) = maxLev 1 ∧ keyLv rec0.key = 0 := by decide +kernel
theorem witness_KeyArithmetic_make : (0 : Nat) < 16 ∧ 3 ≤ maxLev 2 ∧ [7, 0].length = 2 ∧ ∀ v ∈ [7, 0], v < 2 ^ 3 := by decide +kernel
/-- Both faces and an inner block of level 2. -/
theorem witness_KeyArithmetic_neighbour :
    keyOkIn space0 (keyMake 0 1 2 [0]) = true ∧ keyOkIn space0 (keyMake 0 1 2 [3]) = true ∧ keyOkIn space0 (keyMake 0 1 2 [1]) = true ∧
      keyCoord 1 (keyMake 0 1 2 [0]) 0 = 0 ∧ keyCoord 1 (keyMake 0 1 2 [3]) 0 = 2 ^ 2 - 1 ∧ space0.per.getLsbD 0 = false := by decide +kernel
/-- kpar k7, k4. -/
theorem witness_KeyWords :
    let s := sSp (sK (keyMake 0 1 2 [3]) 0 0)
    ∃ r, keyRowOf (.kpar tp (.k 7) (.k 4)) = some r ∧ Begins r.h.sw (kRegs (guardOpd r.h :: r.srcs.map (·.o))) s (cx s) ∧
      Clean (cx s) r.h r.d.isK ((memThreads (cx s) r.h r.d.isK).map thrOf) (r.srcs.map (·.o)) ∧ memThreads (cx s) r.h r.d.isK ≠ [] :=
  ⟨_, rfl, begins_of (by decide +kernel), ⟨by decide +kernel, by decide +kernel⟩, by decide +kernel⟩
/-- klook k7, k4, k8. -/
theorem witness_DirectoryWords :
    let s := sSp (sK (keyMake 0 1 2 [3]) 0 0)
    ∃ r, dirRowOf (.klook tp (.k 7) (.k 4) (.k 8)) = some r ∧ r.Starts s (cx s) ∧
      (keyHere s 0 (keyMake 0 1 2 [3])).isSome = true :=
  ⟨_, rfl, ⟨begins_of (by decide +kernel), ⟨by decide +kernel, by decide +kernel⟩, by decide +kernel, by decide +kernel, fun _ h => nomatch h⟩, by decide +kernel⟩
theorem witness_DirectoryWords_malformed :
    let s := sK (keyMake 0 1 2 [3]) 0 0
    ∃ r k, dirRowOf (.klook tp (.k 7) (.k 4) (.k 8)) = some r ∧ (r.opOf s (cx s) none).key? = some k ∧ keyHere s 0 k = none :=
  ⟨_, keyMake 0 1 2 [3], rfl, by decide +kernel⟩

/-! Directory agents. -/

theorem at_of {s : State} {a : Acc} {op : DirOp} (h : InFlight s a) (hk : a.kind = .dir op ∧ a.st = .home)
    (hp : dirWaits s a.frag.die op = false ∧ (op.sp? s).all (sameSpace s a.sid) = true ∧ s.dirW = [] ∧ ((dirDo s a.frag.die op).1).dirW = [] ∧
      ∀ x ∈ s.accs.takeWhile (fun x => x.id != a.id), x.uid ≠ a.uid ∨ x.thr ≠ a.thr) : AtAgent s a op :=
  ⟨h, hk.1, hk.2, hp.1, hp.2.1, ⟨hp.2.2.1, hp.2.2.2.1⟩, hp.2.2.2.2⟩
/-- A directory operation of thread 0 at its agent. -/
def da (op : DirOp) : Acc := { ac (.dir op) .home with va := 0, n := 0, pa := 0 }
def sDa (op : DirOp) (y : Space) : State := { sAc (da op) with spaces := [(0, y)] }
/-- The space that the operation named at its issue has been removed, and another has its number. -/
theorem witness_DirectoryOperations_removed :
    let a := { da (.look 0 false) with sid := some 7 }
    let s := { sAc a with spaces := [(0, { space0 with sid := 8 })] }
    InFlight s a ∧ s.dirW = [] ∧ dirWaits s 0 (.look 0 false) = false ∧ ((DirOp.look 0 false).sp? s).all (sameSpace s a.sid) = false ∧
      ∀ x ∈ s.accs.takeWhile (fun x => x.id != a.id), x.uid ≠ a.uid ∨ x.thr ≠ a.thr := ⟨rfl, by decide +kernel⟩
theorem witness_DirectoryOperations_look :
    AtAgent (sDa (.look 0 false) space0) (da (.look 0 false)) (.look 0 false) ∧ keyHere (sDa (.look 0 false) space0) 0 0 = some space0 ∧
      lookRec space0 0 = some (0, rec0) := ⟨at_of rfl ⟨rfl, rfl⟩ (by decide +kernel), by decide +kernel⟩
theorem witness_DirectoryOperations_lookNone :
    let k := keyMake 0 1 2 [3]
    let y := { space0 with recs := [] }
    AtAgent (sDa (.look k false) y) (da (.look k false)) (.look k false) ∧ keyHere (sDa (.look k false) y) 0 k = some y ∧ lookRec y k = none :=
  ⟨at_of rfl ⟨rfl, rfl⟩ (by decide +kernel), by decide +kernel⟩
theorem witness_DirectoryOperations_own :
    AtAgent (sDa (.own 0) space0) (da (.own 0)) (.own 0) ∧ keyHere (sDa (.own 0) space0) 0 0 = some space0 := ⟨at_of rfl ⟨rfl, rfl⟩ (by decide +kernel), by decide +kernel⟩
/-- The four cases of a pin: no record; a leaving record; a full count; room for one more, at the count's last value. -/
def withRec (f : KRec → KRec) : Space := { space0 with recs := [(0, f rec0)] }
theorem witness_DirectoryOperations_pinNone :
    let y := { space0 with recs := [] }
    AtAgent (sDa (.pin 0 true) y) (da (.pin 0 true)) (.pin 0 true) ∧ keyHere (sDa (.pin 0 true) y) 0 0 = some y ∧ recOf y 0 = none :=
  ⟨at_of rfl ⟨rfl, rfl⟩ (by decide +kernel), by decide +kernel⟩
theorem witness_DirectoryOperations_pin :
    (let y := withRec (fun r => { r with st := 3 })
     AtAgent (sDa (.pin 0 true) y) (da (.pin 0 true)) (.pin 0 true) ∧ recOf y 0 = some (0, { rec0 with st := 3 })) ∧
    (let y := withRec (fun r => { r with wpin := 65535 })
     AtAgent (sDa (.pin 0 true) y) (da (.pin 0 true)) (.pin 0 true) ∧ recOf y 0 = some (0, { rec0 with wpin := 65535 })) ∧
    (let y := withRec (fun r => { r with wpin := 65534 })
     AtAgent (sDa (.pin 0 true) y) (da (.pin 0 true)) (.pin 0 true) ∧ recOf y 0 = some (0, { rec0 with wpin := 65534 })) :=
  ⟨⟨at_of rfl ⟨rfl, rfl⟩ (by decide +kernel), by decide +kernel⟩, ⟨at_of rfl ⟨rfl, rfl⟩ (by decide +kernel), by decide +kernel⟩,
    ⟨at_of rfl ⟨rfl, rfl⟩ (by decide +kernel), by decide +kernel⟩⟩
theorem witness_DirectoryOperations_unpin :
    let y := withRec (fun r => { r with wpin := 1 })
    let op : DirOp := .unpin (recAddr space0 rec0) true
    AtAgent (sDa op y) (da op) op ∧ recAt (sDa op y) (recAddr space0 rec0) = some (0, 0, { rec0 with wpin := 1 }) ∧
      spaceOk (sDa op y) 0 0 = some y ∧ rec0.st ≠ 0 :=
  ⟨at_of rfl ⟨rfl, rfl⟩ (by decide +kernel), by decide +kernel⟩
theorem witness_DirectoryOperations_unpinNone :
    AtAgent (sDa (.unpin 8 true) space0) (da (.unpin 8 true)) (.unpin 8 true) ∧ recAt (sDa (.unpin 8 true) space0) 8 = none :=
  ⟨at_of rfl ⟨rfl, rfl⟩ (by decide +kernel), by decide +kernel⟩

/-! A space in memory that no page maps: the writes of its agents change nothing, whichever record and slot a `refine` takes. -/

/-- No agent's write waits, and no die maps a page. -/
def Unmapped (s : State) : Prop := s.dirW = [] ∧ s.dies.all (fun d => !d.pgroot.getLsbD 0) = true
theorem vwrite_unmapped {s : State} (h : s.dies.all (fun d => !d.pgroot.getLsbD 0) = true) (d va : Nat) (bs : List Byte) (pois : Bool) (wt : Want) :
    vwrite s { die := d } va bs pois wt = .ok s ∨ vwrite s { die := d } va bs pois wt = .error .transl := by
  have hp : (s.die d).pgroot.getLsbD 0 = false := by
    unfold State.die
    cases e : s.dies[d]? with
    | none => rfl
    | some x => simpa using List.all_eq_true.mp h x (List.mem_of_getElem? e)
  have hw : ∀ va, walk s d [] va = .fault := fun va => by unfold walk; rw [if_pos (by rw [hp]; simp)]
  unfold vwrite vwriteFuel
  split
  · exact Or.inl rfl
  · exact Or.inr (by simp [writeChunk, xlatA, xlat, hw, bind, Except.bind])
theorem agentWrite_unmapped {s : State} (h : Unmapped s) (d va : Nat) (bs : List Byte) : agentWrite s d va bs = s := by
  have hs : ({ s with dirW := [] } : State) = s := by rw [← h.1]
  unfold agentWrite flushDir
  rw [h.1, List.nil_append, List.isEmpty_cons, if_neg (by decide)]
  rcases vwrite_unmapped (s := { s with dirW := [(d, va, bs)] }) h.2 d va bs false .rp with e | e <;> simp [drainW, e, hs]
theorem pickOf_unmapped {α : Type} {s : State} (h : Unmapped s) (l : List α) : Unmapped (pickOf s l).2 := by
  cases l with
  | nil => exact h
  | cons x l => exact h
theorem takePool_unmapped {s : State} (h : Unmapped s) (x : Space) (j : Nat) (sl : Bool) : Unmapped (takePool s x j sl).2 := by
  have h1 := pickOf_unmapped h (freeRecs x j)
  unfold takePool
  rcases e : pickOf s (freeRecs x j) with ⟨_ | r, s1⟩ <;> rw [e] at h1
  · exact h1
  · dsimp only
    split
    · exact h1
    · have h2 : ∀ l : List (Nat × Nat × Nat), Unmapped (pickOf s1 l).2 := pickOf_unmapped h1
      split
      · rename_i e2
        exact (congrArg Prod.snd e2) ▸ h2 _
      · rename_i e2
        exact (congrArg Prod.snd e2) ▸ h2 _
theorem makeKids_unmapped (j : Nat) (p : KRec) (f : Byte) (n : Nat) (ks : List W64) (x : Space) {s : State} (h : Unmapped s) :
    Unmapped (makeKids j p f n ks x s).2 := by
  induction ks generalizing x s with
  | nil => exact h
  | cons k t ih =>
    have h1 := takePool_unmapped h x j true
    unfold makeKids
    split
    · rename_i e; rw [e] at h1; exact ih _ h1
    · rename_i e; rw [e] at h1; exact h1
theorem syncSpace_unmapped {s : State} (h : Unmapped s) (sp : Nat) : syncSpace s sp = s := by
  have h1 : ∀ x (l : List (Nat × KRec)), l.foldl (fun s r => writeRec x s r.2) s = s := fun x l => by
    induction l with
    | nil => rfl
    | cons r l ih => simpa [writeRec, agentWrite_unmapped h] using ih
  have h2 : ∀ l : List Nat, l.foldl (fun s j => putIndex s sp j) s = s := fun l => by
    induction l with
    | nil => rfl
    | cons j l ih =>
      have e : putIndex s sp j = s := by
        unfold putIndex
        split
        · rfl
        · split
          · rfl
          · exact agentWrite_unmapped h _ _ _
      simpa [e] using ih
  unfold syncSpace
  split
  · rfl
  · simp [h1, h2]
theorem refineDo_unmapped {s : State} (h : Unmapped s) (c : Cmd) (k : W64) (f : Nat) : (refineDo s c k f).dirW = [] := by
  unfold refineDo
  iterate 3 (split; exact h.1)
  dsimp only
  rw [syncSpace_unmapped] <;> [exact (makeKids_unmapped _ _ _ _ _ _ h).1; exact makeKids_unmapped _ _ _ _ _ _ h]

/-- A structural command of a warp, on a space with room for two children. -/
def sStr (k : CmdKind) (y : Space) : State := { sCmd (cmd k .waiting) with spaces := [(0, y)] }
def roomy : Space :=
  { space0 with parts := [{ tgt := 0, agent := 0, seg := 0x100000, nrec := 4, nslt := 4, recFree := [1, 2], slotFree := [(0, 1), (0, 2)] }] }
/-- `space0` after the refinement of its block. -/
def refined : Space :=
  { space0 with recs := [(0, { rec0 with st := 2 }), (1, { rec0 with key := keyMake 0 1 1 [0], rix := 1, cost := 3 }),
      (2, { rec0 with key := keyMake 0 1 1 [1], rix := 2, cost := 4 })] }
theorem witness_StructuralCommands_refine :
    let x := cmd (.refine 0 255) .waiting
    let s := sStr x.kind roomy
    (s.acc? x.id = none ∧ s.cmd? x.id = some x ∧ x.st = .waiting ∧ skeyHeld s x 0 = false ∧ Tab.get? s.spaces (keySp 0) = some roomy ∧
      deckleStall roomy x.die = false ∧ sameSpace s x.sid (keySp 0) = true ∧ refineFail s x.die 0 255 = none ∧ keySpace s 0 = some roomy ∧ recOf roomy 0 = some (0, rec0)) ∧
      Passes s (fun s => structDo s x 0) := by
  refine ⟨by decide +kernel, rfl, ?_⟩
  unfold structDo
  dsimp only
  rw [if_neg (by decide +kernel)]
  exact refineDo_unmapped ⟨rfl, by decide +kernel⟩ _ _ _
theorem witness_StructuralCommands_refineFails :
    let x := cmd (.refine 0 255) .waiting
    let s := sStr x.kind space0
    s.acc? x.id = none ∧ s.cmd? x.id = some x ∧ skeyHeld s x 0 = false ∧ s.dirW = [] ∧ (structDo s x 0).dirW = [] ∧ refineFail s x.die 0 255 = some 0x37 := by decide +kernel
theorem witness_StructuralCommands_coarsen :
    let x := cmd (.coarsen 0) .waiting
    let s := sStr x.kind refined
    s.acc? x.id = none ∧ s.cmd? x.id = some x ∧ skeyHeld s x 0 = false ∧ deckleStall refined x.die = false ∧ s.dirW = [] ∧ (structDo s x 0).dirW = [] ∧ coarsenFail s x.die 0 = none ∧
      keySpace s 0 = some refined ∧ recOf refined 0 = some (0, { rec0 with st := 2 }) := by decide +kernel
theorem witness_StructuralCommands_coarsenFails :
    let x := cmd (.coarsen 0) .waiting
    (sStr x.kind space0).dirW = [] ∧ (structDo (sStr x.kind space0) x 0).dirW = [] ∧ coarsenFail (sStr x.kind space0) x.die 0 = some 0x31 := by decide +kernel

/-- The space that the command named at its issue has been removed. -/
theorem witness_StructuralCommands_removed :
    let x := { cmd (.coarsen 0) .waiting with sid := some 7 }
    let s := { sStr (.coarsen 0) { refined with sid := 8 } with cmds := [x] }
    s.acc? x.id = none ∧ s.cmd? x.id = some x ∧ skeyHeld s x 0 = false ∧ s.dirW = [] ∧ (structDo s x 0).dirW = [] ∧ sameSpace s x.sid (keySp 0) = false := by
  decide +kernel

/-- A rebalance of space 0 by command 5 at a stage. -/
def reb : Rebal := { cmd := 5, mask := 0, h := 0, pat := 10, w := [1] }
def sReb (x : CmdSt) (r : Option Rebal) : State :=
  { sStr (.rebal 0 0) { space0 with rebal := r } with cmds := [cmd (.rebal 0 0) x], clock := 100 }
theorem witness_RebalanceSteps_accept :
    let x := cmd (.rebal 0 0) .waiting
    (∀ r ∈ [none, some reb], (sReb .waiting r).cmd? x.id = some x ∧ Tab.get? (sReb .waiting r).spaces 0 = some { space0 with rebal := r } ∧
      rebalHeld (sReb .waiting r) x 0 = false ∧ sameSpace (sReb .waiting r) x.sid 0 = true ∧ deckleStall { space0 with rebal := r } x.die = false) := by decide +kernel
theorem witness_RebalanceSteps_notify :
    let x := cmd (.rebal 0 0) .running
    (sReb .running (some reb)).cmd? x.id = some x ∧ reb.cmd = x.id ∧ reb.stage = 0 ∧ reb.ended = false ∧ ∃ j, j < space0.parts.length ∧ reb.noted.contains j = false :=
  ⟨by decide +kernel, rfl, rfl, rfl, 0, by decide +kernel⟩
theorem witness_RebalanceSteps_plan :
    let r := { reb with noted := [0] }
    Tab.get? (sReb .running (some r)).spaces 0 = some { space0 with rebal := some r } ∧ r.ended = false ∧ (sReb .running (some r)).dirW = [] ∧ (planStep 0 (sReb .running (some r))).dirW = [] ∧ r.stage = 0 ∧ space0.parts.length ≤ r.noted.length := by decide +kernel
theorem witness_RebalanceSteps_patience :
    let r := { reb with stage := 2, markAt := 90 }
    let s := sReb .running (some r)
    Tab.get? s.spaces 0 = some { space0 with rebal := some r } ∧ (s.die space0.home).halt = false ∧ r.markAt + r.pat ≤ s.clock ∧
      ((s.modDie space0.home (fun x => { x with halt := true })).die space0.home).halt = true := by decide +kernel
theorem witness_RebalanceSteps_stops :
    let r := { reb with stage := 2 }
    Tab.get? (sReb .running (some r)).spaces 0 = some { space0 with rebal := some r } ∧ r.ended = false ∧ (sReb .running (some r)).dirW = [] ∧ (stopsStep 0 (sReb .running (some r))).dirW = [] ∧ ∀ e ∈ space0.recs, e.2.st = 3 → e.2.wpin = 0 := by decide +kernel
theorem witness_RebalanceSteps_abort :
    let r := { reb with stage := 3, failed := some 0x17 }
    ∃ x, Tab.get? (sReb .running (some r)).spaces 0 = some { space0 with rebal := some r } ∧ r.ended = false ∧ r.hovs = [] ∧ (sReb .running (some r)).dirW = [] ∧ (abortStep 0 (sReb .running (some r))).dirW = [] ∧ (sReb .running (some r)).cmd? r.cmd = some x ∧
      r.copies.all (fun e => e.1 != r.cmd) = true := ⟨cmd (.rebal 0 0) .running, by decide +kernel⟩
/-- The home's crossbar has a mask for the group of space 0; die 3 has its message. -/
def sXbar (s : State) : State := s.modDie 0 (fun d => { d with xbar := [(16, 6)] })
def sMsg (d : Nat) (inst : Bool) (s : State) : State := s.modDie d (fun x => { x with mcGot := [(0, inst)] })
theorem witness_RebalanceSteps_sends :
    let r := { reb with stage := 3 }
    let s := sXbar (sReb .running (some r))
    Tab.get? s.spaces 0 = some { space0 with rebal := some r } ∧ r.ended = false ∧ r.copies = [] ∧ r.failed = none ∧ r.hovs = [] ∧ r.moving = [] ∧
      otherDies { space0 with rebal := some r } ≠ [] ∧ space0.home < s.dies.length ∧ s.dirW = [] ∧ (commitStep 0 s).dirW = [] ∧
      Tab.getD (s.die 0).xbar (16 + 0) 0 ≠ 0 := by decide +kernel
theorem witness_RebalanceSteps_invalidate :
    let r := { reb with stage := 4 }
    let s := sMsg 3 false (sReb .running (some r))
    Tab.get? s.spaces 0 = some { space0 with rebal := some r } ∧ r.ended = false ∧ 3 ∈ otherDies { space0 with rebal := some r } ∧ 3 ∉ r.inv ∧
      hasMsg s 3 0 false = true := by decide +kernel
theorem witness_RebalanceSteps_commit :
    let r := { reb with stage := 4, inv := [1, 2, 3] }
    Tab.get? (sReb .running (some r)).spaces 0 = some { space0 with rebal := some r } ∧ r.ended = false ∧ (sReb .running (some r)).dirW = [] ∧ (commitStep 0 (sReb .running (some r))).dirW = [] ∧ r.copies = [] ∧ r.failed = none ∧ r.hovs = [] ∧
      r.moving = [] ∧ otherDies { space0 with rebal := some r } ≠ [] ∧ ∀ d ∈ otherDies { space0 with rebal := some r }, d ∈ r.inv := by decide +kernel
theorem witness_RebalanceSteps_install :
    let r := { reb with stage := 5 }
    let q := { reb with stage := 5, inst := [1, 2] }
    let s := sMsg 1 true (sReb .running (some r))
    let u := sMsg 3 true (sReb .running (some q))
    ∃ x, s.cmd? r.cmd = some x ∧ s.dirW = [] ∧ (installStep 0 1 s).dirW = [] ∧ r.ended = false ∧ 1 ∈ otherDies { space0 with rebal := some r } ∧ 1 ∉ r.inst ∧
      hasMsg s 1 0 true = true ∧ (∃ e ∈ otherDies { space0 with rebal := some r }, e ≠ 1 ∧ e ∉ r.inst) ∧
      u.cmd? q.cmd = some x ∧ u.dirW = [] ∧ (installStep 0 3 u).dirW = [] ∧ 3 ∉ q.inst ∧ hasMsg u 3 0 true = true ∧
      ∀ e ∈ otherDies { space0 with rebal := some q }, e = 3 ∨ e ∈ q.inst :=
  ⟨cmd (.rebal 0 0) .running, by decide +kernel⟩
theorem witness_RebalanceSteps_resolves :
    let x := cmd (.rebal 0 0) (.done 0)
    let r := { reb with stage := 5, ended := true }
    let s := sReb (.done 0) (some r)
    s.cmd? x.id = some x ∧ x.gcw = none ∧ x.queue = 64 ∧ x.mustWait s 0 = false ∧ Tab.get? s.spaces 0 = some { space0 with rebal := some r } ∧ r.cmd = x.id := by
  decide +kernel
theorem witness_RebalanceSteps_cost :
    let w := { wr fr with bound := some 0, costDue := 1 }
    let s := sSp (st (wg0 w))
    s.warp? default = some w ∧ keySpace s 0 = some space0 ∧ deckleStall space0 0 = false ∧ lookRec space0 0 = some (0, rec0) := by decide +kernel

/-! Matrix words: a warp of 32 live threads whose workgroup holds every band and the lease `l`; the scratchpad `scr`. -/

def w32 (a b e : W64) : Warp :=
  { s0 := { fr with am := 0xFFFFFFFF }, thr := (List.range 32).map (fun i => { tid := i, live := true }), k := [(4, a), (5, b), (6, e)] }
def sMx (a b e : W64) (l : Lease) (scr : Tab Byte) : State :=
  (st { wg0 (w32 a b e) with bands := 0xFFFF, splen := 65536 }).modDie 0 (fun d => { d with cores := [(0, { ({} : Core) with mxLease := l, scr := scr })] })
def held : Lease := { holder := some 0 }
theorem mx_of {h : Hdr} {os : List Opd} {s : State} (hm : bBegins h.sw (kRegs (guardOpd h :: os)) s = true ∧ (cx s).p.am ≠ 0 ∧
    collective (cx s) = true ∧ uniHolds (cx s) h = true ∧
    firstPois (cx s) [0] [guardOpd h] = none ∧ firstPois (cx s) [0] os = none) : MxRuns h os s (cx s) :=
  ⟨begins_of hm.1, hm.2⟩
/-- mzero of the window of 16 by 16 at row 0, column 0. -/
def iMz : Instr := .mzero tp 0 0 false 0 0
theorem witness_MatrixConvergence :
    (∃ os, mxForm iMz = some (tp, os) ∧ Begins tp.sw (kRegs (guardOpd tp :: os)) (sF (fun p => { p with am := 0 })) (cx (sF (fun p => { p with am := 0 })))) ∧
      (cx (sF (fun p => { p with am := 0 }))).p.am = 0 ∧ (cx sA).p.am ≠ 0 ∧ collective (cx sA) = false :=
  ⟨⟨_, rfl, begins_of (by decide +kernel)⟩, by decide +kernel⟩
theorem witness_MatrixConvergence_guard :
    let h : Hdr := ⟨false, false, true, 4, 0⟩
    let s := sMx 0 0 0 held []
    Begins h.sw (kRegs [guardOpd h]) s (cx s) ∧ (cx s).p.am ≠ 0 ∧ collective (cx s) = true ∧ uniHolds (cx s) h = false ∧ Clean (cx s) h true [] [] :=
  ⟨begins_of (by decide +kernel), by decide +kernel, by decide +kernel, by decide +kernel, by decide +kernel, rfl⟩
theorem witness_MatrixWords_mzero :
    let s := sMx 0 0 0 held []
    ∃ r, mxRowOf s (cx s) iMz = some r ∧ MxRuns r.h r.os s (cx s) ∧ ((cx s).core s).mxLease.serves (cx s).f.wg (cx s).g.mlease = true ∧
      windowOk (cx s).g r.row r.col r.m r.n = true ∧ r.ok ∧ reserved s 0 0 r.row r.col r.m r.n = false ∧ mxFull s (cx s) = false :=
  ⟨_, rfl, mx_of (by decide +kernel), by decide +kernel, by decide +kernel, trivial, by decide +kernel, by decide +kernel⟩
/-- mma.m16.n16 of f16 operands with 32 columns: formats 1 and 1, one block of k. -/
theorem witness_MatrixWords_mma :
    let s := sMx 0 0x400 (BitVec.ofNat 64 (2 ^ 60 + 2 ^ 56 + 2 ^ 48)) held []
    ∃ r, mxRowOf s (cx s) (.mma tp 0 0 0 0 0 (.k 6) (.k 4) (.k 5)) = some r ∧ MxRuns r.h r.os s (cx s) ∧
      ((cx s).core s).mxLease.serves (cx s).f.wg (cx s).g.mlease = true ∧ windowOk (cx s).g r.row r.col r.m r.n = true ∧ r.ok ∧ reserved s 0 0 r.row r.col r.m r.n = false ∧ mxFull s (cx s) = false :=
  ⟨_, rfl, mx_of (by decide +kernel), by decide +kernel⟩
theorem witness_MatrixWords_noLease :
    let s := sMx 0 0 0 {} []
    ∃ r, mxRowOf s (cx s) iMz = some r ∧ MxRuns r.h r.os s (cx s) ∧ ((cx s).core s).mxLease.serves (cx s).f.wg (cx s).g.mlease = false ∧
      ((cx s).core s).mxLease.waiters.contains (cx s).f.wg = false :=
  ⟨_, rfl, mx_of (by decide +kernel), by decide +kernel⟩
/-- acp with 0, 17 and 16 bands, a misaligned and an aligned offset. -/
theorem witness_MatrixWords_bands :
    ∀ v ∈ [(0, 0, 0), (17, 0, 0), (1, 32, 1), (1, 64, 2)],
      let s := sMx (BitVec.ofNat 64 v.2.1) (BitVec.ofNat 64 v.1) 0 {} []
      MxRuns tp [.k 4, .k 5] s (cx s) ∧ kNat s (cx s) (.k 4) = v.2.1 ∧ kNat s (cx s) (.k 5) = v.1 ∧
        (v.2.2 = 2 → windowOk (cx s).g 0 0 16 256 = true ∧ operandTrap s (cx s) [(64, bandLen true, true)] = none ∧ reserved s 0 0 0 0 16 256 = false ∧
          mxFull s (cx s) = false ∧ acqOut s (cx s).p.uid = false ∧ opsHeld s (cx s) [] [(64, bandLen true)] = false) := by
  intro v hv
  simp only [List.mem_cons, List.not_mem_nil, or_false] at hv
  rcases hv with rfl | rfl | rfl | rfl <;> exact ⟨mx_of (by decide +kernel), by decide +kernel⟩
/-- A drain of the window of 16 by 16 as f32 to the scratchpad's offset 0x400; a descriptor of zeros fails. -/
def sDr (scr : Tab Byte) : State := sMx 0 0 0 held scr
def drScr : Tab Byte := [(1, 4), (32, 64)]
theorem witness_MatrixCommands_drain :
    let s := sDr drScr
    let dr := drainOf (scrRead ((cx s).core s) 0 64)
    let r := mdrnReq s (cx s) false ⟨false, .wg⟩ 0 0 true
    MxRuns tp [.k 4] s (cx s) ∧ ((cx s).core s).mxLease.serves (cx s).f.wg (cx s).g.mlease = true ∧ 0 = kNat s (cx s) (.k 4) ∧ lockHit ((cx s).core s) false 0 64 false = none ∧
      drainTypes ((cx s).core s) dr false = some true ∧ r.fail = none ∧ reserved s 0 0 dr.row dr.col dr.m dr.n = false ∧ mxFull s (cx s) = false ∧
      freeEnt ((cx s).core s) = some 0 ∧ acqOut s (cx s).p.uid = false ∧ settledAll s (cx s).f (cx s).p.uid = true ∧
      ((cx s).core s).locks.length + r.locks.length ≤ 64 :=
  ⟨mx_of (by decide +kernel), by decide +kernel⟩
theorem witness_MatrixCommands_drainFails :
    let s := sDr []
    MxRuns tp [.k 4] s (cx s) ∧ drainTypes ((cx s).core s) (drainOf (scrRead ((cx s).core s) 0 64)) false = some true ∧
      (mdrnReq s (cx s) false ⟨false, .wg⟩ 0 0 true).fail = some 0x41 ∧ freeEnt ((cx s).core s) ≠ none :=
  ⟨mx_of (by decide +kernel), by decide +kernel⟩
theorem witness_MatrixCommands_mmv :
    let s := sDr [(17, 4), (24, 32), (28, 1), (30, 1)]
    let nm := nearMemOf (scrRead ((cx s).core s) 0 64)
    let r := mmvReq s (cx s) ⟨false, .wg⟩ 0 0 true
    MxRuns tp [.k 4] s (cx s) ∧ lockHit ((cx s).core s) false 0 64 false = none ∧ typesAre ((cx s).core s) nm.tiles (nm.bfmt == 4) = some true ∧
      r.fail = none ∧ reserved s 0 0 nm.row nm.col nm.v nm.nrow = false ∧ freeEnt ((cx s).core s) = some 0 ∧
      acqOut s (cx s).p.uid = false ∧ settledAll s (cx s).f (cx s).p.uid = true ∧ ((cx s).core s).locks.length + r.locks.length ≤ 64 :=
  ⟨mx_of (by decide +kernel), by decide +kernel⟩
theorem witness_MatrixCommands_mmvFails :
    let s := sDr []
    MxRuns tp [.k 4] s (cx s) ∧ typesAre ((cx s).core s) (nearMemOf (scrRead ((cx s).core s) 0 64)).tiles false = some true ∧
      (mmvReq s (cx s) ⟨false, .wg⟩ 0 0 true).fail = some 0x43 ∧ freeEnt ((cx s).core s) ≠ none :=
  ⟨mx_of (by decide +kernel), by decide +kernel⟩
/-- One engine entry on core 0, and the drain command 5 that it may belong to. -/
def sEng (op : MxOp) (reads : List (Nat × Nat)) (snap : List Byte) : State :=
  { st (wg0 (wr fr)) with cmds := [cmd (.mdrn (List.replicate 64 0) false 0) .running] }.modDie 0
    (fun d => { d with cores := [(0, { ({} : Core) with mxq := [{ wg := 0, warp := 0, op := op, reads := reads, snap := snap }] })] })
theorem witness_MatrixFinishes_mzero : (sEng (.mzero 0 0 16 256 true) [] []).dies.length = 4 ∧ (0 : Nat) + 256 ≤ 256 := by decide +kernel
theorem witness_MatrixFinishes_mma :
    let s := sEng (.mma 0 0 16 16 0 0 0 64) [(0, 32)] (List.replicate 32 0)
    (s.core 0 0).spois = [] ∧ List.replicate 32 0 = [(0, 32)].flatMap (fun r => scrRead (s.core 0 0) r.1 r.2) := by decide +kernel
theorem witness_MatrixFinishes_mdrn :
    let s := sEng (.mdrn 5 0 0 16 16) [] []
    ∃ core n' f, s.cmd? 5 = some (cmd (.mdrn (List.replicate 64 0) false 0) .running) ∧
      verifyTiles (tilesOf 0 0 16 16) ({ s.core 0 0 with mxq := [] }, 0, none) = (core, n', f) := ⟨_, _, _, by decide +kernel, rfl⟩
theorem witness_MatrixFinishes_acp :
    let s := sEng (.acp true false 16 1 0) [(0, bandLen false)] []
    (s.core 0 0).accPois = [] ∧ (s.core 0 0).spois = [] ∧ scrRead (s.core 0 0) 0 (bandLen false) = scrRead (s.core 0 0) 0 (bandLen false) :=
  ⟨rfl, rfl, rfl⟩

/-! Leases and the pulp unit. -/

/-- Core 0 with the two leases and stream set 0 owned by workgroup 0. -/
def sPu (v : W64) (pu mx : Lease) (x : StreamSet) : State :=
  (st { wg0 { wr fr with k := [(4, v)] } with queues := List.replicate 16 { port := 2, tail := 256 } }).modDie 0
    (fun d => { d with cores := [(0, { ({} : Core) with puLease := pu, mxLease := mx, sets := [x, {}, {}, {}] })] })
def own0 : StreamSet := { owner := some 0 }
theorem witness_LeaseEvents_grant :
    let s := sPu 0 { waiters := [0, 3] } { waiters := [0, 3] } {}
    ∃ y, (0 : Nat) < s.dies.length ∧ (s.core 0 0).mxLease.holder = none ∧ (s.core 0 0).mxLease.waiters = [0, 3] ∧
      (s.die 0).leaveQ.all (fun r => r.1 != .matrix 0 0) = true ∧ (s.core 0 0).puLease.holder = none ∧ (s.core 0 0).puLease.waiters = [0, 3] ∧
      (s.die 0).leaveQ.all (fun r => r.1 != .pulp 0 0) = true ∧ takeSet (s.core 0 0) 0 = some y ∧
      (∀ e ∈ (s.core 0 0).mxq, e.leased = false) ∧ (∀ e ∈ (s.core 0 0).pq, e.leased = false) :=
  ⟨_, by decide +kernel, rfl, rfl, rfl, rfl, rfl, rfl, rfl, (fun _ h => nomatch h), fun _ h => nomatch h⟩
/-- A counted instruction of the last holder has not finished. -/
theorem witness_LeaseEvents_late :
    let e : EngOp := { wg := 5, warp := 0, leased := true }
    let s := (sPu 0 { waiters := [0] } { waiters := [0] } {}).modCore 0 0 (fun c => { c with mxq := [e], pq := [e] })
    (s.core 0 0).mxLease.holder = none ∧ (s.core 0 0).mxLease.waiters = [0] ∧ (∃ e ∈ (s.core 0 0).mxq, e.leased = true) ∧
      (s.core 0 0).puLease.holder = none ∧ (s.core 0 0).puLease.waiters = [0] ∧ ∃ e ∈ (s.core 0 0).pq, e.leased = true := by decide +kernel
theorem witness_LeaseEvents_pass :
    let s := sPu 0 { holder := some 0, count := 4096, waiters := [3] } { holder := some 0, count := 256, waiters := [3] } own0
    ∃ g, s.wg? 0 0 = some g ∧ (s.core 0 0).mxLease.holder = some 0 ∧ (∀ e ∈ (s.core 0 0).mxq, e.wg = 0 → e.leased = false) ∧
      (s.core 0 0).mxLease.waiters ≠ [] ∧ g.mlease ≤ (s.core 0 0).mxLease.count ∧ (s.core 0 0).puLease.holder = some 0 ∧
      (∀ e ∈ (s.core 0 0).pq, e.wg = 0 → e.leased = false) ∧ (s.core 0 0).puLease.waiters ≠ [] ∧ g.please ≤ (s.core 0 0).puLease.count :=
  ⟨_, rfl, by decide +kernel⟩
theorem witness_LeaseEvents_mmv :
    let x := cmd (.mmv []) .leave
    (sCmd x).cmd? x.id = some x ∧ ((sCmd x).die 0).leaveQ.all (fun r => r.1 != .mmv x.id) = true := by decide +kernel

/-- sand.x2 z30, z1, z5: the last run that ends at z31. -/
def iSand : Instr := .sand tp 1 (.z 30) (.z 1) (.z 5)
theorem pu_of {h : Hdr} {os : List Opd} {s : State} (hp : (cx s).p.am ≠ 0 ∧ bBegins h.sw (kRegs (guardOpd h :: os)) s = true ∧ uniHolds (cx s) h = true ∧
    firstPois (cx s) [0] [guardOpd h] = none ∧ firstPois (cx s) [0] os = none) : PuRuns h os s (cx s) :=
  ⟨uni_of hp.2, hp.1⟩
def sZ : State := sPu 0x8000 held {} own0
theorem witness_StreamWords :
    ∃ r, zRowOf iSand = some r ∧ PuRuns r.h [] sZ (cx sZ) ∧ ((cx sZ).core sZ).puLease.serves (cx sZ).f.wg (cx sZ).g.please = true ∧
      runOk (runRegs r.run) (zIdx r.d :: r.srcs.map zIdx) = true ∧
      (∀ n, n < runRegs r.run → r.chk (zWord ((cx sZ).core sZ) (cx sZ).f.wg) n = none) ∧ ((cx sZ).core sZ).pq.length < 16 ∧
      (setIx ((cx sZ).core sZ) (cx sZ).f.wg).isSome = true :=
  ⟨_, rfl, pu_of (by decide +kernel), by decide +kernel⟩
theorem witness_StreamWords_noLease :
    let s := sPu 0 {} {} own0
    ∃ r, zRowOf iSand = some r ∧ PuRuns r.h [] s (cx s) ∧ ((cx s).core s).puLease.serves (cx s).f.wg (cx s).g.please = false :=
  ⟨_, rfl, pu_of (by decide +kernel), by decide +kernel⟩
/-- sand.x2 z31 passes z31; z1 and z5 of one class correlate. -/
theorem witness_StreamWords_illegal :
    ∃ r, zRowOf (.sand tp 1 (.z 31) (.z 1) (.z 5)) = some r ∧ PuRuns r.h [] sZ (cx sZ) ∧
      runOk (runRegs r.run) (zIdx r.d :: r.srcs.map zIdx) = false ∧ (cx sZ).p.masked = false :=
  ⟨_, rfl, pu_of (by decide +kernel), by decide +kernel⟩
theorem witness_StreamWords_correlated :
    let s := sPu 0 held {} { own0 with w := [(1, mkWord 0 1), (5, mkWord 0 1)] }
    ∃ r, zRowOf iSand = some r ∧ PuRuns r.h [] s (cx s) ∧ runOk (runRegs r.run) (zIdx r.d :: r.srcs.map zIdx) = true ∧
      (List.range (runRegs r.run)).findSome? (r.chk (zWord ((cx s).core s) (cx s).f.wg)) = some (corrInfo 1 1) :=
  ⟨_, rfl, pu_of (by decide +kernel), by decide +kernel⟩
theorem witness_StreamGeneratorsAndMoves_uniform :
    PuRuns tp [.k 4] sZ (cx sZ) ∧ ((cx sZ).core sZ).puLease.serves (cx sZ).f.wg (cx sZ).g.please = true ∧ zIdx (.z 31) + runRegs 0 ≤ 32 ∧
      ((cx sZ).core sZ).pq.length < 16 ∧ (setIx ((cx sZ).core sZ) (cx sZ).f.wg).isSome = true ∧ ((cx sZ).core sZ).pq = [] :=
  ⟨pu_of (by decide +kernel), by decide +kernel⟩
theorem witness_StreamGeneratorsAndMoves_queue :
    PuRuns tp [] sZ (cx sZ) ∧ (cx sZ).p.wait ≠ .popDead 1 ∧
      64 = sumN ((List.range (runRegs 0)).map (fun r => 4096 / codeLen (wLen (zWord ((cx sZ).core sZ) (cx sZ).f.wg (zIdx (.z 2) + r))))) ∧
      ((cx sZ).g.queue 1).port = 2 ∧ 64 ≤ ((cx sZ).g.queue 1).count ∧
      opsHeld sZ (cx sZ) (((cx sZ).g.queue 1).range ((cx sZ).g.queue 1).head 64) [] = false :=
  ⟨pu_of (by decide +kernel), by decide +kernel⟩
/-- slen with the code 3, the last; a counting word whose queue an engine feeds. -/
theorem witness_StreamGeneratorsAndMoves_length : PuRuns tp [.si 3] sZ (cx sZ) ∧ kNat sZ (cx sZ) (.si 3) ≤ 3 :=
  ⟨pu_of (by decide +kernel), by decide +kernel⟩
theorem witness_StreamGeneratorsAndMoves_pushes :
    let s := sZ.modWg 0 0 (fun g => { g with queues := List.replicate 16 { port := 3 } })
    PuRuns tp [] s (cx s) ∧ ((cx s).core s).puLease.serves (cx s).f.wg (cx s).g.please = true ∧ ((cx s).g.queue 1).port = 3 ∧ ((cx s).core s).pq.length < 16 :=
  ⟨pu_of (by decide +kernel), by decide +kernel⟩
theorem witness_StreamGeneratorsAndMoves_store :
    let s := sPu 64 {} {} own0
    PuRuns tp [.k 4] s (cx s) ∧ 64 = kNat s (cx s) (.k 4) ∧ operandTrap s (cx s) [(64, 576 * runRegs 0, true)] = none ∧
      acqOut s (cx s).p.uid = false ∧ opsHeld s (cx s) [] [(64, 576 * runRegs 0)] = false ∧ pulpBusy s (cx s) = false ∧ puFull s (cx s) = false :=
  ⟨pu_of (by decide +kernel), by decide +kernel⟩
theorem witness_StreamGeneratorsAndMoves_load :
    let s := sPu 64 {} {} {}
    ∃ y, PuRuns tp [.k 4] s (cx s) ∧ 64 = kNat s (cx s) (.k 4) ∧ operandTrap s (cx s) [(64, 576 * runRegs 0, false)] = none ∧
      acqOut s (cx s).p.uid = false ∧ opsHeld s (cx s) [(64, 576 * runRegs 0)] [] = false ∧ ((cx s).core s).spois = [] ∧
      takeSet ((cx s).core s) (cx s).f.wg = some y ∧ ((cx s).core s).pq.length < 16 :=
  ⟨_, pu_of (by decide +kernel), by decide +kernel, by decide +kernel, by decide +kernel, by decide +kernel,
    rfl, rfl, by decide +kernel⟩
/-- The pulp unit's first entry pushes two words into q1, which has room for two, or for one. -/
def sPush (n : Nat) : State :=
  (st { wg0 (wr fr) with queues := List.replicate 16 { port := 3, tail := n } }).modDie 0
    (fun d => { d with cores := [(0, { ({} : Core) with pq := [{ wg := 0, warp := 0, outQ := some 1, push := [1, 2] }] })] })
theorem witness_StreamCompletion :
    (∃ g, (sPush 254).wgOf? default = some g ∧ (g.queue 1).port = 3 ∧ g.exited = false ∧ g.resident = true ∧ (g.queue 1).count + 2 ≤ 256) ∧
      (∃ g, (sPush 255).wgOf? default = some g ∧ 256 < (g.queue 1).count + 2) ∧ (0 : Nat) < (sPush 255).dies.length :=
  ⟨⟨_, rfl, by decide +kernel⟩, ⟨_, rfl, by decide +kernel⟩, by decide +kernel⟩
/-- The workgroup is away, or has exited. -/
theorem witness_StreamCompletion_away :
    ∀ x ∈ [(false, false), (true, true)],
      let s := (sPush 0).modWg 0 0 (fun g => { g with resident := x.1, exited := x.2 })
      ∃ g, s.wgOf? default = some g ∧ s.wg? 0 0 = some g ∧ (g.queue 1).port = 3 ∧ (g.resident = false ∧ g.exited = false ∨ g.exited = true) := by
  intro x hx
  simp only [List.mem_cons, List.not_mem_nil, or_false] at hx
  rcases hx with rfl | rfl <;> exact ⟨_, rfl, rfl, by decide +kernel⟩
/-- The queue has been bound to port 2 since. -/
theorem witness_StreamCompletion_dead :
    let s := (sPush 0).modWg 0 0 (fun g => { g with queues := List.replicate 16 { port := 2 } })
    ∃ g, s.wg? 0 0 = some g ∧ (g.queue 1).port ≠ 3 ∧ (s.core 0 0).pq.length = 1 := ⟨_, rfl, by decide +kernel⟩

/-! The solve region. -/

/-- A descriptor at offset 0: one f32 tile of one element at 64, its image at 128, history at 1,024, beta 1.0, at most `n` steps. -/
def slvScr (n : Byte) : Tab Byte :=
  [(0, 1), (4, n), (14, 0xF0), (15, 0x3F), (25, 4), (32, 1), (34, 2), (36, 1), (130, 0x80), (131, 0x3F)]
def sSlv (ws : Tab Warp) (z : Solve) (scr : Tab Byte) (cal : List Nat) : State :=
  (st { wg0 (wr fr) with warps := ws, slv := z }).modDie 0 (fun d => { d with cores := [(0, { ({} : Core) with scr := scr, calQ := cal })] })
theorem marks_of {h : Hdr} {os : List Opd} {s : State} (hu : UniRuns h os s (cx s)) (hr : resultsOut s (cx s).p.uid = false) : Marks h os s (cx s) := ⟨hu, hr⟩
theorem arr_of {h : Hdr} {os : List Opd} {s : State} (hu : UniRuns h os s (cx s))
    (hr : resultsOut s (cx s).p.uid = false ∧ (cx s).p.am ≠ 0 ∧ mayArrive (cx s) = true ∧ released s (cx s).f (cx s).p.uid .wg = true ∧ acqOut s (cx s).p.uid = false) :
    Arrives h os s (cx s) := ⟨⟨hu, hr.1⟩, hr.2⟩
theorem witness_SolveArrivals_convergence :
    let s := sF (fun p => { p with am := 0 })
    let u := sF (fun p => { p with am := 3 })
    Marks tp [.k 4, .k 5] s (cx s) ∧ Marks tp [] s (cx s) ∧ (cx s).p.am = 0 ∧ (cx s).p.masked = false ∧
      Marks tp [.k 4, .k 5] u (cx u) ∧ Marks tp [] u (cx u) ∧ (cx u).p.am ≠ 0 ∧ mayArrive (cx u) = false :=
  ⟨marks_of (uni_of (by decide +kernel)) rfl, marks_of (uni_of (by decide +kernel)) rfl, rfl, rfl,
    marks_of (uni_of (by decide +kernel)) rfl, marks_of (uni_of (by decide +kernel)) rfl, by decide +kernel⟩
theorem witness_SolveArrivals_waits :
    let s := sSlv [(0, wr fr), (1, wr { fr with uid := 2 })] {} [] []
    Arrives tp [.k 4, .k 5] s (cx s) ∧ ∃ e ∈ (cx s).g.warps, e.1 ≠ (cx s).f.warp ∧ ∀ r ∈ (cx s).g.slv.arr, r.warp ≠ e.1 :=
  ⟨arr_of (uni_of (by decide +kernel)) (by decide +kernel), (1, wr { fr with uid := 2 }), by decide +kernel⟩
theorem witness_SolveArrivals_opens :
    let s := sSlv [(0, wr fr)] {} (slvScr 4) []
    let r := slvbArr s (cx s) 1 false (.k 4) (.k 5)
    Arrives tp [.k 4, .k 5] s (cx s) ∧ Lone (cx s) ∧ (cx s).g.slv.opened = false ∧ slvCheck s (cx s).g (cx s).f.die r = none ∧
      ((cx s).core s).locks.length + 1 + (slvTiles (scrRead ((cx s).core s) r.kd.toNat 64) r.kd.toNat r.m).length ≤ 64 :=
  ⟨arr_of (uni_of (by decide +kernel)) (by decide +kernel), ⟨by decide +kernel, rfl, rfl⟩, rfl, by decide +kernel, by decide +kernel⟩
theorem witness_SolveArrivals_slvx :
    ∀ z ∈ [({ opened := true } : Solve), {}],
      Arrives tp [] (sSlv [(0, wr fr)] z [] []) (cx (sSlv [(0, wr fr)] z [] [])) ∧ Lone (cx (sSlv [(0, wr fr)] z [] [])) := by
  intro z hz
  simp only [List.mem_cons, List.not_mem_nil, or_false] at hz
  rcases hz with rfl | rfl <;>
    exact ⟨arr_of (uni_of (by decide +kernel)) (by decide +kernel), by decide +kernel, rfl, rfl⟩
/-- The open region of `slvScr n` with tolerance `t`, whose one warp has arrived at `slvx`. -/
def slvArr0 : SlvArr := { warp := 0, s1 := false, op := false, at_ := 0x10000, word := 0 }
def sStep (n : Byte) (t : W64) : State :=
  let p := { fr with wait := .slvx }
  let c : Core := { ({} : Core) with scr := slvScr n }
  sSlv [(0, wr p)] { opened := true, m := 1, tau := t, desc := scrRead c 0 64, descAt := 0, at_ := 0xFF00, arr := [slvArr0] } (slvScr n) [0]
theorem witness_CalenderSteps :
    ∀ v ∈ [((2 : Byte), (0x3FF0000000000000 : W64)), (1, 0), (2, 0)],
      ∃ g, AtStep (sStep v.1 v.2) 0 0 0 [] g default { fr with wait := .slvx } slvArr0 := by
  intro v hv
  simp only [List.mem_cons, List.not_mem_nil, or_false] at hv
  rcases hv with rfl | rfl | rfl <;>
    exact ⟨_, by decide +kernel, rfl, rfl, rfl, rfl, rfl, by decide +kernel, by decide +kernel, by decide +kernel, fun _ h => nomatch h⟩
/-- The norm of the residual is 1.0: within the tolerance 1.0, and above the tolerance 0 at the last step allowed and before it. -/
theorem witness_CalenderSteps_norm :
    ∀ v ∈ [((2 : Byte), (0x3FF0000000000000 : W64), true, 2), (1, 0, false, 1), (2, 0, false, 2)],
      ∀ g, (sStep v.1 v.2.1).wg? 0 0 = some g →
        (stepNorm ((sStep v.1 v.2.1).core 0 0) g.slv).isFin = true ∧
        decide (FV.cmp (stepNorm ((sStep v.1 v.2.1).core 0 0) g.slv) (fdecode .f64 g.slv.tau.toNat) ≤ 0) = v.2.2.1 ∧
        fieldAt g.slv.desc 4 2 = v.2.2.2 ∧ g.slv.k + 1 = 1 ∧ g.slv.exc = false := by
  intro v hv g hg
  simp only [List.mem_cons, List.not_mem_nil, or_false] at hv
  rcases hv with rfl | rfl | rfl <;> (cases hg; decide +kernel)

/-! Allotments, barriers, dispensers, tasks, grids, the former. -/

theorem witness_Allotments_acq : UniRuns tp [] sA (cx sA) ∧ (cx sA).g.fullHeld = false ∧ (cx sA).g.acqPend = false :=
  ⟨uni_of (by decide +kernel), by decide +kernel⟩
theorem witness_Allotments_grant :
    let g := { wg0 (wr { fr with wait := .acq }) with acqPend := true, full := 8, bandsFull := 2 }
    let s := (st g).modDie 0 (fun d => { d with cores := [(0, { ({} : Core) with acqQ := [0] })] })
    s.wg? 0 0 = some g ∧ (s.core 0 0).acqQ = [0] ∧ g.core = 0 ∧ [] = (residents s 0 0).filter (fun e => e.1 != 0) ∧
      (s.die 0).leaveQ.all (fun r => r.1 != .acq 0 0) = true ∧ lanesFit ((g.nslot, g.nwinFull) :: laneUse []) = true ∧
      g.bandsFull ≤ (idxWhere 16 (fun i => !(bandsHeld []).getLsbD i)).length ∧
      bytesFree [] (g.spbase + 1024 * g.prol) (1024 * (g.full - g.prol)) = true := by decide +kernel
theorem witness_Allotments_rel :
    let s := st { wg0 (wr fr) with fullHeld := true }
    ∃ s1, UniRuns tp [] s (cx s) ∧ (cx s).g.fullHeld = true ∧ (cx s).g.slv.opened = false ∧ relHeld s (cx s) = false ∧
      spillHeld s (cx s).f (cx s).g = false ∧ spillAll s (cx s).f (cx s).g = .ok s1 :=
  ⟨_, uni_of (by decide +kernel), rfl, rfl, by decide +kernel, by decide +kernel, rfl⟩
theorem witness_Allotments_rel_open :
    let s := st { wg0 (wr fr) with fullHeld := true, slv := { opened := true } }
    UniRuns tp [] s (cx s) ∧ (cx s).g.fullHeld = true ∧ (cx s).g.slv.opened = true ∧ (cx s).p.masked = false :=
  ⟨uni_of (by decide +kernel), by decide +kernel⟩
theorem witness_Barriers_arrive :
    Marks tp [] sA (cx sA) ∧ ((cx sA).g.bar 0).departed.contains (cx sA).p.uid = false ∧ ((cx sA).g.bar 0).arrived.contains (cx sA).p.uid = false ∧
      acqOut sA (cx sA).p.uid = false ∧ ∀ sc ∈ [0, 1, 2, 3], released sA (cx sA).f (cx sA).p.uid (barScope sc) = true :=
  ⟨marks_of (uni_of (by decide +kernel)) rfl, by decide +kernel⟩
theorem witness_Barriers_departed :
    let s := st { wg0 (wr fr) with bars := [{ departed := [1] }, {}, {}, {}] }
    Marks tp [] s (cx s) ∧ ((cx s).g.bar 0).departed.contains (cx s).p.uid = true :=
  ⟨marks_of (uni_of (by decide +kernel)) rfl, by decide +kernel⟩
/-- A grid of two workgroups on one core, of which the second has arrived at each of its barriers or at none, and a schedule table for phase 1. -/
def sBar (n : Nat) (both : Bool) : State :=
  let bars (u : Nat) : List BarSt := List.replicate 4 { arrived := [u] }
  let y : Grid := { id := 7, grec := 0, dispatched := true, wgs := [0, 1], P := 2, disp := 1, mode := 1, sch := [{ phase := 1, table := 0, shares := [1] }] }
  let g0 : Wg := { wg0 (wr { fr with wait := .bar n }) with grid := 7, bars := bars 1 }
  let g1 : Wg := { wg0 (wr { fr with uid := 2, wait := .bar n }) with grid := 7, wgid := 1, bars := if both then bars 2 else [] }
  sA.modDie 0 (fun d => { d with grids := [y], wgs := [(0, g0), (1, g1)] })
theorem witness_Barriers_complete :
    ∀ sc ∈ [(0 : BitVec 2), 1, 2, 3],
      let s := sBar sc.toNat true
      ∃ g, s.wg? 0 0 = some g ∧ g.core = 0 ∧ spanOpen s 0 g sc.toNat = false ∧ (barParts s 0 0 g sc.toNat).Nodup ∧
        ((barParts s 0 0 g sc.toNat).all (fun e => (s.wg? e.1 e.2).all (fun x => wgArrived x sc.toNat))) = true ∧ (g.bar sc.toNat).arrived ≠ [] := by
  intro sc hs
  simp only [List.mem_cons, List.not_mem_nil, or_false] at hs
  rcases hs with rfl | rfl | rfl | rfl <;> exact ⟨_, rfl, by decide +kernel⟩
theorem witness_Barriers_phase :
    ∃ y, (sBar 2 true).grid? 0 7 = some y ∧ y.disp = 1 ∧ y.mode ≠ 0 ∧ y.sch ≠ [] ∧ y.cstk < (sBar 2 true).stks.length := ⟨_, rfl, by decide +kernel⟩
theorem witness_Barriers_waits :
    let s := sBar 2 false
    ∃ g x, s.wg? 0 0 = some g ∧ (0, 1) ∈ barParts s 0 0 g 2 ∧ s.wg? 0 1 = some x ∧ wgArrived x 2 = false := ⟨_, _, rfl, by decide +kernel, rfl, by decide +kernel⟩

/-- The workgroup 0 of the grid `y`, whose number is 7. -/
def sGrid (w : Warp) (y : Grid) : State := (st { wg0 w with grid := 7 }).modDie 0 (fun d => { d with grids := [{ y with id := 7 }] })
/-- The counter at its end, and 10 before it. -/
theorem witness_Dispensers_index :
    ∀ n ∈ [0, 10], ∃ y, UniRuns tp [] (sGrid (wr fr) { id := 7, grec := 0, disp := 1, P := 1, nidx := n }) (cx (sGrid (wr fr) { id := 7, grec := 0, disp := 1, P := 1, nidx := n })) ∧
      (sGrid (wr fr) { id := 7, grec := 0, disp := 1, P := 1, nidx := n }).grid? 0 7 = some y ∧ y.disp = 1 ∧ y.curTab = none ∧
      0 = (Tab.getD ((sGrid (wr fr) { id := 7, grec := 0, disp := 1, P := 1, nidx := n }).stk y.cstk).counters y.ctr 0).toNat ∧ 0 ≤ y.nidx ∧
      y.nidx = n ∧ y.nidx < 2 ^ 64 := by
  intro n hn
  simp only [List.mem_cons, List.not_mem_nil, or_false] at hn
  rcases hn with rfl | rfl <;> exact ⟨_, uni_of (by decide +kernel), rfl, by decide +kernel⟩
/-- A grid with a ready task whose TCB lies at 0x2000; one whose tasks are over, and one that has a task still armed. -/
def gTask (r : List Ready) (l : List W64) : Grid := { id := 7, grec := 0, disp := 2, ready := r, tlist := l }
theorem witness_Dispensers_task :
    let y := gTask [⟨0, 0x2000, 0, badKey⟩] []
    let s := withTab 2 (sGrid (wr fr) y)
    ∃ r s1, UniRuns tp [] s (cx s) ∧ s.grid? 0 7 = some y ∧ y.jobs = [] ∧ (cx s).w.task = none ∧ readyHead y 0 = some r ∧ tcbWr s 0 r.tcb 42 1 2 = .ok s1 := by
  obtain ⟨s1, h, -⟩ := ok_sat (x := tcbWr (withTab 2 (sGrid (wr fr) (gTask [⟨0, 0x2000, 0, badKey⟩] []))) 0 0x2000 42 1 2) (fun _ => true)
    (by decide +kernel)
  exact ⟨_, s1, uni_of (by decide +kernel), by decide +kernel, rfl, rfl, rfl, h⟩
/-- The cost of the tasks' TCBs: a busy page, none left, and one that is armed. -/
def tasksGot (hi : Byte) (l : List W64) : Except AErr (State × Bool) := tasksOver (withTab hi (sGrid (wr fr) (gTask [] l))) 0 (gTask [] l)
theorem witness_Dispensers_over :
    (∃ q, tasksGot 2 [] = .ok q ∧ q.2 = true) ∧ (∃ q, tasksGot 2 [0x2000] = .ok q ∧ (!q.2) = true) ∧
      (∃ b, tasksGot 0x82 [0x2000] = .error (.busy b)) ∧
      (∃ b, tcbWr (withTab 0x82 (sGrid (wr fr) (gTask [⟨0, 0x2000, 0, badKey⟩] []))) 0 0x2000 42 1 2 = .error (.busy b)) ∧
      UniRuns tp [] (withTab 2 (sGrid (wr fr) (gTask [] [0x2000]))) (cx (withTab 2 (sGrid (wr fr) (gTask [] [0x2000])))) :=
  ⟨ok_sat _ (by decide +kernel), ok_sat _ (by decide +kernel), ⟨.page, by rfl⟩, ⟨.page, by rfl⟩, uni_of (by decide +kernel)⟩
/-- A warp whose task is the TCB at 0x2000; the first ready task follows it. -/
def sEnd : State := withTab 2 (sGrid { wr fr with task := some 0x2000 } (gTask [⟨0, 0x2040, 0, badKey⟩] []))
theorem witness_Dispensers_end :
    (UniRuns tp [] sEnd (cx sEnd) ∧ (cx sEnd).w.task = some 0x2000 ∧ acqOut sEnd (cx sEnd).p.uid = false ∧ released sEnd (cx sEnd).f (cx sEnd).p.uid .die = true ∧
      (cx sEnd).w.bound = none) ∧
    (∃ sa, tcbWr sEnd 0 0x2000 42 1 3 = .ok sa ∧ ∃ s1, runSuccs sa 0 7 0 0x2000 = .ok s1 ∧ (s1.grid? 0 7).any (fun y => y.jobs.isEmpty) = true) ∧
    ∃ sa, tcbWr sEnd 0 0x2000 42 1 4 = .ok sa ∧ ∃ sb, tcbWr sa 0 0x2000 44 4 9 = .ok sb ∧ ∃ s1, postFault sb 0 7 0x2000 9 0 = .ok s1 ∧
      (s1.grid? 0 7).any (fun y => y.jobs.isEmpty) = true := by
  refine ⟨⟨uni_of (by decide +kernel), by decide +kernel⟩, ⟨_, got_eq (by decide +kernel), ok_sat _ (by decide +kernel)⟩,
    ⟨_, got_eq (by decide +kernel), _, got_eq (by decide +kernel), ok_sat _ (by decide +kernel)⟩⟩
/-- A schedule table of two slices in one part, which the workgroup is to take, and has taken. -/
def tab0 : SchTab := { phase := 0, table := 0, shares := [2] }
def sTabs (x : Option Nat) (k : Nat) : State :=
  (sGrid (wr fr) { id := 7, grec := 0, disp := 1, P := 1, nidx := 10, curTab := some tab0 }).modWg 0 0 (fun g => { g with fetchCur := x, fetchPart := k })
theorem witness_Dispensers_tables :
    ∀ v ∈ [((none : Option Nat), 0), (some 0, 1)],
      ∃ y, UniRuns tp [] (sTabs v.1 v.2) (cx (sTabs v.1 v.2)) ∧ (sTabs v.1 v.2).grid? 0 7 = some y ∧ y.disp = 1 ∧ y.curTab = some tab0 ∧
        ((nextPart y tab0 (cx (sTabs v.1 v.2)).g).isSome = (v.2 == 0)) ∧ (cx (sTabs v.1 v.2)).g.fetchCur = v.1 ∧ (cx (sTabs v.1 v.2)).f.core = (cx (sTabs v.1 v.2)).g.core := by
  intro v hv
  simp only [List.mem_cons, List.not_mem_nil, or_false] at hv
  rcases hv with rfl | rfl <;> exact ⟨_, uni_of (by decide +kernel), rfl, by decide +kernel⟩
theorem witness_Dispensers_noList :
    UniRuns tp (none : Option Opd).toList sA (cx sA) ∧ (cx sA).p.masked = false ∧ ∀ y, sA.grid? 0 (cx sA).g.grid = some y → y.disp ≠ 2 :=
  ⟨uni_of (by decide +kernel), rfl, fun _ h => nomatch h⟩
theorem witness_TaskWords_misaligned : UniRuns tp [.k 4] (sK 8 0 0) (cx (sK 8 0 0)) ∧ kNat (sK 8 0 0) (cx (sK 8 0 0)) (.k 4) % 64 ≠ 0 ∧ (cx (sK 8 0 0)).p.masked = false :=
  ⟨uni_of (by decide +kernel), by decide +kernel⟩
/-- The TCB at 0x2000 with the state `v`. -/
def sTcb (v : Byte) : State := let s := withTab 2 (sGrid (withK 0x2000 0 0) (gTask [] [])); { s with mem := if v = 0 then s.mem else (0x202A, v) :: s.mem }
theorem witness_TaskWords_state :
    ∀ v ∈ [(3 : Byte), 4], UniRuns tp [.k 4] (sTcb v) (cx (sTcb v)) ∧ kNat (sTcb v) (cx (sTcb v)) (.k 4) % 64 = 0 ∧
      (∀ y, (sTcb v).grid? 0 7 = some y → y.jobs = []) ∧ ∃ q, tcbRd (sTcb v) 0 0x2000 42 1 = .ok q ∧ (q.2 == v.toNat) = true := by
  intro v hv
  simp only [List.mem_cons, List.not_mem_nil, or_false] at hv
  rcases hv with rfl | rfl <;>
    exact ⟨uni_of (by decide +kernel), by decide +kernel, fun _ h => by cases h; rfl, ok_sat _ (by decide +kernel)⟩
/-- The task is released: it has no successors; or abandoned: it reaches only itself. -/
theorem witness_TaskWords_release :
    ∃ s2, tcbWr (sTcb 4) 0 0x2000 42 1 3 = .ok s2 ∧
      (match runSuccs s2 0 7 0 0x2000 with | .ok _ => true | .error _ => false) = true :=
  ok_sat _ (by decide +kernel)
/-- The faulted task at 0x2000 has one successor, listed at 0x2100: the armed task at 0x2040. -/
def sAban : State := { sTcb 4 with mem := [(0x2019, 0x21), (0x2020, 1)] ++ (sTcb 4).mem ++ [(0x2100, 0x40), (0x2101, 0x20)] }
def reach1 : State × List W64 := got (reachTasks 0 taskFuel [0x2000] [] sAban)
def wait1 : State × List W64 := got (waitingOf 0 (reach1.2.filter (· != 0x2000)) reach1.1)
theorem witness_TaskWords_abandon :
    reachTasks 0 taskFuel [0x2000] [] sAban = .ok reach1 ∧ waitingOf 0 (reach1.2.filter (· != 0x2000)) reach1.1 = .ok wait1 ∧ wait1.2 = [0x2040] ∧
      ∃ s4, ((0x2000 : W64) :: wait1.2).foldlM (fun u x => tcbWr u 0 x 42 1 5) wait1.1 = .ok s4 ∧ (fun _ => true) s4 = true :=
  ⟨got_eq (by decide +kernel), got_eq (by decide +kernel), by decide +kernel, ok_sat _ (by decide +kernel)⟩
theorem witness_TaskWords_busy :
    let s := withTab 0x82 (sGrid (withK 0x2000 0 0) (gTask [] []))
    UniRuns tp [.k 4] s (cx s) ∧ kNat s (cx s) (.k 4) % 64 = 0 ∧ ∃ b, tcbRd s 0 (BitVec.ofNat 64 (kNat s (cx s) (.k 4))) 42 1 = .error (.busy b) :=
  ⟨uni_of (by decide +kernel), by decide +kernel, .page, by rfl⟩
theorem witness_TaskWords_launch :
    let s := sK 0x2000 0 0
    UniRuns tp [.k 4] s (cx s) ∧ (kNat s (cx s) (.k 4)) % 64 = 0 ∧ ((s.die 0).grids.filter (inPool s)).length < 256 ∧
      freeEnt ((cx s).core s) = some 0 ∧ acqOut s (cx s).p.uid = false ∧ settledAll s (cx s).f (cx s).p.uid = true ∧ ((cx s).core s).locks.length ≤ 64 :=
  ⟨uni_of (by decide +kernel), by decide +kernel⟩
theorem witness_TaskWords_launchFails :
    let s := sK 0x2008 0 0
    UniRuns tp [.k 4] s (cx s) ∧ kNat s (cx s) (.k 4) % 64 ≠ 0 ∧ freeEnt ((cx s).core s) ≠ none :=
  ⟨uni_of (by decide +kernel), by decide +kernel⟩
theorem witness_TaskWords_join :
    (∀ v ∈ [some 0x16, none], Begins tp.sw (kRegs [guardOpd tp]) (sHand v) (cx (sHand v)) ∧ uniHolds (cx (sHand v)) tp = true ∧
      Clean (cx (sHand v)) tp true [0] [.k 4] ∧ (cx (sHand v)).w.kpend.getLsbD 4 = true ∧
      handleStatus ((cx (sHand v)).core (sHand v)) (cx (sHand v)).f.wg ((cx (sHand v)).w.readK 4) = v) ∧
    (cx sA).w.kpend.getLsbD 4 = false := by
  refine ⟨fun v hv => ?_, rfl⟩
  simp only [List.mem_cons, List.not_mem_nil, or_false] at hv
  rcases hv with rfl | rfl <;> exact ⟨begins_of (by decide +kernel), rfl, ⟨by decide +kernel, by decide +kernel⟩, by decide +kernel⟩

/-- Launches of a record at 0x2000, of a packet of queue 3 and of a device-side launch, whose command is `k`: memory not mapped; a record of zeros; a legal record whose descriptor
lies at 0x2100. -/
def gPend : Grid := { id := 7, grec := 0x2000, src := .packet 3 5 0 }
def gDev : Grid := { id := 7, grec := 0x2000, src := .device 5 }
def kLaunch (x : CmdSt) : Cmd := { cmd (.launch 0x2000) x with gcw := none }
def sPend (y : Grid) : State := (sCmd (kLaunch .waiting)).modDie 0 (fun d => { d with grids := [y] })
def legal (s : State) : State :=
  let s := withTab 2 s
  { s with mem := [(0x2001, 0x21), (0x2009, 0x22), (0x2028, 1), (0x202A, 1), (0x2040, 1), (0x2110, 1), (0x2118, 1), (0x2119, 1), (0x211A, 2), (0x2124, 1),
      (0x2126, 1), (0x2128, 1)] ++ s.mem }
theorem launched_packet (s : State) : Launched s gPend := ⟨Or.inl ⟨3, 5, 0, rfl, by decide⟩, fun _ h => nomatch h⟩
theorem launched_device (f : State → State) (h1 : (f (sPend gDev)).cmds = [kLaunch .waiting]) : Launched (f (sPend gDev)) gDev := by
  refine ⟨Or.inr ⟨5, rfl, fun c h => ?_⟩, fun id h => ?_⟩
  · rw [State.cmd?, h1] at h
    cases h
    exact ⟨rfl, rfl⟩
  · cases h
    show (true && (f (sPend gDev)).cmds.any _) = true
    rw [h1]
    rfl
theorem witness_Grids_gone :
    let s := { sPend gDev with cmds := [] }
    (0 : Nat) < s.dies.length ∧ ((s.die 0).grids.filter (fun y => !y.dispatched))[0]? = some gDev ∧ inPool s gDev = false := by decide +kernel
/-- Another launch of the pool is before it. -/
theorem witness_Grids_before :
    let s := ({ sPend gDev with cmds := [kLaunch .waiting, { kLaunch .waiting with id := 6 }] }).modDie 0
      (fun d => { d with grids := [{ gDev with id := 8, src := .device 6 }, gDev] })
    ((s.die 0).grids.filter (fun y => !y.dispatched))[1]? = some gDev ∧ Launched s gDev ∧ poolBefore s 0 gDev = true :=
  ⟨by decide +kernel, ⟨Or.inr ⟨5, rfl, fun c h => by cases h; exact ⟨rfl, rfl⟩⟩, fun _ h => by cases h; decide +kernel⟩, by decide +kernel⟩
theorem witness_Grids_unreadable :
    (∀ y ∈ [gPend, gDev], (((sPend y).die 0).grids.filter (fun z => !z.dispatched))[0]? = some y ∧ poolBefore (sPend y) 0 y = false) ∧
      readLaunch (sPend gPend) 0 gPend.grec = .error .transl ∧ readLaunch (sPend gDev) 0 gDev.grec = .error .transl ∧ Launched (sPend gPend) gPend ∧
      Launched (sPend gDev) gDev :=
  ⟨by decide +kernel, rfl, rfl, launched_packet _, launched_device (fun s => s) rfl⟩
theorem witness_Grids_busy : poolBefore (withTab 0x82 (sPend gPend)) 0 gPend = false ∧ readLaunch (withTab 0x82 (sPend gPend)) 0 gPend.grec = .error (.busy .page) :=
  ⟨by decide +kernel, by rfl⟩
/-- A record of zeros names no core, and more. -/
theorem witness_Grids_illegal :
    (∃ q, readLaunch (withTab 2 (sPend gPend)) 0 gPend.grec = .ok q ∧ (!recordOk q.2.1 && q.1.cmds == (withTab 2 (sPend gPend)).cmds) = true) ∧
      ∃ q, readLaunch (withTab 2 (sPend gDev)) 0 gDev.grec = .ok q ∧ (!recordOk q.2.1 && q.1.cmds == (withTab 2 (sPend gDev)).cmds) = true :=
  ⟨ok_sat _ (by decide +kernel), ok_sat _ (by decide +kernel)⟩
/-- What `LaunchBad` says, as a test. -/
def goodB (s : State) (r b : List Byte) : Bool :=
  recordOk r && descOk b (imageOf s 0 (BitVec.ofNat 64 (fieldAt r 0 8))) && declsOk s (fieldAt r 0 8) (imageOf s 0 (BitVec.ofNat 64 (fieldAt r 0 8))) &&
    decide (4096 + 8192 * fieldAt b 25 1 ≤ (s.die 0).csz.toNat * 65536)
theorem good_of {s : State} {y : Grid} {r b : List Byte} (h : goodB s r b = true) (ha : y.grec.toNat % 64 = 0) : ¬ LaunchBad s 0 y r b := by
  simp only [goodB, Bool.and_eq_true, decide_eq_true_eq] at h
  obtain ⟨⟨⟨h1, h2⟩, h3⟩, h4⟩ := h
  simp only [LaunchBad, h1, h2, h3, ha]
  simpa using h4
theorem witness_Grids_dispatch :
    (∀ y ∈ [gPend, gDev], poolBefore (legal (sPend y)) 0 y = false) ∧ Launched (legal (sPend gDev)) gDev ∧
      ∀ y ∈ [gPend, gDev], ∃ q, readLaunch (legal (sPend y)) 0 y.grec = .ok q ∧ ¬ LaunchBad q.1 0 y q.2.1 q.2.2.2.1 ∧
        placeAll q.1 0 (fieldAt q.2.1 40 2) (fieldAt q.2.2.2.1 27 1) (BitVec.ofNat 12 (fieldAt q.2.1 42 2)) = some ([0], []) ∧
        fieldAt q.2.1 40 2 = 1 ∧ q.1.grid? 0 y.id = some y ∧ fieldAt q.2.1 45 1 < q.1.stks.length := by
  refine ⟨by decide +kernel, launched_device legal rfl, fun y hy => ?_⟩
  have h : ∃ q, readLaunch (legal (sPend y)) 0 y.grec = .ok q ∧ (goodB q.1 q.2.1 q.2.2.2.1 && decide (y.grec.toNat % 64 = 0) &&
      decide (placeAll q.1 0 (fieldAt q.2.1 40 2) (fieldAt q.2.2.2.1 27 1) (BitVec.ofNat 12 (fieldAt q.2.1 42 2)) = some ([0], []) ∧
        fieldAt q.2.1 40 2 = 1 ∧ q.1.grid? 0 y.id = some y ∧ fieldAt q.2.1 45 1 < q.1.stks.length)) = true := by
    simp only [List.mem_cons, List.not_mem_nil, or_false] at hy
    rcases hy with rfl | rfl <;> exact ok_sat _ (by decide +kernel)
  obtain ⟨q, h1, h2⟩ := h
  simp only [Bool.and_eq_true, decide_eq_true_eq] at h2
  exact ⟨q, h1, good_of h2.1.1 h2.1.2, h2.2⟩
/-- The kernel asks for a carve that no core of the cluster has, and every one is hot. -/
def sHot : State :=
  let s := legal ((sPend gPend).modDie 0 (fun d => { d with cores := (List.range 8).map (fun k => (k, { ({} : Core) with hot := true })) }))
  { s with mem := (s.mem.takeWhile (fun x => x.1 < 0x211B)) ++ [(0x211B, 1)] ++ s.mem.dropWhile (fun x => x.1 < 0x211B) }
theorem witness_Grids_waits :
    ∃ q, readLaunch sHot 0 gPend.grec = .ok q ∧ (goodB q.1 q.2.1 q.2.2.2.1 &&
      (placeAll q.1 0 (fieldAt q.2.1 40 2) (fieldAt q.2.2.2.1 27 1) (BitVec.ofNat 12 (fieldAt q.2.1 42 2)) == none)) = true := ok_sat _ (by decide +kernel)
/-- An image whose kernel at 0x2100 declares space 3 as it was created, or with another dimension. -/
theorem witness_Grids_declared :
    let s := { legal (sPend gPend) with spaces := [(3, space0)] }
    ∀ n ∈ [1, 2], declsOk s 0x2100 (some { (default : Image) with lo := 0x2100, decls := [{ sp := 3, dim := n, per := 0, elems := 16, slot := 64, kernel := 0 }] }) =
      (n == 1) := by decide +kernel
/-- A grid whose one workgroup has exited, or has not, with a completion signal at `a`. -/
def gOver (a : W64) (src : GridSrc) : Grid := { id := 7, grec := 0x2000, src := src, dispatched := true, wgs := [0], sig := a, sigv := 1 }
def sOver (e : Bool) (y : Grid) : State :=
  withTab 2 (((sCmd (kLaunch .running)).modDie 0 (fun d => { d with wgs := [(9, { wg0 (wr fr) with exited := true }), (0, { wg0 (wr fr) with exited := e })] })).modDie 0 (fun d => { d with grids := [y] }))
theorem witness_Grids_complete :
    (∀ v ∈ [((0 : W64), GridSrc.packet 3 5 0), (0, .device 5), (0x2000, .packet 3 5 0), (0x2000, .device 5)],
      (sOver true (gOver v.1 v.2)).grid? 0 7 = some (gOver v.1 v.2) ∧ gridOver (sOver true (gOver v.1 v.2)) 0 (gOver v.1 v.2) = true ∧
        (0 : Nat) < (sOver true (gOver v.1 v.2)).dies.length) ∧
    Source (sOver true (gOver 0 (.device 5))) (gOver 0 (.device 5)) ∧
    (∃ u, homeAtomic (sOver true (gOver 0x2000 (.packet 3 5 0))) 0 0x2000 (fun v => v + 1) = .ok u ∧ Source u (gOver 0x2000 (.packet 3 5 0))) ∧
    homeAtomic (sOver true (gOver 0x800000000 (.packet 3 5 0))) 0 0x800000000 (fun v => v + 1) = .error .transl ∧
    (∃ u, homeAtomic (sOver true (gOver 0x2000 (.device 5))) 0 0x2000 (fun v => v + 1) = .ok u ∧ (u.cmds == [kLaunch .running]) = true) := by
  refine ⟨by decide +kernel, Or.inr ⟨5, rfl, fun c h => by cases h; exact ⟨rfl, rfl⟩⟩, ?_, by rfl, ok_sat _ (by decide +kernel)⟩
  obtain ⟨u, h, -⟩ := ok_sat (x := homeAtomic (sOver true (gOver 0x2000 (.packet 3 5 0))) 0 0x2000 (fun v => v + 1)) (fun _ => true) (by decide +kernel)
  exact ⟨u, h, Or.inl ⟨3, 5, 0, rfl, by decide⟩⟩
/-- The handle of a device-side launch, whose status its end sets. -/
theorem witness_Grids_complete_handle :
    let s := sOver true (gOver 0 (.device 5))
    ∃ x, s.cmd? 5 = some (kLaunch .running) ∧ (kLaunch .running).cw = none ∧ (kLaunch .running).queue = 64 ∧ Tab.get? (s.core 0 0).handles 3 = some x ∧
      x.used = true ∧ x.seq = (kLaunch .running).hseq := ⟨_, by decide +kernel, rfl, rfl, rfl, rfl, rfl⟩
theorem witness_Grids_signal :
    ∃ q, xlat (sOver true (gOver 0x2000 (.packet 3 5 0))) 0 0x2000 .at = .ok q ∧
      ((reach q.1 { die := 0 } 0x2000 q.2).isNone && !q.2.al && !isPois q.1 q.2.pa 8 && !inHost q.2.pa) = true := ok_sat _ (by decide +kernel)
theorem witness_Grids_notOver : (gOver 0 (.packet 3 5 0)).jobs = [] ∧ gridOver (sOver false (gOver 0 (.packet 3 5 0))) 0 (gOver 0 (.packet 3 5 0)) = false := by
  decide +kernel
/-- A bin with one record in the scratchpad. -/
def bin0 : Bin := { pc := 0x10000, lcnt := 0, turn := 0, rsz := 0, recs := [(0, ⟨true, 0⟩)], last := 0, ripe := true }
theorem witness_FormerAndRotation_ripe :
    let g := { wg0 (wr fr) with bins := [bin0] }
    let s := { st g with tick := 1024 }
    s.wg? 0 0 = some g ∧ g.core = 0 ∧ g.bins[0]? = some bin0 ∧ bin0.last + 1024 ≤ s.cycOf 0 0 := by decide +kernel
theorem witness_FormerAndRotation_start :
    let g := { wg0 (wr fr) with bins := [bin0], nslot := 2 }
    ∃ s1 ts flt, (st g).wg? 0 0 = some g ∧ g.resident = true ∧ freeSlot g = some 1 ∧ ripeBin g = some bin0 ∧
      readRecs { die := 0, core := some 0, l1 := true, holds := g.fwalk, who := .former 0 0 } 0 ((bin0.recs.take 32).map (·.2)) (st g) [] none = .ok (s1, ts, flt) := ⟨_, _, _, rfl, rfl, rfl, rfl, rfl⟩
theorem witness_FormerAndRotation_swap :
    let w := wr { fr with wait := .bar 0 }
    let g := { wg0 w with bins := [bin0] }
    (st g).wg? 0 0 = some g ∧ freeSlot g = none ∧ (∃ b ∈ g.bins, b.recs ≠ []) ∧ (∀ x ∈ g.warps, x.2.preW = false ∧ x.2.entered = false) ∧
      g.preReq = false ∧ (sortBy (fun (a b : Nat × Warp) => decide (a.2.parkedAt < b.2.parkedAt)) (g.warps.filter (fun x => barParked x.2))).head? = some (0, w) := by
  decide +kernel
theorem witness_FormerAndRotation_wanted :
    let s := sA.modDie 0 (fun d => { d with cores := [(0, { ({} : Core) with rotWant := true })] })
    (0 : Nat) < s.dies.length ∧ (s.core 0 0).rotWant = true := by decide +kernel
/-- At the time `n`, a workgroup waits to come in, or (`stuck`) both are parked, one of them at `acq`. -/
def sRot (n : Nat) (stuck : Bool) : State :=
  { sA with tick := n }.modDie 0 (fun d => { d with wgs := [(0, wg0 (wr { fr with wait := if stuck then .jn else .none })),
    (1, { wg0 (wr { fr with wait := if stuck then .acq else .none }) with resident := stuck, started := stuck })] })
theorem witness_FormerAndRotation_due :
    ∀ b ∈ [false, true],
      ∃ e, (0 : Nat) < (sRot (2 ^ 20) b).dies.length ∧ ((sRot (2 ^ 20) b).core 0 0).rotWant = false ∧
        (incoming (sRot (2 ^ 20) b) 0 0 ≠ [] ∨ coreStuck (residents (sRot (2 ^ 20) b) 0 0) = true) ∧ (incoming (sRot (2 ^ 20) b) 0 0 = [] ∨ b = false) ∧
        ((sRot (2 ^ 20) b).core 0 0).lastRot + 2 ^ 20 ≤ (sRot (2 ^ 20) b).cycOf 0 0 ∧
        (sortBy victimLt ((residents (sRot (2 ^ 20) b) 0 0).filter (fun x => !x.2.preReq))).head? = some e := by
  intro b hb
  simp only [List.mem_cons, List.not_mem_nil, or_false] at hb
  rcases hb with rfl | rfl <;> exact ⟨_, by decide +kernel, by decide +kernel, by decide +kernel, by decide +kernel, by decide +kernel, rfl⟩
theorem witness_FormerAndRotation_comesIn :
    ∃ g, ((sRot 0 false).core 0 0).rotWant = false ∧ (sRot 0 false).cycOf 0 0 < ((sRot 0 false).core 0 0).lastRot + 2 ^ 20 ∧
      incoming (sRot 0 false) 0 0 = (1, g) :: [] ∧ g.started = false := ⟨_, by decide +kernel, by decide +kernel, rfl, rfl⟩
/-- Swapped out by rotation 2, not yet resident, and swapped out by rotation 3, which is the last. -/
theorem witness_FormerAndRotation_classes :
    rotClass 3 { wg0 (wr fr) with outRot := 2 } < rotClass 3 { wg0 (wr fr) with started := false } ∧
      rotClass 3 { wg0 (wr fr) with started := false } < rotClass 3 { wg0 (wr fr) with outRot := 3 } := by decide

/-! Traps and the system. -/

/-- A guard on k4 bit 0, which is clear. -/
def gk : Hdr := ⟨false, false, true, 4, 0⟩
theorem witness_UniformWordsSkip : uniForm (.rgn gk) = some (gk, []) ∧ UniSkips gk [] sA (cx sA) := ⟨rfl, begins_of (by decide +kernel), by decide +kernel, by decide +kernel, by decide +kernel⟩
theorem witness_UniformWordsSkip_marker :
    uniForm (.bar gk 0) = some (gk, []) ∧ uniForm (.ldskH gk (.k 4) (.imm (.k 5) 0)) = some (gk, [.k 5]) ∧ uniForm (.sand gk 0 (.z 3) (.z 1) (.z 2)) = some (gk, []) ∧
      UniSkips gk [.k 5] sA (cx sA) := ⟨rfl, rfl, rfl, begins_of (by decide +kernel), by decide +kernel, by decide +kernel, by decide +kernel⟩
theorem witness_UniformWordsSkip_act :
    actForm sA (cx sA) (.ldk gk .b32 none (.k 4) (.imm (.k 5) 0)) = some (gk, true, [.k 5]) ∧ actForm sA (cx sA) (.klook gk (.k 4) (.k 5) (.k 6)) = some (gk, true, [.k 5]) ∧
      actForm sA (cx sA) (.kpar gk (.w 4) (.k 5)) = some (gk, false, [.k 5]) ∧ Begins gk.sw (kRegs (guardOpd gk :: [.k 4, .k 5])) sA (cx sA) ∧
      ∀ u ∈ [false, true], memThreads (cx sA) gk u = [] ∧ firstPois (cx sA) (if u then [0] else maskList (cx sA).p.am) [guardOpd gk] = none ∧ firstPois (cx sA) [] [] = none :=
  ⟨rfl, rfl, rfl, begins_of (by decide +kernel), by decide +kernel⟩
theorem witness_UniformWordsSkip_collective :
    ∃ r, collOf (.vote gk 0 (.k 4) (.k 5) (.k 6)) = some r ∧ r.d.isK = true ∧ UniSkips r.h (r.srcs.map (·.o)) sA (cx sA) :=
  ⟨_, rfl, rfl, begins_of (by decide +kernel), by decide +kernel, by decide +kernel, by decide +kernel⟩
theorem witness_TrapEntry : ctxOf sA sA.cur = some (cx sA) ∧ (cx sA).p.masked = false := ⟨ctx_of rfl, rfl⟩
theorem witness_TrapAndSystemWords_trap :
    UniRuns tp [] sA (cx sA) ∧ (cx sA).p.masked = false ∧ (sA.die (cx sA).f.die).bkh = false ∧ (cx sA).p.inH = false :=
  ⟨uni_of (by decide +kernel), rfl, rfl, rfl⟩
theorem witness_TrapAndSystemWords_halt :
    let s := sA.modDie 0 (fun d => { d with bkh := true })
    UniRuns tp [] s (cx s) ∧ (s.die (cx s).f.die).bkh = true := ⟨uni_of (by decide +kernel), rfl⟩
theorem witness_TrapAndSystemWords_tret :
    let s := sF (fun p => { p with inH := true, masked := true, trapcause := 0x10000 * 128 })
    UniRuns tp [] s (cx s) ∧ (cx s).p.inH = true := ⟨uni_of (by decide +kernel), rfl⟩
/-- `tret.to` outside a handler, and in one with a misaligned and an aligned address. -/
def sTo (inH : Bool) (a : W64) : State := st (wg0 { wr { fr with inH := inH } with k := [(4, a)] })
theorem witness_TrapAndSystemWords_tretTo :
    (UniRuns tp [.k 4] (sTo false 8) (cx (sTo false 8)) ∧ (cx (sTo false 8)).p.inH = false ∧ (cx (sTo false 8)).p.masked = false) ∧
    (UniRuns tp [.k 4] (sTo true 4) (cx (sTo true 4)) ∧ (cx (sTo true 4)).p.inH = true ∧ kNat (sTo true 4) (cx (sTo true 4)) (.k 4) % 8 ≠ 0 ∧
      (cx (sTo true 4)).p.masked = false) ∧
    (UniRuns tp [.k 4] (sTo true 8) (cx (sTo true 8)) ∧ kNat (sTo true 8) (cx (sTo true 8)) (.k 4) % 8 = 0) :=
  ⟨⟨uni_of (by decide +kernel), rfl, rfl⟩, ⟨uni_of (by decide +kernel), rfl, by decide +kernel, rfl⟩,
    uni_of (by decide +kernel), by decide +kernel⟩
theorem witness_TrapAndSystemWords_double :
    let s := st (wg0 (wr { fr with am := 3, masked := true } { fr with uid := 2, am := 0xC }))
    ctxOf s s.cur = some (cx s) ∧ (cx s).p.masked = true ∧ (cx s).w.task = none ∧ ((cx s).w.slot (!s.cur.s1)).occ = true ∧
      ((cx s).w.slot (!s.cur.s1)).wait ≠ .jn := ⟨ctx_of rfl, by decide +kernel⟩
theorem witness_WatchdogAndPreemption_watchdog :
    let s := sF (fun p => { p with wdt := some 0x10000 })
    ctxOf s s.cur = some (cx s) ∧ (cx s).p.wdDue = some 0x10000 ∧ (cx s).g.resident = true ∧ (cx s).p.stopped = false ∧
      (s.die 0).halt = false ∧ (cx s).p.wait.parked = false ∧ (cx s).p.masked = false := ⟨ctx_of rfl, by decide +kernel⟩
theorem witness_WatchdogAndPreemption_request :
    let s := sA.modDie 0 (fun d => { d with preWant := [0] })
    ∃ g, s.wg? 0 0 = some g ∧ g.core = 0 ∧ 0 ∈ (s.die 0).preWant ∧ g.resident = true ∧ g.exited = false ∧ g.preReq = false := ⟨_, rfl, by decide +kernel⟩
/-- A stopped warp that is asked to leave: alone (`pre`), or of a workgroup that is. Its context area lies at 0x4000. -/
def gPre (pre : Bool) : Wg :=
  { wg0 { wr { fr with stopped := true } with preW := !pre } with preReq := pre, ctx := 0x4000, nslot := 2 }
def sPre (pre : Bool) : State := withTab 2 (st (gPre pre))
theorem witness_WatchdogAndPreemption_enter :
    let s := sPre false
    let f : FragRef := ⟨0, 0, 0, 0, false⟩
    ∃ x s2, MayEnter s f (gPre false) x ∧ ¬ ((gPre false).preReq = true ∧ ∀ e ∈ (gPre false).warps, 0 ≤ e.1) ∧
      (idxWhere 32 (fun j => (x.thread j).live)).foldlM (fun (s : State) (j : Nat) => spillOld s f j 1) s = .ok s ∧ s.warp? f = some x ∧
      vwrite s (saver 0 0 (gPre false) x) (warpArea s 0 (gPre false) (saveArea (gPre false) 0)).toNat (warpBytes x) = .ok s2 ∧ (s2.warp? f == some x) = true := by
  obtain ⟨s2, h, h2⟩ := ok_sat (x := vwrite (sPre false) (saver 0 0 (gPre false) { wr { fr with stopped := true } with preW := true })
      (warpArea (sPre false) 0 (gPre false) (saveArea (gPre false) 0)).toNat (warpBytes { wr { fr with stopped := true } with preW := true }))
    (fun s2 => s2.warp? ⟨0, 0, 0, 0, false⟩ == some { wr { fr with stopped := true } with preW := true }) (by decide +kernel)
  exact ⟨_, s2, ⟨rfl, rfl, rfl, Or.inr rfl, rfl, rfl, by decide +kernel⟩, by decide +kernel, rfl, rfl, h, h2⟩
theorem witness_WatchdogAndPreemption_last :
    let s := sPre true
    let f : FragRef := ⟨0, 0, 0, 0, false⟩
    ∃ x s2, MayEnter s f (gPre true) x ∧ (gPre true).preReq = true ∧
      (∀ e ∈ (gPre true).warps, 0 ≤ e.1 ∧ (e.1 ≠ 0 → e.2.entered = true ∨ e.2.swapped = true)) ∧
      (idxWhere 32 (fun j => (x.thread j).live)).foldlM (fun (s : State) (j : Nat) => spillOld s f j 1) s = .ok s ∧
      vwrite s (saver 0 0 (gPre true) x) (warpArea s 0 (gPre true) (saveArea (gPre true) 0)).toNat (warpBytes x) = .ok s2 ∧
      ((vwrite s2 (saver 0 0 (gPre true) x) (wgArea s2 0 (gPre true)) (wgBytes (gPre true))).toOption.any (fun s3 => s3.warp? f == some x)) = true := by
  obtain ⟨s2, h, h2⟩ := ok_sat (x := vwrite (sPre true) (saver 0 0 (gPre true) { wr { fr with stopped := true } with preW := false })
      (warpArea (sPre true) 0 (gPre true) (saveArea (gPre true) 0)).toNat (warpBytes { wr { fr with stopped := true } with preW := false }))
    (fun s2 => (vwrite s2 (saver 0 0 (gPre true) { wr { fr with stopped := true } with preW := false }) (wgArea s2 0 (gPre true)) (wgBytes (gPre true))).toOption.any
      (fun s3 => s3.warp? ⟨0, 0, 0, 0, false⟩ == some { wr { fr with stopped := true } with preW := false })) (by decide +kernel)
  exact ⟨_, s2, ⟨rfl, rfl, rfl, Or.inl rfl, rfl, rfl, by decide +kernel⟩, rfl, by decide +kernel, rfl, h, h2⟩
theorem witness_WatchdogAndPreemption_overdue :
    let g := { wg0 (wr fr) with preReq := true }
    let s := { st g with tick := 0x100000 }
    s.wg? 0 0 = some g ∧ g.core = 0 ∧ g.preOver = false ∧ (s.die 0).halt = false ∧ g.preAt + (s.die 0).dl.toNat ≤ s.cycOf 0 0 ∧
      ((s.modDie 0 (fun x => { x with halt := true })).die 0).halt = true := by decide +kernel
theorem witness_WatchdogAndPreemption_die : (3 : Nat) < State.reset.dies.length := by decide +kernel
/-- A workgroup that has been swapped out and may come in; its blocks read zero. -/
def gOut : Wg := { wg0 { wr fr with swapped := true } with resident := false, ctx := 0x4000 }
/-- The same, with the byte of its block that asks for the whole allotment. -/
def sOutMem (n : Byte) : State :=
  let s := withTab 2 (st gOut)
  { s with mem := if n = 0 then s.mem else (wgArea s 0 gOut + 352, n) :: s.mem }
theorem witness_RestoreAndResume_restore :
    ∀ n ∈ [(0 : Byte), 0x10], (sOutMem n).wg? 0 0 = some gOut ∧ mayRestore (sOutMem n) 0 0 0 gOut = true ∧ ((sOutMem n).die 0).halt = false ∧
      ∃ q, vread (sOutMem n) { die := 0, core := some 0, holds := gOut.fwalk, who := .former 0 0 } (wgArea (sOutMem n) 0 gOut) 368 = .ok q ∧
        (q.1.wg? 0 0 == some gOut && bitAt (fieldAt q.2.1 352 8) 4 == (n != 0)) = true := by
  intro n hn
  simp only [List.mem_cons, List.not_mem_nil, or_false] at hn
  rcases hn with rfl | rfl <;> exact ⟨by decide +kernel, by decide +kernel, rfl, ok_sat _ (by decide +kernel)⟩
def sCtx (sys : Bool) : State := withTab 2 (st (wg0 { wr { fr with sys := sys, masked := sys } with k := [(4, 0x4000)] }))
theorem witness_RestoreAndResume_tretCtx :
    UniRuns tp [.k 4] (sCtx true) (cx (sCtx true)) ∧ (cx (sCtx true)).p.sys = true ∧ resultsOut (sCtx true) (cx (sCtx true)).p.uid = false ∧
      ownHeld (sCtx true) (cx (sCtx true)).f (cx (sCtx true)).p.uid (kNat (sCtx true) (cx (sCtx true)) (.k 4)) 192 false = false ∧
      ∃ q, vread (sCtx true) (ownAgent (sCtx true) (cx (sCtx true)).f) (kNat (sCtx true) (cx (sCtx true)) (.k 4)) 192 = .ok q ∧
        (q.1.warp? default == some (cx (sCtx true)).w) = true :=
  ⟨uni_of (by decide +kernel), rfl, rfl, by decide +kernel, ok_sat _ (by decide +kernel)⟩
theorem witness_RestoreAndResume_user :
    UniRuns tp [.k 4] (sCtx false) (cx (sCtx false)) ∧ (cx (sCtx false)).p.sys = false ∧ (cx (sCtx false)).p.masked = false :=
  ⟨uni_of (by decide +kernel), rfl, rfl⟩

/-! The host. -/

/-- The packet `i` alone in the beat of die 0, in the lane of queue 2. -/
def sBeat (i : Instr) : State := withTab 2 (sA.modDie 0 (fun d => { d with beat := [(2, i)], queues := [(2, { en := true, lsz := 4, wr := 3 })] }))
def pNop : Instr := .nopPacket 0 2 false 1
def pSig (va : W64) : Instr := .signal 0 2 false 1 va 5 false
def pWait : Instr := .waitSignal 0 2 false 1 0x2000 0 0
theorem witness_Packets_order : packetAt pNop = some (0, 2) ∧ (2, pNop) ∉ ((beatOf sA 0).die 0).beat ∧
    ∃ e ∈ ((beatOf (sBeat pWait) 0).die 0).beat, packetType e.2 < packetType pNop ∨ e.2 = pWait := ⟨rfl, by decide +kernel, (2, pWait), by decide +kernel⟩
theorem witness_Packets_nop : InBeat (sBeat pNop) 0 2 pNop := ⟨by decide +kernel, by decide +kernel⟩
theorem witness_Packets_signal :
    InBeat (sBeat (pSig 0x2000)) 0 2 (pSig 0x2000) ∧ ∃ q, xlat (parsed (sBeat (pSig 0x2000)) 0 2 (pSig 0x2000)) 0 0x2000 .at = .ok q ∧
      ((reach q.1 { die := 0 } 0x2000 q.2).isNone && !q.2.al && !isPois q.1 q.2.pa 8 && !inHost q.2.pa) = true :=
  ⟨⟨by decide +kernel, by decide +kernel⟩, ok_sat _ (by decide +kernel)⟩
theorem witness_Packets_wait :
    InBeat (sBeat pWait) 0 2 pWait ∧ ∃ q, vrdN (parsed (sBeat pWait) 0 2 pWait) { die := 0 } 0x2000 8 = .ok q ∧ (waitHolds 0 q.2 0) = true :=
  ⟨⟨by decide +kernel, by decide +kernel⟩, ok_sat _ (by decide +kernel)⟩
/-- The comparison does not hold, in a queue that is enabled, or not. -/
def pWaits : Instr := .waitSignal 0 2 false 1 0x2000 1 0
def sWaits (en : Bool) : State := (sBeat pWaits).modDie 0 (fun d => { d with queues := [(2, { en := en, lsz := 4, wr := 3 })] })
theorem witness_Packets_waits :
    ∀ en ∈ [false, true], InBeat (sWaits en) 0 2 pWaits ∧ ((beatOf (sWaits en) 0).queue 0 2).on = en ∧
      ∃ q, vrdN (parsed (sWaits en) 0 2 pWaits) { die := 0 } 0x2000 8 = .ok q ∧ (!waitHolds 0 q.2 1) = true := by
  intro en he
  simp only [List.mem_cons, List.not_mem_nil, or_false] at he
  rcases he with rfl | rfl <;> exact ⟨⟨by decide +kernel, by decide +kernel⟩, by decide +kernel, ok_sat _ (by decide +kernel)⟩
theorem witness_Packets_waitMet :
    let w : WaitSig := ⟨0x2000, 0, 0, 1, 0, false⟩
    ∀ en ∈ [false, true],
      let s := withTab 2 (sA.modDie 0 (fun d => { d with queues := [(2, { en := en, lsz := 4, blocked := some w })] }))
      (s.queue 0 2).blocked = some w ∧ w.met = false ∧ (s.queue 0 2).on = en ∧ ∃ q, vrdN s { die := 0 } 0x2000 8 = .ok q ∧ (waitHolds w.cond q.2 0) = true := by
  intro w en he
  simp only [List.mem_cons, List.not_mem_nil, or_false] at he
  rcases he with rfl | rfl <;> exact ⟨by decide +kernel, rfl, by decide +kernel, ok_sat _ (by decide +kernel)⟩
theorem witness_Packets_waitSeen :
    let w : WaitSig := ⟨0x2000, 0, 0, 1, 0, true⟩
    let s := withTab 2 (sA.modDie 0 (fun d => { d with queues := [(2, { en := true, blocked := some w })] }))
    0 < s.dies.length ∧ (s.queue 0 2).blocked = some w ∧ w.met = true := by decide +kernel
theorem witness_Packets_launch :
    ∀ i ∈ [Instr.launch 0 2 false 1 0x2000, .copy 0 2 false 1 0x2000 0x3000 64 0 0, .copy 0 2 false 1 0x2000 0x3000 64 0x2004 0, .pageMove 0 2 false 1 0 0 1 0 0 0 0, .pageMove 0 2 false 1 0 0 1 0 1 0x2000 0,
      .eventConfig 0 2 false 1 0x2000 5 0], InBeat (sBeat i) 0 2 i := by
  intro i hi
  simp only [List.mem_cons, List.not_mem_nil, or_false] at hi
  rcases hi with rfl | rfl | rfl | rfl | rfl | rfl <;> exact ⟨by decide +kernel, by decide +kernel⟩
/-- A launch at the head of queue 63, whose share stands beside it. -/
def pL63 : Instr := .launch 0 63 false 1 0x2000
def sL63 : State := withTab 2 (sA.modDie 0 (fun d => { d with
  beat := [(63, pL63)]
  queues := [(63, { en := true, lsz := 4, wr := 1 })]
  spanQ := [⟨0x2000, 0, 9, 128, 0⟩] }))
theorem witness_Packets_share :
    InBeat sL63 0 63 pL63 ∧ ((beatOf sL63 0).die 0).spanQ.find? (fun e => e.ix == rdOf sL63 0 63) = some ⟨0x2000, 0, 9, 128, 0⟩ :=
  ⟨⟨by decide +kernel, by decide +kernel⟩, by decide +kernel⟩
/-- The group ring at `base`, with one packet of the type `ty` at 0x4000, whose shares are 128 and `b`; queue 63 of dies 0 and 1 has a ring. -/
def sSpan (base : W64) (ty b : Byte) : State :=
  let s := withTab 2 (sA.modDie 0 (fun d => { d with queues := [(63, { en := true, lsz := 4, base := 0x3000 })] }))
  { s.modDie 1 (fun d => { d with queues := [(63, { en := true, lsz := 4, base := 0x3000 })] }) with
    grp := { en := true, lsz := 4, wr := 1, base := base }, mem := [(0x4000, ty), (0x4001, 1), (0x4004, 1), (0x4028, 128), (0x4029, b)] ++ s.mem }
theorem span_no {x : Except Nat Instr} {n : Nat} (h : (match x with | .ok _ => false | .error e => e == n) = true) : x = .error n := by
  cases x with
  | ok a => exact nomatch h
  | error e => exact congrArg _ (of_decide_eq_true h)
theorem span_ok {x : Except Nat Instr} {i : Instr} (h : (match x with | .ok a => a == i | .error _ => false) = true) : x = .ok i := by
  cases x with
  | ok a => exact congrArg _ (eq_of_beq h)
  | error e => exact nomatch h
def pSpan (b : Byte) : Instr := .spanLaunch false 1 [0, 0, 0, 0] [128, b, 0, 0] 0 0
theorem witness_Packets_span_unbacked :
    (sSpan 0x7000000000000 4 128).grp.open_ = true ∧ (sSpan 0x7000000000000 4 128).grp.rd ≠ (sSpan 0x7000000000000 4 128).grp.wr ∧
      backed ((sSpan 0x7000000000000 4 128).grp.at_ (sSpan 0x7000000000000 4 128).grp.rd) 64 = false := by decide +kernel
theorem witness_Packets_span :
    (∀ v ∈ [((4 : Byte), (128 : Byte)), (4, 1), (1, 128), (0, 128)], (sSpan 0x4000 v.1 v.2).grp.open_ = true ∧ (sSpan 0x4000 v.1 v.2).grp.rd ≠ (sSpan 0x4000 v.1 v.2).grp.wr ∧
      (sSpan 0x4000 v.1 v.2).grp.at_ (sSpan 0x4000 v.1 v.2).grp.rd = 0x4000 ∧ backed 0x4000 64 = true ∧ isPois (sSpan 0x4000 v.1 v.2) 0x4000 64 = false ∧
      groupBusy (sSpan 0x4000 v.1 v.2) 0x4000 = false ∧ bitAt (rdN (sSpan 0x4000 v.1 v.2) 0x4002 1) 0 = false) ∧
    spanOfPacket (rdBytes (sSpan 0x4000 0 128) 0x4000 64) = .error 1 ∧ spanOfPacket (rdBytes (sSpan 0x4000 1 128) 0x4000 64) = .error 3 ∧
    spanOfPacket (rdBytes (sSpan 0x4000 4 1) 0x4000 64) = .ok (pSpan 1) ∧ sumN (([128, 1, 0, 0] : List Byte).map (·.toNat)) ≠ 256 ∧
    spanOfPacket (rdBytes (sSpan 0x4000 4 128) 0x4000 64) = .ok (pSpan 128) ∧ sumN (([128, 128, 0, 0] : List Byte).map (·.toNat)) = 256 ∧
    ∃ u, putShares (sSpan 0x4000 4 128).nextId [0, 0, 0, 0] [128, 128, 0, 0] 1 0 0 (shareDies [128, 128, 0, 0]) { sSpan 0x4000 4 128 with
      nextId := (sSpan 0x4000 4 128).nextId + 1, grp := { (sSpan 0x4000 4 128).grp with rd := (sSpan 0x4000 4 128).grp.rd + 1 } } = .ok u ∧
      (fun _ => true) u = true := by
  refine ⟨fun v hv => ⟨?_, ?_, ?_, by decide +kernel, ?_, ?_, ?_⟩, span_no (by decide +kernel), span_no (by decide +kernel), span_ok (by decide +kernel), by decide +kernel, span_ok (by decide +kernel), by decide +kernel,
    ok_sat _ (by decide +kernel)⟩ <;> simp only [List.mem_cons, List.not_mem_nil, or_false] at hv <;> rcases hv with rfl | rfl | rfl | rfl
  · rfl
  · rfl
  · rfl
  · rfl
  · decide +kernel
  · decide +kernel
  · decide +kernel
  · decide +kernel
  · rfl
  · rfl
  · rfl
  · rfl
  · decide +kernel
  · decide +kernel
  · decide +kernel
  · decide +kernel
  · decide +kernel
  · decide +kernel
  · decide +kernel
  · decide +kernel
  · decide +kernel
  · decide +kernel
  · decide +kernel
  · decide +kernel
theorem witness_Packets_putShare :
    (∃ u, putShare (sSpan 0x4000 4 128) 9 [0, 0, 0, 0] [128, 128, 0, 0] 1 0 0 0 = .ok u ∧ (fun _ => true) u = true) ∧
      ∃ u, vwrite (sSpan 0x4000 4 128) { die := 0 } (((sSpan 0x4000 4 128).queue 0 63).at_ ((sSpan 0x4000 4 128).queue 0 63).wr) (launchBytes 1 0) = .ok u ∧
        (fun _ => true) u = true := ⟨ok_sat _ (by decide +kernel), ok_sat _ (by decide +kernel)⟩
/-- A descriptor of zeros creates no space. -/
def pCreate : Instr := .spaceCreate 0 2 false 1 0x2000 3
theorem witness_Packets_createFails :
    InBeat (sBeat pCreate) 0 2 pCreate ∧ ∃ q, readDesc (parsed (sBeat pCreate) 0 2 pCreate) 0 0x2000 = .ok q ∧
      (q.2.any (fun b => (createSpace q.1 0 3 b).isNone)) = true :=
  ⟨⟨by decide +kernel, by decide +kernel⟩, ok_sat _ (by decide +kernel)⟩
/-- A legal descriptor: one dimension, one part on die 0 with three records, blocks of 32 elements in format 3. -/
def sCreate : State :=
  let s := sBeat pCreate
  { s with mem := [(0x2000, 1), (0x2002, 1), (0x2007, 3), (0x2008, 32), (0x200C, 64), (0x2047, 1), (0x2048, 0xFF), (0x2049, 0xFF), (0x204A, 0xFF),
      (0x204B, 0xFF), (0x204C, 0xFF), (0x204D, 0xFF), (0x204E, 0xFF), (0x204F, 0xFF), (0x2050, 3), (0x2054, 3)] ++ s.mem }
theorem witness_Packets_create :
    InBeat sCreate 0 2 pCreate ∧ ∃ q, readDesc (parsed sCreate 0 2 pCreate) 0 0x2000 = .ok q ∧
      (q.2.any (fun b => (createSpace q.1 0 3 b).isSome)) = true :=
  ⟨⟨by decide +kernel, by decide +kernel⟩, ok_sat _ (by decide +kernel)⟩
def pDestroy : Instr := .spaceDestroy 0 2 false 1 0
theorem witness_Packets_destroy :
    (∀ y ∈ [(space0, true), ({ space0 with rebal := some reb }, false)], 
      InBeat { sBeat pDestroy with spaces := [(0, y.1)] } 0 2 pDestroy ∧ (∀ r ∈ ((sBeat pDestroy).die 0).destroyQ, ¬ (r.queue = 2 ∧ r.tag = 1 ∧ r.sp = 0)) ∧ Tab.get? (beatOf { sBeat pDestroy with spaces := [(0, y.1)] } 0).spaces 0 = some y.1 ∧
      spaceIdle y.1 = y.2) := by
  intro y hy
  simp only [List.mem_cons, List.not_mem_nil, or_false] at hy
  rcases hy with rfl | rfl <;> exact ⟨⟨by decide +kernel, by decide +kernel⟩, by decide +kernel⟩
/-- A record for the ring of die 0: masked, with room, and without. -/
def sEv (msk : BitVec 16) (w since : Nat) : State :=
  sA.modDie 0 (fun d => { d with evEn := true, evBase := 0x8000000000000, evLsz := 6, evWr := BitVec.ofNat 32 w, evMsk := msk, evSince := since
                                 evPend := [evRecord 6 0 0 0 0xFF 1 0 0 0 0 0] })
theorem witness_EventRing :
    let r := evRecord 6 0 0 0 0xFF 1 0 0 0 0 0
    (∀ v ∈ [((0 : BitVec 16), 0), (0x40, 0), (0x40, 64)], ((sEv v.1 v.2 0).die 0).evPend = [r] ∧ ((sEv v.1 v.2 0).die 0).inReset = false) ∧
    ((sEv 0 0 0).die 0).posts r = false ∧ ((sEv 0x40 0 0).die 0).posts r = true ∧ ((sEv 0x40 0 0).die 0).ringRoom = true ∧
    ((sEv 0x40 64 0).die 0).posts r = true ∧ ((sEv 0x40 64 0).die 0).ringRoom = false := by decide +kernel
theorem witness_EventRing_overflow :
    ((sEv 0x40 0 3).die 0).inReset = false ∧ ((sEv 0x40 0 3).die 0).evSince ≠ 0 ∧ ((sEv 0x40 0 3).die 0).ringRoom = true := by decide +kernel

theorem witness_HostRegisters_doorbell :
    let s := sA.modDie 0 (fun d => { d with queues := [(2, { en := true, lsz := 4 })] })
    FnUp s 0 ∧ ¬ ((0 : Nat) < 4 ∧ (2 : Nat) = 63) ∧ ((16 : W32) - (hostQueue s 0 2).rd).toNat ≤ 2 ^ (hostQueue s 0 2).lsz.toNat ∧
      2 ^ (hostQueue s 0 2).lsz.toNat < ((17 : W32) - (hostQueue s 0 2).rd).toNat := ⟨Or.inr (by decide +kernel), by decide +kernel⟩
/-- A queue whose lsz is 0 has one entry. -/
theorem witness_HostRegisters_package : FnUp State.reset 4 ∧ 2 ^ (hostQueue State.reset 4 0).lsz.toNat < ((2 : W32) - (hostQueue State.reset 4 0).rd).toNat :=
  ⟨Or.inl rfl, by decide +kernel⟩
theorem witness_HostRegisters_tlb :
    (State.reset.die 3).inReset = false ∧ (State.reset.die 3).tlbinv.getLsbD 0 = false ∧
      ((State.reset.modDie 0 (fun d => { d with tlbinv := 0x301 })).die 0).tlbinv.getLsbD 0 = true := by decide +kernel
theorem witness_HostRegisters_die : (7 : Nat) < State.reset.stks.length ∧ (3 : Nat) < State.reset.dies.length ∧ (State.reset.die 3).inReset = false ∧
    (11 : Nat) < State.reset.ports.length ∧ (∀ off ∈ [0x118, 0x60, 0x80, 0x98, 0x100, 0x8000, 0xA000], off % 8 = 0) := by decide +kernel
/-- A misaligned offset, and an aligned one of four bytes. -/
theorem witness_HostRegisters_unsupported : (0x44 % 8 ≠ 0 ∨ (8 : Nat) ≠ 8) ∧ (0x40 % 8 ≠ 0 ∨ (4 : Nat) ≠ 8) := by decide

/-- A posted write of requester 1 at the ordering point, and the state that holds it. -/
def inb1 (sent : Bool) : Inb := { id := 9, req := 1, addr := 0x2000, data := [1, 2, 3, 4], sent := sent }
def sInb (l : List Inb) : State := { State.reset with inb := l, nextId := 10 }
theorem witness_FabricEvents_write :
    backed 0x10000000000 1 = false ∧ backed 0x10000000000 64 = false ∧ backed 0x2000 1 = true ∧ ((sInb [inb1 true]).inb.filter (fun b => b.rd.isNone)).length < 4096 ∧
      (∀ x ∈ (sInb [inb1 true]).inb, x.req = 1 → x.rd = none → x.ro = true ∨ (x.route = inbRoute (sInb [inb1 true]) 0x2000 ∧ x.sent = true)) := by
  decide +kernel
theorem witness_FabricEvents_held :
    let s := sInb [{ inb1 true with route := 2 }]
    (∀ x ∈ s.inb, x.id ≠ s.nextId) ∧ ∃ x ∈ s.inb, x.req = 1 ∧ x.rd = none ∧ x.ro = false ∧ x.route ≠ inbRoute s 0x2000 :=
  ⟨by decide +kernel, { inb1 true with route := 2 }, by decide +kernel⟩
theorem witness_FabricEvents_read : backed 0x2000 64 = true ∧ ∀ x ∈ (sInb []).inb, x.id ≠ (sInb []).nextId := by decide +kernel
theorem witness_FabricEvents_forward :
    let s := sInb [inb1 false]
    s.inb.find? (fun x => x.id == 9) = some (inb1 false) ∧ inbMay s { inb1 false with route := inbRoute s 0x2000 } = true := by decide +kernel
theorem witness_FabricEvents_home :
    ∀ r ∈ [none, some 4],
      let b : Inb := { inb1 true with rd := r }
      (sInb [b]).acc? 9 = none ∧ (sInb [b]).inb.find? (fun x => x.id == 9) = some b ∧ b.done = false ∧ b.busy = false ∧ inbAhead (sInb [b]) b = false ∧
        port (sInb [b]) 0 0 0x2000 false = .ok ∧ frameBusy (sInb [b]) 0x2000 = false := by decide +kernel
/-- Two inputs request port 2, and none port 1. -/
def mcA : McFlit := ⟨3, 16, 5, 0, true⟩
def mcB : McFlit := ⟨4, 16, 4, 0, true⟩
theorem witness_FabricEvents_fork :
    let s := State.reset.modDie 0 (fun d => { d with mcast := [mcA, mcB], grants := [(2, 3)] })
    (s.die 0).granted 2 = some mcB ∧ (s.die 0).granted 1 = none ∧ (s.die 0).grants.Nodup ∧ (0 : Nat) < s.dies.length := by decide +kernel
/-- A flit for the port of a link, whose table entry is valid or not. -/
theorem witness_FabricEvents_link (p : Nat) (h : p = linkPort 0 1) :
    p < 64 ∧ ∀ v ∈ [(0 : W64), 0x8010],
      let s := State.reset.modDie 0 (fun d => { d with mcast := [⟨3, 16, portBit p, 0, true⟩], egress := [(1040, v)] })
      (s.die 0).granted p = some ⟨3, 16, portBit p, 0, true⟩ ∧ Tab.getD (s.die 0).egress (1024 * 1 + 16) 0 = v := by
  have hp : p < 64 := h ▸ Nat.mod_lt _ (by decide)
  refine ⟨hp, fun v hv => ?_⟩
  clear h
  simp only [List.mem_cons, List.not_mem_nil, or_false] at hv
  revert p
  rcases hv with rfl | rfl <;> decide +kernel
/-- Port 11 up, with one slot to send. -/
def sPort : State :=
  wrBytes { State.reset with ports := List.replicate 11 {} ++ [{ up := true, trn := false, vmaj := 1 }] } (portArea 11) [1]
theorem witness_FabricEvents_port :
    (11 : Nat) < State.reset.ports.length ∧ (State.reset.port 11).up = false ∧ (sPort.port 11).up = true ∧ sPort.ports.length = 12 ∧
      (rdN sPort (portArea 11 + 0x40) 8 + 2 ^ 64 - rdN sPort (portArea 11 + 0x48) 8) % 2 ^ 64 < 255 ∧
      rdN sPort (portArea 11) 8 ≠ rdN sPort (portArea 11 + 8) 8 ∧ (sPort.takeNat ((sPort.port 11).kept.length + 1)).1 = 0 := by
  refine ⟨?_, ?_, ?_, ?_, ?_, ?_, Nat.mod_one _⟩ <;> decide +kernel
/-- Whether the far end asks for a flit again is free. -/
theorem witness_FabricEvents_replay :
    let s : State := { State.reset with ports := List.replicate 11 {} ++ [{ up := true, trn := false, vmaj := 1, kept := [zeros 256] }] }
    (s.port 11).kept.length + 1 = 2 ∧ ((s.takeNat 2).1 = 0 ∨ (s.takeNat 2).1 = 1) := ⟨by decide +kernel, takeNat_two _⟩
theorem witness_SiliconEvents_ecc :
    (3 : Nat) < State.reset.dies.length ∧ stackOf 0x2000 ≠ none ∧ (0x5FFFF : Nat) < 0x60000 ∧
      (∃ l, lineAt (State.reset.modCluster 3 11 (fun x => { x with lines := [(64, { data := zeros 128 })] })) 3 (95 / 8) (0x2000 / 128) = some l) ∧
      ∃ w, sA.warp? ⟨0, 0, 0 / 2 ^ 28, 0 / 2 ^ 21 % 128, false⟩ = some w ∧ 0 / 2 ^ 16 % 32 < w.thr.length :=
  ⟨by decide +kernel, by decide +kernel, by decide, ⟨_, rfl⟩, _, rfl, by decide +kernel⟩
theorem witness_SiliconEvents_kat :
    let s := { State.reset with tick := 16 * 65536 }
    (s.die 0).katEn = true ∧ (s.die 0).halt = false ∧ (s.die 0).inReset = false ∧
      Tab.getD (s.core 0 5).katAt 15 0 + max 1 (s.die 0).katIntv.toNat * 65536 ≤ s.cycOf 0 5 := by decide +kernel
/-- The sensor's three ranges: above 95, below 90, and between. -/
theorem witness_SiliconEvents_sensor :
    let thi := bitsOf (State.reset.die 0).schctl.toNat 8 8
    let hyst := bitsOf (State.reset.die 0).schctl.toNat 16 8
    thi < thi + 1 ∧ (thi - hyst - 1) + hyst < thi ∧ thi ≤ thi + hyst ∧ hyst < thi := by decide +kernel
theorem witness_SiliconEvents_reset :
    (((State.reset.modDie 2 (fun d => { d with cores := [(0, { ({} : Core) with temp := 116 })] })).die 2).cores.any (fun e => decide (e.2.temp > 115))) = true := by
  decide +kernel
/-- An image that was written for die 0's beater, and one that is being written. -/
theorem witness_SiliconEvents_firmware :
    let s := { State.reset with fwNew := [(1, [7])], fwSel := 1 }
    s.fwNew = [(1, [7])] ∧ s.fwSel = 1 ∧ Tab.get? s.fwNew 1 = some [7] ∧ (1 : W64).toNat = 1 := by decide +kernel

/-- A hand-over of stack 0 from die 0 to its other die at a step. -/
def hov0 (n : Nat) : Hov := ⟨5, 0, otherDie 0 0, n⟩
def sHov (n : Nat) : State :=
  { sCmd (cmd (.shovGive 0) .running) with stks := (State.reset.stks).set 0 { owner := 0, hov := if n = 0 then none else some (hov0 n) } }
theorem witness_HandOvers_leave :
    let s := (sCmd (cmd (.shovGive 0) .leave)).modDie 0 (fun d => { d with leaveQ := [(.give 5, 0)] })
    (s.die 0).leaveQ[0]? = some (.give 5, 0) ∧ mayLeave (s.die 0).leaveQ 0 = true ∧ s.cmd? 5 = some (cmd (.shovGive 0) .leave) := by decide +kernel
theorem witness_HandOvers_start :
    let s := sHov 0
    s.cmds.find? (fun x => x.kind == .shovGive 0 && x.st == .running) = some (cmd (.shovGive 0) .running) ∧ otherDie 0 0 < s.dies.length ∧
      (s.stk 0).hov = none ∧ moveOn s 0 (cmd (.shovGive 0) .running).id = false := by decide +kernel
theorem witness_HandOvers_steps :
    (∀ n ∈ [1, 3, 4, 5], (0 : Nat) < (sHov n).stks.length ∧ ((sHov n).stk 0).hov = some (hov0 n) ∧ (hov0 n).step = n) ∧
      drained (sHov 1) 0 0 = true ∧ (hov0 5).take < (sHov 5).dies.length := by decide +kernel
theorem witness_HandOvers_notDrained :
    drained { sHov 1 with accs := [{ ac .store .home with exempt := true }] } 0 0 = false := by decide +kernel

/-- A page move of the page of 2^30 bytes at 2^30, mapped to the same physical addresses, to 2^31. -/
def pm (x : CmdSt) (n : Nat) (old : List (Nat × W64)) : Cmd :=
  { id := 5, die := 0, core := 96, kind := .pmove 0x40000000 0x80000000 1 2, st := x, next := n, old := old }
def sPm (c : Cmd) (hi : Byte) : State :=
  { State.reset.modDie 0 (fun d => { d with pgroot := 0x100001 }) with
    cmds := [c]
    nextId := 10
    mem := [(0x100000, 1), (0x100001, 0x10), (0x100002, 0x10), (0x101000, 1), (0x101001, 0x20), (0x101002, 0x10), (0x102008, 0xF), (0x10200B, 0x40),
      (0x10200F, hi)] }
/-- The leaf that maps the page, and its place. -/
def pmLeaf : Nat × W64 := (0x102008, 0x020000004000000F)
theorem witness_PageMoves_start :
    let s := sPm (pm .waiting 0 []) 2
    s.cmd? 5 = some (pm .waiting 0 []) ∧ pmoveCheck s 0 0x40000000 0x80000000 1 2 false = .ok [pmLeaf] ∧ pszBytes 2 = 2 ^ 30 ∧ s.cmd? s.nextId = none ∧
      (moveStacks 0x80000000 [pmLeaf]).any (moveBehind (pmoveQueue s (pm .waiting 0 []) [pmLeaf]).2 s.nextId) = false ∧ Memory.wf s = true ∧
      stackOf (pteAddr pmLeaf.2) = some 0 ∧ (0 : Nat) < s.stks.length := by decide +kernel
theorem witness_PageMoves_outside : ∀ j, j < 8 → Outside (0x102008 + j) 0x80000000 (2 ^ 30) ∧ Outside (0x102008 + j) 0x40000000 (2 ^ 30) := by
  intro j hj
  exact ⟨Or.inl (by omega), Or.inl (by omega)⟩
theorem witness_PageMoves_checks :
    pmoveCheck (sPm (pm .waiting 0 []) 2) 0 0x40000000 0x40000000 1 2 false = .fail 0x26 ∧ (pm .waiting 0 []).gcw = none ∧
      pmoveCheck (sPm (pm .waiting 0 []) 0x82) 0 0x40000000 0x80000000 1 2 false = .wait := by decide +kernel
/-- A hand-over of stack 0 is under way. -/
theorem witness_PageMoves_behind :
    let s := { sPm (pm .waiting 0 []) 2 with stks := (State.reset.stks).set 0 { owner := 0, hov := some (hov0 1) } }
    pmoveCheck s 0 0x40000000 0x80000000 1 2 false = .ok [pmLeaf] ∧ s.cmd? s.nextId = none ∧
      (moveStacks 0x80000000 [pmLeaf]).any (moveBehind (pmoveQueue s (pm .waiting 0 []) [pmLeaf]).2 s.nextId) = true := by decide +kernel
theorem witness_PageMoves_rewrite :
    let c := pm .running 2 [(0x102008, 0x820000004000000F)]
    MoveAt (sPm c 0x82) c 0x40000000 0x80000000 2 2 .running ∧ rdN (sPm c 0x82) 0x102008 8 = (0x820000004000000F : W64).toNat ∧
      rdN (sPm c 2) 0x102008 8 ≠ (0x820000004000000F : W64).toNat := ⟨⟨rfl, rfl, rfl, rfl⟩, by decide +kernel⟩
/-- A request at its home waits for the busy frame whose move ends. -/
theorem witness_PageMoves_finish :
    let c := pm .running 3 []
    let k : Stack := { owner := 0, busy := [(5, 0x40000000, 0x80000000)] }
    let h : HeldReq := ⟨.die 1, 0x40002000, 0x40002000, false⟩
    let s := { sPm c 2 with stks := (State.reset.stks).set 0 k, accs := [{ ac .store .home with pa := 0x40002000 },
      { ac .store .notOwner with pa := 0x40002000, va := 0x100000040002000 }], hid := [h], vxHome := k }
    MoveAt s c 0x40000000 0x80000000 2 3 .running ∧ c.gcw = none ∧ k ∈ s.stks ∧ k = s.vxHome ∧ h ∈ s.hid ∧ 0x40000000 ≤ h.pa ∧ h.pa < 0x80000000 ∧ h.who ≠ .cmd c.id ∧
      (∃ a ∈ s.accs, 0x40000000 ≤ a.pa ∧ a.pa < 0x80000000 ∧ a.st = .home) ∧
      ∃ a ∈ s.accs, 0x40000000 ≤ a.pa ∧ a.pa < 0x80000000 ∧ a.st = .notOwner ∧ a.va.testBit 56 = true ∧ a.rerouted = false := ⟨⟨rfl, rfl, rfl, rfl⟩, by decide +kernel⟩

/-! The step. -/

/-- `exit` placed where the next step fetches, and a word of a reserved opcode. -/
def sExit : State := State.reset.withFetchWord 64 0x20019C0000000000
def sBad : State := State.reset.withFetchWord 64 0x2003C00000000000
/-- A fetched word that passes a test. -/
theorem word_of {x : Fetched} (p : W64 → Bool) (h : (match x with | .word w _ => p w | _ => false) = true) : ∃ w s, x = .word w s ∧ p w = true := by
  cases x with
  | word w s => exact ⟨w, s, rfl, h⟩
  | wait n => exact nomatch h
  | fault n => exact nomatch h
theorem ctx_at {s : State} {f : FragRef} (hf : f = s.cur) (h : (ctx? s).isSome = true) : ctxOf s f = some (cx s) := hf ▸ ctx_of h
/-- What the fragment fetches. -/
def fetched (s : State) : Fetched := fetchWord s (fetcher (cx s)) (cx s).f.core (cx s).p.pc.toNat
theorem witness_StepRunsTheDecodedInstruction :
    sExit.agenda = .issue (cx (begun sExit [])).f :: [] ∧ MayIssue (begun sExit []) (cx (begun sExit [])) ∧ (cx (begun sExit [])).p.iword = none ∧
      ∃ w s2, fetched (begun sExit []) = .word w s2 ∧ (decode w == some (.exit tp)) = true :=
  ⟨by decide +kernel, ⟨ctx_at (by decide +kernel) (by decide +kernel), by decide +kernel⟩, by decide +kernel, word_of (fun w => decode w == some (.exit tp)) (by decide +kernel)⟩
/-- A word that was fetched before, and waited. -/
def sKept : State := { sF (fun p => { p with iword := some 0x20019C0000000000 }) with agenda := [.issue ⟨0, 0, 0, 0, false⟩] }
theorem witness_StepRunsTheDecodedInstruction_kept :
    sKept.agenda = .issue (cx (begun sKept [])).f :: [] ∧ MayIssue (begun sKept []) (cx (begun sKept [])) ∧ (cx (begun sKept [])).p.iword = some 0x20019C0000000000 :=
  ⟨by decide +kernel, ⟨ctx_of (by decide +kernel), by decide +kernel⟩, by decide +kernel⟩
theorem witness_StepRunsTheDecodedInstruction_illegal :
    ∃ w s2, fetched (begun sBad []) = .word w s2 ∧ (decode w == none) = true := word_of (fun w => decode w == none) (by decide +kernel)
theorem witness_StepRunsTheDecodedInstruction_memory :
    let s := begun sExit []
    ∃ t p, (0x10000 : Nat) < 2 ^ 57 ∧ (sExit.die 0).pgroot.getLsbD 0 = true ∧ tlbFind s 0 0 0x10000 = some t ∧ leafUse s 0 0x10000 .x t = .ok p ∧
      reach s (fetcher (cx s)) 0x10000 p = none ∧ lineAt sExit 0 0 (p.pa / 128) = none ∧ Tab.get? (sExit.core 0 0).icache p.pa = none ∧
      decode (BitVec.ofNat 64 (rdN sExit p.pa 8)) = some (.exit tp) :=
  ⟨⟨loaderAddr, 0x10000, 0x0200000000010008 + 0x13, 0⟩, ⟨0x10000, 2, false, false⟩, by decide +kernel, by decide +kernel, by decide +kernel, rfl,
    by decide +kernel⟩
/-- An event, a word of a program, an event of a core that is not there, and a load, each at the head of the agenda. -/
theorem witness_StepRunsTheDecodedInstruction_event :
    encode .packageReset = none ∧ Instr.wf .packageReset = true ∧ encode (.exit tp) ≠ none ∧ Instr.wf (.droopEvent 0 96) = false ∧
      ∀ i ∈ [Turn.ev .packageReset, .ev (.exit tp), .ev (.droopEvent 0 96), .load 0 default, .flip 0 95 65535 1, .flip 0 96 0 1],
        ({ State.reset with agenda := [i] } : State).agenda = i :: [] :=
  ⟨rfl, by decide +kernel, by decide +kernel, by decide +kernel, fun _ _ => rfl⟩
theorem witness_EncodingAndDecodingAgree :
    Instr.wf (.exit tp) = true ∧ encode (.exit tp) = some 0x20019C0000000000 ∧ decode 0x20019C0000000000 = some (.exit tp) := by decide +kernel
/-- A next state that passes a test. -/
theorem next_of {x : Host.Outcome State Fault Refusal} (p : State → Bool) (h : (match x with | .next t => p t | _ => false) = true) :
    ∃ t, x = .next t ∧ p t = true := by
  cases x with
  | next t => exact ⟨t, rfl, h⟩
  | fault r => exact nomatch h
  | refused r => exact nomatch h
theorem witness_StepsKeepMemoryForm : Memory.wf sExit = true ∧ ∃ t, step sExit = .next t ∧ (Memory.wf t) = true :=
  ⟨by decide +kernel, next_of _ (by decide +kernel)⟩

end Sys2Proof.Tests
end

section
/-! PROOFS. The registers that the host writes (R5, R52, R58, R93, R383, R384, R393, R428, R433, R451, R455, R458), and O51. -/

namespace Sys2Proof.Machine

/-! ### Fields of a register word -/

theorem sumN_eq_sum (l : List Nat) : sumN l = l.sum := List.sum_eq_foldl.symm

@[simp] theorem word64_nil : word64 [] = 0 := rfl

/-- A register word is the sum of its fields, each shifted to its place. -/
@[simp] theorem word64_cons (p a : Nat) (l : List (Nat × Nat)) :
    word64 ((p, a) :: l) = (BitVec.ofNat 64 a <<< p) + word64 l := by
  apply BitVec.eq_of_toNat_eq
  simp [word64, sumN_eq_sum, Nat.shiftLeft_eq]

/-- The `n` bits of a word from bit `lo`, put back at bit `lo`, are the word under that field's mask. -/
theorem extractLsb'_shiftLeft (v : W64) (lo n : Nat) :
    BitVec.ofNat 64 (v.extractLsb' lo n).toNat <<< lo = v &&& (BitVec.ofNat 64 (2 ^ n - 1) <<< lo) := by
  apply BitVec.eq_of_getLsbD_eq
  intro i hi
  simp only [BitVec.getLsbD_shiftLeft, BitVec.getLsbD_and, BitVec.getLsbD_ofNat, Nat.testBit_two_pow_sub_one, BitVec.testBit_toNat,
    BitVec.getLsbD_extractLsb']
  by_cases h : i < lo
  · simp [h]
  · simp [h, show lo + (i - lo) = i by omega, show i - lo < 64 by omega, hi, Bool.and_comm]

theorem flag_getLsbD (v : W64) (i : Nat) : flag (v.getLsbD i) = (v.extractLsb' i 1).toNat := by
  rw [BitVec.extractLsb'_toNat, Nat.shiftRight_eq_div_pow, pow_one, ← Nat.toNat_testBit, BitVec.testBit_toNat]
  cases v.getLsbD i <;> rfl

theorem or_and_or (a b c : W64) : (a ||| c) &&& (b ||| c) = (a &&& b) ||| c := by
  ext i hi
  simp [Bool.or_and_distrib_right]

/-- Two fields of one word whose masks are disjoint are the word under both masks. -/
theorem and_add_and (v a b : W64) (h : a &&& b = 0) : (v &&& a) + (v &&& b) = v &&& (a ||| b) := by
  have hd : (v &&& a) &&& (v &&& b) = 0 := by
    calc (v &&& a) &&& (v &&& b) = (v &&& v) &&& (a &&& b) := by ac_rfl
      _ = 0 := by rw [h]; exact BitVec.and_zero
  rw [BitVec.add_eq_or_of_and_eq_zero _ _ hd, ← BitVec.and_or_distrib_left]

/-- A word under a mask, and a constant outside the mask. -/
theorem and_add_const (v a b : W64) (h : a &&& b = 0) : (v &&& a) + b = (v &&& a) ||| b := by
  apply BitVec.add_eq_or_of_and_eq_zero
  rw [BitVec.and_assoc, h]
  simp

/-- The bits that fields cover, each given by its lowest bit and its width. -/
def fieldsMask : List (Nat × Nat) → W64
  | [] => 0
  | (lo, n) :: l => (BitVec.ofNat 64 (2 ^ n - 1) <<< lo) ||| fieldsMask l

/-- Fields that share no bit. -/
def fieldsApart : List (Nat × Nat) → Bool
  | [] => true
  | (lo, n) :: l => (BitVec.ofNat 64 (2 ^ n - 1) <<< lo) &&& fieldsMask l == 0 && fieldsApart l

/-- A register word whose fields are those of `v` is `v` under the mask of its fields. -/
theorem word64_fields (v : W64) {l : List (Nat × Nat)} (h : fieldsApart l = true) :
    word64 (l.map (fun e => (e.1, (v.extractLsb' e.1 e.2).toNat))) = v &&& fieldsMask l := by
  induction l with
  | nil => simp [fieldsMask]
  | cons e l ih =>
    obtain ⟨lo, n⟩ := e
    obtain ⟨hd, hl⟩ := Bool.and_eq_true_iff.mp h
    rw [List.map_cons, word64_cons, ih hl, extractLsb'_shiftLeft, and_add_and _ _ _ (beq_iff_eq.mp hd)]
    rfl

/-! ### What a table, a die and a queue read as after a change -/

theorem Tab.getD_map {α : Type} (t : Tab α) (f : α → α) (k : Nat) (d : α) (hd : f d = d) :
    Tab.getD (t.map (fun e => (e.1, f e.2))) k d = f (Tab.getD t k d) := by
  induction t with
  | nil => exact hd.symm
  | cons e t ih =>
    obtain ⟨i, x⟩ := e
    simp only [Tab.getD, List.map_cons, Tab.get?] at ih ⊢
    split
    · rfl
    · exact ih

theorem die_modDie_same {s : State} {d : Nat} {g : Die → Die} (h : d < s.dies.length) : (s.modDie d g).die d = g (s.die d) := by
  rw [die_modDie, if_pos ⟨rfl, h⟩]

/-- A field of the dies that a change keeps is the same on every die. -/
theorem die_modDie_keeps {α : Type} {s : State} {d e : Nat} {g : Die → Die} {p : Die → α} (hg : ∀ x, p (g x) = p x) :
    p ((s.modDie d g).die e) = p (s.die e) := by
  rw [die_modDie]
  split
  · exact hg _
  · rfl

theorem queue_modDie {s : State} {d e q : Nat} {g : Die → Die} (hg : ∀ x, (g x).queues = x.queues) :
    (s.modDie d g).queue e q = s.queue e q := by
  unfold State.queue
  rw [die_modDie_keeps (p := Die.queues) hg]

theorem queue_modQueue_same {s : State} {d q : Nat} {g : HQueue → HQueue} (h : d < s.dies.length) :
    (s.modQueue d q g).queue d q = g (s.queue d q) := by
  unfold State.queue State.modQueue
  rw [die_modDie_same h]
  simp [Tab.getD, Tab.get?_set]

/-! ### The function that a register block belongs to -/

theorem FnUp.of_die {s : State} {d : Nat} (h4 : d < 4) (hd : d < s.dies.length) (hr : (s.die d).inReset = false) : FnUp s d :=
  Or.inr ⟨h4, hd, hr⟩

theorem FnUp.fnDown {s : State} {fn : Nat} (h : FnUp s fn) : fnDown s fn = false := by
  obtain rfl | ⟨-, -, hr⟩ := h
  · rfl
  · simp [Machine.fnDown, hr]

/-! ### Queue registers (R383, R384, R455) -/

theorem hostQueue_die {s : State} {fn q : Nat} (h4 : fn < 4) : hostQueue s fn q = s.queue fn q := if_neg (by omega)

theorem hostQueue_modDie {s : State} {d fn q : Nat} {g : Die → Die} (hg : ∀ x, (g x).queues = x.queues) :
    hostQueue (s.modDie d g) fn q = hostQueue s fn q := by
  unfold hostQueue
  rw [queue_modDie hg, State.modDie_grp]

theorem hostQueue_modHostQueue {s : State} {fn q : Nat} {g : HQueue → HQueue} (h : FnUp s fn) :
    hostQueue (modHostQueue s fn q g) fn q = g (hostQueue s fn q) := by
  obtain rfl | ⟨h4, hd, -⟩ := h
  · rfl
  · rw [modHostQueue, if_neg (by omega), hostQueue_die h4, hostQueue_die h4, queue_modQueue_same hd]

theorem length_modHostQueue (s : State) (fn q : Nat) (g : HQueue → HQueue) : (modHostQueue s fn q g).dies.length = s.dies.length := by
  unfold modHostQueue State.modQueue
  split
  · rfl
  · exact length_listMod _ _ _

/-- A queue error of a die's queue takes the error at the queue; its record is in no queue register. -/
theorem hostQueue_queueError {s : State} {fn q code : Nat} {tag rd : W32} {info2 : W64} (h4 : fn < 4) (hd : fn < s.dies.length) :
    hostQueue (queueError s fn q code tag rd info2) fn q = (hostQueue s fn q).error code := by
  unfold queueError postEvent
  rw [hostQueue_modDie, hostQueue_die h4, hostQueue_die h4, queue_modQueue_same hd]
  exact fun _ => rfl

theorem hostQueue_writeQueue {s : State} {fn q : Nat} {g : HQueue → HQueue} (h : FnUp s fn) :
    hostQueue (writeQueue s fn q g) fn q = g (hostQueue s fn q) := by
  unfold writeQueue
  simp only [h.fnDown, Bool.false_eq_true, if_false]
  split
  · rw [hostQueue_modDie, hostQueue_modHostQueue h]
    exact fun _ => rfl
  · exact hostQueue_modHostQueue h

theorem queueDoorbell_within {s : State} {fn q : Nat} {wr : W32} (h : FnUp s fn) (hq : ¬ (fn < 4 ∧ q = 63))
    (hw : (wr - (hostQueue s fn q).rd).toNat ≤ 2 ^ (hostQueue s fn q).lsz.toNat) :
    ∃ t, exec (.queueDoorbell fn q wr) s = .next t ∧ hostQueue t fn q = { hostQueue s fn q with wr := wr } := by
  refine ⟨_, rfl, ?_⟩
  simp only [h.fnDown, hq, hostQueue_modHostQueue h, decide_eq_true_eq, Bool.false_or, Bool.and_eq_true, if_false, not_lt.mpr hw]

theorem queueDoorbell_overrun {s : State} {fn q : Nat} {wr : W32} (h : FnUp s fn) (hq : ¬ (fn < 4 ∧ q = 63))
    (hw : 2 ^ (hostQueue s fn q).lsz.toNat < (wr - (hostQueue s fn q).rd).toNat) :
    ∃ t, exec (.queueDoorbell fn q wr) s = .next t ∧ hostQueue t fn q = ({ hostQueue s fn q with wr := wr } : HQueue).error 4 := by
  refine ⟨_, rfl, ?_⟩
  simp only [h.fnDown, hq, hostQueue_modHostQueue h, decide_eq_true_eq, Bool.false_or, Bool.and_eq_true, if_false, hw, if_true]
  obtain rfl | ⟨h4, hd, hr⟩ := h
  · rfl
  · rw [if_neg (by omega), hostQueue_queueError h4 (by rwa [length_modHostQueue]), hostQueue_modHostQueue (.of_die h4 hd hr)]

/-- What a write of word 0 leaves; `w` is the word that is written with `en` set or cleared in it (R384). -/
theorem writeWord0_written (x : HQueue) {v w : W64} (hb : queueBase w = queueBase v) :
    Word0Written x (x.writeWord0 w) (w.getLsbD 63) v := by
  unfold Word0Written HQueue.writeWord0
  by_cases hk : x.on = true ∨ queueBase v = x.base
  · simp +contextual [hb, hk]
  · simp +contextual [hb, hk]

theorem queueBase_or_en (v : W64) : queueBase (v ||| 0x8000000000000000) = queueBase v := by
  unfold queueBase
  rw [BitVec.and_or_distrib_right]
  simp

theorem queueBase_and_not_en (v : W64) : queueBase (v &&& 0x7FFFFFFFFFFFFFFF) = queueBase v := by
  unfold queueBase
  rw [BitVec.and_assoc]
  rfl

theorem queueEnable_written {s : State} {fn q : Nat} (v : W64) (h : FnUp s fn) :
    ∃ t, exec (.queueEnable fn q v) s = .next t ∧ Word0Written (hostQueue s fn q) (hostQueue t fn q) true v := by
  refine ⟨_, rfl, ?_⟩
  rw [hostQueue_writeQueue h]
  have hen : (v ||| 0x8000000000000000).getLsbD 63 = true := by simp
  have hw := writeWord0_written (hostQueue s fn q) (queueBase_or_en v)
  rwa [hen] at hw

theorem queueDisable_written {s : State} {fn q : Nat} (v : W64) (h : FnUp s fn) :
    ∃ t, exec (.queueDisable fn q v) s = .next t ∧ Word0Written (hostQueue s fn q) (hostQueue t fn q) false v := by
  refine ⟨_, rfl, ?_⟩
  rw [hostQueue_writeQueue h]
  have hen : (v &&& 0x7FFFFFFFFFFFFFFF).getLsbD 63 = false := by simp
  have hw := writeWord0_written (hostQueue s fn q) (queueBase_and_not_en v)
  rwa [hen] at hw

theorem queueReconfigure_word0 {s : State} {fn q : Nat} (v : W64) (h : FnUp s fn) :
    ∃ t, exec (.queueReconfigure fn q 0 v) s = .next t ∧ Word0Written (hostQueue s fn q) (hostQueue t fn q) (v.getLsbD 63) v := by
  refine ⟨_, rfl, ?_⟩
  rw [hostQueue_writeQueue h]
  exact writeWord0_written _ rfl

theorem queueReconfigure_word1 {s : State} {fn q w : Nat} (v : W64) (h : FnUp s fn) (hw : w ≠ 0) :
    ∃ t, exec (.queueReconfigure fn q w v) s = .next t ∧ hostQueue t fn q =
      (if (hostQueue s fn q).on = true ∨ v.truncate 5 = (hostQueue s fn q).lsz then hostQueue s fn q
        else { hostQueue s fn q with lsz := v.truncate 5, rd := 0 }) := by
  refine ⟨_, rfl, ?_⟩
  rw [hostQueue_writeQueue h, if_neg hw]
  simp only [HQueue.writeWord1, Bool.or_eq_true, beq_iff_eq]

theorem queueErrorClear_clears {s : State} {fn q : Nat} (v : W64) (h : FnUp s fn) :
    ∃ t, exec (.queueErrorClear fn q v) s = .next t ∧ ∃ e, e = (hostQueue s fn q).err &&& ~~~(v.extractLsb' 48 16) ∧
      hostQueue t fn q = { hostQueue s fn q with err := e, stop := (hostQueue s fn q).stop && e != 0 } := by
  refine ⟨_, rfl, _, rfl, ?_⟩
  simp only [h.fnDown, Bool.false_eq_true, if_false, hostQueue_modHostQueue h]

/-! ### TLBINV (R58) -/

theorem tlbinv_shootdown (s : State) (d e : Nat) (p : TlbEnt → Bool) : ((shootdown s d p).die e).tlbinv = (s.die e).tlbinv :=
  die_modDie_keeps (p := Die.tlbinv) (fun _ => rfl)

/-- The state in which a write of TLBINV has stored the range `w` and made its free choice. -/
def tlbBegun (s : State) (d : Nat) (w : W64) : State := (s.modDie d (fun x => { x with tlbinv := w ||| 1 })).takeBool.2

theorem tlbStart_idle {s : State} {d : Nat} (v : W64) (h : FnUp s d) (hb : (s.die d).tlbinv.getLsbD 0 = false) :
    tlbStart s d v =
      let w := v &&& 0x01FFFFFFFFFFFF02
      if Config.freeBool s.freeIx then shootdown (tlbBegun s d w) d (tlbNamed w) else tlbBegun s d w := by
  unfold tlbStart
  rw [h.fnDown, hb]
  rfl

/-- A write of TLBINV that finds it not busy stores the range, and sets busy. -/
theorem tlbStart_of_idle {s : State} {d : Nat} (v : W64) (h : FnUp s d) (hd : d < s.dies.length) (hb : (s.die d).tlbinv.getLsbD 0 = false) :
    ((tlbStart s d v).die d).tlbinv = (v &&& 0x01FFFFFFFFFFFF02) ||| 1 ∧ (tlbStart s d v).mem = s.mem := by
  have hw : ((tlbBegun s d (v &&& 0x01FFFFFFFFFFFF02)).die d).tlbinv = (v &&& 0x01FFFFFFFFFFFF02) ||| 1 :=
    congrArg Die.tlbinv (die_modDie_same hd)
  rw [tlbStart_idle v h hb]
  dsimp only
  split
  · exact ⟨(tlbinv_shootdown _ _ _ _).trans hw, rfl⟩
  · exact ⟨hw, rfl⟩

theorem tlbStart_of_busy {s : State} {d : Nat} (v : W64) (hb : (s.die d).tlbinv.getLsbD 0 = true) : tlbStart s d v = s := by
  unfold tlbStart
  rw [hb, Bool.or_true, if_pos rfl]

theorem tlbInvalidate_starts {s : State} {d : Nat} (v : W64) (h : FnUp s d) (hd : d < s.dies.length) (hb : (s.die d).tlbinv.getLsbD 0 = false) :
    ∃ t, exec (.tlbInvalidate d v) s = .next t ∧ (t.die d).tlbinv = (v &&& 0x01FFFFFFFFFFFF00) ||| 1 ∧ t.mem = s.mem := by
  obtain ⟨hv, hm⟩ := tlbStart_of_idle (v &&& 0xFFFFFFFFFFFFFFFD) h hd hb
  refine ⟨_, rfl, ?_, hm⟩
  rw [hv, BitVec.and_assoc]
  rfl

theorem tlbInvalidateAll_starts {s : State} {d : Nat} (v : W64) (h : FnUp s d) (hd : d < s.dies.length) (hb : (s.die d).tlbinv.getLsbD 0 = false) :
    ∃ t, exec (.tlbInvalidateAll d v) s = .next t ∧ (t.die d).tlbinv = (v &&& 0x01FFFFFFFFFFFF00) ||| 3 ∧ t.mem = s.mem := by
  obtain ⟨hv, hm⟩ := tlbStart_of_idle (v ||| 2) h hd hb
  refine ⟨_, rfl, ?_, hm⟩
  rw [hv, show (0x01FFFFFFFFFFFF02 : W64) = 0x01FFFFFFFFFFFF00 ||| 2 from rfl, or_and_or, BitVec.or_assoc]
  rfl

/-- A die whose TLBINV is busy is there. -/
theorem die_lt_of_tlbinv_busy {s : State} {d : Nat} (hb : (s.die d).tlbinv.getLsbD 0 = true) : d < s.dies.length := by
  by_contra hd
  have h0 : s.die d = default := by simp [State.die, hd]
  rw [h0] at hb
  exact absurd hb (by decide)

theorem core_shootdown {s : State} {d : Nat} (p : TlbEnt → Bool) (hd : d < s.dies.length) (k : Nat) :
    (shootdown s d p).core d k = { s.core d k with tlb := (s.core d k).tlb.filter (fun e => !p e) } := by
  unfold shootdown State.core
  rw [die_modDie_same hd]
  exact Tab.getD_map _ (fun c : Core => { c with tlb := c.tlb.filter (fun e => !p e) }) k {} rfl

theorem cluster_shootdown {s : State} {d : Nat} (p : TlbEnt → Bool) (hd : d < s.dies.length) (k : Nat) :
    (shootdown s d p).cluster d k = { s.cluster d k with
      tlb2 := (s.cluster d k).tlb2.filter (fun e => !p e), big := (s.cluster d k).big.filter (fun e => !p e), walkc := [] } := by
  unfold shootdown State.cluster
  rw [die_modDie_same hd]
  exact Tab.getD_map _ (fun c : Cluster => { c with
    tlb2 := c.tlb2.filter (fun e => !p e), big := c.big.filter (fun e => !p e), walkc := [] }) k {} rfl

theorem tlbInvalidateDone_ends {s : State} {d : Nat} (hb : (s.die d).tlbinv.getLsbD 0 = true) :
    ∃ t, exec (.tlbInvalidateDone d) s = .next t ∧ (t.die d).tlbinv = (s.die d).tlbinv &&& 0xFFFFFFFFFFFFFFFE ∧ t.mem = s.mem ∧
      (∀ k, (t.core d k).tlb = (s.core d k).tlb.filter (fun e => !tlbNamed (s.die d).tlbinv e)) ∧
      ∀ k, (t.cluster d k).walkc = [] ∧ (t.cluster d k).tlb2 = (s.cluster d k).tlb2.filter (fun e => !tlbNamed (s.die d).tlbinv e) := by
  have hd := die_lt_of_tlbinv_busy hb
  have hd' : d < (shootdown s d (tlbNamed (s.die d).tlbinv)).dies.length := by
    rw [shootdown, State.modDie_dies, length_listMod]
    exact hd
  refine ⟨_, rfl, ?_⟩
  simp only [hb, Bool.not_true, Bool.false_eq_true, if_false]
  refine ⟨by rw [die_modDie_same hd'], rfl, fun k => ?_, fun k => ?_⟩
  · rw [State.core, die_modDie_same hd']
    exact congrArg Core.tlb (core_shootdown (tlbNamed (s.die d).tlbinv) hd k)
  · rw [State.cluster, die_modDie_same hd']
    have hk := cluster_shootdown (tlbNamed (s.die d).tlbinv) hd k
    exact ⟨congrArg Cluster.walkc hk, congrArg Cluster.tlb2 hk⟩

/-! ### Counters, versions, and the event ring's `rd` (R52, R447, R451) -/

theorem nearMemoryCounterWrite_counters {s : State} {i : Nat} (n : Nat) (v : W64) (hi : i < s.stks.length) :
    ∃ t, exec (.nearMemoryCounterWrite i n v) s = .next t ∧ t.mem = s.mem ∧
      ∀ j m, Tab.getD (t.stk j).counters m 0 = if j = i ∧ m = n then v else Tab.getD (s.stk j).counters m 0 := by
  refine ⟨_, rfl, rfl, fun j m => ?_⟩
  rw [stk_modStk]
  by_cases hj : i = j
  · subst hj
    rw [if_pos ⟨rfl, hi⟩, Tab.getD_put]
    simp only [true_and, eq_comm]
  · rw [if_neg (fun h => hj h.1), if_neg (fun h => hj h.1.symm)]

theorem versionHandshake_answers {s : State} {d : Nat} (req : Byte) (h : FnUp s d) (hd : d < s.dies.length) :
    ∃ t, exec (.versionHandshake d req) s = .next t ∧ (t.die d).vreq = req ∧ ∀ hi lo, hi = bitsOf (s.die d).rev.toNat 24 8 →
      lo = bitsOf (s.die d).rev.toNat 16 8 → (t.die d).vans.toNat = if lo ≤ min req.toNat hi then min req.toNat hi else 0 := by
  refine ⟨_, rfl, ?_⟩
  simp only [h.fnDown, Bool.false_eq_true, if_false, die_modDie_same hd, true_and]
  rintro hi lo rfl rfl
  have hlt := req.isLt
  split
  · exact BitVec.toNat_ofNat .. |>.trans (Nat.mod_eq_of_lt (by omega))
  · rfl

theorem eventRingConsume_rd {s : State} {d : Nat} (rd : W32) (h : FnUp s d) (hd : d < s.dies.length) :
    ∃ t, exec (.eventRingConsume d rd) s = .next t ∧ t.die d = { s.die d with evRd := rd } := by
  refine ⟨_, rfl, ?_⟩
  simp only [h.fnDown, Bool.false_eq_true, if_false, die_modDie_same hd]

/-! ### The registers of a die's block: what a write leaves for a read (R5, R20, R43, R93, R333, R393, R423, R428, R431, R433, R451) -/

section DieRegisters

variable (x : Die) (v : W64)

theorem Die.regRead_regWrite_allow : (x.regWrite 0x20 v).regRead 0x20 = v &&& 0xF :=
  word64_fields v (l := [(0, 4)]) rfl

theorem Die.regRead_regWrite_pgroot : (x.regWrite 0x28 v).regRead 0x28 = v &&& 0x000FFFFFFFFFF001 := rfl

theorem Die.regRead_regWrite_checksums : (x.regWrite 0x40 v).regRead 0x40 = v :=
  (word64_fields v (l := [(32, 32), (0, 32)]) rfl).trans BitVec.and_allOnes

theorem Die.regRead_regWrite_schctl : (x.regWrite 0x60 v).regRead 0x60 = v &&& 0x0000FFFFFFFFFF03 := rfl

theorem Die.regRead_regWrite_vec : (x.regWrite 0x70 v).regRead 0x70 = v &&& 0x01FFFFFFFFFFFFF8 := rfl

theorem Die.regRead_regWrite_ctx : (x.regWrite 0x78 v).regRead 0x78 = v &&& 0x0000FFFFFFFFFFFF :=
  word64_fields v (l := [(32, 16), (0, 32)]) rfl

theorem Die.regRead_regWrite_ecc : (x.regWrite 0x88 v).regRead 0x88 = v &&& 0x0000FFFFFFFFFFFF :=
  word64_fields v (l := [(32, 16), (16, 16), (0, 16)]) rfl

theorem Die.regRead_regWrite_kat : (x.regWrite 0x90 v).regRead 0x90 = v &&& 0xFFFF0001 := by
  have hr : (x.regWrite 0x90 v).regRead 0x90 = word64 [(16, (v.extractLsb' 16 16).toNat), (0, flag (v.getLsbD 0))] := rfl
  rw [hr, flag_getLsbD]
  exact word64_fields v (l := [(16, 16), (0, 1)]) rfl

theorem Die.regRead_regWrite_evLost : (x.regWrite 0x110 v).regRead 0x110 = v &&& 0xFFFFFFFF :=
  word64_fields v (l := [(0, 32)]) rfl

/-- Bits 1 to 3 of the event ring's mask are set whatever is written (R451). -/
theorem Die.regRead_regWrite_evMsk : (x.regWrite 0x118 v).regRead 0x118 = (v &&& 0xFFFF) ||| 0xE := by
  have hr : (x.regWrite 0x118 v).regRead 0x118 = word64 [(0, (v.extractLsb' 0 16 ||| 0xE).toNat)] := rfl
  have hv : BitVec.ofNat 64 (v.extractLsb' 0 16).toNat = v &&& 0xFFFF := by
    simpa using extractLsb'_shiftLeft v 0 16
  rw [hr, word64_cons, word64_nil, BitVec.shiftLeft_zero, BitVec.toNat_or, BitVec.ofNat_or, hv]
  exact BitVec.add_zero _

theorem Die.regRead_regWrite_dbgctl :
    (x.regWrite 0x80 v).regRead 0x80 = (v &&& 5) ||| (if debugHalted (x.regWrite 0x80 v) then 2 else 0) := by
  have hr : (x.regWrite 0x80 v).regRead 0x80 =
      word64 [(2, flag (v.getLsbD 2)), (1, flag (debugHalted (x.regWrite 0x80 v))), (0, flag (v.getLsbD 0))] := rfl
  have hf : word64 [(2, flag (v.getLsbD 2)), (0, flag (v.getLsbD 0))] = v &&& 5 := by
    rw [flag_getLsbD, flag_getLsbD]
    exact word64_fields v (l := [(2, 1), (0, 1)]) rfl
  rw [word64_cons] at hf
  rw [hr, word64_cons, word64_cons, add_left_comm, hf, BitVec.add_comm]
  cases debugHalted (x.regWrite 0x80 v) with
  | false => exact and_add_const v 5 0 rfl
  | true => exact and_add_const v 5 2 rfl

theorem Die.regRead_regWrite_katFail :
    (x.regWrite 0x98 v).regRead 0x98 = word64 [(32, v.toNat / 2 ^ 32), (0, fencedLanes x)] := by
  have hr : (x.regWrite 0x98 v).regRead 0x98 = word64 [(32, (v.extractLsb' 32 32).toNat), (0, fencedLanes x)] := rfl
  have hlt := v.isLt
  rw [hr, BitVec.extractLsb'_toNat, Nat.shiftRight_eq_div_pow, Nat.mod_eq_of_lt (by omega)]

theorem Die.regRead_regWrite_evctl :
    (x.regWrite 0x100 v).regRead 0x100 = (v &&& 0x000FFFFFFFFFFFDF) |||
      (if v.getLsbD 63 = true ∧ ringOk (v &&& 0x000FFFFFFFFFFFC0).toNat (v.toNat % 32) = true then 0x8000000000000000 else 0) := by
  have hr : (x.regWrite 0x100 v).regRead 0x100 =
      word64 [(63, flag (v.getLsbD 63 && ringOk (v &&& 0x000FFFFFFFFFFFC0).toNat (v.toNat % 32))),
        (0, (v &&& 0x000FFFFFFFFFFFC0).toNat), (0, (v.extractLsb' 0 5).toNat)] := rfl
  have hl : word64 [(0, (v.extractLsb' 0 5).toNat)] = v &&& 0x1F := word64_fields v (l := [(0, 5)]) rfl
  rw [hr, word64_cons, word64_cons, hl, BitVec.shiftLeft_zero, BitVec.ofNat_toNat, BitVec.setWidth_eq, and_add_and _ _ _ rfl, BitVec.add_comm]
  by_cases hon : v.getLsbD 63 = true ∧ ringOk (v &&& 0x000FFFFFFFFFFFC0).toNat (v.toNat % 32) = true
  · rw [if_pos hon, Bool.and_eq_true_iff.mpr hon]
    exact and_add_const v _ 0x8000000000000000 rfl
  · rw [if_neg hon, Bool.eq_false_iff.mpr (mt Bool.and_eq_true_iff.mp hon)]
    exact and_add_const v _ 0 rfl

variable {off : Nat}

theorem Die.regRead_regWrite_xbar (h0 : 0x8000 ≤ off) (h1 : off < 0xA000) : (x.regWrite off v).regRead off = v := by
  have hne : ∀ n, n < 0x8000 → off ≠ n := by omega
  simp [Die.regWrite, Die.regRead, hne, h0, h1, Tab.getD_put, show ¬ off < 0x2800 by omega]

theorem Die.regRead_regWrite_egress (h0 : 0xA000 ≤ off) (h1 : off < 0x10000) : (x.regWrite off v).regRead off = v &&& 0x83FF := by
  have hne : ∀ n, n < 0xA000 → off ≠ n := by omega
  simp [Die.regWrite, Die.regRead, hne, h0, h1, Tab.getD_put, show ¬ off < 0x2800 by omega, show ¬ off < 0xA000 by omega]

theorem Die.regWrite_readOnly (h : off ∈ [0x00, 0x08, 0x10, 0x18]) : x.regWrite off v = x := by
  simp only [List.mem_cons, List.not_mem_nil, or_false] at h
  obtain rfl | rfl | rfl | rfl := h <;> rfl

/-- A write of SCHCTL judges every core anew (R393); a core that is not there is cold, and stays so. -/
theorem Die.regWrite_schctl_hot (k : Nat) :
    (Tab.getD (x.regWrite 0x60 v).cores k {}).hot = hotNow (v &&& 0x0000FFFFFFFFFF03) (Tab.getD x.cores k {}) := by
  have hc : ∀ w : W64, hotNow w {} = false := fun w => by simp [hotNow]
  exact congrArg Core.hot (Tab.getD_map x.cores (fun c => { c with hot := hotNow (v &&& 0x0000FFFFFFFFFF03) c }) k {} (by rw [hc]))

theorem Die.regWrite_inReset : (x.regWrite off v).inReset = x.inReset := by
  simp only [Die.regWrite, Die.writeSch, apply_ite Die.inReset, ite_self]

end DieRegisters

/-! ### Register writes of the host (R5, R52, R93, R461) -/

theorem exec_registerWrite (r : RegWr) (s : State) : exec (.registerWrite r) s = execRegisterWrite r s := rfl

theorem registerWrite_die {s : State} {fn off : Nat} (v : W64) (h : FnUp s fn) (h4 : fn < 4) (ho : off % 8 = 0) :
    exec (.registerWrite ⟨fn, off, v, 8⟩) s = .next (s.modDie fn (fun x => x.regWrite off v)) := by
  rw [exec_registerWrite, execRegisterWrite]
  simp [h.fnDown, h4, ho]

theorem regRead_die {s : State} {fn off : Nat} (h : FnUp s fn) (h4 : fn < 4) : regRead s fn off = (s.die fn).regRead off := by
  rw [regRead, if_neg (by simp [h.fnDown]), if_pos h4]

theorem FnUp.regWrite {s : State} {fn off : Nat} (v : W64) (h : FnUp s fn) : FnUp (s.modDie fn (fun x => x.regWrite off v)) fn := by
  obtain h | ⟨h4, hd, hr⟩ := h
  · exact .inl h
  · refine .of_die h4 ?_ ?_
    · rwa [State.modDie_dies, length_listMod]
    · rw [die_modDie_same hd, Die.regWrite_inReset, hr]

theorem extractLsb'_toNat_eq_bitsOf (v : W64) (lo n : Nat) : (v.extractLsb' lo n).toNat = bitsOf v.toNat lo n := by
  rw [BitVec.extractLsb'_toNat, Nat.shiftRight_eq_div_pow]
  rfl

theorem aliasWord_put (k : Stack) (i : Nat) (v : W64) :
    aliasWord { k with alias_ := Tab.put k.alias_ i (v &&& aliasMask (i % 4)) 0 } i =
      if i % 4 = 0 ∧ 5 ≤ bitsOf v.toNat 52 4 then v &&& 0x00FFFFFFFFFF0000 else v &&& aliasMask (i % 4) := by
  simp only [aliasWord, Tab.getD_put, if_true, Bool.and_eq_true, decide_eq_true_eq, ge_iff_le]
  by_cases hi : i % 4 = 0
  · have hb : bitsOf (v &&& aliasMask 0).toNat 52 4 = bitsOf v.toNat 52 4 := by
      have hx : (v &&& aliasMask 0).extractLsb' 52 4 = v.extractLsb' 52 4 := by
        rw [BitVec.extractLsb'_and]
        exact BitVec.and_allOnes
      rw [← extractLsb'_toNat_eq_bitsOf, hx, extractLsb'_toNat_eq_bitsOf]
    rw [hi, hb, BitVec.and_assoc]
    rfl
  · simp [hi]

theorem registerWrite_alias {s : State} {st i : Nat} (v : W64) (h8 : st < 8) (hs : st < s.stks.length) (hi : i < 64) :
    ∃ t, exec (.registerWrite ⟨4, 0x10000 * (st + 1) + 0x1000 + 8 * i, v, 8⟩) s = .next t ∧ t.mem = s.mem ∧
      regRead t 4 (0x10000 * (st + 1) + 0x1000 + 8 * i) =
        if i % 4 = 0 ∧ 5 ≤ bitsOf v.toNat 52 4 then v &&& 0x00FFFFFFFFFF0000 else v &&& aliasMask (i % 4) := by
  generalize hoff : 0x10000 * (st + 1) + 0x1000 + 8 * i = off
  have h8o : off % 8 = 0 := by omega
  have hst : off / 0x10000 - 1 = st := by omega
  have ho : off % 0x10000 = 0x1000 + 8 * i := by omega
  have hlo : 0x10000 ≤ off := by omega
  have hhi : off < 0x90000 := by omega
  have hw : exec (.registerWrite ⟨4, off, v, 8⟩) s =
      .next (s.modStk st (fun k => { k with alias_ := Tab.put k.alias_ i (v &&& aliasMask (i % 4)) 0 })) := by
    rw [exec_registerWrite, execRegisterWrite]
    simp [fnDown, h8o, hst, ho, hlo, h8, show ¬ off < 0x4060 by omega, show off ≠ 0x5000 by omega, show off ≠ 0x5008 by omega,
      show 0x1000 + 8 * i < 0x1200 by omega]
  refine ⟨_, hw, rfl, ?_⟩
  have hr : ∀ t : State, regRead t 4 off = aliasWord (t.stk st) i := fun t => by
    simp [regRead, fnDown, hst, ho, hhi, show ¬ off < 0x3020 by omega, show ¬ off < 0x4060 by omega, show ¬ off < 0x10000 by omega,
      show ¬ 0x8000 ≤ 0x1000 + 8 * i by omega, show 0x1000 + 8 * i < 0x1200 by omega]
  rw [hr, stk_modStk, if_pos ⟨rfl, hs⟩, aliasWord_put]

theorem port_modPort_same {s : State} {i : Nat} {g : Port → Port} (hi : i < s.ports.length) : (s.modPort i g).port i = g (s.port i) := by
  simp only [State.port, State.modPort_ports, getElem?_listMod, if_true, List.getElem?_eq_getElem hi, Option.map_some, Option.getD_some]

theorem registerWrite_port {s : State} {i : Nat} (v : W64) (h12 : i < 12) (hi : i < s.ports.length) :
    ∃ t, exec (.registerWrite ⟨4, 0x4000 + 8 * i, v, 8⟩) s = .next t ∧ t.mem = s.mem ∧
      t.port i = { s.port i with crc := v.extractLsb' 48 16, rply := v.extractLsb' 32 16 } := by
  have hw : exec (.registerWrite ⟨4, 0x4000 + 8 * i, v, 8⟩) s =
      .next (s.modPort i (fun p => { p with crc := v.extractLsb' 48 16, rply := v.extractLsb' 32 16 })) := by
    rw [exec_registerWrite, execRegisterWrite]
    simp [fnDown, State.modPort, show 0x4000 + 8 * i < 0x4060 by omega, show (0x4000 + 8 * i) % 8 = 0 by omega]
  exact ⟨_, hw, rfl, port_modPort_same hi⟩

theorem registerWrite_unsupported {s : State} {fn off n : Nat} (v : W64) (h : off % 8 ≠ 0 ∨ n ≠ 8) :
    exec (.registerWrite ⟨fn, off, v, n⟩) s = .next { s with aer := s.aer + 1 } ∧ hostRead s fn off n = none := by
  have hn : ¬ (decide (off % 8 = 0) && decide (n = 8)) = true := by
    simp only [Bool.and_eq_true, decide_eq_true_eq]
    omega
  rw [exec_registerWrite, execRegisterWrite, hostRead, if_pos (by simpa using h), if_neg hn]
  exact ⟨rfl, rfl⟩

theorem registerWrite_die_reads {s : State} {fn off : Nat} (v : W64) (h4 : fn < 4) (hd : fn < s.dies.length) (hr : (s.die fn).inReset = false)
    (ho : off % 8 = 0) :
    ∃ t, exec (.registerWrite ⟨fn, off, v, 8⟩) s = .next t ∧ t.mem = s.mem ∧ t.die fn = (s.die fn).regWrite off v ∧
      regRead t fn off = ((s.die fn).regWrite off v).regRead off := by
  have h : FnUp s fn := .of_die h4 hd hr
  have ht : (s.modDie fn (fun x => x.regWrite off v)).die fn = (s.die fn).regWrite off v := die_modDie_same hd
  exact ⟨_, registerWrite_die v h h4 ho, rfl, ht, by rw [regRead_die (h.regWrite v) h4, ht]⟩

/-! ### O51 -/

/-- Settles O51: each register by the lemma on its write above. -/
theorem hostRegisters : Obligations.HostRegisters := by
  unfold Obligations.HostRegisters
  refine ⟨?doorbell, ?queue, ?tlbIdle, ?tlbBusy, ?counters, ?versions, ?eventRing, ?die, ?aliases, ?port, ?unsupported⟩
  case doorbell =>
    exact fun s fn q wr h hq => ⟨queueDoorbell_within h hq, queueDoorbell_overrun h hq⟩
  case queue =>
    exact fun s fn q v h => ⟨queueEnable_written v h, queueDisable_written v h, queueReconfigure_word0 v h,
      fun w hw => queueReconfigure_word1 v h hw, queueErrorClear_clears v h⟩
  case tlbIdle =>
    exact fun s d v hd h4 hr hb => ⟨tlbInvalidate_starts v (.of_die h4 hd hr) hd hb, tlbInvalidateAll_starts v (.of_die h4 hd hr) hd hb⟩
  case tlbBusy =>
    exact fun s d v hb => ⟨congrArg _ (tlbStart_of_busy _ hb), congrArg _ (tlbStart_of_busy _ hb), tlbInvalidateDone_ends hb⟩
  case counters =>
    exact fun s i n v hi => nearMemoryCounterWrite_counters n v hi
  case versions =>
    exact fun s d req h4 hd hr => versionHandshake_answers req (.of_die h4 hd hr) hd
  case eventRing =>
    exact fun s d rd h4 hd hr => eventRingConsume_rd rd (.of_die h4 hd hr) hd
  case die =>
    intro s fn off v h4 hd hr ho
    obtain ⟨t, hx, hm, ht, hread⟩ := registerWrite_die_reads v h4 hd hr ho
    refine ⟨t, hx, hm, ?_⟩
    simp only [hread, ht, State.core]
    refine ⟨?_, ?_, ?_, ?_, ?_, ?_, ?_, ?_, ?_, ?_, ?_, ?_, ?_, ?_, Die.regRead_regWrite_xbar _ v, Die.regRead_regWrite_egress _ v,
      Die.regWrite_readOnly _ v⟩ <;> rintro rfl
    · exact Die.regRead_regWrite_allow _ v
    · exact Die.regRead_regWrite_pgroot _ v
    · exact Die.regRead_regWrite_checksums _ v
    · exact Die.regRead_regWrite_schctl _ v
    · exact Die.regRead_regWrite_vec _ v
    · exact Die.regRead_regWrite_ctx _ v
    · exact Die.regRead_regWrite_ecc _ v
    · exact Die.regRead_regWrite_kat _ v
    · exact Die.regRead_regWrite_evLost _ v
    · exact Die.regRead_regWrite_evMsk _ v
    · exact Die.regWrite_schctl_hot _ v
    · exact Die.regRead_regWrite_dbgctl _ v
    · exact Die.regRead_regWrite_katFail _ v
    · exact Die.regRead_regWrite_evctl _ v
  case aliases =>
    exact fun s st i v h8 hs hi => registerWrite_alias v h8 hs hi
  case port =>
    exact fun s i v h12 hi => registerWrite_port v h12 hi
  case unsupported =>
    exact fun s fn off n v h => registerWrite_unsupported v h

end Sys2Proof.Machine
end

section
/-! PROOFS. The machine after reset (R12, R29, R32, R34, R393, R423, R431, R433, R446, R447, R451), and O60. -/

namespace Sys2Proof.Machine

/-- Every die of a package at reset is as its own fuses and those of the whole package have it (R12, R30). -/
theorem die_resetWith (loft : Nat → Bool) {d : Nat} (hd : d < 4) :
    (State.resetWith loft).die d = Die.reset d (loft d) (loft 0 && loft 1 && loft 2 && loft 3) := by
  interval_cases d <;> rfl

/-- At reset each die owns its own two stacks (R32, R34). -/
theorem stk_resetWith (loft : Nat → Bool) {i : Nat} (hi : i < 8) : (State.resetWith loft).stk i = { owner := i / 2 } := by
  interval_cases i <;> rfl

/-- Settles O60: the reset values of a die and of a stack by the lemmas above. -/
theorem resetState : Obligations.ResetState := by
  unfold Obligations.ResetState
  refine ⟨rfl, rfl, fun d hd => ⟨_, die_resetWith _ hd, ?_⟩, fun i hi => ?_, rfl, rfl, rfl, reset_memory_wf, fun a => rfl⟩
  · and_intros <;> rfl
  · rw [State.reset, stk_resetWith _ hi]
    exact ⟨rfl, rfl⟩

end Sys2Proof.Machine
end

section
/-! PROOFS. What writes of memory leave unchanged; the course of a table walk and the leaving of a line (R22, R24, R28, R56, R57, R60, R70, R73), and O8. -/

namespace Sys2Proof.Machine

/-! ### What writes of memory leave unchanged -/

/-- Between `s` and `t` nothing has changed but memory with its poison and history, the requests at busy frames, the waiting writes of directory agents, key
spaces and commands: what a write of an agent of a die alone can change. -/
def Written (s t : State) : Prop :=
  t = { s with mem := t.mem, poison := t.poison, hist := t.hist, hid := t.hid, dirW := t.dirW, spaces := t.spaces, cmds := t.cmds }

theorem Written.refl (s : State) : Written s s := rfl

theorem Written.trans {s t u : State} (h : Written s t) (k : Written t u) : Written s u := by
  unfold Written at h k ⊢
  rw [k, h]

theorem Written.foldl {α : Type} {g : State → α → State} (hg : ∀ s a, Written s (g s a)) (l : List α) (s : State) :
    Written s (l.foldl g s) :=
  foldl_keeps (P := Written s) (fun _ a h => h.trans (hg _ a)) l s (.refl s)

theorem Written.dies {s t : State} (h : Written s t) : t.dies = s.dies := by rw [h]

theorem Written.accs {s t : State} (h : Written s t) : t.accs = s.accs := by rw [h]

theorem wrRaw_written (s : State) (pa : Nat) (bs : List Byte) : Written s (wrRaw s pa bs) := by
  induction bs generalizing s pa with
  | nil => exact .refl s
  | cons b t ih => exact Written.trans (t := wrB s pa b) rfl (ih _ _)

theorem wrBytes_written (s : State) (pa : Nat) (bs : List Byte) : Written s (wrBytes s pa bs) :=
  Written.trans (t := wrRaw (noteWrite (noteWrite s pa (rdBytes s pa bs.length)) pa bs) pa bs)
    (Written.trans (t := noteWrite (noteWrite s pa (rdBytes s pa bs.length)) pa bs) rfl (wrRaw_written _ _ _)) rfl

theorem orEntry_written (s : State) (at_ bit : Nat) : Written s (orEntry s at_ bit) := by
  unfold orEntry
  dsimp only
  split
  · exact .refl s
  · exact wrBytes_written _ _ _

theorem touchEntries_written (s : State) (used : List Nat) (at_ : Nat) (wt : Want) : Written s (touchEntries s used at_ wt) := by
  have hac : Written s (used.foldl (fun s a => orEntry s a 4) s) := .foldl (fun s a => orEntry_written s a 4) used s
  match wt with
  | .r | .x | .m => exact hac
  | .w | .at | .rp => exact hac.trans (orEntry_written _ _ _)

theorem setPois_written (s : State) (pa n : Nat) : Written s (setPois s pa n) := rfl

theorem writeBack_written (s : State) (li : Nat) (l : Line) : Written s (writeBack s li l) :=
  (wrBytes_written s (128 * li) l.data).trans (.foldl (fun s u => setPois_written s (128 * li + 8 * u) 8) l.pois _)

/-! ### Accesses in flight -/

theorem acc?_modAcc {s : State} {a : Acc} {id : Nat} {g : Acc → Acc} (h : s.acc? id = some a) (hg : ∀ x, (g x).id = x.id) :
    (s.modAcc id g).acc? id = some (g a) := by
  have hid : ∀ x : Acc, ((if (x.id == id) = true then g x else x).id == id) = (x.id == id) := fun x => by
    split
    · rw [hg]
    · rfl
  have ha : (a.id == id) = true := by simpa using List.find?_some h
  unfold State.acc? at h ⊢
  simp only [State.modAcc, List.find?_map, Function.comp_def, hid, h, Option.map_some, ha, if_true]

theorem acc?_sendAcc (s : State) (a : Acc) : (s.sendAcc a).acc? a.id = some a := by
  have hnone : (s.accs.filter (fun x => x.id != a.id)).find? (fun x => x.id == a.id) = none := by
    simp [List.find?_eq_none]
  unfold State.acc? State.sendAcc
  simp [List.find?_append, hnone]

theorem mem_modAcc_of_ne {s : State} {x : Acc} {id : Nat} {g : Acc → Acc} (hx : x ∈ s.accs) (hn : x.id ≠ id) : x ∈ (s.modAcc id g).accs :=
  List.mem_map.mpr ⟨x, hx, by simp [hn]⟩

theorem mem_sendAcc_of_ne {s : State} {x a : Acc} (hx : x ∈ s.accs) (hn : x.id ≠ a.id) : x ∈ (s.sendAcc a).accs :=
  List.mem_append_left _ (List.mem_filter.mpr ⟨hx, by simpa using hn⟩)

/-- An access that is no prefetch ends in a fault, and memory stays as it was (R298). -/
theorem failAcc_bad {s : State} {a : Acc} (h : InFlight s a) (hp : a.kind.isPref = false) (cause : Nat) :
    (failAcc s a cause).acc? a.id = some { a with st := .bad cause (BitVec.ofNat 64 a.va), tracked := false } ∧ (failAcc s a cause).mem = s.mem := by
  unfold failAcc
  rw [if_neg (by simp [hp])]
  exact ⟨acc?_modAcc h (fun _ => rfl), rfl⟩

/-! ### What a translation reads of the state -/

/-- `t` has the accesses in flight of `s`, and each die's view of who owns the stacks. -/
structure SameOwners (s t : State) : Prop where
  accs : t.accs = s.accs
  own : ∀ d, (t.die d).own = (s.die d).own
  omap : ∀ d, (t.die d).omap = (s.die d).omap

theorem SameOwners.trans {s t u : State} (h : SameOwners s t) (k : SameOwners t u) : SameOwners s u :=
  ⟨k.accs.trans h.accs, fun d => (k.own d).trans (h.own d), fun d => (k.omap d).trans (h.omap d)⟩

theorem Written.sameOwners {s t : State} (h : Written s t) : SameOwners s t :=
  ⟨h.accs, fun d => by simp only [State.die, h.dies], fun d => by simp only [State.die, h.dies]⟩

theorem SameOwners.modDie (s : State) (d : Nat) {g : Die → Die} (ho : ∀ x, (g x).own = x.own) (hm : ∀ x, (g x).omap = x.omap) :
    SameOwners s (s.modDie d g) :=
  ⟨rfl, fun _ => die_modDie_keeps ho, fun _ => die_modDie_keeps hm⟩

theorem SameOwners.modCore (s : State) (d c : Nat) (g : Core → Core) : SameOwners s (s.modCore d c g) := .modDie s d (fun _ => rfl) (fun _ => rfl)

theorem SameOwners.modCluster (s : State) (d c : Nat) (g : Cluster → Cluster) : SameOwners s (s.modCluster d c g) :=
  .modDie s d (fun _ => rfl) (fun _ => rfl)

theorem tlbFill_sameOwners (s : State) (d c : Nat) (e : TlbEnt) : SameOwners s (tlbFill s d c e) := by
  unfold tlbFill
  exact (SameOwners.modCore s d c _).trans (.modCluster _ d (c / 8) _)

theorem walkFill_sameOwners (s : State) (d c : Nat) (dir : List (Nat × W64)) : SameOwners s (walkFill s d c dir) := .modCluster s d (c / 8) _

theorem setDirty_sameOwners (s : State) (d c : Nat) (e : TlbEnt) : SameOwners s (setDirty s d c e) := by
  unfold setDirty
  split
  · exact (Written.refl s).sameOwners
  · exact (orEntry_written s e.at_ 5).sameOwners.trans ((SameOwners.modCore _ d c _).trans (.modCluster _ d (c / 8) _))

theorem leafUse_of_sameOwners {s t : State} (h : SameOwners s t) (d va : Nat) (wt : Want) (e : TlbEnt) :
    leafUse t d va wt e = leafUse s d va wt e := by
  unfold leafUse
  rw [h.own]

theorem sentTo_of_sameOwners {s t : State} (h : SameOwners s t) (a : Acc) (p : Phys) : a.sentTo t p = a.sentTo s p := by
  unfold Acc.sentTo routeOf
  rw [h.omap]

/-! ### The three ends of a walk (R22, R24, R28, R56, R57, R60) -/

@[simp] theorem noteUse_accs (s : State) (d cl : Nat) (p : Phys) : (noteUse s d cl p).accs = s.accs := by
  unfold noteUse
  split <;> rfl

/-- A load or store of a home-only page is on its way to its home, and the other accesses stand where they stood (R24). -/
theorem proceed_homeOnly {s : State} {a : Acc} {p : Phys} (hk : (∃ sz, a.kind = .load sz) ∨ a.kind = .store) (ho : a.oldPa = none)
    (hp : p.sl = 2) :
    (proceed s a p).acc? a.id = some (a.sentTo s p) ∧ ∀ x ∈ s.accs, x.id ≠ a.id → x ∈ (proceed s a p).accs := by
  have hsent : ∃ g g' : Acc → Acc,
      proceed s a p = (((noteUse s a.frag.die (a.frag.core / 8) p).modAcc a.id g).modAcc a.id g').sendAcc (a.sentTo s p) := by
    obtain ⟨sz, hk⟩ | hk := hk <;>
      exact ⟨_, _, by simp [proceed, Acc.sentTo, State.sendWrite, hk, ho, hp]; rfl⟩
  obtain ⟨g, g', hs⟩ := hsent
  rw [hs]
  refine ⟨acc?_sendAcc _ (a.sentTo s p), fun x hx hn => mem_sendAcc_of_ne (mem_modAcc_of_ne (mem_modAcc_of_ne ?_ hn) hn) hn⟩
  rwa [noteUse_accs]

/-- A walk that finds a leaf of a home-only page sends the access to its home. -/
theorem walkAcc_findsHome {s : State} {a : Acc} {p : Phys} (h : FindsHome s a p) :
    (walkAcc s a).acc? a.id = some (a.sentTo s p) ∧ ∀ x ∈ s.accs, x.id ≠ a.id → x ∈ (walkAcc s a).accs := by
  obtain ⟨hk, ho, hp, e, used, dir, hw, hl⟩ := h
  generalize hu : walkFill (tlbFill (touchEntries s used e.at_ .r) a.frag.die a.frag.core e) a.frag.die a.frag.core dir = u
  have hsu : SameOwners s u := hu ▸
    ((touchEntries_written s used e.at_ .r).sameOwners.trans (tlbFill_sameOwners _ _ _ _)).trans (walkFill_sameOwners _ _ _ _)
  generalize hv : (if a.kind.writes then setDirty u a.frag.die a.frag.core e else u) = v
  have hsv : SameOwners s v := by
    rw [← hv]
    split
    · exact hsu.trans (setDirty_sameOwners _ _ _ _)
    · exact hsu
  have hwalk : walkAcc s a = proceed v a p := by
    unfold walkAcc
    rw [walkOf] at hw
    simp only [hw, hu, withLeaf, leafUse_of_sameOwners hsu, hl, hv]
  rw [hwalk, ← sentTo_of_sameOwners hsv, ← hsv.accs]
  exact proceed_homeOnly hk ho hp

theorem walkAcc_fault {s : State} {a : Acc} (h : walkOf s a = .fault) : walkAcc s a = failAcc s a 1 := by
  rw [walkOf] at h
  simp only [walkAcc, h]

theorem walkAcc_busy {s : State} {a : Acc} (h : walkOf s a = .busy) (hp : a.kind.isPref = false) :
    walkAcc s a = s.modAcc a.id (fun a => { a with st := .busyWalk }) := by
  rw [walkOf] at h
  simp [walkAcc, h, hp]

/-- A walk that is due is made; that of an address above 57 bits, or of a die without a table, is the fault that `PAGE_WALK` gives before it walks (R18). -/
theorem exec_pageWalk {s : State} {a : Acc} (h : WalkDue s a) : exec (.pageWalk a.id) s = .next (walkAcc s a) := by
  obtain ⟨hin, hst, htlb, hfree⟩ := h
  have hx : exec (.pageWalk a.id) s = execPageWalk a.id s := rfl
  rw [hx, execPageWalk]
  rw [InFlight] at hin
  simp only [hin, hst, htlb, Nat.not_le.mpr hfree]
  by_cases hno : (decide (a.va ≥ 2 ^ 57) || !(s.die a.frag.die).pgroot.getLsbD 0) = true
  · have hf : walkOf s a = .fault := by
      unfold walkOf walk
      rw [if_pos hno]
    simp only [walkAcc_fault hf, hno, if_true]
    rfl
  · simp only [hno]
    rfl

theorem exec_walkResume {s : State} {a : Acc} (h : WalkStalled s a) : exec (.walkResume a.id) s = .next (walkAcc s a) := by
  obtain ⟨hin, hst⟩ := h
  have hx : exec (.walkResume a.id) s = execWalkResume a.id s := rfl
  rw [hx, execWalkResume]
  rw [InFlight] at hin
  simp [hin, hst]

/-! ### A line leaves a cluster store (R70, R73) -/

/-- The entries that a filter of keys leaves. -/
theorem Tab.get?_filter {α : Type} (t : Tab α) (p : Nat → Bool) (m : Nat) :
    Tab.get? (t.filter (fun e => p e.1)) m = if p m then Tab.get? t m else none := by
  induction t with
  | nil => simp [Tab.get?]
  | cons e t ih =>
    obtain ⟨i, x⟩ := e
    by_cases hp : p i = true
    · rw [List.filter_cons_of_pos (p := fun e : Nat × α => p e.1) hp, Tab.get?, ih, Tab.get?]
      by_cases hm : i = m
      · simp [← hm, hp]
      · simp [hm]
    · rw [List.filter_cons_of_neg (p := fun e : Nat × α => p e.1) hp, ih, Tab.get?]
      by_cases hm : i = m
      · simp [← hm, hp]
      · simp [hm]

theorem cluster_modCluster_same {s : State} {d c : Nat} {g : Cluster → Cluster} (h : d < s.dies.length) :
    (s.modCluster d c g).cluster d c = g (s.cluster d c) := by
  unfold State.cluster State.modCluster
  rw [die_modDie_same h]
  simp [Tab.getD, Tab.get?_set]

/-- A line that is found lies in a die that is there. -/
theorem die_lt_of_lineAt {s : State} {d c li : Nat} {l : Line} (h : lineAt s d c li = some l) : d < s.dies.length := by
  by_contra hd
  have h0 : s.die d = default := by simp [State.die, hd]
  unfold lineAt State.cluster at h
  rw [h0] at h
  exact absurd h (by simp [Tab.getD, Tab.get?, show (default : Die).clusters = [] from rfl])

theorem rdB_writeBack (s : State) (li x : Nat) (l : Line) :
    rdB (writeBack s li l) x = if 128 * li ≤ x ∧ x < 128 * li + l.data.length then (l.data[x - 128 * li]?).getD 0 else rdB s x := by
  have hmem : (writeBack s li l).mem = (wrBytes s (128 * li) l.data).mem :=
    foldl_keeps (P := fun t : State => t.mem = (wrBytes s (128 * li) l.data).mem) (fun _ _ h => (setPois_mem _ _ _).trans h) l.pois _ rfl
  rw [rdB_of_mem hmem, rdB_wrBytes]

theorem exec_clusterStoreEviction {s : State} {d cl li : Nat} {l : Line} (h : lineAt s d cl li = some l) (hc : canDrop s d (li, l) = true) :
    exec (.clusterStoreEviction d cl li) s = .next (dropLine s d cl li l) := by
  have hx : exec (.clusterStoreEviction d cl li) s = execClusterStoreEviction d cl li s := rfl
  rw [hx, execClusterStoreEviction]
  simp only [h, hc, if_true]

/-- Of a cluster's lines the one that is dropped is gone, and it alone. -/
theorem lineAt_dropLine {s : State} {d cl li : Nat} (l : Line) (h : d < s.dies.length) (m : Nat) :
    lineAt (dropLine s d cl li l) d cl m = if m != li then lineAt s d cl m else none := by
  have hd : (if l.dirty then writeBack s li l else s).dies = s.dies := by
    split
    · exact (writeBack_written s li l).dies
    · rfl
  unfold dropLine dropLines lineAt
  rw [cluster_modCluster_same (by rwa [refetch_dies, hd])]
  refine (Tab.get?_filter _ (fun i => i != li) m).trans ?_
  simp only [State.cluster, State.die, refetch_dies, hd]

theorem rdB_dropLine (s : State) (d cl li x : Nat) {l : Line} (hl : l.data.length = 128) :
    rdB (dropLine s d cl li l) x = if l.dirty = true ∧ x / 128 = li then (l.data[x % 128]?).getD 0 else rdB s x := by
  have hmem : (dropLine s d cl li l).mem = (if l.dirty then writeBack s li l else s).mem := rfl
  rw [rdB_of_mem hmem]
  cases l.dirty with
  | false => simp
  | true =>
    rw [if_pos rfl, rdB_writeBack, hl]
    by_cases hx : x / 128 = li
    · rw [if_pos (by omega), if_pos ⟨rfl, hx⟩, show x - 128 * li = x % 128 by omega]
    · rw [if_neg (by omega), if_neg (fun h => hx h.2)]

/-! ### O8 -/

/-- Settles O8: a walk that begins and one that resumes come to `walkAcc`, whose three ends are the lemmas above. -/
theorem walksAndEvictions : Obligations.WalksAndEvictions := by
  unfold Obligations.WalksAndEvictions
  refine ⟨?walkHome, ?resumeHome, ?walkFault, ?resumeFault, ?walkBusy, ?resumeBusy, ?eviction⟩
  case walkHome => exact fun s a p hw hf => ⟨_, exec_pageWalk hw, walkAcc_findsHome hf⟩
  case resumeHome => exact fun s a p hw hf => ⟨_, exec_walkResume hw, walkAcc_findsHome hf⟩
  case walkFault => exact fun s a hw hp hf => ⟨_, exec_pageWalk hw, walkAcc_fault hf ▸ failAcc_bad hw.1 hp 1⟩
  case resumeFault => exact fun s a hw hp hf => ⟨_, exec_walkResume hw, walkAcc_fault hf ▸ failAcc_bad hw.1 hp 1⟩
  case walkBusy =>
    exact fun s a hw hp hb => ⟨_, exec_pageWalk hw, walkAcc_busy hb hp ▸ acc?_modAcc hw.1 (fun _ => rfl), walkAcc_busy hb hp ▸ rfl⟩
  case resumeBusy =>
    intro s a hw hp hb
    obtain ⟨hin, hst⟩ := hw
    have ha : { a with st := .busyWalk } = a := by rw [← hst]
    refine ⟨_, exec_walkResume ⟨hin, hst⟩, ?_, walkAcc_busy hb hp ▸ rfl⟩
    rw [walkAcc_busy hb hp, acc?_modAcc (g := fun a => { a with st := .busyWalk }) hin (fun _ => rfl), ha]
  case eviction =>
    intro s d cl li l hl hn hc
    have hd := die_lt_of_lineAt hl
    have hdrop : canDrop s d (li, l) = true := by
      obtain hc | ⟨hp, hf⟩ := hc
      · simp [canDrop, hc]
      · simp [canDrop, hp, hf]
    refine ⟨_, exec_clusterStoreEviction hl hdrop, ?_, fun m hm => ?_, fun x => rdB_dropLine s d cl li x hn⟩
    · rw [lineAt_dropLine l hd, if_neg (by simp)]
    · rw [lineAt_dropLine l hd, if_pos (by simpa using hm)]

end Sys2Proof.Machine
end

section
/-! PROOFS. Errors, tests, sensors and resets (R12, R393, R430, R431, R433, R463, R465), and O53. -/

namespace Sys2Proof.Machine

/-! ### Cores, clusters and warps after a change of a die -/

theorem core_modCore_same {s : State} {d k : Nat} {g : Core → Core} (h : d < s.dies.length) : (s.modCore d k g).core d k = g (s.core d k) := by
  unfold State.core State.modCore
  rw [die_modDie_same h]
  simp [Tab.getD, Tab.get?_set]

theorem core_modDie_of_keeps {s : State} {d e k : Nat} {g : Die → Die} (hg : ∀ x, (g x).cores = x.cores) : (s.modDie d g).core e k = s.core e k := by
  unfold State.core
  rw [die_modDie_keeps (p := Die.cores) hg]

theorem lineAt_modDie_of_keeps {s : State} {d e c li : Nat} {g : Die → Die} (hg : ∀ x, (g x).clusters = x.clusters) :
    lineAt (s.modDie d g) e c li = lineAt s e c li := by
  unfold lineAt State.cluster
  rw [die_modDie_keeps (p := Die.clusters) hg]

theorem warp?_modDie_of_keeps {s : State} {d : Nat} {f : FragRef} {g : Die → Die} (hg : ∀ x, (g x).wgs = x.wgs) :
    (s.modDie d g).warp? f = s.warp? f := by
  unfold State.warp? State.wgOf? State.wg?
  rw [die_modDie_keeps (p := Die.wgs) hg]

theorem cycOf_modDie_of_keeps {s : State} {d e k : Nat} {g : Die → Die} (hg : ∀ x, (g x).tick0 = x.tick0) : (s.modDie d g).cycOf e k = s.cycOf e k := by
  unfold State.cycOf
  rw [die_modDie_keeps (p := Die.tick0) hg]
  rfl

theorem Warp.thread_modThr {w : Warp} {t : Nat} {g : Thr → Thr} (h : t < w.thr.length) : (w.modThr t g).thread t = g (w.thread t) := by
  unfold Warp.thread Warp.modThr
  simp only [getElem?_listMod, if_true, List.getElem?_eq_getElem h, Option.map_some, Option.getD_some]

/-! ### Errors in storage (R430, R431) -/

/-- A unit that `setPois` marks is poisoned. -/
theorem isPois_setPois_unit (s : State) (u : Nat) : isPois (setPois s (u * 32) 32) (u * 32) 32 = true := by
  have hu : (List.range ((u * 32 % 32 + 32 + 31) / 32)).map (fun i => ((u * 32 / 32 + i) * 32, 32)) = [(u * 32, 32)] := by
    rw [show (u * 32 % 32 + 32 + 31) / 32 = 1 by omega, show u * 32 / 32 = u by omega]
    rfl
  have hmem : (u * 32, 32) ∈ (setPois s (u * 32) 32).poison := by
    simp only [setPois, hu, List.mem_append, List.mem_filter, List.mem_singleton, true_and]
    by_cases hp : (u * 32, 32) ∈ s.poison <;> simp [hp]
  exact List.any_eq_true.mpr ⟨_, hmem, by simp [overlap]⟩

/-- A line in which unit `u` is marked poisoned. -/
def Line.marked (l : Line) (u : Nat) : Line := if l.pois.contains u then l else { l with pois := u :: l.pois }

theorem Line.marked_data (l : Line) (u : Nat) : (l.marked u).data = l.data := by
  unfold Line.marked
  split <;> rfl

theorem Line.mem_marked_pois (l : Line) (u : Nat) : u ∈ (l.marked u).pois := by
  unfold Line.marked
  split
  · rename_i h
    exact List.contains_iff_mem.mp h
  · exact List.mem_cons_self

/-- A thread in which the register pair of the even key `key` is marked poisoned; key 0 is that of `w0`, which is never poisoned. -/
def Thr.poisonPair (x : Thr) (key : Nat) : Thr :=
  { x with pois := ([key, key + 1].filter (· != 0)) ++ x.pois.filter (fun k => k / 2 * 2 != key) }

theorem Thr.mem_poisonPair (x : Thr) {key k : Nat} (h0 : k ≠ 0) (hk : k = key ∨ k = key + 1) : k ∈ (x.poisonPair key).pois :=
  List.mem_append_left _ (List.mem_filter.mpr ⟨by simpa using hk, by simpa using h0⟩)

/-- A warp in which register `i` of the k registers is marked poisoned, but for `k0`. -/
def Warp.poisonK (w : Warp) (i : Nat) : Warp := { w with kpois := w.kpois ||| ((1 : W32) <<< i &&& 0xFFFFFFFE) }

theorem Warp.poisonK_kpois (w : Warp) (i : Nat) {r : Nat} (hr : r < 32) :
    (w.poisonK i).kpois.getLsbD r = (w.kpois.getLsbD r || (r != 0 && r == i)) := by
  have hm : ∀ r < 32, (0xFFFFFFFE : W32).getLsbD r = (r != 0) := by decide
  have h1 : ((1 : W32) <<< i).getLsbD r = (r == i) := by
    have hb : (1 : W32).getLsbD (r - i) = decide (r - i = 0) := BitVec.getLsbD_one.trans (by simp)
    rw [Bool.eq_iff_iff, BitVec.getLsbD_shiftLeft, hb, beq_iff_eq]
    simp only [hr, decide_true, Bool.true_and, Bool.and_eq_true, Bool.not_eq_true', decide_eq_false_iff_not, decide_eq_true_eq]
    omega
  simp only [Warp.poisonK, BitVec.getLsbD_or, BitVec.getLsbD_and, hm r hr, h1, Bool.and_comm]

/-- An uncorrectable error is counted once its unit is marked. -/
def uncCounted (u : State) (d : Nat) : State := u.modDie d (fun x => { x with eccUnc := sat16 x.eccUnc })

theorem exec_eccError_corrected (s : State) (a d k unit : Nat) :
    exec (.eccError a true d k unit) s = .next (s.modDie d (fun x => { x with eccCorr := sat16 x.eccCorr })) := rfl

theorem exec_eccError_poisons {s u : State} {a d k unit : Nat} (h : poisonUnit s unit d k a = some u) :
    exec (.eccError a false d k unit) s = .next (uncCounted u d) := by
  have hx : exec (.eccError a false d k unit) s = execEccError a false d k unit s := rfl
  rw [hx, execEccError]
  simp only [h]
  rfl

/-- A mark that leaves the count of its die alone raises it by one. -/
theorem eccUnc_uncCounted {s u : State} {d : Nat} (hl : d < u.dies.length) (hu : (u.die d).eccUnc = (s.die d).eccUnc) :
    ((uncCounted u d).die d).eccUnc = sat16 (s.die d).eccUnc := by
  rw [uncCounted, die_modDie_same hl, hu]

theorem core_uncCounted (u : State) (d e k : Nat) : (uncCounted u d).core e k = u.core e k := core_modDie_of_keeps (fun _ => rfl)

theorem warp?_uncCounted (u : State) (d : Nat) (f : FragRef) : (uncCounted u d).warp? f = u.warp? f := warp?_modDie_of_keeps (fun _ => rfl)

theorem lineAt_uncCounted (u : State) (d e c li : Nat) : lineAt (uncCounted u d) e c li = lineAt u e c li := lineAt_modDie_of_keeps (fun _ => rfl)

/-- The count of a die whose mark is a change of the die that keeps it. -/
theorem eccUnc_modDie_uncCounted {s : State} {d : Nat} {g : Die → Die} (hd : d < s.dies.length) (hg : ∀ x, (g x).eccUnc = x.eccUnc) :
    ((uncCounted (s.modDie d g) d).die d).eccUnc = sat16 (s.die d).eccUnc :=
  eccUnc_uncCounted (by rwa [State.modDie_dies, length_listMod]) (die_modDie_keeps hg)

section Ecc

variable {s : State} {a d k : Nat}

theorem eccError_memory (hd : d < s.dies.length) (ha : stackOf a ≠ none) :
    ∃ t, exec (.eccError a false d k 0) s = .next t ∧ (t.die d).eccUnc = sat16 (s.die d).eccUnc ∧ t.mem = s.mem ∧
      isPois t (a / 32 * 32) 32 = true := by
  have hu : poisonUnit s 0 d k a = some (setPois s (a / 32 * 32) 32) := if_pos (Option.isSome_iff_ne_none.mpr ha)
  exact ⟨_, exec_eccError_poisons hu, eccUnc_uncCounted hd rfl, rfl, isPois_setPois_unit s (a / 32)⟩

theorem eccError_scratchpad (hd : d < s.dies.length) (ha : a < 0x60000) :
    ∃ t, exec (.eccError a false d k 1) s = .next t ∧ (t.die d).eccUnc = sat16 (s.die d).eccUnc ∧ a / 8 ∈ (t.core d k).spois := by
  have hu : poisonUnit s 1 d k a =
      some (s.modCore d k (fun x => { x with spois := if x.spois.contains (a / 8) then x.spois else a / 8 :: x.spois })) :=
    if_neg (Nat.not_le.mpr ha)
  refine ⟨_, exec_eccError_poisons hu, eccUnc_modDie_uncCounted hd (fun _ => rfl), ?_⟩
  rw [core_uncCounted, core_modCore_same hd]
  dsimp only
  split
  · rename_i h
    exact List.contains_iff_mem.mp h
  · exact List.mem_cons_self

theorem eccError_line {l : Line} (hl : lineAt s d (k / 8) (a / 128) = some l) :
    ∃ t l', exec (.eccError a false d k 2) s = .next t ∧ (t.die d).eccUnc = sat16 (s.die d).eccUnc ∧
      lineAt t d (k / 8) (a / 128) = some l' ∧ l'.data = l.data ∧ a % 128 / 8 ∈ l'.pois := by
  have hd := die_lt_of_lineAt hl
  have hu : poisonUnit s 2 d k a = some (s.modCluster d (k / 8) (fun x => { x with lines := Tab.set x.lines (a / 128) (l.marked (a % 128 / 8)) })) :=
    congrArg (Option.map _) hl
  refine ⟨_, l.marked (a % 128 / 8), exec_eccError_poisons hu, eccUnc_modDie_uncCounted hd (fun _ => rfl), ?_, ?_, ?_⟩
  · rw [lineAt_uncCounted, lineAt, cluster_modCluster_same hd]
    exact (Tab.get?_set _ _ _ _).trans (if_pos rfl)
  · exact l.marked_data _
  · exact l.mem_marked_pois _

theorem eccError_accumulator (hd : d < s.dies.length) (ha : a < 65536) :
    ∃ t, exec (.eccError a false d k 4) s = .next t ∧ (t.die d).eccUnc = sat16 (s.die d).eccUnc ∧ (∀ e, e / 2 = a / 2 → e ∈ (t.core d k).accPois) ∧
      (t.core d k).acc = (s.core d k).acc := by
  have hu : poisonUnit s 4 d k a = some (s.modCore d k (fun x =>
      { x with accPois := [a / 2 * 2, a / 2 * 2 + 1] ++ x.accPois.filter (fun e => e / 2 != a / 2) })) :=
    if_neg (Nat.not_le.mpr ha)
  refine ⟨_, exec_eccError_poisons hu, eccUnc_modDie_uncCounted hd (fun _ => rfl), fun e he => ?_, ?_⟩
  · rw [core_uncCounted, core_modCore_same hd]
    refine List.mem_append_left _ ?_
    simp only [List.mem_cons, List.not_mem_nil, or_false]
    omega
  · rw [core_uncCounted, core_modCore_same hd]

variable {f : FragRef} {w : Warp}

theorem eccError_register (hf : f = ⟨d, k, a / 2 ^ 28, a / 2 ^ 21 % 128, false⟩) (hw : s.warp? f = some w) (ht : a / 2 ^ 16 % 32 < w.thr.length) :
    ∃ t w', exec (.eccError a false d k 5) s = .next t ∧ t.warp? f = some w' ∧
      ∀ key, key ≠ 0 → key / 2 = a % 65536 / 2 → key ∈ (w'.thread (a / 2 ^ 16 % 32)).pois := by
  have hu : poisonUnit s 5 d k a = some (s.modWarp f (fun w => w.modThr (a / 2 ^ 16 % 32) (fun x => x.poisonPair (bitsOf a 0 16 / 2 * 2)))) := by
    subst hf
    exact congrArg (Option.map _) hw
  refine ⟨_, w.modThr (a / 2 ^ 16 % 32) (fun x => x.poisonPair (bitsOf a 0 16 / 2 * 2)), exec_eccError_poisons hu, ?_, fun key h0 hk => ?_⟩
  · rw [warp?_uncCounted, warp?_modWarp, hw, Option.map_some]
  · have hb : bitsOf a 0 16 = a % 65536 := by simp [bitsOf]
    rw [Warp.thread_modThr ht, hb]
    exact Thr.mem_poisonPair _ h0 (by omega)

theorem eccError_kRegister (hf : f = ⟨d, k, a / 2 ^ 28, a / 2 ^ 21 % 128, false⟩) (hw : s.warp? f = some w) :
    ∃ t w', exec (.eccError a false d k 6) s = .next t ∧ t.warp? f = some w' ∧
      ∀ r, r < 32 → w'.kpois.getLsbD r = (w.kpois.getLsbD r || (r != 0 && r == a % 32)) := by
  have hu : poisonUnit s 6 d k a = some (s.modWarp f (fun w => w.poisonK (bitsOf a 0 5))) := by
    subst hf
    exact congrArg (Option.map _) hw
  refine ⟨_, w.poisonK (bitsOf a 0 5), exec_eccError_poisons hu, ?_, fun r hr => ?_⟩
  · rw [warp?_uncCounted, warp?_modWarp, hw, Option.map_some]
  · have hb : bitsOf a 0 5 = a % 32 := by simp [bitsOf]
    rw [hb]
    exact w.poisonK_kpois _ hr

end Ecc

theorem eccError_noUnit (s : State) (a d k : Nat) {unit : Nat} (h : 6 < unit) : exec (.eccError a false d k unit) s = .next s := by
  have hu : poisonUnit s unit d k a = none := by
    obtain ⟨n, rfl⟩ : ∃ n, unit = n + 7 := ⟨unit - 7, by omega⟩
    rfl
  have hx : exec (.eccError a false d k unit) s = execEccError a false d k unit s := rfl
  rw [hx, execEccError]
  simp only [hu]
  rfl

/-! ### Known-answer tests (R433) -/

/-- The state in which a test that was due has ended, and its outcome is drawn. -/
def katEnded (s : State) (d k lane : Nat) : State :=
  (s.modCore d k (fun c => { c with katAt := Tab.set c.katAt lane (s.cycOf d k) })).takeBool.2

/-- A mismatch is counted. -/
def katCounted (u : State) (d : Nat) : State :=
  u.modDie d (fun x => { x with katFail := if x.katFail == 0xFFFFFFFF then x.katFail else x.katFail + 1 })

/-- The lane of a mismatch is fenced, and its core wants a rotation. -/
def laneFenced (u : State) (d k lane : Nat) : State := u.modCore d k (fun c => { c with fenced := lane :: c.fenced, rotWant := true })

section Kat

variable {s : State} {d k lane : Nat}

/-- A test that is due ends: with no mismatch, or with one on a lane that is fenced already, or on one that it fences. -/
theorem exec_katDue (hen : (s.die d).katEn = true) (hh : (s.die d).halt = false) (hr : (s.die d).inReset = false)
    (hdue : Tab.getD (s.core d k).katAt lane 0 + max 1 (s.die d).katIntv.toNat * 65536 ≤ s.cycOf d k) :
    exec (.katDue d k lane) s = .next
      (if Config.freeBool s.freeIx = false then katEnded s d k lane
       else if lane ∈ (s.core d k).fenced then katCounted (katEnded s d k lane) d
       else
         let u := laneFenced (katCounted (katEnded s d k lane) d) d k lane
         postEvent u d (evRecord 5 d k lane 0xFF 0 0 0 0 0 (u.cycOf d k))) := by
  have hx : exec (.katDue d k lane) s = execKatDue d k lane s := rfl
  rw [hx, execKatDue]
  simp only [hen, hh, hr, Nat.not_lt.mpr hdue, Bool.not_true, Bool.or_false, decide_false, Bool.false_eq_true, if_false,
    List.contains_iff_mem, Bool.not_eq_true']
  rfl

theorem cycOf_laneFenced : (laneFenced (katCounted (katEnded s d k lane) d) d k lane).cycOf d k = s.cycOf d k :=
  calc (laneFenced (katCounted (katEnded s d k lane) d) d k lane).cycOf d k
      = (katCounted (katEnded s d k lane) d).cycOf d k := cycOf_modDie_of_keeps (fun _ => rfl)
    _ = (katEnded s d k lane).cycOf d k := cycOf_modDie_of_keeps (fun _ => rfl)
    _ = s.cycOf d k := cycOf_modDie_of_keeps (s := s) (fun _ => rfl)

theorem core_katEnded (hd : d < s.dies.length) :
    (katEnded s d k lane).core d k = { s.core d k with katAt := Tab.set (s.core d k).katAt lane (s.cycOf d k) } :=
  core_modCore_same (g := fun c => { c with katAt := Tab.set c.katAt lane (s.cycOf d k) }) hd

theorem katAt_katEnded (hd : d < s.dies.length) : Tab.getD ((katEnded s d k lane).core d k).katAt lane 0 = s.cycOf d k := by
  rw [core_katEnded hd]
  simp [Tab.getD, Tab.get?_set]

theorem katFail_katEnded : ((katEnded s d k lane).die d).katFail = (s.die d).katFail := die_modDie_keeps (s := s) (p := Die.katFail) (fun _ => rfl)

theorem evPend_katEnded : ((katEnded s d k lane).die d).evPend = (s.die d).evPend := die_modDie_keeps (s := s) (p := Die.evPend) (fun _ => rfl)

theorem die_lt_katEnded (hd : d < s.dies.length) : d < (katEnded s d k lane).dies.length := by
  rwa [katEnded, State.takeBool_dies, State.modCore, State.modDie_dies, length_listMod]

variable {u : State}

theorem die_lt_katCounted (hd : d < u.dies.length) : d < (katCounted u d).dies.length := by
  rwa [katCounted, State.modDie_dies, length_listMod]

theorem core_katCounted : (katCounted u d).core d k = u.core d k := core_modDie_of_keeps (fun _ => rfl)

theorem katFail_katCounted (hd : d < u.dies.length) :
    ((katCounted u d).die d).katFail = if (u.die d).katFail = 0xFFFFFFFF then 0xFFFFFFFF else (u.die d).katFail + 1 := by
  rw [katCounted, die_modDie_same hd]
  simp only [beq_iff_eq]
  split
  · assumption
  · rfl

theorem evPend_katCounted : ((katCounted u d).die d).evPend = (u.die d).evPend := die_modDie_keeps (p := Die.evPend) (fun _ => rfl)

theorem die_lt_laneFenced (hd : d < u.dies.length) : d < (laneFenced u d k lane).dies.length := by
  rwa [laneFenced, State.modCore, State.modDie_dies, length_listMod]

theorem core_laneFenced (hd : d < u.dies.length) :
    (laneFenced u d k lane).core d k = { u.core d k with fenced := lane :: (u.core d k).fenced, rotWant := true } :=
  core_modCore_same (g := fun c => { c with fenced := lane :: c.fenced, rotWant := true }) hd

theorem katFail_laneFenced : ((laneFenced u d k lane).die d).katFail = (u.die d).katFail := die_modDie_keeps (p := Die.katFail) (fun _ => rfl)

theorem evPend_laneFenced : ((laneFenced u d k lane).die d).evPend = (u.die d).evPend := die_modDie_keeps (p := Die.evPend) (fun _ => rfl)

theorem core_postEvent (r : List Byte) : (postEvent u d r).core d k = u.core d k := core_modDie_of_keeps (fun _ => rfl)

theorem katFail_postEvent (r : List Byte) : ((postEvent u d r).die d).katFail = (u.die d).katFail := die_modDie_keeps (p := Die.katFail) (fun _ => rfl)

theorem evPend_postEvent (hd : d < u.dies.length) (r : List Byte) : ((postEvent u d r).die d).evPend = (u.die d).evPend ++ [r] := by
  rw [postEvent, die_modDie_same hd]

/-- What a test that is due leaves in each of its three outcomes. -/
theorem katDue_ends (hd : d < s.dies.length) (hen : (s.die d).katEn = true) (hh : (s.die d).halt = false) (hr : (s.die d).inReset = false)
    (hdue : Tab.getD (s.core d k).katAt lane 0 + max 1 (s.die d).katIntv.toNat * 65536 ≤ s.cycOf d k) :
    ∃ t, exec (.katDue d k lane) s = .next t ∧ Tab.getD (t.core d k).katAt lane 0 = s.cycOf d k ∧ t.mem = s.mem ∧
      (Config.freeBool s.freeIx = false → (t.die d).katFail = (s.die d).katFail ∧ (t.core d k).fenced = (s.core d k).fenced) ∧
      (Config.freeBool s.freeIx = true → (t.die d).katFail = (if (s.die d).katFail = 0xFFFFFFFF then 0xFFFFFFFF else (s.die d).katFail + 1) ∧
        lane ∈ (t.core d k).fenced ∧
        (lane ∉ (s.core d k).fenced → (t.core d k).rotWant = true ∧
          (t.die d).evPend = (s.die d).evPend ++ [evRecord 5 d k lane 0xFF 0 0 0 0 0 (s.cycOf d k)])) := by
  refine ⟨_, exec_katDue hen hh hr hdue, ?_⟩
  have hd1 : d < (katEnded s d k lane).dies.length := die_lt_katEnded hd
  have hcore := core_katEnded (k := k) (lane := lane) hd
  by_cases hfree : Config.freeBool s.freeIx = false
  · rw [if_pos hfree]
    exact ⟨katAt_katEnded hd, rfl, fun _ => ⟨katFail_katEnded, by rw [hcore]⟩, fun h => absurd (hfree.symm.trans h) Bool.false_ne_true⟩
  rw [if_neg hfree]
  by_cases hin : lane ∈ (s.core d k).fenced
  · rw [if_pos hin, core_katCounted, katFail_katCounted hd1, katFail_katEnded]
    exact ⟨katAt_katEnded hd, rfl, fun h => absurd h hfree, fun _ => ⟨rfl, by rwa [hcore], fun h => absurd hin h⟩⟩
  · rw [if_neg hin]
    have hd2 := die_lt_katCounted hd1
    simp only [cycOf_laneFenced, core_postEvent, core_laneFenced hd2, core_katCounted, katFail_postEvent, katFail_laneFenced,
      katFail_katCounted hd1, katFail_katEnded, evPend_postEvent (die_lt_laneFenced hd2), evPend_laneFenced, evPend_katCounted, evPend_katEnded]
    exact ⟨katAt_katEnded hd, rfl, fun h => absurd h hfree, fun _ => ⟨trivial, List.mem_cons_self, fun _ => ⟨trivial, trivial⟩⟩⟩

end Kat

/-! ### Sensors (R393) -/

/-- The three ranges of a sensor: above `thi`, below `thi` less the hysteresis, and between, where the core stays as it was. -/
theorem hotNow_ranges (sch : W64) (c : Core) {thi hyst : Nat} (ht : thi = bitsOf sch.toNat 8 8) (hy : hyst = bitsOf sch.toNat 16 8) :
    (thi < c.temp → hotNow sch c = true) ∧ (c.temp + hyst < thi → hotNow sch c = false) ∧
      (thi ≤ c.temp + hyst → c.temp ≤ thi → hotNow sch c = c.hot) := by
  subst ht hy
  refine ⟨fun h => ?above, fun h => ?below, fun h h' => ?between⟩
  case above => simp [hotNow, h]
  case below => simp [hotNow, h, show ¬ bitsOf sch.toNat 8 8 < c.temp by omega]
  case between => simp [hotNow, Nat.not_lt.mpr h, Nat.not_lt.mpr h']

theorem thermalSensorChange_hot {s : State} {d k temp thi hyst : Nat} (hd : d < s.dies.length) (ht : thi = bitsOf (s.die d).schctl.toNat 8 8)
    (hy : hyst = bitsOf (s.die d).schctl.toNat 16 8) :
    ∃ t, exec (.thermalSensorChange d k temp) s = .next t ∧ (t.core d k).temp = temp ∧ (thi < temp → (t.core d k).hot = true) ∧
      (temp + hyst < thi → (t.core d k).hot = false) ∧ (thi ≤ temp + hyst → temp ≤ thi → (t.core d k).hot = (s.core d k).hot) := by
  refine ⟨_, rfl, ?_⟩
  rw [core_modCore_same hd]
  exact ⟨rfl, hotNow_ranges (s.die d).schctl { s.core d k with temp := temp } ht hy⟩

theorem droopEvent_droops {s : State} {d k : Nat} (hd : d < s.dies.length) :
    ∃ t, exec (.droopEvent d k) s = .next t ∧ (t.core d k).droops = s.cycOf d k :: (s.core d k).droops :=
  ⟨_, rfl, by rw [core_modCore_same hd]⟩

/-! ### What a directory agent's writes leave unchanged (R104, R105) -/

theorem wrBits_written (s : State) (base b w v : Nat) : Written s (wrBits s base b w v) := wrBytes_written _ _ _

theorem aliasPut_written (s : State) (e : AliasEnt) (blk : Nat) (vs : List FV) : Written s (aliasPut s e blk vs) :=
  Written.trans (t := wrB s _ _) rfl (.foldl (fun _ _ => wrBits_written _ _ _ _ _) _ _)

theorem aliasWrite_written {s t : State} {pa : Nat} {bs : List Byte} {p : Bool} (h : aliasWrite s pa bs p = some t) : Written s t := by
  unfold aliasWrite at h
  obtain ⟨e, -, rfl⟩ := Option.map_eq_some_iff.mp h
  refine (aliasPut_written s e _ _).trans (.foldl (fun u r => ?_) _ _)
  split
  · exact setPois_written u _ _
  · exact rfl

theorem xlat_written {s t : State} {d va : Nat} {wt : Want} {p : Phys} (h : xlat s d va wt = .ok (t, p)) : Written s t := by
  unfold xlat at h
  split at h
  · cases h
  · cases h
  · split at h <;> cases h
    exact touchEntries_written _ _ _ _

/-- A chunk that an agent of a die alone writes. -/
theorem writeChunk_written {s t : State} {a : Agent} {va : Nat} {bs : List Byte} {po : Bool} {wt : Want} (ha : a.core = none)
    (h : writeChunk s a va bs po wt = .ok t) : Written s t := by
  unfold writeChunk xlatA at h
  simp only [ha] at h
  cases hx : xlat s a.die va wt with
  | error e => simp [hx, bind, Except.bind] at h
  | ok v =>
    obtain ⟨u, p⟩ := v
    have hu : Written s (letGo u a.who va) := (xlat_written hx).trans rfl
    simp only [hx, bind, Except.bind, pure, Except.pure, throw, throwThe, MonadExceptOf.throw] at h
    split at h
    · cases h
    · split at h
      · split at h
        · rename_i v hv
          cases h
          exact hu.trans (aliasWrite_written hv)
        · cases h
      · cases h
        split
        · exact (hu.trans (wrBytes_written _ _ _)).trans (setPois_written _ _ _)
        · exact hu.trans (wrBytes_written _ _ _)

theorem vwriteFuel_written {po : Bool} {wt : Want} {f : Nat} {s t : State} {a : Agent} {va : Nat} {bs : List Byte} (ha : a.core = none)
    (h : vwriteFuel po wt f s a va bs = .ok t) : Written s t := by
  induction f generalizing s va bs with
  | zero =>
    cases h
    exact .refl _
  | succ f ih =>
    unfold vwriteFuel at h
    split at h
    · cases h
      exact .refl _
    · cases hc : writeChunk s a va (bs.take (min bs.length (64 - va % 64))) po wt with
      | error e => simp [hc, bind, Except.bind] at h
      | ok u =>
        simp only [hc, bind, Except.bind] at h
        exact (writeChunk_written ha hc).trans (ih h)

theorem drainW_written (l : List (Nat × Nat × List Byte)) (s : State) (left : List (Nat × Nat × List Byte)) : Written s (drainW l s left) := by
  induction l generalizing s left with
  | nil => exact rfl
  | cons e l ih =>
    unfold drainW
    split
    · exact ih s _
    · split
      · rename_i u hu
        exact (vwriteFuel_written rfl hu).trans (ih u left)
      · exact ih s _
      · exact ih s _

theorem agentWrite_written (s : State) (d va : Nat) (bs : List Byte) : Written s (agentWrite s d va bs) := by
  unfold agentWrite flushDir
  split
  · exact rfl
  · exact Written.trans (t := { s with dirW := s.dirW ++ [(d, va, bs)] }) rfl (drainW_written _ _ _)

theorem putRec_written (s : State) (sp i : Nat) (r : KRec) : Written s (putRec s sp i r) := by
  unfold putRec
  split
  · exact .refl s
  · exact Written.trans (t := s.setSpace sp _) rfl (agentWrite_written _ _ _ _)

theorem reapRec_written (s : State) (sp i : Nat) (r : KRec) : Written s (reapRec s sp i r) := by
  unfold reapRec
  split
  · split
    · exact Written.trans (putRec_written s sp i _) rfl
    · exact .refl s
  · exact .refl s

theorem gatherUnpin_written (s : State) (c : Cmd) : Written s (gatherUnpin s c) := by
  unfold gatherUnpin
  split
  · refine Written.trans (t := s.modCmd c.id (fun c => { c with pinned := none })) rfl ?_
    dsimp only
    split
    · exact (putRec_written _ _ _ _).trans (reapRec_written _ _ _ _)
    · exact .refl _
  · exact .refl s

theorem gatherUnpin_of_unpinned (s : State) {c : Cmd} (h : c.pinned = none) : gatherUnpin s c = s := by
  unfold gatherUnpin
  rw [h]
  cases c.kind <;> rfl

/-! ### A die's reset (R465) -/

/-- A command of a die that is reset lets go of what it holds. -/
def cmdLost (s : State) (c : Cmd) : State := gatherUnpin (rebalCopied (releaseBusy s c.id false) c.id 0x17) c

/-- The state in which the commands of die `d` have let go of what they hold. -/
def cmdsLost (s : State) (d : Nat) : State := (s.cmds.filter (fun c => c.die == d)).foldl cmdLost s

theorem cmdLost_dies (s : State) (c : Cmd) : (cmdLost s c).dies = s.dies := (gatherUnpin_written _ c).dies

theorem cmdsLost_dies (s : State) (d : Nat) : (cmdsLost s d).dies = s.dies :=
  foldl_keeps (P := fun t => t.dies = s.dies) (g := cmdLost) (fun _ c h => (cmdLost_dies _ c).trans h) _ s rfl

/-- Memory changes only where a gather lets go of a record on which it holds a pin. -/
theorem cmdsLost_mem {s : State} {d : Nat} (h : ∀ c ∈ s.cmds, c.die = d → c.pinned = none) : (cmdsLost s d).mem = s.mem := by
  refine List.foldlRecOn (motive := fun t => t.mem = s.mem) _ cmdLost rfl (fun t ht c hc => ?_)
  obtain ⟨hc, hd⟩ := List.mem_filter.mp hc
  rw [cmdLost, gatherUnpin_of_unpinned _ (h c hc (by simpa using hd))]
  exact ht

theorem exec_thermalReset {s : State} {d : Nat} (h : (s.die d).cores.any (fun e => decide (e.2.temp > 115)) = true) :
    exec (.thermalReset d) s = .next { dieReset s d with pmcCause := Tab.set s.pmcCause d 1, aer := s.aer + 1 } :=
  congrArg Host.Outcome.next (if_pos h)

/-- A die with a core that its table lists is there. -/
theorem die_lt_of_cores_any {s : State} {d : Nat} {p : Nat × Core → Bool} (h : (s.die d).cores.any p = true) : d < s.dies.length := by
  by_contra hd
  have h0 : s.die d = default := by simp [State.die, hd]
  rw [h0] at h
  exact absurd h (by simp [show (default : Die).cores = [] from rfl])

theorem dieReset_mem {s : State} {d : Nat} (h : ∀ c ∈ s.cmds, c.die = d → c.pinned = none) : (dieReset s d).mem = s.mem := cmdsLost_mem h

/-- The die that is reset: no workgroup, grid or queue is there, its table is gone, and its cores count from this step. -/
theorem dieReset_die {s : State} {d : Nat} (hd : d < s.dies.length) :
    ∃ x, (dieReset s d).die d = x ∧ x.wgs = [] ∧ x.grids = [] ∧ x.queues = [] ∧ x.pgroot = 0 ∧
      x.cyc0 = (dieReset s d).clock ∧ x.tick0 = (dieReset s d).tick := by
  refine ⟨_, die_modDie_same (s := cmdsLost s d) ?_, rfl, rfl, rfl, rfl, rfl, rfl⟩
  rwa [cmdsLost_dies]

theorem dieReset_cyc {s : State} {d : Nat} (hd : d < s.dies.length) : (dieReset s d).cyc d = 0 := by
  obtain ⟨x, hx, -, -, -, -, hc, -⟩ := dieReset_die hd
  rw [State.cyc, hx, hc, Nat.sub_self]

theorem dieReset_cycOf {s : State} {d k : Nat} (hd : d < s.dies.length) (hk : k < 96) : (dieReset s d).cycOf d k = 0 := by
  obtain ⟨x, hx, -, -, -, -, -, ht⟩ := dieReset_die hd
  have hcyc : Tab.getD (dieReset s d).cycs (96 * d + k) 0 = 0 := by
    have hg : Tab.get? (dieReset s d).cycs (96 * d + k) = none :=
      (Tab.get?_filter (cmdsLost s d).cycs (fun i => i / 96 != d) (96 * d + k)).trans (if_neg (by simp [show (96 * d + k) / 96 = d by omega]))
    rw [Tab.getD, hg, Option.getD_none]
  rw [State.cycOf, hx, ht, hcyc, Nat.sub_self]

theorem dieReset_accs {s : State} {d : Nat} : ∀ a ∈ (dieReset s d).accs, a.frag.die ≠ d := fun a ha => by
  simpa using (List.mem_filter.mp ha).2

theorem dieReset_cmds {s : State} {d : Nat} : ∀ c ∈ (dieReset s d).cmds, c.die ≠ d := fun c hc => by
  simpa using (List.mem_filter.mp hc).2

/-- What the PMC's reset of a hot die leaves. -/
theorem thermalReset_die {s : State} {d : Nat} (h : (s.die d).cores.any (fun e => decide (e.2.temp > 115)) = true) :
    ∃ t, exec (.thermalReset d) s = .next t ∧ t.aer = s.aer + 1 ∧ Tab.get? t.pmcCause d = some 1 ∧ (t.die d).wgs = [] ∧
      ((∀ c ∈ s.cmds, c.die = d → c.pinned = none) → t.mem = s.mem) ∧ t.cyc d = 0 ∧ (∀ k, k < 96 → t.cycOf d k = 0) ∧
      (t.die d).grids = [] ∧ (t.die d).queues = [] ∧ (t.die d).pgroot = 0 ∧ (∀ a ∈ t.accs, a.frag.die ≠ d) ∧ ∀ c ∈ t.cmds, c.die ≠ d := by
  have hd := die_lt_of_cores_any h
  obtain ⟨x, hx, hwgs, hgrids, hqueues, hroot, -, -⟩ := dieReset_die hd
  have hdie : ({ dieReset s d with pmcCause := Tab.set s.pmcCause d 1, aer := s.aer + 1 } : State).die d = x := hx
  refine ⟨_, exec_thermalReset h, ?_⟩
  rw [hdie]
  exact ⟨rfl, (Tab.get?_set _ _ _ _).trans (if_pos rfl), hwgs, dieReset_mem, dieReset_cyc hd, fun k => dieReset_cycOf hd, hgrids, hqueues, hroot,
    dieReset_accs, dieReset_cmds⟩

/-! ### The package's reset, and firmware (R12, R446, R463) -/

/-- REV of a die that comes up with an image of header `h` (R446). -/
def revOf (rev : W64) (h : FwHdr) : W64 :=
  (rev &&& (0xFFFFFFFF : W64)) ||| (BitVec.ofNat 64 (h.minor % 2 ^ 16) <<< 32) ||| (BitVec.ofNat 64 (h.major % 2 ^ 16) <<< 48)

/-- REV is its low half and the image's two version fields above it. -/
theorem revOf_toNat (rev : W64) (h : FwHdr) :
    (revOf rev h).toNat = rev.toNat % 2 ^ 32 + 2 ^ 32 * (h.minor % 2 ^ 16 + 2 ^ 16 * (h.major % 2 ^ 16)) := by
  have hm : h.minor % 2 ^ 16 < 2 ^ 16 := Nat.mod_lt _ (by decide)
  have hM : h.major % 2 ^ 16 < 2 ^ 16 := Nat.mod_lt _ (by decide)
  have hlo : rev.toNat % 2 ^ 32 < 2 ^ 32 := Nat.mod_lt _ (by decide)
  have hlow : (rev &&& 0xFFFFFFFF).toNat = rev.toNat % 2 ^ 32 := Nat.and_two_pow_sub_one_eq_mod rev.toNat 32
  have hfield : ∀ n m, m < 2 ^ 16 → n ≤ 48 → (BitVec.ofNat 64 m <<< n).toNat = 2 ^ n * m := fun n m hm hn => by
    have hp : 2 ^ n * m < 2 ^ 64 :=
      calc 2 ^ n * m < 2 ^ n * 2 ^ 16 := Nat.mul_lt_mul_of_pos_left hm (Nat.two_pow_pos n)
        _ ≤ 2 ^ 48 * 2 ^ 16 := Nat.mul_le_mul_right _ (Nat.pow_le_pow_right (by decide) hn)
        _ = 2 ^ 64 := by decide
    rw [BitVec.toNat_shiftLeft, BitVec.toNat_ofNat, Nat.mod_eq_of_lt (show m < 2 ^ 64 by omega), Nat.shiftLeft_eq, Nat.mul_comm, Nat.mod_eq_of_lt hp]
  rw [revOf, BitVec.toNat_or, BitVec.toNat_or, hlow, hfield 32 _ hm (by decide), hfield 48 _ hM (by decide), Nat.or_comm (rev.toNat % 2 ^ 32),
    ← Nat.two_pow_add_eq_or_of_lt hlo, Nat.or_comm, ← Nat.two_pow_add_eq_or_of_lt (by omega)]
  omega

theorem die_boot {s : State} {d : Nat} (hd : d < s.dies.length) :
    (boot s).die d = { s.die d with inReset := fwDown s (d + 1), rev := revOf (s.die d).rev (fwHdr (fwImage s (d + 1))) } := by
  simp [State.die, boot, hd, revOf]

theorem stk_boot {s : State} {i : Nat} (hi : i < s.stks.length) : (boot s).stk i = { s.stk i with down := fwDown s (i + 5) } := by
  simp [State.stk, boot, hi]

/-- The state of a package that has been reset and has not come up. -/
def resetBegun (s : State) : State :=
  { packageReset s with
    tick := s.tick, agenda := s.agenda, freeIx := s.freeIx, nextId := s.nextId, clock := s.clock
    mem := s.mem, poison := s.poison, hist := s.hist
    fw := s.fwNew.foldl (fun t e => Tab.set t e.1 e.2) s.fw }

theorem exec_packageReset (s : State) : exec .packageReset s = .next (boot (resetBegun s)) := rfl

/-- Every die begins as its reset has it, with its cores' counts from this step. -/
theorem die_resetBegun (s : State) {d : Nat} (hd : d < 4) :
    ∃ loft all, (resetBegun s).die d = { Die.reset d loft all with cyc0 := s.clock, tick0 := s.tick } := by
  interval_cases d <;> exact ⟨_, _, rfl⟩

theorem die_boot_resetBegun (s : State) {d : Nat} (hd : d < 4) :
    ∃ loft all, (boot (resetBegun s)).die d = { Die.reset d loft all with
      cyc0 := s.clock, tick0 := s.tick, inReset := fwDown (boot (resetBegun s)) (d + 1), rev := revOf revReset (fwHdr (fwImage (boot (resetBegun s)) (d + 1))) } := by
  obtain ⟨loft, all, hdie⟩ := die_resetBegun s hd
  refine ⟨loft, all, ?_⟩
  rw [die_boot hd, hdie]
  rfl

/-- An image that was written replaces the one that its component had. -/
theorem fwImage_boot_of_written {s : State} {c : Nat} {b : List Byte} (h : s.fwNew = [(c, b)]) : fwImage (boot (resetBegun s)) c = b := by
  have hfw : Tab.get? (boot (resetBegun s)).fw c = some b := by
    show Tab.get? (s.fwNew.foldl (fun t e => Tab.set t e.1 e.2) s.fw) c = some b
    rw [h]
    exact (Tab.get?_set _ _ _ _).trans (if_pos rfl)
  rw [fwImage, hfw, Option.getD_some]

/-- A die of a package that has been reset. -/
theorem packageReset_die (s : State) {d : Nat} (hd : d < 4) : ∀ t, t = boot (resetBegun s) →
    (t.die d).own = (Die.reset d).own ∧ (t.die d).queues = [] ∧ (t.die d).pgroot = 0 ∧ (t.die d).wgs = [] ∧ (t.die d).inReset = fwDown t (d + 1) ∧
      t.cyc d = 0 ∧ (∀ k, t.cycOf d k = 0) ∧ (t.die d).rev.toNat % 2 ^ 32 = revReset.toNat ∧
      ∀ h, h = fwHdr (fwImage t (d + 1)) → (t.die d).rev.toNat / 2 ^ 32 = h.minor % 2 ^ 16 + 2 ^ 16 * (h.major % 2 ^ 16) := by
  rintro t rfl
  obtain ⟨loft, all, hdie⟩ := die_boot_resetBegun s hd
  have hr : revReset.toNat = 0x01010001 := rfl
  simp only [State.cyc, State.cycOf, hdie, revOf_toNat, hr]
  refine ⟨rfl, rfl, rfl, rfl, trivial, Nat.sub_self _, fun k => ?_, by omega, ?_⟩
  · exact Nat.sub_self _
  · rintro h rfl
    omega

theorem packageReset_all (s : State) : ∃ t, exec .packageReset s = .next t ∧ t.mem = s.mem ∧ t.poison = s.poison ∧ t.accs = [] ∧ t.cmds = [] ∧ t.spaces = [] ∧
    t.inb = [] ∧ t.dies.length = 4 ∧ t.stks.length = 8 ∧ (∀ c b, s.fwNew = [(c, b)] → fwImage t c = b) ∧
    (∀ i, i < 8 → (t.stk i).down = fwDown t (i + 5)) ∧
    ∀ d, d < 4 → (t.die d).own = (Die.reset d).own ∧ (t.die d).queues = [] ∧ (t.die d).pgroot = 0 ∧ (t.die d).wgs = [] ∧ (t.die d).inReset = fwDown t (d + 1) ∧
      t.cyc d = 0 ∧ (∀ k, t.cycOf d k = 0) ∧ (t.die d).rev.toNat % 2 ^ 32 = revReset.toNat ∧
      ∀ h, h = fwHdr (fwImage t (d + 1)) → (t.die d).rev.toNat / 2 ^ 32 = h.minor % 2 ^ 16 + 2 ^ 16 * (h.major % 2 ^ 16) := by
  refine ⟨_, exec_packageReset s, rfl, rfl, rfl, rfl, rfl, rfl, rfl, rfl, fun c b => fwImage_boot_of_written, fun i hi => ?_,
    fun d hd => packageReset_die s hd _ rfl⟩
  rw [stk_boot hi]
  rfl

/-- A write of the window's first word chooses a component, and begins its image (R463). -/
theorem registerWrite_fwSelect (s : State) (v : W64) :
    exec (.registerWrite ⟨4, 0x5000, v, 8⟩) s = .next { s with fwSel := v.toNat, fwNew := Tab.set s.fwNew v.toNat [] } := by
  rw [exec_registerWrite, execRegisterWrite]
  simp [fnDown, fwWrite]

/-- A write of the window's second word goes on with the image of the chosen component (R463). -/
theorem registerWrite_fwWord (s : State) (w : W64) :
    exec (.registerWrite ⟨4, 0x5008, w, 8⟩) s = .next { s with fwNew := Tab.modify s.fwNew s.fwSel (fun b => b ++ leBytes 8 w.toNat) } := by
  rw [exec_registerWrite, execRegisterWrite]
  simp [fnDown, fwWrite]

theorem registerWrite_firmware {s : State} {c : Nat} {v : W64} (w : W64) (hv : v.toNat = c) :
    (∃ t, exec (.registerWrite ⟨4, 0x5000, v, 8⟩) s = .next t ∧ t.fwSel = c ∧ Tab.get? t.fwNew c = some [] ∧ t.mem = s.mem) ∧
    (∀ b, s.fwSel = c → Tab.get? s.fwNew c = some b →
      ∃ t, exec (.registerWrite ⟨4, 0x5008, w, 8⟩) s = .next t ∧ Tab.get? t.fwNew c = some (b ++ leBytes 8 w.toNat) ∧ t.fw = s.fw) := by
  subst hv
  refine ⟨⟨_, registerWrite_fwSelect s v, rfl, ?_, rfl⟩, fun b hs hb => ⟨_, registerWrite_fwWord s w, ?_, rfl⟩⟩
  · exact (Tab.get?_set _ _ _ _).trans (if_pos rfl)
  · rw [hs]
    exact (Tab.get?_modify _ _ _ _).trans ((if_pos rfl).trans (congrArg _ hb))

/-! ### O53 -/

/-- Settles O53: each event by the lemma on it above. -/
theorem siliconEvents : Obligations.SiliconEvents := by
  unfold Obligations.SiliconEvents
  refine ⟨?ecc, ?kat, ?sensors, fun s d h => thermalReset_die h, packageReset_all, fun s c v w hv => registerWrite_firmware w hv⟩
  case ecc =>
    intro s a d k hd
    refine ⟨⟨_, exec_eccError_corrected s a d k 0, by rw [die_modDie_same hd], rfl⟩, eccError_memory hd, eccError_scratchpad hd,
      fun l _ hl => eccError_line hl, eccError_accumulator hd, fun f w hf hw => ⟨eccError_register hf hw, eccError_kRegister hf hw⟩,
      fun unit => eccError_noUnit s a d k⟩
  case kat => exact fun s d k lane => katDue_ends
  case sensors => exact fun s d k temp thi hyst hd ht hy => ⟨thermalSensorChange_hot hd ht hy, droopEvent_droops hd⟩

end Sys2Proof.Machine
end

section
/-! PROOFS. Every operation keeps memory in its canonical form (R33, R34): the shared operations of memory, tasks and fragments. -/

namespace Sys2Proof.Machine

/-! ### How an operation keeps the canonical form -/

/-- The memory of `s` is in its canonical form. -/
abbrev MemOk (s : State) : Prop := Memory.wf s = true

/-- What an operation that may fail answers, when it answers, satisfies `P`. -/
def Yields {ε α : Type} (P : α → Prop) (x : Except ε α) : Prop := ∀ v, x = .ok v → P v

/-- What an operation that may find nothing finds satisfies `P`. -/
def Finds {α : Type} (P : α → Prop) (x : Option α) : Prop := ∀ v, x = some v → P v

/-- The next state of an instruction or event, where it has one, has its memory in canonical form. -/
def NextOk (o : Host.Outcome State Fault Refusal) : Prop := ∀ t, o = .next t → MemOk t

/-- The state with which a word goes on or stops has its memory in canonical form. -/
def GoOk : Go → Prop
  | .stop s => MemOk s
  | .go _ s => MemOk s

section
variable {ε α β : Type} {P : α → Prop} {Q : β → Prop}

theorem Yields.ok {v : α} (h : P v) : Yields P (.ok v : Except ε α) := by
  rintro _ ⟨⟩; exact h

theorem Yields.error {e : ε} : Yields P (.error e) := nofun

theorem Yields.bind {x : Except ε α} {g : α → Except ε β} (hx : Yields P x) (hg : ∀ v, P v → Yields Q (g v)) : Yields Q (x >>= g) := by
  cases x with
  | error e => exact .error
  | ok v => exact hg v (hx v rfl)

theorem Yields.ite {c : Prop} [Decidable c] {x y : Except ε α} (hx : Yields P x) (hy : Yields P y) : Yields P (if c then x else y) := by
  split
  · exact hx
  · exact hy

/-- A fold whose every step, when it answers, keeps a property keeps it. -/
theorem Yields.foldlM {g : α → β → Except ε α} (hg : ∀ s a, P s → Yields P (g s a)) (l : List β) {s : α} (h : P s) : Yields P (l.foldlM g s) := by
  induction l generalizing s with
  | nil => exact .ok h
  | cons a l ih => exact (hg s a h).bind fun _ hv => ih hv

theorem Finds.some {v : α} (h : P v) : Finds P (some v) := by
  rintro _ ⟨⟩; exact h

theorem Finds.none : Finds P none := nofun

theorem Finds.ite {c : Prop} [Decidable c] {x y : Option α} (hx : Finds P x) (hy : Finds P y) : Finds P (if c then x else y) := by
  split
  · exact hx
  · exact hy

theorem Finds.map {g : α → β} {o : Option α} (hg : ∀ a, Q (g a)) : Finds Q (o.map g) := by
  intro v hv
  obtain ⟨a, -, rfl⟩ := Option.map_eq_some_iff.mp hv
  exact hg a
end

theorem NextOk.next {t : State} (h : MemOk t) : NextOk (.next t) := by
  rintro _ ⟨⟩; exact h

theorem NextOk.ite {p : Prop} [Decidable p] {x y : Host.Outcome State Fault Refusal} (hx : NextOk x) (hy : NextOk y) : NextOk (if p then x else y) := by
  split
  · exact hx
  · exact hy

section
variable {s s₁ s₂ : State} {f : FragRef} {c : Ctx} {sc : Scope} {d t gid i j n va : Nat} {a : Agent}

theorem wf_ite {p : Prop} [Decidable p] (h₁ : MemOk s₁) (h₂ : MemOk s₂) : MemOk (if p then s₁ else s₂) := by
  split
  · exact h₁
  · exact h₂

theorem foldl_wf {α : Type} {g : State → α → State} (hg : ∀ s a, MemOk s → MemOk (g s a)) {l : List α} (h : MemOk s) : MemOk (l.foldl g s) :=
  foldl_keeps hg l s h

theorem Go.run_wf {x : Go} {k : Ctx → State → State} (hx : GoOk x) (hk : ∀ c s, MemOk s → MemOk (k c s)) : MemOk (x.run k) := by
  cases x with
  | stop s => exact hx
  | go c s => exact hk c s hx

theorem GoOk.ite {p : Prop} [Decidable p] {x y : Go} (hx : GoOk x) (hy : GoOk y) : GoOk (if p then x else y) := by
  split
  · exact hx
  · exact hy

/-! ### Changes elsewhere than in memory -/

theorem modDie_wf {g : Die → Die} (h : MemOk s) : MemOk (s.modDie d g) := h
theorem modCore_wf {g : Core → Core} (h : MemOk s) : MemOk (s.modCore d n g) := h
theorem modCluster_wf {g : Cluster → Cluster} (h : MemOk s) : MemOk (s.modCluster d n g) := h
theorem modGrid_wf {g : Grid → Grid} (h : MemOk s) : MemOk (s.modGrid d gid g) := h
theorem modWg_wf {g : Wg → Wg} (h : MemOk s) : MemOk (s.modWg d t g) := h
theorem modWgOf_wf {g : Wg → Wg} (h : MemOk s) : MemOk (s.modWgOf f g) := h
theorem modWarp_wf {g : Warp → Warp} (h : MemOk s) : MemOk (s.modWarp f g) := h
theorem modFrag_wf {g : Frag → Frag} (h : MemOk s) : MemOk (s.modFrag f g) := h
theorem setFlags_wf {fl : BitVec 5} (h : MemOk s) : MemOk (setFlags s f fl) := h
theorem hold_wf {w : Wait} (h : MemOk s) : MemOk (hold s f w) := h
theorem finish_wf (h : MemOk s) : MemOk (finish s f n) := h
theorem dropLines_wf {p : Nat × Line → Bool} (h : MemOk s) : MemOk (dropLines s d n p) := h
theorem flashFills_wf {p : Acc → Bool} (h : MemOk s) : MemOk (flashFills s d n p) := h
theorem flashL1_wf (h : MemOk s) : MemOk (flashL1 s f) := h

/-! ### Accesses of hardware agents (R33, R104) -/

theorem vread_yields (h : MemOk s) : Yields (fun v : State × List Byte × Bool => MemOk v.1) (vread s a va n) := fun _ hv => vread_wf h hv

theorem vrdN_yields (h : MemOk s) : Yields (fun v : State × Nat => MemOk v.1) (vrdN s a va n) := fun _ hv => vrdN_wf h hv

theorem vwrite_yields {bs : List Byte} {po : Bool} {wt : Want} (h : MemOk s) : Yields MemOk (vwrite s a va bs po wt) := fun _ hv => vwrite_wf h hv

theorem vwrN_yields {v : Nat} (h : MemOk s) : Yields MemOk (vwrN s a va n v) := fun _ hv => vwrN_wf h hv

theorem xlat_yields {wt : Want} (h : MemOk s) : Yields (fun v : State × Phys => MemOk v.1) (xlat s d va wt) := xlat_answers h

theorem xlatA_yields {wt : Want} (h : MemOk s) : Yields (fun v : State × Phys => MemOk v.1) (xlatA s a va wt) := xlatA_answers h

theorem tcbRd_yields {tc : W64} {o : Nat} (h : MemOk s) : Yields (fun v : State × Nat => MemOk v.1) (tcbRd s d tc o n) := vrdN_yields h

theorem tcbWr_yields {tc : W64} {o v : Nat} (h : MemOk s) : Yields MemOk (tcbWr s d tc o n v) := vwrN_yields h

theorem noteHeld_wf {hd : Held} (h : MemOk s) : MemOk (noteHeld s hd) := by
  unfold noteHeld
  split
  · exact wf_ite h (wf_ite h h)
  · exact h

theorem AErr.note_wf {e : AErr} (h : MemOk s) : MemOk (e.note s) := by
  cases e with
  | busy hd => exact noteHeld_wf h
  | _ => exact h

theorem endUse_wf {cl pa : Nat} (h : MemOk s) : MemOk (endUse s d cl pa) := wf_ite h h

theorem modHome_wf {pa : Nat} {g : Stack → Stack} (h : MemOk s) : MemOk (modHome s pa g) := by
  unfold modHome
  split <;> exact h

theorem drainW_wf (l : List (Nat × Nat × List Byte)) {left : List (Nat × Nat × List Byte)} (h : MemOk s) : MemOk (drainW l s left) := by
  induction l generalizing s left with
  | nil => exact h
  | cons e l ih =>
    unfold drainW
    refine wf_ite (ih h) ?_
    split
    · exact ih (vwrite_wf h ‹_›)
    · exact ih h
    · exact ih h

theorem flushDir_wf (h : MemOk s) : MemOk (flushDir s) := wf_ite h (drainW_wf _ h)

theorem agentWrite_wf {bs : List Byte} (h : MemOk s) : MemOk (agentWrite s d va bs) := flushDir_wf h

theorem dirStep_wf {g : State → State} (hg : ∀ s, MemOk s → MemOk (g s)) (h : MemOk s) : MemOk (dirStep s g) :=
  wf_ite (hg _ (flushDir_wf h)) (flushDir_wf h)

theorem writeRec_wf {x : Space} {r : KRec} (h : MemOk s) : MemOk (writeRec x s r) := agentWrite_wf h

theorem putRec_wf {sp : Nat} {r : KRec} (h : MemOk s) : MemOk (putRec s sp i r) := by
  unfold putRec
  split
  · exact h
  · exact writeRec_wf h

theorem putIndex_wf {sp : Nat} (h : MemOk s) : MemOk (putIndex s sp j) := by
  unfold putIndex
  split
  · exact h
  · split
    · exact h
    · exact agentWrite_wf h

theorem clearRec_wf {sp : Nat} {r : KRec} (h : MemOk s) : MemOk (clearRec s sp i r) := putRec_wf h

/-! ### The task dispenser (R396 to R399) -/

theorem enterReady_yields {tcb : W64} (h : MemOk s) : Yields MemOk (enterReady s d gid tcb) := by
  unfold enterReady
  split
  · exact .ok h
  · refine (tcbRd_yields h).bind fun _ h => (tcbRd_yields h).bind fun _ h => (tcbRd_yields h).bind fun _ h => .ite .error ?_
    split
    · split
      · exact (tcbWr_yields h).bind fun _ h => (tcbWr_yields h).bind fun _ h => .ok (putRec_wf h)
      · exact (tcbWr_yields h).bind fun _ h => .ok (putRec_wf h)
    · exact .ok h

theorem postFault_yields {tcb : W64} {code wgid : Nat} (h : MemOk s) : Yields MemOk (postFault s d gid tcb code wgid) := by
  unfold postFault
  split
  · exact .ok h
  · exact (vrdN_yields h).bind fun _ h => (vwrN_yields h).bind fun _ h => .ite (.ok h) (vwrite_yields h)

theorem decSuccs_yields {wgid arr : Nat} (h : MemOk s) : Yields MemOk (decSuccs d gid wgid arr n i s) := by
  induction n generalizing s i with
  | zero => exact .ok h
  | succ n ih =>
    refine (vrdN_yields h).bind fun _ h => (tcbRd_yields h).bind fun _ h => (tcbRd_yields h).bind fun _ h => ?_
    exact .ite ((postFault_yields h).bind fun _ h => ih h) ((tcbWr_yields h).bind fun _ h =>
      .ite ((tcbWr_yields h).bind fun _ h => (enterReady_yields h).bind fun _ h => ih h) (ih h))

theorem runSuccs_yields {wgid : Nat} {tcb : W64} (h : MemOk s) : Yields MemOk (runSuccs s d gid wgid tcb) :=
  (tcbRd_yields h).bind fun _ h => (tcbRd_yields h).bind fun _ h => decSuccs_yields h

theorem taskEnd_yields {wgid : Nat} {tcb : W64} {flt : Option Nat} (h : MemOk s) : Yields MemOk (taskEnd s d gid wgid tcb flt) := by
  cases flt with
  | none => exact (tcbWr_yields h).bind fun _ h => runSuccs_yields h
  | some c => exact (tcbWr_yields h).bind fun _ h => (tcbWr_yields h).bind fun _ h => postFault_yields h

theorem orSame_wf {x : Except AErr State} (h : MemOk s) (hx : Yields MemOk x) : MemOk (orSame s x) := by
  cases x with
  | ok u => exact hx u rfl
  | error e => exact h

theorem addCost_wf {key : W64} (h : MemOk s) : MemOk (addCost s key n) := by
  unfold addCost
  split
  · split
    · exact putRec_wf h
    · exact h
  · exact h

theorem lookTask_yields {tcb : W64} (h : MemOk s) : Yields MemOk (lookTask s d gid tcb) :=
  (tcbRd_yields h).bind fun _ h => (tcbRd_yields h).bind fun _ h => .ite (.ok h) ((tcbWr_yields h).bind fun _ h => enterReady_yields h)

theorem jobDo_yields {w : TaskJob} (h : MemOk s) : Yields MemOk (jobDo s d gid w) := by
  cases w with
  | look t => exact lookTask_yields h
  | enter t => exact enterReady_yields h
  | fault t wgid code => exact taskEnd_yields (flt := some code) h
  | cost k n => exact .ite .error (.ok (addCost_wf h))

theorem drainJobs_wf (l : List TaskJob) (h : MemOk s) : MemOk (drainJobs d gid l s) := by
  induction l generalizing s with
  | nil => exact h
  | cons w l ih =>
    unfold drainJobs
    split
    · exact ih (jobDo_yields h _ ‹_›)
    · exact noteHeld_wf h
    · exact ih h

theorem runJobs_wf (h : MemOk s) : MemOk (runJobs s d gid) := by
  unfold runJobs
  split
  · exact wf_ite h (drainJobs_wf _ h)
  · exact h

theorem addJobs_wf {l : List TaskJob} (h : MemOk s) : MemOk (addJobs s d gid l) := runJobs_wf h

theorem runAllJobs_wf (h : MemOk s) : MemOk (runAllJobs s) := foldl_wf (fun _ _ h => foldl_wf (fun _ _ h => runJobs_wf h) h) h

theorem releaseHeld_wf {l : List W64} (h : MemOk s) : MemOk (releaseHeld s l) :=
  foldl_wf (fun _ _ h => foldl_wf (fun _ _ h => foldl_wf (fun _ _ h => wf_ite (addJobs_wf (modGrid_wf h)) h) h) h) h

/-! ### Acquires, pending registers and the end of threads (R80, R137, R288) -/

theorem seeLag_wf (h : MemOk s) : MemOk (seeLag s f sc) := by
  unfold seeLag
  split
  · exact wf_ite h h
  · exact h

theorem acquire_wf (h : MemOk s) : MemOk (acquire s f sc) := by
  have seen : MemOk (seeLag s f sc) := seeLag_wf h
  cases sc with
  | wp | wg => exact seen
  | cl => exact flashL1_wf seen
  | die | fab | sys => exact flashFills_wf (dropLines_wf (flashL1_wf seen))

theorem acquireStatus_wf {v : W64} (h : MemOk s) : MemOk (acquireStatus s f v) := by
  unfold acquireStatus
  refine wf_ite h ?_
  split
  · exact acquire_wf h
  · exact h

theorem settleK_finds {ks : List Nat} (h : MemOk s) : Finds MemOk (settleK s c ks) := by
  unfold settleK
  dsimp only
  split
  · exact .none
  · exact .ite (.some h) (.some (foldl_wf (fun _ _ h => acquireStatus_wf h) h))

theorem flushCost_wf (h : MemOk s) : MemOk (flushCost s f) := by
  unfold flushCost
  split
  · split
    · exact wf_ite h (modWarp_wf (addJobs_wf h))
    · exact h
  · exact h

theorem wgExit_wf (h : MemOk s) : MemOk (wgExit s d t) := by
  unfold wgExit
  split
  · exact h
  · exact modGrid_wf (modDie_wf (modCore_wf (modWg_wf (modWg_wf (addJobs_wf h)))))

theorem restoreWarp_wf {w : Warp} (h : MemOk s) : MemOk (restoreWarp s d t i w) := by
  unfold restoreWarp
  split <;> exact h

theorem leaveCore_wf (h : MemOk s) : MemOk (leaveCore s d t) := by
  unfold leaveCore
  split <;> exact h

theorem bringBack_wf (h : MemOk s) : MemOk (bringBack s d t i) := by
  unfold bringBack
  split
  · exact restoreWarp_wf h
  · exact h

theorem swapOut_wf (h : MemOk s) : MemOk (swapOut s f) := by
  unfold swapOut
  split
  · refine wf_ite ?_ (wf_ite (leaveCore_wf h) h)
    split
    · exact bringBack_wf h
    · exact h
  · exact h

theorem calEnter_wf (h : MemOk s) : MemOk (calEnter s d t) := by
  unfold calEnter
  split
  · exact h
  · split
    · exact wf_ite h h
    · exact h

theorem afterEmpty_wf (h : MemOk s) : MemOk (afterEmpty s f) := by
  unfold afterEmpty
  split
  · exact h
  · refine wf_ite (wf_ite h h) ?_
    have back (g : Wg → Wg) : MemOk (bringBack ((flushCost s f).modWgOf f g) f.die f.wg f.warp) := bringBack_wf (modWgOf_wf (flushCost_wf h))
    dsimp only
    split
    · exact wf_ite (wgExit_wf (back _)) (calEnter_wf (back _))
    · exact back _

theorem exitThreads_wf {m : W32} {all : Bool} (h : MemOk s) : MemOk (exitThreads s f m all) := by
  unfold exitThreads
  split
  · exact h
  · have marked (p : Frag) (g : Warp → Warp) : MemOk (if (p.sys && !all) = true then s else s.modWarp f g) := wf_ite h h
    exact wf_ite (wf_ite (afterEmpty_wf (marked _ _)) (swapOut_wf (marked _ _))) (wf_ite (afterEmpty_wf (marked _ _)) (marked _ _))

/-! ### Traps (R413 to R419) -/

theorem doubleTrap_wf {cause : Nat} {info epc : W64} (h : MemOk s) : MemOk (doubleTrap s f cause info epc) := by
  unfold doubleTrap
  split
  · exact h
  · refine exitThreads_wf ?_
    split
    · exact addJobs_wf (flushCost_wf h)
    · exact h

theorem takeTrap_wf {cause : Nat} {info epc : W64} {nr prc : Bool} (h : MemOk s) : MemOk (takeTrap s f cause info epc nr prc) := by
  unfold takeTrap
  split
  · exact h
  · exact wf_ite (doubleTrap_wf h) h

theorem trapAt_wf {cause : Nat} {info : W64} (h : MemOk s) : MemOk (trapAt s f cause info) := by
  unfold trapAt
  split
  · exact takeTrap_wf h
  · exact h

theorem illegal_wf (h : MemOk s) : MemOk (illegal s f) := trapAt_wf h

theorem badConv_wf {reason : Nat} (h : MemOk s) : MemOk (badConv s f reason) := trapAt_wf h

theorem takeImprecise_wf {r : FaultRec} (h : MemOk s) : MemOk (takeImprecise s f r) := by
  unfold takeImprecise
  split
  · exact h
  · exact wf_ite (wf_ite (takeTrap_wf h) (takeTrap_wf h)) (wf_ite (takeTrap_wf h) (takeTrap_wf h))

theorem faultNow_wf {cause : Nat} (h : MemOk s) : MemOk (faultNow s f cause va) := by
  unfold faultNow
  split
  · exact takeImprecise_wf h
  · exact h

theorem poisTrap_wf {o : Opd} (h : MemOk s) : MemOk (poisTrap s f o) := trapAt_wf (s := countCons s f.die) h

theorem holdFor_wf {hd : Held} {w : Wait} (h : MemOk s) : MemOk (holdFor s f hd w) := hold_wf (noteHeld_wf h)

/-! ### Register windows (R200, R201) -/

theorem spillWin_yields (h : MemOk s) : Yields MemOk (spillWin s f t j) := by
  unfold spillWin
  split
  · exact (Yields.foldlM (fun _ _ h => vwrite_yields h) _ h).bind fun _ h => .ok h
  · exact .ok h

theorem fillWin_yields (h : MemOk s) : Yields MemOk (fillWin s f t j) := by
  unfold fillWin
  split
  · exact (Yields.foldlM (P := MemOk) (fun _ _ h => (vread_yields h).bind fun _ h => .ok (modWarp_wf h)) _ h).bind fun _ h => .ok h
  · exact .ok h

theorem spillOld_yields {keep : Nat} (h : MemOk s) : Yields MemOk (spillOld s f t keep) := by
  unfold spillOld
  split
  · exact .ok h
  · exact (Yields.foldlM (fun _ _ h => spillWin_yields h) _ h).bind fun _ h => .ok h

/-! ### Operands and register words (R90 to R92, R213 to R219, R432) -/

theorem begin_ok {sw : Bool} {ks : List Nat} (h : MemOk s) : GoOk (begin sw ks s) := by
  unfold begin
  split
  · exact h
  · split
    · exact h
    · split
      · exact h
      · have settled := settleK_finds h _ ‹_›
        split <;> exact settled

theorem checkPois_ok {hd : Hdr} {uni : Bool} {ts : List Nat} {os : List Opd} (h : MemOk s) : GoOk (checkPois c hd uni ts os s) := by
  unfold checkPois
  split
  · exact poisTrap_wf h
  · split
    · exact poisTrap_wf h
    · exact h

theorem popWords_wf (h : MemOk s) : MemOk (popWords s f i n).2 := by
  unfold popWords
  split <;> exact h

theorem pushWords_wf {ws : List W32} (h : MemOk s) : MemOk (pushWords s f i ws) := by
  unfold pushWords
  split <;> exact h

theorem checkQueues_ok {srcs : List Src} {o : Opd} {dw : Nat} (h : MemOk s) : GoOk (checkQueues c n srcs o dw s) := by
  unfold checkQueues
  refine GoOk.ite (illegal_wf h) ?_
  dsimp only
  split
  · exact GoOk.ite h (GoOk.ite (trapAt_wf h) h)
  · split
    · rename_i u hu
      refine (?_ : Finds MemOk _) _ hu
      split
      · exact .ite (.some (trapAt_wf h)) (.ite (.some h) .none)
      · exact .none
    · exact GoOk.ite h h

theorem srcVals_wf {uni : Bool} {ts : List Nat} {x : Src} (h : MemOk s) : MemOk (srcVals s c uni ts x).2 := by
  unfold srcVals
  split
  · split <;> exact popWords_wf h
  · exact h

theorem allVals_wf {uni : Bool} {ts : List Nat} (l : List Src) (h : MemOk s) : MemOk (allVals c uni ts l s).2 := by
  induction l generalizing s with
  | nil => exact h
  | cons x l ih => exact ih (srcVals_wf h)

theorem writeDst_wf {o : Opd} {dw : Nat} {ts rs : List Nat} (h : MemOk s) : MemOk (writeDst s c o dw ts rs) := by
  unfold writeDst
  split
  · exact h
  · exact wf_ite h h
  · split <;> exact h
  · exact pushWords_wf h
  · exact h

theorem alu_wf {hd : Hdr} {o : Opd} {dw : Nat} {srcs : List Src} {cyc : Nat → Nat} {cls : Option (BitVec 4)} {els : Nat}
    {op : Ctx → (Nat → Nat) → List Nat → Res} (h : MemOk s) : MemOk (alu hd o dw srcs cyc cls els op s) := by
  refine Go.run_wf (begin_ok h) fun _ _ h => Go.run_wf (checkPois_ok h) fun _ _ h => Go.run_wf (checkQueues_ok h) fun _ _ h => ?_
  refine finish_wf ?_
  cases cls with
  | none => exact setFlags_wf (writeDst_wf (allVals_wf _ h))
  | some k => exact modWarp_wf (setFlags_wf (writeDst_wf (allVals_wf _ h)))

theorem uniBody_wf {hd : Hdr} {os : List Opd} {body : Ctx → State → State} (hb : ∀ c s, MemOk s → MemOk (body c s)) (h : MemOk s) :
    MemOk (uniBody hd os body c s) :=
  Go.run_wf (checkPois_ok h) fun _ _ h => wf_ite (hb _ _ h) h

theorem uniOp_wf {hd : Hdr} {os : List Opd} {body : Ctx → State → State} (hb : ∀ c s, MemOk s → MemOk (body c s)) (h : MemOk s) :
    MemOk (uniOp hd os body s) :=
  Go.run_wf (begin_ok h) fun _ _ h => uniBody_wf hb h

theorem markOp_wf {hd : Hdr} {os : List Opd} {body : Ctx → State → State} (hb : ∀ c s, MemOk s → MemOk (body c s)) (h : MemOk s) :
    MemOk (markOp hd os body s) :=
  uniOp_wf (fun _ _ h => wf_ite h (hb _ _ h)) h

end

end Sys2Proof.Machine
end

section
/-! PROOFS. Every operation keeps memory in its canonical form (R33, R34): control words, translation, accesses and memory words. -/

namespace Sys2Proof.Machine

section
variable {s : State} {f : FragRef} {c : Ctx} {sc : Scope} {d t i j n va id core : Nat} {a : Acc} {h : Hdr} {o : Opd} {m : MemOp}

/-! ### Register words and collectives (R252 to R283) -/

theorem moveHandle_finds {im : IntMod} {o' : Opd} (hs : MemOk s) : Finds MemOk (moveHandle h im o o' s) := by
  unfold moveHandle
  split
  · exact .ite (.some (Go.run_wf (begin_ok hs) fun _ _ h => uniBody_wf (fun _ _ h => h) h)) .none
  · exact .none

theorem execMov_ok {im : IntMod} {o' : Opd} (hs : MemOk s) : NextOk (execMov h im o o' s) := by
  refine .next ?_
  split
  · exact moveHandle_finds hs _ ‹_›
  · exact alu_wf hs

theorem coll_wf {dw cyc : Nat} {srcs : List Src} {op : List Nat → List (List Nat) → List Res} (hs : MemOk s) :
    MemOk (coll h o dw srcs cyc op s) := by
  refine Go.run_wf (begin_ok hs) fun c s h => wf_ite (Go.run_wf (checkPois_ok h) fun _ _ h => h) (wf_ite (badConv_wf h) ?_)
  exact Go.run_wf (checkPois_ok h) fun _ _ h => wf_ite (finish_wf h) (Go.run_wf (checkQueues_ok h) fun _ _ h =>
    finish_wf (setFlags_wf (writeDst_wf (allVals_wf _ h))))

theorem halfWrite_wf {p : Half} {rs : List Res} (h : MemOk s) : MemOk (halfWrite s c p rs) := by
  unfold halfWrite
  split
  · exact h
  · exact setFlags_wf (writeDst_wf h)

theorem execPairWord_ok {sw : Bool} {p q : Half} (hs : MemOk s) : NextOk (execPairWord sw p q s) := by
  refine .next (Go.run_wf (begin_ok hs) fun c s h => ?_)
  dsimp only
  split
  · exact poisTrap_wf h
  · exact poisTrap_wf h
  · exact finish_wf (halfWrite_wf (halfWrite_wf h))

/-! ### Branches, calls and spawns (R189 to R201) -/

theorem Yields.mapError {ε ε' α : Type} {P : α → Prop} {x : Except ε α} {g : ε → ε'} (hx : Yields P x) : Yields P (x.mapError g) := by
  cases x with
  | error e => exact .error
  | ok v => exact .ok (hx v rfl)

theorem spend_wf (h : MemOk s) : MemOk (spend s f n) := h
theorem progress_wf (h : MemOk s) : MemOk (progress s f) := h
theorem jumpTo_wf {pc : W64} (h : MemOk s) : MemOk (jumpTo s c pc) := h
theorem jnAlone_wf (h : MemOk s) : MemOk (jnAlone s f) := h

theorem splitTo_wf {tk : W32} {pc : W64} (h : MemOk s) : MemOk (splitTo s c tk pc) := h

theorem spawnWrite_yields {r : SpawnRec} {bs : List Byte} {ps : List Nat} (h : MemOk s) : Yields MemOk (spawnWrite s f r bs ps) := by
  unfold spawnWrite
  exact .ite (.ok h) (.mapError (.foldlM (fun _ _ h => vwrite_yields h) _ h))

theorem spawnThread_yields {p : Frag} {pc : W64} (h : MemOk s) : Yields MemOk (spawnThread f p pc s t) := by
  unfold spawnThread
  split
  · exact (Yields.mapError (spillOld_yields h)).bind fun _ h => (spawnWrite_yields h).bind fun _ h => .ok (modWarp_wf (modWgOf_wf h))
  · exact .ok h

theorem spawnSide_wf {side : List Nat} {pc target : W64} {stay : Bool} (h : MemOk s) : MemOk (spawnSide s c side pc stay target) := by
  unfold spawnSide
  refine wf_ite h (wf_ite h ?_)
  split
  · exact holdFor_wf h
  · exact faultNow_wf h
  · rename_i hx
    exact modFrag_wf (modFrag_wf (spend_wf (Yields.foldlM (fun _ _ h => spawnThread_yields h) _ h _ hx)))

theorem execBr_ok {off : BitVec 19} (hs : MemOk s) : NextOk (execBr h off s) :=
  .next (Go.run_wf (begin_ok hs) fun _ _ h => Go.run_wf (checkPois_ok h) fun _ _ h =>
    wf_ite (finish_wf h) (wf_ite (jumpTo_wf h) (wf_ite (hold_wf h) (wf_ite (splitTo_wf h) (wf_ite (spawnSide_wf h) (spawnSide_wf h))))))

theorem indirect_wf {pc : W64} {go : State → State} (hg : ∀ s, MemOk s → MemOk (go s)) (h : MemOk s) : MemOk (indirect s c pc go) :=
  wf_ite (trapAt_wf h) (hg s h)

theorem execJn_ok (hs : MemOk s) : NextOk (execJn h s) :=
  .next (Go.run_wf (begin_ok hs) fun _ _ h => wf_ite (hold_wf h) (wf_ite (jnAlone_wf (spend_wf h)) (wf_ite (hold_wf h) (wf_ite h
    (wf_ite (badConv_wf (badConv_wf h)) (wf_ite (hold_wf h) h))))))

theorem overThreads_yields {op : State → Nat → Except AErr State} {addr : Nat → Nat} (hop : ∀ s t, MemOk s → Yields MemOk (op s t)) (ts : List Nat)
    (h : MemOk s) : Yields MemOk (overThreads op addr ts s) := by
  induction ts generalizing s with
  | nil => exact .ok h
  | cons t ts ih =>
    unfold overThreads
    split
    · exact ih (hop _ _ h _ ‹_›)
    · exact .error

theorem slideUp_yields {g : Wg} {ra : W64} (h : MemOk s) : Yields MemOk (slideUp f g ra s t) := by
  unfold slideUp
  split
  · exact .ite ((spillWin_yields h).bind fun _ h => .ok (modWarp_wf h)) (.ok (modWarp_wf h))
  · exact .ok h

theorem slideDown_yields (h : MemOk s) : Yields MemOk (slideDown f s t) := by
  unfold slideDown
  split
  · exact .ite ((fillWin_yields h).bind fun _ h => .ok (modWarp_wf h)) (.ok (modWarp_wf h))
  · exact .ok h

theorem callTo_wf {pc : W64} (h : MemOk s) : MemOk (callTo s c pc) := by
  unfold callTo
  refine wf_ite (illegal_wf h) ?_
  split
  · exact faultNow_wf h
  · refine wf_ite (hold_wf h) ?_
    split
    · exact holdFor_wf h
    · exact faultNow_wf h
    · have called := overThreads_yields (fun _ _ h => slideUp_yields h) _ h _ ‹_›
      exact called

theorem execRet_ok (hs : MemOk s) : NextOk (execRet h s) := by
  refine .next (Go.run_wf (begin_ok hs) fun c s h => wf_ite (illegal_wf h) (Go.run_wf (checkPois_ok h) fun _ _ h =>
    wf_ite (badConv_wf h) (indirect_wf (fun s h => wf_ite (hold_wf h) ?_) h)))
  split
  · exact holdFor_wf h
  · exact faultNow_wf h
  · exact jumpTo_wf (overThreads_yields (fun _ _ h => slideDown_yields h) _ h _ ‹_›)

theorem execBrl_ok {off : BitVec 19} (hs : MemOk s) : NextOk (execBrl h off s) := .next (uniOp_wf (fun _ _ h => wf_ite h h) hs)

theorem execExit_ok (hs : MemOk s) : NextOk (execExit h s) :=
  .next (Go.run_wf (begin_ok hs) fun _ _ h => Go.run_wf (checkPois_ok h) fun _ _ h =>
    wf_ite (hold_wf h) (wf_ite (finish_wf (progress_wf h)) (wf_ite (badConv_wf h) (exitThreads_wf (finish_wf (progress_wf h))))))

theorem execWrs_ok {ix : BitVec 5} (hs : MemOk s) : NextOk (execWrs h ix o s) :=
  .next (uniOp_wf (fun _ _ h => wf_ite h (wf_ite h (wf_ite h (illegal_wf h)))) hs)

theorem spawnRead_yields {a : Agent} {r : SpawnRec} (h : MemOk s) : Yields (fun v : State × List Byte × List Nat => MemOk v.1) (spawnRead s a core r) := by
  unfold spawnRead
  exact .ite (.ok h) (Yields.foldlM (P := fun v : State × List Byte × List Nat => MemOk v.1) (fun _ _ h => (vread_yields h).bind fun _ h => .ok h) _ h)

theorem readRecs_yields {a : Agent} (l : List SpawnRec) {ts : List Thr} {flt : Option FaultRec} (h : MemOk s) :
    Yields (fun v : State × List Thr × Option FaultRec => MemOk v.1) (readRecs a core l s ts flt) := by
  induction l generalizing s ts flt with
  | nil => exact .ok h
  | cons r l ih =>
    unfold readRecs
    split
    · exact ih (spawnRead_yields h _ ‹_›)
    · exact .error
    · exact ih h

theorem execFormerStartWarp_ok {die wg : Nat} (hs : MemOk s) : NextOk (execFormerStartWarp die core wg s) := by
  refine .next ?_
  split
  · exact hs
  · refine wf_ite hs ?_
    split
    · dsimp only
      split
      · exact modWg_wf (noteHeld_wf hs)
      · exact modWg_wf (readRecs_yields _ hs _ ‹_›)
    · exact hs

theorem execBinRipe_ok {die wg bin : Nat} (hs : MemOk s) : NextOk (execBinRipe die core wg bin s) := by
  refine .next ?_
  split
  · exact hs
  · split
    · exact wf_ite hs hs
    · exact hs

/-! ### Fetches and watchdogs (R209, R211) -/

theorem fetchPhys_wf {p : Phys} (h : MemOk s) : MemOk (fetchPhys s d core p).2 := by
  unfold fetchPhys
  cases Tab.get? (s.core d core).icache p.pa with
  | none => exact h
  | some old =>
    dsimp only
    generalize BitVec.ofNat 64 _ = mem
    split
    · exact h
    · split <;> exact h

/-- The state with which a fetched word comes has its memory in canonical form. -/
def Fetched.Ok : Fetched → Prop
  | .word _ s => MemOk s
  | _ => True

theorem fetchWith_ok {a : Agent} {pc : Nat} {e : TlbEnt} (h : MemOk s) : (fetchWith s a core pc e).Ok := by
  unfold fetchWith
  split
  · trivial
  · split
    · trivial
    · trivial
    · exact fetchPhys_wf (s := letGo s _ _) h

theorem fetchWord_ok {a : Agent} {pc : Nat} (h : MemOk s) : (fetchWord s a core pc).Ok := by
  unfold fetchWord
  dsimp only
  split
  · trivial
  · split
    · exact fetchWith_ok h
    · split
      · trivial
      · split
        · trivial
        · trivial
        · exact fetchWith_ok (modCluster_wf (modCluster_wf (modCore_wf (touchEntries_wf h))))

theorem takeWatchdog_wf (h : MemOk s) : MemOk (takeWatchdog s f) := by
  unfold takeWatchdog
  split
  · split
    · exact takeTrap_wf h
    · exact h
  · exact h

theorem execWatchdogTrap_ok (hs : MemOk s) : NextOk (execWatchdogTrap f s) := by
  refine .next ?_
  split
  · exact wf_ite (takeWatchdog_wf hs) hs
  · exact hs

/-! ### Accesses (R33, R42, R48, R65, R70 to R73, R132) -/

theorem modAcc_wf {g : Acc → Acc} (h : MemOk s) : MemOk (s.modAcc id g) := h
theorem dropAcc_wf (h : MemOk s) : MemOk (s.dropAcc id) := h
theorem sendAcc_wf (h : MemOk s) : MemOk (s.sendAcc a) := h
theorem l1Install_wf {l : Line} (h : MemOk s) : MemOk (l1Install s d core i l) := h
theorem setFlagsOf_wf {wg wuid : Nat} {fl : BitVec 5} (h : MemOk s) : MemOk (setFlagsOf s d wg wuid fl) := wf_ite h h

theorem failAcc_wf {cause : Nat} (h : MemOk s) : MemOk (failAcc s a cause) := wf_ite h h

theorem poisonAtom_wf (h : MemOk s) : MemOk (poisonAtom s a) := modDie_wf (failAcc_wf h)

theorem readAs_wf {pa : Nat} {bs : List Byte} (h : MemOk s) : MemOk (readAs s pa bs).2 := Memory.wf_of_mem (readAs_mem _ _ _) h

theorem gotLoad_wf {bs : List Byte} {p : Bool} (h : MemOk s) : MemOk (gotLoad s a bs p) := by
  have read : MemOk (if a.al then (bs, s) else readAs s a.pa bs).2 := by
    split
    · exact h
    · exact readAs_wf h
  exact modAcc_wf read

theorem casProgress_wf (h : MemOk s) : MemOk (casProgress s a) := by
  unfold casProgress
  split
  · exact wf_ite h h
  · exact h

theorem onLine_wf {l : Line} (h : MemOk s) : MemOk (onLine s a l) := by
  unfold onLine
  refine wf_ite (poisonAtom_wf h) ?_
  dsimp only
  have read : MemOk (if a.kind.atomic = true then readAs s a.pa (bytesAt l.data (a.pa % 128) a.n) else ([], s)).2 := by
    split
    · exact readAs_wf h
    · exact h
  refine wf_ite (modAcc_wf (setFlagsOf_wf ?_)) (dropAcc_wf (setFlagsOf_wf ?_)) <;>
  · split <;> exact read

theorem sendWrite_wf {moved : Bool} (h : MemOk s) : MemOk (s.sendWrite a moved) := wf_ite h h

theorem sendShared_wf (h : MemOk s) : MemOk (sendShared s a) := wf_ite (modAcc_wf h) (sendAcc_wf (wf_ite h h))

theorem noteUse_wf {cl : Nat} {p : Phys} (h : MemOk s) : MemOk (noteUse s d cl p) := wf_ite h h

theorem proceed_wf {p : Phys} (h : MemOk s) : MemOk (proceed s a p) := by
  unfold proceed
  dsimp only
  have used (g : Acc → Acc) (d cl id : Nat) : MemOk ((noteUse s d cl p).modAcc id g) := modAcc_wf (noteUse_wf h)
  refine wf_ite (failAcc_wf (used _ _ _ _)) ?_
  have here (g g' : Acc → Acc) (d cl id : Nat) : MemOk (((noteUse s d cl p).modAcc id g).modAcc id g') := modAcc_wf (used g d cl id)
  split
  · refine wf_ite (dropAcc_wf (here _ _ _ _ _)) ?_
    split
    · exact dropAcc_wf (wf_ite (l1Install_wf (here _ _ _ _ _)) (here _ _ _ _ _))
    · exact modAcc_wf (here _ _ _ _ _)
  · refine wf_ite (sendAcc_wf (here _ _ _ _ _)) ?_
    split
    · exact gotLoad_wf (here _ _ _ _ _)
    · split
      · exact gotLoad_wf (l1Install_wf (here _ _ _ _ _))
      · exact modAcc_wf (here _ _ _ _ _)
  iterate 3
    refine wf_ite (sendWrite_wf (here _ _ _ _ _)) (wf_ite (wf_ite (sendWrite_wf (here _ _ _ _ _)) (sendShared_wf (here _ _ _ _ _))) ?_)
    split
    · exact onLine_wf (here _ _ _ _ _)
    · exact modAcc_wf (here _ _ _ _ _)
  · exact sendWrite_wf (here _ _ _ _ _)
  · exact here _ _ _ _ _
  · exact here _ _ _ _ _

theorem withLeaf_wf {e : TlbEnt} (h : MemOk s) : MemOk (withLeaf s a e) := by
  unfold withLeaf
  split
  · exact failAcc_wf h
  · exact proceed_wf (wf_ite (setDirty_wf h) h)

theorem tryTlb_wf (h : MemOk s) : MemOk (tryTlb s id) := by
  unfold tryTlb
  split
  · exact h
  · refine wf_ite (failAcc_wf h) ?_
    split
    · exact withLeaf_wf h
    · exact h

theorem walkAcc_wf (h : MemOk s) : MemOk (walkAcc s a) := by
  unfold walkAcc
  dsimp only
  split
  · exact failAcc_wf h
  · exact wf_ite h h
  · exact withLeaf_wf (modCluster_wf (modCluster_wf (modCore_wf (touchEntries_wf h))))

theorem execPageWalk_ok (hs : MemOk s) : NextOk (execPageWalk id s) := by
  refine .next ?_
  split
  · exact hs
  · exact wf_ite hs (wf_ite (failAcc_wf hs) (wf_ite (tryTlb_wf hs) (wf_ite hs (walkAcc_wf hs))))

theorem execWalkResume_ok (hs : MemOk s) : NextOk (execWalkResume id s) := by
  refine .next ?_
  split
  · exact wf_ite (walkAcc_wf hs) hs
  · exact hs

theorem ntMeet_wf (h : MemOk s) : MemOk (ntMeet s a) := by
  unfold ntMeet
  dsimp only
  split
  · exact wf_ite h h
  · exact h

theorem setPois_wf {pa : Nat} (h : MemOk s) : MemOk (setPois s pa n) := h

theorem signalSet_wf {w : Nat} (h : MemOk s) : MemOk (signalSet s w) := h

theorem performHome_wf (h : MemOk s) : MemOk (performHome s a) := by
  have atomics : MemOk (if inHost a.pa = true then { s with freeIx := s.freeIx + 1 } else s) := wf_ite h h
  unfold performHome
  split
  · split
    · split
      · exact gotLoad_wf h
      · exact failAcc_wf h
    · exact gotLoad_wf h
  iterate 2
    dsimp only
    split
    · split
      · exact modAcc_wf (aliasWrite_wf h ‹_›)
      · exact failAcc_wf h
    · have written : MemOk (if a.vpois then setPois (wrBytes s a.pa (leBytes a.n a.val.toNat)) a.pa a.n else wrBytes s a.pa (leBytes a.n a.val.toNat)) :=
        wf_ite (setPois_wf (wrBytes_wf h)) (wrBytes_wf h)
      exact modAcc_wf (wf_ite (ntMeet_wf written) written)
  iterate 2
    refine wf_ite (failAcc_wf atomics) (wf_ite (poisonAtom_wf atomics) (modAcc_wf (setFlagsOf_wf ?_)))
    split
    · exact signalSet_wf (wrN_wf (readAs_wf atomics))
    · exact readAs_wf atomics
  · exact h

theorem busyPut_wf {pa : Nat} (h : MemOk s) : MemOk (busyPut s pa id) := modHome_wf h

theorem homeAcc_wf (h : MemOk s) : MemOk (homeAcc s a) := by
  unfold homeAcc
  refine wf_ite h ?_
  split
  · exact h
  · exact modAcc_wf h
  · exact failAcc_wf h
  · exact wf_ite (wf_ite (modAcc_wf h) (modAcc_wf (busyPut_wf h))) (wf_ite (modAcc_wf h) (performHome_wf h))

theorem homeInb_wf {b : Inb} (h : MemOk s) : MemOk (homeInb s b) := by
  unfold homeInb
  refine wf_ite h ?_
  split
  · exact h
  · exact h
  · split
    · exact wf_ite h h
    · exact h
  · refine wf_ite (wf_ite h (busyPut_wf h)) ?_
    split
    · exact h
    · exact wrBytes_wf h

theorem ntDrop_wf (h : MemOk s) : MemOk (ntDrop s a) := by
  unfold ntDrop
  dsimp only
  split
  · exact wf_ite (dropAcc_wf (flashFills_wf (modCore_wf (dropLine_wf h)))) h
  · exact h

theorem execWriteAcknowledge_ok (hs : MemOk s) : NextOk (execWriteAcknowledge id s) := by
  refine .next ?_
  split
  · exact wf_ite hs (wf_ite hs (wf_ite (ntDrop_wf hs) hs))
  · split
    · exact wf_ite hs hs
    · exact hs

theorem execNotOwnerResponse_ok (hs : MemOk s) : NextOk (execNotOwnerResponse id s) := by
  refine .next ?_
  split
  · refine wf_ite hs ?_
    split
    · exact wf_ite hs (failAcc_wf hs)
    · exact failAcc_wf hs
  · exact hs

theorem execMovedResponse_ok (hs : MemOk s) : NextOk (execMovedResponse id s) := by
  refine .next ?_
  split
  · exact wf_ite hs hs
  · exact hs

theorem execBusyRetryResponse_ok (hs : MemOk s) : NextOk (execBusyRetryResponse id s) := by
  refine .next ?_
  split
  · exact wf_ite hs hs
  · exact hs

theorem fillReturn_wf {data : List Byte} {ps : List Nat} (h : MemOk s) : MemOk (fillReturn s a data ps) := by
  unfold fillReturn
  dsimp only
  split
  · exact gotLoad_wf (wf_ite (wf_ite h (lineInstall_wf h)) (l1Install_wf (wf_ite h (lineInstall_wf h))))
  · exact dropAcc_wf (wf_ite (wf_ite (wf_ite h (lineInstall_wf h)) (l1Install_wf (wf_ite h (lineInstall_wf h)))) (wf_ite h (lineInstall_wf h)))
  · split
    · exact onLine_wf (modCluster_wf (lineRoom_wf h ‹_›))
    · exact h

theorem execLineFillReturn_ok (hs : MemOk s) : NextOk (execLineFillReturn id s) := by
  refine .next ?_
  split
  · split
    · exact fillReturn_wf hs
    · exact hs
  · exact hs

theorem execClusterStoreEviction_ok {cl li : Nat} (hs : MemOk s) : NextOk (execClusterStoreEviction d cl li s) := by
  refine .next ?_
  split
  · exact hs
  · exact wf_ite (dropLine_wf hs) hs

theorem putDst_wf {dst : Dst} {v : W64} {po : Bool} (h : MemOk s) : MemOk (putDst s f dst v po) := by
  cases dst <;> exact h

theorem execRegisterResultWrite_ok (hs : MemOk s) : NextOk (execRegisterResultWrite id s) := by
  refine .next ?_
  split
  · have written (a : Acc) : MemOk (putDst (casProgress (s.dropAcc id) a) a.frag a.dst a.result a.vpois) := putDst_wf (casProgress_wf (dropAcc_wf hs))
    refine wf_ite hs ?_
    dsimp only
    split
    · exact acquire_wf (wf_ite (written _) (putDst_wf (written _)))
    · exact wf_ite (written _) (putDst_wf (written _))
  · exact hs

theorem execImpreciseFaultReturn_ok (hs : MemOk s) : NextOk (execImpreciseFaultReturn f s) := by
  refine .next ?_
  split
  · exact hs
  · split
    · exact hs
    · split
      · exact modFrag_wf (dropAcc_wf hs)
      · exact hs

/-! ### Memory words (R130 to R135, R294 to R307) -/

theorem shuffle_wf {α : Type} {l : List α} (h : MemOk s) : MemOk (shuffle n l s).2 := by
  induction n generalizing l s with
  | zero => exact h
  | succ n ih =>
    cases l with
    | nil => exact h
    | cons x l => exact ih h

theorem inOrder_wf {rs : List Req} (h : MemOk s) : MemOk (inOrder rs s).2 := by
  unfold inOrder
  split
  · exact shuffle_wf h
  · exact h

theorem launchAcc_wf {acq : Option Scope} {r : Req} {many : Bool} (h : MemOk s) : MemOk (launchAcc s c acq r many) := by
  unfold launchAcc
  exact wf_ite (wf_ite h (tryTlb_wf h)) (tryTlb_wf h)

theorem issueGlobal_wf {rel acq : Option Scope} {prog : Bool} {cyc : Nat} {rs : List Req} (h : MemOk s) :
    MemOk (issueGlobal s c rel acq prog cyc rs) := by
  have launched (acq : Option Scope) (many : Bool) : MemOk ((inOrder rs s).1.foldl (fun s r => launchAcc s c acq r many) (inOrder rs s).2) :=
    foldl_wf (fun _ _ h => launchAcc_wf h) (inOrder_wf h)
  unfold issueGlobal
  split
  · exact trapAt_wf h
  · exact trapAt_wf h
  · exact wf_ite h (wf_ite h (wf_ite h (finish_wf (wf_ite (progress_wf (launched _ _)) (launched _ _)))))

theorem launchValue_wf {thr : Option Nat} {dst : Dst} {v : W64} {po : Bool} {acq : Option Scope} (h : MemOk s) :
    MemOk (launchValue s c thr dst v po acq) := wf_ite h h

theorem lagRead_wf {wuid off : Nat} (l : List Lag) {bs : List Byte} (h : MemOk s) : MemOk (lagRead d core wuid off l s bs).2 := by
  induction l generalizing s bs with
  | nil => exact h
  | cons g l ih =>
    unfold lagRead
    split
    · exact ih h
    · dsimp only
      split
      · exact ih h
      · exact ih h

theorem scrAccess_wf {acq : Option Scope} {r : Req} (h : MemOk s) : MemOk (scrAccess c acq s r) := by
  unfold scrAccess
  dsimp only
  split
  · exact launchValue_wf (lagRead_wf _ h)
  · refine wf_ite h ?_
    have flagged (v : Option Nat) (g : Nat → Core → Core) (fl : BitVec 5) : MemOk (setFlagsOf (match v with
        | some v => s.modCore c.f.die c.f.core (g v)
        | none => s) c.f.die c.f.wg c.w.wuid fl) := by
      cases v <;> exact setFlagsOf_wf h
    split
    · exact flagged _ _ _
    · exact launchValue_wf (flagged _ _ _)
    · exact flagged _ _ _

theorem launchScr_wf {acq : Option Scope} {many : Bool} {r : Req} (h : MemOk s) : MemOk (launchScr c acq many s r) := by
  unfold launchScr
  exact wf_ite (wf_ite h (scrAccess_wf h)) (scrAccess_wf h)

theorem bankAcc_wf (h : MemOk s) : MemOk (bankAcc s a) := scrAccess_wf (dropAcc_wf h)

theorem flushBanks_wf {rs : List (Nat × Nat)} (h : MemOk s) : MemOk (flushBanks s d core rs) := foldl_wf (fun _ _ h => bankAcc_wf h) h

theorem execHomeRequest_ok (hs : MemOk s) : NextOk (execHomeRequest id s) := by
  refine .next ?_
  split
  · exact wf_ite (bankAcc_wf hs) (homeAcc_wf hs)
  · split
    · exact homeInb_wf hs
    · exact hs

theorem issueScratch_wf {rel acq : Option Scope} {prog : Bool} {cyc : Nat} {rs : List Req} (h : MemOk s) :
    MemOk (issueScratch s c rel acq prog cyc rs) := by
  have launched (acq : Option Scope) (many : Bool) : MemOk ((inOrder rs s).1.foldl (launchScr c acq many) (inOrder rs s).2) :=
    foldl_wf (fun _ _ h => launchScr_wf h) (inOrder_wf h)
  unfold issueScratch
  split
  · exact trapAt_wf h
  · exact trapAt_wf h
  · exact trapAt_wf h
  · exact wf_ite h (wf_ite h (wf_ite h (finish_wf (wf_ite (progress_wf (launched _ _)) (launched _ _)))))

theorem memWord_wf {uni : Bool} {pend os : List Opd} {body : Ctx → List (Option Nat) → State → State} (hb : ∀ c ts s, MemOk s → MemOk (body c ts s))
    (hs : MemOk s) : MemOk (memWord h uni pend os body s) :=
  Go.run_wf (begin_ok hs) fun _ _ h => Go.run_wf (checkPois_ok h) fun _ _ h => wf_ite (finish_wf h) (hb _ _ _ h)

theorem loadWord_wf {glob uni : Bool} {sz : Sz} {ord : Option Scope} (hs : MemOk s) : MemOk (loadWord glob uni h sz ord o m s) :=
  memWord_wf (fun _ _ _ h => wf_ite (issueGlobal_wf h) (issueScratch_wf h)) hs

theorem storeWord_wf {glob uni nt : Bool} {sz : Sz} {ord : Option Scope} (hs : MemOk s) : MemOk (storeWord glob uni nt h sz ord o m s) :=
  memWord_wf (fun _ _ _ h => wf_ite (issueGlobal_wf h) (issueScratch_wf h)) hs

theorem atomWord_wf {glob prog : Bool} {am : AtMod} {o' : Opd} {os : List Opd} {mk : State → Ctx → Nat → AKind × Nat} (hs : MemOk s) :
    MemOk (atomWord glob prog h am o o' os mk s) :=
  memWord_wf (fun _ _ _ h => wf_ite (issueGlobal_wf h) (issueScratch_wf h)) hs

theorem execLdskH_ok (hs : MemOk s) : NextOk (execLdskH h o m s) := by
  refine .next (memWord_wf (fun c ts s h => wf_ite (trapAt_wf h) (wf_ite (trapAt_wf h) ?_)) hs)
  split
  · exact trapAt_wf h
  · refine wf_ite (hold_wf h) ?_
    dsimp only
    split
    · exact finish_wf (modWarp_wf h)
    · exact illegal_wf h

theorem fenceDo_wf {form : AOrd} (h : MemOk s) : MemOk (fenceDo s c form sc) :=
  wf_ite h (wf_ite h (wf_ite h (finish_wf (wf_ite (acquire_wf h) h))))

theorem maintain_wf {k : Maint} {pa : Nat} (h : MemOk s) : MemOk (maintain s d core k pa n) := by
  have kept (cl : Nat) (ls : List (Nat × Line)) (g : Nat × Line → Cluster → Cluster) :
      MemOk (if (k == .inv) = true then s else ls.foldl (fun s l => (writeBack s l.1 l.2).modCluster d cl (g l)) s) :=
    wf_ite h (foldl_wf (fun _ _ h => modCluster_wf (writeBack_wf h)) h)
  exact wf_ite (kept _ _ _) (modCore_wf (flashFills_wf (dropLines_wf (kept _ _ _))))

theorem maintPage_wf {a : Agent} {k : Maint} {p : Phys} {w : Nat} (h : MemOk s) : MemOk (maintPage a core k va p w s) := by
  have kept : MemOk (maintain (letGo s a.who va) a.die core k p.pa w) := maintain_wf (s := letGo s a.who va) h
  exact wf_ite kept (endUse_wf kept)

theorem maintRange_wf {a : Agent} {k : Maint} {fuel : Nat} (h : MemOk s) : MemOk (maintRange a core k fuel va n s).1 := by
  induction fuel generalizing s va n with
  | zero => exact h
  | succ fuel ih =>
    unfold maintRange
    split
    · exact h
    · dsimp only
      split
      · exact h
      · split
        · exact h
        · exact ih (maintPage_wf (xlatA_wf h ‹_›))

theorem cmnt_wf {k : Maint} {o' : Opd} (hs : MemOk s) : MemOk (cmnt h k o o' s) := by
  refine uniOp_wf (fun c s h => wf_ite (illegal_wf h) (wf_ite (finish_wf (progress_wf h)) ?_)) hs
  dsimp only
  split
  · exact trapAt_wf h
  · refine wf_ite (hold_wf h) ?_
    have done {a : Agent} {lo n fuel : Nat} {u : State} {e : Option (AErr × Nat)} (hu : maintRange a c.f.core k fuel lo n s = (u, e)) : MemOk u := by
      have := maintRange_wf (a := a) (core := c.f.core) (k := k) (fuel := fuel) (va := lo) (n := n) h
      rwa [hu] at this
    split
    · exact finish_wf (progress_wf (done ‹_›))
    · exact holdFor_wf (done ‹_›)
    · exact faultNow_wf (progress_wf (done ‹_›))

theorem execPrf_ok {l1 : Bool} (hs : MemOk s) : NextOk (execPrf h l1 m s) :=
  .next (Go.run_wf (begin_ok hs) fun _ _ h => wf_ite (hold_wf h) (finish_wf (foldl_wf (fun _ _ h => launchAcc_wf h) h)))

theorem execNtdrain_ok (hs : MemOk s) : NextOk (execNtdrain h s) := .next (uniOp_wf (fun _ _ h => wf_ite h h) hs)

end

end Sys2Proof.Machine
end

section
/-! PROOFS. Every operation keeps memory in its canonical form (R33, R34): engine commands, channels and the key space. -/

namespace Sys2Proof.Machine

section
variable {s : State} {f : FragRef} {c : Ctx} {sc : Scope} {d t i j n va id core sp : Nat} {a : Acc} {h : Hdr} {o : Opd} {m : MemOp} {cmd : Cmd} {x : Space}

/-! ### Engine commands (R74 to R89, R308 to R316) -/

theorem modCmd_wf {g : Cmd → Cmd} (h : MemOk s) : MemOk (s.modCmd id g) := h
theorem cmdDone_wf {st : W64} (h : MemOk s) : MemOk (cmdDone s id st) := h
theorem setSpace_wf (h : MemOk s) : MemOk (s.setSpace sp x) := h

/-- What stands beside a value that is known. -/
theorem wf_of_eq {α : Type} {p : α × State} {v : α} {u : State} (e : p = (v, u)) (h : MemOk p.2) : MemOk u := by
  subst e; exact h

theorem fst_ite_wf {β : Type} {p : Prop} [Decidable p] {y z : State × β} (hy : MemOk y.1) (hz : MemOk z.1) : MemOk (if p then y else z).1 := by
  split
  · exact hy
  · exact hz

theorem writeHandle_wf {v : W64} (h : MemOk s) : MemOk (writeHandle s f o v) := by
  unfold writeHandle
  split <;> exact h

theorem issueCmd_wf {r : CmdReq} (h : MemOk s) : MemOk (issueCmd s c o r) := by
  unfold issueCmd
  dsimp only
  split
  · exact finish_wf (progress_wf (writeHandle_wf h))
  · exact finish_wf (progress_wf (writeHandle_wf h))
  · refine wf_ite h (wf_ite h (finish_wf (progress_wf (writeHandle_wf ?_))))
    have flushed (rs : List (Nat × Nat)) : MemOk (flushBanks s c.f.die c.f.core rs) := flushBanks_wf h
    split <;> exact flushed _

theorem cmdWord_wf {cw : CwMod} {os : List Opd} {mk : State → Ctx → W64 → CmdReq} (hs : MemOk s) : MemOk (cmdWord h cw o os mk s) :=
  uniOp_wf (fun _ _ h => issueCmd_wf h) hs

theorem endRebal_wf (h : MemOk s) : MemOk (endRebal s cmd) := by
  unfold endRebal
  split
  · split
    · exact wf_ite h h
    · exact h
  · exact h

theorem completeCmd_wf {st : W64} (h : MemOk s) : MemOk (completeCmd s cmd st) := by
  have unlocked (g : Core → Core) : MemOk (if cmd.core < 96 then s.modCore cmd.die cmd.core g else s) := wf_ite h h
  refine Memory.wf_of_mem (s := endRebal _ cmd) rfl (endRebal_wf ?_)
  cases cmd.ent <;> cases cmd.cw <;> exact unlocked _

theorem finishCmd_wf {st : W64} (h : MemOk s) : MemOk (finishCmd s cmd st) := wf_ite h (completeCmd_wf h)

theorem heldCmd_wf {hd : Held} (h : MemOk s) : MemOk (heldCmd s id hd) := modCmd_wf (noteHeld_wf h)

theorem sideRead_yields {glob : Bool} {at_ : Nat} (h : MemOk s) : Yields (fun v : State × List Byte × Bool => MemOk v.1) (sideRead s cmd glob at_ n) := by
  unfold sideRead
  exact .ite (vread_yields h) (.ok h)

theorem sideWrite_yields {glob : Bool} {at_ : Nat} {bs : List Byte} (h : MemOk s) : Yields MemOk (sideWrite s cmd glob at_ bs) := by
  unfold sideWrite
  exact .ite (vwrite_yields h) (.ok h)

theorem countCons_wf (h : MemOk s) : MemOk (countCons s d) := h

theorem copyRun_wf {sg dg : Bool} {k dst src m : Nat} (h : MemOk s) : MemOk (copyRun sg dg k cmd dst src n m s).1 := by
  induction k generalizing s cmd dst src n m with
  | zero => exact h
  | succ k ih =>
    unfold copyRun
    split
    · exact h
    · dsimp only
      split
      · exact h
      · exact h
      · have read := sideRead_yields h _ ‹_›
        split
        · exact countCons_wf read
        · split
          · exact h
          · exact read
          · exact ih (sideWrite_yields read _ ‹_›)

theorem copySome_wf (h : MemOk s) : MemOk (copySome s cmd).1 := by
  unfold copySome
  split
  · exact h
  · exact copyRun_wf h

theorem stopCopy_wf (h : MemOk s) : MemOk (stopCopy s cmd) := copySome_wf h

theorem execCopyCommandStart_ok (hs : MemOk s) : NextOk (execCopyCommandStart d core s) := by
  refine .next (wf_ite hs ?_)
  split <;> exact hs

theorem waitaGo_wf {w : Watch} (h : MemOk s) : MemOk (waitaGo s f w) := by
  refine finish_wf (modFrag_wf ?_)
  split
  · exact acquire_wf h
  · exact h

theorem waitaPark_wf {w : Watch} (h : MemOk s) : MemOk (waitaPark s c w) := h

theorem execWaita_ok {cond : BitVec 2} {n64 acq : Bool} {o' : Opd} (hs : MemOk s) : NextOk (execWaita h cond n64 acq sc o o' s) := by
  refine .next (markOp_wf (fun c s h => wf_ite (trapAt_wf h) (wf_ite (trapAt_wf h) ?_)) hs)
  split
  · exact trapAt_wf h
  · exact wf_ite h (wf_ite (waitaGo_wf (progress_wf h)) (waitaPark_wf (progress_wf h)))

theorem dropWatch_wf {uid : Nat} (h : MemOk s) : MemOk (dropWatch s f uid) := h

theorem execWaitaWake_ok (hs : MemOk s) : NextOk (execWaitaWake f s) := by
  refine .next ?_
  split
  · split
    · refine wf_ite hs ?_
      split
      · exact trapAt_wf (dropWatch_wf hs)
      · exact wf_ite (waitaGo_wf (dropWatch_wf hs)) hs
    · exact hs
  · exact hs

theorem uniResult_wf {v : Nat} (h : MemOk s) : MemOk (uniResult s c o v) := by
  unfold uniResult
  split
  · exact writeDst_wf h
  · exact writeDst_wf h

theorem rawOp_wf {body : Ctx → State → State} (hb : ∀ c s, MemOk s → MemOk (body c s)) (hs : MemOk s) : MemOk (rawOp h o body s) :=
  Go.run_wf (begin_ok hs) fun _ _ h => uniBody_wf hb h

theorem cancelCmd_wf (h : MemOk s) : MemOk (cancelCmd s cmd) := by
  unfold cancelCmd
  split
  · exact h
  · exact h
  · refine wf_ite (cmdDone_wf (stopCopy_wf h)) (wf_ite h (wf_ite (cmdDone_wf ?_) h))
    split
    · split <;> exact h
    · exact h
  · exact h

theorem execHcan_ok (hs : MemOk s) : NextOk (execHcan h o s) := by
  refine .next (rawOp_wf (fun c s h => finish_wf (wf_ite h ?_)) hs)
  split
  · exact h
  · refine wf_ite h ?_
    split
    · exact cancelCmd_wf h
    · exact h

theorem execQbind_ok {o₁ o₂ : Opd} (hs : MemOk s) : NextOk (execQbind h o o₁ o₂ s) :=
  .next (uniOp_wf (fun _ _ h => wf_ite (illegal_wf h) (wf_ite (trapAt_wf h) (wf_ite (trapAt_wf h) h))) hs)

theorem execQueueDead_ok (hs : MemOk s) : NextOk (execQueueDead f s) := by
  refine .next ?_
  split
  · refine wf_ite hs ?_
    split
    · exact trapAt_wf hs
    · exact wf_ite (trapAt_wf hs) hs
    · exact hs
  · exact hs

theorem chanCheck_wf {off : Nat} {wr : Bool} {go : State → State} (hg : ∀ s, MemOk s → MemOk (go s)) (h : MemOk s) : MemOk (chanCheck s c off wr go) := by
  refine wf_ite (trapAt_wf h) (wf_ite (trapAt_wf h) ?_)
  split
  · exact trapAt_wf h
  · exact wf_ite h (hg s h)

theorem execSend_ok {ch : BitVec 6} (hs : MemOk s) : NextOk (execSend h ch o s) := by
  refine .next (uniOp_wf (fun c s h => ?_) hs)
  dsimp only
  split
  · exact illegal_wf h
  · exact wf_ite (trapAt_wf h) (chanCheck_wf (fun _ h => wf_ite h (wf_ite h (wf_ite h h))) h)

theorem modChan_wf {ch : Nat} {g : Chan → Chan} (h : MemOk s) : MemOk (modChan s c ch g) := h

theorem execRecv_ok {ch : BitVec 6} (hs : MemOk s) : NextOk (execRecv h ch o s) := by
  refine .next (uniOp_wf (fun c s h => ?_) hs)
  dsimp only
  split
  · exact illegal_wf h
  · refine wf_ite (trapAt_wf h) (chanCheck_wf (fun s h => ?_) h)
    split
    · exact wf_ite (trapAt_wf (progress_wf h)) h
    · exact finish_wf (acquire_wf (modCore_wf (modChan_wf (progress_wf h))))

/-! ### Keys and directory agents (R97 to R128, R317 to R321) -/

theorem keyTrap_wf {thr : Option Nat} {info : W64} (h : MemOk s) : MemOk (keyTrap s c thr info) := h

theorem keyWord_wf {srcs : List Src} {op : State → Nat → List Nat → KOut} (hs : MemOk s) : MemOk (keyWord h o srcs op s) := by
  refine Go.run_wf (begin_ok hs) fun _ _ h => Go.run_wf (checkPois_ok h) fun _ _ h => finish_wf (foldl_wf (fun s t h => ?_) h)
  split
  · exact launchValue_wf h
  · exact keyTrap_wf h
  · exact keyTrap_wf h

theorem launchDir_wf {thr : Option Nat} {op : DirOp} {d e : Dst} {acq : Option Scope} (h : MemOk s) : MemOk (launchDir s c thr op d e acq) := by
  unfold launchDir
  split
  · exact keyTrap_wf h
  · exact h

theorem dirWord_wf {uni : Bool} {os : List Opd} {rel acq : Option Scope} {prog : Bool} {mk : State → Ctx → Nat → DirOp × Dst × Dst} (hs : MemOk s) :
    MemOk (dirWord h uni os rel acq prog mk s) := by
  refine memWord_wf (fun c ts s h => wf_ite h (wf_ite h ?_)) hs
  have launched (l : List (Option Nat × DirOp × Dst × Dst)) : MemOk (l.foldl (fun s o => launchDir s c o.1 o.2.1 o.2.2.1 o.2.2.2 acq) s) :=
    foldl_wf (fun _ _ h => launchDir_wf h) h
  have done (l : List (Option Nat × DirOp × Dst × Dst)) (n : Nat) :
      MemOk (finish (if prog then progress (l.foldl (fun s o => launchDir s c o.1 o.2.1 o.2.2.1 o.2.2.2 acq) s) c.f
        else l.foldl (fun s o => launchDir s c o.1 o.2.1 o.2.2.1 o.2.2.2 acq) s) c.f n) :=
    finish_wf (wf_ite (progress_wf (launched l)) (launched l))
  exact wf_ite (modFrag_wf (done _ _)) (done _ _)

theorem pickOf_wf {α : Type} {l : List α} (h : MemOk s) : MemOk (pickOf s l).2 := by
  unfold pickOf
  split <;> exact h

theorem takePool_wf {sl : Bool} (h : MemOk s) : MemOk (takePool s x j sl).2 := by
  unfold takePool
  split
  · exact wf_of_eq ‹_› (pickOf_wf h)
  · have picked := wf_of_eq ‹_› (pickOf_wf h)
    split
    · exact picked
    · dsimp only
      split <;> exact wf_of_eq ‹_› (pickOf_wf picked)

theorem syncSpace_wf (h : MemOk s) : MemOk (syncSpace s sp) := by
  unfold syncSpace
  split
  · exact h
  · exact foldl_wf (fun _ _ h => putIndex_wf h) (foldl_wf (fun _ _ h => writeRec_wf h) h)

theorem reapRec_wf {r : KRec} (h : MemOk s) : MemOk (reapRec s sp i r) := by
  refine wf_ite ?_ h
  split
  · exact setSpace_wf (clearRec_wf h)
  · exact h

theorem dirDo_wf {op : DirOp} (h : MemOk s) : MemOk (dirDo s d op).1 := by
  unfold dirDo
  split
  · split
    · exact h
    · split <;> exact h
  · split <;> exact h
  · split
    · exact h
    · split
      · exact h
      · exact fst_ite_wf h (fst_ite_wf h (putRec_wf h))
  · split
    · exact h
    · exact fst_ite_wf h (reapRec_wf (putRec_wf h))

theorem dirPark_wf (h : MemOk s) : MemOk (dirPark s a) := h

theorem dirAcc_wf {op : DirOp} (hs : MemOk s) : MemOk (dirAcc s a op) := by
  have h : MemOk (flushDir s) := flushDir_wf hs
  refine wf_ite h (wf_ite (dirPark_wf h) ?_)
  have done : MemOk (if (op.sp? (flushDir s)).all (sameSpace (flushDir s) a.sid) = true then dirDo (flushDir s) a.frag.die op
      else (flushDir s, .error op.operand)).1 := fst_ite_wf (dirDo_wf h) h
  revert done
  generalize (if (op.sp? (flushDir s)).all (sameSpace (flushDir s) a.sid) = true then dirDo (flushDir s) a.frag.die op
    else (flushDir s, .error op.operand)) = p
  intro done
  refine wf_ite (dirPark_wf h) ?_
  obtain ⟨t, r⟩ := p
  cases r <;> exact wf_ite (modAcc_wf done) (modFrag_wf (modAcc_wf done))

theorem makeKids_wf {p : KRec} {fmt : Byte} {size : Nat} (l : List W64) (h : MemOk s) : MemOk (makeKids j p fmt size l x s).2 := by
  induction l generalizing s x with
  | nil => exact h
  | cons k l ih =>
    unfold makeKids
    split
    · exact ih (wf_of_eq ‹_› (takePool_wf h))
    · exact wf_of_eq ‹_› (takePool_wf h)

theorem refineDo_wf {k : W64} {fmt : Nat} (h : MemOk s) : MemOk (refineDo s cmd k fmt) := by
  unfold refineDo
  split
  · exact h
  · split
    · exact h
    · split
      · exact h
      · exact cmdDone_wf (syncSpace_wf (setSpace_wf (makeKids_wf _ h)))

theorem coarsenDo_wf {k : W64} (h : MemOk s) : MemOk (coarsenDo s cmd k) := by
  unfold coarsenDo
  split
  · exact h
  · split
    · exact h
    · split
      · exact h
      · exact cmdDone_wf (syncSpace_wf (setSpace_wf (foldl_wf (fun _ _ h => clearRec_wf h) h)))

theorem structDo_wf {k : W64} (h : MemOk s) : MemOk (structDo s cmd k) := by
  refine wf_ite h ?_
  split
  · exact refineDo_wf h
  · exact coarsenDo_wf h
  · exact h

theorem execDirectoryOperation_ok (hs : MemOk s) : NextOk (execDirectoryOperation id s) := by
  refine .next ?_
  split
  · split
    · exact dirAcc_wf hs
    · exact hs
  · split
    · split
      · exact dirStep_wf (fun _ h => structDo_wf h) hs
      · exact hs
    · exact hs

theorem execCostAdd_ok (hs : MemOk s) : NextOk (execCostAdd f s) := by
  refine .next ?_
  split
  · split
    · exact wf_ite hs (modWarp_wf (addCost_wf hs))
    · exact hs
  · exact hs

/-! ### Rebalances (R122 to R128) -/

theorem execRebalanceNotify_ok (hs : MemOk s) : NextOk (execRebalanceNotify id s) := by
  refine .next ?_
  split
  · exact hs
  · split
    · split
      · exact wf_ite hs hs
      · refine wf_ite (wf_ite hs (wf_ite hs (wf_ite hs hs))) ?_
        split
        · refine wf_ite hs ?_
          dsimp only
          split
          · exact setSpace_wf (wf_of_eq ‹_› (pickOf_wf hs))
          · exact wf_of_eq ‹_› (pickOf_wf hs)
        · exact hs
    · exact hs

theorem planStep_wf (h : MemOk s) : MemOk (planStep sp s) := by
  unfold planStep
  split
  · exact h
  · split
    · exact h
    · exact wf_ite h (syncSpace_wf h)

theorem execPatienceExpiry_ok (hs : MemOk s) : NextOk (execPatienceExpiry sp s) := by
  refine .next ?_
  split
  · exact wf_ite hs hs
  · exact hs

theorem carryRec_wf {hov : List Nat} (h : MemOk s) : MemOk (carryRec sp i hov s) := by
  unfold carryRec
  split
  · exact h
  · split
    · exact h
    · split
      · exact h
      · refine wf_ite h ?_
        dsimp only
        split
        · have taken := wf_of_eq ‹_› (takePool_wf h)
          exact wf_ite taken taken
        · exact setSpace_wf (wf_of_eq ‹_› (takePool_wf h))

theorem stopsStep_wf (h : MemOk s) : MemOk (stopsStep sp s) := by
  unfold stopsStep
  split
  · exact h
  · split
    · exact h
    · exact wf_ite h (releaseHeld_wf (syncSpace_wf (foldl_wf (fun _ _ h => carryRec_wf h) h)))

theorem abortStep_wf (h : MemOk s) : MemOk (abortStep sp s) := by
  unfold abortStep
  split
  · exact h
  · split
    · exact h
    · split
      · exact h
      · refine wf_ite h (cmdDone_wf (releaseHeld_wf (syncSpace_wf (setSpace_wf ?_))))
        exact h

theorem startHovs_wf {r : Rebal} (h : MemOk s) : MemOk (startHovs s sp x r) := by
  refine wf_ite h (wf_ite h (setSpace_wf ?_))
  exact foldl_keeps (P := fun p : State × List Nat => MemOk p.1) (fun _ _ h => by exact h) _ (s, []) h

theorem putImage_wf (h : MemOk s) : MemOk (putImage s sp) := by
  unfold putImage
  split
  · exact foldl_wf (fun _ _ h => agentWrite_wf h) h
  · exact h

theorem rebalEnd_wf (h : MemOk s) : MemOk (rebalEnd s sp) := by
  unfold rebalEnd
  split
  · exact h
  · split
    · exact h
    · exact cmdDone_wf (runAllJobs_wf (releaseHeld_wf (syncSpace_wf (setSpace_wf h))))

theorem commitSpace_wf {r : Rebal} (h : MemOk s) : MemOk (commitSpace s sp x r) :=
  putImage_wf (foldl_wf (fun _ _ h => reapRec_wf h) (syncSpace_wf (setSpace_wf h)))

theorem mcastSend_wf {inst : Bool} (h : MemOk s) : MemOk (mcastSend s x sp inst) := h

theorem commitStep_wf (h : MemOk s) : MemOk (commitStep sp s) := by
  unfold commitStep
  split
  · exact h
  · split
    · exact h
    · exact wf_ite (startHovs_wf h) (wf_ite (mcastSend_wf (setSpace_wf h))
        (wf_ite h (wf_ite (rebalEnd_wf (commitSpace_wf h)) (mcastSend_wf (commitSpace_wf h)))))

theorem takeMsg_wf {inst : Bool} (h : MemOk s) : MemOk (takeMsg s d sp inst) := h

theorem installStep_wf (h : MemOk s) : MemOk (installStep sp d s) := by
  unfold installStep
  split
  · exact h
  · split
    · exact h
    · exact wf_ite h (wf_ite (rebalEnd_wf (setSpace_wf (takeMsg_wf h))) (runAllJobs_wf (setSpace_wf (takeMsg_wf h))))

theorem execDeckleInvalidate_ok (hs : MemOk s) : NextOk (execDeckleInvalidate sp d s) := by
  refine .next ?_
  split
  · exact hs
  · split
    · exact hs
    · exact wf_ite hs hs

end

end Sys2Proof.Machine
end

section
/-! PROOFS. Every operation keeps memory in its canonical form (R33, R34): gathers, ends of commands, matrix instructions, hand-overs and page moves. -/

namespace Sys2Proof.Machine

section
variable {s : State} {f : FragRef} {c : Ctx} {sc : Scope} {d t i j n va id core sp : Nat} {a : Acc} {h : Hdr} {o : Opd} {m : MemOp} {cmd : Cmd} {x : Space}
  {e : EngOp}

/-! ### Gathers and the ends of commands (R74 to R84, R387) -/

theorem gatherStart_wf {list : Nat} (h : MemOk s) : MemOk (gatherStart s cmd list).1 := fst_ite_wf h h

theorem gatherPin_wf {key : W64} (h : MemOk s) : MemOk (gatherPin s cmd sp x key) := by
  refine wf_ite h ?_
  split
  · exact h
  · exact wf_ite h (wf_ite h (wf_ite h (dirStep_wf (fun _ h => modCmd_wf (putRec_wf h)) h)))

theorem gatherUnpin_wf (h : MemOk s) : MemOk (gatherUnpin s cmd) := by
  unfold gatherUnpin
  split
  · dsimp only
    split
    · exact reapRec_wf (putRec_wf (modCmd_wf h))
    · exact h
  · exact h

theorem gatherGot_wf {r : KRec} {fmt stride : Nat} {bs : List Byte} (h : MemOk s) : MemOk (gatherGot s cmd x r fmt stride bs) := by
  refine dirStep_wf (fun s h => ?_) h
  split
  · exact cmdDone_wf (gatherUnpin_wf h)
  · exact wf_ite (cmdDone_wf (gatherUnpin_wf h)) (setFlagsOf_wf (modCmd_wf (gatherUnpin_wf h)))

theorem noteStacks_wf {rs : List (Nat × Nat)} (h : MemOk s) : MemOk (noteStacks s cmd rs) := h

theorem gatherRead_wf {r : KRec} {fmt stride : Nat} (h : MemOk s) : MemOk (gatherRead s cmd x r fmt stride) := by
  unfold gatherRead
  dsimp only
  split
  · exact heldCmd_wf h
  · exact cmdDone_wf h
  · have read := vread_wf (s := (s.takeNat _).2) h ‹_›
    exact wf_ite (cmdDone_wf (countCons_wf (noteStacks_wf (modCmd_wf read)))) (wf_ite (noteStacks_wf (modCmd_wf read)) (gatherGot_wf (noteStacks_wf (modCmd_wf read))))

theorem gatherWrite_wf {glob : Bool} {dst cnt stride w : Nat} {bs : List Byte} (h : MemOk s) : MemOk (gatherWrite s cmd glob dst cnt stride w bs) := by
  unfold gatherWrite
  dsimp only
  split
  · exact heldCmd_wf h
  · exact cmdDone_wf h
  · have wrote := sideWrite_yields (s := (s.takeNat _).2) h _ ‹_›
    exact wf_ite (modCmd_wf (noteStacks_wf (modCmd_wf wrote))) (wf_ite (cmdDone_wf (noteStacks_wf (modCmd_wf wrote)))
      (modCmd_wf (noteStacks_wf (modCmd_wf wrote))))

theorem gatherKey_wf {glob : Bool} {dst list cnt stride fmt : Nat} (h : MemOk s) : MemOk (gatherKey s cmd glob dst list cnt sp stride fmt) := by
  unfold gatherKey
  split
  · exact gatherWrite_wf h
  · have started : MemOk (gatherStart s cmd list).1 := gatherStart_wf h
    dsimp only
    split
    · exact cmdDone_wf started
    · split
      · exact gatherRead_wf started
      · exact wf_ite (cmdDone_wf (countCons_wf started)) (wf_ite (cmdDone_wf started) (gatherPin_wf started))

theorem execGatherKeyStep_ok (hs : MemOk s) : NextOk (execGatherKeyStep id s) := by
  refine .next ?_
  split
  · split
    · exact gatherKey_wf (flushDir_wf hs)
    · exact hs
  · exact hs

theorem packetEnds_wf {q code : Nat} {tag rd : W32} {st : W64} (h : MemOk s) : MemOk (packetEnds s d q code tag rd st) :=
  modDie_wf (wf_ite h h)

theorem globalWord_yields {st : W64} (h : MemOk s) : Yields MemOk (globalWord s cmd st) := by
  unfold globalWord
  split
  · exact vwrN_yields h
  · exact .ok h

theorem rebalCopied_wf {st : W64} (h : MemOk s) : MemOk (rebalCopied s id st) := h

theorem endCmd_wf {st : W64} (h : MemOk s) : MemOk (endCmd s cmd st) := by
  refine wf_ite h ?_
  split
  · exact heldCmd_wf (cmdDone_wf h)
  · have kept : MemOk (gatherUnpin (orSame s (globalWord s cmd st)) cmd) := gatherUnpin_wf (orSame_wf h (globalWord_yields h))
    exact completeCmd_wf (rebalCopied_wf (wf_ite (packetEnds_wf kept) kept))

/-! ### Matrix instructions (R322 to R345) -/

theorem matrixOp_wf {os : List Opd} {body : Ctx → State → State} (hb : ∀ c s, MemOk s → MemOk (body c s)) (hs : MemOk s) :
    MemOk (matrixOp h os body s) :=
  Go.run_wf (begin_ok hs) fun _ _ h => wf_ite (badConv_wf h) (wf_ite (badConv_wf h) (uniOp_wf hb h))

theorem mxLeased_wf {k : State → State} (hk : ∀ s, MemOk s → MemOk (k s)) (h : MemOk s) : MemOk (mxLeased s c k) :=
  wf_ite (hk s h) (hold_wf (wf_ite h h))

theorem snapOf_wf {rs : List (Nat × Nat)} (h : MemOk s) : MemOk (snapOf s c rs).2 :=
  foldl_keeps (P := fun p : List Byte × State => MemOk p.2) (fun _ _ h => by exact lagRead_wf _ h) _ ([], s) h

theorem acceptMx_wf {op : MxOp} {reads writes : List (Nat × Nat)} {leased : Bool} (h : MemOk s) : MemOk (acceptMx s c op reads writes leased) :=
  modCore_wf (snapOf_wf h)

theorem windowTrap_wf (h : MemOk s) : MemOk (windowTrap s f) := trapAt_wf h

theorem execMma_ok {mc nc kind : BitVec 2} {row col : BitVec 4} {o₁ o₂ : Opd} (hs : MemOk s) : NextOk (execMma h mc nc kind row col o o₁ o₂ s) := by
  refine .next (matrixOp_wf (fun c s h => mxLeased_wf (fun s h => wf_ite (windowTrap_wf h) (wf_ite (illegal_wf h)
    (wf_ite (trapAt_wf h) (wf_ite (trapAt_wf h) ?_)))) h) hs)
  split
  · exact trapAt_wf h
  · exact illegal_wf h
  · exact h
  · exact wf_ite h (wf_ite h (finish_wf (acceptMx_wf h)))

theorem execMzero_ok {mc nc : BitVec 2} {i32 : Bool} {row col : BitVec 4} (hs : MemOk s) : NextOk (execMzero h mc nc i32 row col s) :=
  .next (matrixOp_wf (fun _ _ h => mxLeased_wf (fun _ h => wf_ite (windowTrap_wf h) (wf_ite h (wf_ite h (finish_wf (acceptMx_wf h))))) h) hs)

theorem countLease_wf (h : MemOk s) : MemOk (countLease s c) := h

theorem execMdrn_ok {tq : Bool} {cw : CwMod} {o' : Opd} (hs : MemOk s) : NextOk (execMdrn h tq cw o o' s) := by
  refine .next (matrixOp_wf (fun c s h => mxLeased_wf (fun s h => ?_) h) hs)
  dsimp only
  split
  · exact trapAt_wf h
  · exact h
  · exact wf_ite h (wf_ite (countLease_wf (issueCmd_wf h)) (wf_ite h (wf_ite h (wf_ite (issueCmd_wf h) (modWarp_wf (acceptMx_wf (issueCmd_wf h)))))))

theorem acpIssue_wf {fs ck : Bool} {row : BitVec 4} {o' : Opd} (hs : MemOk s) : MemOk (acpIssue h fs ck row o o' s) := by
  refine matrixOp_wf (fun c s h => wf_ite (illegal_wf h) (wf_ite (windowTrap_wf h) (wf_ite (trapAt_wf h) ?_))) hs
  split
  · exact trapAt_wf h
  · exact wf_ite h (wf_ite h (finish_wf (acceptMx_wf h)))

theorem snd_ite_wf {β : Type} {p : Prop} [Decidable p] {y z : β × State} (hy : MemOk y.2) (hz : MemOk z.2) : MemOk (if p then y else z).2 := by
  split
  · exact hy
  · exact hz

theorem mixElems_wf {w : Nat} {old now : List Byte} (h : MemOk s) : MemOk (mixElems s w old now).2 := by
  unfold mixElems
  split
  · exact h
  · refine foldl_keeps (P := fun p : Nat × State => MemOk p.2) (fun p k h => ?_) _ (0, s) h
    exact snd_ite_wf h h

theorem mixTrits_wf {b b' : Byte} (h : MemOk s) : MemOk (mixTrits s b b').2.2 := by
  unfold mixTrits
  split
  · exact h
  · exact foldl_keeps (P := fun p : Nat × Bool × State => MemOk p.2.2) (fun _ _ h => by exact h) _ (0, false, s) h

theorem mixT3_wf {old now : List Byte} (h : MemOk s) : MemOk (mixT3 s old now).2.2 :=
  foldl_keeps (P := fun p : List Byte × Bool × State => MemOk p.2.2) (fun _ _ h => by exact mixTrits_wf h) _ ([], false, s) h

theorem mixOperands_wf {b : FmtBlock} {olds nows : List (List Byte)} (h : MemOk s) : MemOk (mixOperands s b olds nows).2.2 := by
  refine foldl_keeps (P := fun p : List (List Byte) × Bool × State => MemOk p.2.2) (fun p x h => ?_) _ ([], false, s) h
  dsimp only
  split
  · exact mixT3_wf h
  · exact mixElems_wf h

theorem engPoison_wf {at_ : Nat} (h : MemOk s) : MemOk (engPoison s d e at_) := wf_ite h h

theorem finishMma_wf {row col m n kind : Nat} {w : W64} (h : MemOk s) : MemOk (finishMma s d core e row col m n kind w) := by
  have mixed (b : FmtBlock) (olds nows : List (List Byte)) (k : Core) (wg wuid : Nat) (fl : BitVec 5) :
      MemOk (setFlagsOf ((mixOperands s b olds nows).2.2.modCore d core (fun _ => k)) d wg wuid fl) := setFlagsOf_wf (modCore_wf (mixOperands_wf h))
  unfold finishMma
  dsimp only
  split
  · exact engPoison_wf (mixed _ _ _ _ _ _ _)
  · exact mixed _ _ _ _ _ _ _

theorem mixBands_wf {ck : Bool} {old now : List Byte} (h : MemOk s) : MemOk (mixBands s ck n old now).2 := by
  induction n generalizing s old now with
  | zero => exact h
  | succ n ih => exact ih (mixElems_wf (mixElems_wf h))

theorem finishAcp_wf {fs ck : Bool} {row nb off : Nat} (h : MemOk s) : MemOk (finishAcp s d core e fs ck row nb off) := by
  refine wf_ite ?_ h
  split
  · exact engPoison_wf (modCore_wf (mixBands_wf h))
  · exact modCore_wf (mixBands_wf h)

theorem drainRead_wf (h : MemOk s) : MemOk (drainRead s d core id) := by
  unfold drainRead
  split
  · exact h
  · split
    · dsimp only
      split
      · exact cmdDone_wf (wf_ite h h)
      · exact modCmd_wf (setFlagsOf_wf (modDie_wf (modCore_wf h)))
    · exact h

theorem execMatrixInstructionFinish_ok (hs : MemOk s) : NextOk (execMatrixInstructionFinish d core s) := by
  refine .next ?_
  split
  · exact hs
  · dsimp only
    split
    · exact finishMma_wf (modCore_wf hs)
    · exact hs
    · exact drainRead_wf (modCore_wf hs)
    · exact finishAcp_wf (modCore_wf hs)
    · exact hs

theorem execMmv_ok {cw : CwMod} {o' : Opd} (hs : MemOk s) : NextOk (execMmv h cw o o' s) := by
  refine .next (matrixOp_wf (fun c s h => ?_) hs)
  dsimp only
  split
  · exact trapAt_wf h
  · exact h
  · exact wf_ite h (wf_ite h (issueCmd_wf h))

theorem execMmvStart_ok (hs : MemOk s) : NextOk (execMmvStart id s) := by
  refine .next ?_
  split
  · split
    · exact wf_ite hs hs
    · exact hs
  · exact hs

theorem letGo_wf {who : Asker} (h : MemOk s) : MemOk (letGo s who va) := h

theorem homeRead_yields (h : MemOk s) : Yields (fun v : State × List Byte × Bool × Nat => MemOk v.1) (homeRead s cmd va n) := by
  refine (xlatA_yields h).bind fun ⟨u, p⟩ h => ?_
  dsimp only
  cases stackOf p.pa with
  | none => exact .error
  | some i =>
    refine .ite .error ?_
    cases reach u (cmdAgent cmd) va p with
    | some e => exact .error
    | none => exact .ok (letGo_wf h)

theorem mmvRead_wf {k : Nat} {left : List Piece} (h : MemOk s) : MemOk (mmvRead k left cmd s).1 := by
  induction k generalizing s left cmd with
  | zero => exact h
  | succ k ih =>
    unfold mmvRead
    split
    · exact wf_of_eq ‹_› (pickOf_wf h)
    · have picked := wf_of_eq ‹_› (pickOf_wf h)
      dsimp only
      split
      · exact picked
      · exact picked
      · have read := homeRead_yields picked _ ‹_›
        exact fst_ite_wf (countCons_wf read) (ih read)

theorem mmvDone_wf {nm : NearMem} (h : MemOk s) : MemOk (mmvDone s cmd nm) :=
  wf_ite h (wf_ite (endCmd_wf (countCons_wf h)) (endCmd_wf (setFlagsOf_wf (modCore_wf h))))

theorem mmvTurn_wf {b : List Byte} (h : MemOk s) : MemOk (mmvTurn s cmd b) := by
  have read (k : Nat) (left : List Piece) (u : State) (hu : MemOk u) : MemOk (mmvRead k left cmd u).1 := mmvRead_wf hu
  unfold mmvTurn
  dsimp only
  split
  · exact heldCmd_wf (modCmd_wf (read _ _ _ h))
  · exact wf_ite (endCmd_wf (modCmd_wf (read _ _ _ h))) (wf_ite (modCmd_wf (read _ _ _ h)) (mmvDone_wf (modCmd_wf (read _ _ _ h))))

theorem wakeWhere_wf {q : Nat → Wg → Bool} {p : Wait → Bool} (h : MemOk s) : MemOk (wakeWhere s d q p) := h

theorem execMatrixLeaseGrant_ok (hs : MemOk s) : NextOk (execMatrixLeaseGrant d core s) := by
  refine .next ?_
  dsimp only
  split
  · exact wf_ite hs hs
  · exact hs

/-! ### Hand-overs and page moves (R35 to R50) -/

theorem execLeaveGrant_ok (hs : MemOk s) : NextOk (execLeaveGrant d i s) := by
  refine .next ?_
  dsimp only
  split
  · exact hs
  · refine wf_ite hs ?_
    split <;> exact hs

theorem markAccs_wf (h : MemOk s) : MemOk (markAccs s d i) := by
  refine foldl_wf (fun s a h => ?_) h
  have chosen (must : Bool) : MemOk (if must = true then (true, s) else s.takeBool).2 := snd_ite_wf h h
  exact wf_ite h (wf_ite (wf_ite (modAcc_wf (chosen _)) (chosen _)) h)

theorem markCmds_wf (h : MemOk s) : MemOk (markCmds s d i) := by
  refine foldl_wf (fun s c h => ?_) h
  exact wf_ite (wf_ite h (wf_ite (wf_ite h h) h)) h

theorem modStk_wf {g : Stack → Stack} (h : MemOk s) : MemOk (s.modStk i g) := h

theorem execHandoverStart_ok (hs : MemOk s) : NextOk (execHandoverStart i s) := by
  refine .next ?_
  split
  · exact hs
  · exact wf_ite hs (modDie_wf (modDie_wf (modStk_wf (markCmds_wf (markAccs_wf hs)))))

theorem writeBackCluster_wf {cl : Nat} (h : MemOk s) : MemOk (writeBackCluster s d i cl) :=
  dropLines_wf (foldl_wf (fun _ _ h => wf_ite (writeBack_wf h) h) h)

theorem hovStep_wf {k : Nat} (h : MemOk s) : MemOk (hovStep s i k) := h

theorem execHandoverWriteback_ok (hs : MemOk s) : NextOk (execHandoverWriteback i s) := by
  refine .next ?_
  split
  · exact wf_ite hs (hovStep_wf (modDie_wf (foldl_wf (fun _ _ h => writeBackCluster_wf h) hs)))
  · exact hs

theorem execHandoverShootdown_ok (hs : MemOk s) : NextOk (execHandoverShootdown i s) := by
  refine .next ?_
  split
  · exact wf_ite hs hs
  · exact hs

theorem execOwnerFlip_ok (hs : MemOk s) : NextOk (execOwnerFlip i s) := by
  refine .next ?_
  split
  · refine wf_ite hs ?_
    dsimp only
    split
    · exact wf_ite (finishCmd_wf hs) hs
    · exact hs
  · exact hs

theorem execHandoverFinish_ok (hs : MemOk s) : NextOk (execHandoverFinish i s) := by
  refine .next ?_
  split
  · refine wf_ite hs ?_
    dsimp only
    split
    · exact foldl_wf (fun _ _ h => finishCmd_wf h) (endCmd_wf hs)
    · exact foldl_wf (fun _ _ h => finishCmd_wf h) hs
  · exact hs

theorem shootdown_wf {p : TlbEnt → Bool} (h : MemOk s) : MemOk (shootdown s d p) := h

theorem pmoveRun_wf {dst npg psz : Nat} {ls : List (Nat × W64)} (h : MemOk s) : MemOk (pmoveRun s cmd va dst npg psz ls) :=
  modCmd_wf (foldl_wf (fun _ _ h => movePhys_wf h) (foldl_wf (fun _ _ h => modHome_wf h) (shootdown_wf (foldl_wf (fun _ _ h => orEntry_wf h) h))))

theorem pmoveQueue_wf {ls : List (Nat × W64)} (h : MemOk s) : MemOk (pmoveQueue s cmd ls).2 := by
  unfold pmoveQueue
  split <;> exact h

theorem execPageMoveStart_ok (hs : MemOk s) : NextOk (execPageMoveStart id s) := by
  refine .next ?_
  split
  · split
    · refine wf_ite hs ?_
      split
      · exact endCmd_wf hs
      · exact hs
      · exact wf_ite (modCmd_wf (pmoveQueue_wf hs)) (pmoveRun_wf (pmoveQueue_wf hs))
    · exact hs
  · exact hs

theorem rewriteLeaves_wf {sz dst : Nat} (l : List (Nat × W64)) (h : MemOk s) : MemOk (rewriteLeaves sz l dst s).2 := by
  induction l generalizing s dst with
  | nil => exact h
  | cons e l ih =>
    unfold rewriteLeaves
    split
    · exact h
    · exact ih (wrN_wf h)

theorem releaseBusy_wf {moved : Bool} (h : MemOk s) : MemOk (releaseBusy s id moved) := h

theorem execPageMoveRewrite_ok (hs : MemOk s) : NextOk (execPageMoveRewrite id s) := by
  refine .next ?_
  split
  · split
    · exact wf_ite hs (wf_ite (modCmd_wf (rewriteLeaves_wf _ hs))
        (endCmd_wf (releaseBusy_wf (foldl_wf (fun _ _ h => wf_ite (wrN_wf h) h) (rewriteLeaves_wf _ hs)))))
    · exact hs
  · exact hs

theorem execPageMoveFinish_ok (hs : MemOk s) : NextOk (execPageMoveFinish id s) := by
  refine .next ?_
  split
  · split
    · exact wf_ite hs (endCmd_wf (releaseBusy_wf hs))
    · exact hs
  · exact hs

end

end Sys2Proof.Machine
end

section
/-! PROOFS. Every operation keeps memory in its canonical form (R33, R34): stream instructions, the solver and the calender. -/

namespace Sys2Proof.Machine

section
variable {s : State} {f : FragRef} {c : Ctx} {d t i j n id core : Nat} {a : Acc} {h : Hdr} {o : Opd} {run : BitVec 2}

/-! ### Stream instructions (R346 to R361) -/

theorem pulpOp_wf {os : List Opd} {body : Ctx → State → State} (hb : ∀ c s, MemOk s → MemOk (body c s)) (hs : MemOk s) : MemOk (pulpOp h os body s) :=
  uniOp_wf (fun _ _ h => wf_ite (badConv_wf h) (hb _ _ h)) hs

theorem puLeased_wf {k : State → State} (hk : ∀ s, MemOk s → MemOk (k s)) (h : MemOk s) : MemOk (puLeased s c k) :=
  wf_ite (hk s h) (hold_wf (wf_ite h h))

theorem setFaulted_wf {w : Nat} {q : Option Nat} {b : Bool} (h : MemOk s) : MemOk (setFaulted s d w q b) := by
  cases q <;> exact h

theorem acceptPu_wf {l : Bool} {q : Option Nat} {push : List W32} {g : State → State} {ws : List (Nat × Nat)} (hg : ∀ s, MemOk s → MemOk (g s))
    (h : MemOk s) : MemOk (acceptPu s c l q push g ws) :=
  wf_ite (hold_wf h) (finish_wf (modCore_wf (hg _ (setFaulted_wf h))))

theorem zRun_wf {srcs : List Opd} {chk : (Nat → W32) → Nat → Option W64} {op : (Nat → Stream) → (Nat → W32) → Nat → Stream × W32} (hs : MemOk s) :
    MemOk (zRun h run o srcs chk op s) := by
  refine pulpOp_wf (fun c s h => puLeased_wf (fun s h => wf_ite (illegal_wf h) ?_) h) hs
  dsimp only
  split
  · exact trapAt_wf h
  · exact acceptPu_wf (fun _ h => modCore_wf h) h

theorem zLogic_wf {a b : Opd} {corr : Bool} {op : Stream → Stream → Stream} (hs : MemOk s) : MemOk (zLogic h run o a b corr op s) := by
  exact zRun_wf hs

theorem execSmux_ok {a b x : Opd} (hs : MemOk s) : NextOk (execSmux h run o a b x s) := .next (zRun_wf hs)

theorem execSgenK_ok {cls : BitVec 4} {a : Opd} (hs : MemOk s) : NextOk (execSgenK h run cls o a s) :=
  .next (pulpOp_wf (fun _ _ h => puLeased_wf (fun _ h => wf_ite (illegal_wf h) (acceptPu_wf (fun _ h => modCore_wf h) h)) h) hs)

theorem execSgenQ_ok {cls : BitVec 4} {a : Opd} (hs : MemOk s) : NextOk (execSgenQ h run cls o a s) :=
  .next (pulpOp_wf (fun _ _ h => puLeased_wf (fun _ h => wf_ite (illegal_wf h) (wf_ite (trapAt_wf h) (wf_ite (illegal_wf h)
    (wf_ite (wf_ite (trapAt_wf h) (hold_wf h)) (wf_ite (hold_wf h) (acceptPu_wf (fun _ h => modCore_wf (popWords_wf h)) h)))))) h) hs)

theorem execSlen_ok {b : Opd} (hs : MemOk s) : NextOk (execSlen h run o b s) :=
  .next (pulpOp_wf (fun _ _ h => puLeased_wf (fun _ h => wf_ite (illegal_wf h) (acceptPu_wf (fun _ h => modCore_wf h) h)) h) hs)

theorem countPu_wf (h : MemOk s) : MemOk (countPu s c) := h

theorem countOp_wf {a : Opd} {os : List Opd} {words : List Nat → List Nat} {val : Ctx → State → List Nat → Nat → Nat} (hs : MemOk s) :
    MemOk (countOp h o a os words val s) := by
  refine pulpOp_wf (fun c s h => puLeased_wf (fun s h => ?_) h) hs
  dsimp only
  split
  · exact wf_ite (illegal_wf h) (acceptPu_wf (fun _ h => h) h)
  · refine wf_ite (hold_wf h) (finish_wf ?_)
    split <;> exact writeDst_wf (countPu_wf h)

theorem imageAt_wf {off : Nat} {wr : Bool} {go : State → State} (hg : ∀ s, MemOk s → MemOk (go s)) (h : MemOk s) : MemOk (imageAt s c off n wr go) := by
  refine wf_ite (trapAt_wf h) ?_
  split
  · exact trapAt_wf h
  · exact wf_ite (hold_wf h) (hg s h)

theorem execSmovTs_ok {a b : Opd} (hs : MemOk s) : NextOk (execSmovTs h run a b s) :=
  .next (pulpOp_wf (fun _ _ h => wf_ite (illegal_wf h) (imageAt_wf (fun _ h => wf_ite (hold_wf h) (finish_wf (modCore_wf h))) h)) hs)

theorem execSmovFs_ok {b : Opd} (hs : MemOk s) : NextOk (execSmovFs h run o b s) := by
  refine .next (pulpOp_wf (fun c s h => wf_ite (illegal_wf h) (imageAt_wf (fun s h => ?_) h)) hs)
  split
  · exact trapAt_wf (countCons_wf h)
  · split
    · exact hold_wf h
    · exact acceptPu_wf (fun _ h => modCore_wf h) h

theorem execSmovSt_ok {a : Opd} (hs : MemOk s) : NextOk (execSmovSt h o a s) :=
  .next (pulpOp_wf (fun _ _ h => wf_ite (hold_wf h) (finish_wf (writeDst_wf h))) hs)

theorem execPulpInstructionComplete_ok (hs : MemOk s) : NextOk (execPulpInstructionComplete d core s) := by
  refine .next ?_
  split
  · exact hs
  · dsimp only
    split
    · exact wf_ite (modCore_wf (wf_ite hs (setFaulted_wf hs))) (wf_ite hs (modCore_wf (pushWords_wf hs)))
    · exact modCore_wf hs

theorem execPulpLeaseGrant_ok (hs : MemOk s) : NextOk (execPulpLeaseGrant d core s) := by
  refine .next ?_
  dsimp only
  split
  · refine wf_ite hs ?_
    split
    · exact hs
    · exact wakeWhere_wf (modCore_wf hs)
  · exact hs

theorem execLeasePass_ok {pulp : Bool} (hs : MemOk s) : NextOk (execLeasePass d core pulp s) := by
  refine .next ?_
  dsimp only
  split
  · exact hs
  · exact wf_ite hs (modCore_wf hs)

/-! ### The solver and the calender (R365 to R380) -/

theorem goTo_wf {pc : W64} (h : MemOk s) : MemOk (goTo s f pc) := h

theorem arrivedAll_wf {act : State → FragRef → SlvArr → State} (hact : ∀ s f a, MemOk s → MemOk (act s f a)) (h : MemOk s) :
    MemOk (arrivedAll s d t act) := by
  unfold arrivedAll
  split
  · exact h
  · exact foldl_wf (fun _ _ h => hact _ _ _ h) (modWg_wf h)

theorem trapArrived_wf {cause : Nat} {info : SlvArr → W64} (h : MemOk s) : MemOk (trapArrived s d t cause info) :=
  arrivedAll_wf (fun _ _ _ h => trapAt_wf h) h

theorem departBody_wf {pc : W64} (h : MemOk s) : MemOk (departBody s d t pc) := arrivedAll_wf (fun _ _ _ h => goTo_wf (modFrag_wf h)) h

theorem slvOpen_wf {g : Wg} {a : SlvArr} (h : MemOk s) : MemOk (slvOpen s d t g a) := by
  refine wf_ite (trapArrived_wf h) (wf_ite (trapArrived_wf h) ?_)
  split
  · exact trapArrived_wf (wf_ite (countCons_wf h) h)
  · exact wf_ite h (departBody_wf (modWg_wf (modCore_wf (flushBanks_wf h))))

theorem slvDone_wf (h : MemOk s) : MemOk (slvDone s d t) := by
  unfold slvDone
  split
  · exact h
  · split
    · exact wf_ite (trapArrived_wf h) (wf_ite (slvOpen_wf h) (wf_ite (trapArrived_wf h) (calEnter_wf h)))
    · exact h

theorem slvArrive_wf {os : List Opd} {w : Wait} {mk : State → Ctx → SlvArr} (hs : MemOk s) : MemOk (slvArrive h os w mk s) :=
  markOp_wf (fun _ _ h => wf_ite (badConv_wf h) (wf_ite (badConv_wf h) (wf_ite (hold_wf h) (slvDone_wf (modWgOf_wf (progress_wf (hold_wf h))))))) hs

theorem slvClose_wf (h : MemOk s) : MemOk (slvClose s d t) := by
  unfold slvClose
  split <;> exact h

theorem slvEnd_wf {g : Wg} {ts : List Tile} {st : Nat} {norm : W64} (h : MemOk s) : MemOk (slvEnd s d t g ts st norm) := by
  have closed (g₁ : Core → Core) (g₂ : Wg → Wg) : MemOk (slvClose ((s.modCore d g.core g₁).modWg d t g₂) d t) := slvClose_wf (modWg_wf (modCore_wf h))
  exact wf_ite (arrivedAll_wf (fun _ _ _ h => goTo_wf h) (closed _ _)) (arrivedAll_wf (fun _ _ _ h => takeTrap_wf h) (closed _ _))

theorem tornBytes_wf {in_ : Nat → Bool} (xs ys : List Byte) (h : MemOk s) : MemOk (tornBytes in_ n xs ys s).2 := by
  induction xs generalizing s ys n with
  | nil => exact h
  | cons x xs ih =>
    cases ys with
    | nil => exact h
    | cons y ys => exact ih ys (snd_ite_wf h h)

theorem tornPiece_wf {carried : List (Nat × Nat)} {p : Core × State} {at_ : Nat} {new : List Byte} (h : MemOk p.2) :
    MemOk (tornPiece carried p at_ new).2 := snd_ite_wf h (tornBytes_wf _ _ h)

theorem tornCopy_wf {carried : List (Nat × Nat)} {p : Core × State} {k : Cmd} (h : MemOk p.2) : MemOk (tornCopy carried p k).2 := by
  unfold tornCopy
  split
  · refine foldl_keeps (P := fun p : Core × State => MemOk p.2) (fun p _ h => ?_) _ p h
    dsimp only
    split
    · exact tornPiece_wf h
    · exact h
  · split
    · exact tornPiece_wf h
    · exact h
  · exact snd_ite_wf h (foldl_keeps (P := fun p : Core × State => MemOk p.2) (fun _ _ h => tornPiece_wf h) _ p h)
  · exact h

theorem addCyc_wf (h : MemOk s) : MemOk (s.addCyc d core n) := h

theorem slvStep_wf {g : Wg} (h : MemOk s) : MemOk (slvStep s d t g) := by
  have torn (carried : List (Nat × Nat)) (l : List Cmd) : MemOk (l.foldl (tornCopy carried) (s.core d g.core, s)).2 :=
    foldl_keeps (P := fun p : Core × State => MemOk p.2) (fun _ _ h => tornCopy_wf h) _ _ h
  have poisoned {cause : Nat} {info : SlvArr → W64} {carried : List (Nat × Nat)} {l : List Cmd} :
      MemOk (trapArrived (countCons (l.foldl (tornCopy carried) (s.core d g.core, s)).2 d) d t cause info) := trapArrived_wf (countCons_wf (torn _ _))
  unfold slvStep
  dsimp only
  split
  · exact trapArrived_wf (torn _ _)
  · split
    · exact poisoned
    · refine wf_ite (slvEnd_wf (addCyc_wf (torn _ _))) (wf_ite (slvEnd_wf (addCyc_wf (torn _ _))) (wf_ite (slvEnd_wf (addCyc_wf (torn _ _))) ?_))
      split
      · exact trapArrived_wf (torn _ _)
      · split
        · exact poisoned
        · exact departBody_wf (modWg_wf (modCore_wf (addCyc_wf (torn _ _))))

theorem execCalenderStep_ok {wg : Nat} (hs : MemOk s) : NextOk (execCalenderStep d core wg s) := by
  refine .next ?_
  split
  · exact hs
  · refine wf_ite hs ?_
    have queued : MemOk (if (s.core d core).calQ.contains wg = true then s else slvDone s d wg) := wf_ite hs (slvDone_wf hs)
    dsimp only
    split
    · exact wf_ite (slvStep_wf (modCore_wf queued)) queued
    · exact queued

end

end Sys2Proof.Machine
end

section
/-! PROOFS. Every operation keeps memory in its canonical form (R33, R34): scheduling, dispatch, traps and preemption. -/

namespace Sys2Proof.Machine

section
variable {s : State} {f : FragRef} {c : Ctx} {d t i j n id core wg : Nat} {a : Acc} {h : Hdr} {o : Opd} {y : Grid} {g : Wg}

theorem postEvent_wf {r : List Byte} (h : MemOk s) : MemOk (postEvent s d r) := h
theorem passAll_wf {p : Warp → Frag → Bool} (h : MemOk s) : MemOk (passAll s d t p) := h
theorem launchPair_wf {o' : Opd} {v w : W64} (h : MemOk s) : MemOk (launchPair s c o o' v w) := h
theorem rotateOut_wf {ts : List Nat} (h : MemOk s) : MemOk (rotateOut s d core ts) := h
theorem trapReturn_wf {x : Option W64} (h : MemOk s) : MemOk (trapReturn s f x) := h

/-! ### Allotments, barriers and phases (R395, R405 to R408) -/

theorem execAcq_ok (hs : MemOk s) : NextOk (execAcq h s) :=
  .next (uniOp_wf (fun _ _ h => wf_ite (finish_wf h) (wf_ite (hold_wf h) (hold_wf (wf_ite h h)))) hs)

theorem takeBands_wf {free : List Nat} {b : BitVec 16} (h : MemOk s) : MemOk (takeBands n free b s).2 := by
  induction n generalizing s free b with
  | zero => exact h
  | succ n ih =>
    unfold takeBands
    split
    · exact ih (wf_of_eq ‹_› (pickOf_wf h))
    · exact wf_of_eq ‹_› (pickOf_wf h)

theorem execAllotmentGrant_ok (hs : MemOk s) : NextOk (execAllotmentGrant d core s) := by
  refine .next ?_
  split
  · exact hs
  · split
    · exact hs
    · exact wf_ite hs (wf_ite hs (passAll_wf (modWg_wf (modCore_wf (takeBands_wf hs)))))

theorem spillAll_yields (h : MemOk s) : Yields MemOk (spillAll s f g) :=
  Yields.foldlM (fun _ _ h => Yields.foldlM (fun _ _ h => (spillOld_yields h).mapError) _ h) _ h

theorem execRel_ok (hs : MemOk s) : NextOk (execRel h s) := by
  refine .next (uniOp_wf (fun c s h => wf_ite (finish_wf h) (wf_ite (illegal_wf h) (wf_ite (hold_wf h) ?_))) hs)
  split
  · exact holdFor_wf h
  · exact faultNow_wf h
  · exact finish_wf (modCore_wf (modWgOf_wf (spillAll_yields h _ ‹_›)))

theorem holdRel_wf (h : MemOk s) : MemOk (holdRel s f) := hold_wf (modFrag_wf h)

theorem execBar_ok {sc : BitVec 2} (hs : MemOk s) : NextOk (execBar h sc s) :=
  .next (markOp_wf (fun _ _ h => wf_ite (finish_wf (acquire_wf (modWgOf_wf h))) (wf_ite (hold_wf h) (wf_ite (holdRel_wf h)
    (hold_wf (progress_wf (modWgOf_wf h)))))) hs)

theorem barDepart_wf {e : Nat × Nat} (h : MemOk s) : MemOk (barDepart i s e) := by
  unfold barDepart
  split
  · exact h
  · exact passAll_wf (foldl_wf (fun _ _ h => acquire_wf h) (modWg_wf h))

theorem phaseBoundary_wf (h : MemOk s) : MemOk (phaseBoundary s d id) := by
  unfold phaseBoundary
  split
  · exact h
  · exact wf_ite h (modStk_wf (foldl_wf (fun _ _ h => modWg_wf h) (modGrid_wf h)))

theorem execBarrierComplete_ok {sc : BitVec 2} (hs : MemOk s) : NextOk (execBarrierComplete d core wg sc s) := by
  refine .next ?_
  split
  · exact hs
  · have left (l : List (Nat × Nat)) : MemOk (l.foldl (barDepart sc.toNat) s) := foldl_wf (fun _ _ h => barDepart_wf h) hs
    exact wf_ite hs (wf_ite (phaseBoundary_wf (left _)) (left _))

theorem closePart_wf (h : MemOk s) : MemOk (closePart s d g y) := by
  unfold closePart
  split
  · exact wf_ite h (modGrid_wf h)
  · exact h

theorem execFetchIdx_ok {o' : Opd} (hs : MemOk s) : NextOk (execFetchIdx h o o' s) := by
  refine .next (uniOp_wf (fun c s h => ?_) hs)
  split
  · exact illegal_wf h
  · refine wf_ite (illegal_wf h) ?_
    dsimp only
    split
    · exact finish_wf (launchPair_wf (modWgOf_wf (modStk_wf (closePart_wf h))))
    · split
      · exact finish_wf (launchPair_wf (closePart_wf h))
      · exact finish_wf (launchPair_wf (modWgOf_wf (closePart_wf h)))

/-! ### Tasks (R396 to R411) -/

theorem readOr_yields {α : Type} {v : α} {x : Except AErr (State × α)} (h : MemOk s) (hx : Yields (fun p : State × α => MemOk p.1) x) :
    Yields (fun p : State × α => MemOk p.1) (readOr s v x) := by
  unfold readOr
  split
  · exact .error
  · exact .ok h
  · exact hx

theorem readSuccs_yields (h : MemOk s) : Yields (fun p : State × List W64 => MemOk p.1) (readSuccs d j n i s) := by
  induction n generalizing s i with
  | zero => exact .ok h
  | succ n ih => exact (readOr_yields h (vrdN_yields h)).bind fun _ h => (ih h).bind fun _ h => .ok h

theorem succsOf_yields {w : W64} (h : MemOk s) : Yields (fun p : State × List W64 => MemOk p.1) (succsOf s d w) :=
  (readOr_yields h (tcbRd_yields h)).bind fun _ h => (readOr_yields h (tcbRd_yields h)).bind fun _ h => readSuccs_yields h

theorem reachTasks_yields {l seen : List W64} (h : MemOk s) : Yields (fun p : State × List W64 => MemOk p.1) (reachTasks d n l seen s) := by
  induction n generalizing s l seen with
  | zero => exact .ok h
  | succ n ih =>
    cases l with
    | nil => exact .ok h
    | cons w l => exact .ite (ih h) ((succsOf_yields h).bind fun _ h => ih h)

theorem tcbsOver_yields (l : List W64) (h : MemOk s) : Yields (fun p : State × Bool => MemOk p.1) (tcbsOver d l s) := by
  induction l generalizing s with
  | nil => exact .ok h
  | cons w l ih => exact (readOr_yields h (tcbRd_yields h)).bind fun _ h => .ite (ih h) (.ok h)

theorem tasksOver_yields (h : MemOk s) : Yields (fun p : State × Bool => MemOk p.1) (tasksOver s d y) :=
  .ite (.ok h) ((reachTasks_yields h).bind fun _ h => tcbsOver_yields _ h)

theorem endTask_yields {w : W64} {flt : Option Nat} (h : MemOk s) : Yields MemOk (endTask s c w flt) :=
  .ite .error ((taskEnd_yields (flushCost_wf h)).bind fun _ h => .ok (modWarp_wf h))

theorem takeTask_wf {o' : Opd} (h : MemOk s) : MemOk (takeTask s c o o') := by
  have ran : MemOk (runJobs s c.f.die c.g.grid) := runJobs_wf h
  unfold takeTask
  dsimp only
  split
  · exact ran
  · split
    · split
      · exact hold_wf (noteHeld_wf ran)
      · exact finish_wf (launchPair_wf (acquire_wf (modWarp_wf (modGrid_wf (orSame_wf ran (tcbWr_yields ran))))))
    · split
      · exact finish_wf (launchPair_wf (tasksOver_yields ran _ ‹_›))
      · exact hold_wf (tasksOver_yields ran _ ‹_›)
      · exact hold_wf (AErr.note_wf ran)

theorem execFetchTask_ok {flt : Option Opd} {o' : Opd} (hs : MemOk s) : NextOk (execFetchTask h flt o o' s) := by
  refine .next (uniOp_wf (fun c s h => ?_) hs)
  split
  · exact illegal_wf h
  · refine wf_ite (illegal_wf h) (wf_ite (illegal_wf h) ?_)
    split
    · exact takeTask_wf h
    · have ran : MemOk (runJobs s c.f.die c.g.grid) := runJobs_wf h
      refine wf_ite (holdRel_wf ran) (wf_ite (hold_wf ran) ?_)
      split
      · exact hold_wf (noteHeld_wf ran)
      · exact takeTask_wf (modWarp_wf ran)
      · exact takeTask_wf (endTask_yields ran _ ‹_›)

theorem tcbWord_wf {o' : Opd} {act : State → Ctx → W64 → Except AErr (State × W64)} {bad : W64}
    (ha : ∀ s c w, MemOk s → Yields (fun p : State × W64 => MemOk p.1) (act s c w)) (hs : MemOk s) : MemOk (tcbWord h o o' act bad s) := by
  refine uniOp_wf (fun c s h => wf_ite (trapAt_wf h) ?_) hs
  have ran : MemOk (runJobs s c.f.die c.g.grid) := runJobs_wf h
  refine wf_ite (hold_wf ran) ?_
  split
  · exact hold_wf (noteHeld_wf ran)
  · exact finish_wf (writeDst_wf ran)
  · exact finish_wf (writeDst_wf (ha _ _ _ ran _ ‹_›))

theorem execTrel_ok {o' : Opd} (hs : MemOk s) : NextOk (execTrel h o o' s) :=
  .next (tcbWord_wf (fun _ _ _ h => (tcbRd_yields h).bind fun _ h => .ite (.ok h)
    ((tcbWr_yields h).bind fun _ h => (runSuccs_yields h).bind fun _ h => .ok h)) hs)

theorem waitingOf_yields (l : List W64) (h : MemOk s) : Yields (fun p : State × List W64 => MemOk p.1) (waitingOf d l s) := by
  induction l generalizing s with
  | nil => exact .ok h
  | cons w l ih => exact (readOr_yields h (tcbRd_yields h)).bind fun _ h => (ih h).bind fun _ h => .ok h

theorem execTabn_ok {o' : Opd} (hs : MemOk s) : NextOk (execTabn h o o' s) :=
  .next (tcbWord_wf (fun _ _ _ h => (tcbRd_yields h).bind fun _ h => .ite (.ok h)
    ((reachTasks_yields h).bind fun _ h => (waitingOf_yields _ h).bind fun _ h =>
      (Yields.foldlM (P := MemOk) (fun _ _ h => tcbWr_yields h) _ h).bind fun _ h => .ok h)) hs)

theorem fresh_wf (h : MemOk s) : MemOk s.fresh.2 := h

theorem execDeviceSideLaunch_ok {o' : Opd} (hs : MemOk s) : NextOk (execDeviceSideLaunch h o o' s) :=
  .next (uniOp_wf (fun _ _ h => wf_ite (modDie_wf (fresh_wf (issueCmd_wf h))) (issueCmd_wf h)) hs)

theorem execJoin_ok {o' : Opd} (hs : MemOk s) : NextOk (execJoin h o o' s) := by
  refine .next (rawOp_wf (fun c s h => wf_ite (finish_wf (modWarp_wf (progress_wf h))) ?_) hs)
  split
  · exact hold_wf (progress_wf h)
  · exact finish_wf (modWarp_wf (acquireStatus_wf (progress_wf h)))

/-! ### Dispatch of grids (R391 to R394) -/

theorem startWarps_wf {acc : Tab Warp} (h : MemOk s) : MemOk (startWarps g n i s acc).2 := by
  induction n generalizing s i acc with
  | zero => exact h
  | succ n ih => exact ih (s := s.fresh.2) h

theorem startWg_wf (h : MemOk s) : MemOk (startWg s d t) := by
  unfold startWg
  split
  · exact h
  · split
    · exact wf_of_eq ‹_› (pickOf_wf h)
    · refine wf_ite h ?_
      have started := startWarps_wf (i := 0) (acc := []) (n := Wg.nwarp ‹_›) (g := ‹_›) (wf_of_eq ‹_› (pickOf_wf h))
      dsimp only
      split
      · exact modCore_wf (modWg_wf started)
      · exact modWg_wf started

theorem launchFails_wf {st : W64} (h : MemOk s) : MemOk (launchFails s d y st) := by
  have failed (u : State) (hu : MemOk u) : MemOk (match y.src with
      | .packet q tag rd => if q < 64 then packetEnds u d q 7 tag rd st else u
      | .device id => (match u.cmd? id with | some c => endCmd u c st | none => u)) := by
    split
    · exact wf_ite (packetEnds_wf hu) hu
    · split
      · exact endCmd_wf hu
      · exact hu
  refine failed _ ?_
  split <;> exact h

theorem loadTasks_wf (h : MemOk s) : MemOk (loadTasks s d y) := addJobs_wf h

theorem readLaunch_yields {grec : W64} (h : MemOk s) :
    Yields (fun v : State × List Byte × List Byte × List Byte × List Byte => MemOk v.1) (readLaunch s d grec) := by
  refine (vread_yields h).bind fun _ h => (vread_yields h).bind fun _ h => (vread_yields h).bind fun _ h => ?_
  dsimp only
  split
  · exact (vread_yields h).bind fun _ h => .ite .error (.ok h)
  · exact .ite .error (.ok h)

theorem placeWgs_wf {b r : List Byte} {k : List W64} (l : List (Nat × Nat)) (h : MemOk s) : MemOk (placeWgs d y b r k l s) := by
  induction l generalizing s with
  | nil => exact h
  | cons e l ih => exact ih (startWg_wf (modCore_wf (modGrid_wf (modDie_wf h))))

theorem wf_iteApply {p : Prop} [Decidable p] {x : State → State} (hx : MemOk s → MemOk (x s)) (h : MemOk s) : MemOk (if p then x s else s) :=
  wf_ite (hx h) h

theorem dispatchGrid_wf {r k b l : List Byte} {cores more : List Nat} (h : MemOk s) : MemOk (dispatchGrid s d y r k b l cores more) := by
  refine wf_iteApply (x := fun s => loadTasks s d _) loadTasks_wf (placeWgs_wf _ (foldl_wf (fun _ _ h => modCore_wf h) (modStk_wf ?_)))
  split
  · split <;> exact h
  · split <;> exact h

theorem execGridDispatch_ok (hs : MemOk s) : NextOk (execGridDispatch d i s) := by
  refine .next ?_
  split
  · exact hs
  · refine wf_ite (modDie_wf hs) (wf_ite hs ?_)
    split
    · exact noteHeld_wf hs
    · exact launchFails_wf hs
    · have read := readLaunch_yields hs _ ‹_›
      refine wf_ite (launchFails_wf read) ?_
      split
      · exact read
      · exact dispatchGrid_wf read

theorem homeAtomic_yields {va : Nat} {x : Nat → Nat} (h : MemOk s) : Yields MemOk (homeAtomic s d va x) := by
  refine (xlat_yields h).bind fun v h => ?_
  have gone : MemOk (letGo v.1 (.die d) va) := letGo_wf h
  dsimp only
  split
  · exact .error
  · exact .ite .error (.ite .error (.ite .error (.ok (signalSet_wf (wrN_wf (wf_ite gone gone))))))

theorem execGridComplete_ok (hs : MemOk s) : NextOk (execGridComplete d id s) := by
  have ran : MemOk (runJobs s d id) := runJobs_wf hs
  have signalled (sig : W64) (v : Nat → Nat) : Yields MemOk (if sig == 0 then .ok (runJobs s d id) else homeAtomic (runJobs s d id) d sig.toNat v) :=
    .ite (.ok ran) (homeAtomic_yields ran)
  refine .next ?_
  dsimp only
  split
  · exact ran
  · rename_i y hy
    refine wf_ite ran ?_
    split
    · exact noteHeld_wf ran
    · have kept := orSame_wf (s := { runJobs s d id with freeIx := (runJobs s d id).freeIx + 1 }) ran (signalled y.sig (fun v => v + y.sigv.toNat))
      split
      · exact wf_ite (packetEnds_wf (postEvent_wf (modDie_wf kept))) (postEvent_wf (modDie_wf kept))
      · split
        · exact endCmd_wf (postEvent_wf (modDie_wf kept))
        · exact postEvent_wf (modDie_wf kept)

/-! ### System words (R412 to R437) -/

theorem execTrap_ok {m : BitVec 16} (hs : MemOk s) : NextOk (execTrap h m s) := .next (uniOp_wf (fun _ _ h => takeTrap_wf h) hs)

theorem execBrk_ok {m : BitVec 16} (hs : MemOk s) : NextOk (execBrk h m s) :=
  .next (uniOp_wf (fun _ _ h => wf_ite (modDie_wf (finish_wf h)) (takeTrap_wf h)) hs)

theorem execTret_ok (hs : MemOk s) : NextOk (execTret h s) := .next (uniOp_wf (fun _ _ h => wf_ite (illegal_wf h) (trapReturn_wf (spend_wf h))) hs)

theorem execTretTo_ok (hs : MemOk s) : NextOk (execTretTo h o s) :=
  .next (uniOp_wf (fun _ _ h => wf_ite (illegal_wf h) (indirect_wf (fun _ h => trapReturn_wf (spend_wf h)) h)) hs)

theorem execTmskM_ok (hs : MemOk s) : NextOk (execTmskM h s) := .next (uniOp_wf (fun _ _ h => finish_wf (modFrag_wf h)) hs)
theorem execTmskU_ok (hs : MemOk s) : NextOk (execTmskU h s) := .next (uniOp_wf (fun _ _ h => finish_wf (modFrag_wf h)) hs)
theorem execPmskD_ok (hs : MemOk s) : NextOk (execPmskD h s) := .next (uniOp_wf (fun _ _ h => finish_wf (modFrag_wf h)) hs)
theorem execPmskA_ok (hs : MemOk s) : NextOk (execPmskA h s) := .next (uniOp_wf (fun _ _ h => finish_wf (modFrag_wf h)) hs)

theorem execEvnt_ok {m : BitVec 16} (hs : MemOk s) : NextOk (execEvnt h o m s) := .next (uniOp_wf (fun _ _ h => finish_wf (postEvent_wf h)) hs)

theorem execPreemptionRequest_ok (hs : MemOk s) : NextOk (execPreemptionRequest d core wg s) := by
  refine .next ?_
  split
  · exact hs
  · exact wf_ite hs (wf_ite (modDie_wf hs) (modWg_wf (modDie_wf hs)))

theorem execPreemptionHandlerEntry_ok (hs : MemOk s) : NextOk (execPreemptionHandlerEntry d core wg i s) := by
  refine .next ?_
  dsimp only
  split
  · refine wf_ite hs ?_
    split
    · exact modWg_wf (noteHeld_wf hs)
    · exact hs
    · rename_i saved hd
      have wrote : MemOk saved := by
        refine ((Yields.foldlM (P := MemOk) (fun _ _ h => spillOld_yields h) _ hs).bind fun _ h => (vwrite_yields h).bind fun _ h => ?_) _ hd
        split
        · exact vwrite_yields h
        · exact .ok h
      have left (u : State) (hu : MemOk u) (l : List Frag) (f : FragRef) :
          MemOk (l.foldl (fun (s : State) (p : Frag) => if p.occ then dropWatch s f p.uid else s) u) :=
        foldl_wf (fun _ _ h => wf_ite (dropWatch_wf h) h) hu
      exact wf_ite (modDie_wf (modCore_wf (modWgOf_wf (modWarp_wf (left saved.fresh.2 wrote _ _))))) (modWgOf_wf (modWarp_wf (left saved.fresh.2 wrote _ _)))
  · exact hs

theorem execPreemptionOverdue_ok (hs : MemOk s) : NextOk (execPreemptionOverdue d core wg s) := by
  refine .next ?_
  split
  · exact hs
  · exact wf_ite hs (postEvent_wf (modWg_wf hs))

theorem execTretCtx_ok (hs : MemOk s) : NextOk (execTretCtx h o s) := by
  refine .next (uniOp_wf (fun c s h => wf_ite (illegal_wf h) (wf_ite (hold_wf h) (wf_ite (hold_wf h) ?_))) hs)
  split
  · exact holdFor_wf h
  · exact faultNow_wf h
  · exact acquire_wf (modWgOf_wf (modWarp_wf (spend_wf (vread_yields h _ ‹_›))))

theorem execFormerSwapOut_ok (hs : MemOk s) : NextOk (execFormerSwapOut d core wg s) := by
  refine .next ?_
  split
  · exact hs
  · refine wf_ite hs ?_
    split
    · exact modWg_wf hs
    · exact hs

theorem execRotation_ok (hs : MemOk s) : NextOk (execRotation d core s) := by
  refine .next (wf_ite (rotateOut_wf hs) (wf_ite ?_ ?_))
  · exact hs
  split
  · exact wf_ite hs (startWg_wf hs)
  · exact hs

theorem execWorkgroupRestore_ok (hs : MemOk s) : NextOk (execWorkgroupRestore d core wg s) := by
  refine .next ?_
  split
  · exact hs
  · refine wf_ite hs ?_
    split
    · exact modWg_wf (noteHeld_wf hs)
    · exact hs
    · have read := vread_yields hs _ ‹_›
      refine foldl_wf (fun _ _ h => restoreWarp_wf h) (wf_ite (wf_ite (modDie_wf (modCore_wf ?_)) (modCore_wf ?_)) ?_)
      all_goals exact modWg_wf (wf_ite read (modCore_wf read))

theorem execPrecmdAll_ok (hs : MemOk s) : NextOk (execPrecmdAll d s) := .next (modDie_wf hs)
theorem execDebugHalt_ok (hs : MemOk s) : NextOk (execDebugHalt d s) := .next (modDie_wf hs)
theorem execDebugResume_ok (hs : MemOk s) : NextOk (execDebugResume d s) := .next (modDie_wf hs)

end

end Sys2Proof.Machine
end

section
/-! PROOFS. Every operation keeps memory in its canonical form (R33, R34): packets, records, the host's registers, ports and errors. -/

namespace Sys2Proof.Machine

section
variable {s : State} {d i j n id core q fn : Nat} {tag rd : W32} {cmd : Cmd} {x : Space} {bar : Bool}

/-! ### Packets (R384 to R392) -/

theorem takeLane_wf (h : MemOk s) : MemOk (takeLane d s q) := by
  refine wf_ite h ?_
  split
  · exact noteHeld_wf h
  · exact h
  · have read := vread_yields h _ ‹_›
    refine wf_ite read (wf_ite read ?_)
    split <;> exact read

theorem beatOf_wf (h : MemOk s) : MemOk (beatOf s d) := wf_ite (foldl_wf (fun _ _ h => takeLane_wf h) h) h

theorem withPacket_wf {w : Instr} {run : W32 → State → Except Held State} (hr : ∀ rd s, MemOk s → Yields MemOk (run rd s)) (h : MemOk s) :
    MemOk (withPacket s d q w run) := by
  have taken : MemOk (beatOf s d) := beatOf_wf h
  refine wf_ite ?_ taken
  split
  · rename_i t ht
    refine hr _ _ ?_ _ ht
    exact taken
  · exact noteHeld_wf (by exact taken)

theorem queueError_wf {code : Nat} {v : W64} (h : MemOk s) : MemOk (queueError s d q code tag rd v) := h
theorem modQueue_wf {g : HQueue → HQueue} (h : MemOk s) : MemOk (s.modQueue d q g) := h

theorem execSignal_ok {addr val : BitVec 64} {ex : Bool} {tag : BitVec 32} (hs : MemOk s) : NextOk (execSignal d q bar tag addr val ex s) := by
  refine .next (withPacket_wf (fun rd s h => ?_) hs)
  split
  · exact .ok (homeAtomic_yields h _ ‹_›)
  · exact .error
  · exact .ok h

theorem readSignal_wf {w : WaitSig} (h : MemOk s) : MemOk (readSignal s d q w) := by
  unfold readSignal
  dsimp only
  split
  · exact modQueue_wf (vrdN_yields h _ ‹_›)
  · exact modQueue_wf (noteHeld_wf h)
  · exact h

theorem execWaitSignal_ok {addr val : BitVec 64} {cond : BitVec 2} {tag : BitVec 32} (hs : MemOk s) : NextOk (execWaitSignal d q bar tag addr val cond s) :=
  .next (withPacket_wf (fun _ _ h => .ok (readSignal_wf h)) hs)

theorem execWaitSignalMet_ok (hs : MemOk s) : NextOk (execWaitSignalMet d q s) := by
  refine .next ?_
  split
  · exact wf_ite hs (readSignal_wf hs)
  · exact hs

theorem execLaunch_ok {grec : BitVec 64} {tag : BitVec 32} (hs : MemOk s) : NextOk (execLaunch d q bar tag grec s) :=
  .next (withPacket_wf (fun _ _ h => .ok h) hs)

theorem putShare_yields {span : Nat} {recs : List W64} {shares : List Byte} {n base : W64} (h : MemOk s) :
    Yields MemOk (putShare s span recs shares tag n base d) := by
  refine .ite .error ?_
  dsimp only
  split
  · exact .error
  · exact .ok (modQueue_wf (modDie_wf (by exact orSame_wf h (vwrite_yields h))))

theorem putShares_yields {span : Nat} {recs : List W64} {shares : List Byte} {n base : W64} (l : List Nat) (h : MemOk s) :
    Yields MemOk (putShares span recs shares tag n base l s) := by
  induction l generalizing s with
  | nil => exact .ok h
  | cons d l ih =>
    unfold putShares
    split
    · exact ih (putShare_yields h _ ‹_›)
    · exact .error

theorem groupBad_wf {code : Nat} (h : MemOk s) : MemOk (groupBad s code) := h

theorem execSpanLaunch_ok {recs : List (BitVec 64)} {shares : List Byte} {n base : BitVec 64} {tag : BitVec 32} (hs : MemOk s) :
    NextOk (execSpanLaunch bar tag recs shares n base s) := by
  refine .next (wf_ite hs (wf_ite (groupBad_wf hs) (wf_ite hs ?_)))
  split
  · exact groupBad_wf hs
  · refine wf_ite hs (wf_ite (groupBad_wf hs) ?_)
    dsimp only
    split
    · exact putShares_yields (s := { s with nextId := s.nextId + 1, grp := { s.grp with rd := s.grp.rd + 1 } }) _ hs _ ‹_›
    · exact AErr.note_wf hs

theorem execCopy_ok {dst src len cwa cwv : BitVec 64} {tag : BitVec 32} (hs : MemOk s) : NextOk (execCopy d q bar tag dst src len cwa cwv s) :=
  .next (withPacket_wf (fun _ _ h => .ok h) hs)

theorem execPageMove_ok {va dst cwa cwv : BitVec 64} {tag npg : BitVec 32} {psz flg : Byte} (hs : MemOk s) :
    NextOk (execPageMove d q bar tag va dst npg psz flg cwa cwv s) := by
  refine .next (withPacket_wf (fun rd s h => .ok ?_) hs)
  split <;> exact h

theorem Finds.getD {α : Type} {P : α → Prop} {x : Option α} {v : α} (hx : Finds P x) (hv : P v) : P (x.getD v) := by
  cases x with
  | none => exact hv
  | some u => exact hx u rfl

/-! ### Spaces (R388 to R390) -/

theorem setGroupAt_wf {home : Nat} {ds : List Nat} (h : MemOk s) : MemOk (setGroupAt s home n ds d) := wf_ite h h

theorem setGroup_wf (h : MemOk s) : MemOk (setGroup s x n) := foldl_wf (fun _ _ h => setGroupAt_wf h) h

theorem clearGroup_wf (h : MemOk s) : MemOk (clearGroup s x n) := foldl_wf (fun _ _ h => modDie_wf h) h

theorem createSpace_finds {b : List Byte} (h : MemOk s) : Finds MemOk (createSpace s d n b) :=
  .ite .none (.ite .none (.ite .none (.some (setGroup_wf (putImage_wf (syncSpace_wf (setSpace_wf (fresh_wf h))))))))

theorem readDesc_yields (h : MemOk s) : Yields (fun v : State × Option (List Byte) => MemOk v.1) (readDesc s d n) :=
  (vread_yields h).bind fun _ h => .ite (.ok h) ((vread_yields h).bind fun _ h => .ok h)

theorem execSpaceCreate_ok {desc : BitVec 64} {sp : Byte} {tag : BitVec 32} (hs : MemOk s) : NextOk (execSpaceCreate d q bar tag desc sp s) := by
  refine .next (withPacket_wf (fun rd s h => ?_) hs)
  split
  · exact .error
  · exact .ok h
  · exact .ok (queueError_wf (readDesc_yields h _ ‹_›))
  · have read := readDesc_yields h _ ‹_›
    exact .ok ((createSpace_finds read).getD (queueError_wf read))

theorem packetDone_wf (h : MemOk s) : MemOk (packetDone s d q rd) := h

theorem tryDestroy_wf {r : DestroyReq} (h : MemOk s) : MemOk (tryDestroy s d r) := by
  unfold tryDestroy
  dsimp only
  split
  · exact packetDone_wf (queueError_wf (modDie_wf h))
  · exact wf_ite (packetEnds_wf (modDie_wf (clearGroup_wf (by exact h)))) h

theorem execSpaceDestroy_ok {sp : Byte} {tag : BitVec 32} (hs : MemOk s) : NextOk (execSpaceDestroy d q bar tag sp s) := by
  refine .next ?_
  split
  · exact tryDestroy_wf hs
  · exact withPacket_wf (fun _ _ h => .ok (tryDestroy_wf (modDie_wf h))) hs

/-! ### Records (R391, R392, R453 to R456) -/

theorem writeRecord_wf {r : List Byte} (h : MemOk s) : MemOk (writeRecord s d r) := wrBytes_wf h

theorem writeOverflow_wf (h : MemOk s) : MemOk (writeOverflow s d) := wf_ite h (writeRecord_wf (modDie_wf h))

theorem postRecord_wf {r : List Byte} (h : MemOk s) : MemOk (postRecord s d r) := wf_ite h (wf_ite (writeRecord_wf h) (modDie_wf h))

theorem flushRecords_wf (l : List (List Byte)) (h : MemOk s) : MemOk (flushRecords d l s) := by
  induction l generalizing s with
  | nil => exact h
  | cons r l ih => exact ih (postRecord_wf (writeOverflow_wf h))

theorem execEventConfig_ok {base : BitVec 64} {lsz : Byte} {mask : BitVec 16} {tag : BitVec 32} (hs : MemOk s) :
    NextOk (execEventConfig d q bar tag base lsz mask s) :=
  .next (withPacket_wf (fun _ _ h => .ok (modDie_wf (flushRecords_wf _ h))) hs)

theorem execNopPacket_ok {tag : BitVec 32} (hs : MemOk s) : NextOk (execNopPacket d q bar tag s) := .next (withPacket_wf (fun _ _ h => .ok h) hs)

theorem execEventRecordPost_ok (hs : MemOk s) : NextOk (execEventRecordPost d s) := by
  refine .next ?_
  dsimp only
  split
  · exact hs
  · exact wf_ite hs (postRecord_wf (modDie_wf hs))

theorem execOverflowRecord_ok (hs : MemOk s) : NextOk (execOverflowRecord d s) := .next (wf_ite hs (writeOverflow_wf hs))

/-! ### Turns of commands (R74, R340, R387) -/

theorem copyTurn_wf (h : MemOk s) : MemOk (copyTurn s cmd) := by
  unfold copyTurn
  split
  · exact endCmd_wf h
  · have moved : MemOk (copySome s cmd).1 := copySome_wf h
    have noted (g : Cmd → Cmd) (rs : List (Nat × Nat)) (p : Prop) [Decidable p] :
        MemOk (if p then (copySome s cmd).1 else noteStacks ((copySome s cmd).1.modCmd cmd.id g) cmd rs) :=
      wf_ite moved (noteStacks_wf (modCmd_wf moved))
    dsimp only
    split
    · exact heldCmd_wf (noted _ _ _)
    · exact wf_ite (noted _ _ _) (endCmd_wf (noted _ _ _))

theorem writePayload_wf {glob : Bool} {k : Nat} (l : List (Nat × List Byte)) (h : MemOk s) : MemOk (writePayload cmd glob l k s).1 := by
  induction l generalizing s k cmd with
  | nil => exact h
  | cons e l ih =>
    unfold writePayload
    refine fst_ite_wf h ?_
    split
    · exact h
    · exact h
    · have wrote := sideWrite_yields h _ ‹_›
      exact fst_ite_wf wrote (ih wrote)

theorem takeNat_wf (h : MemOk s) : MemOk (s.takeNat n).2 := h

theorem drainTurn_wf {b : List Byte} (h : MemOk s) : MemOk (drainTurn s cmd b) := by
  have paid (k : Nat) (glob p : Bool) (u : State) (hu : MemOk u) (g : Cmd → Cmd) (rs : List (Nat × Nat)) :
      MemOk (if p = true then (writePayload cmd glob cmd.out k u).1 else noteStacks ((writePayload cmd glob cmd.out k u).1.modCmd cmd.id g) cmd rs) :=
    wf_ite (writePayload_wf _ hu) (noteStacks_wf (modCmd_wf (writePayload_wf _ hu)))
  unfold drainTurn
  dsimp only
  split
  · exact heldCmd_wf (paid _ _ _ _ (takeNat_wf h) _ _)
  · exact wf_ite (paid _ _ _ _ (takeNat_wf h) _ _) (endCmd_wf (paid _ _ _ _ (takeNat_wf h) _ _))

theorem execCommandComplete_ok (hs : MemOk s) : NextOk (execCommandComplete id s) := by
  refine .next ?_
  split
  · exact hs
  · rename_i c hc
    generalize c.st = st, c.kind = kind
    cases st with
    | done st => exact endCmd_wf hs
    | running =>
      cases kind with
      | cpy | bcopy | rcopy => exact copyTurn_wf hs
      | mdrn => exact wf_ite hs (drainTurn_wf hs)
      | mmv => exact mmvTurn_wf hs
      | _ => exact hs
    | _ => exact hs

/-! ### The host's registers and requests (R438 to R461) -/

theorem modHostQueue_wf {g : HQueue → HQueue} (h : MemOk s) : MemOk (modHostQueue s fn q g) := wf_ite h h

theorem execQueueDoorbell_ok {wr : BitVec 32} (hs : MemOk s) : NextOk (execQueueDoorbell fn q wr s) := by
  have rung (g : HQueue → HQueue) : MemOk (modHostQueue s fn q g) := modHostQueue_wf hs
  exact .next (wf_ite hs (wf_ite (wf_ite (by exact rung _) (queueError_wf (rung _))) (rung _)))

theorem writeQueue_wf {g : HQueue → HQueue} (h : MemOk s) : MemOk (writeQueue s fn q g) :=
  wf_ite h (wf_ite (modDie_wf (modHostQueue_wf h)) (modHostQueue_wf h))

theorem execQueueEnable_ok {w : BitVec 64} (hs : MemOk s) : NextOk (execQueueEnable fn q w s) := .next (writeQueue_wf hs)
theorem execQueueDisable_ok {w : BitVec 64} (hs : MemOk s) : NextOk (execQueueDisable fn q w s) := .next (writeQueue_wf hs)
theorem execQueueReconfigure_ok {v : BitVec 64} (hs : MemOk s) : NextOk (execQueueReconfigure fn q n v s) := .next (writeQueue_wf hs)
theorem execQueueErrorClear_ok {v : BitVec 64} (hs : MemOk s) : NextOk (execQueueErrorClear fn q v s) := .next (wf_ite hs (modHostQueue_wf hs))

theorem tlbStart_wf {v : W64} (h : MemOk s) : MemOk (tlbStart s d v) := wf_ite h (wf_ite (shootdown_wf h) h)

theorem execTlbInvalidate_ok {v : BitVec 64} (hs : MemOk s) : NextOk (execTlbInvalidate d v s) := .next (tlbStart_wf hs)
theorem execTlbInvalidateAll_ok {v : BitVec 64} (hs : MemOk s) : NextOk (execTlbInvalidateAll d v s) := .next (tlbStart_wf hs)
theorem execTlbInvalidateDone_ok (hs : MemOk s) : NextOk (execTlbInvalidateDone d s) := .next (wf_ite hs (modDie_wf (shootdown_wf hs)))
theorem execNearMemoryCounterWrite_ok {v : BitVec 64} (hs : MemOk s) : NextOk (execNearMemoryCounterWrite i j v s) := .next (modStk_wf hs)
theorem execVersionHandshake_ok {v : Byte} (hs : MemOk s) : NextOk (execVersionHandshake d v s) := .next (wf_ite hs (modDie_wf hs))
theorem execEventRingConsume_ok {v : BitVec 32} (hs : MemOk s) : NextOk (execEventRingConsume d v s) := .next (wf_ite hs (modDie_wf hs))

theorem fwWrite_wf {v : W64} (h : MemOk s) : MemOk (fwWrite s n v) := wf_ite h h

theorem execRegisterWrite_ok {r : RegWr} (hs : MemOk s) : NextOk (execRegisterWrite r s) :=
  .next (wf_ite hs (wf_ite hs (wf_ite (modDie_wf hs) (wf_ite hs (wf_ite (fwWrite_wf hs) (wf_ite (modStk_wf hs) hs))))))

theorem execInboundPostedWrite_ok {data : List Byte} {ro : Bool} (hs : MemOk s) : NextOk (execInboundPostedWrite i j data ro s) :=
  .next (wf_ite hs (wf_ite hs (wf_ite hs hs)))

theorem execOrderingPointForward_ok (hs : MemOk s) : NextOk (execOrderingPointForward id s) := by
  refine .next ?_
  split
  · exact hs
  · exact wf_ite hs hs

theorem execInboundRead_ok (hs : MemOk s) : NextOk (execInboundRead i j n s) := .next (wf_ite hs (wf_ite hs hs))

/-! ### Links, reports and errors (R458 to R465) -/

theorem mcastEnter_wf {inst : Bool} {p g sp : Nat} (h : MemOk s) : MemOk (mcastEnter s d p g sp inst) := h

theorem mcDeliver_wf {f : McFlit} (h : MemOk s) : MemOk (mcDeliver s d n f) := 
  foldl_wf (fun _ _ h => wf_ite (mcastEnter_wf h) h) (wf_ite (modDie_wf h) h)

theorem execMulticastFork_ok (hs : MemOk s) : NextOk (execMulticastFork d n s) := by
  refine .next (wf_ite hs ?_)
  split
  · exact mcDeliver_wf (modDie_wf hs)
  · exact hs

theorem modPort_wf {g : Port → Port} (h : MemOk s) : MemOk (s.modPort n g) := h
theorem portRecord_wf (h : MemOk s) : MemOk (portRecord s i j) := h

theorem execFeltlinkTraining_ok {maj low : Byte} (hs : MemOk s) : NextOk (execFeltlinkTraining n maj low s) :=
  .next (wf_ite hs (wf_ite (portRecord_wf (modPort_wf hs)) (portRecord_wf (modPort_wf hs))))

theorem execFeltlinkPortDown_ok (hs : MemOk s) : NextOk (execFeltlinkPortDown n s) := .next (wf_ite hs (portRecord_wf (modPort_wf hs)))

theorem execFeltlinkFlitReceive_ok {ver : Byte} {sq : BitVec 32} {crc : Bool} {data : List Byte} (hs : MemOk s) :
    NextOk (execFeltlinkFlitReceive n ver sq crc data s) :=
  .next (wf_ite hs (wf_ite hs (wf_ite (modPort_wf hs) (wf_ite hs (modPort_wf (wrN_wf (wrBytes_wf (by exact hs))))))))

theorem execFeltlinkSlotSend_ok (hs : MemOk s) : NextOk (execFeltlinkSlotSend n s) :=
  .next (wf_ite hs (wf_ite (modPort_wf hs) (wf_ite hs (wrN_wf (by exact hs)))))

theorem execAttestationRequest_ok {b : List Byte} (hs : MemOk s) : NextOk (execAttestationRequest b s) := .next hs

theorem poisonUnit_finds {u c addr : Nat} (h : MemOk s) : Finds MemOk (poisonUnit s u d c addr) := by
  unfold poisonUnit
  split
  · exact .ite (.some (setPois_wf h)) .none
  · exact .ite .none (.some (modCore_wf h))
  · exact .map fun _ => modCluster_wf h
  · exact .ite (.some (modCore_wf h)) .none
  · exact .ite .none (.some (modCore_wf h))
  · exact .map fun _ => modWarp_wf h
  · exact .map fun _ => modWarp_wf h
  · exact .none

theorem execEccError_ok {addr u : Nat} {fixed : Bool} (hs : MemOk s) : NextOk (execEccError addr fixed d core u s) := by
  refine .next (wf_ite (modDie_wf hs) ?_)
  split
  · exact modDie_wf (poisonUnit_finds hs _ ‹_›)
  · exact hs

theorem flipAcc_wf {c e : Nat} {v : W32} (h : MemOk s) : MemOk (flipAcc s d c e v) := wf_ite h (modCore_wf h)

theorem execKatDue_ok {lane : Nat} (hs : MemOk s) : NextOk (execKatDue d core lane s) := by
  exact .next (wf_ite hs (wf_ite hs (wf_ite hs (postEvent_wf (modCore_wf hs)))))

theorem execThermalSensorChange_ok (hs : MemOk s) : NextOk (execThermalSensorChange d core n s) := .next (modCore_wf hs)
theorem execDroopEvent_ok (hs : MemOk s) : NextOk (execDroopEvent d core s) := .next (modCore_wf hs)

theorem dieReset_wf (h : MemOk s) : MemOk (dieReset s d) := by
  have ended (l : List Cmd) : MemOk (l.foldl (fun (s : State) (c : Cmd) => gatherUnpin (rebalCopied (releaseBusy s c.id false) c.id 0x17) c) s) :=
    foldl_wf (fun _ _ h => gatherUnpin_wf (rebalCopied_wf (releaseBusy_wf h))) h
  exact ended _

theorem execThermalReset_ok (hs : MemOk s) : NextOk (execThermalReset d s) := .next (wf_ite (by exact dieReset_wf hs) hs)

theorem execPackageReset_ok (hs : MemOk s) : NextOk (execPackageReset s) := .next hs

theorem loadImage_wf {img : Image} (h : MemOk s) : MemOk (loadImage s d img) := wf_ite h (modDie_wf h)

end

end Sys2Proof.Machine
end

section
/-! PROOFS. Every step keeps memory in its canonical form (R33, R34): the dispatch of instructions and events, the turns, and O59. -/

namespace Sys2Proof.Machine

section
variable {s : State} {f : FragRef} {c : Ctx}

theorem exec_ok (i : Instr) (hs : MemOk s) : NextOk (exec i s) := by
  cases i with
  | iadd | isub | imul | imulh | imad | idiv | irem | imin | imax | iabs | and | or | xor | andn | shl | shr | sar | rot | bfx | bfi | popc | clz
  | ctz | brev | movi | bperm | idot4 | fadd | fsub | fmul | ffma | fmin | fmax | fdiv | fsqrt | frcp | frsq | fexp2 | flog2 | fsin | fcos | ftanh
  | frnd | h2add | h2mul | h2fma | h2min | h2max | fdot2 | fscl | fclass | icmp | fcmp | sel | cvt | pack | unpk | t3enc | t3dec | rds | rdsId => exact .next (alu_wf hs)
  | mov => exact execMov_ok hs
  | guardFalseNop => exact .next (Go.run_wf (begin_ok hs) fun _ _ h => finish_wf h)
  | mxscl | shfl | vote | redi | redf | scan | topk | topkm | matchEq => exact .next (coll_wf hs)
  | br => exact execBr_ok hs
  | bru => exact .next (uniOp_wf (fun _ _ h => jumpTo_wf h) hs)
  | jn => exact execJn_ok hs
  | call => exact .next (uniOp_wf (fun _ _ h => callTo_wf h) hs)
  | ret => exact execRet_ok hs
  | loop | rgn => exact .next (uniOp_wf (fun _ _ h => finish_wf (modFrag_wf h)) hs)
  | brl => exact execBrl_ok hs
  | exit => exact execExit_ok hs
  | jmp => exact .next (uniOp_wf (fun _ _ h => indirect_wf (fun _ h => jumpTo_wf h) h) hs)
  | calli => exact .next (uniOp_wf (fun _ _ h => indirect_wf (fun _ h => callTo_wf h) h) hs)
  | wrs => exact execWrs_ok hs
  | pairWord => exact execPairWord_ok hs
  | ld | ldk | lds | ldsk => exact .next (loadWord_wf hs)
  | st | stNt | stk | sts | stsk => exact .next (storeWord_wf hs)
  | ldskH => exact execLdskH_ok hs
  | atom | atoms | cas | cass => exact .next (atomWord_wf hs)
  | fence => exact .next (uniOp_wf (fun _ _ h => fenceDo_wf h) hs)
  | ntdrain => exact execNtdrain_ok hs
  | cmntWb | cmntInv | cmntWbi => exact .next (cmnt_wf hs)
  | prf => exact execPrf_ok hs
  | cpy | cpyk | refine | coarsen | shovGive | shovTake => exact .next (cmdWord_wf hs)
  | waita => exact execWaita_ok hs
  | htest => exact .next (rawOp_wf (fun _ _ h => finish_wf (uniResult_wf h)) hs)
  | hcan => exact execHcan_ok hs
  | qbind => exact execQbind_ok hs
  | send => exact execSend_ok hs
  | recv => exact execRecv_ok hs
  | qlen => exact .next (uniOp_wf (fun _ _ h => finish_wf (uniResult_wf h)) hs)
  | kmk | kpar | kchd | knbr | klv | kcrd => exact .next (keyWord_wf hs)
  | klook | klookW | kown | kpinR | kpinW | kunpinR | kunpinW => exact .next (dirWord_wf hs)
  | rebal => exact .next (uniOp_wf (fun _ _ h => wf_ite (hold_wf h) (issueCmd_wf h)) hs)
  | mma => exact execMma_ok hs
  | mdrn => exact execMdrn_ok hs
  | acpTs | acpFs | acpCkTs | acpCkFs => exact .next (acpIssue_wf hs)
  | mmv => exact execMmv_ok hs
  | mzero => exact execMzero_ok hs
  | sgenQ => exact execSgenQ_ok hs
  | sgenK => exact execSgenK_ok hs
  | sand | sandC | sor | sorC | sxor | sxorC | sxnor => exact .next (zLogic_wf hs)
  | smux => exact execSmux_ok hs
  | sregen | sinv | smovZ => exact .next (zRun_wf hs)
  | scnt | scntr => exact .next (countOp_wf hs)
  | slen => exact execSlen_ok hs
  | smovTs => exact execSmovTs_ok hs
  | smovFs => exact execSmovFs_ok hs
  | smovSt => exact execSmovSt_ok hs
  | slvb | slvx => exact .next (slvArrive_wf hs)
  | acq => exact execAcq_ok hs
  | rel => exact execRel_ok hs
  | bar => exact execBar_ok hs
  | fetchIdx => exact execFetchIdx_ok hs
  | fetchTask => exact execFetchTask_ok hs
  | deviceSideLaunch => exact execDeviceSideLaunch_ok hs
  | join => exact execJoin_ok hs
  | trel => exact execTrel_ok hs
  | tabn => exact execTabn_ok hs
  | trap => exact execTrap_ok hs
  | tret => exact execTret_ok hs
  | tretTo => exact execTretTo_ok hs
  | tretCtx => exact execTretCtx_ok hs
  | tmskM => exact execTmskM_ok hs
  | tmskU => exact execTmskU_ok hs
  | brk => exact execBrk_ok hs
  | pmskD => exact execPmskD_ok hs
  | pmskA => exact execPmskA_ok hs
  | evnt => exact execEvnt_ok hs
  | impreciseFaultReturn => exact execImpreciseFaultReturn_ok hs
  | watchdogTrap => exact execWatchdogTrap_ok hs
  | registerResultWrite => exact execRegisterResultWrite_ok hs
  | lineFillReturn => exact execLineFillReturn_ok hs
  | homeRequest => exact execHomeRequest_ok hs
  | writeAcknowledge => exact execWriteAcknowledge_ok hs
  | notOwnerResponse => exact execNotOwnerResponse_ok hs
  | movedResponse => exact execMovedResponse_ok hs
  | busyRetryResponse => exact execBusyRetryResponse_ok hs
  | clusterStoreEviction => exact execClusterStoreEviction_ok hs
  | pageWalk => exact execPageWalk_ok hs
  | walkResume => exact execWalkResume_ok hs
  | leaveGrant => exact execLeaveGrant_ok hs
  | handoverStart => exact execHandoverStart_ok hs
  | handoverWriteback => exact execHandoverWriteback_ok hs
  | handoverShootdown => exact execHandoverShootdown_ok hs
  | ownerFlip => exact execOwnerFlip_ok hs
  | handoverFinish => exact execHandoverFinish_ok hs
  | pageMoveStart => exact execPageMoveStart_ok hs
  | pageMoveRewrite => exact execPageMoveRewrite_ok hs
  | pageMoveFinish => exact execPageMoveFinish_ok hs
  | copyCommandStart => exact execCopyCommandStart_ok hs
  | gatherKeyStep => exact execGatherKeyStep_ok hs
  | commandComplete => exact execCommandComplete_ok hs
  | waitaWake => exact execWaitaWake_ok hs
  | queueDead => exact execQueueDead_ok hs
  | barrierComplete => exact execBarrierComplete_ok hs
  | formerStartWarp => exact execFormerStartWarp_ok hs
  | binRipe => exact execBinRipe_ok hs
  | formerSwapOut => exact execFormerSwapOut_ok hs
  | costAdd => exact execCostAdd_ok hs
  | directoryOperation => exact execDirectoryOperation_ok hs
  | rebalanceNotify => exact execRebalanceNotify_ok hs
  | rebalancePlan => exact .next (dirStep_wf (fun _ h => planStep_wf h) hs)
  | rebalanceStops => exact .next (dirStep_wf (fun _ h => stopsStep_wf h) hs)
  | patienceExpiry => exact execPatienceExpiry_ok hs
  | rebalanceAbort => exact .next (dirStep_wf (fun _ h => abortStep_wf h) hs)
  | rebalanceCommit => exact .next (dirStep_wf (fun _ h => commitStep_wf h) hs)
  | deckleInvalidate => exact execDeckleInvalidate_ok hs
  | deckleInstall => exact .next (dirStep_wf (fun _ h => installStep_wf h) hs)
  | matrixLeaseGrant => exact execMatrixLeaseGrant_ok hs
  | pulpLeaseGrant => exact execPulpLeaseGrant_ok hs
  | leasePass => exact execLeasePass_ok hs
  | allotmentGrant => exact execAllotmentGrant_ok hs
  | mmvStart => exact execMmvStart_ok hs
  | calenderStep => exact execCalenderStep_ok hs
  | rotation => exact execRotation_ok hs
  | preemptionRequest => exact execPreemptionRequest_ok hs
  | preemptionHandlerEntry => exact execPreemptionHandlerEntry_ok hs
  | preemptionOverdue => exact execPreemptionOverdue_ok hs
  | workgroupRestore => exact execWorkgroupRestore_ok hs
  | signal => exact execSignal_ok hs
  | waitSignal => exact execWaitSignal_ok hs
  | waitSignalMet => exact execWaitSignalMet_ok hs
  | launch => exact execLaunch_ok hs
  | spanLaunch => exact execSpanLaunch_ok hs
  | copy => exact execCopy_ok hs
  | pageMove => exact execPageMove_ok hs
  | spaceCreate => exact execSpaceCreate_ok hs
  | spaceDestroy => exact execSpaceDestroy_ok hs
  | eventConfig => exact execEventConfig_ok hs
  | nopPacket => exact execNopPacket_ok hs
  | gridDispatch => exact execGridDispatch_ok hs
  | gridComplete => exact execGridComplete_ok hs
  | queueDoorbell => exact execQueueDoorbell_ok hs
  | queueEnable => exact execQueueEnable_ok hs
  | queueDisable => exact execQueueDisable_ok hs
  | queueReconfigure => exact execQueueReconfigure_ok hs
  | queueErrorClear => exact execQueueErrorClear_ok hs
  | tlbInvalidate => exact execTlbInvalidate_ok hs
  | tlbInvalidateAll => exact execTlbInvalidateAll_ok hs
  | tlbInvalidateDone => exact execTlbInvalidateDone_ok hs
  | nearMemoryCounterWrite => exact execNearMemoryCounterWrite_ok hs
  | precmdAll => exact execPrecmdAll_ok hs
  | debugHalt => exact execDebugHalt_ok hs
  | debugResume => exact execDebugResume_ok hs
  | versionHandshake => exact execVersionHandshake_ok hs
  | eventRingConsume => exact execEventRingConsume_ok hs
  | eventRecordPost => exact execEventRecordPost_ok hs
  | overflowRecord => exact execOverflowRecord_ok hs
  | attestationRequest => exact execAttestationRequest_ok hs
  | registerWrite => exact execRegisterWrite_ok hs
  | inboundPostedWrite => exact execInboundPostedWrite_ok hs
  | orderingPointForward => exact execOrderingPointForward_ok hs
  | inboundRead => exact execInboundRead_ok hs
  | multicastFork => exact execMulticastFork_ok hs
  | feltlinkTraining port maj low => exact execFeltlinkTraining_ok (low := low) hs
  | feltlinkFlitReceive => exact execFeltlinkFlitReceive_ok hs
  | feltlinkSlotSend => exact execFeltlinkSlotSend_ok hs
  | eccError => exact execEccError_ok hs
  | katDue => exact execKatDue_ok hs
  | thermalSensorChange => exact execThermalSensorChange_ok hs
  | droopEvent => exact execDroopEvent_ok hs
  | thermalReset => exact execThermalReset_ok hs
  | packageReset => exact execPackageReset_ok hs
  | feltlinkPortDown => exact execFeltlinkPortDown_ok hs
  | matrixInstructionFinish => exact execMatrixInstructionFinish_ok hs
  | pulpInstructionComplete => exact execPulpInstructionComplete_ok hs

/-! ### Turns and steps (R59, R211, R403) -/

/-- The state that an issue turn leaves, or in which its instruction runs, has its memory in canonical form. -/
def Issue.Ok : Issue → Prop
  | .idle s => MemOk s
  | .run _ s => MemOk s

theorem issuing_wf {w : W64} (h : MemOk s) : MemOk (issuing s f w) := h

theorem issueWord_ok {w : W64} (h : MemOk s) : (issueWord s f w).Ok := by
  unfold issueWord
  split
  · exact issuing_wf h
  · exact illegal_wf (issuing_wf h)

theorem fetchHeld_wf {hd : Held} (h : MemOk s) : MemOk (fetchHeld s f hd) := holdFor_wf (modFrag_wf h)

theorem issueNext_ok (h : MemOk s) : (issueNext s f c).Ok := by
  unfold issueNext
  split
  · exact issueWord_ok h
  · have fetched : (fetchOf s f c.p).Ok := fetchWord_ok h
    split
    · exact fetchHeld_wf h
    · exact takeImprecise_wf h
    · rename_i w u hu
      rw [hu] at fetched
      exact issueWord_ok fetched

theorem Issue.Ok.ite {p : Prop} [Decidable p] {x y : Issue} (hx : x.Ok) (hy : y.Ok) : (if p then x else y).Ok := by
  split
  · exact hx
  · exact hy

theorem issueTurn_ok (h : MemOk s) : (issueTurn s f).Ok := by
  unfold issueTurn
  split
  · exact h
  · have rest (c : Ctx) (p q r : Prop) [Decidable p] [Decidable q] [Decidable r] : Issue.Ok (if p then .idle (takeWatchdog s f)
        else if q then .idle (s.modFrag f (fun p => { p with stopped := true })) else if r then .idle s else issueNext s f c) :=
      .ite (takeWatchdog_wf h) (.ite (modFrag_wf h) (.ite h (issueNext_ok h)))
    refine .ite h (.ite h (.ite ?_ (rest _ _ _ _)))
    split
    · exact .ite h (takeImprecise_wf h)
    · exact h

theorem runTurn_ok {t : Turn} (h : MemOk s) : NextOk (runTurn t s) := by
  cases t with
  | ev i => exact .ite (.next h) (exec_ok i h)
  | load d img => exact .next (loadImage_wf h)
  | flip d c e v => exact .next (flipAcc_wf h)
  | issue f =>
    have issued : (issueTurn s f).Ok := issueTurn_ok h
    show NextOk (match issueTurn s f with | .idle s => .next s | .run i s => exec i s)
    cases hf : issueTurn s f with
    | idle u => exact .next (by rwa [hf] at issued)
    | run i u => exact exec_ok i (by rwa [hf] at issued)

theorem step_ok (h : MemOk s) : NextOk (step s) := by
  unfold step
  dsimp only
  split
  · exact runTurn_ok (by exact h)
  · exact runTurn_ok (by exact h)

end

/-- Settles O59: no operation writes memory but through `wrB`, `movePhys` and what is built from them, and these keep the form. -/
theorem stepsKeepMemoryForm : Obligations.StepsKeepMemoryForm := fun _ _ wf stepped => step_ok wf _ stepped

end Sys2Proof.Machine
end

section
/-! PROOFS. Hand-overs of a stack (R35 to R38, R41, R402), and O54. -/

namespace Sys2Proof.Machine

/-! ### Commands -/

theorem cmd?_modCmd {s : State} {c : Cmd} {id : Nat} {g : Cmd → Cmd} (h : s.cmd? id = some c) (hg : ∀ x, (g x).id = x.id) :
    (s.modCmd id g).cmd? id = some (g c) := by
  have hid : ∀ x : Cmd, ((if (x.id == id) = true then g x else x).id == id) = (x.id == id) := fun x => by
    split
    · rw [hg]
    · rfl
  have hc : (c.id == id) = true := by simpa using List.find?_some h
  unfold State.cmd? at h ⊢
  simp only [State.modCmd, List.find?_map, Function.comp_def, hid, h, Option.map_some, hc, if_true]

/-! ### Leave (R402) -/

/-- Die `d` has granted the request at `ix`: the earlier ones have been passed once more. -/
def leaveGiven (s : State) (d ix : Nat) : State :=
  s.modDie d (fun x => { x with leaveQ := ((s.die d).leaveQ.take ix).map (fun e => (e.1, e.2 + 1)) ++ (s.die d).leaveQ.drop (ix + 1) })

theorem exec_leaveGrant {s : State} {d ix : Nat} {r : LeaveFor × Nat} (hr : (s.die d).leaveQ[ix]? = some r) (hm : mayLeave (s.die d).leaveQ ix = true) :
    exec (.leaveGrant d ix) s = .next (match r.1 with
      | .give id => (leaveGiven s d ix).modCmd id (fun c => { c with st := .running })
      | _ => leaveGiven s d ix) := by
  show execLeaveGrant d ix s = _
  unfold execLeaveGrant leaveGiven
  simp only [hr, hm, Bool.not_true, Bool.false_eq_true, if_false] <;> rfl

theorem die_lt_of_leaveQ {s : State} {d ix : Nat} {r : LeaveFor × Nat} (h : (s.die d).leaveQ[ix]? = some r) : d < s.dies.length := by
  by_contra hd
  have h0 : s.die d = default := by simp [State.die, hd]
  rw [h0, show (default : Die).leaveQ = [] from rfl] at h
  cases h

theorem leaveGrant_granted {s : State} {d ix : Nat} {r : LeaveFor × Nat} (hr : (s.die d).leaveQ[ix]? = some r) (hm : mayLeave (s.die d).leaveQ ix = true) :
    ∃ t, exec (.leaveGrant d ix) s = .next t ∧
      (t.die d).leaveQ = ((s.die d).leaveQ.take ix).map (fun e => (e.1, e.2 + 1)) ++ (s.die d).leaveQ.drop (ix + 1) ∧ t.mem = s.mem ∧
      ∀ id c, r.1 = .give id → s.cmd? id = some c → t.cmd? id = some { c with st := .running } := by
  have given : ((leaveGiven s d ix).die d).leaveQ = ((s.die d).leaveQ.take ix).map (fun e => (e.1, e.2 + 1)) ++ (s.die d).leaveQ.drop (ix + 1) := by
    unfold leaveGiven
    rw [die_modDie_same (die_lt_of_leaveQ hr)]
  refine ⟨_, exec_leaveGrant hr hm, ?_⟩
  split
  · rename_i id hid
    refine ⟨given, rfl, fun id' c hc hcmd => ?_⟩
    rw [hid, LeaveFor.give.injEq] at hc
    subst hc
    exact cmd?_modCmd (s := leaveGiven s d ix) hcmd (fun _ => rfl)
  · rename_i hn
    exact ⟨given, rfl, fun id' c hc => (hn id' hc).elim⟩

/-! ### Step 1: both dies are marked (R36) -/

/-- Between `s` and `t` nothing has changed but accesses, commands and the place in the stream of free values. -/
def Spared (s t : State) : Prop := t = { s with accs := t.accs, cmds := t.cmds, freeIx := t.freeIx }

theorem Spared.trans {s t u : State} (h : Spared s t) (k : Spared t u) : Spared s u := by
  unfold Spared at h k ⊢
  rw [k, h]

theorem Spared.ite {s t u : State} {p : Prop} [Decidable p] (ht : Spared s t) (hu : Spared s u) : Spared s (if p then t else u) := by
  split
  · exact ht
  · exact hu

theorem markAccs_spared (s : State) (d i : Nat) : Spared s (markAccs s d i) := by
  refine foldl_keeps (P := Spared s) (fun u a h => ?_) s.accs s rfl
  have chosen (must : Bool) : Spared s (if must = true then (true, u) else u.takeBool).2 := by
    split
    · exact h
    · exact h.trans rfl
  exact .ite (h.trans rfl) (.ite (.ite ((chosen _).trans rfl) (chosen _)) h)

theorem markCmds_spared (s : State) (d i : Nat) : Spared s (markCmds s d i) := by
  refine foldl_keeps (P := Spared s) (fun u c h => ?_) s.cmds s rfl
  exact .ite (.ite (h.trans rfl) (.ite (.ite (h.trans rfl) (h.trans rfl)) h)) h

/-- The accesses and commands of the giving die that the stall spares have been marked. -/
def givingMarked (s : State) (d i : Nat) : State := markCmds (markAccs s d i) d i

theorem givingMarked_spared (s : State) (d i : Nat) : Spared s (givingMarked s d i) := (markAccs_spared s d i).trans (markCmds_spared _ d i)

/-- A die learns that a hand-over of stack `i` is in progress. -/
def Die.markHov (i : Nat) (x : Die) : Die := { x with hov := x.hov ||| (1 <<< i) }

theorem bit_shiftLeft {i : Nat} (h : i < 8) : ((1 : BitVec 8) <<< i).getLsbD i = true := by
  have key : ∀ j : Fin 8, ((1 : BitVec 8) <<< j.val).getLsbD j.val = true := by decide
  exact key ⟨i, h⟩

theorem Die.markHov_bit {i : Nat} (h : i < 8) (x : Die) : (x.markHov i).hov.getLsbD i = true := by
  show (x.hov ||| (1 : BitVec 8) <<< i).getLsbD i = true
  rw [BitVec.getLsbD_or, bit_shiftLeft h, Bool.or_true]

theorem Die.markHov_keeps {i : Nat} {x : Die} (h : x.hov.getLsbD i = true) : (x.markHov i).hov.getLsbD i = true := by
  show (x.hov ||| (1 : BitVec 8) <<< i).getLsbD i = true
  rw [BitVec.getLsbD_or, h, Bool.true_or]

theorem exec_handoverStart {s : State} {i : Nat} {c : Cmd} (hc : s.cmds.find? (fun x => x.kind == .shovGive i && x.st == .running) = some c)
    (hn : (s.stk i).hov = none) (hm : moveOn s i c.id = false) :
    exec (.handoverStart i) s = .next ((((givingMarked s c.die i).modStk i (fun k => { k with hov := some ⟨c.id, c.die, otherDie i c.die, 1⟩ })).modDie c.die
      (Die.markHov i)).modDie (otherDie i c.die) (Die.markHov i)) := by
  show execHandoverStart i s = _
  unfold execHandoverStart
  simp only [hc, hn, hm, Option.isSome_none, Bool.or_self, Bool.false_eq_true, if_false]
  rfl

theorem handoverStart_marks {s : State} {i : Nat} {c : Cmd} (h8 : i < 8) (hi : i < s.stks.length)
    (hc : s.cmds.find? (fun x => x.kind == .shovGive i && x.st == .running) = some c) (hg : c.die < s.dies.length) (ht : otherDie i c.die < s.dies.length)
    (hn : (s.stk i).hov = none) (hm : moveOn s i c.id = false) :
    ∃ t, exec (.handoverStart i) s = .next t ∧ (t.stk i).hov = some ⟨c.id, c.die, otherDie i c.die, 1⟩ ∧
      (t.die c.die).hov.getLsbD i = true ∧ (t.die (otherDie i c.die)).hov.getLsbD i = true ∧ t.mem = s.mem := by
  have spared : Spared s (givingMarked s c.die i) := givingMarked_spared s c.die i
  have hstk : (givingMarked s c.die i).stks = s.stks := by rw [spared]
  have hdies : (givingMarked s c.die i).dies = s.dies := by rw [spared]
  refine ⟨_, exec_handoverStart hc hn hm, ?_, ?_, ?_, ?_⟩
  · rw [stk_modDie, stk_modDie, stk_modStk, if_pos ⟨rfl, by rw [hstk]; exact hi⟩]
  · rw [die_modDie]
    have marked {u : State} (hu : u.dies = s.dies) : ((u.modDie c.die (Die.markHov i)).die c.die).hov.getLsbD i = true := by
      rw [die_modDie_same (by rw [hu]; exact hg)]
      exact Die.markHov_bit h8 _
    split
    · exact Die.markHov_keeps (marked hdies)
    · exact marked hdies
  · rw [die_modDie_same (by rw [State.modDie_dies, length_listMod]; exact hdies ▸ ht)]
    exact Die.markHov_bit h8 _
  · show (givingMarked s c.die i).mem = s.mem
    rw [spared]

/-! ### Step 3: the stack's lines are written back and dropped (R36, R73) -/

/-- A dirty line of stack `i` is written back. -/
def lineBack (i : Nat) (s : State) (e : Nat × Line) : State :=
  if stackOf (128 * e.1) == some i && e.2.dirty then writeBack s e.1 e.2 else s

theorem lineBack_written (i : Nat) (s : State) (e : Nat × Line) : Written s (lineBack i s e) := by
  unfold lineBack
  split
  · exact writeBack_written _ _ _
  · exact .refl s

theorem rdB_lineBack (i : Nat) (s : State) (x : Nat) {e : Nat × Line} (hl : e.2.data.length = 128) :
    rdB (lineBack i s e) x =
      if (stackOf (128 * e.1) = some i ∧ e.2.dirty = true) ∧ x / 128 = e.1 then (e.2.data[x % 128]?).getD 0 else rdB s x := by
  unfold lineBack
  by_cases hm : stackOf (128 * e.1) = some i ∧ e.2.dirty = true
  · rw [if_pos (by simpa using hm), rdB_writeBack, hl]
    by_cases hx : x / 128 = e.1
    · rw [if_pos (by omega), if_pos ⟨hm, hx⟩, show x - 128 * e.1 = x % 128 by omega]
    · rw [if_neg (by omega), if_neg (fun h => hx h.2)]
  · rw [if_neg (by simpa using hm), if_neg (fun h => hm h.1)]

/-- A line lies in one stack. -/
theorem stackOf_line (x : Nat) : stackOf (128 * (x / 128)) = stackOf x := by
  unfold stackOf
  rw [show 128 * (x / 128) / 2 ^ 36 = x / 2 ^ 36 by omega]
  have inside : (128 * (x / 128) < 8 * 2 ^ 36 ∧ 128 * (x / 128) % 2 ^ 36 < 48 * 2 ^ 30) ↔ (x < 8 * 2 ^ 36 ∧ x % 2 ^ 36 < 48 * 2 ^ 30) := by omega
  refine if_congr ?_ rfl rfl
  simp only [Bool.and_eq_true, decide_eq_true_eq]
  exact inside

theorem writeBackCluster_eq (s : State) (d i cl : Nat) :
    writeBackCluster s d i cl = dropLines ((s.cluster d cl).lines.foldl (lineBack i) s) d cl (fun e => stackOf (128 * e.1) == some i) := rfl

theorem linesBack_written (i : Nat) (s : State) (ls : List (Nat × Line)) : Written s (ls.foldl (lineBack i) s) := .foldl (lineBack_written i) ls s

theorem Written.stks {s t : State} (h : Written s t) : t.stks = s.stks := by rw [h]

theorem rdB_linesBack_outside {i x : Nat} (hx : stackOf x ≠ some i) {ls : List (Nat × Line)} (hl : ∀ e ∈ ls, e.2.data.length = 128) (s : State) :
    rdB (ls.foldl (lineBack i) s) x = rdB s x := by
  induction ls generalizing s with
  | nil => rfl
  | cons e ls ih =>
    rw [List.foldl_cons, ih (fun e he => hl e (List.mem_cons_of_mem _ he)), rdB_lineBack i s x (hl e List.mem_cons_self), if_neg]
    rintro ⟨⟨he, -⟩, hxe⟩
    rw [← hxe, stackOf_line] at he
    exact hx he

/-- A byte of a dirty line of the stack, once it holds what the line has or the line is among those written back, where no other dirty line stands at its place. -/
theorem rdB_linesBack_line {i li j : Nat} {l : Line} {b : Byte} (hj : j < 128) (hb : l.data[j]? = some b) (hd : l.dirty = true)
    (hi : stackOf (128 * li) = some i) {ls : List (Nat × Line)} (hl : ∀ e ∈ ls, e.2.data.length = 128)
    (hu : ∀ e ∈ ls, e.1 = li → e.2.dirty = true → e.2 = l) {s : State} (h : rdB s (128 * li + j) = b ∨ (li, l) ∈ ls) :
    rdB (ls.foldl (lineBack i) s) (128 * li + j) = b := by
  induction ls generalizing s with
  | nil => exact h.resolve_right List.not_mem_nil
  | cons e ls ih =>
    refine ih (fun e he => hl e (List.mem_cons_of_mem _ he)) (fun e he => hu e (List.mem_cons_of_mem _ he)) ?_
    rw [rdB_lineBack i s _ (hl e List.mem_cons_self), show (128 * li + j) / 128 = li by omega, show (128 * li + j) % 128 = j by omega]
    by_cases he : (stackOf (128 * e.1) = some i ∧ e.2.dirty = true) ∧ li = e.1
    · rw [if_pos he, hu e List.mem_cons_self he.2.symm he.1.2, hb]
      exact Or.inl rfl
    · rw [if_neg he]
      refine h.imp id fun hm => ((List.mem_cons.mp hm).resolve_left fun heq => he ?_)
      subst heq
      exact ⟨⟨hi, hd⟩, rfl⟩

theorem rdB_writeBackCluster (s : State) (d i cl x : Nat) : rdB (writeBackCluster s d i cl) x = rdB ((s.cluster d cl).lines.foldl (lineBack i) s) x := rfl

theorem writeBackCluster_stks (s : State) (d i cl : Nat) : (writeBackCluster s d i cl).stks = s.stks := (linesBack_written i s _).stks

theorem cluster_modCluster_of_ne {s : State} {d c e : Nat} {g : Cluster → Cluster} (h : c ≠ e) : (s.modCluster d c g).cluster d e = s.cluster d e := by
  unfold State.cluster State.modCluster
  rw [die_modDie]
  split
  · simp [Tab.getD, Tab.get?_set, h]
  · rfl

theorem cluster_of_no_die {s : State} {d c : Nat} (h : ¬ d < s.dies.length) : (s.cluster d c).lines = [] := by
  unfold State.cluster
  rw [show s.die d = default by simp [State.die, h]]
  rfl

theorem lines_dropLines (s : State) (d c e : Nat) (p : Nat × Line → Bool) :
    ((dropLines s d c p).cluster d e).lines = if e = c then (s.cluster d c).lines.filter (fun l => !p l) else (s.cluster d e).lines := by
  unfold dropLines
  by_cases he : e = c
  · subst he
    rw [if_pos rfl]
    by_cases hd : d < s.dies.length
    · rw [cluster_modCluster_same (by rwa [refetch_dies])]
      rfl
    · rw [cluster_of_no_die (s := s) hd, cluster_of_no_die]
      · rfl
      · rwa [show ∀ u : State, ∀ g, (u.modCluster d e g).dies.length = u.dies.length from fun _ _ => length_listMod _ _ _, refetch_dies]
  · rw [if_neg he, cluster_modCluster_of_ne (Ne.symm he)]
    rfl

theorem lines_writeBackCluster (s : State) (d i cl e : Nat) : ((writeBackCluster s d i cl).cluster d e).lines =
    if e = cl then (s.cluster d cl).lines.filter (fun l => !(stackOf (128 * l.1) == some i)) else (s.cluster d e).lines := by
  rw [writeBackCluster_eq, lines_dropLines]
  simp only [State.cluster, State.die, (linesBack_written i s _).dies]

/-- The first `n` clusters of die `d` have written back and dropped their lines of stack `i`. -/
def stackBack (s : State) (d i n : Nat) : State := (List.range n).foldl (fun s cl => writeBackCluster s d i cl) s

theorem stackBack_succ (s : State) (d i n : Nat) : stackBack s d i (n + 1) = writeBackCluster (stackBack s d i n) d i n := by
  simp [stackBack, List.range_succ]

theorem stackBack_stks (s : State) (d i n : Nat) : (stackBack s d i n).stks = s.stks :=
  foldl_keeps (P := fun t : State => t.stks = s.stks) (fun _ _ h => (writeBackCluster_stks _ _ _ _).trans h) _ s rfl

theorem lines_stackBack (s : State) (d i n e : Nat) : ((stackBack s d i n).cluster d e).lines =
    if e < n then (s.cluster d e).lines.filter (fun l => !(stackOf (128 * l.1) == some i)) else (s.cluster d e).lines := by
  induction n with
  | zero => rfl
  | succ n ih =>
    rw [stackBack_succ, lines_writeBackCluster]
    by_cases he : e = n
    · subst he
      rw [ih, if_pos rfl, if_neg (Nat.lt_irrefl e), if_pos (Nat.lt_succ_self e)]
    · rw [if_neg he, ih]
      exact if_congr (by omega) rfl rfl

theorem rdB_stackBack_outside {s : State} {d i n x : Nat} (hx : stackOf x ≠ some i)
    (hl : ∀ cl, cl < n → ∀ e ∈ (s.cluster d cl).lines, e.2.data.length = 128) : rdB (stackBack s d i n) x = rdB s x := by
  induction n with
  | zero => rfl
  | succ n ih =>
    have hn : ((stackBack s d i n).cluster d n).lines = (s.cluster d n).lines := by rw [lines_stackBack, if_neg (Nat.lt_irrefl n)]
    rw [stackBack_succ, rdB_writeBackCluster, hn, rdB_linesBack_outside hx (hl n (Nat.lt_succ_self n))]
    exact ih fun cl h => hl cl (by omega)

theorem rdB_stackBack_line {s : State} {d i n li j : Nat} {l : Line} {b : Byte} (hj : j < 128) (hb : l.data[j]? = some b) (hd : l.dirty = true)
    (hi : stackOf (128 * li) = some i) (hl : ∀ cl, cl < n → ∀ e ∈ (s.cluster d cl).lines, e.2.data.length = 128)
    (hu : ∀ cl, cl < n → ∀ e ∈ (s.cluster d cl).lines, e.1 = li → e.2.dirty = true → e.2 = l) {cl : Nat} (hcl : cl < n)
    (hm : (li, l) ∈ (s.cluster d cl).lines) : rdB (stackBack s d i n) (128 * li + j) = b := by
  induction n with
  | zero => omega
  | succ n ih =>
    have hn : ((stackBack s d i n).cluster d n).lines = (s.cluster d n).lines := by rw [lines_stackBack, if_neg (Nat.lt_irrefl n)]
    rw [stackBack_succ, rdB_writeBackCluster, hn]
    refine rdB_linesBack_line hj hb hd hi (hl n (Nat.lt_succ_self n)) (hu n (Nat.lt_succ_self n)) ?_
    by_cases he : cl = n
    · exact Or.inr (he ▸ hm)
    · exact Or.inl (ih (fun cl h => hl cl (by omega)) (fun cl h => hu cl (by omega)) (by omega))

/-- The cores of a die drop their own copies of the lines of stack `i`. -/
def Die.dropL1 (i : Nat) (x : Die) : Die :=
  { x with cores := x.cores.map (fun e => (e.1, { e.2 with l1 := e.2.l1.filter (fun l => stackOf (128 * l.1) != some i) })) }

theorem exec_handoverWriteback {s : State} {i : Nat} {h : Hov} (hs : HovAt s i h 1) :
    exec (.handoverWriteback i) s = .next (if drained s h.give i then hovStep ((stackBack s h.give i 12).modDie h.give (Die.dropL1 i)) i 3 else s) := by
  obtain ⟨-, -, hh, h1⟩ := hs
  show execHandoverWriteback i s = _
  unfold execHandoverWriteback
  simp only [hh, h1]
  cases drained s h.give i <;> rfl

theorem hov_hovStep {s : State} {i n : Nat} {h : Hov} (hi : i < s.stks.length) (hh : (s.stk i).hov = some h) :
    ((hovStep s i n).stk i).hov = some { h with step := n } := by
  unfold hovStep
  rw [stk_modStk, if_pos ⟨rfl, hi⟩]
  simp only [hh, Option.map_some]

theorem l1_of_no_die {s : State} {d k : Nat} (h : ¬ d < s.dies.length) : (s.core d k).l1 = [] := by
  unfold State.core
  rw [show s.die d = default by simp [State.die, h]]
  rfl

theorem l1_dropL1 (s : State) (d i k : Nat) : ∀ e ∈ ((s.modDie d (Die.dropL1 i)).core d k).l1, stackOf (128 * e.1) ≠ some i := by
  by_cases hd : d < s.dies.length
  · unfold State.core
    rw [die_modDie_same hd]
    intro e he
    have hc := Tab.getD_map (s.die d).cores (fun c : Core => { c with l1 := c.l1.filter (fun l => stackOf (128 * l.1) != some i) }) k {} rfl
    unfold Die.dropL1 at he
    rw [hc] at he
    simpa using (List.mem_filter.mp he).2
  · rw [l1_of_no_die (by rwa [State.modDie_dies, length_listMod])]
    exact fun e he => absurd he List.not_mem_nil

theorem handoverWriteback_written {s : State} {i : Nat} {h : Hov} (hs : HovAt s i h 1) (hd : drained s h.give i = true) :
    ∃ t, exec (.handoverWriteback i) s = .next t ∧ (t.stk i).hov = some { h with step := 3 } ∧
      (∀ cl, cl < 12 → ∀ e ∈ (t.cluster h.give cl).lines, stackOf (128 * e.1) ≠ some i) ∧
      (∀ k, ∀ e ∈ (t.core h.give k).l1, stackOf (128 * e.1) ≠ some i) ∧
      ((∀ cl, cl < 12 → ∀ e ∈ (s.cluster h.give cl).lines, e.2.data.length = 128) →
        (∀ a, stackOf a ≠ some i → rdB t a = rdB s a) ∧
        ∀ cl li l, cl < 12 → (li, l) ∈ (s.cluster h.give cl).lines → l.dirty = true → stackOf (128 * li) = some i → h.give < s.dies.length →
          (∀ cl', cl' < 12 → ∀ e ∈ (s.cluster h.give cl').lines, e.1 = li → e.2.dirty = true → e.2 = l) →
          ∀ j, j < 128 → some (rdB t (128 * li + j)) = l.data[j]?) := by
  have hx := exec_handoverWriteback hs
  obtain ⟨hi, -, hh, -⟩ := hs
  rw [hd, if_pos rfl] at hx
  have hstk := stackBack_stks s h.give i 12
  have hlines := lines_stackBack s h.give i 12
  have houtside (a : Nat) (ha : stackOf a ≠ some i) := rdB_stackBack_outside (s := s) (d := h.give) (n := 12) ha
  have hline (li j : Nat) (l : Line) (b : Byte) := rdB_stackBack_line (s := s) (d := h.give) (i := i) (n := 12) (li := li) (j := j) (l := l) (b := b)
  generalize stackBack s h.give i 12 = u at hx hstk hlines houtside hline
  have hclusters (cl : Nat) : (hovStep (u.modDie h.give (Die.dropL1 i)) i 3).cluster h.give cl = u.cluster h.give cl := by
    unfold State.cluster
    exact congrArg (fun t => Tab.getD t cl {}) (die_modDie_keeps (s := u) (g := Die.dropL1 i) (p := Die.clusters) (fun _ => rfl))
  refine ⟨_, hx, hov_hovStep (by exact hstk ▸ hi) (by simpa only [State.stk, State.modDie_stks, hstk] using hh), fun cl hcl e he => ?_,
    fun k => l1_dropL1 u h.give i k, fun hl => ⟨fun a ha => houtside a ha hl, ?_⟩⟩
  · rw [hclusters, hlines, if_pos hcl] at he
    simpa using (List.mem_filter.mp he).2
  · intro cl li l hcl hm hdirty hst _ hu j hj
    obtain ⟨b, hb⟩ : ∃ b, l.data[j]? = some b := ⟨_, List.getElem?_eq_getElem (by rw [hl cl hcl _ hm]; exact hj)⟩
    rw [hb]
    exact congrArg some (hline li j l b hj hb hdirty hst hl hu hcl hm)

/-! ### Step 4: the tagged translations are dropped (R21, R36) -/

theorem exec_handoverShootdown {s : State} {i : Nat} {h : Hov} (hs : HovAt s i h 3) :
    exec (.handoverShootdown i) s = .next (hovStep (shootdown s h.give (fun e => e.tagged i)) i 4) := by
  obtain ⟨-, -, hh, h3⟩ := hs
  show execHandoverShootdown i s = _
  unfold execHandoverShootdown
  simp only [hh, h3]
  rfl

theorem tlb_of_no_die {s : State} {d k : Nat} (h : ¬ d < s.dies.length) : (s.core d k).tlb = [] := by
  unfold State.core
  rw [show s.die d = default by simp [State.die, h]]
  rfl

theorem tlb_shootdown (s : State) (d k : Nat) (p : TlbEnt → Bool) : ((shootdown s d p).core d k).tlb = (s.core d k).tlb.filter (fun e => !p e) := by
  by_cases hd : d < s.dies.length
  · rw [core_shootdown p hd]
  · rw [tlb_of_no_die hd, tlb_of_no_die (by rwa [shootdown, State.modDie_dies, length_listMod])]
    rfl

theorem handoverShootdown_drops {s : State} {i : Nat} {h : Hov} (hs : HovAt s i h 3) :
    ∃ t, exec (.handoverShootdown i) s = .next t ∧ (t.stk i).hov = some { h with step := 4 } ∧ t.mem = s.mem ∧
      ∀ k, (t.core h.give k).tlb = (s.core h.give k).tlb.filter (fun e => !e.tagged i) := by
  refine ⟨_, exec_handoverShootdown hs, ?_, rfl, fun k => tlb_shootdown s h.give k _⟩
  obtain ⟨hi, -, hh, -⟩ := hs
  exact hov_hovStep hi hh

/-! ### What the end of a command leaves unchanged -/

section
variable {P : State → Prop}

/-- A property that a change of a core, of a key space and of the requests and commands keeps is kept by the end of a command. -/
theorem completeCmd_keeps (hcore : ∀ u d k g, P u → P (u.modCore d k g)) (hspace : ∀ u sp x, P u → P (u.setSpace sp x))
    (hrest : ∀ u hid cmds, P u → P { u with hid := hid, cmds := cmds }) {s : State} (h : P s) (c : Cmd) (st : W64) : P (completeCmd s c st) := by
  have ended (u : State) (hu : P u) : P (endRebal u c) := by
    unfold endRebal
    split
    · split
      · split
        · exact hspace _ _ _ hu
        · exact hu
      · exact hu
    · exact hu
  have unlocked : P (if c.core < 96 then s.modCore c.die c.core (fun x => { x with locks := x.locks.filter (fun l => l.cmd != c.id) }) else s) := by
    split
    · exact hcore _ _ _ _ h
    · exact h
  unfold completeCmd
  refine hrest _ _ _ (ended _ ?_)
  cases c.cw with
  | none =>
    cases c.ent with
    | none => exact unlocked
    | some e => exact hcore _ _ _ _ unlocked
  | some w =>
    cases c.ent with
    | none => exact hcore _ _ _ _ unlocked
    | some e => exact hcore _ _ _ _ (hcore _ _ _ _ unlocked)

theorem finishCmd_keeps (hcore : ∀ u d k g, P u → P (u.modCore d k g)) (hspace : ∀ u sp x, P u → P (u.setSpace sp x))
    (hrest : ∀ u hid cmds, P u → P { u with hid := hid, cmds := cmds }) {s : State} (h : P s) (c : Cmd) (st : W64) : P (finishCmd s c st) := by
  unfold finishCmd
  split
  · exact hrest s s.hid _ h
  · exact completeCmd_keeps hcore hspace hrest h c st

end

theorem finishCmd_mem (s : State) (c : Cmd) (st : W64) : (finishCmd s c st).mem = s.mem :=
  finishCmd_keeps (P := fun u => u.mem = s.mem) (fun _ _ _ _ h => h) (fun _ _ _ h => h) (fun _ _ _ h => h) rfl c st

/-- The stacks, the owner map of VX, and what the dies' registers say of owners and hand-overs are the same in `s` and `t`. -/
structure SameHolders (s t : State) : Prop where
  stks : t.stks = s.stks
  vxmap : t.vxmap = s.vxmap
  own : ∀ d, (t.die d).own = (s.die d).own
  hov : ∀ d, (t.die d).hov = (s.die d).hov
  omap : ∀ d, (t.die d).omap = (s.die d).omap

theorem SameHolders.refl (s : State) : SameHolders s s := ⟨rfl, rfl, fun _ => rfl, fun _ => rfl, fun _ => rfl⟩

theorem SameHolders.trans {s t u : State} (h : SameHolders s t) (k : SameHolders t u) : SameHolders s u :=
  ⟨k.stks.trans h.stks, k.vxmap.trans h.vxmap, fun d => (k.own d).trans (h.own d), fun d => (k.hov d).trans (h.hov d), fun d => (k.omap d).trans (h.omap d)⟩

theorem SameHolders.of_dies {s t : State} (hs : t.stks = s.stks) (hv : t.vxmap = s.vxmap) (hd : t.dies = s.dies) : SameHolders s t :=
  ⟨hs, hv, fun _ => by rw [State.die, hd]; rfl, fun _ => by rw [State.die, hd]; rfl, fun _ => by rw [State.die, hd]; rfl⟩

theorem Written.vxmap {s t : State} (h : Written s t) : t.vxmap = s.vxmap := by rw [h]

theorem Written.sameHolders {s t : State} (h : Written s t) : SameHolders s t := .of_dies h.stks h.vxmap h.dies

theorem SameHolders.modDie (s : State) (d : Nat) {g : Die → Die} (ho : ∀ x, (g x).own = x.own) (hh : ∀ x, (g x).hov = x.hov)
    (hm : ∀ x, (g x).omap = x.omap) : SameHolders s (s.modDie d g) :=
  ⟨rfl, rfl, fun _ => die_modDie_keeps ho, fun _ => die_modDie_keeps hh, fun _ => die_modDie_keeps hm⟩

theorem SameHolders.modCore (s : State) (d k : Nat) (g : Core → Core) : SameHolders s (s.modCore d k g) :=
  .modDie s d (fun _ => rfl) (fun _ => rfl) (fun _ => rfl)

theorem SameHolders.modQueue (s : State) (d q : Nat) (g : HQueue → HQueue) : SameHolders s (s.modQueue d q g) :=
  .modDie s d (fun _ => rfl) (fun _ => rfl) (fun _ => rfl)

theorem SameHolders.rest (s : State) {hid : List HeldReq} {cmds : List Cmd} : SameHolders s { s with hid := hid, cmds := cmds } := .of_dies rfl rfl rfl

theorem completeCmd_sameHolders (s : State) (c : Cmd) (st : W64) : SameHolders s (completeCmd s c st) :=
  completeCmd_keeps (P := SameHolders s) (fun _ _ _ _ h => h.trans (.modCore _ _ _ _)) (fun _ _ _ h => h.trans (.of_dies rfl rfl rfl))
    (fun _ _ _ h => h.trans (.rest _)) (.refl s) c st

theorem finishCmd_sameHolders (s : State) (c : Cmd) (st : W64) : SameHolders s (finishCmd s c st) :=
  finishCmd_keeps (P := SameHolders s) (fun _ _ _ _ h => h.trans (.modCore _ _ _ _)) (fun _ _ _ h => h.trans (.of_dies rfl rfl rfl))
    (fun _ _ _ h => h.trans (.rest _)) (.refl s) c st

theorem noteHeld_sameHolders (s : State) (hd : Held) : SameHolders s (noteHeld s hd) := by
  unfold noteHeld
  split
  · dsimp only
    split
    · exact .of_dies rfl rfl rfl
    · split <;> exact .of_dies rfl rfl rfl
  · exact .refl s

theorem packetEnds_sameHolders (s : State) (d q code : Nat) (tag rd : W32) (st : W64) : SameHolders s (packetEnds s d q code tag rd st) := by
  have queued : SameHolders s (if st == 0 then s else queueError s d q code tag rd st) := by
    split
    · exact .refl s
    · exact (SameHolders.modQueue s d q _).trans (.modDie _ d (fun _ => rfl) (fun _ => rfl) (fun _ => rfl))
  exact queued.trans (SameHolders.modQueue _ d q (fun x => { x with outst := x.outst.erase rd.toNat }))

theorem globalWord_written {s t : State} {c : Cmd} {st : W64} (h : globalWord s c st = .ok t) : Written s t := by
  unfold globalWord at h
  split at h
  · exact vwriteFuel_written rfl h
  · cases h
    exact .refl s

theorem orSame_globalWord_written (s : State) (c : Cmd) (st : W64) : Written s (orSame s (globalWord s c st)) := by
  cases h : globalWord s c st with
  | ok t => exact globalWord_written h
  | error e => exact .refl s

theorem endCmd_sameHolders (s : State) (c : Cmd) (st : W64) : SameHolders s (endCmd s c st) := by
  unfold endCmd
  split
  · exact .rest s
  · split
    · exact SameHolders.trans (t := cmdDone s c.id st) (.rest s) ((noteHeld_sameHolders _ _).trans (.rest _))
    · have unpinned : SameHolders s (gatherUnpin (orSame s (globalWord s c st)) c) :=
        (orSame_globalWord_written s c st).sameHolders.trans (gatherUnpin_written _ c).sameHolders
      have ended : SameHolders s (if c.queue < 64 then packetEnds (gatherUnpin (orSame s (globalWord s c st)) c) c.die c.queue c.kind.errCode c.tag c.qrd st
          else gatherUnpin (orSame s (globalWord s c st)) c) := by
        split
        · exact unpinned.trans (packetEnds_sameHolders _ _ _ _ _ _ _)
        · exact unpinned
      exact ended.trans (SameHolders.trans (t := rebalCopied _ c.id st) (.of_dies rfl rfl rfl) (completeCmd_sameHolders _ c st))

/-! ### Step 5: the owner flips (R36, R37, R41) -/

/-- A die that gives a stack away no longer owns it. -/
def Die.dropOwn (i : Nat) (x : Die) : Die := { x with own := x.own &&& ~~~((1 : BitVec 8) <<< i) }

theorem bit_andNot_shiftLeft {i : Nat} (h : i < 8) (x : BitVec 8) : (x &&& ~~~((1 : BitVec 8) <<< i)).getLsbD i = false := by
  rw [BitVec.getLsbD_and, BitVec.getLsbD_not, bit_shiftLeft h, Bool.not_true, Bool.and_false, Bool.and_false]

/-- A die reads the new owner of stack `i` from its map. -/
def Die.setOwner (i d : Nat) (x : Die) : Die := { x with omap := x.omap.set i d }

/-- The owner of stack `i` is the receiver of `h`, in every map. -/
def flipped (s : State) (i : Nat) (h : Hov) : State :=
  let u := (s.modStk i (fun k => { k with owner := h.take })).modDie h.give (Die.dropOwn i)
  hovStep { u with dies := u.dies.map (Die.setOwner i h.take), vxmap := u.vxmap.set i h.take
                   accs := u.accs.map (fun a => if a.atPort h.give i || a.aims u h.give i then { a with exempt := false } else a) } i 5

theorem exec_ownerFlip {s : State} {i : Nat} {h : Hov} (hs : HovAt s i h 4) :
    exec (.ownerFlip i) s = .next (match (flipped s i h).cmd? h.cmd with
      | some c => if c.core < 96 then finishCmd (flipped s i h) c 0 else flipped s i h
      | none => flipped s i h) := by
  obtain ⟨-, -, hh, h4⟩ := hs
  show execOwnerFlip i s = _
  unfold execOwnerFlip
  simp only [hh, h4]
  rfl

theorem die_mapDies {s : State} {d : Nat} {g : Die → Die} (h : d < s.dies.length) : ({ s with dies := s.dies.map g } : State).die d = g (s.die d) := by
  simp [State.die, h]

theorem flipped_stk {s : State} {i : Nat} {h : Hov} (hs : HovAt s i h 4) : (flipped s i h).stk i = { s.stk i with owner := h.take, hov := some { h with step := 5 } } := by
  obtain ⟨hi, -, hh, -⟩ := hs
  have owned : (s.modStk i (fun k => { k with owner := h.take })).stk i = { s.stk i with owner := h.take } := by rw [stk_modStk, if_pos ⟨rfl, hi⟩]
  unfold flipped hovStep
  refine (stk_modStk _ i i _).trans ?_
  rw [if_pos ⟨rfl, by simpa [State.modStk] using hi⟩]
  show ({ (s.modStk i (fun k => { k with owner := h.take })).stk i with hov := _ } : Stack) = _
  simp only [owned]
  exact congrArg (fun o : Option Hov => ({ s.stk i with owner := h.take, hov := o } : Stack)) (by
    show Option.map _ ((s.modStk i (fun k => { k with owner := h.take })).stk i).hov = _
    rw [owned, hh]
    rfl)

theorem flipped_own {s : State} {i : Nat} {h : Hov} (h8 : i < 8) : ((flipped s i h).die h.give).own.getLsbD i = false := by
  by_cases hd : h.give < s.dies.length
  · have hl : h.give < ((s.modStk i (fun k => { k with owner := h.take })).modDie h.give (Die.dropOwn i)).dies.length := by
      rw [State.modDie_dies, length_listMod]; exact hd
    have hdie : ((flipped s i h).die h.give).own = ((s.die h.give).own &&& ~~~((1 : BitVec 8) <<< i)) := by
      refine (congrArg Die.own (die_mapDies hl)).trans ?_
      rw [die_modDie_same (by exact hd)]
      rfl
    rw [hdie, bit_andNot_shiftLeft h8]
  · have h0 : (flipped s i h).die h.give = default := by simp [State.die, flipped, hovStep, State.modStk, hd]
    rw [h0]
    exact BitVec.getLsbD_zero

theorem flipped_omap {s : State} {i d : Nat} {h : Hov} (hd : d < s.dies.length) : ((flipped s i h).die d).omap = (s.die d).omap.set i h.take := by
  have hl : d < ((s.modStk i (fun k => { k with owner := h.take })).modDie h.give (Die.dropOwn i)).dies.length := by
    rw [State.modDie_dies, length_listMod]; exact hd
  refine (congrArg Die.omap (die_mapDies hl)).trans ?_
  show List.set _ _ _ = _
  rw [die_modDie_keeps (g := Die.dropOwn i) (p := Die.omap) (fun _ => rfl)]
  rfl

theorem ownerFlip_flips {s : State} {i : Nat} {h : Hov} (hs : HovAt s i h 4) :
    ∃ t, exec (.ownerFlip i) s = .next t ∧ (t.stk i).owner = h.take ∧ (t.stk i).hov = some { h with step := 5 } ∧ t.mem = s.mem ∧
      (t.die h.give).own.getLsbD i = false ∧ t.vxmap = s.vxmap.set i h.take ∧ ∀ d, d < s.dies.length → (t.die d).omap = (s.die d).omap.set i h.take := by
  refine ⟨_, exec_ownerFlip hs, ?_⟩
  have kept : ∀ t, SameHolders (flipped s i h) t → t.mem = s.mem → (t.stk i).owner = h.take ∧ (t.stk i).hov = some { h with step := 5 } ∧ t.mem = s.mem ∧
      (t.die h.give).own.getLsbD i = false ∧ t.vxmap = s.vxmap.set i h.take ∧ ∀ d, d < s.dies.length → (t.die d).omap = (s.die d).omap.set i h.take := by
    intro t ht hm
    have hstk : t.stk i = (flipped s i h).stk i := by simp only [State.stk, ht.stks]
    rw [hstk, flipped_stk hs, ht.own, ht.vxmap]
    exact ⟨rfl, rfl, hm, flipped_own hs.2.1, rfl, fun d hd => (ht.omap d).trans (flipped_omap hd)⟩
  split
  · split
    · exact kept _ (finishCmd_sameHolders _ _ _) (finishCmd_mem _ _ _)
    · exact kept _ (.refl _) rfl
  · exact kept _ (.refl _) rfl

/-! ### Step 6: the receiver owns the stack (R36, R38) -/

/-- The command `c` is a take of stack `i` by die `d` that still waits. -/
def TakeWaits (d i : Nat) (c : Cmd) : Prop := c.die = d ∧ c.kind = .shovTake i ∧ c.st = .waiting

theorem mem_cmds_completeCmd {s : State} {c x : Cmd} {st : W64} (h : x ∈ (completeCmd s c st).cmds) : x ∈ s.cmds ∧ x.id ≠ c.id := by
  have kept (u v : State) (hu : u.cmds = s.cmds) (hv : v = endRebal u c) : v.cmds = s.cmds := by
    subst hv
    unfold endRebal
    split
    · split
      · split <;> exact hu
      · exact hu
    · exact hu
  unfold completeCmd at h
  obtain ⟨hx, hn⟩ := List.mem_filter.mp h
  refine ⟨?_, by simpa using hn⟩
  rw [kept _ _ ?_ rfl] at hx
  · exact hx
  · cases c.cw <;> cases c.ent <;> (dsimp only; split <;> rfl)

/-- A take that still waits after another command has ended waited before, and is not that command. -/
theorem takeWaits_finishCmd {s : State} {d i : Nat} {c x : Cmd} {st : W64} (h : x ∈ (finishCmd s c st).cmds) (hx : TakeWaits d i x) :
    x ∈ s.cmds ∧ x.id ≠ c.id := by
  unfold finishCmd at h
  split at h
  · obtain ⟨y, hy, rfl⟩ := List.mem_map.mp h
    obtain ⟨z, hz, rfl⟩ := List.mem_map.mp hy
    obtain ⟨-, -, hst⟩ := hx
    by_cases hid : z.id = c.id
    · exact absurd hst (by simp [hid])
    · simp only [beq_iff_eq, hid, if_false] at hst ⊢
      exact ⟨hz, hid⟩
  · exact mem_cmds_completeCmd h

theorem takeWaits_foldl {d i : Nat} {l : List Cmd} {s : State} (h : ∀ x ∈ s.cmds, TakeWaits d i x → x ∈ l) :
    ∀ x ∈ (l.foldl (fun s c => finishCmd s c 0) s).cmds, ¬ TakeWaits d i x := by
  have rest : ∀ (l : List Cmd) (s : State), (∀ x ∈ s.cmds, TakeWaits d i x → ∃ c ∈ l, c.id = x.id) →
      ∀ x ∈ (l.foldl (fun s c => finishCmd s c 0) s).cmds, ¬ TakeWaits d i x := by
    intro l
    induction l with
    | nil => exact fun s h x hx hw => by simpa using h x hx hw
    | cons c l ih =>
      refine fun s h => ih _ fun x hx hw => ?_
      obtain ⟨hxs, hne⟩ := takeWaits_finishCmd hx hw
      obtain ⟨y, hy, hid⟩ := h x hxs hw
      rcases List.mem_cons.mp hy with rfl | hy
      · exact absurd hid.symm hne
      · exact ⟨y, hy, hid⟩
  exact rest l s fun x hx hw => ⟨x, h x hx hw, rfl⟩

/-- A hand-over of stack `i` is no longer in progress at a die. -/
def Die.clearHov (i : Nat) (x : Die) : Die := { x with hov := x.hov &&& ~~~((1 : BitVec 8) <<< i) }

/-- The receiver of a hand-over owns stack `i`. -/
def Die.gainOwn (i : Nat) (x : Die) : Die := { x.clearHov i with own := x.own ||| (1 <<< i) }

/-- The hand-over of stack `i` is over. -/
def handedOver (s : State) (i : Nat) (h : Hov) : State :=
  ((s.modDie h.give (Die.clearHov i)).modDie h.take (Die.gainOwn i)).modStk i (fun k => { k with hov := none })

/-- The giver's command has ended with the hand-over. -/
def giverEnded (s : State) (id : Nat) : State :=
  match s.cmd? id with
  | some c => endCmd s c 0
  | none => s

theorem giverEnded_sameHolders (s : State) (id : Nat) : SameHolders s (giverEnded s id) := by
  unfold giverEnded
  split
  · exact endCmd_sameHolders _ _ _
  · exact .refl s

/-- The waiting takes of stack `i` by die `d` have ended. -/
def takesEnded (s : State) (d i : Nat) : State :=
  (s.cmds.filter (fun c => c.die == d && c.kind == .shovTake i && c.st == .waiting)).foldl (fun s c => finishCmd s c 0) s

theorem takesEnded_sameHolders (s : State) (d i : Nat) : SameHolders s (takesEnded s d i) :=
  foldl_keeps (P := SameHolders s) (fun _ _ h => h.trans (finishCmd_sameHolders _ _ _)) _ s (.refl s)

theorem takesEnded_none (s : State) (d i : Nat) : ∀ x ∈ (takesEnded s d i).cmds, ¬ TakeWaits d i x := by
  refine takeWaits_foldl fun x hx hw => List.mem_filter.mpr ⟨hx, ?_⟩
  obtain ⟨hd, hk, hst⟩ := hw
  simp [hd, hk, hst]

theorem exec_handoverFinish {s : State} {i : Nat} {h : Hov} (hs : HovAt s i h 5) :
    exec (.handoverFinish i) s = .next (takesEnded (giverEnded (handedOver s i h) h.cmd) h.take i) := by
  obtain ⟨-, -, hh, h5⟩ := hs
  show execHandoverFinish i s = _
  unfold execHandoverFinish
  simp only [hh, h5]
  rfl

theorem Die.clearHov_bit {i : Nat} (h : i < 8) (x : Die) : (x.clearHov i).hov.getLsbD i = false := bit_andNot_shiftLeft h x.hov

theorem handoverFinish_ends {s : State} {i : Nat} {h : Hov} (hs : HovAt s i h 5) (hg : h.give < s.dies.length) (ht : h.take < s.dies.length) :
    ∃ t, exec (.handoverFinish i) s = .next t ∧ (t.stk i).hov = none ∧ (t.stk i).owner = (s.stk i).owner ∧ (t.die h.take).own.getLsbD i = true ∧
      (t.die h.take).hov.getLsbD i = false ∧ (t.die h.give).hov.getLsbD i = false ∧
      ∀ c ∈ t.cmds, ¬ (c.die = h.take ∧ c.kind = .shovTake i ∧ c.st = .waiting) := by
  have kept := (giverEnded_sameHolders (handedOver s i h) h.cmd).trans (takesEnded_sameHolders _ h.take i)
  refine ⟨_, exec_handoverFinish hs, ?_⟩
  obtain ⟨hi, h8, hh, -⟩ := hs
  have hstk : (handedOver s i h).stk i = { s.stk i with hov := none } := by
    unfold handedOver
    rw [stk_modStk, if_pos ⟨rfl, hi⟩]
    rfl
  have htake : (handedOver s i h).die h.take = Die.gainOwn i ((s.modDie h.give (Die.clearHov i)).die h.take) :=
    die_modDie_same (by rw [State.modDie_dies, length_listMod]; exact ht)
  have hgive : ((handedOver s i h).die h.give).hov.getLsbD i = false := by
    refine (congrArg (fun x : Die => x.hov.getLsbD i) (die_modDie (s.modDie h.give (Die.clearHov i)) h.take h.give (Die.gainOwn i))).trans ?_
    split
    · exact Die.clearHov_bit h8 _
    · rw [die_modDie_same hg]
      exact Die.clearHov_bit h8 _
  refine ⟨?_, ?_, ?_, ?_, ?_, takesEnded_none _ _ _⟩
  · rw [State.stk, kept.stks]
    exact congrArg Stack.hov hstk
  · rw [State.stk, kept.stks]
    show ((handedOver s i h).stk i).owner = (s.stk i).owner
    rw [hstk]
  · rw [kept.own, htake]
    show (_ ||| (1 : BitVec 8) <<< i).getLsbD i = true
    rw [BitVec.getLsbD_or, bit_shiftLeft h8, Bool.or_true]
  · rw [kept.hov, htake]
    exact Die.clearHov_bit h8 _
  · rw [kept.hov]
    exact hgive

/-! ### O54 -/

/-- Settles O54: each step of a hand-over, from every state that stands at it. -/
theorem handOvers : Obligations.HandOvers := by
  unfold Obligations.HandOvers
  refine ⟨fun s d ix r => leaveGrant_granted, fun s i c h8 hi hc hg ht hn hm => handoverStart_marks h8 hi hc hg ht hn hm, fun s i h hs => ⟨fun hd => ?_, handoverWriteback_written hs⟩,
    fun s i h => handoverShootdown_drops, fun s i h => ownerFlip_flips, fun s i h => handoverFinish_ends⟩
  rw [exec_handoverWriteback hs, hd]
  rfl

end Sys2Proof.Machine
end

section
/-! PROOFS. The end of a page move behind the release of a completion word (R47, R84), and the refutation of O55. -/

namespace Sys2Proof.Machine

/-- A command whose completion word has to wait for tracked stores does not end: it keeps its place with its status. -/
theorem endCmd_of_mustWait {s : State} {c : Cmd} {st : W64} (h : c.mustWait s st = true) : endCmd s c st = waitRel s c st := by
  unfold endCmd
  rw [if_pos h]

theorem cmd?_waitRel {s : State} {c : Cmd} {st : W64} (h : s.cmd? c.id = some c) :
    (waitRel s c st).cmd? c.id = some { c with st := .done st, relOf := some (c.relIds s) } := by
  have done : (cmdDone s c.id st).cmd? c.id = some { c with st := .done st } := cmd?_modCmd (g := fun x => { x with st := .done st }) h (fun _ => rfl)
  exact cmd?_modCmd (g := fun x => { x with relOf := some (c.relIds s) }) done (fun _ => rfl)

/-- A store of core 0 of die 0 that its cluster's tracker holds. -/
def trackedStore : Acc := { id := 5, frag := ⟨0, 0, 0, 0, false⟩, word := 0, thr := none, kind := .store, st := .ack, tracked := true }

/-- A page move at its last step whose completion word is a release at die scope, behind that store. -/
def releasingMove : Cmd := { id := 7, die := 0, core := 0, kind := .pmove 0 0 1 0, cw := some ⟨0, 0, .die⟩, st := .running, next := 3, relOf := some [5] }

/-- Both are under way. -/
def releasingState : State := { State.reset with accs := [trackedStore], cmds := [releasingMove] }

theorem releasingState_moveAt : MoveAt releasingState releasingMove 0 0 0 3 .running := ⟨rfl, rfl, rfl, rfl⟩

theorem exec_pageMoveFinish {s : State} {c : Cmd} {va dst psz : Nat} (h : MoveAt s c va dst psz 3 .running) :
    exec (.pageMoveFinish c.id) s = .next (endCmd (releaseBusy s c.id true) c 0) := by
  obtain ⟨hc, hk, hst, hn⟩ := h
  show execPageMoveFinish c.id s = _
  unfold execPageMoveFinish
  simp only [hc, hk, hst, hn] <;> rfl

theorem releasingMove_waits : releasingMove.mustWait (releaseBusy releasingState releasingMove.id true) 0 = true := by decide

/-- Refutes O55: the statement of a move's end leaves its core and completion word open, and a move whose completion word is a release at die scope stays
until the stores that its cluster's tracker holds are acknowledged (R84). -/
theorem not_pageMoves : ¬ Obligations.PageMoves := by
  unfold Obligations.PageMoves
  rintro ⟨-, -, finish⟩
  obtain ⟨t, stepped, gone, -⟩ := finish releasingState releasingMove 0 0 0 releasingState_moveAt rfl
  rw [exec_pageMoveFinish releasingState_moveAt, endCmd_of_mustWait releasingMove_waits] at stepped
  cases stepped
  rw [cmd?_waitRel (c := releasingMove) rfl] at gone
  cases gone

end Sys2Proof.Machine
end

section
/-! PROOFS. A packet of a beat and what its parsing leaves (R45, R46, R385 to R387, R390, R456). -/

namespace Sys2Proof.Machine

/-! ### A packet in its beat, and its queue once it is parsed (R385, R386) -/

section Beat
variable {s : State} {d q : Nat} {i : Instr} {run : W32 → State → Except Held State}

theorem InBeat.die_lt (h : InBeat s d q i) : d < (beatOf s d).dies.length := by
  by_contra hd
  have h0 : (beatOf s d).die d = default := by simp [State.die, hd]
  have hb := h.1
  rw [h0, show (default : Die).beat = [] from rfl] at hb
  cases hb

theorem withPacket_of_not_inBeat (h : (q, i) ∉ ((beatOf s d).die d).beat ∨ ∃ e ∈ ((beatOf s d).die d).beat, packetType e.2 < packetType i) :
    withPacket s d q i run = beatOf s d := by
  unfold withPacket
  refine if_neg ?_
  simp only [Bool.and_eq_true, List.contains_iff_mem, List.all_eq_true, decide_eq_true_eq, not_and, not_forall, not_le]
  rintro hin
  obtain hno | ⟨e, he, hlt⟩ := h
  · exact absurd hin hno
  · exact ⟨e, he, hlt⟩

/-- A packet of the beat does what its type says, in the state in which `rd` has passed it. -/
theorem withPacket_ok {t : State} (h : InBeat s d q i) (hr : run (rdOf s d q) (parsed s d q i) = .ok t) : withPacket s d q i run = t := by
  obtain ⟨hin, hmin⟩ := h
  have hc : (((beatOf s d).die d).beat.contains (q, i) && ((beatOf s d).die d).beat.all (fun e => packetType i ≤ packetType e.2)) = true := by
    simpa using ⟨hin, fun a b hab => hmin (a, b) hab⟩
  unfold withPacket
  refine (if_pos hc).trans ?_
  change (match run (rdOf s d q) (parsed s d q i) with | .ok t => t | .error h => noteHeld (beatOf s d) h) = t
  rw [hr]

theorem next_withPacket {t : State} (h : InBeat s d q i) (hr : run (rdOf s d q) (parsed s d q i) = .ok t) :
    (Host.Outcome.next (withPacket s d q i run) : Host.Outcome State Fault Refusal) = .next t := congrArg _ (withPacket_ok h hr)

theorem length_parsed (s : State) (d q : Nat) (i : Instr) : (parsed s d q i).dies.length = (beatOf s d).dies.length :=
  (length_listMod _ _ _).trans (length_listMod _ _ _)

theorem InBeat.die_lt_parsed (h : InBeat s d q i) : d < (parsed s d q i).dies.length := by
  rw [length_parsed]
  exact h.die_lt

theorem queue_parsed (h : InBeat s d q i) : (parsed s d q i).queue d q = { (beatOf s d).queue d q with rd := rdOf s d q + 1 } := by
  refine (queue_modQueue_same (by rw [State.modDie_dies, length_listMod]; exact h.die_lt)).trans ?_
  rw [queue_modDie (s := beatOf s d) (g := fun x => { x with beat := x.beat.erase (q, i) }) (fun _ => rfl)]

/-- Parsing leaves every field of a die but its beat and its queues. -/
theorem die_parsed_keeps {α : Type} {p : Die → α} (hb : ∀ (x : Die) b, p { x with beat := b } = p x) (hq : ∀ (x : Die) l, p { x with queues := l } = p x) :
    p ((parsed s d q i).die d) = p ((beatOf s d).die d) :=
  (die_modDie_keeps (fun x => hq x _)).trans (die_modDie_keeps (fun x => hb x _))

/-- What is done to a queue leaves every other field of its die. -/
theorem die_modQueue_keeps {α : Type} {p : Die → α} {e : Nat} {g : HQueue → HQueue} (hq : ∀ (x : Die) l, p { x with queues := l } = p x) :
    p ((s.modQueue d q g).die e) = p (s.die e) := die_modDie_keeps (fun x => hq x _)

/-- A packet that is left open from a state in which its queue is as its parsing left it. -/
theorem leftOpen_packetOpen {u : State} (h : InBeat s d q i) (hu : d < u.dies.length) (hq : u.queue d q = (parsed s d q i).queue d q) :
    LeftOpen s (packetOpen u d q (rdOf s d q)) d q := by
  unfold LeftOpen packetOpen
  rw [queue_modQueue_same hu, hq, queue_parsed h]
  exact ⟨rfl, rfl⟩

end Beat

/-- A packet whose turn in the beat has not come does nothing (R386). -/
theorem packet_waits_turn {s : State} {i : Instr} {d q : Nat} (hp : packetAt i = some (d, q))
    (h : (q, i) ∉ ((beatOf s d).die d).beat ∨ ∃ e ∈ ((beatOf s d).die d).beat, packetType e.2 < packetType i) : exec i s = .next (beatOf s d) := by
  unfold packetAt at hp
  split at hp <;> cases hp <;> exact congrArg _ (withPacket_of_not_inBeat h)

theorem nopPacket_parsed {s : State} {d q : Nat} {bar : Bool} {tag : W32} (h : InBeat s d q (.nopPacket d q bar tag)) :
    exec (.nopPacket d q bar tag) s = .next (parsed s d q (.nopPacket d q bar tag)) := next_withPacket h rfl

/-! ### Signals (R161, R387) -/

theorem length_leBytes (n v : Nat) : (leBytes n v).length = n := by
  induction n generalizing v with
  | zero => rfl
  | succ n ih => exact congrArg (· + 1) (ih _)

theorem getElem?_leBytes {n k : Nat} (v : Nat) (h : k < n) : (leBytes n v)[k]? = some (BitVec.ofNat 8 (v / 256 ^ k)) := by
  induction n generalizing v k with
  | zero => omega
  | succ n ih =>
    cases k with
    | zero => simp [leBytes]
    | succ k => rw [leBytes, List.getElem?_cons_succ, ih _ (by omega), Nat.div_div_eq_div_mul, Nat.pow_succ']

theorem rdB_wrN (s : State) (a x n v : Nat) : rdB (wrN s a n v) x = if a ≤ x ∧ x < a + n then BitVec.ofNat 8 (v / 256 ^ (x - a)) else rdB s x := by
  unfold wrN
  rw [rdB_wrBytes, length_leBytes]
  split
  · rw [getElem?_leBytes v (by omega)]
    rfl
  · rfl

theorem homeAtomic_ok {s s1 : State} {d va : Nat} {p : Phys} (f : Nat → Nat) (hx : xlat s d va .at = .ok (s1, p)) (hr : reach s1 { die := d } va p = none)
    (ha : p.al = false) (hp : isPois s1 p.pa 8 = false) (hh : inHost p.pa = false) :
    homeAtomic s d va f = .ok (signalSet (wrN (letGo s1 (.die d) va) p.pa 8 (f (rdN s1 p.pa 8) % 2 ^ 64)) p.pa) := by
  have hp' : isPois (letGo s1 (.die d) va) p.pa 8 = false := hp
  unfold homeAtomic
  simp only [hx, bind, Except.bind, hr, ha, hp', hh, Bool.false_and, Bool.false_eq_true, if_false, pure, Except.pure]
  rfl

theorem signalSet_mem (s : State) (pa : Nat) : (signalSet s pa).mem = s.mem := rfl

theorem signal_written {s s1 : State} {d q : Nat} {bar : Bool} {tag : W32} {addr val : W64} {ex : Bool} {p : Phys}
    (h : InBeat s d q (.signal d q bar tag addr val ex)) (hx : xlat (parsed s d q (.signal d q bar tag addr val ex)) d addr.toNat .at = .ok (s1, p))
    (hr : reach s1 { die := d } addr.toNat p = none) (ha : p.al = false) (hp : isPois s1 p.pa 8 = false) (hh : inHost p.pa = false) :
    ∃ t, exec (.signal d q bar tag addr val ex) s = .next t ∧ ∀ a, rdB t a =
      if p.pa ≤ a ∧ a < p.pa + 8 then BitVec.ofNat 8 ((if ex then val.toNat else (rdN s1 p.pa 8 + val.toNat) % 2 ^ 64) / 256 ^ (a - p.pa))
      else rdB s1 a := by
  have ran := homeAtomic_ok (fun v => if ex then val.toNat else v + val.toNat) hx hr ha hp hh
  refine ⟨_, next_withPacket h (by simp only [ran] <;> rfl), fun a => ?_⟩
  rw [rdB_of_mem (signalSet_mem _ _), rdB_wrN, rdB_of_mem (letGo_mem _ _ _)]
  cases ex
  · rfl
  · rw [if_pos rfl, if_pos rfl, Nat.mod_eq_of_lt val.isLt]

/-! ### Waits (R384, R387; log entry 63) -/

theorem readChunk_written {s : State} {a : Agent} {va n : Nat} {wt : Want} {v : State × List Byte × Bool} (ha : a.core = none)
    (h : readChunk s a va n wt = .ok v) : Written s v.1 := by
  unfold readChunk xlatA at h
  simp only [ha] at h
  cases hx : xlat s a.die va wt with
  | error e => simp [hx, bind, Except.bind] at h
  | ok w =>
    obtain ⟨u, p⟩ := w
    have hu : Written s (letGo u a.who va) := (xlat_written hx).trans rfl
    simp only [hx, bind, Except.bind, pure, Except.pure, throw, throwThe, MonadExceptOf.throw] at h
    split at h
    · cases h
    · split at h
      · split at h <;> cases h
        exact hu
      · cases h
        exact hu

theorem vreadFuel_written {f : Nat} {s : State} {a : Agent} {va n : Nat} {v : State × List Byte × Bool} (ha : a.core = none)
    (h : vreadFuel f s a va n = .ok v) : Written s v.1 := by
  induction f generalizing s va n v with
  | zero =>
    cases h
    exact .refl _
  | succ f ih =>
    unfold vreadFuel at h
    split at h
    · cases h
      exact .refl _
    · cases hc : readChunk s a va (min n (64 - va % 64)) .r with
      | error e => simp [hc, bind, Except.bind] at h
      | ok u =>
        simp only [hc, bind, Except.bind] at h
        cases hv : vreadFuel f u.1 a (va + min n (64 - va % 64)) (n - min n (64 - va % 64)) with
        | error e => simp [hv] at h
        | ok w =>
          simp only [hv, pure, Except.pure] at h
          cases h
          exact (readChunk_written ha hc).trans (ih (v := w) hv)

theorem vread_written {s : State} {a : Agent} {va n : Nat} {v : State × List Byte × Bool} (ha : a.core = none) (h : vread s a va n = .ok v) :
    Written s v.1 := vreadFuel_written ha h

theorem vrdN_written {s s1 : State} {a : Agent} {va n v : Nat} (ha : a.core = none) (h : vrdN s a va n = .ok (s1, v)) : Written s s1 := by
  unfold vrdN at h
  cases hv : vread s a va n with
  | error e => simp [hv, bind, Except.bind] at h
  | ok w =>
    simp only [hv, bind, Except.bind, pure, Except.pure] at h
    cases h
    exact vread_written ha hv

theorem Written.queue {s t : State} (h : Written s t) (d q : Nat) : t.queue d q = s.queue d q := by
  rw [State.queue, State.die, h.dies]
  rfl

/-- A word that is read ends its wait where the comparison holds, or where the queue has been disabled. -/
theorem readSignal_ok {s s1 : State} {d q v : Nat} {w : WaitSig} (hd : d < s.dies.length) (h : vrdN s { die := d } w.addr.toNat 8 = .ok (s1, v)) :
    (readSignal s d q w).mem = s1.mem ∧
      ((readSignal s d q w).queue d q).blocked = if waitHolds w.cond v w.val.toNat = true ∨ (s.queue d q).on = false then none else some w := by
  have hw := vrdN_written rfl h
  have hset : readSignal s d q w = s1.modQueue d q (fun x => { x with blocked := if x.on then (if waitHolds w.cond v w.val.toNat then none else some w) else none }) := by
    unfold readSignal
    rw [h]
  rw [hset, queue_modQueue_same (by rwa [hw.dies]), hw.queue]
  refine ⟨rfl, ?_⟩
  cases (s.queue d q).on <;> simp

theorem die_lt_of_blocked {s : State} {d q : Nat} {w : WaitSig} (h : (s.queue d q).blocked = some w) : d < s.dies.length := by
  by_contra hd
  rw [State.queue, show s.die d = default by simp [State.die, hd]] at h
  cases h

theorem waitSignal_reads {s s1 : State} {d q v : Nat} {bar : Bool} {tag : W32} {addr val : W64} {cond : BitVec 2}
    (h : InBeat s d q (.waitSignal d q bar tag addr val cond))
    (hv : vrdN (parsed s d q (.waitSignal d q bar tag addr val cond)) { die := d } addr.toNat 8 = .ok (s1, v)) :
    ∃ t, exec (.waitSignal d q bar tag addr val cond) s = .next t ∧ t.mem = s1.mem ∧ (t.queue d q).blocked =
      if waitHolds cond v val.toNat = true ∨ ((beatOf s d).queue d q).on = false then none else some ⟨addr, val, cond, tag, rdOf s d q, false⟩ := by
  refine ⟨_, next_withPacket h rfl, ?_⟩
  have hr := readSignal_ok (q := q) (w := ⟨addr, val, cond, tag, rdOf s d q, false⟩) h.die_lt_parsed hv
  rwa [queue_parsed h] at hr

theorem waitSignalMet_reads {s s1 : State} {d q v : Nat} {w : WaitSig} (hb : (s.queue d q).blocked = some w) (hm : w.met = false)
    (hv : vrdN s { die := d } w.addr.toNat 8 = .ok (s1, v)) :
    ∃ t, exec (.waitSignalMet d q) s = .next t ∧ t.mem = s1.mem ∧
      (t.queue d q).blocked = if waitHolds w.cond v w.val.toNat = true ∨ (s.queue d q).on = false then none else some w := by
  refine ⟨readSignal s d q w, ?_, readSignal_ok (die_lt_of_blocked hb) hv⟩
  show execWaitSignalMet d q s = _
  unfold execWaitSignalMet
  simp only [hb, hm, Bool.false_eq_true, if_false]

theorem waitSignalMet_ends {s : State} {d q : Nat} {w : WaitSig} (hd : d < s.dies.length) (hb : (s.queue d q).blocked = some w) (hm : w.met = true) :
    ∃ t, exec (.waitSignalMet d q) s = .next t ∧ t.mem = s.mem ∧ (t.queue d q).blocked = none := by
  refine ⟨s.modQueue d q (fun x => { x with blocked := none }), ?_, rfl, by rw [queue_modQueue_same hd]⟩
  show execWaitSignalMet d q s = _
  unfold execWaitSignalMet
  simp only [hb, hm, if_true]

/-! ### Launches (R390, R392) -/

/-- The share that stands beside a launch of queue 63 (R392). -/
def shareAt (s : State) (d q : Nat) : Option SpanShare :=
  if q = 63 then ((beatOf s d).die d).spanQ.find? (fun e => e.ix == rdOf s d q) else none

/-- The launch that a `LAUNCH` packet leaves in the pool. -/
def launchOf (s : State) (d q : Nat) (tag : W32) (r : W64) : Grid :=
  { id := (beatOf s d).nextId, grec := r, src := .packet q tag (rdOf s d q), span := (shareAt s d q).map (·.span)
    base? := (shareAt s d q).map (fun e => (e.n, e.base)) }

/-- A die with a launch that waits for its dispatch, and without the launch's share. -/
def Die.pooled (y : Grid) (sh : Option SpanShare) (x : Die) : Die :=
  { x with grids := x.grids ++ [y], spanQ := x.spanQ.filter (fun e => sh != some e) }

/-- The state in which the launch of a parsed packet waits. -/
def launched (s : State) (d q : Nat) (i : Instr) (tag : W32) (r : W64) : State :=
  (parsed s d q i).fresh.2.modDie d (Die.pooled (launchOf s d q tag r) (shareAt s d q))

section Launch
variable {s : State} {d q : Nat} {bar : Bool} {tag : W32} {i : Instr} {r : W64}

theorem die_launched (h : InBeat s d q i) :
    (launched s d q i tag r).die d = ((parsed s d q i).die d).pooled (launchOf s d q tag r) (shareAt s d q) := die_modDie_same h.die_lt_parsed

theorem length_launched : (launched s d q i tag r).dies.length = (parsed s d q i).dies.length := length_listMod _ _ _

theorem mem_launched : (packetOpen (launched s d q i tag r) d q (rdOf s d q)).mem = (beatOf s d).mem := by
  simp [packetOpen, launched, parsed]

theorem queue_launched : (launched s d q i tag r).queue d q = (parsed s d q i).queue d q :=
  queue_modDie (s := (parsed s d q i).fresh.2) (g := Die.pooled (launchOf s d q tag r) (shareAt s d q)) (fun _ => rfl)

theorem grids_launched (h : InBeat s d q i) :
    ((packetOpen (launched s d q i tag r) d q (rdOf s d q)).die d).grids = ((beatOf s d).die d).grids ++ [launchOf s d q tag r] := by
  refine (die_modQueue_keeps (p := Die.grids) (fun _ _ => rfl)).trans ?_
  rw [die_launched h]
  exact congrArg (· ++ _) (die_parsed_keeps (p := Die.grids) (fun _ _ => rfl) (fun _ _ => rfl))

theorem spanQ_launched (h : InBeat s d q i) : ((packetOpen (launched s d q i tag r) d q (rdOf s d q)).die d).spanQ =
    ((beatOf s d).die d).spanQ.filter (fun e => shareAt s d q != some e) := by
  refine (die_modQueue_keeps (p := Die.spanQ) (fun _ _ => rfl)).trans ?_
  rw [die_launched h]
  exact congrArg _ (die_parsed_keeps (p := Die.spanQ) (fun _ _ => rfl) (fun _ _ => rfl))

theorem exec_launch (h : InBeat s d q (.launch d q bar tag r)) :
    exec (.launch d q bar tag r) s = .next (packetOpen (launched s d q (.launch d q bar tag r) tag r) d q (rdOf s d q)) := by
  refine next_withPacket h ?_
  have hsp : ((parsed s d q (.launch d q bar tag r)).fresh.2.die d).spanQ = ((beatOf s d).die d).spanQ :=
    die_parsed_keeps (p := Die.spanQ) (fun _ _ => rfl) (fun _ _ => rfl)
  dsimp only
  rw [hsp]
  rfl

theorem launch_pools (h : InBeat s d q (.launch d q bar tag r)) :
    ∃ t y, exec (.launch d q bar tag r) s = .next t ∧ LeftOpen s t d q ∧ t.mem = (beatOf s d).mem ∧
      (t.die d).grids = ((beatOf s d).die d).grids ++ [y] ∧ y.grec = r ∧ y.src = .packet q tag (rdOf s d q) ∧ y.dispatched = false ∧ y.wgs = [] ∧
      (q ≠ 63 → y.base? = none ∧ y.span = none) ∧
      ∀ e, q = 63 → ((beatOf s d).die d).spanQ.find? (fun e => e.ix == rdOf s d q) = some e → y.base? = some (e.n, e.base) ∧ y.span = some e.span ∧
        e ∉ (t.die d).spanQ := by
  have opened : LeftOpen s (packetOpen (launched s d q (.launch d q bar tag r) tag r) d q (rdOf s d q)) d q :=
    leftOpen_packetOpen h (by rw [length_launched]; exact h.die_lt_parsed) queue_launched
  refine ⟨packetOpen (launched s d q (.launch d q bar tag r) tag r) d q (rdOf s d q), launchOf s d q tag r, exec_launch h, opened, mem_launched, grids_launched h, rfl, rfl, rfl, rfl, fun hq => ?alone, fun e hq he => ?shared⟩
  case alone => simp [launchOf, shareAt, hq]
  case shared =>
    have hsh : shareAt s d q = some e := by rw [shareAt, if_pos hq, he]
    rw [spanQ_launched h, launchOf, hsh]
    exact ⟨rfl, rfl, by simp⟩

end Launch

/-! ### Copies and page moves (R45, R46, R387) -/

theorem beaterCmd_added {s : State} {d q : Nat} {i : Instr} (tag : W32) (kind : CmdKind) (gcw : Option (W64 × W64)) (st : CmdSt) (next : Nat)
    (old : List (Nat × W64)) (h : InBeat s d q i) :
    (beaterCmd (parsed s d q i) d q tag (rdOf s d q) kind gcw st next old).mem = (beatOf s d).mem ∧
      BeaterCmd s (beaterCmd (parsed s d q i) d q tag (rdOf s d q) kind gcw st next old) d q tag kind gcw st :=
  ⟨rfl, leftOpen_packetOpen h h.die_lt_parsed rfl, _, rfl, rfl, rfl, rfl, rfl, rfl, rfl, rfl, rfl⟩

theorem copy_added {s : State} {d q : Nat} {bar : Bool} {tag : W32} {dst src len cwa cwv : W64} (h : InBeat s d q (.copy d q bar tag dst src len cwa cwv)) :
    ∃ t, exec (.copy d q bar tag dst src len cwa cwv) s = .next t ∧ t.mem = (beatOf s d).mem ∧
      BeaterCmd s t d q tag (.bcopy dst.toNat src.toNat len.toNat) (if cwa = 0 ∨ cwa.toNat % 8 ≠ 0 then none else some (cwa, cwv))
        (if cwa.toNat % 8 ≠ 0 then .done 0x13 else if overlap dst.toNat len.toNat src.toNat len.toNat then .done 0x16 else .waiting) := by
  refine ⟨_, next_withPacket h rfl, ?_⟩
  simp only [Bool.or_eq_true, beq_iff_eq, bne_iff_ne]
  exact beaterCmd_added _ _ _ _ _ _ h

theorem pageMove_added {s : State} {d q : Nat} {bar : Bool} {tag : W32} {va dst : W64} {npg : W32} {psz flg : Byte} {cwa cwv : W64} {bad : Bool}
    (h : InBeat s d q (.pageMove d q bar tag va dst npg psz flg cwa cwv))
    (hb : bad = (flg.toNat > 1 || cwa.toNat % 8 != 0 || cwa.toNat ≥ 2 ^ 57 || cwv.getLsbD 63)) :
    ∃ t, exec (.pageMove d q bar tag va dst npg psz flg cwa cwv) s = .next t ∧ t.mem = (beatOf s d).mem ∧
      BeaterCmd s t d q tag (.pmove va.toNat dst.toNat npg.toNat psz.toNat) (if flg.getLsbD 0 = true ∧ cwa.toNat % 8 = 0 ∧ cwa.toNat < 2 ^ 57 then some (cwa, cwv) else none)
        (match pmoveCheck (parsed s d q (.pageMove d q bar tag va dst npg psz flg cwa cwv)) d va.toNat dst.toNat npg.toNat psz.toNat bad with
          | .fail st => .done (BitVec.ofNat 64 st)
          | _ => .waiting) := by
  refine ⟨_, next_withPacket h rfl, ?_⟩
  simp only [Bool.and_eq_true, beq_iff_eq, decide_eq_true_eq, and_assoc, ← hb]
  cases pmoveCheck (parsed s d q (.pageMove d q bar tag va dst npg psz flg cwa cwv)) d va.toNat dst.toNat npg.toNat psz.toNat bad with
  | fail st => exact beaterCmd_added _ _ _ _ _ _ h
  | wait => exact beaterCmd_added _ _ _ _ _ _ h
  | ok ls => exact beaterCmd_added _ _ _ _ _ _ h

/-! ### The event ring (R456) -/

theorem length_writeRecord (s : State) (d : Nat) (r : List Byte) : (writeRecord s d r).dies.length = s.dies.length :=
  (length_listMod _ _ _).trans (congrArg _ (wrBytes_written _ _ _).dies)

theorem length_writeOverflow (s : State) (d : Nat) : (writeOverflow s d).dies.length = s.dies.length := by
  unfold writeOverflow
  dsimp only
  split
  · rfl
  · exact (length_writeRecord _ _ _).trans (length_listMod _ _ _)

theorem length_postRecord (s : State) (d : Nat) (r : List Byte) : (postRecord s d r).dies.length = s.dies.length := by
  unfold postRecord
  dsimp only
  split
  · rfl
  · split
    · exact length_writeRecord _ _ _
    · exact length_listMod _ _ _

theorem length_flushRecords (d : Nat) (l : List (List Byte)) (s : State) : (flushRecords d l s).dies.length = s.dies.length := by
  induction l generalizing s with
  | nil => rfl
  | cons r l ih => exact (ih _).trans ((length_postRecord _ _ _).trans (length_writeOverflow _ _))

theorem eventConfig_configures {s : State} {d q : Nat} {bar : Bool} {tag : W32} {base : W64} {lsz : Byte} {mask : BitVec 16}
    (h : InBeat s d q (.eventConfig d q bar tag base lsz mask)) :
    ∃ t, exec (.eventConfig d q bar tag base lsz mask) s = .next t ∧ (t.die d).evEn = true ∧ (t.die d).evBase = base ∧
      (t.die d).evLsz = lsz.truncate 5 ∧ (t.die d).evMsk = mask ||| 0xE ∧ (t.die d).evWr = 0 ∧ (t.die d).evRd = 0 ∧ (t.die d).evPend = [] := by
  refine ⟨_, next_withPacket h rfl, ?_⟩
  rw [die_modDie_same (by rw [length_flushRecords]; exact h.die_lt_parsed)]
  exact ⟨rfl, rfl, rfl, rfl, rfl, rfl, rfl⟩

end Sys2Proof.Machine
end

section
/-! PROOFS. Spanning launches (R385, R392, R455; log entry 61). -/

namespace Sys2Proof.Machine

section Span
variable {s u : State} {span : Nat} {recs : List W64} {shares : List Byte} {tag : W32} {n base : W64} {d : Nat}

/-- The share of die `d`, as it stands beside the index that its launch takes in queue 63. -/
def shareFor (s : State) (span : Nat) (recs : List W64) (shares : List Byte) (n base : W64) (d : Nat) : SpanShare :=
  { rec_ := (recs[d]?).getD 0, ix := (s.queue d 63).wr, span := span, n := BitVec.ofNat 64 (shareStart shares n (d + 1) - shareStart shares n d)
    base := base + BitVec.ofNat 64 (shareStart shares n d) }

/-- Queue 63 of die `d` takes a launch whose bytes `v` already holds, and the share `e` stands beside its index. -/
def shareAdded (v : State) (d : Nat) (e : SpanShare) : State :=
  ({ v with spanWait := v.spanWait ++ [(e.span, d)] }.modDie d (fun x => { x with spanQ := x.spanQ.filter (fun (y : SpanShare) => y.ix != e.ix) ++ [e] })).modQueue d 63
    (fun x => { x with wr := x.wr + 1 })

/-- Where the launch of die `d` is written. -/
def shareWrite (s : State) (recs : List W64) (tag : W32) (d : Nat) : Except AErr State :=
  vwrite s { die := d } ((s.queue d 63).at_ (s.queue d 63).wr) (launchBytes tag ((recs[d]?).getD 0))

theorem putShare_added (h : putShare s span recs shares tag n base d = .ok u) :
    ∃ v, Written s v ∧ (∀ w, shareWrite s recs tag d = .ok w → v = w) ∧ u = shareAdded v d (shareFor s span recs shares n base d) := by
  have put : ∀ {v}, Written s v → shareAdded v d (shareFor s span recs shares n base d) =
      ({ v with spanWait := s.spanWait ++ [(span, d)] }.modDie d (fun x => { x with spanQ := x.spanQ.filter (fun (y : SpanShare) => y.ix != (s.queue d 63).wr) ++
        [shareFor s span recs shares n base d] })).modQueue d 63 (fun x => { x with wr := x.wr + 1 }) := by
    intro v hv
    have hw : v.spanWait = s.spanWait := by rw [hv]
    rw [shareAdded, hw]
    rfl
  unfold putShare at h
  dsimp only at h
  split at h
  · cases h
  cases hw : shareWrite s recs tag d with
  | error e =>
    unfold shareWrite at hw
    rw [hw] at h
    refine ⟨s, .refl s, (fun _ h => nomatch h), ?_⟩
    rw [put (.refl s)]
    cases e <;> cases h <;> rfl
  | ok w =>
    have hv : Written s w := vwriteFuel_written rfl hw
    unfold shareWrite at hw
    rw [hw] at h
    refine ⟨w, hv, (fun _ h => Except.ok.inj h), ?_⟩
    rw [put hv]
    cases h
    rfl

theorem mem_shareAdded (v : State) (d : Nat) (e : SpanShare) : (shareAdded v d e).mem = v.mem := rfl

theorem putShare_mem {s2 : State} (h : putShare s span recs shares tag n base d = .ok u) (hw : shareWrite s recs tag d = .ok s2) : u.mem = s2.mem := by
  obtain ⟨v, -, hv, rfl⟩ := putShare_added h
  rw [mem_shareAdded, hv _ hw]

/-- Between `s` and `u` the die `d` has taken its share of launch `span`. -/
def HasShare (s u : State) (span : Nat) (recs : List W64) (shares : List Byte) (n base : W64) (d : Nat) : Prop :=
  (u.queue d 63).wr = (s.queue d 63).wr + 1 ∧ (span, d) ∈ u.spanWait ∧ shareFor s span recs shares n base d ∈ (u.die d).spanQ

/-- What the shares of other dies leave unchanged. -/
structure KeepsShares (s u : State) (l : List Nat) : Prop where
  grp : u.grp = s.grp
  length : u.dies.length = s.dies.length
  waits : ∀ p ∈ s.spanWait, p ∈ u.spanWait
  die : ∀ d ∉ l, u.die d = s.die d

theorem KeepsShares.refl (s : State) : KeepsShares s s [] := ⟨rfl, rfl, fun _ h => h, fun _ _ => rfl⟩

theorem KeepsShares.cons {v : State} {l : List Nat} (h : KeepsShares s v [d]) (k : KeepsShares v u l) : KeepsShares s u (d :: l) where
  grp := k.grp.trans h.grp
  length := k.length.trans h.length
  waits := fun p hp => k.waits p (h.waits p hp)
  die := fun e he => by
    rw [List.mem_cons, not_or] at he
    exact (k.die e he.2).trans (h.die e (by simpa using he.1))

theorem KeepsShares.queue {l : List Nat} (h : KeepsShares s u l) (hd : d ∉ l) (q : Nat) : u.queue d q = s.queue d q := by
  rw [State.queue, h.die d hd]
  rfl

theorem Written.keepsShares {v : State} (h : Written s v) : KeepsShares s v [d] :=
  ⟨by rw [h], by rw [h.dies], by rw [h]; exact fun _ h => h, fun e _ => by rw [State.die, h.dies]; rfl⟩

theorem shareAdded_keepsShares (v : State) (d : Nat) (e : SpanShare) : KeepsShares v (shareAdded v d e) [d] where
  grp := rfl
  length := (length_listMod _ _ _).trans (length_listMod _ _ _)
  waits := fun p hp => List.mem_append_left _ hp
  die := fun d' h => by
    have hne : d ≠ d' := fun hd => h (by rw [hd]; exact List.mem_singleton_self _)
    exact (die_modDie_of_ne hne).trans (die_modDie_of_ne hne)

theorem putShare_keepsShares (h : putShare s span recs shares tag n base d = .ok u) : KeepsShares s u [d] := by
  obtain ⟨v, hv, -, rfl⟩ := putShare_added h
  have k := shareAdded_keepsShares v d (shareFor s span recs shares n base d)
  have w : KeepsShares s v [d] := hv.keepsShares
  exact ⟨k.grp.trans w.grp, k.length.trans w.length, fun p hp => k.waits p (w.waits p hp), fun e he => (k.die e he).trans (w.die e he)⟩

theorem putShare_hasShare (hd : d < s.dies.length) (h : putShare s span recs shares tag n base d = .ok u) : HasShare s u span recs shares n base d := by
  obtain ⟨v, hv, -, rfl⟩ := putShare_added h
  have hdv : d < v.dies.length := by rwa [hv.dies]
  refine ⟨?wr, List.mem_append_right _ (List.mem_singleton_self _), ?share⟩
  case wr =>
    refine (congrArg HQueue.wr (queue_modQueue_same (by exact (length_listMod _ _ _).symm ▸ hdv))).trans ?_
    rw [← hv.queue]
    exact congrArg (fun x : HQueue => x.wr + 1) (queue_modDie (s := { v with spanWait := _ }) (fun _ => rfl))
  case share =>
    refine (die_modQueue_keeps (p := fun x => shareFor s span recs shares n base d ∈ x.spanQ) (fun _ _ => rfl)).mpr ?_
    rw [die_modDie_same (by exact hdv)]
    exact List.mem_append_right _ (List.mem_singleton_self _)

theorem HasShare.then {v : State} {l : List Nat} (h : HasShare s v span recs shares n base d) (k : KeepsShares v u l) (hd : d ∉ l) :
    HasShare s u span recs shares n base d := by
  unfold HasShare
  rw [k.queue hd, k.die d hd]
  exact ⟨h.1, k.waits _ h.2.1, h.2.2⟩

theorem HasShare.after {v : State} {l : List Nat} (k : KeepsShares s v l) (hd : d ∉ l) (h : HasShare v u span recs shares n base d) :
    HasShare s u span recs shares n base d := by
  unfold HasShare shareFor at h ⊢
  rwa [k.queue hd] at h

theorem putShares_shared {l : List Nat} (hl : l.Nodup) (h : putShares span recs shares tag n base l s = .ok u) :
    KeepsShares s u l ∧ ∀ d ∈ l, d < s.dies.length → HasShare s u span recs shares n base d := by
  induction l generalizing s with
  | nil =>
    cases h
    exact ⟨.refl _, fun _ h => nomatch h⟩
  | cons e l ih =>
    obtain ⟨he, hl⟩ := List.nodup_cons.mp hl
    unfold putShares at h
    split at h
    · rename_i v hv
      obtain ⟨keeps, has⟩ := ih hl h
      have first := putShare_keepsShares hv
      refine ⟨first.cons keeps, fun d hd hlt => ?_⟩
      obtain rfl | hin := List.mem_cons.mp hd
      · exact (putShare_hasShare hlt hv).then keeps he
      · have hne : d ∉ [e] := by
          rw [List.mem_singleton]
          rintro rfl
          exact he hin
        exact .after first hne (has d hin (by rwa [first.length]))
    · cases h

theorem nodup_shareDies (shares : List Byte) : (shareDies shares).Nodup := List.nodup_range.filter _

end Span

/-! ### The packet of the group queue -/

section GroupPacket
variable {s : State} {bar : Bool} {tag : W32} {recs : List W64} {shares : List Byte} {n base : W64}

theorem spanLaunch_unread (ho : s.grp.open_ = true) (hr : s.grp.rd ≠ s.grp.wr)
    (hb : backed (s.grp.at_ s.grp.rd) 64 = false ∨ isPois s (s.grp.at_ s.grp.rd) 64 = true) :
    exec (.spanLaunch bar tag recs shares n base) s = .next (groupBad s 5) := by
  show execSpanLaunch bar tag recs shares n base s = _
  unfold execSpanLaunch
  have hb' : (!backed (s.grp.at_ s.grp.rd) 64 || isPois s (s.grp.at_ s.grp.rd) 64) = true := by simpa using hb
  simp only [ho, beq_eq_false_iff_ne.mpr hr, hb', Bool.not_true, Bool.or_self, Bool.false_eq_true, if_false, if_true]

/-- The packet of the group queue is read, and no barrier holds it. -/
def GroupReads (s : State) : Prop :=
  s.grp.open_ = true ∧ s.grp.rd ≠ s.grp.wr ∧ backed (s.grp.at_ s.grp.rd) 64 = true ∧ isPois s (s.grp.at_ s.grp.rd) 64 = false ∧
    groupBusy s (s.grp.at_ s.grp.rd) = false ∧ (bitAt (rdN s (s.grp.at_ s.grp.rd + 2) 1) 0 = true → s.grp.outst = [])

/-- VX reads the packet, and refuses one that is not legal or whose shares do not add up; else it writes the shares. -/
theorem exec_spanLaunch (h : GroupReads s) :
    (∀ code, spanOfPacket (rdBytes s (s.grp.at_ s.grp.rd) 64) = .error code → exec (.spanLaunch bar tag recs shares n base) s = .next (groupBad s code)) ∧
    (spanOfPacket (rdBytes s (s.grp.at_ s.grp.rd) 64) = .ok (.spanLaunch bar tag recs shares n base) →
      (sumN (shares.map (·.toNat)) ≠ 256 → exec (.spanLaunch bar tag recs shares n base) s = .next (groupBad s 0x0B)) ∧
      ∀ u, sumN (shares.map (·.toNat)) = 256 →
        putShares s.nextId recs shares tag n base (shareDies shares) { s with nextId := s.nextId + 1, grp := { s.grp with rd := s.grp.rd + 1 } } = .ok u →
        exec (.spanLaunch bar tag recs shares n base) s = .next u) := by
  obtain ⟨ho, hr, hb, hp, hg, hbar⟩ := h
  have barred : (bitAt (rdN s (s.grp.at_ s.grp.rd + 2) 1) 0 && !s.grp.outst.isEmpty) = false := by
    rw [Bool.and_eq_false_imp]
    intro hbit
    rw [hbar hbit]
    rfl
  have hexec : exec (.spanLaunch bar tag recs shares n base) s = execSpanLaunch bar tag recs shares n base s := rfl
  rw [hexec]
  unfold execSpanLaunch
  simp only [ho, beq_eq_false_iff_ne.mpr hr, hb, hp, hg, barred, Bool.not_true, Bool.or_self, Bool.false_eq_true, if_false]
  refine ⟨fun code hc => by rw [hc], fun hi => ⟨fun hsum => ?_, fun u hsum hu => ?_⟩⟩
  · simp only [hi, bne_self_eq_false, Bool.false_eq_true, if_false, bne_iff_ne.mpr hsum, if_true]
  · simp only [hi, bne_self_eq_false, Bool.false_eq_true, if_false, hsum, hu]

theorem spanLaunch_shares {u : State}
    (hu : putShares s.nextId recs shares tag n base (shareDies shares) { s with nextId := s.nextId + 1, grp := { s.grp with rd := s.grp.rd + 1 } } = .ok u) :
    u.grp.rd = s.grp.rd + 1 ∧ ∀ d, d ∈ shareDies shares → d < s.dies.length → Shared s u recs shares n base d := by
  obtain ⟨keeps, has⟩ := putShares_shared (nodup_shareDies shares) hu
  exact ⟨congrArg HQueue.rd keeps.grp, fun d hd hlt => has d hd hlt⟩

end GroupPacket

end Sys2Proof.Machine
end

section
/-! PROOFS. Key spaces that the host creates and removes (R102, R388, R389, R458), and O49. -/

namespace Sys2Proof.Machine

/-! ### Writes of agents keep the table of key spaces -/

/-- Between `s` and `t` no key space has changed. -/
def SameSpaces (s t : State) : Prop := t.spaces = s.spaces

theorem SameSpaces.refl (s : State) : SameSpaces s s := rfl

theorem SameSpaces.trans {s t u : State} (h : SameSpaces s t) (k : SameSpaces t u) : SameSpaces s u := Eq.trans k h

theorem SameSpaces.foldl {α : Type} {g : State → α → State} (hg : ∀ s a, SameSpaces s (g s a)) (l : List α) (s : State) : SameSpaces s (l.foldl g s) :=
  foldl_keeps (P := SameSpaces s) (fun _ a h => h.trans (hg _ a)) l s (.refl s)

theorem wrRaw_sameSpaces (s : State) (pa : Nat) (bs : List Byte) : SameSpaces s (wrRaw s pa bs) := by
  induction bs generalizing s pa with
  | nil => exact .refl s
  | cons b t ih => exact ih (wrB s pa b) _

theorem wrBytes_sameSpaces (s : State) (pa : Nat) (bs : List Byte) : SameSpaces s (wrBytes s pa bs) :=
  wrRaw_sameSpaces (noteWrite (noteWrite s pa (rdBytes s pa bs.length)) pa bs) pa bs

theorem orEntry_sameSpaces (s : State) (at_ bit : Nat) : SameSpaces s (orEntry s at_ bit) := by
  unfold orEntry
  dsimp only
  split
  · exact .refl s
  · exact wrBytes_sameSpaces _ _ _

theorem touchEntries_sameSpaces (s : State) (used : List Nat) (at_ : Nat) (wt : Want) : SameSpaces s (touchEntries s used at_ wt) := by
  have hac : SameSpaces s (used.foldl (fun s a => orEntry s a 4) s) := .foldl (fun s a => orEntry_sameSpaces s a 4) used s
  match wt with
  | .r | .x | .m => exact hac
  | .w | .at | .rp => exact hac.trans (orEntry_sameSpaces _ _ _)

theorem xlat_sameSpaces {s t : State} {d va : Nat} {wt : Want} {p : Phys} (h : xlat s d va wt = .ok (t, p)) : SameSpaces s t := by
  unfold xlat at h
  split at h
  · cases h
  · cases h
  · split at h <;> cases h
    exact touchEntries_sameSpaces _ _ _ _

theorem aliasPut_sameSpaces (s : State) (e : AliasEnt) (blk : Nat) (vs : List FV) : SameSpaces s (aliasPut s e blk vs) :=
  SameSpaces.trans (t := wrB s _ _) rfl (.foldl (fun _ _ => wrBytes_sameSpaces _ _ _) _ _)

theorem aliasWrite_sameSpaces {s t : State} {pa : Nat} {bs : List Byte} {p : Bool} (h : aliasWrite s pa bs p = some t) : SameSpaces s t := by
  unfold aliasWrite at h
  obtain ⟨e, -, rfl⟩ := Option.map_eq_some_iff.mp h
  refine (aliasPut_sameSpaces s e _ _).trans (.foldl (fun u r => ?_) _ _)
  split <;> exact rfl

theorem writeChunk_sameSpaces {s t : State} {a : Agent} {va : Nat} {bs : List Byte} {po : Bool} {wt : Want} (ha : a.core = none)
    (h : writeChunk s a va bs po wt = .ok t) : SameSpaces s t := by
  unfold writeChunk xlatA at h
  simp only [ha] at h
  cases hx : xlat s a.die va wt with
  | error e => simp [hx, bind, Except.bind] at h
  | ok v =>
    obtain ⟨u, p⟩ := v
    have hu : SameSpaces s (letGo u a.who va) := (xlat_sameSpaces hx).trans rfl
    simp only [hx, bind, Except.bind, pure, Except.pure, throw, throwThe, MonadExceptOf.throw] at h
    split at h
    · cases h
    · split at h
      · split at h <;> cases h
        rename_i hv
        exact hu.trans (aliasWrite_sameSpaces hv)
      · cases h
        split <;> exact hu.trans (wrBytes_sameSpaces _ _ _)

theorem vwriteFuel_sameSpaces {po : Bool} {wt : Want} {f : Nat} {s t : State} {a : Agent} {va : Nat} {bs : List Byte} (ha : a.core = none)
    (h : vwriteFuel po wt f s a va bs = .ok t) : SameSpaces s t := by
  induction f generalizing s va bs with
  | zero =>
    cases h
    exact .refl _
  | succ f ih =>
    unfold vwriteFuel at h
    split at h
    · cases h
      exact .refl _
    · cases hc : writeChunk s a va (bs.take (min bs.length (64 - va % 64))) po wt with
      | error e => simp [hc, bind, Except.bind] at h
      | ok u =>
        simp only [hc, bind, Except.bind] at h
        exact (writeChunk_sameSpaces ha hc).trans (ih h)

theorem drainW_sameSpaces (l : List (Nat × Nat × List Byte)) (s : State) (left : List (Nat × Nat × List Byte)) : SameSpaces s (drainW l s left) := by
  induction l generalizing s left with
  | nil => exact rfl
  | cons e l ih =>
    unfold drainW
    split
    · exact ih s _
    · split
      · rename_i u hu
        exact (vwriteFuel_sameSpaces rfl hu).trans (ih u left)
      · exact ih s _
      · exact ih s _

theorem agentWrite_sameSpaces (s : State) (d va : Nat) (bs : List Byte) : SameSpaces s (agentWrite s d va bs) := by
  unfold agentWrite flushDir
  split
  · exact rfl
  · exact drainW_sameSpaces _ _ _

/-! ### The images and the multicast group of a new space (R104, R105, R458) -/

theorem putIndex_sameSpaces (s : State) (sp j : Nat) : SameSpaces s (putIndex s sp j) := by
  unfold putIndex
  split
  · exact .refl s
  · split
    · exact .refl s
    · exact agentWrite_sameSpaces _ _ _ _

theorem syncSpace_sameSpaces (s : State) (sp : Nat) : SameSpaces s (syncSpace s sp) := by
  unfold syncSpace
  split
  · exact .refl s
  · exact (SameSpaces.foldl (fun _ _ => agentWrite_sameSpaces _ _ _ _) _ _).trans (.foldl (fun _ _ => putIndex_sameSpaces _ _ _) _ _)

theorem putImage_sameSpaces (s : State) (sp : Nat) : SameSpaces s (putImage s sp) := by
  unfold putImage
  split
  · exact .foldl (fun _ _ => agentWrite_sameSpaces _ _ _ _) _ _
  · exact .refl s

theorem setGroup_sameSpaces (s : State) (x : Space) (g : Nat) : SameSpaces s (setGroup s x g) := by
  refine .foldl (fun t d => ?_) _ _
  unfold setGroupAt
  split <;> exact rfl

theorem clearGroup_sameSpaces (s : State) (x : Space) (g : Nat) : SameSpaces s (clearGroup s x g) := by
  refine .foldl (fun t d => ?_) _ _
  exact rfl

/-! ### The space that a descriptor creates (R388) -/

/-- The record of key `k` in a new space, which its part takes from its pools. -/
def firstRec (x : Space) (lv0 : Nat) (k : W64) : KRec :=
  let j := partOf x.cuts k
  let i := (x.recs.filter (fun (e : Nat × KRec) => e.2.part == j)).length
  { key := k, part := j, rix := i, slot := slotAddr x j i, sto := j, sti := i, st := if keyLv k == lv0 then 1 else 2
    otgt := partTgt x j, efmt := x.efmt, dsize := BitVec.ofNat 32 ((dsizeOf x x.efmt.toNat).getD 0), per := touchesPer x k }

/-- A new space with one record more. -/
def withFirstRec (lv0 : Nat) (x : Space) (k : W64) : Space :=
  ((x.addRec (firstRec x lv0 k)).1).modPart (partOf x.cuts k) (fun p =>
    { p with recFree := p.recFree.filter (· != (firstRec x lv0 k).rix), slotFree := p.slotFree.filter (· != (partOf x.cuts k, (firstRec x lv0 k).rix)) })

theorem firstRecs_eq_foldl (x : Space) (lv0 : Nat) (keys : List W64) : firstRecs x lv0 keys = keys.foldl (withFirstRec lv0) x := rfl

/-- `x` is the described space `x0` with records of keys of `keys`, of which those at the initial level are leaves. -/
structure Begun (x0 x : Space) (lv0 : Nat) (keys : List W64) : Prop where
  dim : x.dim = x0.dim
  home : x.home = x0.home
  elems : x.elems = x0.elems
  slot : x.slot = x0.slot
  parts : x.parts.length = x0.parts.length
  recs : ∀ e ∈ x.recs, e.2.key ∈ keys ∧ (e.2.st = 1 ↔ keyLv e.2.key = lv0)

theorem firstRec_st (x : Space) (lv0 : Nat) (k : W64) : (firstRec x lv0 k).st = 1 ↔ keyLv k = lv0 := by
  by_cases h : keyLv k = lv0 <;> simp [firstRec, h]

theorem Begun.withFirstRec {x0 x : Space} {lv0 : Nat} {keys : List W64} {k : W64} (h : Begun x0 x lv0 keys) (hk : k ∈ keys) :
    Begun x0 (withFirstRec lv0 x k) lv0 keys where
  dim := h.dim
  home := h.home
  elems := h.elems
  slot := h.slot
  parts := (length_listMod _ _ _).trans h.parts
  recs := fun e he => by
    obtain rfl | he := Tab.mem_set he
    · exact ⟨hk, firstRec_st x lv0 k⟩
    · exact h.recs e he

theorem firstRecs_begun {x0 : Space} (lv0 : Nat) (keys : List W64) (h : x0.recs = []) : Begun x0 (firstRecs x0 lv0 keys) lv0 keys := by
  rw [firstRecs_eq_foldl]
  refine List.foldlRecOn (motive := fun x => Begun x0 x lv0 keys) _ _ ⟨rfl, rfl, rfl, rfl, rfl, fun e he => ?_⟩ (fun x hx k hk => hx.withFirstRec hk)
  rw [h] at he
  cases he

theorem createSpace_begun {s t : State} {d sp : Nat} {b : List Byte} (h : createSpace s d sp b = some t) :
    ∃ x, Tab.get? t.spaces sp = some x ∧ x.home = d ∧
      Begun (spaceOfDesc b) x (fieldAt b 6 1) (treeKeys sp (spaceOfDesc b).dim (fieldAt b 6 1) 0 0) := by
  unfold createSpace at h
  dsimp only at h
  split at h
  · cases h
  rename_i legal
  have home : (spaceOfDesc b).home = d := by
    by_contra hne
    exact legal (by simp [bne_iff_ne.mpr hne])
  split at h
  · cases h
  split at h
  · cases h
  cases h
  have begun := firstRecs_begun (x0 := spaceOfDesc b) (fieldAt b 6 1) (treeKeys sp (spaceOfDesc b).dim (fieldAt b 6 1) 0 0) rfl
  refine ⟨{ firstRecs (spaceOfDesc b) (fieldAt b 6 1) (treeKeys sp (spaceOfDesc b).dim (fieldAt b 6 1) 0 0) with sid := s.fresh.1 }, ?_,
    begun.home.trans home, ⟨begun.dim, begun.home, begun.elems, begun.slot, begun.parts, begun.recs⟩⟩
  have kept := ((syncSpace_sameSpaces (s.fresh.2.setSpace sp { firstRecs (spaceOfDesc b) (fieldAt b 6 1)
    (treeKeys sp (spaceOfDesc b).dim (fieldAt b 6 1) 0 0) with sid := s.fresh.1 }) sp).trans (putImage_sameSpaces _ sp)).trans
    (setGroup_sameSpaces _ (spaceOfDesc b) (16 + sp))
  refine (congrArg (fun t => Tab.get? t sp) kept).trans ?_
  rw [State.setSpace_spaces, Tab.get?_set, if_pos rfl]

section Create
variable {s s1 : State} {d q : Nat} {bar : Bool} {tag : W32} {desc : W64} {sp : Byte} {b : List Byte}

theorem exec_spaceCreate (h : InBeat s d q (.spaceCreate d q bar tag desc sp))
    (hb : readDesc (parsed s d q (.spaceCreate d q bar tag desc sp)) d desc.toNat = .ok (s1, some b)) :
    exec (.spaceCreate d q bar tag desc sp) s = .next ((createSpace s1 d sp.toNat b).getD (queueError s1 d q 8 tag (rdOf s d q) 0)) :=
  next_withPacket h (by simp only [hb])

theorem spaceCreate_creates {s2 : State} (h : InBeat s d q (.spaceCreate d q bar tag desc sp))
    (hb : readDesc (parsed s d q (.spaceCreate d q bar tag desc sp)) d desc.toNat = .ok (s1, some b)) (hc : createSpace s1 d sp.toNat b = some s2) :
    exec (.spaceCreate d q bar tag desc sp) s = .next s2 ∧ ∃ x, Tab.get? s2.spaces sp.toNat = some x ∧
      x.dim = fieldAt b 0 1 ∧ x.home = d ∧ x.home = fieldAt b 3 1 ∧ x.elems = fieldAt b 8 4 ∧ x.slot = fieldAt b 12 4 ∧
      x.parts.length = fieldAt b 4 1 + 1 ∧
      ∀ e ∈ x.recs, e.2.key ∈ treeKeys sp.toNat x.dim (fieldAt b 6 1) 0 0 ∧ (e.2.st = 1 ↔ keyLv e.2.key = fieldAt b 6 1) := by
  rw [exec_spaceCreate h hb, hc]
  obtain ⟨x, hx, home, begun⟩ := createSpace_begun hc
  have parts : (spaceOfDesc b).parts.length = fieldAt b 4 1 + 1 := by simp [spaceOfDesc]
  refine ⟨rfl, x, hx, begun.dim, home, begun.home, begun.elems, begun.slot, begun.parts.trans parts, ?_⟩
  rw [begun.dim]
  exact begun.recs

theorem spaceCreate_refused (h : InBeat s d q (.spaceCreate d q bar tag desc sp))
    (hb : readDesc (parsed s d q (.spaceCreate d q bar tag desc sp)) d desc.toNat = .ok (s1, some b)) (hc : createSpace s1 d sp.toNat b = none) :
    exec (.spaceCreate d q bar tag desc sp) s = .next (queueError s1 d q 8 tag (rdOf s d q) 0) := by
  rw [exec_spaceCreate h hb, hc]
  rfl

end Create

/-! ### The removal of a space (R389) -/

/-- A `SPACE_DESTROY` that has been parsed waits for its space. -/
def destroyWaits (s : State) (d q : Nat) (tag : W32) (sp : Byte) (i : Instr) : State :=
  (packetOpen (parsed s d q i) d q (rdOf s d q)).modDie d (fun x => { x with destroyQ := x.destroyQ ++ [⟨sp.toNat, q, tag, rdOf s d q⟩] })

theorem tryDestroy_idle {s : State} {d : Nat} {r : DestroyReq} {x : Space} (h : Tab.get? s.spaces r.sp = some x) (hi : spaceIdle x = true) :
    Tab.get? (tryDestroy s d r).spaces r.sp = none := by
  have ended : SameSpaces { s with spaces := Tab.erase s.spaces r.sp } (tryDestroy s d r) := by
    unfold tryDestroy
    simp only [h, hi, if_true]
    exact (clearGroup_sameSpaces _ x _).trans rfl
  exact (congrArg (fun t => Tab.get? t r.sp) ended).trans (by rw [Tab.get?_erase, if_pos rfl])

theorem tryDestroy_held {s : State} {d : Nat} {r : DestroyReq} {x : Space} (h : Tab.get? s.spaces r.sp = some x) (hi : spaceIdle x = false) :
    tryDestroy s d r = s := by
  unfold tryDestroy
  simp only [h, hi, Bool.false_eq_true, if_false]

section Destroy
variable {s : State} {d q : Nat} {bar : Bool} {tag : W32} {sp : Byte} {i : Instr} {x : Space}

theorem spaces_destroyWaits : (destroyWaits s d q tag sp i).spaces = (beatOf s d).spaces := by
  simp [destroyWaits, packetOpen, parsed]

theorem length_packetOpen (s : State) (d q : Nat) (rd : W32) : (packetOpen s d q rd).dies.length = s.dies.length := length_listMod _ _ _

theorem leftOpen_destroyWaits (h : InBeat s d q i) : LeftOpen s (destroyWaits s d q tag sp i) d q := by
  have opened : LeftOpen s (packetOpen (parsed s d q i) d q (rdOf s d q)) d q := leftOpen_packetOpen h h.die_lt_parsed rfl
  have same : (destroyWaits s d q tag sp i).queue d q = (packetOpen (parsed s d q i) d q (rdOf s d q)).queue d q := by
    unfold destroyWaits
    exact queue_modDie (fun _ => rfl)
  unfold LeftOpen at opened ⊢
  rwa [same]

theorem destroyQ_destroyWaits (h : InBeat s d q i) : ⟨sp.toNat, q, tag, rdOf s d q⟩ ∈ ((destroyWaits s d q tag sp i).die d).destroyQ := by
  rw [destroyWaits, die_modDie_same (by rw [length_packetOpen]; exact h.die_lt_parsed)]
  exact List.mem_append_right _ (List.mem_singleton_self _)

theorem exec_spaceDestroy (h : InBeat s d q (.spaceDestroy d q bar tag sp)) (hn : ∀ r ∈ (s.die d).destroyQ, ¬ (r.queue = q ∧ r.tag = tag ∧ r.sp = sp.toNat)) :
    exec (.spaceDestroy d q bar tag sp) s =
      .next (tryDestroy (destroyWaits s d q tag sp (.spaceDestroy d q bar tag sp)) d ⟨sp.toNat, q, tag, rdOf s d q⟩) := by
  have none_waits : (s.die d).destroyQ.find? (fun r => r.queue == q && r.tag == tag && r.sp == sp.toNat) = none := by
    rw [List.find?_eq_none]
    intro r hr
    simpa [and_assoc] using hn r hr
  show execSpaceDestroy d q bar tag sp s = _
  unfold execSpaceDestroy
  rw [none_waits]
  exact next_withPacket h rfl

theorem spaceDestroy_idle (h : InBeat s d q (.spaceDestroy d q bar tag sp)) (hn : ∀ r ∈ (s.die d).destroyQ, ¬ (r.queue = q ∧ r.tag = tag ∧ r.sp = sp.toNat))
    (hx : Tab.get? (beatOf s d).spaces sp.toNat = some x) (hi : spaceIdle x = true) :
    ∃ t, exec (.spaceDestroy d q bar tag sp) s = .next t ∧ Tab.get? t.spaces sp.toNat = none :=
  ⟨_, exec_spaceDestroy h hn, tryDestroy_idle (r := ⟨sp.toNat, q, tag, rdOf s d q⟩) (by rw [spaces_destroyWaits]; exact hx) hi⟩

theorem spaceDestroy_held (h : InBeat s d q (.spaceDestroy d q bar tag sp)) (hn : ∀ r ∈ (s.die d).destroyQ, ¬ (r.queue = q ∧ r.tag = tag ∧ r.sp = sp.toNat))
    (hx : Tab.get? (beatOf s d).spaces sp.toNat = some x) (hi : spaceIdle x = false) :
    ∃ t, exec (.spaceDestroy d q bar tag sp) s = .next t ∧ Tab.get? t.spaces sp.toNat = some x ∧ LeftOpen s t d q ∧
      ⟨sp.toNat, q, tag, rdOf s d q⟩ ∈ (t.die d).destroyQ := by
  rw [exec_spaceDestroy h hn, tryDestroy_held (by rw [spaces_destroyWaits]; exact hx) hi]
  exact ⟨_, rfl, by rw [spaces_destroyWaits]; exact hx, leftOpen_destroyWaits h, destroyQ_destroyWaits h⟩

end Destroy

/-- Settles O49, clause by clause: what each packet does is said once in the state that its parsing leaves, which differs from its beat's in the queue's `rd`
and the beat. -/
theorem packets : Obligations.Packets := by
  unfold Obligations.Packets
  refine ⟨fun s i d q => packet_waits_turn, fun s d q bar tag => nopPacket_parsed, ?signal, ?wait, fun s s1 d q v w => waitSignalMet_reads,
    fun s d q w => waitSignalMet_ends, fun s d q bar tag r => launch_pools, ?group, fun s s1 s2 span d tag recs shares n base => putShare_mem, ?copy, ?move,
    ?create, fun s d q bar tag sp x h hn hx => ⟨spaceDestroy_idle h hn hx, spaceDestroy_held h hn hx⟩, fun s d q bar tag base lsz mask => eventConfig_configures⟩
  case signal =>
    rintro s s1 d q bar tag addr val ex p i rfl h hx hr ha hp hh
    exact signal_written h hx hr ha hp hh
  case wait =>
    rintro s s1 d q v bar tag addr val cond i rfl h hv
    exact waitSignal_reads h hv
  case group =>
    rintro s bar tag recs shares n base pa ho hr rfl
    refine ⟨spanLaunch_unread ho hr, fun hb hp hg hbar => ?_⟩
    obtain ⟨refused, legal⟩ := exec_spanLaunch (bar := bar) (tag := tag) (recs := recs) (shares := shares) (n := n) (base := base) ⟨ho, hr, hb, hp, hg, hbar⟩
    exact ⟨refused, fun hi => ⟨(legal hi).1, fun u hsum hu => ⟨(legal hi).2 u hsum hu, spanLaunch_shares hu⟩⟩⟩
  case copy =>
    rintro s d q bar tag dst src len cwa cwv i rfl h
    exact copy_added h
  case move =>
    rintro s d q bar tag va dst npg psz flg cwa cwv i bad rfl h hb
    exact pageMove_added h hb
  case create =>
    rintro s s1 d q bar tag desc sp b i rfl - h hb
    exact ⟨fun s2 => spaceCreate_creates h hb, spaceCreate_refused h hb⟩

end Sys2Proof.Machine
end

section
/-! PROOFS. Stores and loads at their home (R33, R34, R132, R133, R297, R430), and O5. -/

namespace Sys2Proof.Machine

/-! ### What the bytes of a write and the choices of a read leave unchanged -/

theorem wrRaw_eq (s : State) (pa : Nat) (bs : List Byte) : wrRaw s pa bs = { s with mem := (wrRaw s pa bs).mem } := by
  induction bs generalizing s pa with
  | nil => rfl
  | cons b t ih =>
    rw [wrRaw, ih]
    rfl

theorem wrBytes_eq (s : State) (pa : Nat) (bs : List Byte) :
    wrBytes s pa bs = { s with mem := (wrBytes s pa bs).mem, poison := (wrBytes s pa bs).poison, hist := (wrBytes s pa bs).hist } := by
  unfold wrBytes
  rw [wrRaw_eq]
  rfl

theorem readAs_eq (s : State) (pa : Nat) (bs : List Byte) : (readAs s pa bs).2 = { s with freeIx := (readAs s pa bs).2.freeIx } := by
  induction bs generalizing s pa with
  | nil => rfl
  | cons b t ih =>
    unfold readAs
    split
    · exact ih _ _
    · rfl

theorem length_readAs (s : State) (pa : Nat) (bs : List Byte) : (readAs s pa bs).1.length = bs.length := by
  induction bs generalizing s pa with
  | nil => rfl
  | cons b t ih =>
    unfold readAs
    split
    · exact congrArg (· + 1) (ih _ _)
    · rfl

/-- A read of a page that keeps its guarantees finds the bytes that are there. -/
theorem readAs_of_not_loose {s : State} {pa : Nat} (bs : List Byte) (h : loose s pa = false) : readAs s pa bs = (bs, s) := by
  cases bs with
  | nil => rfl
  | cons b t =>
    unfold readAs
    rw [if_neg (by simp [h])]

/-- Each byte that a read finds is one that its location has held (R133). -/
theorem readAs_everAt {s : State} {pa : Nat} {bs : List Byte} (h : ∀ i b, bs[i]? = some b → b ∈ everAt s (pa + i)) :
    ∀ i b, (readAs s pa bs).1[i]? = some b → b ∈ everAt s (pa + i) := by
  induction bs generalizing s pa with
  | nil => exact h
  | cons b t ih =>
    unfold readAs
    split
    · have hb : b ∈ everAt s pa := h 0 b rfl
      have rest := ih (s := (s.takeNat (b :: everAt s pa).length).2) (pa := pa + 1)
        (fun i c hc => by rw [Nat.add_assoc, Nat.add_comm 1]; exact h (i + 1) c hc)
      have chosen : ∀ k : Nat, ((b :: everAt s pa)[k]?).getD b ∈ everAt s pa := fun k => by
        cases hl : (b :: everAt s pa)[k]? with
        | none => exact hb
        | some x =>
          obtain rfl | hx := List.mem_cons.mp (List.mem_of_getElem? hl)
          · exact hb
          · exact hx
      intro i c hc
      cases i with
      | zero =>
        obtain rfl := Option.some.inj hc
        exact chosen _
      | succ i =>
        have hx := rest i c hc
        rwa [Nat.add_assoc, Nat.add_comm 1] at hx
    · exact h

theorem length_rdBytes (s : State) (pa n : Nat) : (rdBytes s pa n).length = n := by simp [rdBytes]

theorem rdBytes_everAt {s : State} {pa n : Nat} : ∀ i b, (rdBytes s pa n)[i]? = some b → b ∈ everAt s (pa + i) := by
  intro i b h
  rw [rdBytes, List.getElem?_map] at h
  obtain ⟨k, hk, rfl⟩ := Option.map_eq_some_iff.mp h
  obtain ⟨_, rfl⟩ := List.getElem?_eq_some_iff.mp hk
  rw [List.getElem_range]
  exact List.mem_cons_self

/-! ### A request that its home performs -/

section Home
variable {s : State} {a : Acc}

theorem exec_homeRequest (h : InFlight s a) (hs : a.st = .home) (hp : a.kind.writes = true → pathHeld s a = false)
    (ho : port s a.frag.die a.route a.pa a.exempt = .ok) (hb : frameBusy s a.pa = false) : exec (.homeRequest a.id) s = .next (performHome s a) := by
  have free : (!(a.kind.writes && pathHeld s a)) = true := by
    cases hw : a.kind.writes
    · rfl
    · rw [hp hw]
      rfl
  have hexec : exec (.homeRequest a.id) s = .next (homeAcc s a) := by
    show execHomeRequest a.id s = _
    unfold execHomeRequest
    rw [show s.acc? a.id = some a from h]
    simp only [hs] <;> rfl
  rw [hexec]
  unfold homeAcc
  simp only [hs, free, ho, hb] <;> rfl

/-- The state in which a store has written its bytes, with their poison. -/
def storedAt (s : State) (a : Acc) : State :=
  if a.vpois then setPois (wrBytes s a.pa (leBytes a.n a.val.toNat)) a.pa a.n else wrBytes s a.pa (leBytes a.n a.val.toNat)

theorem storedAt_mem (s : State) (a : Acc) : (storedAt s a).mem = (wrBytes s a.pa (leBytes a.n a.val.toNat)).mem := by
  unfold storedAt
  split <;> rfl

theorem storedAt_eq (s : State) (a : Acc) :
    storedAt s a = { s with mem := (storedAt s a).mem, poison := (storedAt s a).poison, hist := (storedAt s a).hist } := by
  unfold storedAt
  split
  · conv_lhs => rw [wrBytes_eq]
    rfl
  · exact wrBytes_eq _ _ _

theorem rdB_storedAt (s : State) (a : Acc) (x : Nat) :
    rdB (storedAt s a) x = if a.pa ≤ x ∧ x < a.pa + a.n then BitVec.ofNat 8 (a.val.toNat / 256 ^ (x - a.pa)) else rdB s x := by
  rw [rdB_of_mem (storedAt_mem s a)]
  exact rdB_wrN s a.pa x a.n a.val.toNat

theorem performHome_store (hk : a.kind = .store) (ha : a.al = false) : performHome s a = (storedAt s a).modAcc a.id (fun a => { a with st := .ack }) := by
  unfold performHome
  simp only [hk, ha] <;> rfl

theorem performHome_storeNt (hk : a.kind = .storeNt) (ha : a.al = false) :
    performHome s a = (ntMeet (storedAt s a) a).modAcc a.id (fun a => { a with st := .ack }) := by
  unfold performHome
  simp only [hk, ha] <;> rfl

/-! ### A non-temporal store and a line of its cluster's store (log entry 29) -/

/-- `t` differs from `s` at most in accesses in flight and in one line of the cluster store of `a`, which is that of its address. -/
structure MeetsLine (s t : State) (a : Acc) : Prop where
  mem : t.mem = s.mem
  stks : t.stks = s.stks
  cmds : t.cmds = s.cmds
  spaces : t.spaces = s.spaces
  lines : OtherLines s t a

theorem otherLines_of_dies {s t : State} (a : Acc) (h : t.dies = s.dies) : OtherLines s t a := by
  have die : ∀ d, t.die d = s.die d := fun d => by simp only [State.die, h]
  exact fun d => ⟨by rw [die], fun c => ⟨fun l _ => by rw [lineAt, State.cluster, die]; rfl, by rw [State.cluster, die]; rfl⟩⟩

theorem otherLines_setLine {s u : State} (a : Acc) (l : Line) (h : u.dies = s.dies) :
    OtherLines s (u.modCluster a.frag.die (a.frag.core / 8) (fun x => { x with lines := Tab.set x.lines (a.pa / 128) l })) a := by
  have die : ∀ d, u.die d = s.die d := fun d => by simp only [State.die, h]
  have cluster : ∀ d c, u.cluster d c = s.cluster d c := fun d c => by simp only [State.cluster, die]
  intro d
  refine ⟨?_, fun c => ?_⟩
  · rw [State.modCluster, die_modDie, die]
    split <;> rfl
  · by_cases hc : d = a.frag.die ∧ c = a.frag.core / 8 ∧ a.frag.die < u.dies.length
    · obtain ⟨rfl, rfl, hlt⟩ := hc
      rw [cluster_modCluster_same hlt, cluster]
      refine ⟨fun m hm => ?_, rfl⟩
      rw [lineAt, cluster_modCluster_same hlt, Tab.get?_set, if_neg (fun e => hm (by rw [e])), cluster]
      rfl
    · have same : (u.modCluster a.frag.die (a.frag.core / 8) (fun x => { x with lines := Tab.set x.lines (a.pa / 128) l })).cluster d c = s.cluster d c := by
        rw [← cluster]
        by_cases hd : d = a.frag.die ∧ a.frag.die < u.dies.length
        · obtain ⟨rfl, hlt⟩ := hd
          exact cluster_modCluster_of_ne (fun e => hc ⟨rfl, e.symm, hlt⟩)
        · unfold State.cluster State.modCluster
          rw [die_modDie, if_neg (fun e => hd ⟨e.1.symm, e.2⟩)]
      exact ⟨fun m _ => by rw [lineAt, same]; rfl, by rw [same]⟩

theorem ntMeet_meetsLine (u : State) (a : Acc) : MeetsLine u (ntMeet u a) a := by
  unfold ntMeet
  dsimp only
  split
  · split
    · exact ⟨rfl, rfl, rfl, rfl, otherLines_of_dies a rfl⟩
    · exact ⟨rfl, rfl, rfl, rfl, otherLines_setLine a _ rfl⟩
  · exact ⟨rfl, rfl, rfl, rfl, otherLines_of_dies a rfl⟩

/-- An access that waits for no fill keeps its place when lines are fetched again. -/
theorem acc?_refetch {s : State} {a : Acc} {d c : Nat} {p : Nat → Bool} (h : s.acc? a.id = some a) (hs : a.st = .home) : (refetch s d c p).acc? a.id = some a := by
  unfold State.acc? at h ⊢
  unfold refetch modFills
  rw [List.find?_map]
  have ids : ((fun x : Acc => x.id == a.id) ∘ fun x : Acc =>
      if x.frag.die == d && x.frag.core / 8 == c && p (x.pa / 128) then (match x.st with | .fill | .filled _ _ => { x with st := .fill } | _ => x) else x) =
      fun x => x.id == a.id := by
    funext x
    simp only [Function.comp_apply]
    split
    · split <;> rfl
    · rfl
  refine (congrArg (Option.map _) ((congrArg (List.find? · s.accs) ids).trans h)).trans ?_
  simp only [Option.map_some, hs, ite_self]

theorem acc?_ntMeet {u : State} (h : u.acc? a.id = some a) (hs : a.st = .home) : (ntMeet u a).acc? a.id = some a := by
  have kept := acc?_refetch (d := a.frag.die) (c := a.frag.core / 8) (p := fun x => x == a.pa / 128) h hs
  unfold ntMeet
  dsimp only
  split
  · split <;> exact kept
  · exact kept

/-! ### The clauses of O5 -/

theorem OtherLines.trans_dies {s u t : State} (h : u.dies = s.dies) (k : OtherLines u t a) : OtherLines s t a := by
  have die : ∀ d, u.die d = s.die d := fun d => by simp only [State.die, h]
  have cluster : ∀ d c, u.cluster d c = s.cluster d c := fun d c => by simp only [State.cluster, die]
  intro d
  obtain ⟨kd, kc⟩ := k d
  refine ⟨by rw [← die]; exact kd, fun c => ⟨fun l hl => ?_, by rw [← cluster]; exact (kc c).2⟩⟩
  rw [(kc c).1 l hl, lineAt, cluster]
  rfl

/-- What a store leaves once it has written its bytes and, non-temporal, met its line. -/
theorem stored_acked {t : State} (h : InFlight s a) (ht : t.acc? a.id = (storedAt s a).acc? a.id) (m : MeetsLine (storedAt s a) t a) :
    (t.modAcc a.id (fun a => { a with st := .ack })).acc? a.id = some { a with st := .ack } ∧
      (∀ x, rdB (t.modAcc a.id (fun a => { a with st := .ack })) x =
        if a.pa ≤ x ∧ x < a.pa + a.n then BitVec.ofNat 8 (a.val.toNat / 256 ^ (x - a.pa)) else rdB s x) ∧
      OtherLines s (t.modAcc a.id (fun a => { a with st := .ack })) a ∧ t.stks = s.stks ∧ t.cmds = s.cmds ∧ t.spaces = s.spaces := by
  have same := storedAt_eq s a
  have acc : (storedAt s a).acc? a.id = some a := by
    rw [same]
    exact h
  refine ⟨acc?_modAcc (ht.trans acc) (fun _ => rfl), fun x => ?_, ?_, m.stks.trans ?_, m.cmds.trans ?_, m.spaces.trans ?_⟩
  · exact (rdB_of_mem (s := storedAt s a) m.mem x).trans (rdB_storedAt s a x)
  · exact OtherLines.trans_dies (by rw [same]) m.lines
  all_goals rw [same]

theorem store_writes (h : InFlight s a) (hs : a.st = .home) (ha : a.al = false) (hk : a.kind = .store ∨ a.kind = .storeNt) (hp : pathHeld s a = false)
    (ho : port s a.frag.die a.route a.pa a.exempt = .ok) (hb : frameBusy s a.pa = false) :
    ∃ t, exec (.homeRequest a.id) s = .next t ∧ t.acc? a.id = some { a with st := .ack } ∧
      (∀ x, rdB t x = if a.pa ≤ x ∧ x < a.pa + a.n then BitVec.ofNat 8 (a.val.toNat / 256 ^ (x - a.pa)) else rdB s x) ∧
      (a.kind = .store → t.dies = s.dies) ∧ OtherLines s t a ∧ t.stks = s.stks ∧ t.cmds = s.cmds ∧ t.spaces = s.spaces := by
  rw [exec_homeRequest h hs (fun _ => hp) ho hb]
  obtain hk | hk := hk
  · rw [performHome_store hk ha]
    obtain ⟨acc, bytes, lines, rest⟩ := stored_acked (t := storedAt s a) h rfl ⟨rfl, rfl, rfl, rfl, otherLines_of_dies a rfl⟩
    exact ⟨_, rfl, acc, bytes, fun _ => by rw [State.modAcc_dies, storedAt_eq], lines, rest⟩
  · rw [performHome_storeNt hk ha]
    have flying : (storedAt s a).acc? a.id = some a := by
      rw [storedAt_eq]
      exact h
    obtain ⟨acc, bytes, lines, rest⟩ := stored_acked h ((acc?_ntMeet flying hs).trans flying.symm) (ntMeet_meetsLine (storedAt s a) a)
    exact ⟨_, rfl, acc, bytes, fun e => absurd (e.symm.trans hk) nofun, lines, rest⟩

/-- An access that has found bytes, poisoned or not. -/
def Acc.found (bs : List Byte) (p : Bool) (a : Acc) : Acc :=
  { a with val := (match a.kind with | .load sz => loadExt sz (leNat bs) | _ => BitVec.ofNat 64 (leNat bs)), vpois := p, st := .done }

theorem gotLoad_eq (ha : a.al = false) (bs : List Byte) (p : Bool) :
    gotLoad s a bs p = (readAs s a.pa bs).2.modAcc a.id (Acc.found (readAs s a.pa bs).1 p) := by
  unfold gotLoad
  simp only [ha, Bool.false_eq_true, if_false] <;> rfl

theorem gotLoad_alias (ha : a.al = true) (bs : List Byte) (p : Bool) : gotLoad s a bs p = s.modAcc a.id (Acc.found bs p) := by
  unfold gotLoad
  simp only [ha, if_true] <;> rfl

theorem Acc.found_load {sz : Sz} (hk : a.kind = .load sz) (bs : List Byte) (p : Bool) :
    a.found bs p = { a with val := loadExt sz (leNat bs), vpois := p, st := .done } := by
  unfold Acc.found
  rw [hk]

/-- A load takes the value of the bytes that it finds. -/
theorem acc?_gotLoad {sz : Sz} (h : InFlight s a) (hk : a.kind = .load sz) (ha : a.al = false) (bs : List Byte) (p : Bool) :
    (gotLoad s a bs p).acc? a.id = some { a with val := loadExt sz (leNat (readAs s a.pa bs).1), vpois := p, st := .done } := by
  have flying : (readAs s a.pa bs).2.acc? a.id = some a := by
    rw [readAs_eq]
    exact h
  rw [gotLoad_eq ha, acc?_modAcc (g := Acc.found (readAs s a.pa bs).1 p) flying (fun _ => rfl), Acc.found_load hk]

theorem load_reads {sz : Sz} (h : InFlight s a) (hs : a.st = .home) (ha : a.al = false) (hk : a.kind = .load sz)
    (ho : port s a.frag.die a.route a.pa a.exempt = .ok) (hb : frameBusy s a.pa = false) :
    ∃ t bs, exec (.homeRequest a.id) s = .next t ∧
      t.acc? a.id = some { a with val := loadExt sz (leNat bs), vpois := isPois s a.pa a.n, st := .done } ∧
      bs.length = a.n ∧ (loose s a.pa = false → bs = rdBytes s a.pa a.n) ∧ (∀ i b, bs[i]? = some b → b ∈ everAt s (a.pa + i)) ∧
      t.mem = s.mem ∧ t.dies = s.dies ∧ t.stks = s.stks := by
  have reads : performHome s a = gotLoad s a (rdBytes s a.pa a.n) (isPois s a.pa a.n) := by
    unfold performHome
    simp only [hk, ha] <;> rfl
  have same := readAs_eq s a.pa (rdBytes s a.pa a.n)
  refine ⟨_, (readAs s a.pa (rdBytes s a.pa a.n)).1, (exec_homeRequest h hs (fun w => ?_) ho hb).trans (congrArg _ reads), acc?_gotLoad h hk ha _ _,
    (length_readAs _ _ _).trans (length_rdBytes _ _ _), fun hl => by rw [readAs_of_not_loose _ hl], readAs_everAt rdBytes_everAt, ?_⟩
  · rw [hk] at w
    cases w
  · rw [gotLoad_eq ha]
    exact ⟨(State.modAcc_mem _ _ _).trans (by rw [same]), (State.modAcc_dies _ _ _).trans (by rw [same]), (State.modAcc_stks _ _ _).trans (by rw [same])⟩

end Home

/-- Settles O5: a store's bytes are those of its write and a load's those of its read, for which the lemmas above say what each leaves unchanged. -/
theorem storesAndLoadsAtTheirHome : Obligations.StoresAndLoadsAtTheirHome := by
  unfold Obligations.StoresAndLoadsAtTheirHome
  exact ⟨fun s a => store_writes, fun s a sz => load_reads⟩

end Sys2Proof.Machine
end

section
/-! PROOFS. Responses and results of accesses (R33, R42, R48, R49, R60, R65, R72, R137, R225, R298), and O7. -/

namespace Sys2Proof.Machine

section Event
variable {s : State} {a : Acc}

/-! ### Responses -/

theorem acc?_dropAcc (s : State) (id : Nat) : (s.dropAcc id).acc? id = none := by
  unfold State.acc? State.dropAcc
  simp [List.find?_eq_none]

theorem writeAcknowledge_store (h : InFlight s a) (hs : a.st = .ack) (hk : a.kind = .store) :
    ∃ t, exec (.writeAcknowledge a.id) s = .next t ∧ t.acc? a.id = none ∧ t.mem = s.mem := by
  refine ⟨s.dropAcc a.id, ?_, acc?_dropAcc s a.id, rfl⟩
  show execWriteAcknowledge a.id s = _
  unfold execWriteAcknowledge
  rw [show s.acc? a.id = some a from h]
  simp only [hs, hk] <;> rfl

theorem writeAcknowledge_atomic {ty : ATy} {op : AOp} (h : InFlight s a) (hs : a.st = .ack) (hk : a.kind = .atom ty op) :
    ∃ t, exec (.writeAcknowledge a.id) s = .next t ∧ t.acc? a.id = some { a with st := .done, tracked := false } := by
  refine ⟨s.modAcc a.id (fun a => { a with st := .done, tracked := false }), ?_, acc?_modAcc h (fun _ => rfl)⟩
  show execWriteAcknowledge a.id s = _
  unfold execWriteAcknowledge
  rw [show s.acc? a.id = some a from h]
  simp only [hs, hk] <;> rfl

theorem notOwner_rerouted {i : Nat} (h : InFlight s a) (hs : a.st = .notOwner) (hi : stackOf a.pa = some i) (hp : bitAt a.va 56 = true)
    (hr : a.rerouted = false) :
    ∃ t, exec (.notOwnerResponse a.id) s = .next t ∧ t.acc? a.id = some { a with st := a.again, rerouted := true, route := otherDie i a.route } := by
  refine ⟨s.modAcc a.id (fun a => { a with st := a.again, rerouted := true, route := otherDie i a.route }), ?_, acc?_modAcc h (fun _ => rfl)⟩
  show execNotOwnerResponse a.id s = _
  unfold execNotOwnerResponse
  rw [show s.acc? a.id = some a from h]
  simp only [hs, hi, hp, hr] <;> rfl

theorem notOwner_traps (h : InFlight s a) (hs : a.st = .notOwner) (hk : a.kind.isPref = false) (hr : bitAt a.va 56 = false ∨ a.rerouted = true) :
    ∃ t, exec (.notOwnerResponse a.id) s = .next t ∧ t.acc? a.id = some { a with st := .bad 3 (BitVec.ofNat 64 a.va), tracked := false } := by
  refine ⟨failAcc s a 3, ?_, (failAcc_bad h hk 3).1⟩
  have last : (bitAt a.va 56 && !a.rerouted) = false := by
    obtain hr | hr := hr <;> simp [hr]
  show execNotOwnerResponse a.id s = _
  unfold execNotOwnerResponse
  rw [show s.acc? a.id = some a from h]
  cases hi : stackOf a.pa with
  | none => simp only [hs, hi] <;> rfl
  | some i => simp only [hs, hi, last] <;> rfl

theorem movedResponse_walks (h : InFlight s a) (hs : a.st = .movedResp) :
    ∃ t, exec (.movedResponse a.id) s = .next t ∧ t.acc? a.id = some { a with st := .walk, oldPa := some a.pa } := by
  refine ⟨s.modAcc a.id (fun a => { a with st := .walk, oldPa := some a.pa }), ?_, acc?_modAcc h (fun _ => rfl)⟩
  show execMovedResponse a.id s = _
  unfold execMovedResponse
  rw [show s.acc? a.id = some a from h]
  simp only [hs] <;> rfl

theorem busyRetry_again (h : InFlight s a) (hs : a.st = .retry) :
    ∃ t, exec (.busyRetryResponse a.id) s = .next t ∧ t.acc? a.id = some { a with st := a.again } := by
  refine ⟨s.modAcc a.id (fun a => { a with st := a.again }), ?_, acc?_modAcc h (fun _ => rfl)⟩
  show execBusyRetryResponse a.id s = _
  unfold execBusyRetryResponse
  rw [show s.acc? a.id = some a from h]
  simp only [hs] <;> rfl

/-! ### A fill (R65, R70, R72) -/

/-- The line that a fill brings. -/
def Acc.fillLine (a : Acc) (data : List Byte) (ps : List Nat) : Line := { data := data, dsh := a.sl == 1, pois := ps }

/-- The state in which a fill has been installed, unless a flash followed its request. -/
def installed (s : State) (a : Acc) (l : Line) : State :=
  if a.flashed then s else l1Install (lineInstall s a.frag.die (a.frag.core / 8) (a.pa / 128) l) a.frag.die a.frag.core (a.pa / 128) l

theorem fillReturn_load {sz : Sz} {data : List Byte} {ps : List Nat} (hk : a.kind = .load sz)
    (hl : lineAt s a.frag.die (a.frag.core / 8) (a.pa / 128) = none) (h1 : ∀ e ∈ (s.core a.frag.die a.frag.core).l1, e.1 ≠ a.pa / 128) :
    fillReturn s a data ps = gotLoad (installed s a (a.fillLine data ps)) a (bytesAt data (a.pa % 128) a.n) ((a.fillLine data ps).isPois (a.pa % 128) a.n) := by
  have l1 : (s.core a.frag.die a.frag.core).l1.find? (fun e => e.1 == a.pa / 128) = none := by
    rw [List.find?_eq_none]
    exact fun e he => by simpa using h1 e he
  unfold fillReturn installed
  dsimp only
  rw [hk, hl, l1]
  cases a.flashed <;> rfl

/-- An installed line changes no memory, and neither the accesses in flight nor the uses of frames. -/
theorem installed_keeps (l : Line) (hr : a.flashed = true ∨ (s.cluster a.frag.die (a.frag.core / 8)).lines.length < csLines s a.frag.die) :
    (installed s a l).mem = s.mem ∧ (installed s a l).accs = s.accs ∧ (installed s a l).uses = s.uses := by
  unfold installed
  split
  · exact ⟨rfl, rfl, rfl⟩
  · rename_i hf
    have room : lineRoom s a.frag.die (a.frag.core / 8) (a.pa / 128) = some s := by
      unfold lineRoom
      simp [hr.resolve_left hf]
    unfold lineInstall
    rw [room]
    exact ⟨rfl, rfl, rfl⟩

theorem loose_of_uses {s t : State} (h : t.uses = s.uses) (pa : Nat) : loose t pa = loose s pa := by
  unfold loose
  rw [h]

theorem gotLoad_found {t : State} (ha : a.al = true ∨ loose t a.pa = false) (bs : List Byte) (p : Bool) :
    gotLoad t a bs p = t.modAcc a.id (Acc.found bs p) := by
  cases hal : a.al
  · rw [gotLoad_eq hal, readAs_of_not_loose _ (ha.resolve_left (by simp [hal]))]
  · exact gotLoad_alias hal bs p

theorem lineFill_delivers {sz : Sz} {data : List Byte} {ps : List Nat} (h : InFlight s a) (hs : a.st = .filled data ps) (hk : a.kind = .load sz)
    (hl : lineAt s a.frag.die (a.frag.core / 8) (a.pa / 128) = none) (h1 : ∀ e ∈ (s.core a.frag.die a.frag.core).l1, e.1 ≠ a.pa / 128)
    (ha : a.al = true ∨ loose s a.pa = false) (hr : a.flashed = true ∨ (s.cluster a.frag.die (a.frag.core / 8)).lines.length < csLines s a.frag.die) :
    ∃ t b, exec (.lineFillReturn a.id) s = .next t ∧ t.mem = s.mem ∧
      t.acc? a.id = some { a with val := loadExt sz (leNat (bytesAt data (a.pa % 128) a.n)), vpois := b, st := .done } := by
  obtain ⟨mem, accs, uses⟩ := installed_keeps (a.fillLine data ps) hr
  have hexec : exec (.lineFillReturn a.id) s = .next (fillReturn s a data ps) := by
    show execLineFillReturn a.id s = _
    unfold execLineFillReturn
    rw [show s.acc? a.id = some a from h]
    simp only [hs]
  have flying : (installed s a (a.fillLine data ps)).acc? a.id = some a := by
    rw [State.acc?, accs]
    exact h
  rw [hexec, fillReturn_load hk hl h1, gotLoad_found (by rwa [loose_of_uses uses])]
  refine ⟨_, (a.fillLine data ps).isPois (a.pa % 128) a.n, rfl, mem, ?_⟩
  rw [acc?_modAcc (g := Acc.found _ _) flying (fun _ => rfl), Acc.found_load hk]

/-! ### Results and faults (R137, R225, R298) -/

theorem Warp.thread_modThr_of_ne {w : Warp} {t j : Nat} {g : Thr → Thr} (h : j ≠ t) : (w.modThr t g).thread j = w.thread j := by
  unfold Warp.thread Warp.modThr
  rw [getElem?_listMod, if_neg (Ne.symm h)]

theorem registerResultWrite_writes {sz : Sz} {t key : Nat} {w : Warp} (h : InFlight s a) (hs : a.st = .done) (hk : a.kind = .load sz)
    (hd : a.dst = .w t key) (hd2 : a.dst2 = .none) (hq : a.acq = none) (hw : s.warp? a.frag = some w) (ht : t < w.thr.length) :
    ∃ u w', exec (.registerResultWrite a.id) s = .next u ∧ u.acc? a.id = none ∧ u.warp? a.frag = some w' ∧
      w'.thread t = (w.thread t).put key (a.val.truncate 32) a.vpois ∧ ∀ j, j ≠ t → w'.thread j = w.thread j := by
  refine ⟨(s.dropAcc a.id).modWarp a.frag (fun w => w.modThr t (fun x => x.put key (a.val.truncate 32) a.vpois)), _, ?_, acc?_dropAcc s a.id,
    (warp?_modWarp _ _ _).trans (congrArg (Option.map _) hw), Warp.thread_modThr ht, fun j hj => Warp.thread_modThr_of_ne hj⟩
  have result : a.result = a.val := by
    unfold Acc.result
    rw [hk]
    rfl
  show execRegisterResultWrite a.id s = _
  unfold execRegisterResultWrite casProgress
  rw [show s.acc? a.id = some a from h]
  simp only [hs, hk, hd, hd2, hq, result] <;> rfl

/-- An access of a fragment that has ended in a fault. -/
def Acc.faultOf (uid : Nat) (x : Acc) : Bool := x.uid == uid && (match x.st with | .bad _ _ => true | _ => false)

theorem Acc.faultOf_eq_false {x : Acc} {uid : Nat} (h : ∀ k v, x.st ≠ .bad k v) : x.faultOf uid = false := by
  unfold Acc.faultOf
  rw [Bool.and_eq_false_imp]
  intro _
  split
  · rename_i k v hst
    exact absurd hst (h k v)
  · rfl

/-- Among the accesses of a fragment one alone has faulted: that is the one that is found. -/
theorem find?_faultOf {uid cause : Nat} {info : W64} (h : InFlight s a) (hu : a.uid = uid) (hs : a.st = .bad cause info)
    (alone : ∀ x ∈ s.accs, x.uid = uid → x.id ≠ a.id → ∀ k v, x.st ≠ .bad k v) : s.accs.find? (Acc.faultOf uid) = some a := by
  obtain ⟨-, before, after, parts, first⟩ := List.find?_eq_some_iff_append.mp h
  refine List.find?_eq_some_iff_append.mpr ⟨by simp [Acc.faultOf, hu, hs], before, after, parts, fun x hx => ?_⟩
  have hne : x.id ≠ a.id := by simpa using first x hx
  have hmem : x ∈ s.accs := by
    rw [parts]
    exact List.mem_append_left _ hx
  by_cases hxu : x.uid = uid
  · rw [Acc.faultOf_eq_false (alone x hmem hxu hne)]
    rfl
  · simp [Acc.faultOf, hxu]

/-- A fragment in which a fault has been recorded, or has joined the record of its word. -/
def Frag.faultedBy (a : Acc) (cause : Nat) (info : W64) (p : Frag) : Frag :=
  { p with fault := match p.fault with
      | none => some ⟨cause, info, a.word, a.seq, accMask p a⟩
      | some r => some { r with mask := if r.word == a.word then r.mask ||| accMask p a else r.mask } }

theorem exec_impreciseFaultReturn {f : FragRef} {p : Frag} {cause : Nat} {info : W64} (hp : s.frag? f = some p)
    (ha : s.accs.find? (Acc.faultOf p.uid) = some a) (hs : a.st = .bad cause info) :
    exec (.impreciseFaultReturn f) s = .next ((s.dropAcc a.id).modFrag f (Frag.faultedBy a cause info)) := by
  show execImpreciseFaultReturn f s = _
  unfold execImpreciseFaultReturn
  simp only [hp]
  split
  · rename_i none_found
    exact absurd (ha.symm.trans none_found) nofun
  · rename_i x found
    obtain rfl := Option.some.inj (found.symm.trans ha)
    simp only [hs] <;> rfl

theorem impreciseFault_recorded {p : Frag} {cause : Nat} {info : W64} (h : InFlight s a) (hp : s.frag? a.frag = some p) (hu : a.uid = p.uid)
    (hf : p.fault = none) (alone : ∀ x ∈ s.accs, x.uid = p.uid → x.id ≠ a.id → ∀ k v, x.st ≠ .bad k v) (hs : a.st = .bad cause info) :
    ∃ t q, exec (.impreciseFaultReturn a.frag) s = .next t ∧ t.acc? a.id = none ∧ t.frag? a.frag = some q ∧
      q.fault = some ⟨cause, info, a.word, a.seq, accMask p a⟩ := by
  have alive : p.occ = true := frag?_occ hp
  refine ⟨_, p.faultedBy a cause info, exec_impreciseFaultReturn hp (find?_faultOf h hu hs alone) hs, acc?_dropAcc s a.id,
    frag?_modFrag (s := s.dropAcc a.id) hp (by exact alive), ?_⟩
  unfold Frag.faultedBy
  rw [hf]

end Event

/-- Settles O7: each event by its lemma above. -/
theorem accessEvents : Obligations.AccessEvents := by
  unfold Obligations.AccessEvents
  exact ⟨fun s a => writeAcknowledge_store, fun s a ty op => writeAcknowledge_atomic, fun s a i => notOwner_rerouted, fun s a => notOwner_traps,
    fun s a => movedResponse_walks, fun s a => busyRetry_again, fun s a sz data ps => lineFill_delivers, fun s a sz t key w => registerResultWrite_writes,
    fun s a p h hp hu hf alone cause info => impreciseFault_recorded h hp hu hf alone⟩

end Sys2Proof.Machine
end

section
/-! PROOFS. Key arithmetic (R97 to R101), and O22. -/

namespace Sys2Proof.Machine

/-! ### The fields of a well-formed key (R97 to R99) -/

theorem keySp_lt (k : W64) : keySp k < 16 := Nat.mod_lt _ (by decide)

theorem keyLv_eq_mod (k : W64) : keyLv k = k.toNat % 64 := by simp [keyLv, bitsOf]

/-- A level up to the maximum leaves the path its 54 bits. -/
theorem lv_mul_dim_le {d lv : Nat} (h : lv ≤ maxLev d) : lv * d ≤ 54 := Nat.mul_le_of_le_div d lv 54 h

/-- A level below the maximum leaves room for one group more. -/
theorem child_room {d lv : Nat} (h : lv < maxLev d) : (lv + 1) * d ≤ 54 ∧ lv < 54 :=
  ⟨lv_mul_dim_le h, Nat.lt_of_lt_of_le h (Nat.div_le_self 54 d)⟩

theorem keyOkIn_iff {x : Space} {k : W64} :
    keyOkIn x k = true ↔ keyLv k ≤ maxLev x.dim ∧ bitsOf k.toNat 6 (54 - keyLv k * x.dim) = 0 := by
  simp [keyOkIn]

/-- A well-formed key is its path and its level, with nothing between them (R97, R99). -/
theorem toNat_of_keyOkIn {x : Space} {k : W64} (h : keyOkIn x k = true) :
    k.toNat = k.toNat / 2 ^ (60 - keyLv k * x.dim) * 2 ^ (60 - keyLv k * x.dim) + keyLv k := by
  obtain ⟨hl, hz⟩ := keyOkIn_iff.mp h
  have hs : 60 - keyLv k * x.dim = 6 + (54 - keyLv k * x.dim) := by have := lv_mul_dim_le hl; omega
  have hq : k.toNat / 2 ^ 6 = 2 ^ (54 - keyLv k * x.dim) * (k.toNat / 2 ^ 6 / 2 ^ (54 - keyLv k * x.dim)) := by
    have := Nat.div_add_mod (k.toNat / 2 ^ 6) (2 ^ (54 - keyLv k * x.dim))
    rw [show k.toNat / 2 ^ 6 % 2 ^ (54 - keyLv k * x.dim) = 0 from hz, Nat.add_zero] at this
    exact this.symm
  rw [Nat.div_div_eq_div_mul, ← pow_add, ← hs] at hq
  calc k.toNat = 2 ^ 6 * (k.toNat / 2 ^ 6) + k.toNat % 2 ^ 6 := (Nat.div_add_mod _ _).symm
    _ = k.toNat / 2 ^ (60 - keyLv k * x.dim) * 2 ^ (60 - keyLv k * x.dim) + keyLv k := by
      rw [hq, ← Nat.mul_assoc, ← pow_add, ← hs, Nat.mul_comm, show k.toNat % 2 ^ 6 = keyLv k from (keyLv_eq_mod k).symm]

/-! ### Parents and children (R98, R100, R101) -/

section Child
variable {x : Space} {k : W64} {c : Nat}

/-- The value of a child, in the fields of its parent: path, child index, level. -/
theorem toNat_keyChild (h : keyOkIn x k = true) (hl : keyLv k < maxLev x.dim) (hc : c < 2 ^ x.dim) :
    (keyChild x.dim k c).toNat =
      (k.toNat / 2 ^ (60 - keyLv k * x.dim) * 2 ^ x.dim + c) * 2 ^ (60 - (keyLv k + 1) * x.dim) + (keyLv k + 1) ∧
    (keyChild x.dim k c).toNat = k.toNat + c * 2 ^ (60 - (keyLv k + 1) * x.dim) + 1 := by
  obtain ⟨hm, hle⟩ := child_room hl
  have hv := toNat_of_keyOkIn h
  generalize k.toNat / 2 ^ (60 - keyLv k * x.dim) = A at hv ⊢
  generalize hM : 60 - (keyLv k + 1) * x.dim = m
  have hw : 60 - keyLv k * x.dim = x.dim + m := by rw [Nat.succ_mul] at hm hM; omega
  have hm6 : 64 ≤ 2 ^ m := Nat.pow_le_pow_right (show 0 < 2 by decide) (show 6 ≤ m by omega)
  have h64 : 2 ^ 64 = 2 ^ (64 - (x.dim + m)) * 2 ^ (x.dim + m) := by rw [← pow_add]; congr 1; omega
  rw [hw] at hv
  have hA : A + 1 ≤ 2 ^ (64 - (x.dim + m)) := by
    by_contra hn
    have : 2 ^ (64 - (x.dim + m)) * 2 ^ (x.dim + m) ≤ A * 2 ^ (x.dim + m) := Nat.mul_le_mul_right _ (by omega)
    have := k.isLt
    omega
  have hAP := Nat.mul_le_mul_right (2 ^ (x.dim + m)) hA
  have hcM : (c + 1) * 2 ^ m ≤ 2 ^ (x.dim + m) := by rw [pow_add]; exact Nat.mul_le_mul_right _ hc
  have hval : (keyChild x.dim k c).toNat = k.toNat + c * 2 ^ m + 1 := by
    rw [keyChild, if_neg hl.ne, hM, BitVec.toNat_ofNat]
    refine Nat.mod_eq_of_lt ?_
    rw [Nat.succ_mul] at hAP hcM
    omega
  refine ⟨?_, hval⟩
  rw [hval, hv, Nat.add_mul, Nat.mul_assoc, ← pow_add]
  omega

theorem keyLv_keyChild (h : keyOkIn x k = true) (hl : keyLv k < maxLev x.dim) (hc : c < 2 ^ x.dim) :
    keyLv (keyChild x.dim k c) = keyLv k + 1 := by
  obtain ⟨hm, hle⟩ := child_room hl
  have hp : 2 ^ (60 - (keyLv k + 1) * x.dim) = 2 ^ (54 - (keyLv k + 1) * x.dim) * 64 := by
    rw [show 60 - (keyLv k + 1) * x.dim = 54 - (keyLv k + 1) * x.dim + 6 by omega, pow_add]; rfl
  rw [keyLv_eq_mod (keyChild _ _ _), (toNat_keyChild h hl hc).1, hp, ← Nat.mul_assoc, Nat.mul_add_mod_self_right]
  exact Nat.mod_eq_of_lt (by omega)

/-- The child index reads back from the child (R98). -/
theorem keyGroup_keyChild (h : keyOkIn x k = true) (hl : keyLv k < maxLev x.dim) (hc : c < 2 ^ x.dim) :
    keyGroup x.dim (keyChild x.dim k c) (keyLv k + 1) = c := by
  obtain ⟨hm, hle⟩ := child_room hl
  have hlt : keyLv k + 1 < 2 ^ (60 - (keyLv k + 1) * x.dim) := by
    have h6 : 2 ^ 6 ≤ 2 ^ (60 - (keyLv k + 1) * x.dim) := Nat.pow_le_pow_right (by decide) (by omega)
    omega
  rw [keyGroup, bitsOf, (toNat_keyChild h hl hc).1, Nat.mul_comm, Nat.mul_add_div (by positivity), Nat.div_eq_of_lt hlt, Nat.add_zero,
    Nat.mul_comm, Nat.mul_add_mod, Nat.mod_eq_of_lt hc]

theorem keyOkIn_keyChild (h : keyOkIn x k = true) (hl : keyLv k < maxLev x.dim) (hc : c < 2 ^ x.dim) :
    keyOkIn x (keyChild x.dim k c) = true := by
  obtain ⟨hm, hle⟩ := child_room hl
  have hp : 2 ^ (60 - (keyLv k + 1) * x.dim) = 2 ^ 6 * 2 ^ (54 - (keyLv k + 1) * x.dim) := by
    rw [← pow_add]; congr 1; omega
  have hlt : keyLv k + 1 < 2 ^ 6 := by omega
  have hz : bitsOf (keyChild x.dim k c).toNat 6 (54 - (keyLv k + 1) * x.dim) = 0 := by
    rw [bitsOf, (toNat_keyChild h hl hc).1, hp, Nat.mul_left_comm, Nat.mul_add_div (by positivity), Nat.div_eq_of_lt hlt, Nat.add_zero, Nat.mul_mod_left]
  simp [keyOkIn, keyLv_keyChild h hl hc, hz, Nat.succ_le_of_lt hl]

/-- The parent of a child is the key (R101). -/
theorem keyParent_keyChild (h : keyOkIn x k = true) (hl : keyLv k < maxLev x.dim) (hc : c < 2 ^ x.dim) :
    keyParent x.dim (keyChild x.dim k c) = k := by
  rw [keyParent, keyLv_keyChild h hl hc, if_neg (Nat.succ_ne_zero _), keyGroup_keyChild h hl hc, (toNat_keyChild h hl hc).2]
  refine BitVec.eq_of_toNat_eq ?_
  rw [BitVec.toNat_ofNat, show ∀ a b : Nat, a + b + 1 - b - 1 = a by omega, Nat.mod_eq_of_lt k.isLt]

/-- Siblings follow in the order of their child indices (R100). -/
theorem keyChild_lt_keyChild {j : Nat} (h : keyOkIn x k = true) (hl : keyLv k < maxLev x.dim) (hc : c < 2 ^ x.dim) (hj : j < c) :
    (keyChild x.dim k j).toNat < (keyChild x.dim k c).toNat := by
  rw [(toNat_keyChild h hl hc).2, (toNat_keyChild h hl (hj.trans hc)).2]
  have := Nat.mul_lt_mul_of_pos_right hj (show 0 < 2 ^ (60 - (keyLv k + 1) * x.dim) by positivity)
  omega

end Child

/-! ### Coordinates (R98, R101) -/

theorem bitAt_eq_testBit (x i : Nat) : bitAt x i = x.testBit i := by
  rw [Nat.testBit_eq_decide_div_mod_eq, bitAt]
  by_cases h : x / 2 ^ i % 2 = 1 <;> simp [h]

/-- The `n` bits of which `b a` says whether bit `a` is set. -/
def bitSum (b : Nat → Bool) : Nat → Nat
  | 0 => 0
  | n + 1 => 2 ^ n * (b n).toNat + bitSum b n

theorem bitSum_lt (b : Nat → Bool) (n : Nat) : bitSum b n < 2 ^ n := by
  induction n with
  | zero => exact Nat.one_pos
  | succ n ih =>
    have := Nat.mul_le_mul_left (2 ^ n) (Bool.toNat_le (b n))
    rw [bitSum, pow_succ]
    omega

theorem testBit_bitSum {b : Nat → Bool} {n a : Nat} (h : a < n) : (bitSum b n).testBit a = b a := by
  induction n with
  | zero => omega
  | succ n ih =>
    rw [bitSum, Nat.testBit_two_pow_mul_add _ (bitSum_lt b n)]
    by_cases ha : a < n
    · rw [if_pos ha, ih ha]
    · obtain rfl : a = n := by omega
      cases b a <;> simp

/-- The group that the coordinates `xs` give a key of level `lv` at level `i + 1` (R98). -/
def pathGroup (d lv : Nat) (xs : List Nat) (i : Nat) : Nat := bitSum (fun a => ((xs[a]?).getD 0).testBit (lv - 1 - i)) d

/-- The first `n` groups as one number (R98). -/
def pathOf (d lv : Nat) (xs : List Nat) : Nat → Nat
  | 0 => 0
  | n + 1 => 2 ^ d * pathOf d lv xs n + pathGroup d lv xs n

theorem pathOf_lt (d lv : Nat) (xs : List Nat) (n : Nat) : pathOf d lv xs n < 2 ^ (n * d) := by
  induction n with
  | zero => simp [pathOf]
  | succ n ih =>
    have hg : pathGroup d lv xs n < 2 ^ d := bitSum_lt _ _
    have := Nat.mul_le_mul_left (2 ^ d) (Nat.succ_le_of_lt ih)
    rw [pathOf, Nat.succ_mul, pow_add, Nat.mul_comm (2 ^ (n * d))]
    rw [Nat.mul_succ] at this
    omega

theorem testBit_pathOf {d lv n i a : Nat} {xs : List Nat} (hi : i < n) (ha : a < d) :
    (pathOf d lv xs n).testBit ((n - 1 - i) * d + a) = ((xs[a]?).getD 0).testBit (lv - 1 - i) := by
  induction n with
  | zero => omega
  | succ n ih =>
    have hg : pathGroup d lv xs n < 2 ^ d := bitSum_lt _ _
    rw [pathOf, Nat.testBit_two_pow_mul_add _ hg]
    by_cases hn : i = n
    · subst hn
      simp [ha, pathGroup, testBit_bitSum ha]
    · have he : n + 1 - 1 - i = (n - 1 - i) + 1 := by omega
      rw [he, Nat.succ_mul, if_neg (by omega), show (n - 1 - i) * d + d + a - d = (n - 1 - i) * d + a by omega, ih (by omega)]

/-- One level of the path: the bits of its group at their place. -/
theorem foldl_group (b : Nat → Bool) (p acc n : Nat) :
    (List.range n).foldl (fun acc a => acc + (if b a then 2 ^ (p + a) else 0)) acc = acc + 2 ^ p * bitSum b n := by
  induction n with
  | zero => simp [bitSum]
  | succ n ih =>
    rw [List.range_succ, List.foldl_append, ih]
    cases hb : b n <;> simp [bitSum, hb, pow_add]
    ring

theorem withCoords_eq {d lv : Nat} (h : lv * d ≤ 60) (xs : List Nat) : withCoords d lv xs = 2 ^ (60 - lv * d) * pathOf d lv xs lv := by
  suffices ∀ n, n ≤ lv → (List.range n).foldl (fun acc i => (List.range d).foldl (fun acc a =>
      acc + (if bitAt ((xs[a]?).getD 0) (lv - 1 - i) then 2 ^ (60 - (i + 1) * d + a) else 0)) acc) 0 = 2 ^ (60 - n * d) * pathOf d lv xs n from
    this lv le_rfl
  intro n hn
  induction n with
  | zero => simp [pathOf]
  | succ n ih =>
    have hs := Nat.mul_le_mul_right d hn
    have hp : 60 - n * d = 60 - (n + 1) * d + d := by rw [Nat.succ_mul] at hs ⊢; omega
    rw [List.range_succ, List.foldl_append, ih (by omega)]
    simp only [List.foldl_cons, List.foldl_nil, bitAt_eq_testBit]
    rw [foldl_group (fun a => ((xs[a]?).getD 0).testBit (lv - 1 - n)), pathOf, pathGroup, hp, pow_add]
    ring

/-- The value of a key made of coordinates: space, path, level (R97, R101). -/
theorem toNat_keyMake {sp d lv : Nat} {xs : List Nat} (hs : sp < 16) (hl : lv ≤ maxLev d) :
    (keyMake sp d lv xs).toNat = 2 ^ 60 * sp + (2 ^ (60 - lv * d) * pathOf d lv xs lv + lv) ∧
      2 ^ (60 - lv * d) * pathOf d lv xs lv + lv < 2 ^ 60 ∧ lv < 64 := by
  have hm := lv_mul_dim_le hl
  have hlt : lv ≤ 54 := hl.trans (Nat.div_le_self _ _)
  have h6 : 2 ^ 6 ≤ 2 ^ (60 - lv * d) := Nat.pow_le_pow_right (by decide) (by omega)
  have hp : 2 ^ (60 - lv * d) * (pathOf d lv xs lv + 1) ≤ 2 ^ 60 := by
    calc _ ≤ 2 ^ (60 - lv * d) * 2 ^ (lv * d) := Nat.mul_le_mul_left _ (pathOf_lt _ _ _ _)
      _ = 2 ^ 60 := by rw [← pow_add]; congr 1; omega
  have hb : 2 ^ (60 - lv * d) * pathOf d lv xs lv + lv < 2 ^ 60 := by rw [Nat.mul_succ] at hp; omega
  refine ⟨?_, hb, by omega⟩
  rw [keyMake, withCoords_eq (by omega), BitVec.toNat_ofNat, Nat.mod_eq_of_lt (by omega)]
  omega

theorem keySp_keyMake {sp d lv : Nat} {xs : List Nat} (hs : sp < 16) (hl : lv ≤ maxLev d) : keySp (keyMake sp d lv xs) = sp := by
  obtain ⟨hv, hb, -⟩ := toNat_keyMake (xs := xs) hs hl
  rw [keySp, bitsOf, hv, Nat.mul_add_div (by positivity), Nat.div_eq_of_lt hb]
  omega

theorem keyLv_keyMake {sp d lv : Nat} {xs : List Nat} (hs : sp < 16) (hl : lv ≤ maxLev d) : keyLv (keyMake sp d lv xs) = lv := by
  obtain ⟨hv, -, hlt⟩ := toNat_keyMake (xs := xs) hs hl
  have hm := lv_mul_dim_le hl
  have hp : 2 ^ (60 - lv * d) = 64 * 2 ^ (54 - lv * d) := by
    rw [show 60 - lv * d = 6 + (54 - lv * d) by omega, pow_add]; rfl
  rw [keyLv_eq_mod, hv, hp, Nat.mul_assoc]
  omega

/-- Reading the bits of a number from the top gives the number. -/
theorem foldl_testBit {v lv : Nat} (hv : v < 2 ^ lv) :
    (List.range lv).foldl (fun acc i => 2 * acc + (if v.testBit (lv - 1 - i) then 1 else 0)) 0 = v := by
  suffices ∀ n, n ≤ lv → (List.range n).foldl (fun acc i => 2 * acc + (if v.testBit (lv - 1 - i) then 1 else 0)) 0 = v / 2 ^ (lv - n) by
    simpa using this lv le_rfl
  intro n hn
  induction n with
  | zero => simp [Nat.div_eq_of_lt hv]
  | succ n ih =>
    have hd : v / 2 ^ (lv - n) = v / 2 ^ (lv - (n + 1)) / 2 := by
      rw [Nat.div_div_eq_div_mul, ← pow_succ]; congr 2; omega
    rw [List.range_succ, List.foldl_append, ih (by omega), hd]
    simp only [List.foldl_cons, List.foldl_nil, show lv - 1 - n = lv - (n + 1) by omega, Nat.testBit_eq_decide_div_mod_eq, decide_eq_true_eq]
    split <;> omega

/-- A coordinate reads back from the key made of it (R98, R101). -/
theorem keyCoord_keyMake {sp d lv a v : Nat} {xs : List Nat} (hs : sp < 16) (hl : lv ≤ maxLev d) (ha : a < d) (hx : xs[a]? = some v)
    (hv : v < 2 ^ lv) : keyCoord d (keyMake sp d lv xs) a = v := by
  obtain ⟨he, hb, hlt⟩ := toNat_keyMake (xs := xs) hs hl
  have hm := lv_mul_dim_le hl
  have h6 : 2 ^ 6 ≤ 2 ^ (60 - lv * d) := Nat.pow_le_pow_right (by decide) (by omega)
  refine Eq.trans ?_ (foldl_testBit hv)
  rw [keyCoord, keyLv_keyMake hs hl]
  refine List.foldl_ext _ _ _ fun acc i hi => ?_
  have hi := List.mem_range.mp hi
  have hij : (i + 1) * d + (lv - 1 - i) * d = lv * d := by rw [← Nat.add_mul]; congr 1; omega
  have hid : d ≤ (i + 1) * d := Nat.le_mul_of_pos_left _ (by omega)
  have hbit : bitAt (keyMake sp d lv xs).toNat (60 - (i + 1) * d + a) = v.testBit (lv - 1 - i) := by
    rw [bitAt_eq_testBit, he, Nat.testBit_two_pow_mul_add _ hb, if_pos (by omega), Nat.testBit_two_pow_mul_add _ (by omega), if_neg (by omega),
      show 60 - (i + 1) * d + a - (60 - lv * d) = (lv - 1 - i) * d + a by omega, testBit_pathOf hi ha, hx]
    rfl
  rw [hbit]

theorem keyCoord_lt (d : Nat) (k : W64) (a : Nat) : keyCoord d k a < 2 ^ keyLv k := by
  suffices ∀ n, (List.range n).foldl (fun acc i => 2 * acc + (if bitAt k.toNat (60 - (i + 1) * d + a) then 1 else 0)) 0 < 2 ^ n from this _
  intro n
  induction n with
  | zero => exact Nat.one_pos
  | succ n ih =>
    rw [List.range_succ, List.foldl_append, pow_succ]
    simp only [List.foldl_cons, List.foldl_nil]
    split <;> omega

/-! ### Neighbours (R101) -/

/-- A key with the coordinate along axis `a` replaced. -/
def keySet (d : Nat) (k : W64) (a v : Nat) : W64 :=
  keyMake (keySp k) d (keyLv k) ((List.range d).map (fun b => if b = a then v else keyCoord d k b))

theorem keySet_keeps {d : Nat} {k : W64} {a v : Nat} (hl : keyLv k ≤ maxLev d) (ha : a < d) (hv : v < 2 ^ keyLv k) :
    keySp (keySet d k a v) = keySp k ∧ keyLv (keySet d k a v) = keyLv k ∧ keyCoord d (keySet d k a v) a = v ∧
      ∀ b, b < d → b ≠ a → keyCoord d (keySet d k a v) b = keyCoord d k b :=
  ⟨keySp_keyMake (keySp_lt k) hl, keyLv_keyMake (keySp_lt k) hl, keyCoord_keyMake (keySp_lt k) hl ha (by simp [ha]) hv,
    fun b hb hn => keyCoord_keyMake (keySp_lt k) hl hb (by simp [hb, hn]) (keyCoord_lt d k b)⟩

/-- A step up an axis: past the upper face it wraps where the axis is periodic, and gives the invalid key where it is not. -/
theorem keyNbr_up (x : Space) (k : W64) (a : Nat) :
    keyNbr x k (2 * a + 1) = if keyCoord x.dim k a = 2 ^ keyLv k - 1 ∧ x.per.getLsbD a = false then badKey
      else keySet x.dim k a ((keyCoord x.dim k a + 1) % 2 ^ keyLv k) := by
  have hc := keyCoord_lt x.dim k a
  have hdiv : (2 * a + 1) / 2 = a := by omega
  have hmod : (2 * a + 1) % 2 = 1 := by omega
  have hn : (2 : Int) ^ keyLv k = ((2 ^ keyLv k : Nat) : Int) := by norm_cast
  unfold keyNbr keySet
  simp only [hdiv, hmod, if_true, hn]
  generalize keyCoord x.dim k a = at_ at hc ⊢
  generalize 2 ^ keyLv k = n at hc ⊢
  by_cases face : at_ = n - 1
  · have past : (at_ : Int) + 1 < 0 ∨ (n : Int) ≤ (at_ : Int) + 1 := by omega
    have wrap : (((at_ : Int) + 1) % (n : Int)).toNat = (at_ + 1) % n := by norm_cast
    rw [if_pos past, wrap]
    cases x.per.getLsbD a <;> simp [face]
  · have inside : ¬ ((at_ : Int) + 1 < 0 ∨ (n : Int) ≤ (at_ : Int) + 1) := by omega
    have next : ((at_ : Int) + 1).toNat = (at_ + 1) % n := by rw [Nat.mod_eq_of_lt (by omega)]; omega
    rw [if_neg inside, if_neg (fun h => face h.1), next]

/-- A step down an axis, likewise. -/
theorem keyNbr_down (x : Space) (k : W64) (a : Nat) :
    keyNbr x k (2 * a) = if keyCoord x.dim k a = 0 ∧ x.per.getLsbD a = false then badKey
      else keySet x.dim k a ((keyCoord x.dim k a + 2 ^ keyLv k - 1) % 2 ^ keyLv k) := by
  have hc := keyCoord_lt x.dim k a
  have hdiv : 2 * a / 2 = a := by omega
  have hmod : ¬ 2 * a % 2 = 1 := by omega
  have hn : (2 : Int) ^ keyLv k = ((2 ^ keyLv k : Nat) : Int) := by norm_cast
  unfold keyNbr keySet
  simp only [hdiv, if_neg hmod, hn]
  generalize keyCoord x.dim k a = at_ at hc ⊢
  generalize 2 ^ keyLv k = n at hc ⊢
  by_cases face : at_ = 0
  · have past : (at_ : Int) - 1 < 0 ∨ (n : Int) ≤ (at_ : Int) - 1 := by omega
    have wrap : (((at_ : Int) - 1) % (n : Int)).toNat = (at_ + n - 1) % n := by
      rw [← Int.add_emod_right, show (at_ : Int) - 1 + n = ((at_ + n - 1 : Nat) : Int) by omega]
      norm_cast
    rw [if_pos past, wrap]
    cases x.per.getLsbD a <;> simp [face]
  · have inside : ¬ ((at_ : Int) - 1 < 0 ∨ (n : Int) ≤ (at_ : Int) - 1) := by omega
    have next : ((at_ : Int) - 1).toNat = (at_ + n - 1) % n := by
      rw [show at_ + n - 1 = at_ - 1 + n by omega, Nat.add_mod_right, Nat.mod_eq_of_lt (by omega)]
      omega
    rw [if_neg inside, if_neg (fun h => face h.1), next]

/-- Settles O22: a key is its path above its level, so children, parents, coordinates and neighbours are read off the path's bits. -/
theorem keyArithmetic : Obligations.KeyArithmetic := by
  unfold Obligations.KeyArithmetic
  refine ⟨fun x k i _ h hl hi => ?child, fun x k _ _ => ⟨fun hl i => if_pos hl, fun hl => if_pos hl⟩,
    fun d sp lv xs _ hs hl hn hx => ⟨keySp_keyMake hs hl, keyLv_keyMake hs hl, fun a v ha => ?coordinate⟩, fun x k a up _ h ha => ?neighbour⟩
  case child =>
    exact ⟨keyParent_keyChild h hl hi, keyLv_keyChild h hl hi, keyGroup_keyChild h hl hi, keyOkIn_keyChild h hl hi,
      by rw [(toNat_keyChild h hl hi).2]; omega, fun j hj => keyChild_lt_keyChild h hl hi hj⟩
  case coordinate =>
    have hlt : a < d := hn ▸ (List.getElem?_eq_some_iff.mp ha).1
    exact keyCoord_keyMake hs hl hlt ha (hx v (List.mem_of_getElem? ha))
  case neighbour =>
    have keeps (v : Nat) := keySet_keeps (a := a) (v := v % 2 ^ keyLv k) (keyOkIn_iff.mp h).1 ha (Nat.mod_lt _ (by positivity))
    cases up with
    | true =>
      simp only [if_true, keyNbr_up]
      exact ⟨fun face flat => if_pos ⟨face, flat⟩, fun open_ => by rw [if_neg (by grind)]; exact keeps _⟩
    | false =>
      simp only [Bool.false_eq_true, if_false, Nat.add_zero, keyNbr_down]
      exact ⟨fun face flat => if_pos ⟨face, flat⟩, fun open_ => by rw [if_neg (by grind)]; exact keeps _⟩

end Sys2Proof.Machine
end

section
/-! PROOFS. The words of the key space (R101, R103, R113 to R116, R317, R318), O23 and O24. -/

namespace Sys2Proof.Machine

/-! ### Accesses that a word adds to those in flight -/

/-- From `s` to `t` a word has put accesses that satisfy `P` into the flight list, and drawn identities and free values for them. -/
structure Adds (P : Acc → Prop) (s t : State) : Prop where
  rest : t = { s with accs := t.accs, nextId := t.nextId, freeIx := t.freeIx }
  accs : ∃ new, t.accs = s.accs ++ new ∧ ∀ a ∈ new, P a

section Adds
variable {P : Acc → Prop} {s t u : State}

theorem Adds.refl (s : State) : Adds P s s := ⟨rfl, [], (List.append_nil _).symm, fun _ h => absurd h List.not_mem_nil⟩

theorem Adds.trans (h : Adds P s t) (k : Adds P t u) : Adds P s u where
  rest := by rw [k.rest, h.rest]
  accs := by
    obtain ⟨l, hl, hP⟩ := h.accs
    obtain ⟨m, hm, hQ⟩ := k.accs
    exact ⟨l ++ m, by rw [hm, hl, List.append_assoc], fun a ha => (List.mem_append.mp ha).elim (hP a) (hQ a)⟩

theorem Adds.mem (h : Adds P s t) {a : Acc} (ha : a ∈ s.accs) : a ∈ t.accs := by
  obtain ⟨l, hl, -⟩ := h.accs
  exact hl ▸ List.mem_append_left _ ha

theorem Adds.spaces (h : Adds P s t) : t.spaces = s.spaces := by rw [h.rest]

theorem Adds.frag? (h : Adds P s t) (f : FragRef) : t.frag? f = s.frag? f := by
  rw [h.rest]; rfl

theorem Adds.mem_eq (h : Adds P s t) : t.mem = s.mem := by rw [h.rest]

/-- An operand has the value that it had before. -/
theorem Adds.opVal (h : Adds P s t) (c : Ctx) (uni : Bool) (thr : Nat) (x : Src) : opVal t c uni thr x = opVal s c uni thr x := by
  rw [h.rest]; rfl

/-- A fold over threads, each of which adds its own accesses: what holds of a thread once it has had its turn holds at the end. -/
theorem Adds.foldl {α : Type} {g : State → α → State} {Q : State → α → Prop} {s : State} (hg : ∀ u a, Adds P s u → Adds P u (g u a) ∧ Q (g u a) a)
    (hQ : ∀ u v a, Adds P u v → Q u a → Q v a) (l : List α) : Adds P s (l.foldl g s) ∧ ∀ a ∈ l, Q (l.foldl g s) a := by
  suffices ∀ u, Adds P s u → Adds P u (l.foldl g u) ∧ ∀ a ∈ l, Q (l.foldl g u) a from this s (.refl s)
  induction l with
  | nil => exact fun u _ => ⟨.refl u, fun _ h => absurd h List.not_mem_nil⟩
  | cons a l ih =>
    intro u hu
    obtain ⟨step, here⟩ := hg u a hu
    obtain ⟨rest, later⟩ := ih (g u a) (hu.trans step)
    refine ⟨step.trans rest, fun b hb => ?_⟩
    obtain rfl | hb := List.mem_cons.mp hb
    · exact hQ _ _ _ rest here
    · exact later b hb

end Adds

theorem takeWord_adds (P : Acc → Prop) (s : State) : Adds P s s.takeWord.2 := ⟨rfl, [], (List.append_nil _).symm, fun _ h => absurd h List.not_mem_nil⟩

/-- The key-space trap of a thread is an access that has ended in it (R318). -/
theorem keyTrap_adds (s : State) (c : Ctx) (thr : Option Nat) (info : W64) :
    Adds (fun a => a.uid = c.p.uid ∧ a.kind = .value) s (keyTrap s c thr info) ∧
      ∃ a ∈ (keyTrap s c thr info).accs, a.uid = c.p.uid ∧ a.thr = thr ∧ a.st = .bad 0x11 info :=
  ⟨⟨rfl, _, rfl, fun a ha => by obtain rfl := List.mem_singleton.mp ha; exact ⟨rfl, rfl⟩⟩,
    _, List.mem_append_right _ (List.mem_singleton_self _), rfl, rfl, rfl⟩

/-! ### Key-arithmetic words (R101, R317) -/

/-- What a key word puts in flight for a thread. -/
def launchOut (s : State) (c : Ctx) (thr : Option Nat) (d : Dst) : KOut → State
  | .val v => launchValue s c thr d v false none
  | .trap info => keyTrap s c thr info
  | .open_ => keyTrap s.takeWord.2.takeWord.2 c thr (s.takeWord.2.takeWord.1 ++ s.takeWord.1)

theorem launchOut_returns (s : State) (c : Ctx) (thr : Option Nat) (d : Dst) (o : KOut) :
    Adds (fun a => a.uid = c.p.uid ∧ a.kind = .value) s (launchOut s c thr d o) ∧ Returns (launchOut s c thr d o) c thr d o := by
  cases o with
  | val v =>
    by_cases hd : d = .none
    · have idle : launchOut s c thr d (.val v) = s := by simp [launchOut, launchValue, hd]
      rw [idle]
      exact ⟨.refl s, fun h => absurd hd h⟩
    · have sent : launchOut s c thr d (.val v) = { s.fresh.2 with accs := s.fresh.2.accs ++
          [{ id := s.fresh.1, frag := c.f, word := c.p.pc, uid := c.p.uid, wuid := c.w.wuid, seq := c.p.seq, thr := thr, kind := .value
             val := v, vpois := false, dst := d, acq := none, st := .done }] } := by simp [launchOut, launchValue, hd]
      rw [sent]
      exact ⟨⟨rfl, _, rfl, fun a ha => by obtain rfl := List.mem_singleton.mp ha; exact ⟨rfl, rfl⟩⟩,
        fun _ => ⟨_, List.mem_append_right _ (List.mem_singleton_self _), rfl, rfl, rfl, rfl, rfl⟩⟩
  | trap info => exact keyTrap_adds s c thr info
  | open_ =>
    obtain ⟨added, a, ha, hu, ht, hs⟩ := keyTrap_adds s.takeWord.2.takeWord.2 c thr (s.takeWord.2.takeWord.1 ++ s.takeWord.1)
    exact ⟨((takeWord_adds _ s).trans (takeWord_adds _ _)).trans added, a, ha, _, hu, ht, hs⟩

theorem Returns.mono {P : Acc → Prop} {s t : State} {c : Ctx} {thr : Option Nat} {d : Dst} {o : KOut} (h : Adds P s t) (k : Returns s c thr d o) :
    Returns t c thr d o := by
  cases o with
  | val v =>
    intro hd
    obtain ⟨a, ha, hr⟩ := k hd
    exact ⟨a, h.mem ha, hr⟩
  | trap info =>
    obtain ⟨a, ha, hr⟩ := k
    exact ⟨a, h.mem ha, hr⟩
  | open_ =>
    obtain ⟨a, ha, hr⟩ := k
    exact ⟨a, h.mem ha, hr⟩

/-- A key word that begins with clean operands launches the outcome of each acting thread, and goes on. -/
theorem keyWord_go {h : Hdr} {d : Opd} {srcs : List Src} {op : State → Nat → List Nat → KOut} {s : State} {c : Ctx}
    (hb : Begins h.sw (kRegs (guardOpd h :: srcs.map (·.o))) s c) (hc : Clean c h d.isK ((memThreads c h d.isK).map thrOf) (srcs.map (·.o))) :
    keyWord h d srcs op s =
      finish ((memThreads c h d.isK).foldl (fun u t =>
        launchOut u c t (dstOf c (thrOf t) d) (op u c.f.die (srcs.map (opVal u c d.isK (thrOf t))))) s) c.f
        (if d.isK then 1 else laneCycles (memThreads c h d.isK).length) := by
  obtain ⟨hx, hm, hk⟩ := hb
  simp only [keyWord, begin_go hx hm hk, Go.run, checkPois_go hc.1 hc.2]
  refine congrArg (fun u => finish u c.f _) (List.foldl_ext _ _ _ fun u t _ => ?_)
  cases op u c.f.die (srcs.map (opVal u c d.isK (thrOf t))) <;> rfl

theorem exec_keyRow {i : Instr} {r : KeyRow} (h : keyRowOf i = some r) (s : State) : exec i s = .next (keyWord r.h r.d r.srcs r.op s) := by
  unfold keyRowOf at h
  split at h <;> cases h <;> rfl

theorem keyHere_of_spaces {s t : State} (h : t.spaces = s.spaces) (d : Nat) (k : W64) : keyHere t d k = keyHere s d k := by
  simp only [keyHere, keySpace, h]

theorem onKey_of_spaces {s t : State} (h : t.spaces = s.spaces) (d k : Nat) (bad : W64) (op : Space → W64 → KOut) :
    onKey t d k bad op = onKey s d k bad op := by
  simp only [onKey, keyHere_of_spaces h]

theorem kmkOut_of_spaces {s t : State} (h : t.spaces = s.spaces) (d a b : Nat) : kmkOut t d a b = kmkOut s d a b := by
  simp only [kmkOut, spaceOk, h]

/-- The outcome of a key word rests on the key spaces alone. -/
theorem keyRow_op_of_spaces {i : Instr} {r : KeyRow} (h : keyRowOf i = some r) {s t : State} (hs : t.spaces = s.spaces) (d : Nat) (v : List Nat) :
    r.op t d v = r.op s d v := by
  unfold keyRowOf at h
  split at h <;> cases h
  case h_1 => exact kmkOut_of_spaces hs _ _ _
  all_goals simp only [onKey_of_spaces hs]

/-- What is said of the word holds in the state in which its fragment goes on. -/
theorem done_finish {s t : State} {c : Ctx} {P : Acc → Prop} {n : Nat} (hx : ctx? s = some c) (h : Adds P s t) : Done (finish t c.f n) c := by
  have hf := (ctxOf_f hx).1
  have hp : t.frag? c.f = some c.p := (h.frag? c.f).trans (hf ▸ frag?_of_ctxOf hx)
  rw [Done, frag?_finish hp]
  rfl

/-- Settles O23: the outcomes rest on the spaces and the operands, which no launch of an earlier thread changes. -/
theorem keyWords : Obligations.KeyWords := by
  unfold Obligations.KeyWords
  intro i s c r hr hb hc
  obtain ⟨added, returned⟩ := Adds.foldl (P := fun a => a.uid = c.p.uid ∧ a.kind = .value) (s := s)
    (g := fun u t => launchOut u c t (dstOf c (thrOf t) r.d) (r.op u c.f.die (r.srcs.map (opVal u c r.d.isK (thrOf t)))))
    (Q := fun u t => Returns u c t (dstOf c (thrOf t) r.d) (r.op s c.f.die (r.srcs.map (opVal s c r.d.isK (thrOf t)))))
    (fun u t hu => by
      have same : r.srcs.map (opVal u c r.d.isK (thrOf t)) = r.srcs.map (opVal s c r.d.isK (thrOf t)) :=
        List.map_congr_left fun x _ => hu.opVal c _ _ x
      rw [same, keyRow_op_of_spaces hr hu.spaces]
      exact launchOut_returns u c t _ _)
    (fun u v t => Returns.mono) (memThreads c r.h r.d.isK)
  refine ⟨_, (exec_keyRow hr s).trans (congrArg _ (keyWord_go hb hc)), done_finish hb.1 added, ?_, ?_, added.accs, returned⟩
  · exact added.mem_eq
  · exact added.spaces

/-! ### Directory words (R113 to R116, R318) -/

/-- An operation goes on its way where its key is one of this die's group (R103, R318). -/
theorem launchDir_sent {s : State} {c : Ctx} {thr : Option Nat} {op : DirOp} {d e : Dst} {acq : Option Scope}
    (h : ∀ k, op.key? = some k → (keyHere s c.f.die k).isSome = true) :
    Adds (fun _ => True) s (launchDir s c thr op d e acq) ∧ ∃ a ∈ (launchDir s c thr op d e acq).accs,
      a.uid = c.p.uid ∧ a.thr = thr ∧ a.kind = .dir op ∧ a.st = .home ∧ a.dst = d ∧ a.dst2 = e ∧ a.acq = acq := by
  have none_foreign : op.key?.filter (fun k => (keyHere s c.f.die k).isNone) = none := by
    rw [Option.filter_eq_none_iff]
    intro k hk
    simp [Option.isSome_iff_ne_none.mp (h k hk)]
  unfold launchDir
  rw [none_foreign]
  exact ⟨⟨rfl, _, rfl, fun _ _ => trivial⟩, _, List.mem_append_right _ (List.mem_singleton_self _), rfl, rfl, rfl, rfl, rfl, rfl, rfl⟩

/-- An operation whose key is malformed or of no space of this die's group has the key-space trap (R103, R318). -/
theorem launchDir_trapped {s : State} {c : Ctx} {thr : Option Nat} {op : DirOp} {d e : Dst} {acq : Option Scope} {k : W64}
    (hk : op.key? = some k) (h : keyHere s c.f.die k = none) : launchDir s c thr op d e acq = keyTrap s c thr k := by
  have foreign : op.key?.filter (fun k => (keyHere s c.f.die k).isNone) = some k := by
    rw [hk, Option.filter_some_pos (by simp [h])]
  unfold launchDir
  rw [foreign]

theorem launchDir_adds (s : State) (c : Ctx) (thr : Option Nat) (op : DirOp) (d e : Dst) (acq : Option Scope) :
    Adds (fun _ => True) s (launchDir s c thr op d e acq) := by
  by_cases h : ∀ k, op.key? = some k → (keyHere s c.f.die k).isSome = true
  · exact (launchDir_sent h).1
  · obtain ⟨k, hk, hn⟩ : ∃ k, op.key? = some k ∧ keyHere s c.f.die k = none := by simpa using h
    rw [launchDir_trapped hk hn]
    exact ⟨(keyTrap_adds s c thr k).1.rest, _, rfl, fun _ _ => trivial⟩

/-- What a directory word has put in flight for a thread. -/
def DirLaunched (s : State) (r : DirRow) (c : Ctx) (t : State) (thr : Option Nat) : Prop :=
  ((∀ k, (r.opOf s c thr).key? = some k → (keyHere s c.f.die k).isSome = true) →
    ∃ a ∈ t.accs, a.uid = c.p.uid ∧ a.thr = thr ∧ a.kind = .dir (r.opOf s c thr) ∧ a.st = .home ∧
      a.dst = dstOf c (thrOf thr) r.d ∧ a.dst2 = dstOf c (thrOf thr) r.e ∧ a.acq = r.acq) ∧
  (∀ k, (r.opOf s c thr).key? = some k → keyHere s c.f.die k = none → ∃ a ∈ t.accs, a.uid = c.p.uid ∧ a.thr = thr ∧ a.st = .bad 0x11 k)

theorem DirLaunched.mono {P : Acc → Prop} {s t u : State} {r : DirRow} {c : Ctx} {thr : Option Nat} (h : Adds P t u) (k : DirLaunched s r c t thr) :
    DirLaunched s r c u thr := by
  obtain ⟨sent, trapped⟩ := k
  refine ⟨fun hs => ?_, fun q hq hn => ?_⟩
  · obtain ⟨a, ha, hr⟩ := sent hs
    exact ⟨a, h.mem ha, hr⟩
  · obtain ⟨a, ha, hr⟩ := trapped q hq hn
    exact ⟨a, h.mem ha, hr⟩

theorem launchDir_launched {s u : State} {r : DirRow} {c : Ctx} (hs : u.spaces = s.spaces) (thr : Option Nat) :
    DirLaunched s r c (launchDir u c thr (r.opOf s c thr) (dstOf c (thrOf thr) r.d) (dstOf c (thrOf thr) r.e) r.acq) thr := by
  refine ⟨fun h => (launchDir_sent fun k hk => ?_).2, fun k hk hn => ?_⟩
  · rw [keyHere_of_spaces hs]
    exact h k hk
  · rw [launchDir_trapped hk ((keyHere_of_spaces hs _ _).trans hn)]
    exact (keyTrap_adds u c thr k).2

/-- The operations of a directory word, in the state in which it begins, launched thread by thread. -/
def dirLaunched (s : State) (c : Ctx) (r : DirRow) : State :=
  (memThreads c r.h r.uni).foldl (fun u t => launchDir u c t (r.opOf s c t) (dstOf c (thrOf t) r.d) (dstOf c (thrOf t) r.e) r.acq) s

theorem dirLaunched_launched (s : State) (c : Ctx) (r : DirRow) :
    Adds (fun _ => True) s (dirLaunched s c r) ∧ ∀ thr ∈ memThreads c r.h r.uni, DirLaunched s r c (dirLaunched s c r) thr :=
  Adds.foldl (fun u t hu => ⟨launchDir_adds u c t _ _ _ _, launchDir_launched hu.spaces t⟩) (fun _ _ _ => DirLaunched.mono) _

/-- A word of the table is a word of directory operations with its row's guard, operand, scopes and operations. -/
theorem exec_dirRow {i : Instr} {r : DirRow} (h : dirRowOf i = some r) (s : State) :
    ∃ prog, exec i s = .next (dirWord r.h r.uni [r.a] r.rel r.acq prog (fun s c t =>
      (r.op (keyVal s c r.uni t r.a), dstOf c t r.d, dstOf c t r.e)) s) := by
  unfold dirRowOf at h
  split at h <;> cases h <;> exact ⟨_, rfl⟩

/-- A directory word that has launched its operations has gone on: `prog` says that it is a progress point, `park` that its fragment parks (R209, R318). -/
def wentOn (t : State) (c : Ctx) (prog : Bool) (n : Nat) (park : Bool) : State :=
  let t := finish (if prog then progress t c.f else t) c.f n
  if park then t.modFrag c.f (fun p => { p with wait := .dir }) else t

theorem wentOn_keeps (t : State) (c : Ctx) (prog : Bool) (n : Nat) (park : Bool) :
    (wentOn t c prog n park).mem = t.mem ∧ (wentOn t c prog n park).spaces = t.spaces ∧ (wentOn t c prog n park).accs = t.accs := by
  cases prog <;> cases park <;> exact ⟨rfl, rfl, rfl⟩

theorem frag?_wentOn {t : State} {c : Ctx} {p : Frag} (h : t.frag? c.f = some p) (prog : Bool) (n : Nat) (park : Bool) :
    ((wentOn t c prog n park).frag? c.f).map (fun p => (p.pc, p.seq, p.wait)) = some (p.pc + 8, p.seq + 1, if park then .dir else .none) := by
  have progressed : ∃ q, (if prog then progress t c.f else t).frag? c.f = some q ∧ q.pc = p.pc ∧ q.seq = p.seq := by
    cases prog
    · exact ⟨p, h, rfl, rfl⟩
    · have occ : p.occ = true := frag?_occ h
      exact ⟨_, frag?_modFrag (g := fun p => { p with wdc := 0, wdt := none, wdHeld := none }) h occ, rfl, rfl⟩
  obtain ⟨q, hq, hpc, hseq⟩ := progressed
  have finished := frag?_finish (n := n) hq
  cases park
  · simp [wentOn, finished, Frag.next, hpc, hseq]
  · have occ : (q.next (q.pc + 8)).occ = true := frag?_occ finished
    have parked := frag?_modFrag (g := fun p => { p with wait := .dir }) finished occ
    simp [wentOn, parked, Frag.next, hpc, hseq]

/-- A directory word that starts launches its operations and goes on, parked where one of them has to wait (R318). -/
theorem dirWord_go {r : DirRow} {s : State} {c : Ctx} {prog : Bool} (h : r.Starts s c) :
    dirWord r.h r.uni [r.a] r.rel r.acq prog (fun s c t => (r.op (keyVal s c r.uni t r.a), dstOf c t r.d, dstOf c t r.e)) s =
      wentOn (dirLaunched s c r) c prog (if r.uni then 1 else laneCycles (memThreads c r.h r.uni).length)
        ((memThreads c r.h r.uni).any (fun thr => dirWaits s c.f.die (r.opOf s c thr))) := by
  obtain ⟨⟨hx, hm, hk⟩, ⟨hg, ho⟩, some_acts, no_acquire, rel_met⟩ := h
  have acts : (memThreads c r.h r.uni).isEmpty = false := by simpa using some_acts
  have rel_any : r.rel.any (fun sc => !released s c.f c.p.uid sc) = false := by
    cases hr : r.rel with
    | none => rfl
    | some sc => simp [rel_met sc hr]
  have parks : ((memThreads c r.h r.uni).map (fun t => (t, r.op (keyVal s c r.uni (thrOf t) r.a), dstOf c (thrOf t) r.d, dstOf c (thrOf t) r.e))).any
      (fun o => dirWaits s c.f.die o.2.1) = (memThreads c r.h r.uni).any (fun thr => dirWaits s c.f.die (r.opOf s c thr)) := by
    rw [List.any_map]; rfl
  have launched : ((memThreads c r.h r.uni).map (fun t => (t, r.op (keyVal s c r.uni (thrOf t) r.a), dstOf c (thrOf t) r.d, dstOf c (thrOf t) r.e))).foldl
      (fun s o => launchDir s c o.1 o.2.1 o.2.2.1 o.2.2.2 r.acq) s = dirLaunched s c r := by
    rw [List.foldl_map]; rfl
  simp only [dirWord, memWord, begin_go hx hm hk, Go.run, checkPois_go hg ho, acts, no_acquire, rel_any, Bool.false_eq_true, if_false, parks, launched, wentOn]

/-- Settles O24: what a thread's operation does rests on the spaces, which no launch of an earlier thread changes. -/
theorem directoryWords : Obligations.DirectoryWords := by
  unfold Obligations.DirectoryWords
  intro i s c r hr hs
  obtain ⟨prog, he⟩ := exec_dirRow hr s
  obtain ⟨added, launched⟩ := dirLaunched_launched s c r
  have hx : ctx? s = some c := hs.1.1
  have frag : (dirLaunched s c r).frag? c.f = some c.p := (added.frag? c.f).trans ((ctxOf_f hx).1 ▸ frag?_of_ctxOf hx)
  obtain ⟨mem, spaces, accs⟩ := wentOn_keeps (dirLaunched s c r) c prog (if r.uni then 1 else laneCycles (memThreads c r.h r.uni).length)
    ((memThreads c r.h r.uni).any (fun thr => dirWaits s c.f.die (r.opOf s c thr)))
  rw [he, dirWord_go hs]
  refine ⟨_, rfl, mem.trans added.mem_eq, spaces.trans added.spaces, frag?_wentOn frag _ _ _, fun thr ht => ?_⟩
  rw [accs]
  exact launched thr ht

end Sys2Proof.Machine
end

section
/-! PROOFS. What the writes of directory agents and the work of dispensers leave unchanged (R33, R104, R397, R398). -/

namespace Sys2Proof.Machine

/-- `P` does not rest on memory with its poison and history, on the requests at busy frames, or on the waiting writes of directory agents. -/
def MemoryFree (P : State → Prop) : Prop :=
  ∀ s mem poison hist hid dirW, P s → P { s with mem := mem, poison := poison, hist := hist, hid := hid, dirW := dirW }

/-! ### Accesses of an agent of a die alone -/

section
variable {P : State → Prop} {s : State} {a : Agent}

theorem ite_keeps {p : Prop} [Decidable p] {t u : State} (ht : P t) (hu : P u) : P (if p then t else u) := by
  split
  · exact ht
  · exact hu

theorem wrRaw_keeps (hP : MemoryFree P) (pa : Nat) (bs : List Byte) (h : P s) : P (wrRaw s pa bs) := by
  induction bs generalizing s pa with
  | nil => exact h
  | cons b t ih => exact ih _ (hP s (wrB s pa b).mem s.poison s.hist s.hid s.dirW h)

theorem wrBytes_keeps (hP : MemoryFree P) (pa : Nat) (bs : List Byte) (h : P s) : P (wrBytes s pa bs) := by
  have noted : P (noteWrite (noteWrite s pa (rdBytes s pa bs.length)) pa bs) := hP s s.mem s.poison _ s.hid s.dirW h
  have written := wrRaw_keeps hP pa bs noted
  exact hP _ _ _ _ _ _ written

theorem orEntry_keeps (hP : MemoryFree P) (at_ bit : Nat) (h : P s) : P (orEntry s at_ bit) := by
  unfold orEntry
  dsimp only
  split
  · exact h
  · exact wrBytes_keeps hP _ _ h

theorem touchEntries_keeps (hP : MemoryFree P) (used : List Nat) (at_ : Nat) (wt : Want) (h : P s) : P (touchEntries s used at_ wt) := by
  have accessed : P (used.foldl (fun s a => orEntry s a 4) s) := foldl_keeps (fun s a h => orEntry_keeps hP a 4 h) used s h
  match wt with
  | .r | .x | .m => exact accessed
  | .w | .at | .rp => exact orEntry_keeps hP _ _ accessed

theorem xlat_keeps (hP : MemoryFree P) {d va : Nat} {wt : Want} (h : P s) : Yields (fun v : State × Phys => P v.1) (xlat s d va wt) := by
  intro v hv
  unfold xlat at hv
  split at hv
  · cases hv
  · cases hv
  · split at hv <;> cases hv
    exact touchEntries_keeps hP _ _ _ h

theorem xlatA_keeps (hP : MemoryFree P) (ha : a.core = none) {va : Nat} {wt : Want} (h : P s) :
    Yields (fun v : State × Phys => P v.1) (xlatA s a va wt) := by
  unfold xlatA
  rw [ha]
  exact xlat_keeps hP h

theorem letGo_keeps (hP : MemoryFree P) (who : Asker) (va : Nat) (h : P s) : P (letGo s who va) := hP s s.mem s.poison s.hist _ s.dirW h

theorem noteHeld_keeps (hP : MemoryFree P) (hd : Held) (h : P s) : P (noteHeld s hd) := by
  have held (l : List HeldReq) : P { s with hid := l } := hP s s.mem s.poison s.hist l s.dirW h
  unfold noteHeld
  split
  · exact ite_keeps (held _) (ite_keeps (held _) (held _))
  · exact h

theorem setPois_keeps (hP : MemoryFree P) (pa n : Nat) (h : P s) : P (setPois s pa n) := hP s s.mem _ s.hist s.hid s.dirW h

theorem aliasWrite_keeps (hP : MemoryFree P) {pa : Nat} {bs : List Byte} {po : Bool} (h : P s) : Finds P (aliasWrite s pa bs po) := by
  have put (e : AliasEnt) (blk : Nat) (vs : List FV) : P (aliasPut s e blk vs) :=
    foldl_keeps (fun _ _ h => wrBytes_keeps hP _ _ h) _ _ (hP s (wrB s _ _).mem s.poison s.hist s.hid s.dirW h)
  intro t ht
  unfold aliasWrite at ht
  obtain ⟨e, -, rfl⟩ := Option.map_eq_some_iff.mp ht
  refine foldl_keeps (fun u r h => ?_) _ _ (put e _ _)
  split
  · exact setPois_keeps hP _ _ h
  · exact hP u u.mem _ u.hist u.hid u.dirW h

theorem readChunk_keeps (hP : MemoryFree P) (ha : a.core = none) {va n : Nat} {wt : Want} (h : P s) :
    Yields (fun v : State × List Byte × Bool => P v.1) (readChunk s a va n wt) := by
  unfold readChunk
  refine (xlatA_keeps hP ha h).bind fun v hv => ?_
  have gone := letGo_keeps hP a.who va hv
  rw [ha]
  dsimp only
  split
  · exact .error
  · refine .ite ?_ (.ok gone)
    split
    · exact .ok gone
    · exact .error

theorem writeChunk_keeps (hP : MemoryFree P) (ha : a.core = none) {va : Nat} {bs : List Byte} {po : Bool} {wt : Want} (h : P s) :
    Yields P (writeChunk s a va bs po wt) := by
  unfold writeChunk
  refine (xlatA_keeps hP ha h).bind fun v hv => ?_
  have gone := letGo_keeps hP a.who va hv
  rw [ha]
  dsimp only
  split
  · exact .error
  · refine .ite ?_ (.ok (ite_keeps (setPois_keeps hP _ _ (wrBytes_keeps hP _ _ gone)) (wrBytes_keeps hP _ _ gone)))
    split
    · exact .ok (aliasWrite_keeps hP gone _ ‹_›)
    · exact .error

theorem vreadFuel_keeps (hP : MemoryFree P) (ha : a.core = none) {f va n : Nat} (h : P s) :
    Yields (fun v : State × List Byte × Bool => P v.1) (vreadFuel f s a va n) := by
  induction f generalizing s va n with
  | zero => exact .ok h
  | succ f ih => exact .ite (.ok h) ((readChunk_keeps hP ha h).bind fun _ h => (ih h).bind fun _ h => .ok h)

theorem vwriteFuel_keeps (hP : MemoryFree P) (ha : a.core = none) {f va : Nat} {bs : List Byte} {po : Bool} {wt : Want} (h : P s) :
    Yields P (vwriteFuel po wt f s a va bs) := by
  induction f generalizing s va bs with
  | zero => exact .ok h
  | succ f ih => exact .ite (.ok h) ((writeChunk_keeps hP ha h).bind fun _ h => ih h)

theorem vrdN_keeps (hP : MemoryFree P) (ha : a.core = none) {va n : Nat} (h : P s) : Yields (fun v : State × Nat => P v.1) (vrdN s a va n) :=
  (vreadFuel_keeps hP ha h).bind fun _ h => .ok h

theorem vwrN_keeps (hP : MemoryFree P) (ha : a.core = none) {va n v : Nat} (h : P s) : Yields P (vwrN s a va n v) := vwriteFuel_keeps hP ha h

/-! ### Writes of directory agents (R104, R105, R111) -/

theorem drainW_keeps (hP : MemoryFree P) (l left : List (Nat × Nat × List Byte)) (h : P s) : P (drainW l s left) := by
  induction l generalizing s left with
  | nil => exact hP s s.mem s.poison s.hist s.hid left h
  | cons e l ih =>
    unfold drainW
    refine ite_keeps (ih _ h) ?_
    split
    · exact ih _ (vwriteFuel_keeps hP rfl h _ ‹_›)
    · exact ih _ h
    · exact ih _ h

theorem flushDir_keeps (hP : MemoryFree P) (h : P s) : P (flushDir s) := ite_keeps h (drainW_keeps hP _ _ h)

theorem agentWrite_keeps (hP : MemoryFree P) (d va : Nat) (bs : List Byte) (h : P s) : P (agentWrite s d va bs) :=
  flushDir_keeps hP (hP s s.mem s.poison s.hist s.hid _ h)

theorem putIndex_keeps (hP : MemoryFree P) (sp j : Nat) (h : P s) : P (putIndex s sp j) := by
  unfold putIndex
  split
  · exact h
  · split
    · exact h
    · exact agentWrite_keeps hP _ _ _ h

theorem syncSpace_keeps (hP : MemoryFree P) (sp : Nat) (h : P s) : P (syncSpace s sp) := by
  unfold syncSpace
  split
  · exact h
  · exact foldl_keeps (fun _ _ h => putIndex_keeps hP _ _ h) _ _ (foldl_keeps (fun _ _ h => agentWrite_keeps hP _ _ _ h) _ _ h)

theorem putImage_keeps (hP : MemoryFree P) (sp : Nat) (h : P s) : P (putImage s sp) := by
  unfold putImage
  split
  · exact foldl_keeps (fun _ _ h => agentWrite_keeps hP _ _ _ h) _ _ h
  · exact h

end

/-! ### The work of dispensers (R124, R397, R398) -/

/-- `P` does not rest on memory, on the grids of a die, or on the records that a key space has. -/
structure WorkFree (P : State → Prop) : Prop where
  memory : MemoryFree P
  grids : ∀ s d gid g, P s → P (s.modGrid d gid g)
  records : ∀ s sp x recs, Tab.get? s.spaces sp = some x → P s → P (s.setSpace sp { x with recs := recs })

section
variable {P : State → Prop} {s : State} {d gid : Nat}

theorem putRec_keeps (hP : WorkFree P) (sp i : Nat) (r : KRec) (h : P s) : P (putRec s sp i r) := by
  unfold putRec
  split
  · exact h
  · exact agentWrite_keeps hP.memory _ _ _ (hP.records s sp _ _ ‹_› h)

theorem tcbRd_keeps (hP : WorkFree P) {tcb : W64} {o n : Nat} (h : P s) : Yields (fun v : State × Nat => P v.1) (tcbRd s d tcb o n) :=
  vrdN_keeps hP.memory rfl h

theorem tcbWr_keeps (hP : WorkFree P) {tcb : W64} {o n v : Nat} (h : P s) : Yields P (tcbWr s d tcb o n v) := vwrN_keeps hP.memory rfl h

theorem enterReady_keeps (hP : WorkFree P) {tcb : W64} (h : P s) : Yields P (enterReady s d gid tcb) := by
  unfold enterReady
  split
  · exact .ok h
  · refine (tcbRd_keeps hP h).bind fun _ h => (tcbRd_keeps hP h).bind fun _ h => (tcbRd_keeps hP h).bind fun _ h => .ite .error ?_
    split
    · split
      · exact (tcbWr_keeps hP h).bind fun _ h => (tcbWr_keeps hP h).bind fun _ h => .ok (hP.grids _ _ _ _ (putRec_keeps hP _ _ _ h))
      · exact (tcbWr_keeps hP h).bind fun _ h => .ok (hP.grids _ _ _ _ (putRec_keeps hP _ _ _ h))
    · exact .ok (hP.grids _ _ _ _ h)

theorem postFault_keeps (hP : WorkFree P) {tcb : W64} {code wgid : Nat} (h : P s) : Yields P (postFault s d gid tcb code wgid) := by
  unfold postFault
  split
  · exact .ok h
  · exact (vrdN_keeps hP.memory rfl h).bind fun _ h => (vwrN_keeps hP.memory rfl h).bind fun _ h => .ite (.ok h) (vwriteFuel_keeps hP.memory rfl h)

theorem decSuccs_keeps (hP : WorkFree P) {wgid arr n i : Nat} (h : P s) : Yields P (decSuccs d gid wgid arr n i s) := by
  induction n generalizing s i with
  | zero => exact .ok h
  | succ n ih =>
    refine (vrdN_keeps hP.memory rfl h).bind fun _ h => (tcbRd_keeps hP h).bind fun _ h => (tcbRd_keeps hP h).bind fun _ h => ?_
    exact .ite ((postFault_keeps hP h).bind fun _ h => ih h) ((tcbWr_keeps hP h).bind fun _ h =>
      .ite ((tcbWr_keeps hP h).bind fun _ h => (enterReady_keeps hP h).bind fun _ h => ih h) (ih h))

theorem taskEnd_keeps (hP : WorkFree P) {wgid : Nat} {tcb : W64} {flt : Option Nat} (h : P s) : Yields P (taskEnd s d gid wgid tcb flt) := by
  cases flt with
  | none => exact (tcbWr_keeps hP h).bind fun _ h => (tcbRd_keeps hP h).bind fun _ h => (tcbRd_keeps hP h).bind fun _ h => decSuccs_keeps hP h
  | some c => exact (tcbWr_keeps hP h).bind fun _ h => (tcbWr_keeps hP h).bind fun _ h => postFault_keeps hP h

theorem addCost_keeps (hP : WorkFree P) (key : W64) (n : Nat) (h : P s) : P (addCost s key n) := by
  unfold addCost
  split
  · split
    · exact putRec_keeps hP _ _ _ h
    · exact h
  · exact h

theorem jobDo_keeps (hP : WorkFree P) (w : TaskJob) (h : P s) : Yields P (jobDo s d gid w) := by
  cases w with
  | look t =>
    exact (tcbRd_keeps hP h).bind fun _ h => (tcbRd_keeps hP h).bind fun _ h => .ite (.ok h)
      ((tcbWr_keeps hP h).bind fun _ h => enterReady_keeps hP h)
  | enter t => exact enterReady_keeps hP h
  | fault t wgid code => exact taskEnd_keeps hP (flt := some code) h
  | cost k n => exact .ite .error (.ok (addCost_keeps hP k n h))

theorem drainJobs_keeps (hP : WorkFree P) (l : List TaskJob) (h : P s) : P (drainJobs d gid l s) := by
  induction l generalizing s with
  | nil => exact hP.grids _ _ _ _ h
  | cons w l ih =>
    unfold drainJobs
    split
    · exact ih (jobDo_keeps hP w h _ ‹_›)
    · exact hP.grids _ _ _ _ (noteHeld_keeps hP.memory _ h)
    · exact ih h

theorem runJobs_keeps (hP : WorkFree P) (d gid : Nat) (h : P s) : P (runJobs s d gid) := by
  unfold runJobs
  split
  · exact ite_keeps h (drainJobs_keeps hP _ h)
  · exact h

theorem runAllJobs_keeps (hP : WorkFree P) (h : P s) : P (runAllJobs s) :=
  foldl_keeps (fun _ _ h => foldl_keeps (fun _ _ h => runJobs_keeps hP _ _ h) _ _ h) _ _ h

theorem releaseHeld_keeps (hP : WorkFree P) (hold : List W64) (h : P s) : P (releaseHeld s hold) :=
  foldl_keeps (fun _ _ h => foldl_keeps (fun _ _ h => foldl_keeps (fun _ _ h =>
    ite_keeps (runJobs_keeps hP _ _ (hP.grids _ _ _ _ (hP.grids _ _ _ _ h))) h) _ _ h) _ _ h) _ _ h

end

end Sys2Proof.Machine
end

section
/-! PROOFS. One operation of a directory agent (R113 to R115, R389), and O25. -/

namespace Sys2Proof.Machine

/-! ### Records and spaces -/

theorem space_of_keySpace {s : State} {k : W64} {x : Space} (h : keySpace s k = some x) :
    Tab.get? s.spaces (keySp k) = some x ∧ keyOkIn x k = true := by
  unfold keySpace at h
  split at h
  · split at h <;> cases h
    exact ⟨‹_›, ‹_›⟩
  · cases h

theorem keySpace_of_keyHere {s : State} {d : Nat} {k : W64} {x : Space} (h : keyHere s d k = some x) : keySpace s k = some x := by
  unfold keyHere at h
  split at h
  · split at h <;> cases h
    assumption
  · cases h

theorem space_of_spaceOk {s : State} {sp d : Nat} {x : Space} (h : spaceOk s sp d = some x) : Tab.get? s.spaces sp = some x := by
  unfold spaceOk at h
  split at h
  · split at h <;> cases h
    assumption
  · cases h

theorem HasRec.of_spaces {s t : State} {sp i : Nat} {r : KRec} (h : HasRec s sp i r) (hs : t.spaces = s.spaces) : HasRec t sp i r := by
  obtain ⟨x, hx, hr⟩ := h
  exact ⟨x, hs ▸ hx, hr⟩

/-- A record that an agent puts is there. -/
theorem putRec_hasRec {s : State} {sp : Nat} {x : Space} (h : Tab.get? s.spaces sp = some x) (i : Nat) (r : KRec) : HasRec (putRec s sp i r) sp i r := by
  have written : (putRec s sp i r).spaces = Tab.set s.spaces sp { x with recs := Tab.set x.recs i r } := by
    unfold putRec
    rw [h]
    exact agentWrite_sameSpaces _ _ _ _
  refine ⟨{ x with recs := Tab.set x.recs i r }, ?_, ?_⟩
  · rw [written, Tab.get?_set, if_pos rfl]
  · rw [Tab.get?_set, if_pos rfl]

/-! ### An operation in flight is answered (R318) -/

/-- The access once its operation has been performed. -/
def Acc.answered (a : Acc) : Except W64 (W64 × W64) → Acc
  | .error info => { a with st := .bad 0x11 info }
  | .ok (v, w) => { a with val := v, val2 := w, st := .done }

theorem flushDir_idle {s : State} (h : s.dirW = []) : flushDir s = s := by
  rw [flushDir, h]; rfl

/-- The first operation of its thread, whose deckle is usable and whose writes can be made, is answered, and changes no more than it does at its agent. -/
theorem directoryOperation_answers {s t : State} {a : Acc} {op : DirOp} {r : Except W64 (W64 × W64)} (hf : InFlight s a) (hk : a.kind = .dir op)
    (hst : a.st = .home) (hd : s.dirW = []) (hw : dirWaits s a.frag.die op = false)
    (first : ∀ x ∈ s.accs.takeWhile (fun x => x.id != a.id), x.uid ≠ a.uid ∨ x.thr ≠ a.thr)
    (hr : (if (op.sp? s).all (sameSpace s a.sid) then dirDo s a.frag.die op else (s, .error op.operand)) = (t, r)) (ht : t.dirW = [])
    (accs : t.accs = s.accs) :
    ∃ u, exec (.directoryOperation a.id) s = .next u ∧ u.mem = t.mem ∧ u.spaces = t.spaces ∧ u.acc? a.id = some (a.answered r) := by
  have flight : t.acc? a.id = some a := by rw [State.acc?, accs]; exact hf
  have answer : ∃ u, u.mem = t.mem ∧ u.spaces = t.spaces ∧ u.acc? a.id = some (a.answered r) ∧ dirAcc s a op =
      if dirWaiting u a.uid then u else u.modFrag a.frag (fun p => if p.uid == a.uid && p.wait == .dir then { p with wait := .none } else p) := by
    have ready {p : Bool} (hp : p = true → ∃ x ∈ s.accs.takeWhile (fun x => x.id != a.id), x.uid = a.uid ∧ x.thr = a.thr) :
        ¬ (a.st != .home || p) = true := by
      rw [hst]
      intro h
      obtain ⟨x, hx, hu, ht⟩ := hp (by simpa using h)
      exact (first x hx).elim (· hu) (· ht)
    unfold dirAcc
    simp only [flushDir_idle hd]
    rw [if_neg (ready fun h => ?_), if_neg (by simp [hw])]
    · simp only [hr, ht, hd, bne_self_eq_false, Bool.false_eq_true, if_false]
      cases r with
      | error info => exact ⟨t.modAcc a.id _, rfl, rfl, acc?_modAcc (g := fun a => { a with st := .bad 0x11 info }) flight (fun _ => rfl), rfl⟩
      | ok v => exact ⟨t.modAcc a.id _, rfl, rfl, acc?_modAcc (g := fun a => { a with val := v.1, val2 := v.2, st := .done }) flight (fun _ => rfl), rfl⟩
    · obtain ⟨x, hx, hp⟩ := List.any_eq_true.mp h
      simp only [Bool.and_eq_true, beq_iff_eq] at hp
      obtain ⟨⟨⟨hu, ht⟩, -⟩, -⟩ := hp
      exact ⟨x, hx, hu, ht⟩
  obtain ⟨u, mem, spaces, acc, done⟩ := answer
  have performed : exec (.directoryOperation a.id) s = .next (dirAcc s a op) := by
    show execDirectoryOperation a.id s = _
    unfold execDirectoryOperation
    rw [show s.acc? a.id = some a from hf]
    simp only [hk]
  rw [performed, done]
  split
  · exact ⟨u, rfl, mem, spaces, acc⟩
  · exact ⟨_, rfl, mem, spaces, acc⟩

theorem reapRec_seen {s : State} {sp i : Nat} {r : KRec} (h : r.st ≠ 0) : reapRec s sp i r = s := by
  simp [reapRec, h]

/-! ### What each operation does -/

section
variable {s : State} {d : Nat} {k va : W64} {w wr : Bool} {x : Space} {sp i : Nat} {r : KRec}

theorem dirDo_look (hx : keyHere s d k = some x) (hl : lookRec x k = some (i, r)) : dirDo s d (.look k w) = (s, .ok (recAddr x r, lookWord r k)) := by
  simp only [dirDo, hx, hl]

theorem dirDo_look_none (hx : keyHere s d k = some x) (hl : lookRec x k = none) : dirDo s d (.look k w) = (s, .error k) := by
  simp only [dirDo, hx, hl]

theorem dirDo_own (hx : keyHere s d k = some x) : dirDo s d (.own k) = (s, .ok (BitVec.ofNat 64 (ownerTgt x k).toNat, 0)) := by
  simp only [dirDo, hx]

theorem dirDo_pin_none (hx : keyHere s d k = some x) (hr : recOf x k = none) : dirDo s d (.pin k wr) = (s, .ok (0, 1)) := by
  simp only [dirDo, hx, hr]

/-- A write pin finds its block leaving (R115). -/
theorem dirDo_pin_leaving (hx : keyHere s d k = some x) (hr : recOf x k = some (i, r)) (hw : wr = true) (hst : r.st = 3) :
    dirDo s d (.pin k wr) = (s, .ok (recAddr x r, 2)) := by
  simp only [dirDo, hx, hr, hw, hst, beq_self_eq_true, Bool.and_self, if_true]

theorem not_leaving (h : wr = false ∨ r.st ≠ 3) : ¬ (wr && r.st == 3) = true := by
  obtain h | h := h <;> simp [h]

theorem dirDo_pin_full (hx : keyHere s d k = some x) (hr : recOf x k = some (i, r)) (hst : wr = false ∨ r.st ≠ 3)
    (full : 65535 ≤ (if wr then r.wpin else r.rpin)) : dirDo s d (.pin k wr) = (s, .ok (recAddr x r, 3)) := by
  simp only [dirDo, hx, hr, if_neg (not_leaving hst), ge_iff_le, if_pos full]

theorem dirDo_pin (hx : keyHere s d k = some x) (hr : recOf x k = some (i, r)) (hst : wr = false ∨ r.st ≠ 3)
    (room : (if wr then r.wpin else r.rpin) < 65535) :
    dirDo s d (.pin k wr) = (putRec s (keySp k) i (if wr then { r with wpin := r.wpin + 1 } else { r with rpin := r.rpin + 1 }), .ok (recAddr x r, 0)) := by
  simp only [dirDo, hx, hr, if_neg (not_leaving hst), ge_iff_le, if_neg (Nat.not_le_of_lt room)]

theorem dirDo_unpin_none (hr : recAt s va = none) : dirDo s d (.unpin va wr) = (s, .error va) := by
  simp only [dirDo, hr]

theorem dirDo_unpin (hr : recAt s va = some (sp, i, r)) (hx : spaceOk s sp d = some x) (hp : (if wr then r.wpin else r.rpin) ≠ 0) (hst : r.st ≠ 0) :
    dirDo s d (.unpin va wr) = (putRec s sp i (if wr then { r with wpin := r.wpin - 1 } else { r with rpin := r.rpin - 1 }), .ok (0, 0)) := by
  have pinned : ¬ (decide ((if wr then r.wpin else r.rpin) = 0) || (spaceOk s sp d).isNone) = true := by simp [hp, hx]
  simp only [dirDo, hr, if_neg pinned]
  rw [reapRec_seen]
  cases wr <;> exact hst

end

/-- An operation that its agent can perform is answered with what it comes to. -/
theorem AtAgent.answers {s t : State} {a : Acc} {op : DirOp} {r : Except W64 (W64 × W64)} (h : AtAgent s a op) (hr : dirDo s a.frag.die op = (t, r))
    (accs : t.accs = s.accs := by rfl) :
    ∃ u, exec (.directoryOperation a.id) s = .next u ∧ u.mem = t.mem ∧ u.spaces = t.spaces ∧ u.acc? a.id = some (a.answered r) := by
  obtain ⟨hf, hk, hst, hw, named, ⟨idle, passes⟩, first⟩ := h
  have passed : t.dirW = [] := by
    rw [← passes]
    exact congrArg (fun p => State.dirW p.1) hr.symm
  exact directoryOperation_answers hf hk hst idle hw first (by rw [if_pos named, hr]) passed accs

/-- Settles O25: each operation is what `dirDo` makes of the state, and its answer reaches the access. -/
theorem directoryOperations : Obligations.DirectoryOperations := by
  unfold Obligations.DirectoryOperations
  refine ⟨fun s a op hf hk hst hd hw first removed => ?removed, fun s a k w x h hx => ⟨fun i r hl => h.answers (dirDo_look hx hl), fun hl => ?lookNone⟩,
    fun s a k x h hx => h.answers (dirDo_own hx),
    fun s a k wr x h hx => ⟨fun hn => ?pinNone, fun i r hr => ⟨fun hwr hst => ?leaving, fun hst full => ?full, fun hst room => ?pinned⟩⟩,
    fun s a va wr h => ⟨fun hn => ?unpinNone, fun sp i r x hr hx hp hst => ?unpinned⟩⟩
  case removed =>
    obtain ⟨u, he, -, hs, ha⟩ := directoryOperation_answers hf hk hst hd hw first (by rw [if_neg (by simp [removed])]) hd rfl
    exact ⟨u, he, hs, ha⟩
  case lookNone =>
    obtain ⟨u, he, -, -, ha⟩ := h.answers (dirDo_look_none hx hl)
    exact ⟨u, he, ha⟩
  case pinNone =>
    obtain ⟨u, he, -, hs, ha⟩ := h.answers (dirDo_pin_none hx hn)
    exact ⟨u, he, hs, ha⟩
  case leaving =>
    obtain ⟨u, he, -, hs, ha⟩ := h.answers (dirDo_pin_leaving hx hr hwr hst)
    exact ⟨u, he, hs, ha⟩
  case full =>
    obtain ⟨u, he, -, hs, ha⟩ := h.answers (dirDo_pin_full hx hr hst full)
    exact ⟨u, he, hs, ha⟩
  case pinned =>
    obtain ⟨u, he, -, hs, ha⟩ := h.answers (dirDo_pin hx hr hst room) (putRec_written _ _ _ _).accs
    exact ⟨u, he, ha, (putRec_hasRec (space_of_keySpace (keySpace_of_keyHere hx)).1 i _).of_spaces hs⟩
  case unpinNone =>
    obtain ⟨u, he, -, -, ha⟩ := h.answers (dirDo_unpin_none hn)
    exact ⟨u, he, ha⟩
  case unpinned =>
    obtain ⟨u, he, -, hs, ha⟩ := h.answers (dirDo_unpin hr hx hp hst) (putRec_written _ _ _ _).accs
    exact ⟨u, he, ha, (putRec_hasRec (space_of_spaceOk hx) i _).of_spaces hs⟩

end Sys2Proof.Machine
end

section
/-! PROOFS. Structural commands at their agent (R104, R117 to R120, R389), and O26. -/

namespace Sys2Proof.Machine

/-! ### Tables of records -/

theorem Tab.ne_of_mem_erase {α : Type} {t : Tab α} {i : Nat} {e : Nat × α} (h : e ∈ Tab.erase t i) : e.1 ≠ i := by
  induction t with
  | nil => cases h
  | cons c rest ih =>
    unfold Tab.erase at h
    split at h
    · exact ih h
    · obtain rfl | h := List.mem_cons.mp h
      · assumption
      · exact ih h

/-- A space without the records `l`, which its pools have back (R104, R118). -/
def withoutRecs (x : Space) (l : List (Nat × KRec)) : Space :=
  l.foldl (fun x e => { (freePool x e.2 true) with recs := Tab.erase x.recs e.1 }) x

theorem mem_withoutRecs {x : Space} {l : List (Nat × KRec)} {e : Nat × KRec} (h : e ∈ (withoutRecs x l).recs) : e ∈ x.recs ∧ e ∉ l := by
  induction l generalizing x with
  | nil => exact ⟨h, List.not_mem_nil⟩
  | cons c l ih =>
    obtain ⟨erased, away⟩ := ih (x := { (freePool x c.2 true) with recs := Tab.erase x.recs c.1 }) h
    refine ⟨Tab.mem_erase erased, fun hc => ?_⟩
    obtain rfl | hc := List.mem_cons.mp hc
    · exact Tab.ne_of_mem_erase erased rfl
    · exact away hc

/-! ### A key is none of its children -/

theorem keyLv_badKey : keyLv badKey = 63 := by decide

theorem not_mem_childKeys {x : Space} {k : W64} (h : keyOkIn x k = true) : k ∉ childKeys x k := by
  intro hk
  obtain ⟨c, hc, he⟩ := List.mem_map.mp hk
  have hlv := congrArg keyLv he
  have hle : keyLv k ≤ maxLev x.dim := (keyOkIn_iff.mp h).1
  by_cases hl : keyLv k = maxLev x.dim
  · rw [keyChild, if_pos hl, keyLv_badKey] at hlv
    have : maxLev x.dim ≤ 54 := Nat.div_le_self _ _
    omega
  · rw [keyLv_keyChild h (by omega) (List.mem_range.mp hc)] at hlv
    omega

theorem recOf_key {x : Space} {k : W64} {i : Nat} {r : KRec} (h : recOf x k = some (i, r)) : r.key = k := by
  have := List.find?_some h
  simp only [Bool.and_eq_true, beq_iff_eq] at this
  exact this.1.1

/-! ### The step of an agent whose writes can be made (R104) -/

theorem dirStep_passes {s : State} {g : State → State} (h : Passes s g) : dirStep s g = g s := by
  obtain ⟨idle, passes⟩ := h
  rw [dirStep, flushDir_idle idle]
  simp [idle, passes]

theorem cmdsAre_memoryFree (l : List Cmd) : MemoryFree (fun t => t.cmds = l) := fun _ _ _ _ _ _ h => h

theorem cmdsAre_workFree (l : List Cmd) : WorkFree (fun t => t.cmds = l) where
  memory := cmdsAre_memoryFree l
  grids _ _ _ _ h := h
  records _ _ _ _ _ h := h

/-- A command has its status (R83). -/
theorem cmd?_cmdDone {s t : State} {x : Cmd} (h : s.cmd? x.id = some x) (ht : t.cmds = s.cmds) (st : W64) :
    (cmdDone t x.id st).cmd? x.id = some { x with st := .done st } :=
  cmd?_modCmd (g := fun c => { c with st := .done st }) (by rw [State.cmd?, ht]; exact h) (fun _ => rfl)

/-! ### What the pools give (R102, R104, R117) -/

theorem pickOf_rest {α : Type} {s u : State} {l : List α} {o : Option α} (h : pickOf s l = (o, u)) : u = { s with freeIx := u.freeIx } := by
  cases l <;> cases h <;> rfl

/-- Taking from the pools changes the parts of a space, and draws free values. -/
theorem takePool_rest {s u : State} {x : Space} {j : Nat} {sl : Bool} {o : Option (Space × (Nat × Nat) × Option (Nat × Nat))}
    (h : takePool s x j sl = (o, u)) : u = { s with freeIx := u.freeIx } ∧ ∀ v ∈ o, v.1 = { x with parts := v.1.parts } := by
  unfold takePool at h
  split at h
  · rename_i hr
    cases h
    exact ⟨pickOf_rest hr, nofun⟩
  · rename_i hr
    have taken := pickOf_rest hr
    dsimp only at h
    split at h
    · cases h
      refine ⟨taken, ?_⟩
      rintro _ ⟨⟩
      rfl
    · split at h
      · rename_i hs
        cases h
        refine ⟨?_, nofun⟩
        rw [pickOf_rest hs, taken]
      · rename_i hs
        cases h
        refine ⟨?_, ?_⟩
        · rw [pickOf_rest hs, taken]
        · rintro _ ⟨⟩
          rfl

theorem makeKids_cmds (j : Nat) (p : KRec) (fmt : Byte) (size : Nat) (l : List W64) (x : Space) (s : State) :
    (makeKids j p fmt size l x s).2.cmds = s.cmds := by
  induction l generalizing x s with
  | nil => rfl
  | cons k l ih =>
    unfold makeKids
    split
    · rename_i h
      rw [ih, (takePool_rest h).1]
    · rename_i h
      dsimp only
      rw [(takePool_rest h).1]

/-! ### The two commands (R117, R118) -/

section Struct
variable {s : State} {x : Cmd} {k : W64} {fmt code : Nat} {y : Space} {i : Nat} {r : KRec}

theorem exec_structural (ha : s.acc? x.id = none) (hx : s.cmd? x.id = some x) (hk : x.kind.skey? = some k) (hp : Passes s (fun s => structDo s x k)) :
    exec (.directoryOperation x.id) s = .next (structDo s x k) := by
  have turned : exec (.directoryOperation x.id) s = .next (dirStep s (fun s => structDo s x k)) := by
    show execDirectoryOperation x.id s = _
    unfold execDirectoryOperation
    simp only [ha, hx, hk]
  rw [turned, dirStep_passes hp]

/-- Nothing holds the command: its deckle is usable, no write of its agent waits, and no earlier command of its warp is ahead (R104, R112, R320). -/
structure Unheld (s : State) (x : Cmd) (k : W64) : Prop where
  waiting : x.st = .waiting
  first : skeyHeld s x k = false
  usable : ∀ y, Tab.get? s.spaces (keySp k) = some y → deckleStall y x.die = false
  idle : s.dirW = []

theorem Unheld.no_stall (h : Unheld s x k) :
    (Tab.get? s.spaces (keySp k)).any (fun y => deckleStall y x.die || agentBusy s (segDie y (partOf y.cuts k))) = false := by
  cases hy : Tab.get? s.spaces (keySp k) with
  | none => rfl
  | some y => simp [h.usable y hy, agentBusy, h.idle]

theorem structDo_refine (h : Unheld s x k) (hk : x.kind = .refine k fmt) : structDo s x k = refineDo s x k fmt := by
  rw [structDo, h.no_stall, h.first, h.waiting, hk]
  rfl

theorem structDo_coarsen (h : Unheld s x k) (hk : x.kind = .coarsen k) : structDo s x k = coarsenDo s x k := by
  rw [structDo, h.no_stall, h.first, h.waiting, hk]
  rfl

theorem refineDo_fails (h : (if sameSpace s x.sid (keySp k) then refineFail s x.die k fmt else some 0x30) = some code) :
    refineDo s x k fmt = cmdDone s x.id (BitVec.ofNat 64 code) := by
  simp only [refineDo, h]

theorem coarsenDo_fails (h : (if sameSpace s x.sid (keySp k) then coarsenFail s x.die k else some 0x30) = some code) :
    coarsenDo s x k = cmdDone s x.id (BitVec.ofNat 64 code) := by
  simp only [coarsenDo, h]

/-- A `refine` that passes makes the leaf interior with cost 0 (R117). -/
theorem refineDo_passes (hx : s.cmd? x.id = some x) (hs : sameSpace s x.sid (keySp k) = true) (hf : refineFail s x.die k fmt = none)
    (hy : keySpace s k = some y) (hr : recOf y k = some (i, r)) :
    (refineDo s x k fmt).cmd? x.id = some { x with st := .done 0 } ∧ HasRec (refineDo s x k fmt) (keySp k) i { r with st := 2, cost := 0 } := by
  simp only [refineDo, hs, if_true, hf, hy, hr]
  generalize hm : makeKids _ _ _ _ _ _ _ = m
  have kept : m.2.cmds = s.cmds := by rw [← hm]; exact makeKids_cmds _ _ _ _ _ _ _
  refine ⟨cmd?_cmdDone hx ?_ 0, { m.1 with recs := Tab.set m.1.recs i { r with st := 2, cost := 0 } }, ?_, ?_⟩
  · exact syncSpace_keeps (cmdsAre_memoryFree _) _ kept
  · refine (congrArg (fun l => Tab.get? l (keySp k)) (syncSpace_sameSpaces _ _)).trans ?_
    rw [State.setSpace_spaces, Tab.get?_set, if_pos rfl]
  · rw [Tab.get?_set, if_pos rfl]

/-- The children of a block that are leaves (R118). -/
def leafKids (y : Space) (k : W64) : List (Nat × KRec) := y.recs.filter (fun e => (childKeys y k).contains e.2.key && e.2.st == 1)

/-- The block as a leaf: its cost is the sum of its children's, saturating (R118). -/
def coarsened (y : Space) (k : W64) (r : KRec) : KRec :=
  { r with st := 1, cost := BitVec.ofNat 32 (min 0xFFFFFFFF (sumN ((leafKids y k).map (fun e => e.2.cost.toNat)))) }

/-- A `coarsen` that passes makes the block a leaf and drops its children (R118). -/
theorem coarsenDo_passes (hx : s.cmd? x.id = some x) (hs : sameSpace s x.sid (keySp k) = true) (hf : coarsenFail s x.die k = none)
    (hy : keySpace s k = some y) (hr : recOf y k = some (i, r)) :
    (coarsenDo s x k).cmd? x.id = some { x with st := .done 0 } ∧ ∃ y', Tab.get? (coarsenDo s x k).spaces (keySp k) = some y' ∧
      y'.recs = Tab.set (withoutRecs y (leafKids y k)).recs i (coarsened y k r) := by
  simp only [coarsenDo, hs, if_true, hf, hy, hr]
  refine ⟨cmd?_cmdDone hx ?_ 0, { withoutRecs y (leafKids y k) with
    recs := Tab.set (withoutRecs y (leafKids y k)).recs i (coarsened y k r) }, ?_, rfl⟩
  · refine syncSpace_keeps (cmdsAre_memoryFree _) _ ?_
    exact foldl_keeps (P := fun t => t.cmds = s.cmds) (fun _ _ h => putRec_keeps (cmdsAre_workFree _) _ _ _ h) _ s rfl
  · refine (congrArg (fun l => Tab.get? l (keySp k)) (syncSpace_sameSpaces _ _)).trans ?_
    rw [State.setSpace_spaces, Tab.get?_set, if_pos rfl]
    rfl

theorem coarsened_no_leaf_kid (hy : keySpace s k = some y) (hr : recOf y k = some (i, r)) {e : Nat × KRec}
    (he : e ∈ Tab.set (withoutRecs y (leafKids y k)).recs i (coarsened y k r)) (hk : (childKeys y k).contains e.2.key = true) : e.2.st ≠ 1 := by
  intro hst
  obtain rfl | he := Tab.mem_set he
  · have own : r.key = k := recOf_key hr
    exact not_mem_childKeys (space_of_keySpace hy).2 (by simpa [coarsened, own] using hk)
  · obtain ⟨there, no_kid⟩ := mem_withoutRecs he
    exact no_kid (List.mem_filter.mpr ⟨there, by simp [hst, List.contains_iff_mem.mp hk]⟩)

end Struct

/-- Settles O26: the turn of the agent is `refineDo` or `coarsenDo`, whose writes leave commands and spaces as they are. -/
theorem structuralCommands : Obligations.StructuralCommands := by
  unfold Obligations.StructuralCommands
  intro s x k ha hx hst held usable hp
  have unheld : Unheld s x k := ⟨hst, held, usable, hp.1⟩
  have refined {fmt : Nat} (hk : x.kind = .refine k fmt) : exec (.directoryOperation x.id) s = .next (refineDo s x k fmt) := by
    rw [exec_structural ha hx (by rw [hk]; rfl) hp, structDo_refine unheld hk]
  have coarse (hk : x.kind = .coarsen k) : exec (.directoryOperation x.id) s = .next (coarsenDo s x k) := by
    rw [exec_structural ha hx (by rw [hk]; rfl) hp, structDo_coarsen unheld hk]
  refine ⟨?removed, fun hs => ⟨fun fmt code hk hf => ?refineFails, fun code hk hf => ?coarsenFails, fun fmt y i r hk hf hy hr => ?refines,
    fun y i r hk hf hy hr => ?coarsens⟩⟩
  case removed =>
    rintro hs (hk | ⟨fmt, hk⟩)
    · exact ⟨_, (coarse hk).trans (congrArg _ (coarsenDo_fails (code := 0x30) (by simp [hs]))), rfl, cmd?_cmdDone hx rfl _⟩
    · exact ⟨_, (refined hk).trans (congrArg _ (refineDo_fails (code := 0x30) (by simp [hs]))), rfl, cmd?_cmdDone hx rfl _⟩
  case refineFails =>
    exact ⟨_, (refined hk).trans (congrArg _ (refineDo_fails (by rw [if_pos hs, hf]))), rfl, rfl, cmd?_cmdDone hx rfl _⟩
  case coarsenFails =>
    exact ⟨_, (coarse hk).trans (congrArg _ (coarsenDo_fails (by rw [if_pos hs, hf]))), rfl, rfl, cmd?_cmdDone hx rfl _⟩
  case refines =>
    obtain ⟨hc, hrec⟩ := refineDo_passes hx hs hf hy hr
    exact ⟨_, refined hk, hc, hrec⟩
  case coarsens =>
    obtain ⟨hc, y', hy', recs⟩ := coarsenDo_passes hx hs hf hy hr
    refine ⟨_, y', coarse hk, hc, hy', ?_, fun e he hkid => ?_⟩
    · rw [recs, Tab.get?_set, if_pos rfl]
      rfl
    · exact coarsened_no_leaf_kid hy hr (recs ▸ he) hkid

end Sys2Proof.Machine
end

section
/-! PROOFS. The steps of a rebalance and cost counts (R112, R121 to R128, R458), and O27. -/

namespace Sys2Proof.Machine

/-! ### What is said of a key space whatever its records and pools are -/

/-- The space of number `sp` satisfies `Q`. -/
def SpaceHas (sp : Nat) (Q : Space → Prop) (s : State) : Prop := ∃ y, Tab.get? s.spaces sp = some y ∧ Q y

/-- `Q` does not rest on the records of a space or on the pools of its parts. -/
def PoolFree (Q : Space → Prop) : Prop := ∀ y recs parts, Q y → Q { y with recs := recs, parts := parts }

section
variable {s t : State} {sp : Nat} {Q : Space → Prop} {x : Space}

theorem SpaceHas.of_spaces (h : SpaceHas sp Q s) (ht : t.spaces = s.spaces) : SpaceHas sp Q t := by
  obtain ⟨y, hy, hq⟩ := h
  exact ⟨y, ht ▸ hy, hq⟩

theorem get?_setSpace (s : State) (sp : Nat) (x : Space) : Tab.get? (s.setSpace sp x).spaces sp = some x := by
  rw [State.setSpace_spaces, Tab.get?_set, if_pos rfl]

theorem SpaceHas.setSpace (hq : Q x) : SpaceHas sp Q (s.setSpace sp x) := ⟨x, get?_setSpace s sp x, hq⟩

/-- A space whose records and pools have changed. -/
theorem SpaceHas.setPools (hQ : PoolFree Q) {j : Nat} (hx : Tab.get? s.spaces j = some x) (h : SpaceHas sp Q s) (recs : List (Nat × KRec)) (parts : List Part) :
    SpaceHas sp Q (s.setSpace j { x with recs := recs, parts := parts }) := by
  obtain ⟨y, hy, hq⟩ := h
  by_cases hj : j = sp
  · subst hj
    obtain rfl : x = y := Option.some_injective _ (hx.symm.trans hy)
    exact .setSpace (hQ x recs parts hq)
  · exact ⟨y, by rw [State.setSpace_spaces, Tab.get?_set, if_neg hj]; exact hy, hq⟩

theorem spaceHas_workFree (sp : Nat) (hQ : PoolFree Q) : WorkFree (SpaceHas sp Q) where
  memory _ _ _ _ _ _ h := h
  grids _ _ _ _ h := h
  records _ _ x recs hx h := h.setPools hQ hx recs x.parts

theorem reapRec_keeps (hQ : PoolFree Q) (j i : Nat) (r : KRec) (h : SpaceHas sp Q s) : SpaceHas sp Q (reapRec s j i r) := by
  unfold reapRec
  split
  · split
    · rename_i x hx
      have cleared : SpaceHas sp Q (clearRec s j i r) := putRec_keeps (spaceHas_workFree sp hQ) _ _ _ h
      obtain ⟨y, hy, hq⟩ := h
      by_cases hj : j = sp
      · subst hj
        obtain rfl : x = y := Option.some_injective _ (hx.symm.trans hy)
        have pools : freePool x r (!r.keep) = { x with parts := (freePool x r (!r.keep)).parts } := by
          unfold freePool
          cases r.keep <;> rfl
        rw [pools]
        exact .setSpace (hQ x _ _ hq)
      · obtain ⟨z, hz, hq⟩ := cleared
        exact ⟨z, by rw [State.setSpace_spaces, Tab.get?_set, if_neg hj]; exact hz, hq⟩
    · exact h
  · exact h

end

theorem Tab.get?_map {α β : Type} (t : Tab α) (f : α → β) (i : Nat) : Tab.get? (t.map (fun e => (e.1, f e.2))) i = (Tab.get? t i).map f := by
  induction t with
  | nil => rfl
  | cons e t ih =>
    simp only [List.map_cons, Tab.get?]
    split
    · rfl
    · exact ih

theorem Space.live_of {y : Space} {r : Rebal} (hr : y.rebal = some r) (he : r.ended = false) : y.live = some r := by
  simp [Space.live, hr, he]

theorem Space.rebal_modRebal {y : Space} {r : Rebal} (hr : y.rebal = some r) (g : Rebal → Rebal) : (y.modRebal g).rebal = some (g r) := by
  rw [Space.modRebal, hr]
  rfl

/-! ### A `rebal` is accepted and made known (R122) -/

section Notify
variable {s : State} {x : Cmd} {y : Space} {r : Rebal} {sp desc : Nat}

theorem rebalanceNotify_refuses (hx : s.cmd? x.id = some x) (hk : x.kind = .rebal sp desc) (hst : x.st = .waiting) (hy : Tab.get? s.spaces sp = some y)
    (held : rebalHeld s x sp = false) (usable : deckleStall y x.die = false) (same : sameSpace s x.sid sp = true) (hr : y.rebal.isSome = true) :
    ∃ t, exec (.rebalanceNotify x.id) s = .next t ∧ t.cmd? x.id = some { x with st := .done 0x36 } ∧ t.spaces = s.spaces := by
  refine ⟨cmdDone s x.id 0x36, ?_, cmd?_cmdDone hx rfl _, rfl⟩
  show execRebalanceNotify x.id s = _
  unfold execRebalanceNotify
  simp only [hx, hk, hy, hst, held, usable, same, hr, beq_self_eq_true, if_true, Bool.or_self, Bool.false_eq_true, if_false, Bool.not_true]

/-- The rebalance of an accepted `rebal`, with the fields of its descriptor (R122). -/
def acceptedRebal (s : State) (x : Cmd) (y : Space) (desc : Nat) : Rebal :=
  let n := y.cuts.length
  let bs := scrRead (s.core x.die x.core) desc (rebalLen n)
  { cmd := x.id, mask := BitVec.ofNat 128 (fieldAt bs 0 16), h := fieldAt bs 16 2, pat := fieldAt bs 20 4
    w := (List.range (n + 1)).map (fun p => fieldAt bs (32 + 2 * p) 2) }

theorem rebalanceNotify_accepts (hx : s.cmd? x.id = some x) (hk : x.kind = .rebal sp desc) (hst : x.st = .waiting) (hy : Tab.get? s.spaces sp = some y)
    (held : rebalHeld s x sp = false) (usable : deckleStall y x.die = false) (same : sameSpace s x.sid sp = true) (hr : y.rebal = none) :
    ∃ t y' r, exec (.rebalanceNotify x.id) s = .next t ∧ t.cmd? x.id = some { x with st := .running } ∧
      Tab.get? t.spaces sp = some y' ∧ y'.rebal = some r ∧ r.cmd = x.id ∧ r.stage = 0 ∧ r.noted = [] ∧ y'.cuts = y.cuts ∧ y'.recs = y.recs := by
  refine ⟨(s.setSpace sp { y with rebal := some (acceptedRebal s x y desc) }).modCmd x.id (fun c => { c with st := .running }),
    { y with rebal := some (acceptedRebal s x y desc) }, acceptedRebal s x y desc, ?_,
    cmd?_modCmd (s := s.setSpace sp _) (g := fun c => { c with st := .running }) hx (fun _ => rfl), get?_setSpace s sp _, rfl, rfl, rfl, rfl, rfl, rfl⟩
  show execRebalanceNotify x.id s = _
  unfold execRebalanceNotify
  simp only [hx, hk, hy, hst, held, usable, same, hr, beq_self_eq_true, if_true, Bool.or_self, Bool.false_eq_true, if_false, Bool.not_true,
    Option.isSome_none, acceptedRebal]

theorem pickOf_mem {α : Type} (s : State) {l : List α} (h : l ≠ []) : ∃ a u, pickOf s l = (some a, u) ∧ a ∈ l := by
  cases l with
  | nil => exact absurd rfl h
  | cons a l =>
    refine ⟨_, _, rfl, ?_⟩
    have hi : (s.takeNat (a :: l).length).1 < (a :: l).length := Nat.mod_lt _ (Nat.succ_pos _)
    exact (List.getElem?_eq_getElem hi) ▸ List.getElem_mem hi

/-- One more agent receives its notification. -/
theorem rebalanceNotify_notes (hx : s.cmd? x.id = some x) (hk : x.kind = .rebal sp desc) (hst : x.st = .running) (hy : Tab.get? s.spaces sp = some y)
    (hr : y.rebal = some r) (he : r.ended = false) (hc : r.cmd = x.id) (h0 : r.stage = 0) (some_left : ∃ j, j < y.parts.length ∧ r.noted.contains j = false) :
    ∃ t y' j, exec (.rebalanceNotify x.id) s = .next t ∧ Tab.get? t.spaces sp = some y' ∧ j < y.parts.length ∧
      r.noted.contains j = false ∧ y'.rebal = some { r with noted := j :: r.noted } ∧ y'.recs = y.recs := by
  have left : (List.range y.parts.length).filter (fun j => !r.noted.contains j) ≠ [] := by
    obtain ⟨j, hj, hn⟩ := some_left
    exact List.ne_nil_of_mem (List.mem_filter.mpr ⟨List.mem_range.mpr hj, by simpa using hn⟩)
  obtain ⟨j, u, hp, hj⟩ := pickOf_mem s left
  obtain ⟨hlt, hn⟩ := List.mem_filter.mp hj
  refine ⟨u.setSpace sp (y.modRebal (fun r => { r with noted := j :: r.noted })),
    y.modRebal (fun r => { r with noted := j :: r.noted }), j, ?_, get?_setSpace _ _ _, List.mem_range.mp hlt, by simpa using hn, Space.rebal_modRebal hr _, rfl⟩
  show execRebalanceNotify x.id s = _
  unfold execRebalanceNotify
  simp only [hx, hk, hy, hst, Space.live_of hr he, hc, h0, hp, show (CmdSt.running == CmdSt.waiting) = false from rfl, Bool.false_eq_true, if_false,
    bne_self_eq_false, Bool.or_self]

end Notify

/-! ### Cuts are planned, and the wait for write pins ends (R123 to R126) -/

section Plan
variable {s : State} {y : Space} {r : Rebal} {sp : Nat}

/-- A record once the cuts `cuts` are planned: it leaves where they give its key another part (R124). -/
def marked (y : Space) (cuts : List W64) (k : KRec) : KRec :=
  if (k.st == 1 || k.st == 2) && partOf y.cuts k.key != partOf cuts k.key then
    { k with st := 3, ivm := k.st == 2, ftgt := partTgt y (partOf cuts k.key), newPart := some (partOf cuts k.key) }
  else k

/-- The space once its cuts are planned (R123, R124). -/
def planned (s : State) (y : Space) (r : Rebal) : Space :=
  { y with recs := y.recs.map (fun e => (e.1, marked y (planCuts y r) e.2))
           rebal := some { r with stage := 2, newCuts := planCuts y r, markAt := s.clock } }

theorem planStep_eq (hy : Tab.get? s.spaces sp = some y) (hr : y.rebal = some r) (he : r.ended = false) (h0 : r.stage = 0)
    (noted : y.parts.length ≤ r.noted.length) : planStep sp s = syncSpace (s.setSpace sp (planned s y r)) sp := by
  have ready : ¬ (r.stage != 0 || decide (r.noted.length < y.parts.length)) = true := by simp [h0, noted]
  unfold planStep
  simp only [hy, Space.live_of hr he, if_neg ready, Space.modRebal, hr, Option.map_some]
  rfl

theorem marked_cases (y : Space) (cuts : List W64) (k : KRec) :
    (marked y cuts k).key = k.key ∧ (marked y cuts k).slot = k.slot ∧
      ((k.st = 1 ∨ k.st = 2) → partOf y.cuts k.key ≠ partOf cuts k.key →
        (marked y cuts k).st = 3 ∧ (marked y cuts k).ivm = (k.st == 2) ∧ (marked y cuts k).ftgt = partTgt y (partOf cuts k.key)) ∧
      (partOf y.cuts k.key = partOf cuts k.key → marked y cuts k = k) := by
  unfold marked
  split
  · rename_i moves
    have other : partOf y.cuts k.key ≠ partOf cuts k.key := by simpa using (Bool.and_eq_true_iff.mp moves).2
    exact ⟨rfl, rfl, fun _ _ => ⟨rfl, rfl, rfl⟩, fun h => absurd h other⟩
  · rename_i stays
    exact ⟨rfl, rfl, fun hst hne => absurd (by simp [hst, hne]) stays, fun _ => rfl⟩

theorem rebalancePlan_plans (hy : Tab.get? s.spaces sp = some y) (hr : y.rebal = some r) (he : r.ended = false) (h0 : r.stage = 0)
    (noted : y.parts.length ≤ r.noted.length) (hp : Passes s (planStep sp)) :
    ∃ t, exec (.rebalancePlan sp) s = .next t ∧ Tab.get? t.spaces sp = some (planned s y r) := by
  refine ⟨planStep sp s, congrArg _ (dirStep_passes hp), ?_⟩
  rw [planStep_eq hy hr he h0 noted]
  exact (congrArg (fun l => Tab.get? l sp) (syncSpace_sameSpaces _ _)).trans (get?_setSpace _ _ _)

theorem patienceExpiry_ends (hy : Tab.get? s.spaces sp = some y) (hr : y.rebal = some r) (he : r.ended = false) (h2 : r.stage = 2)
    (runs : (s.die y.home).halt = false) (due : r.markAt + r.pat ≤ s.clock) :
    ∃ t y', exec (.patienceExpiry sp) s = .next t ∧ Tab.get? t.spaces sp = some y' ∧ y'.rebal = some { r with late := true } := by
  refine ⟨s.setSpace sp (y.modRebal (fun r => { r with late := true })), _, ?_, get?_setSpace _ _ _, Space.rebal_modRebal hr _⟩
  show execPatienceExpiry sp s = _
  unfold execPatienceExpiry
  simp only [hy, Space.live_of hr he]
  rw [if_pos (by simp [runs, h2, due])]

/-- The patience does not run out while the home die is halted (log entry 99). -/
theorem patienceExpiry_halted (hy : Tab.get? s.spaces sp = some y) (halted : (s.die y.home).halt = true) : exec (.patienceExpiry sp) s = .next s := by
  show execPatienceExpiry sp s = _
  unfold execPatienceExpiry
  simp only [hy, halted, Bool.not_true, Bool.false_and, Bool.false_eq_true, if_false]

/-- The cuts at which a rebalance stops (R125). -/
def stoppedCuts (y : Space) (r : Rebal) : List W64 := (y.cuts.zip r.newCuts).map (fun p => stopCut y p.1 p.2)

/-- The space has stopped its cuts: those in force are as they were, and the rebalance `r` carries records to `stoppedCuts` (R125, R126). -/
def Carrying (y : Space) (r : Rebal) (x : Space) : Prop :=
  x.cuts = y.cuts ∧ ∃ r', x.rebal = some r' ∧ r'.stage = 3 ∧ r'.cmd = r.cmd ∧ r'.newCuts = stoppedCuts y r

theorem carrying_poolFree (y : Space) (r : Rebal) : PoolFree (Carrying y r) := fun _ _ _ h => h

theorem Carrying.modRebal {x : Space} (h : Carrying y r x) {g : Rebal → Rebal} (hs : ∀ b, (g b).stage = b.stage) (hc : ∀ b, (g b).cmd = b.cmd)
    (hn : ∀ b, (g b).newCuts = b.newCuts) : Carrying y r (x.modRebal g) := by
  obtain ⟨cuts, b, hb, h3, cmd, new⟩ := h
  exact ⟨cuts, g b, Space.rebal_modRebal hb g, (hs b).trans h3, (hc b).trans cmd, (hn b).trans new⟩

theorem carryRec_keeps (i : Nat) (hov : List Nat) (h : SpaceHas sp (Carrying y r) s) : SpaceHas sp (Carrying y r) (carryRec sp i hov s) := by
  obtain ⟨x, hx, hc⟩ := id h
  unfold carryRec
  rw [hx]
  dsimp only
  split
  · exact h
  · split
    · exact h
    · split
      · exact h
      · split
        · rename_i z seg rix slot u taken
          have pools : Carrying y r z := by
            have same : z = { x with parts := z.parts } := (takePool_rest taken).2 _ rfl
            rw [same]
            exact hc
          split
          · exact .setSpace (pools.modRebal (fun _ => rfl) (fun _ => rfl) (fun _ => rfl))
          · exact .setSpace pools
        · exact .setSpace (hc.modRebal (fun _ => rfl) (fun _ => rfl) (fun _ => rfl))

theorem carryRecs_keep (l : List (Nat × KRec)) (hov : List Nat) (h : SpaceHas sp (Carrying y r) s) :
    SpaceHas sp (Carrying y r) (l.foldl (fun s e => carryRec sp e.1 hov s) s) := foldl_keeps (fun _ _ h => carryRec_keeps _ _ h) l s h

/-- The cuts stop, and carrying begins (R125, R126). -/
theorem rebalanceStops_stops (hy : Tab.get? s.spaces sp = some y) (hr : y.rebal = some r) (he : r.ended = false) (h2 : r.stage = 2)
    (done : r.late = true ∨ ∀ e ∈ y.recs, e.2.st = 3 → e.2.wpin = 0) (hp : Passes s (stopsStep sp)) :
    ∃ t, exec (.rebalanceStops sp) s = .next t ∧ SpaceHas sp (Carrying y r) t := by
  refine ⟨stopsStep sp s, congrArg _ (dirStep_passes hp), ?_⟩
  have ended : ¬ (r.stage != 2 || !(r.late || y.recs.all (fun e => e.2.st != 3 || e.2.wpin == 0))) = true := by
    have rested : (r.late || y.recs.all (fun e => e.2.st != 3 || e.2.wpin == 0)) = true := by
      simpa [← imp_iff_not_or] using done
    simp [h2, rested]
  have keeps := spaceHas_workFree sp (carrying_poolFree y r)
  unfold stopsStep
  simp only [hy, Space.live_of hr he, if_neg ended]
  refine releaseHeld_keeps keeps _ (syncSpace_keeps keeps.memory _ (carryRecs_keep _ _ (.setSpace ?_)))
  exact ⟨rfl, _, Space.rebal_modRebal hr _, rfl, rfl, rfl⟩

end Plan

/-! ### A failed copy ends the rebalance (R126) -/

section Abort
variable {s : State} {x : Cmd} {y : Space} {r : Rebal} {sp : Nat} {st : W64}

/-- What has been carried is given up: the records that had arrived go. -/
def givenUp (y : Space) : Space :=
  y.recs.foldl (fun (x : Space) (e : Nat × KRec) =>
    if e.2.st == 4 then
      let kept := x.recs.any (fun o => o.2.arr == some e.1 && o.2.keep)
      { (freePool x e.2 (!kept)) with recs := Tab.erase x.recs e.1 }
    else x) y

theorem freePool_cuts (y : Space) (r : KRec) (slot : Bool) : (freePool y r slot).cuts = y.cuts := by
  cases slot <;> rfl

theorem givenUp_cuts (y : Space) : (givenUp y).cuts = y.cuts :=
  foldl_keeps (P := fun x => x.cuts = y.cuts) (fun z e h => by
    dsimp only
    split
    · exact (freePool_cuts _ _ _).trans h
    · exact h) _ y rfl

/-- The copies of a rebalance are given up (R126). -/
def withoutCopies (s : State) (r : Rebal) : State := { s with cmds := s.cmds.filter (fun c => !(r.copies.map (·.1)).contains c.id) }

theorem cmd?_withoutCopies (hx : s.cmd? r.cmd = some x) (other : r.copies.all (fun e => e.1 != r.cmd) = true) :
    (withoutCopies s r).cmd? r.cmd = some x := by
  have stays : (!(r.copies.map (·.1)).contains r.cmd) = true := by
    simp only [Bool.not_eq_true', List.contains_eq_mem, decide_eq_false_iff_not]
    intro h
    obtain ⟨e, he, hc⟩ := List.mem_map.mp h
    have := List.all_eq_true.mp other e he
    simp [hc] at this
  unfold State.cmd? at hx ⊢
  rw [withoutCopies, List.find?_filter, ← hx]
  congr 1
  funext c
  by_cases hc : c.id = r.cmd
  · rw [hc, stays]
    simp
  · simp [hc]

/-- The space of an aborted rebalance: its leaving records have reverted. -/
def aborted (y : Space) (r : Rebal) : Space :=
  { givenUp y with recs := (givenUp y).recs.map (fun e => (e.1, if e.2.st == 3 then revertRec e.2 else e.2)), rebal := some { r with ended := true } }

theorem abortStep_eq (hy : Tab.get? s.spaces sp = some y) (hr : y.rebal = some r) (he : r.ended = false) (h3 : r.stage = 3)
    (failed : r.failed = some st) (alone : r.hovs = []) :
    ∃ held, abortStep sp s = cmdDone (releaseHeld (syncSpace ((withoutCopies s r).setSpace sp (aborted y r)) sp) held) r.cmd st := by
  have carrying : ¬ (r.stage != 3 || !r.hovs.isEmpty) = true := by simp [h3, alone]
  unfold abortStep
  rw [hy]
  dsimp only
  rw [Space.live_of hr he]
  dsimp only
  split
  · rename_i none_failed
    rw [failed] at none_failed
    cases none_failed
  · rename_i code some_failed
    obtain rfl : st = code := Option.some_injective _ (failed.symm.trans some_failed)
    rw [if_neg carrying]
    exact ⟨_, rfl⟩

/-- The rebalance `r` of the space has ended with the cuts of `y` in force. -/
def Ended (y : Space) (r : Rebal) (x : Space) : Prop := x.cuts = y.cuts ∧ x.rebal = some { r with ended := true }

theorem rebalanceAbort_ends (hy : Tab.get? s.spaces sp = some y) (hr : y.rebal = some r) (he : r.ended = false) (h3 : r.stage = 3)
    (failed : r.failed = some st) (alone : r.hovs = []) (hx : s.cmd? r.cmd = some x) (other : r.copies.all (fun e => e.1 != r.cmd) = true)
    (hp : Passes s (abortStep sp)) :
    ∃ t, exec (.rebalanceAbort sp) s = .next t ∧ SpaceHas sp (Ended y r) t ∧ t.cmd? r.cmd = some { x with st := .done st } := by
  have hid : x.id = r.cmd := by simpa using List.find?_some hx
  obtain ⟨held, ends⟩ := abortStep_eq hy hr he h3 failed alone
  have spaces := spaceHas_workFree sp (Q := Ended y r) (fun _ _ _ h => h)
  have cmds := cmdsAre_workFree (withoutCopies s r).cmds
  have there : SpaceHas sp (Ended y r) (releaseHeld (syncSpace ((withoutCopies s r).setSpace sp (aborted y r)) sp) held) :=
    releaseHeld_keeps spaces held (syncSpace_keeps spaces.memory sp (.setSpace ⟨givenUp_cuts y, rfl⟩))
  have kept : (releaseHeld (syncSpace ((withoutCopies s r).setSpace sp (aborted y r)) sp) held).cmds = (withoutCopies s r).cmds :=
    releaseHeld_keeps cmds held (syncSpace_keeps cmds.memory sp rfl)
  refine ⟨abortStep sp s, congrArg _ (dirStep_passes hp), ?_⟩
  rw [ends]
  refine ⟨there.of_spaces rfl, ?_⟩
  rw [← hid]
  exact cmd?_cmdDone (s := withoutCopies s r) (hid ▸ cmd?_withoutCopies hx other) kept st

end Abort

/-! ### The new cuts come into force (R112, R126, R127, R458) -/

section Commit
variable {s : State} {x : Cmd} {y : Space} {r : Rebal} {sp d : Nat}

/-- The home sends its invalidation on the group of its space (R112, R458). -/
theorem rebalanceCommit_sends (hy : Tab.get? s.spaces sp = some y) (hr : y.rebal = some r) (he : r.ended = false) (h3 : r.stage = 3)
    (hc : r.copies = []) (hf : r.failed = none) (hh : r.hovs = []) (hm : r.moving = []) (ho : otherDies y ≠ []) (hp : Passes s (commitStep sp)) :
    exec (.rebalanceCommit sp) s =
      .next (mcastSend (s.setSpace sp { y with rebal := some { r with stage := 4 }, inval := [y.home] }) y sp false) := by
  refine (congrArg _ (dirStep_passes hp)).trans ?_
  have sends : (r.stage == 3 && r.copies.isEmpty && r.failed.isNone && r.hovs.isEmpty && r.moving.isEmpty && !(otherDies y).isEmpty) = true := by
    simp [h3, hc, hf, hh, hm, ho]
  have no_hov : ¬ (r.stage == 3 && r.copies.isEmpty && r.failed.isNone && !r.moving.isEmpty && r.inst.isEmpty) = true := by simp [hm]
  unfold commitStep
  simp only [hy, Space.live_of hr he, if_neg no_hov, if_pos sends, Space.modRebal, hr, Option.map_some]

theorem mcastSend_mcast (h : y.home < s.dies.length) (hx : Tab.getD (s.die y.home).xbar (16 + sp) 0 ≠ 0) (inst : Bool) :
    ((mcastSend s y sp inst).die y.home).mcast =
      (s.die y.home).mcast ++ [⟨dirPort y.home, 16 + sp, Tab.getD (s.die y.home).xbar (16 + sp) 0, sp, inst⟩] := by
  have asked : (Tab.getD (s.die y.home).xbar (16 + sp) 0 == 0) = false := by simpa using hx
  rw [mcastSend, mcastEnter, die_modDie_same h]
  simp only [asked, Bool.false_eq_true, if_false]

/-- A die marks its copy of the deckle invalid as the invalidation arrives (R112). -/
theorem deckleInvalidate_marks (hy : Tab.get? s.spaces sp = some y) (hr : y.rebal = some r) (he : r.ended = false) (h4 : r.stage = 4)
    (hd : d ∈ otherDies y) (hn : d ∉ r.inv) (hm : hasMsg s d sp false = true) :
    ∃ t y', exec (.deckleInvalidate sp d) s = .next t ∧ Tab.get? t.spaces sp = some y' ∧ deckleStall y' d = true ∧
      (∀ e, deckleStall y e = true → deckleStall y' e = true) ∧ y'.cuts = y.cuts ∧ y'.rebal = some { r with inv := d :: r.inv } := by
  have acts : ¬ (r.stage != 4 || !(otherDies y).contains d || r.inv.contains d || !hasMsg s d sp false) = true := by simp [h4, hd, hn, hm]
  refine ⟨(takeMsg s d sp false).setSpace sp { y.modRebal (fun r => { r with inv := d :: r.inv }) with inval := y.inval ++ [d] },
    { y.modRebal (fun r => { r with inv := d :: r.inv }) with inval := y.inval ++ [d] }, ?_, get?_setSpace _ _ _, by simp [deckleStall],
    fun e h => ?_, rfl, Space.rebal_modRebal hr _⟩
  · show execDeckleInvalidate sp d s = _
    unfold execDeckleInvalidate
    simp only [hy, Space.live_of hr he, if_neg acts]
  · simp only [deckleStall, List.contains_eq_mem, decide_eq_true_eq, List.mem_append] at h ⊢
    exact .inl h

/-- The new cuts are in force, and wait to be installed at the other dies (R127). -/
def InForce (r : Rebal) (x : Space) : Prop := x.cuts = r.newCuts ∧ x.rebal = some { r with stage := 5 }

theorem rebal_switchRec (z : Space) (i : Nat) (k : KRec) : (switchRec z i k).rebal = z.rebal := by
  unfold switchRec
  split
  · split <;> rfl
  · rfl

theorem reapRecs_keep (hQ : PoolFree Q) (l : List (Nat × KRec)) (h : SpaceHas sp Q s) :
    SpaceHas sp Q (l.foldl (fun s e => reapRec s sp e.1 e.2) s) :=
  foldl_keeps (P := SpaceHas sp Q) (fun _ _ h => reapRec_keeps hQ _ _ _ h) l s h

theorem commitSpace_inForce (hr : y.rebal = some r) : SpaceHas sp (InForce r) (commitSpace s sp y r) := by
  have keeps := spaceHas_workFree sp (Q := InForce r) (fun _ _ _ h => h)
  have switched : (y.recs.foldl (fun (z : Space) (e : Nat × KRec) => if e.2.st == 3 then switchRec z e.1 e.2 else z) y).rebal = some r :=
    foldl_keeps (P := fun z => z.rebal = some r) (fun z e h => by
      split
      · exact (rebal_switchRec z _ _).trans h
      · exact h) _ y hr
  have adopted : ∀ z : Space, z.rebal = some r → (r.adopt.foldl (fun (z : Space) a => z.modPart a.1 (fun p => { p with agent := a.2 })) z).rebal = some r := by
    refine foldl_keeps (P := fun z : Space => z.rebal = some r) (fun u a h => ?_) _
    exact h
  unfold commitSpace
  refine putImage_keeps keeps.memory _ (reapRecs_keep (fun _ _ _ h => h) _ (syncSpace_keeps keeps.memory _ (.setSpace ⟨rfl, ?_⟩)))
  exact Space.rebal_modRebal (adopted _ switched) _

/-- With every acknowledgement the new cuts are in force at the home, and are sent out (R112, R127). -/
theorem rebalanceCommit_commits (hy : Tab.get? s.spaces sp = some y) (hr : y.rebal = some r) (he : r.ended = false) (h4 : r.stage = 4)
    (hc : r.copies = []) (hf : r.failed = none) (hh : r.hovs = []) (hm : r.moving = []) (ho : otherDies y ≠ []) (acked : ∀ d ∈ otherDies y, d ∈ r.inv)
    (hp : Passes s (commitStep sp)) : ∃ t, exec (.rebalanceCommit sp) s = .next t ∧ SpaceHas sp (InForce r) t := by
  refine ⟨commitStep sp s, congrArg _ (dirStep_passes hp), ?_⟩
  have no_hov : ¬ (r.stage == 3 && r.copies.isEmpty && r.failed.isNone && !r.moving.isEmpty && r.inst.isEmpty) = true := by simp [h4]
  have sent : ¬ (r.stage == 3 && r.copies.isEmpty && r.failed.isNone && r.hovs.isEmpty && r.moving.isEmpty && !(otherDies y).isEmpty) = true := by simp [h4]
  have ready : (r.copies.isEmpty && r.failed.isNone && r.hovs.isEmpty && r.moving.isEmpty && (r.stage == 4 || (r.stage == 3 && (otherDies y).isEmpty)) &&
      (otherDies y).all (fun d => r.inv.contains d)) = true := by
    simpa [h4, hc, hf, hh, hm] using acked
  have others : ¬ (otherDies y).isEmpty = true := by simpa using ho
  have step : commitStep sp s = mcastSend (commitSpace s sp y r) y sp true := by
    unfold commitStep
    simp only [hy, Space.live_of hr he, if_neg no_hov, if_neg sent, ready, if_neg others, Bool.not_true, Bool.false_eq_true, if_false]
  rw [step]
  exact (commitSpace_inForce hr).of_spaces rfl

/-! ### A die installs the new cuts, and the last ends the rebalance (R112, R127) -/

/-- The space once die `d` has installed the new cuts. -/
def installedAt (y : Space) (r : Rebal) (d : Nat) : Space :=
  { y with rebal := some { r with inst := d :: r.inst }, inval := y.inval.filter (· != d) }

theorem installStep_eq (hy : Tab.get? s.spaces sp = some y) (hr : y.rebal = some r) (he : r.ended = false) (h5 : r.stage = 5) (hd : d ∈ otherDies y)
    (hn : d ∉ r.inst) (hm : hasMsg s d sp true = true) :
    installStep sp d s = if (otherDies y).all (fun e => e == d || r.inst.contains e) then rebalEnd ((takeMsg s d sp true).setSpace sp (installedAt y r d)) sp
      else runAllJobs ((takeMsg s d sp true).setSpace sp (installedAt y r d)) := by
  have acts : ¬ (r.stage != 5 || !(otherDies y).contains d || r.inst.contains d || !hasMsg s d sp true) = true := by simp [h5, hd, hn, hm]
  unfold installStep
  simp only [hy, Space.live_of hr he, if_neg acts, Space.modRebal, hr, Option.map_some]
  rfl

theorem deckleInstall_waits (hy : Tab.get? s.spaces sp = some y) (hr : y.rebal = some r) (he : r.ended = false) (h5 : r.stage = 5) (hd : d ∈ otherDies y)
    (hn : d ∉ r.inst) (hm : hasMsg s d sp true = true) (hp : Passes s (installStep sp d)) (more : ∃ e ∈ otherDies y, e ≠ d ∧ e ∉ r.inst) :
    ∃ t y', exec (.deckleInstall sp d) s = .next t ∧ Tab.get? t.spaces sp = some y' ∧ deckleStall y' d = false ∧
      y'.rebal = some { r with inst := d :: r.inst } := by
  have not_last : ¬ (otherDies y).all (fun e => e == d || r.inst.contains e) = true := by
    obtain ⟨e, hmem, hne, hni⟩ := more
    intro all
    have := List.all_eq_true.mp all e hmem
    simp [hne, hni] at this
  have keeps := spaceHas_workFree sp (Q := fun y' => deckleStall y' d = false ∧ y'.rebal = some { r with inst := d :: r.inst }) (fun _ _ _ h => h)
  have there : SpaceHas sp (fun y' => deckleStall y' d = false ∧ y'.rebal = some { r with inst := d :: r.inst })
      (runAllJobs ((takeMsg s d sp true).setSpace sp (installedAt y r d))) :=
    runAllJobs_keeps keeps (.setSpace ⟨by simp [deckleStall, installedAt], rfl⟩)
  obtain ⟨y', hy', usable, noted⟩ := there
  refine ⟨_, y', (congrArg _ (dirStep_passes hp)).trans ?_, hy', usable, noted⟩
  rw [installStep_eq hy hr he h5 hd hn hm, if_neg not_last]

/-- The space once its rebalance has ended: costs halved, tasks let go, no copy of the deckle invalid (R127). -/
def endedSpace (y : Space) (r : Rebal) : Space :=
  { y with recs := y.recs.map (fun e => (e.1, { e.2 with hold := [], cost := if e.2.st == 1 then BitVec.ofNat 32 (e.2.cost.toNat / 2) else e.2.cost })),
           rebal := some { r with ended := true }, inval := [] }

theorem endedSpace_ended (y : Space) (r : Rebal) : Ended y r (endedSpace y r) := ⟨rfl, rfl⟩

theorem rebalEnd_eq (hy : Tab.get? s.spaces sp = some y) (hr : y.rebal = some r) (he : r.ended = false) : ∃ held,
    rebalEnd s sp = cmdDone (runAllJobs (releaseHeld (syncSpace (s.setSpace sp (endedSpace y r)) sp) held)) r.cmd 0 := by
  unfold rebalEnd
  simp only [hy, Space.live_of hr he]
  exact ⟨_, rfl⟩

/-- The end of a rebalance: it has only to resolve its handle, whose command has status 0 (R127). -/
theorem rebalEnd_ends (hy : Tab.get? s.spaces sp = some y) (hr : y.rebal = some r) (he : r.ended = false) (hx : s.cmd? r.cmd = some x) :
    SpaceHas sp (fun y' => Ended y r y' ∧ y'.inval = []) (rebalEnd s sp) ∧ (rebalEnd s sp).cmd? r.cmd = some { x with st := .done 0 } := by
  have hid : x.id = r.cmd := by simpa using List.find?_some hx
  have spaces := spaceHas_workFree sp (Q := fun y' => Ended y r y' ∧ y'.inval = []) (fun _ _ _ h => h)
  have cmds := cmdsAre_workFree s.cmds
  obtain ⟨held, ends⟩ := rebalEnd_eq hy hr he
  have there : SpaceHas sp (fun y' => Ended y r y' ∧ y'.inval = []) (runAllJobs (releaseHeld (syncSpace (s.setSpace sp (endedSpace y r)) sp) held)) :=
    runAllJobs_keeps spaces (releaseHeld_keeps spaces _ (syncSpace_keeps spaces.memory _ (.setSpace ⟨endedSpace_ended y r, rfl⟩)))
  have kept : (runAllJobs (releaseHeld (syncSpace (s.setSpace sp (endedSpace y r)) sp) held)).cmds = s.cmds :=
    runAllJobs_keeps cmds (releaseHeld_keeps cmds _ (syncSpace_keeps cmds.memory _ rfl))
  rw [ends]
  refine ⟨there.of_spaces (State.modCmd_spaces _ _ _), ?_⟩
  rw [← hid]
  exact cmd?_cmdDone (hid ▸ hx) kept 0

theorem deckleInstall_ends (hy : Tab.get? s.spaces sp = some y) (hr : y.rebal = some r) (he : r.ended = false) (h5 : r.stage = 5) (hd : d ∈ otherDies y)
    (hn : d ∉ r.inst) (hm : hasMsg s d sp true = true) (hx : s.cmd? r.cmd = some x) (hp : Passes s (installStep sp d))
    (last : ∀ e ∈ otherDies y, e = d ∨ e ∈ r.inst) :
    ∃ t y', exec (.deckleInstall sp d) s = .next t ∧ Tab.get? t.spaces sp = some y' ∧ y'.rebal = some { r with inst := d :: r.inst, ended := true } ∧
      y'.inval = [] ∧ y'.cuts = y.cuts ∧ t.cmd? r.cmd = some { x with st := .done 0 } := by
  have all : (otherDies y).all (fun e => e == d || r.inst.contains e) = true := by simpa using last
  obtain ⟨⟨y', hy', ⟨cuts, ended⟩, inval⟩, done⟩ := rebalEnd_ends (s := (takeMsg s d sp true).setSpace sp (installedAt y r d)) (x := x)
    (r := { r with inst := d :: r.inst }) (get?_setSpace _ _ _) rfl he hx
  refine ⟨_, y', (congrArg _ (dirStep_passes hp)).trans ?_, hy', ended, inval, cuts, done⟩
  rw [installStep_eq hy hr he h5 hd hn hm, if_pos all]

end Commit

/-! ### The handle of a rebalance resolves (R458) -/

section Resolve
variable {s : State} {x : Cmd} {y : Space} {r : Rebal} {sp desc : Nat} {st : W64}

theorem endRebal_of_spaces {s t : State} (h : t.spaces = s.spaces) (x : Cmd) : (endRebal t x).spaces = (endRebal s x).spaces := by
  unfold endRebal
  rw [h]
  split
  · split
    · split
      · rw [State.setSpace_spaces, State.setSpace_spaces, h]
      · exact h
    · exact h
  · exact h

theorem completeCmd_spaces (s : State) (x : Cmd) (st : W64) : (completeCmd s x st).spaces = (endRebal s x).spaces := by
  unfold completeCmd
  refine endRebal_of_spaces ?_ x
  cases x.cw <;> cases x.ent <;> dsimp only <;> split <;> rfl

theorem completeCmd_gone (s : State) (x : Cmd) (st : W64) : (completeCmd s x st).cmd? x.id = none := by
  unfold completeCmd State.cmd?
  simp [List.find?_eq_none]

/-- What a rebalance makes of the status of a command that may be one of its copies or hand-overs (R126). -/
def Rebal.copied (id : Nat) (st : W64) (r : Rebal) : Rebal :=
  if r.ended then r
  else if r.copies.any (fun c => c.1 == id) || r.hovs.contains id then
    { r with copies := r.copies.filter (fun c => c.1 != id), hovs := r.hovs.filter (· != id)
             failed := if st == 0 then r.failed else (r.failed.orElse (fun _ => some st)) }
  else r

theorem Rebal.copied_cmd (id : Nat) (st : W64) (r : Rebal) : (r.copied id st).cmd = r.cmd := by
  unfold Rebal.copied
  split
  · rfl
  · split <;> rfl

theorem rebalCopied_space (hy : Tab.get? s.spaces sp = some y) (id : Nat) (st : W64) :
    Tab.get? (rebalCopied s id st).spaces sp = some (y.modRebal (Rebal.copied id st)) := by
  have mapped := Tab.get?_map s.spaces (fun x => x.modRebal (Rebal.copied id st)) sp
  rw [hy] at mapped
  exact mapped

theorem endRebal_resolves (hk : x.kind = .rebal sp desc) (hy : Tab.get? s.spaces sp = some y) (hr : y.rebal = some r) (hc : r.cmd = x.id) :
    Tab.get? (endRebal s x).spaces sp = some { y with rebal := none } := by
  unfold endRebal
  simp only [hk, hy, hr, Option.any_some, hc, beq_self_eq_true, if_true, get?_setSpace]

theorem commandComplete_resolves (hx : s.cmd? x.id = some x) (hk : x.kind = .rebal sp desc) (hst : x.st = .done st) (hg : x.gcw = none) (hq : x.queue = 64)
    (hw : x.mustWait s st = false) (hy : Tab.get? s.spaces sp = some y) (hr : y.rebal = some r) (hc : r.cmd = x.id) :
    ∃ t y', exec (.commandComplete x.id) s = .next t ∧ t.cmd? x.id = none ∧ Tab.get? t.spaces sp = some y' ∧ y'.rebal = none ∧ y'.cuts = y.cuts := by
  have ends : exec (.commandComplete x.id) s = .next (completeCmd (rebalCopied s x.id st) x st) := by
    have turned : exec (.commandComplete x.id) s = .next (endCmd s x st) := by
      show execCommandComplete x.id s = _
      unfold execCommandComplete
      simp only [hx, hst]
    have unpinned : gatherUnpin s x = s := by
      unfold gatherUnpin
      rw [hk]
    rw [turned]
    unfold endCmd globalWord
    simp only [hw, hg, hq, orSame, unpinned, Bool.false_eq_true, if_false, Nat.lt_irrefl]
  refine ⟨_, { y.modRebal (Rebal.copied x.id st) with rebal := none }, ends, completeCmd_gone _ _ _, ?_, rfl, rfl⟩
  rw [completeCmd_spaces]
  exact endRebal_resolves hk (rebalCopied_space hy x.id st) (Space.rebal_modRebal hr _) ((Rebal.copied_cmd _ _ r).trans hc)

end Resolve

/-! ### Cost counts (R121) -/

section Cost
variable {s : State} {f : FragRef} {w : Warp} {k : W64} {y : Space} {i : Nat} {r : KRec}

theorem warp?_of_dies {s t : State} (h : t.dies = s.dies) (f : FragRef) : t.warp? f = s.warp? f := by
  simp only [State.warp?, State.wgOf?, State.wg?, State.die, h]

/-- One count of a block's cost saturates. -/
theorem cost_succ (c : W32) : BitVec.ofNat 32 (min 0xFFFFFFFF (c.toNat + 1)) = if c = 0xFFFFFFFF then c else c + 1 := by
  have hlt := c.isLt
  split
  · rename_i h
    subst h
    rfl
  · rename_i h
    have hne : c.toNat ≠ 0xFFFFFFFF := fun e => h (BitVec.eq_of_toNat_eq e)
    refine BitVec.eq_of_toNat_eq ?_
    rw [BitVec.toNat_ofNat, BitVec.toNat_add]
    show _ = (c.toNat + 1) % _
    congr 1
    omega

theorem costAdd_counts (hw : s.warp? f = some w) (hb : w.bound = some k) (hd : w.costDue ≠ 0) (hy : keySpace s k = some y)
    (usable : deckleStall y f.die = false) (hl : lookRec y k = some (i, r)) :
    ∃ t w', exec (.costAdd f) s = .next t ∧ t.warp? f = some w' ∧ w'.costDue = w.costDue - 1 ∧
      HasRec t (keySp k) i { r with cost := if r.cost = 0xFFFFFFFF then r.cost else r.cost + 1 } := by
  have counted : addCost s k 1 = putRec s (keySp k) i { r with cost := if r.cost = 0xFFFFFFFF then r.cost else r.cost + 1 } := by
    unfold addCost
    simp only [hy, hl, cost_succ]
  have turned : exec (.costAdd f) s = .next ((addCost s k 1).modWarp f (fun w => { w with costDue := w.costDue - 1 })) := by
    have due : ¬ (decide (w.costDue = 0) || keyStall s f.die k || !(keySpace s k).any (fun x => (lookRec x k).isSome)) = true := by
      simp [hd, keyStall, hy, usable, hl]
    show execCostAdd f s = _
    unfold execCostAdd
    simp only [hw, hb, if_neg due]
  have warp : (addCost s k 1).warp? f = some w := by
    rw [counted, warp?_of_dies (putRec_written _ _ _ _).dies, hw]
  refine ⟨_, _, turned, by rw [warp?_modWarp, warp]; rfl, rfl, ?_⟩
  rw [counted]
  exact (putRec_hasRec (space_of_keySpace hy).1 i _).of_spaces rfl

end Cost

/-- Settles O27, step by step: a step that passes is taken, what it does to the space is said whatever the pools are, and no write of an agent nor any work of
a dispenser changes that. -/
theorem rebalanceSteps : Obligations.RebalanceSteps := by
  unfold Obligations.RebalanceSteps
  refine ⟨fun s x y sp desc hx hk hst hy held usable same => ⟨rebalanceNotify_refuses hx hk hst hy held usable same,
      rebalanceNotify_accepts hx hk hst hy held usable same⟩,
    fun s x y r sp desc => rebalanceNotify_notes, ?plan, fun s y r sp => patienceExpiry_ends, fun s y sp => patienceExpiry_halted, ?stops, ?abort, ?sends,
    fun s y r sp d => deckleInvalidate_marks, ?commit,
    fun s x y r sp d hy hr he h5 hd hn hm hx hp => ⟨deckleInstall_waits hy hr he h5 hd hn hm hp, deckleInstall_ends hy hr he h5 hd hn hm hx hp⟩,
    fun s x y r sp desc st => commandComplete_resolves, fun s f w k y i r => costAdd_counts⟩
  case plan =>
    intro s y r sp hy hr he h0 noted hp
    obtain ⟨t, ht, planned_⟩ := rebalancePlan_plans hy hr he h0 noted hp
    refine ⟨t, planned s y r, ht, planned_, rfl, rfl, fun i k hk => ?_⟩
    exact ⟨marked y (planCuts y r) k, (Tab.get?_map y.recs _ i).trans (by rw [hk]; rfl), marked_cases y (planCuts y r) k⟩
  case stops =>
    intro s y r sp hy hr he h2 done hp
    obtain ⟨t, ht, y', hy', cuts, r', hr', h3, cmd, new⟩ := rebalanceStops_stops hy hr he h2 done hp
    exact ⟨t, y', r', ht, hy', cuts, hr', h3, cmd, new⟩
  case abort =>
    intro s x y r sp st hy hr he h3 failed alone hx other hp
    obtain ⟨t, ht, ⟨y', hy', cuts, ended⟩, done⟩ := rebalanceAbort_ends hy hr he h3 failed alone hx other hp
    exact ⟨t, y', ht, hy', cuts, ended, done⟩
  case sends =>
    intro s y r sp hy hr he h3 hc hf hh hm ho home hp
    exact ⟨_, { y with rebal := some { r with stage := 4 }, inval := [y.home] }, rebalanceCommit_sends hy hr he h3 hc hf hh hm ho hp, get?_setSpace _ _ _,
      rfl, rfl, rfl, fun asked => mcastSend_mcast (s := s.setSpace sp _) home asked false⟩
  case commit =>
    intro s y r sp hy hr he h4 hc hf hh hm ho acked hp
    obtain ⟨t, ht, y', hy', cuts, stage⟩ := rebalanceCommit_commits hy hr he h4 hc hf hh hm ho acked hp
    exact ⟨t, y', ht, hy', cuts, stage⟩

end Sys2Proof.Machine
end

section
/-! PROOFS. Atomics at their home (R133, R302, R303), and O6. -/

namespace Sys2Proof.Machine

theorem setFlagsOf_mem (s : State) (d wg wuid : Nat) (fl : BitVec 5) : (setFlagsOf s d wg wuid fl).mem = s.mem := by
  unfold setFlagsOf
  split <;> rfl

theorem setFlagsOf_accs (s : State) (d wg wuid : Nat) (fl : BitVec 5) : (setFlagsOf s d wg wuid fl).accs = s.accs := by
  unfold setFlagsOf
  split <;> rfl

section
variable {s : State} {a : Acc}

/-- The state in which a read-modify-write has stored its new value, where it has one, and the beaters that wait for its word have seen it. -/
def rmwStored (s : State) (a : Acc) : State :=
  match (rmwNew a.kind a.val a.n (rdN s a.pa a.n)).1 with
  | some v => signalSet (wrN s a.pa a.n v) (a.pa / 8 * 8)
  | none => s

theorem rmwStored_accs (s : State) (a : Acc) : (rmwStored s a).accs = s.accs := by
  unfold rmwStored
  split
  · exact (wrBytes_written _ _ _).accs
  · rfl

theorem rdB_rmwStored (s : State) (a : Acc) (x : Nat) :
    rdB (rmwStored s a) x = match (rmwNew a.kind a.val a.n (rdN s a.pa a.n)).1 with
      | some v => if a.pa ≤ x ∧ x < a.pa + a.n then BitVec.ofNat 8 (v / 256 ^ (x - a.pa)) else rdB s x
      | none => rdB s x := by
  unfold rmwStored
  split
  · rw [rdB_of_mem (signalSet_mem _ _), rdB_wrN]
  · rfl

/-- A read-modify-write of an unpoisoned location, in a page that keeps its guarantees, reads the bytes there and stores its value in one act. -/
theorem performHome_atomic (hk : a.kind.atomic = true) (hh : inHost a.pa = false) (hp : isPois s a.pa a.n = false) (hl : loose s a.pa = false) :
    performHome s a = (setFlagsOf (rmwStored s a) a.frag.die a.frag.wg a.wuid (rmwNew a.kind a.val a.n (rdN s a.pa a.n)).2).modAcc a.id
      (fun x => { x with val2 := BitVec.ofNat 64 (rdN s a.pa a.n), st := .ack }) := by
  have atomic : (∃ ty op, a.kind = .atom ty op) ∨ ∃ cmp, a.kind = .cas cmp := by
    cases e : a.kind with
    | atom ty op => exact .inl ⟨ty, op, rfl⟩
    | cas cmp => exact .inr ⟨cmp, rfl⟩
    | _ => simp [e, AKind.atomic] at hk
  obtain ⟨ty, op, e⟩ | ⟨cmp, e⟩ := atomic
  all_goals
    unfold performHome rmwStored
    simp only [e, hh, hp, Bool.false_and, Bool.false_eq_true, if_false, readAs_of_not_loose _ hl]
    rfl

theorem atomic_performs (h : InFlight s a) (hs : a.st = .home) (hk : a.kind.atomic = true) (hh : inHost a.pa = false)
    (hp : isPois s a.pa a.n = false) (held : pathHeld s a = false) (hl : loose s a.pa = false)
    (ho : port s a.frag.die a.route a.pa a.exempt = .ok) (hb : frameBusy s a.pa = false) :
    ∃ t, exec (.homeRequest a.id) s = .next t ∧ t.acc? a.id = some { a with val2 := BitVec.ofNat 64 (rdN s a.pa a.n), st := .ack } ∧
      (∀ x, rdB t x = match (rmwNew a.kind a.val a.n (rdN s a.pa a.n)).1 with
        | some v => if a.pa ≤ x ∧ x < a.pa + a.n then BitVec.ofNat 8 (v / 256 ^ (x - a.pa)) else rdB s x
        | none => rdB s x) := by
  refine ⟨_, (exec_homeRequest h hs (fun _ => held) ho hb).trans (congrArg _ (performHome_atomic hk hh hp hl)), acc?_modAcc ?_ (fun _ => rfl), fun x => ?_⟩
  · unfold State.acc?
    rw [setFlagsOf_accs, rmwStored_accs]
    exact h
  · rw [rdB_of_mem ((State.modAcc_mem _ _ _).trans (setFlagsOf_mem _ _ _ _ _)), rdB_rmwStored]

end

/-- Settles O6: an atomic reads, computes and stores in the one turn of its request. -/
theorem atomicAtItsHome : Obligations.AtomicAtItsHome := by
  unfold Obligations.AtomicAtItsHome
  exact fun s a h hs hk hh hp held hl ho hb => atomic_performs h hs hk hh hp held hl ho hb

end Sys2Proof.Machine
end

section
/-! PROOFS. A prefetch beside an access that has the next identity, and the refutation of O17. -/

namespace Sys2Proof.Machine

/-- A clean leaf of a home-only page, at 0x102000. -/
def cleanLeaf : TlbEnt := { va := 0x10000, size := 0x10000, leaf := 0x0200000000010007, at_ := 0x102000 }

/-- A store to that page which waits for its translation, with the identity that the machine gives next. -/
def namesakeStore : Acc :=
  { id := State.reset.nextId, frag := ⟨0, 0, 0, 0, false⟩, word := 0, uid := 7, thr := none, kind := .store, va := 0x10000, n := 4, st := .walk }

/-- One thread at 0x20000, which waits for nothing. -/
def lonePrefetcher : Frag := { occ := true, uid := 1, pc := 0x20000, am := 1 }

/-- The workgroup of that thread. -/
def prefetchingWg : Wg := { warps := [(0, { s0 := lonePrefetcher, thr := [{ tid := 0, live := true }] })] }

/-- The thread runs on a core whose TLB holds the leaf, beside the store. -/
def namesakeState : State :=
  { State.reset.modDie 0 (fun x => { x with wgs := [(0, prefetchingWg)], pgroot := 1, cores := [(0, { ({} : Core) with tlb := [cleanLeaf] })] }) with
    accs := [namesakeStore] }

/-- `prf [k4]`. -/
def prefetchWord : Instr := .prf tp false (.imm (.k 4) 0)

/-- The context of the thread. -/
def namesakeCtx : Ctx := (ctx? namesakeState).getD default

theorem namesake_begins : Begins tp.sw (kRegs (guardOpd tp :: memOpds (.imm (.k 4) 0))) namesakeState namesakeCtx :=
  ⟨rfl, by decide +kernel, by decide +kernel⟩

/-- The store, and not the prefetch, has looked in the TLB, and has set `dy` of its leaf at its home (R21). -/
theorem prefetch_sets_dirty_bit : (match exec prefetchWord namesakeState with | .next t => rdB t 0x102000 | _ => 0) = 0x20 := by decide +kernel

/-- Refutes O17: its clause of the prefetch supposes nothing of the identities of the accesses in flight, and where one of them has the number that a prefetch
receives, the prefetch sets it going: here a store, whose leaf becomes dirty in memory. (In a run of the machine from reset identities are fresh.) -/
theorem not_orderingWords : ¬ Obligations.OrderingWords := by
  unfold Obligations.OrderingWords
  rintro ⟨-, -, -, -, -, -, prefetch, -⟩
  obtain ⟨-, t, ran, -, same⟩ := prefetch tp false (.imm (.k 4) 0) namesakeState namesakeCtx [0] namesake_begins
    ⟨by decide +kernel, by decide +kernel⟩ (by decide +kernel) (by decide +kernel) (by decide +kernel)
  have dirty := prefetch_sets_dirty_bit
  rw [prefetchWord, ran] at dirty
  have clean : rdB t 0x102000 = 0 := (rdB_of_mem same _).trans (by decide +kernel)
  rw [show rdB t 0x102000 = 0x20 from dirty] at clean
  exact absurd clean (by decide)

end Sys2Proof.Machine
end

section
/-! PROOFS. Requests of the host at the ordering point and at their home (R160, R445, R448, R449). -/

namespace Sys2Proof.Machine

/-! ### Requests at the ordering point (R160, R445, R449) -/

section Inbound
variable {s : State} {req addr n : Nat} {data : List Byte} {ro : Bool}

/-- A request of the host as it arrives at the ordering point. -/
def arriving (s : State) (req addr : Nat) (data : List Byte) (rd : Option Nat) (ro : Bool) : Inb :=
  { id := s.nextId, req := req, addr := addr, data := data, rd := rd, ro := ro, route := inbRoute s addr }

theorem inbAdd_added (s : State) (req addr : Nat) (data : List Byte) (rd : Option Nat) (ro : Bool) :
    InbAdded s (inbAdd s req addr data rd ro) req addr data rd ro (inbMay s (arriving s req addr data rd ro)) := rfl

theorem exec_inboundPostedWrite (hd : data ≠ []) (hb : backed addr data.length = true) (hn : (s.inb.filter (fun b => b.rd.isNone)).length < 4096) :
    exec (.inboundPostedWrite req addr data ro) s = .next (inbAdd s req addr data none ro) := by
  show execInboundPostedWrite req addr data ro s = _
  unfold execInboundPostedWrite
  rw [if_neg (by simpa using hd), if_neg (by simp [hb]), if_neg (by omega)]

theorem inboundPostedWrite_unbacked (hd : data ≠ []) (hb : backed addr data.length = false) :
    exec (.inboundPostedWrite req addr data ro) s = .next { s with aer := s.aer + 1 } := by
  show execInboundPostedWrite req addr data ro s = _
  unfold execInboundPostedWrite
  rw [if_neg (by simpa using hd), if_pos (by simp [hb])]

theorem exec_inboundRead (hn : n ≠ 0) (hb : backed addr n = true) :
    exec (.inboundRead req addr n) s = .next (inbAdd s req addr [] (some n) false) := by
  show execInboundRead req addr n s = _
  unfold execInboundRead
  rw [if_neg hn, if_neg (by simp [hb])]

theorem inboundRead_unbacked (hn : n ≠ 0) (hb : backed addr n = false) :
    exec (.inboundRead req addr n) s = .next { s with cpls := ⟨req, addr, none⟩ :: s.cpls } := by
  show execInboundRead req addr n s = _
  unfold execInboundRead
  rw [if_neg hn, if_pos (by simp [hb])]

/-- Every request that is there has come before one with a fresh identity. -/
theorem takeWhile_arriving (hf : ∀ x ∈ s.inb, x.id ≠ s.nextId) : s.inb.takeWhile (fun x => x.id != s.nextId) = s.inb :=
  List.takeWhile_eq_self_iff.mpr fun x hx => by simpa using hf x hx

/-- A posted write may go forward that is relaxed-ordered, or whose requester's earlier strict writes have gone forward on its route (R160). -/
theorem inbMay_write (h : ro = true ∨ ∀ x ∈ s.inb, x.req = req → x.rd = none → x.ro = true ∨ (x.route = inbRoute s addr ∧ x.sent = true)) :
    inbMay s (arriving s req addr data none ro) = true := by
  obtain h | h := h
  · simp [inbMay, arriving, h]
  · have before : ∀ x ∈ (s.inb.takeWhile (fun x => x.id != s.nextId)).filter (fun x => x.req == req && x.rd.isNone),
        (x.ro || (x.route == inbRoute s addr && x.sent)) = true := fun x hx => by
      obtain ⟨mem, same⟩ := List.mem_filter.mp hx
      rw [Bool.and_eq_true, beq_iff_eq, Option.isNone_iff_eq_none] at same
      simpa using h x ((List.takeWhile_sublist _).subset mem) same.1 same.2
    simp only [inbMay, arriving, List.all_eq_true.mpr before, Bool.or_true]

/-- A strict write may not go forward past an earlier one of its requester on another route (R160). -/
theorem inbMay_write_held (hf : ∀ x ∈ s.inb, x.id ≠ s.nextId)
    (h : ∃ x ∈ s.inb, x.req = req ∧ x.rd = none ∧ x.ro = false ∧ x.route ≠ inbRoute s addr) : inbMay s (arriving s req addr data none false) = false := by
  obtain ⟨x, mem, hreq, hrd, hro, hroute⟩ := h
  have before : (s.inb.filter (fun x => x.req == req && x.rd.isNone)).all (fun x => x.ro || (x.route == inbRoute s addr && x.sent)) = false :=
    List.all_eq_false.mpr ⟨x, List.mem_filter.mpr ⟨mem, by simp [hreq, hrd]⟩, by simp [hro, hroute]⟩
  simp only [inbMay, arriving, takeWhile_arriving hf, before, Bool.or_false]

/-- A read goes forward where its requester has no earlier write (R449). -/
theorem inbMay_read (hf : ∀ x ∈ s.inb, x.id ≠ s.nextId) :
    inbMay s (arriving s req addr [] (some n) false) = s.inb.all (fun x => !(x.req == req && x.rd.isNone)) := by
  simp only [inbMay, arriving, takeWhile_arriving hf]
  rw [Bool.eq_iff_iff, List.isEmpty_iff, List.filter_eq_nil_iff, List.all_eq_true]
  exact forall₂_congr fun x _ => by rw [Bool.not_eq_true', Bool.not_eq_true]

end Inbound

/-! ### A request that goes forward, and at its home (R160, R448, R449) -/

section Forward
variable {s : State} {b : Inb}

/-- A request that is found is found again once it has changed, under its identity. -/
theorem find?_map_inb (h : s.inb.find? (fun x => x.id == b.id) = some b) {g : Inb → Inb} (hg : ∀ x, (g x).id = b.id ∨ (g x).id = x.id) :
    (s.inb.map (fun x => if x.id == b.id then g x else x)).find? (fun x => x.id == b.id) = some (g b) := by
  have same : ((fun x : Inb => x.id == b.id) ∘ fun x => if x.id == b.id then g x else x) = fun x => x.id == b.id := by
    funext x
    simp only [Function.comp_apply]
    split
    · next hx =>
      obtain e | e := hg x
      · simp [e, hx]
      · rw [e]
    · rfl
  rw [List.find?_map, same, h]
  simp

theorem orderingPointForward_sends (h : s.inb.find? (fun x => x.id == b.id) = some b) (hs : b.sent = false)
    (hm : inbMay s { b with route := inbRoute s b.addr } = true) :
    ∃ t, exec (.orderingPointForward b.id) s = .next t ∧ t.mem = s.mem ∧
      t.inb.find? (fun x => x.id == b.id) = some { b with route := inbRoute s b.addr, sent := true } := by
  have ran : exec (.orderingPointForward b.id) s =
      .next { s with inb := s.inb.map (fun x => if x.id == b.id then { b with route := inbRoute s b.addr, sent := true } else x) } := by
    show execOrderingPointForward b.id s = _
    unfold execOrderingPointForward
    rw [hs] at hm
    simp only [h, hs]
    exact congrArg _ (if_neg (by simp [hm]))
  exact ⟨_, ran, rfl, find?_map_inb (g := fun _ => { b with route := inbRoute s b.addr, sent := true }) h (fun _ => .inl rfl)⟩

theorem exec_homeRequest_inb (ha : s.acc? b.id = none) (h : s.inb.find? (fun x => x.id == b.id) = some b) :
    exec (.homeRequest b.id) s = .next (homeInb s b) := by
  show execHomeRequest b.id s = _
  unfold execHomeRequest
  simp only [ha, h]

/-- What a forwarded request does that finds its port and its home open. -/
theorem homeInb_open (hs : b.sent = true) (hd : b.done = false) (hb : b.busy = false) (ho : inbAhead s b = false)
    (hp : port s b.route b.route b.addr false = .ok) (hf : frameBusy s b.addr = false) :
    homeInb s b = match b.rd with
      | some n => { s with inb := s.inb.filter (fun x => x.id != b.id), cpls := ⟨b.req, b.addr, some (rdBytes s b.addr n)⟩ :: s.cpls }
      | none => { wrBytes s b.addr b.data with
          inb := (wrBytes s b.addr b.data).inb.map (fun x => if x.id == b.id then { x with done := true, busy := false } else x) } := by
  unfold homeInb
  simp only [hs, hd, hb, ho, hp, hf, Bool.not_true, Bool.or_self, Bool.false_eq_true, if_false] <;> rfl

/-- Beside the bytes of the write no byte changes. -/
theorem rdB_wrBytes_getD (s : State) (pa : Nat) (bs : List Byte) (x : Nat) :
    rdB (wrBytes s pa bs) x = if pa ≤ x then (bs[x - pa]?).getD (rdB s x) else rdB s x := by
  rw [rdB_wrBytes]
  by_cases hlo : pa ≤ x
  · by_cases hhi : x < pa + bs.length
    · rw [if_pos ⟨hlo, hhi⟩, if_pos hlo, List.getElem?_eq_getElem (by omega)]
      rfl
    · rw [if_neg (fun e => hhi e.2), if_pos hlo, List.getElem?_eq_none (by omega)]
      rfl
  · rw [if_neg (fun e => hlo e.1), if_neg hlo]

theorem homeRequest_inbWrite (ha : s.acc? b.id = none) (h : s.inb.find? (fun x => x.id == b.id) = some b) (hs : b.sent = true) (hd : b.done = false)
    (hb : b.busy = false) (ho : inbAhead s b = false) (hp : port s b.route b.route b.addr false = .ok) (hf : frameBusy s b.addr = false) (hr : b.rd = none) :
    ∃ t, exec (.homeRequest b.id) s = .next t ∧ t.inb.find? (fun x => x.id == b.id) = some { b with done := true } ∧
      ∀ a, rdB t a = if b.addr ≤ a then (b.data[a - b.addr]?).getD (rdB s a) else rdB s a := by
  have stored := homeInb_open hs hd hb ho hp hf
  simp only [hr] at stored
  refine ⟨_, (exec_homeRequest_inb ha h).trans (congrArg _ stored), ?_, fun a => rdB_wrBytes_getD s b.addr b.data a⟩
  have found : (wrBytes s b.addr b.data).inb.find? (fun x => x.id == b.id) = some b := by
    rw [wrBytes_eq]
    exact h
  rw [find?_map_inb (g := fun x => { x with done := true, busy := false }) found (fun _ => .inr rfl), ← hb]

theorem homeRequest_inbRead {n : Nat} (ha : s.acc? b.id = none) (h : s.inb.find? (fun x => x.id == b.id) = some b) (hs : b.sent = true)
    (hd : b.done = false) (hb : b.busy = false) (ho : inbAhead s b = false) (hp : port s b.route b.route b.addr false = .ok)
    (hf : frameBusy s b.addr = false) (hr : b.rd = some n) :
    ∃ t, exec (.homeRequest b.id) s = .next t ∧ t.inb = s.inb.filter (fun x => x.id != b.id) ∧ t.mem = s.mem ∧
      t.cpls = ⟨b.req, b.addr, some (rdBytes s b.addr n)⟩ :: s.cpls := by
  have answered := homeInb_open hs hd hb ho hp hf
  simp only [hr] at answered
  exact ⟨_, (exec_homeRequest_inb ha h).trans (congrArg _ answered), rfl, rfl, rfl⟩

end Forward

end Sys2Proof.Machine
end

section
/-! PROOFS. The crossbar: which flit a port grants, and where its copy arrives (R457 to R459). -/

namespace Sys2Proof.Machine

/-! ### The flit that a port grants (R457) -/

section Grants
variable {x : Die} {p : Nat} {f : McFlit}

/-- A port that grants nothing is requested by no head. -/
theorem not_requested_of_granted_none (h : x.granted p = none) : ∀ f ∈ x.heads, f.mask.getLsbD p = false := by
  intro f hf
  by_contra hbit
  have mem : f ∈ x.heads.filter (fun f => f.mask.getLsbD p) := List.mem_filter.mpr ⟨hf, by simpa using hbit⟩
  unfold Die.granted at h
  dsimp only at h
  split at h
  · cases h
  · next hfind =>
    have had : (p, f.inp) ∈ x.grants := by simpa using List.find?_eq_none.mp hfind f mem
    rw [List.head?_filterMap, List.findSome?_eq_none_iff] at h
    have none := h _ (List.mem_reverse.mpr had)
    simp only [beq_self_eq_true, if_true, List.find?_eq_none] at none
    exact none f mem (by simp)

/-- In a list without doubles an element of the part before another stands before it. -/
theorem idxOf_le_of_not_mem_after {α : Type} [BEq α] [LawfulBEq α] {before after : List α} {a b : α} (hn : (before ++ a :: after).Nodup) (hb : b ∉ after)
    (hm : b ∈ before ++ a :: after) : (before ++ a :: after).idxOf b ≤ (before ++ a :: after).idxOf a := by
  have ha : a ∉ before := fun e => (List.nodup_append.mp hn).2.2 a e a List.mem_cons_self rfl
  rw [List.idxOf_append_of_notMem ha, List.idxOf_cons_self]
  obtain hb' | hb' := List.mem_append.mp hm
  · rw [List.idxOf_append_of_mem hb']
    exact Nat.le_add_right_of_le (Nat.le_of_lt (List.idxOf_lt_length_of_mem hb'))
  · obtain rfl | hb' := List.mem_cons.mp hb'
    · rw [List.idxOf_append_of_notMem ha, List.idxOf_cons_self]
    · exact absurd hb' hb

/-- Of the heads that request it, a port grants the one whose input it granted least recently. -/
theorem granted_oldest (h : x.granted p = some f) : f ∈ x.heads ∧ f.mask.getLsbD p = true ∧
    (x.grants.Nodup → ∀ g ∈ x.heads, g.mask.getLsbD p = true → x.grants.idxOf (p, g.inp) ≤ x.grants.idxOf (p, f.inp)) := by
  unfold Die.granted at h
  dsimp only at h
  split at h
  · next hfind =>
    cases h
    obtain ⟨mem, bit⟩ := List.mem_filter.mp (List.mem_of_find?_eq_some hfind)
    have fresh : (p, f.inp) ∉ x.grants := by simpa using List.find?_some hfind
    exact ⟨mem, bit, fun _ _ _ _ => by rw [List.idxOf_eq_length fresh]; exact List.idxOf_le_length⟩
  · next hfind =>
    have had : ∀ g ∈ x.heads.filter (fun f => f.mask.getLsbD p), (p, g.inp) ∈ x.grants := fun g hg => by
      simpa using List.find?_eq_none.mp hfind g hg
    rw [List.head?_filterMap, List.findSome?_eq_some_iff] at h
    obtain ⟨later, ⟨q, i⟩, earlier, split_, found, none⟩ := h
    have ⟨hq, hi⟩ : q = p ∧ (x.heads.filter (fun f => f.mask.getLsbD p)).find? (fun f => f.inp == i) = some f := by simpa using found
    have inp : f.inp = i := by simpa using List.find?_some hi
    obtain ⟨mem, bit⟩ := List.mem_filter.mp (List.mem_of_find?_eq_some hi)
    refine ⟨mem, bit, fun nodup g hg hbit => ?_⟩
    have order : x.grants = earlier.reverse ++ (p, f.inp) :: later.reverse := by
      rw [← List.reverse_reverse x.grants, split_, hq, inp]
      simp
    have requests : g ∈ x.heads.filter (fun f => f.mask.getLsbD p) := List.mem_filter.mpr ⟨hg, hbit⟩
    have notLater : (p, g.inp) ∉ later.reverse := fun e => by
      have unfound := none _ (List.mem_reverse.mp e)
      simp only [beq_self_eq_true, if_true, List.find?_eq_none] at unfound
      exact unfound g requests (by simp)
    have took := had g requests
    rw [order] at nodup took ⊢
    exact idxOf_le_of_not_mem_after nodup notLater took

theorem grantsOldest_of_granted (h : x.granted p = some f) (hn : x.grants.Nodup) : GrantsOldest x p f := by
  obtain ⟨mem, bit, oldest⟩ := granted_oldest h
  exact ⟨mem, bit, oldest hn⟩

end Grants

/-! ### Where a copy arrives (R458, R459) -/

section Copies
variable {s : State} {d p : Nat} {f : McFlit}

/-- The copy that a port takes goes over link `l`, where the port is the link's and the link's table has a valid entry (R458). -/
def overLink (d p : Nat) (f : McFlit) (s : State) (l : Nat) : State :=
  let e := Tab.getD (s.die d).egress (1024 * l + f.grp) 0
  if linkPort d l = p && e.getLsbD 15 then
    mcastEnter s (farDie d l) (linkPort (farDie d l) (linkTo (farDie d l) d)) (bitsOf e.toNat 0 10) f.sp f.inst
  else s

/-- The copy arrives at the die's own agents, where the port is theirs. -/
def atAgents (s : State) (d p : Nat) (f : McFlit) : State :=
  if dirPort d = p then s.modDie d (fun x => { x with mcGot := x.mcGot ++ [(f.sp, f.inst)] }) else s

theorem mcDeliver_eq (s : State) (d p : Nat) (f : McFlit) :
    mcDeliver s d p f = overLink d p f (overLink d p f (overLink d p f (atAgents s d p f) 0) 1) 2 := rfl

theorem overLink_mem (l : Nat) : (overLink d p f s l).mem = s.mem := by
  unfold overLink
  dsimp only
  split <;> rfl

theorem mcDeliver_mem (s : State) (d p : Nat) (f : McFlit) : (mcDeliver s d p f).mem = s.mem := by
  rw [mcDeliver_eq, overLink_mem, overLink_mem, overLink_mem]
  unfold atAgents
  split <;> rfl

theorem die_overLink_of_ne {l e : Nat} (h : e ≠ farDie d l) : (overLink d p f s l).die e = s.die e := by
  unfold overLink
  dsimp only
  split
  · exact die_modDie_of_ne (Ne.symm h)
  · rfl

theorem farDie_ne : ∀ d < 4, ∀ l < 3, farDie d l ≠ d := by decide

theorem farDie_inj : ∀ d < 4, ∀ l < 3, ∀ m < 3, farDie d l = farDie d m → l = m := by decide

/-- The dies behind the links of `d` alone have had copies over them. -/
theorem die_mcDeliver_home (hd : d < 4) : (mcDeliver s d p f).die d = (atAgents s d p f).die d := by
  have near (l : Nat) (hl : l < 3) : d ≠ farDie d l := (farDie_ne d hd l hl).symm
  rw [mcDeliver_eq, die_overLink_of_ne (near 2 (by omega)), die_overLink_of_ne (near 1 (by omega)), die_overLink_of_ne (near 0 (by omega))]

/-- What the die behind link `l` has got of a copy: the copies over the other links concern other dies. -/
theorem die_mcDeliver_far (hd : d < 4) {l : Nat} (hl : l < 3) : ∃ u : State, (mcDeliver s d p f).die (farDie d l) = (overLink d p f u l).die (farDie d l) ∧
    u.die d = (atAgents s d p f).die d ∧ u.die (farDie d l) = s.die (farDie d l) ∧ u.dies.length = s.dies.length := by
  have near (m : Nat) (hm : m < 3) : d ≠ farDie d m := (farDie_ne d hd m hm).symm
  have other (m : Nat) (hm : m < 3) (h : l ≠ m) : farDie d l ≠ farDie d m := fun e => h (farDie_inj d hd l hl m hm e)
  have agents : (atAgents s d p f).die (farDie d l) = s.die (farDie d l) := by
    unfold atAgents
    split
    · exact die_modDie_of_ne (near l hl)
    · rfl
  have length (u : State) (m : Nat) : (overLink d p f u m).dies.length = u.dies.length := by
    unfold overLink mcastEnter
    dsimp only
    split <;> simp
  have lengthAgents : (atAgents s d p f).dies.length = s.dies.length := by
    unfold atAgents
    split <;> simp
  rw [mcDeliver_eq]
  obtain rfl | rfl | rfl : l = 0 ∨ l = 1 ∨ l = 2 := by omega
  · exact ⟨_, by rw [die_overLink_of_ne (other 2 (by omega) (by omega)), die_overLink_of_ne (other 1 (by omega) (by omega))], rfl, agents, lengthAgents⟩
  · exact ⟨_, by rw [die_overLink_of_ne (other 2 (by omega) (by omega))], die_overLink_of_ne (near 0 (by omega)),
      by rw [die_overLink_of_ne (other 0 (by omega) (by omega)), agents], by rw [length, lengthAgents]⟩
  · exact ⟨_, rfl, by rw [die_overLink_of_ne (near 1 (by omega)), die_overLink_of_ne (near 0 (by omega))],
      by rw [die_overLink_of_ne (other 1 (by omega) (by omega)), die_overLink_of_ne (other 0 (by omega) (by omega)), agents],
      by rw [length, length, lengthAgents]⟩

/-- What die `far` has of a copy over the link at its port. -/
theorem mcast_overLink {l : Nat} (hp : linkPort d l = p) (hfar : farDie d l < s.dies.length) {e : BitVec 64}
    (he : e = Tab.getD (s.die d).egress (1024 * l + f.grp) 0) :
    (e.getLsbD 15 = false → ((overLink d p f s l).die (farDie d l)).mcast = (s.die (farDie d l)).mcast) ∧
    (e.getLsbD 15 = true → ∀ m, m = Tab.getD (s.die (farDie d l)).xbar (bitsOf e.toNat 0 10) 0 →
      ((overLink d p f s l).die (farDie d l)).mcast = if m = 0 then (s.die (farDie d l)).mcast
        else (s.die (farDie d l)).mcast ++ [⟨linkPort (farDie d l) (linkTo (farDie d l) d), bitsOf e.toNat 0 10, m, f.sp, f.inst⟩]) := by
  unfold overLink
  dsimp only
  rw [← he]
  refine ⟨fun hv => by rw [if_neg (by simp only [hv, Bool.and_false, Bool.false_eq_true, not_false_eq_true])], fun hv m hm => ?_⟩
  rw [if_pos (by simp only [hp, hv, Bool.and_self, decide_true]), mcastEnter, die_modDie_same hfar, ← hm]
  simp only [beq_iff_eq]

/-- The flit loses the port, and its input is the one that the port has granted last. -/
theorem multicastFork_sends (hp : p < 64) (hd : d < 4) (hl : d < s.dies.length) (h : (s.die d).granted p = some f) :
    ∃ t, exec (.multicastFork d p) s = .next t ∧ t.mem = s.mem ∧ (t.die d).grants = (p, f.inp) :: (s.die d).grants.filter (· != (p, f.inp)) ∧ Arrived s t d p f ∧
      ∀ m, m = f.mask &&& ~~~portBit p → (t.die d).mcast = if m = 0 then (s.die d).mcast.erase f else (s.die d).mcast.replace f { f with mask := m } := by
  have ran : exec (.multicastFork d p) s = .next (mcDeliver (s.modDie d (fun x => x.fork p f)) d p f) := by
    show execMulticastFork d p s = _
    unfold execMulticastFork
    rw [if_neg (by omega)]
    simp only [h]
  have forked : (s.modDie d (fun x => x.fork p f)).die d = (s.die d).fork p f := die_modDie_same hl
  have hl' : d < (s.modDie d (fun x => x.fork p f)).dies.length := by simpa using hl
  have home : (mcDeliver (s.modDie d (fun x => x.fork p f)) d p f).die d =
      { (s.die d).fork p f with mcGot := if dirPort d = p then (s.die d).mcGot ++ [(f.sp, f.inst)] else (s.die d).mcGot } := by
    rw [die_mcDeliver_home hd]
    unfold atAgents
    split
    · rw [die_modDie_same hl', forked]
      rfl
    · rw [forked]
      rfl
  refine ⟨_, ran, mcDeliver_mem _ _ _ _, by rw [home]; rfl, ⟨by rw [home], ?links⟩, fun m hm => by rw [home, hm]; simp [Die.fork]⟩
  rintro l _ hl3 rfl hport hfar e rfl
  obtain ⟨u, at_, atHome, before, length⟩ := die_mcDeliver_far (s := s.modDie d (fun x => x.fork p f)) (p := p) (f := f) hd hl3
  have far : u.die (farDie d l) = s.die (farDie d l) := before.trans (die_modDie_of_ne (farDie_ne d hd l hl3).symm)
  have egress : (u.die d).egress = (s.die d).egress := by
    rw [atHome, ← die_mcDeliver_home hd, home]
    rfl
  have sent := mcast_overLink (s := u) (f := f) (l := l) hport (by rw [length]; simpa using hfar) rfl
  rw [egress, far] at sent
  rw [at_]
  exact sent

end Copies

end Sys2Proof.Machine
end

section
/-! PROOFS. FeltLink ports and the attestation report (R460 to R462, R464), and O52. -/

namespace Sys2Proof.Machine

/-! ### Numbers and lists of bytes -/

theorem leNat_leBytes (n v : Nat) : leNat (leBytes n v) = v % 256 ^ n := by
  induction n generalizing v with
  | zero => simp [leBytes, leNat, Nat.mod_one]
  | succ n ih => rw [leBytes, leNat, ih, Nat.pow_succ', Nat.mod_mul, BitVec.toNat_ofNat]

theorem rdBytes_eq_of_rdB {s : State} {a : Nat} {bs : List Byte} (h : ∀ i, i < bs.length → rdB s (a + i) = (bs[i]?).getD 0) : rdBytes s a bs.length = bs := by
  refine List.ext_getElem (length_rdBytes ..) fun i _ hi => ?_
  simp only [rdBytes, List.getElem_map, List.getElem_range, h i hi, List.getElem?_eq_getElem hi, Option.getD_some]

/-- A word of memory reads back. -/
theorem rdN_wrN (s : State) (a n v : Nat) : rdN (wrN s a n v) a n = v % 256 ^ n := by
  have bytes : rdBytes (wrN s a n v) a (leBytes n v).length = leBytes n v := rdBytes_eq_of_rdB fun i hi => by
    rw [length_leBytes] at hi
    rw [rdB_wrN, if_pos (by omega), Nat.add_sub_cancel_left, getElem?_leBytes v hi]
    rfl
  rw [length_leBytes] at bytes
  rw [rdN, bytes, leNat_leBytes]

theorem rdN_of_mem {s t : State} (h : t.mem = s.mem) (a n : Nat) : rdN t a n = rdN s a n := by
  simp only [rdN, rdBytes, rdB_of_mem h]

theorem wrBytes_ports (s : State) (pa : Nat) (bs : List Byte) : (wrBytes s pa bs).ports = s.ports := by
  rw [wrBytes_eq]

/-- The bytes in the middle of a list. -/
theorem bytesAt_append (l m r : List Byte) : bytesAt (l ++ (m ++ r)) l.length m.length = m := by
  refine List.ext_getElem (by simp [bytesAt]) fun i _ hi => ?_
  simp only [bytesAt, List.getElem_map, List.getElem_range, List.getElem?_append_right (Nat.le_add_right ..), Nat.add_sub_cancel_left,
    List.getElem?_append_left hi, List.getElem?_eq_getElem hi, Option.getD_some]

/-! ### Port-change records (R453, R461) -/

section Ports
variable {s : State} {p : Nat}

/-- A die's record of a change of port `p`. -/
def portChange (p info : Nat) (s : State) (d : Nat) : State := postEvent s d (evRecord 8 d 0xFFFF 0xFF 0xFF p 0 0 (BitVec.ofNat 64 info) 0 (s.cyc d))

theorem portRecord_eq (s : State) (p info : Nat) : portRecord s p info = (List.range 4).foldl (portChange p info) s := rfl

theorem port_portRecord (q info : Nat) : (portRecord s p info).port q = s.port q := by
  rw [portRecord_eq]
  exact foldl_keeps (g := portChange p info) (P := fun t : State => t.port q = s.port q) (fun _ _ h => h) _ _ rfl

theorem cyc_portChange (info d e : Nat) : (portChange p info s d).cyc e = s.cyc e := by
  simp only [State.cyc, portChange, postEvent_clock]
  exact congrArg (s.clock - ·) (die_modDie_keeps (p := Die.cyc0) (fun _ => rfl))

/-- Of dies that each have a record, each has one. -/
theorem evPend_portChanges {info d : Nat} {ds : List Nat} (hn : ds.Nodup) (hd : d < s.dies.length) :
    ((ds.foldl (portChange p info) s).die d).evPend =
      if d ∈ ds then (s.die d).evPend ++ [evRecord 8 d 0xFFFF 0xFF 0xFF p 0 0 (BitVec.ofNat 64 info) 0 (s.cyc d)] else (s.die d).evPend := by
  induction ds generalizing s with
  | nil => simp
  | cons e ds ih =>
    obtain ⟨notIn, nodup⟩ := List.nodup_cons.mp hn
    have hd' : d < (portChange p info s e).dies.length := by simpa [portChange, postEvent] using hd
    rw [List.foldl_cons, ih nodup hd', cyc_portChange]
    by_cases h : d = e
    · subst h
      rw [if_neg notIn, if_pos List.mem_cons_self, portChange, evPend_postEvent hd]
    · have other : (portChange p info s e).die d = s.die d := die_modDie_of_ne (Ne.symm h)
      simp only [other, List.mem_cons, h, false_or]

theorem evPend_portRecord {info d : Nat} (h4 : d < 4) (hd : d < s.dies.length) :
    ((portRecord s p info).die d).evPend = (s.die d).evPend ++ [evRecord 8 d 0xFFFF 0xFF 0xFF p 0 0 (BitVec.ofNat 64 info) 0 (s.cyc d)] := by
  rw [portRecord_eq, evPend_portChanges List.nodup_range hd, if_pos (List.mem_range.mpr h4)]

/-! ### Training, and the end of a port (R461) -/

theorem feltlinkTraining_agrees {maj : Byte} (min : Byte) (hp : p < 12) (hl : p < s.ports.length) (hu : (s.port p).up = false) :
    ∃ t, exec (.feltlinkTraining p maj min) s = .next t ∧ (t.port p).trn = false ∧ (t.port p).up = (maj == 1) ∧
      (maj = 1 → (t.port p).vmaj = 1 ∧ (t.port p).vmin = 0) ∧
      ∀ d, d < 4 → d < s.dies.length → (t.die d).evPend = (s.die d).evPend ++
        [evRecord 8 d 0xFFFF 0xFF 0xFF p 0 0 (if maj = 1 then 256 else 0) 0 (s.cyc d)] := by
  have ran : exec (.feltlinkTraining p maj min) s = .next (if maj == 1
      then portRecord (s.modPort p (fun p => { p with vmaj := 1, vmin := 0, trn := false, up := true })) p 256
      else portRecord (s.modPort p (fun p => { p with trn := false })) p 0) := by
    show execFeltlinkTraining p maj min s = _
    unfold execFeltlinkTraining
    exact congrArg _ (if_neg (by simp [hu, hp]))
  by_cases hm : maj = 1
  · subst hm
    refine ⟨_, ran, ?_, ?_, fun _ => ?_, fun d h4 hd => ?_⟩
    · simp [port_portRecord, port_modPort_same hl]
    · simp [port_portRecord, port_modPort_same hl]
    · simp [port_portRecord, port_modPort_same hl]
    · exact evPend_portRecord (s := s.modPort p _) h4 hd
  · have hm' : (maj == 1) = false := by simpa using hm
    rw [hm'] at ran
    refine ⟨_, ran, ?_, ?_, fun h => absurd h hm, fun d h4 hd => ?_⟩
    · simp [port_portRecord, port_modPort_same hl]
    · rw [hm']
      simp [port_portRecord, port_modPort_same hl, hu]
    · rw [if_neg hm]
      exact evPend_portRecord (s := s.modPort p _) h4 hd

theorem feltlinkPortDown_ends (hl : p < s.ports.length) (hu : (s.port p).up = true) :
    ∃ t, exec (.feltlinkPortDown p) s = .next t ∧ (t.port p).up = false ∧
      ∀ d, d < 4 → d < s.dies.length → (t.die d).evPend = (s.die d).evPend ++ [evRecord 8 d 0xFFFF 0xFF 0xFF p 0 0 0 0 (s.cyc d)] := by
  have ran : exec (.feltlinkPortDown p) s = .next (portRecord (s.modPort p (fun p => { p with up := false })) p 0) := by
    show execFeltlinkPortDown p s = _
    unfold execFeltlinkPortDown
    exact congrArg _ (if_neg (by simp [hu]))
  exact ⟨_, ran, by rw [port_portRecord, port_modPort_same hl], fun d h4 hd => evPend_portRecord (s := s.modPort p _) h4 hd⟩

/-! ### Flits and slots (R460, R462) -/

section Receive
variable {tail head : Nat} {ver : Byte} {seq : W32} {pay : List Byte}

theorem feltlinkFlitReceive_bad (hl : p < s.ports.length) (hu : (s.port p).up = true)
    (room : (rdN s (portArea p + 0x40) 8 + 2 ^ 64 - rdN s (portArea p + 0x48) 8) % 2 ^ 64 < 255) :
    ∃ t, exec (.feltlinkFlitReceive p ver seq false pay) s = .next t ∧ t.mem = s.mem ∧ (t.port p).rxSeq = (s.port p).rxSeq ∧
      (t.port p).crc = sat16 (s.port p).crc ∧ (t.port p).rply = sat16 (s.port p).rply := by
  have ran : exec (.feltlinkFlitReceive p ver seq false pay) s = .next (s.modPort p (fun p => { p with crc := sat16 p.crc, rply := sat16 p.rply })) := by
    show execFeltlinkFlitReceive p ver seq false pay s = _
    unfold execFeltlinkFlitReceive
    dsimp only
    rw [if_neg (by simp [hu]), if_neg (by omega), if_pos (show (!false) = true from rfl)]
  refine ⟨_, ran, rfl, ?_⟩
  rw [port_modPort_same hl]
  exact ⟨rfl, rfl, rfl⟩

/-- The slot that a flit becomes: its payload, and a length that is open. -/
def slotOf (pay : List Byte) (n : Nat) : List Byte := bytesAt pay 0 224 ++ leBytes 2 (n + 1) ++ zeros 30

theorem getElem?_slotOf {n i : Nat} (hi : i < 224) : (slotOf pay n)[i]? = some ((pay[i]?).getD 0) := by
  rw [slotOf, List.append_assoc, List.getElem?_append_left (by simpa [bytesAt] using hi)]
  simp [bytesAt, hi]

theorem length_slotOf (n : Nat) : (slotOf pay n).length = 256 := by simp [slotOf, bytesAt, length_leBytes, zeros]

theorem feltlinkFlitReceive_good (hl : p < s.ports.length) (hu : (s.port p).up = true) (ht : tail = rdN s (portArea p + 0x40) 8)
    (room : (tail + 2 ^ 64 - rdN s (portArea p + 0x48) 8) % 2 ^ 64 < 255) (hv : ver = (s.port p).vmaj) (hs : seq = (s.port p).rxSeq) :
    ∃ t, exec (.feltlinkFlitReceive p ver seq true pay) s = .next t ∧ (t.port p).rxSeq = seq + 1 ∧ rdN t (portArea p + 0x40) 8 = next64 tail ∧
      ∀ i, i < 224 → rdB t (portArea p + 0x10000 + 256 * (tail % 255) + i) = (pay[i]?).getD 0 := by
  have ran : exec (.feltlinkFlitReceive p ver seq true pay) s = .next
      ((wrN (wrBytes (s.takeNat 224).2 (portArea p + 0x10000 + 256 * (tail % 255)) (slotOf pay (s.takeNat 224).1)) (portArea p + 0x40) 8
        ((tail + 1) % 2 ^ 64)).modPort p (fun p => { p with rxSeq := p.rxSeq + 1 })) := by
    show execFeltlinkFlitReceive p ver seq true pay s = _
    unfold execFeltlinkFlitReceive
    dsimp only
    rw [if_neg (by simp [hu]), if_neg (by omega), if_neg (by simp), if_neg (by simp [hv, hs]), ht]
    rfl
  have ports : (wrN (wrBytes (s.takeNat 224).2 (portArea p + 0x10000 + 256 * (tail % 255)) (slotOf pay (s.takeNat 224).1)) (portArea p + 0x40) 8
      ((tail + 1) % 2 ^ 64)).ports = s.ports := by
    rw [wrN, wrBytes_ports, wrBytes_ports]
    rfl
  refine ⟨_, ran, ?_, ?_, fun i hi => ?_⟩
  · rw [port_modPort_same (by rw [ports]; exact hl), hs]
    simp only [State.port, ports]
  · rw [rdN_of_mem (State.modPort_mem _ _ _), rdN_wrN]
    exact Nat.mod_eq_of_lt (by omega)
  · rw [rdB_of_mem (State.modPort_mem _ _ _), rdB_wrN, if_neg (by omega), rdB_wrBytes, if_pos (by rw [length_slotOf]; omega),
      Nat.add_sub_cancel_left, getElem?_slotOf hi]
    rfl

end Receive

section Send
variable {tail head : Nat}

theorem feltlinkSlotSend_replays {n : Nat} (hl : p < s.ports.length) (hu : (s.port p).up = true) (hn : (s.takeNat ((s.port p).kept.length + 1)).1 = n)
    (h0 : n ≠ 0) : ∃ t, exec (.feltlinkSlotSend p) s = .next t ∧ t.mem = s.mem ∧
      t.port p = { s.port p with out := (s.port p).kept.take n ++ (s.port p).out, rply := sat16 (s.port p).rply } := by
  have ran : exec (.feltlinkSlotSend p) s = .next ((s.takeNat ((s.port p).kept.length + 1)).2.modPort p (fun p => p.replay n)) := by
    show execFeltlinkSlotSend p s = _
    unfold execFeltlinkSlotSend
    dsimp only
    rw [if_neg (by simp [hu]), if_pos (by simpa [hn] using h0), hn]
  exact ⟨_, ran, rfl, port_modPort_same (s := (s.takeNat ((s.port p).kept.length + 1)).2) hl⟩

/-- A flit without its CRC: version, sequence number, a slot's payload, and fields that are open. -/
def flitBody (p : Port) (w v x : W32) (slot : List Byte) : List Byte :=
  leBytes 1 p.vmaj.toNat ++ leBytes 3 w.toNat ++ leBytes 4 p.txSeq.toNat ++ leBytes 4 v.toNat ++ leBytes 4 x.toNat ++ slot

/-- The flit of a body. -/
def flitOf (body : List Byte) : List Byte := body ++ leBytes 8 (crc64 body).toNat ++ zeros 8

/-- Where the fields of a flit lie (R460). -/
theorem flitOf_fields (p : Port) (w v x : W32) {slot : List Byte} (h : slot.length = 224) :
    ∀ flit, flit = flitOf (flitBody p w v x slot) → flit.length = 256 ∧ bytesAt flit 240 8 = leBytes 8 (crc64 (flit.take 240)).toNat ∧ bytesAt flit 16 224 = slot ∧ flit.head? = some p.vmaj ∧
      bytesAt flit 4 4 = leBytes 4 p.txSeq.toNat := by
  have body : (flitBody p w v x slot).length = 240 := by simp [flitBody, length_leBytes, h]
  rintro _ rfl
  refine ⟨by simp [flitOf, body, length_leBytes, zeros], ?crc, ?payload, by simp [flitOf, flitBody, leBytes], ?seq⟩
  case crc =>
    have taken : (flitOf (flitBody p w v x slot)).take 240 = flitBody p w v x slot := by
      rw [flitOf, List.append_assoc, List.take_append_of_le_length (by omega), ← body, List.take_length]
    have at_ := bytesAt_append (flitBody p w v x slot) (leBytes 8 (crc64 (flitBody p w v x slot)).toNat) (zeros 8)
    rw [body, length_leBytes, ← List.append_assoc] at at_
    rw [taken]
    exact at_
  case payload =>
    have at_ := bytesAt_append (leBytes 1 p.vmaj.toNat ++ leBytes 3 w.toNat ++ leBytes 4 p.txSeq.toNat ++ leBytes 4 v.toNat ++ leBytes 4 x.toNat) slot
      (leBytes 8 (crc64 (flitBody p w v x slot)).toNat ++ zeros 8)
    rw [h, show (leBytes 1 p.vmaj.toNat ++ leBytes 3 w.toNat ++ leBytes 4 p.txSeq.toNat ++ leBytes 4 v.toNat ++ leBytes 4 x.toNat).length = 16 by
      simp [length_leBytes], ← List.append_assoc, ← List.append_assoc] at at_
    exact at_
  case seq =>
    have at_ := bytesAt_append (leBytes 1 p.vmaj.toNat ++ leBytes 3 w.toNat) (leBytes 4 p.txSeq.toNat) (leBytes 4 v.toNat ++ leBytes 4 x.toNat ++ slot ++
      (leBytes 8 (crc64 (flitBody p w v x slot)).toNat ++ zeros 8))
    rw [length_leBytes, show (leBytes 1 p.vmaj.toNat ++ leBytes 3 w.toNat).length = 4 by simp [length_leBytes]] at at_
    simpa only [flitOf, flitBody, List.append_assoc] using at_

/-- The flit that port `p` sends of its next slot. -/
def nextFlit (s : State) (p : Nat) : List Byte :=
  let u := (s.takeNat ((s.port p).kept.length + 1)).2
  flitOf (flitBody (s.port p) u.takeWord.1 u.takeWord.2.takeWord.1 u.takeWord.2.takeWord.2.takeWord.1
    (rdBytes s (portArea p + 0x100 + 256 * (rdN s (portArea p + 8) 8 % 255)) 224))

/-- The state in which port `p` has sent a flit, and keeps it. -/
def flitSent (s : State) (p : Nat) (flit : List Byte) : State :=
  (s.takeNat ((s.port p).kept.length + 1)).2.takeWord.2.takeWord.2.takeWord.2.modPort p
    (fun p => { p with txSeq := p.txSeq + 1, kept := (flit :: p.kept).take 128, out := flit :: p.out })

theorem exec_feltlinkSlotSend (hu : (s.port p).up = true) (hn : (s.takeNat ((s.port p).kept.length + 1)).1 = 0)
    (hne : rdN s (portArea p) 8 ≠ rdN s (portArea p + 8) 8) :
    exec (.feltlinkSlotSend p) s = .next (wrN (flitSent s p (nextFlit s p)) (portArea p + 8) 8 ((rdN s (portArea p + 8) 8 + 1) % 2 ^ 64)) := by
  show execFeltlinkSlotSend p s = _
  unfold execFeltlinkSlotSend
  dsimp only
  rw [if_neg (by simp [hu]), if_neg (by simp [hn]), if_neg hne]
  rfl

theorem feltlinkSlotSend_sends (hl : p < s.ports.length) (hu : (s.port p).up = true) (ht : tail = rdN s (portArea p) 8)
    (hh : head = rdN s (portArea p + 8) 8) (hn : (s.takeNat ((s.port p).kept.length + 1)).1 = 0) (hne : tail ≠ head) :
    ∃ t flit, exec (.feltlinkSlotSend p) s = .next t ∧
      (t.port p).txSeq = (s.port p).txSeq + 1 ∧ (t.port p).kept = (flit :: (s.port p).kept).take 128 ∧ (t.port p).out = flit :: (s.port p).out ∧
      flit.length = 256 ∧ bytesAt flit 240 8 = leBytes 8 (crc64 (flit.take 240)).toNat ∧ bytesAt flit 16 224 = rdBytes s (portArea p + 0x100 + 256 * (head % 255)) 224 ∧
      flit.head? = some (s.port p).vmaj ∧ bytesAt flit 4 4 = leBytes 4 (s.port p).txSeq.toNat ∧ rdN t (portArea p + 8) 8 = next64 head := by
  rw [ht] at hne
  rw [hh] at hne ⊢
  have sent (v : Nat) : (wrN (flitSent s p (nextFlit s p)) (portArea p + 8) 8 v).port p =
      { s.port p with txSeq := (s.port p).txSeq + 1, kept := (nextFlit s p :: (s.port p).kept).take 128, out := nextFlit s p :: (s.port p).out } := by
    rw [State.port, wrN, wrBytes_ports]
    exact port_modPort_same (s := (s.takeNat ((s.port p).kept.length + 1)).2.takeWord.2.takeWord.2.takeWord.2) hl
  obtain ⟨length, crc, payload, version, number⟩ := flitOf_fields (s.port p) _ _ _ (length_rdBytes s _ 224) (nextFlit s p) rfl
  refine ⟨_, nextFlit s p, exec_feltlinkSlotSend hu hn hne, ?_, ?_, ?_, length, crc, payload, version, number, ?_⟩
  · rw [sent]
  · rw [sent]
  · rw [sent]
  · rw [rdN_wrN]
    exact Nat.mod_eq_of_lt (by omega)

end Send

end Ports

/-! ### Attestation (R464) -/

theorem attestationRequest_reports (s : State) {nonce b : List Byte} (hb : b = attestReport s nonce ++ attestSign (attestReport s nonce)) :
    ∃ t, exec (.attestationRequest nonce) s = .next t ∧ t = { s with attest := some b } ∧
      ∀ i, i < 4096 → regRead t 4 (0x8000 + 8 * i) = BitVec.ofNat 64 (fieldAt b (8 * i) 8) := by
  refine ⟨{ s with attest := some b }, by rw [hb]; rfl, rfl, fun i hi => ?_⟩
  have up : fnDown ({ s with attest := some b } : State) 4 = false := FnUp.fnDown (.inl rfl)
  unfold regRead
  rw [if_neg (by simp [up]), if_neg (by omega), if_neg (by simp; omega), if_neg (by simp; omega), if_pos (by simp; omega),
    show (0x8000 + 8 * i - 0x8000) / 8 = i by omega]
  rfl

/-! ### O52 -/

/-- Settles O52: the ordering point, the crossbar, the ports and the report each by the lemmas above. -/
theorem fabricEvents : Obligations.FabricEvents := by
  unfold Obligations.FabricEvents
  refine ⟨fun s req addr data ro hd => ⟨inboundPostedWrite_unbacked hd, fun n => inboundRead_unbacked, ?posted⟩, ?read, fun s b => orderingPointForward_sends, ?home,
    ?fork, fun s p maj min hp hl => ⟨feltlinkTraining_agrees min hp hl, feltlinkPortDown_ends hl⟩, ?receive, ?send, fun s nonce b => attestationRequest_reports s⟩
  case posted =>
    intro hb hn
    refine ⟨fun h => ⟨_, exec_inboundPostedWrite hd hb hn, rfl, ?_⟩, fun hro hf h => ⟨_, exec_inboundPostedWrite hd hb hn, rfl, ?_⟩⟩
    · exact inbMay_write h ▸ inbAdd_added s req addr data none ro
    · have added := inbAdd_added s req addr data none ro
      rw [hro] at added ⊢
      rwa [inbMay_write_held hf h] at added
  case read => exact fun s req addr n hn hb hf => ⟨_, exec_inboundRead hn hb, rfl, inbMay_read hf ▸ inbAdd_added s req addr [] (some n) false⟩
  case home =>
    exact fun s b ha h hs hd hb ho hp hf => ⟨homeRequest_inbWrite ha h hs hd hb ho hp hf, fun n => homeRequest_inbRead ha h hs hd hb ho hp hf⟩
  case fork =>
    intro s d p hp hd hl
    refine ⟨fun h => ⟨?_, not_requested_of_granted_none h⟩, fun f h => ⟨grantsOldest_of_granted h, multicastFork_sends hp hd hl h⟩⟩
    show execMulticastFork d p s = _
    unfold execMulticastFork
    rw [if_neg (by omega)]
    simp only [h]
  case receive =>
    intro s p tail head ver seq pay hp hl hu ht hh room
    subst hh
    exact ⟨feltlinkFlitReceive_bad hl hu (by rw [← ht]; exact room), feltlinkFlitReceive_good hl hu ht room⟩
  case send =>
    exact fun s p tail head hp hl hu ht hh => ⟨fun n hn => feltlinkSlotSend_replays hl hu hn, feltlinkSlotSend_sends hl hu ht hh⟩

end Sys2Proof.Machine
end

section
/-! PROOFS. What an acquire and a hold leave unchanged (R65, R72, R137, R403), and the traps at issue (R413, R416). -/

namespace Sys2Proof.Machine

/-! ### Changes that keep workgroups, grids and memory -/

/-- Memory, the stacks and the grids of every die are in `t` as in `s`. -/
structure GridsKept (s t : State) : Prop where
  mem : t.mem = s.mem
  stks : t.stks = s.stks
  dies : t.dies.length = s.dies.length
  grids : ∀ d, (t.die d).grids = (s.die d).grids

/-- So are the workgroups. -/
structure WgsKept (s t : State) : Prop extends GridsKept s t where
  wgs : ∀ d, (t.die d).wgs = (s.die d).wgs

section Kept
variable {s t u : State} {f : FragRef}

theorem GridsKept.refl (s : State) : GridsKept s s := ⟨rfl, rfl, rfl, fun _ => rfl⟩

theorem GridsKept.trans (h : GridsKept s t) (k : GridsKept t u) : GridsKept s u :=
  ⟨k.mem.trans h.mem, k.stks.trans h.stks, k.dies.trans h.dies, fun d => (k.grids d).trans (h.grids d)⟩

theorem GridsKept.grid? (h : GridsKept s t) (d id : Nat) : t.grid? d id = s.grid? d id := by
  unfold State.grid?
  rw [h.grids]

theorem WgsKept.refl (s : State) : WgsKept s s := ⟨.refl s, fun _ => rfl⟩

theorem WgsKept.trans (h : WgsKept s t) (k : WgsKept t u) : WgsKept s u :=
  ⟨h.toGridsKept.trans k.toGridsKept, fun d => (k.wgs d).trans (h.wgs d)⟩

theorem WgsKept.foldl {α : Type} {g : State → α → State} (hg : ∀ s a, WgsKept s (g s a)) (l : List α) (s : State) : WgsKept s (l.foldl g s) :=
  foldl_keeps (P := WgsKept s) (fun _ a h => h.trans (hg _ a)) l s (.refl s)

theorem GridsKept.modDie {d : Nat} {g : Die → Die} (hg : ∀ x, (g x).grids = x.grids) : GridsKept s (s.modDie d g) :=
  ⟨rfl, rfl, length_listMod _ _ _, fun _ => die_modDie_keeps (p := Die.grids) hg⟩

theorem WgsKept.modDie {d : Nat} {g : Die → Die} (hg : ∀ x, (g x).grids = x.grids) (hw : ∀ x, (g x).wgs = x.wgs) : WgsKept s (s.modDie d g) :=
  ⟨.modDie hg, fun _ => die_modDie_keeps (p := Die.wgs) hw⟩

theorem GridsKept.modWg (d w : Nat) (g : Wg → Wg) : GridsKept s (s.modWg d w g) := .modDie (fun _ => rfl)

theorem WgsKept.wg? (h : WgsKept s t) (d w : Nat) : t.wg? d w = s.wg? d w := by
  unfold State.wg?
  rw [h.wgs]

theorem WgsKept.wgOf? (h : WgsKept s t) (f : FragRef) : t.wgOf? f = s.wgOf? f := by
  unfold State.wgOf?
  rw [h.wg?]

theorem WgsKept.warp? (h : WgsKept s t) (f : FragRef) : t.warp? f = s.warp? f := by
  unfold State.warp?
  rw [h.wgOf?]

theorem WgsKept.frag? (h : WgsKept s t) (f : FragRef) : t.frag? f = s.frag? f := by
  unfold State.frag?
  rw [h.warp?]

end Kept

/-! ### Acquires (R65, R72, R86, R137) -/

section Acquire
variable {s : State} {f : FragRef}

theorem flashFills_kept (s : State) (d c : Nat) (p : Acc → Bool) : WgsKept s (flashFills s d c p) := ⟨⟨rfl, rfl, rfl, fun _ => rfl⟩, fun _ => rfl⟩

theorem modCore_kept (s : State) (d k : Nat) (g : Core → Core) : WgsKept s (s.modCore d k g) := .modDie (fun _ => rfl) (fun _ => rfl)

theorem flashL1_kept (s : State) (f : FragRef) : WgsKept s (flashL1 s f) := (modCore_kept ..).trans (flashFills_kept ..)

theorem dropLines_kept (s : State) (d c : Nat) (p : Nat × Line → Bool) : WgsKept s (dropLines s d c p) :=
  WgsKept.trans (t := refetch s d c _) ⟨⟨rfl, rfl, rfl, fun _ => rfl⟩, fun _ => rfl⟩ (.modDie (fun _ => rfl) (fun _ => rfl))

theorem seeLag_kept (s : State) (f : FragRef) (sc : Scope) : WgsKept s (seeLag s f sc) := by
  unfold seeLag
  split
  · split
    · exact .refl s
    · exact modCore_kept ..
  · exact .refl s

/-- An acquire changes what a core and its cluster hold, and the fills that are under way. -/
theorem acquire_kept (s : State) (f : FragRef) (sc : Scope) : WgsKept s (acquire s f sc) := by
  have wide : WgsKept s (flashFills (dropLines (flashL1 (seeLag s f sc) f) f.die (f.core / 8) (fun l => l.2.dsh)) f.die (f.core / 8) (fun a => a.sl == 1)) :=
    (seeLag_kept ..).trans ((flashL1_kept ..).trans ((dropLines_kept ..).trans (flashFills_kept ..)))
  cases sc with
  | wp | wg => exact seeLag_kept ..
  | cl => exact (seeLag_kept ..).trans (flashL1_kept ..)
  | die | fab | sys => exact wide

/-- An acquire wider than a cluster empties the core's L1 (R65). -/
theorem l1_acquire_die (h : f.die < s.dies.length) : ((acquire s f .die).core f.die f.core).l1 = [] := by
  have flashed : ((flashL1 (seeLag s f .die) f).core f.die f.core).l1 = [] := by
    have emptied := core_modCore_same (s := seeLag s f .die) (k := f.core) (g := fun c => { c with l1 := [] }) (by rw [(seeLag_kept s f .die).dies]; exact h)
    exact congrArg Core.l1 emptied
  have cores : ∀ u : State, (dropLines u f.die (f.core / 8) (fun l => l.2.dsh)).core f.die f.core = u.core f.die f.core := fun u => core_modDie_of_keeps (fun _ => rfl)
  exact (congrArg Core.l1 (cores _)).trans flashed

end Acquire

/-! ### Words that run, wait or trap -/

section Words
variable {s : State} {c : Ctx} {h : Hdr} {os : List Opd}

theorem uniOp_runs {body : Ctx → State → State} (hu : UniRuns h os s c) : uniOp h os body s = body c s := by
  obtain ⟨⟨hx, hm, hk⟩, holds, clean⟩ := hu
  exact uniOp_go hx hm hk holds clean.1 clean.2

theorem markOp_runs {body : Ctx → State → State} (hm : Marks h os s c) : markOp h os body s = body c s := by
  obtain ⟨runs, out⟩ := hm
  rw [markOp, uniOp_runs runs, out]
  rfl

theorem UniRuns.ctxOf (hu : UniRuns h os s c) : ctxOf s c.f = some c := by
  have hx : Machine.ctxOf s s.cur = some c := hu.1.1
  rwa [(ctxOf_f hx).1]

theorem UniRuns.frag? (hu : UniRuns h os s c) : s.frag? c.f = some c.p := frag?_of_ctxOf hu.ctxOf

/-- The die of a workgroup that is found is there. -/
theorem die_lt_of_wg? {d w : Nat} {g : Wg} (hg : s.wg? d w = some g) : d < s.dies.length := by
  by_contra hd
  have absent : s.die d = default := by simp [State.die, hd]
  have none : s.wg? d w = none := by
    unfold State.wg?
    rw [absent]
    rfl
  rw [none] at hg
  cases hg

theorem wg?_of_wgOf? {f : FragRef} {g : Wg} (hg : s.wgOf? f = some g) : s.wg? f.die f.wg = some g ∧ g.core = f.core := by
  unfold State.wgOf? at hg
  split at hg
  · next x hx =>
    split at hg
    · next hc =>
      cases hg
      exact ⟨hx, by simpa using hc⟩
    · cases hg
  · cases hg

/-- What a fragment that waits leaves of itself. -/
theorem frag?_hold {f : FragRef} {p : Frag} (hp : s.frag? f = some p) (w : Wait) :
    (hold s f w).frag? f = some { p with wait := w, lastIssue := if w.issued then p.lastIssue else p.prevIssue } :=
  have occ : p.occ = true := frag?_occ hp
  frag?_modFrag (g := fun p => { p with wait := w, lastIssue := if w.issued then p.lastIssue else p.prevIssue })
    (frag?_modWarp (g := fun x => { x with parkedAt := if (x.slot f.s1).wait == w then x.parkedAt else s.clock }) hp (fun _ => by cases f.s1 <;> rfl)) occ

theorem frag?_progress {f : FragRef} {p : Frag} (hp : s.frag? f = some p) :
    (progress s f).frag? f = some { p with wdc := 0, wdt := none, wdHeld := none } :=
  have occ : p.occ = true := frag?_occ hp
  frag?_modFrag (g := fun p => { p with wdc := 0, wdt := none, wdHeld := none }) hp occ

/-- A change of a workgroup that keeps its warps keeps its fragments. -/
theorem frag?_modWgOf {f : FragRef} {g : Wg → Wg} (hw : ∀ x, (g x).warps = x.warps) (hc : ∀ x, (g x).core = x.core) :
    (s.modWgOf f g).frag? f = s.frag? f := by
  unfold State.frag? State.warp?
  rw [wgOf?_modWgOf hc]
  cases s.wgOf? f with
  | none => rfl
  | some x => simp [hw]

/-- A trap at issue, of a fragment whose traps are not masked (R413, R416). -/
theorem trapAt_trapped (hx : ctxOf s c.f = some c) (hm : c.p.masked = false) (cause : Nat) (info : W64) :
    Trapped (trapAt s c.f cause info) c cause info c.p.pc false true := by
  have hp := frag?_of_ctxOf hx
  have occ : c.p.occ = true := frag?_occ hp
  unfold trapAt
  simp only [hp]
  unfold takeTrap
  simp only [hx, hm, Bool.false_eq_true, if_false]
  exact ⟨_, frag?_modFrag hp occ, rfl, rfl, rfl, rfl, rfl, rfl, rfl⟩

end Words

end Sys2Proof.Machine
end

section
/-! PROOFS. Barriers: arrival, departure and the phase boundary (R144, R198, R225, R395, R408), and O39. -/

namespace Sys2Proof.Machine

/-! ### Barrier scopes of a workgroup -/

theorem Wg.bar_modBar {i : Nat} (hi : i < 4) (g : Wg) (f : BarSt → BarSt) : (g.modBar i f).bar i = f (g.bar i) := by
  have there : (g.bars ++ List.replicate (4 - g.bars.length) ({} : BarSt))[i]? = some (g.bar i) := by
    unfold Wg.bar
    by_cases h : i < g.bars.length
    · rw [List.getElem?_append_left h, List.getElem?_eq_getElem h]
      rfl
    · rw [List.getElem?_append_right (by omega), List.getElem?_replicate_of_lt (by omega), List.getElem?_eq_none (by omega)]
      rfl
  unfold Wg.bar Wg.modBar
  simp only [getElem?_listMod, if_true, there, Option.map_some, Option.getD_some]
  rfl

/-! ### Arrival (R198, R225) -/

section Arrival
variable {s : State} {c : Ctx} {h : Hdr} {sc : BitVec 2}

theorem frag?_modBar (s : State) (f : FragRef) (i : Nat) (b : BarSt → BarSt) : (s.modWgOf f (fun g => g.modBar i b)).frag? f = s.frag? f :=
  frag?_modWgOf (g := fun g => g.modBar i b) (fun _ => rfl) (fun _ => rfl)

theorem wgOf?_modBar (s : State) (f : FragRef) (i : Nat) (b : BarSt → BarSt) :
    (s.modWgOf f (fun g => g.modBar i b)).wgOf? f = (s.wgOf? f).map (fun g => g.modBar i b) :=
  wgOf?_modWgOf (g := fun g => g.modBar i b) (fun _ => rfl)

/-- The workgroup of `c` has noted the arrival of its fragment. -/
def barArrived (s : State) (c : Ctx) (i : Nat) : State :=
  s.modWgOf c.f (fun g => g.modBar i (fun b => { b with arrived := b.arrived ++ [c.p.uid] }))

theorem exec_bar_arrives (hm : Marks h [] s c) (hd : (c.g.bar sc.toNat).departed.contains c.p.uid = false)
    (ha : (c.g.bar sc.toNat).arrived.contains c.p.uid = false) (hq : acqOut s c.p.uid = false) (hr : released s c.f c.p.uid (barScope sc.toNat) = true) :
    exec (.bar h sc) s = .next (hold (progress (barArrived s c sc.toNat) c.f) c.f (.bar sc.toNat)) := by
  have ran : exec (.bar h sc) s = .next (markOp h [] _ s) := rfl
  rw [ran, markOp_runs hm]
  simp only [hd, ha, hq, hr, Bool.false_eq_true, if_false, Bool.not_true, Bool.or_self]
  rfl

/-- An arrival waits at its word, and is counted once more. -/
theorem bar_arrives (hm : Marks h [] s c) (hd : (c.g.bar sc.toNat).departed.contains c.p.uid = false)
    (ha : (c.g.bar sc.toNat).arrived.contains c.p.uid = false) (hq : acqOut s c.p.uid = false) (hr : released s c.f c.p.uid (barScope sc.toNat) = true) :
    ∃ t g, exec (.bar h sc) s = .next t ∧ (t.frag? c.f).map (fun p => (p.pc, p.wait)) = some (c.p.pc, .bar sc.toNat) ∧
      t.wgOf? c.f = some g ∧ g.bar sc.toNat = { (c.g.bar sc.toNat) with arrived := (c.g.bar sc.toNat).arrived ++ [c.p.uid] } := by
  have arrivedFrag : (barArrived s c sc.toNat).frag? c.f = some c.p := (frag?_modBar ..).trans hm.1.frag?
  have arrivedWg : (barArrived s c sc.toNat).wgOf? c.f = some (c.g.modBar sc.toNat (fun b => { b with arrived := b.arrived ++ [c.p.uid] })) := by
    rw [barArrived, wgOf?_modBar, (ctxOf_f hm.1.ctxOf).2.1]
    rfl
  have heldWg : ∃ ws, (hold (progress (barArrived s c sc.toNat) c.f) c.f (.bar sc.toNat)).wgOf? c.f =
      some { c.g.modBar sc.toNat (fun b => { b with arrived := b.arrived ++ [c.p.uid] }) with warps := ws } := by
    rw [hold, State.modFrag, progress, State.modFrag, wgOf?_modWarp, wgOf?_modWarp, wgOf?_modWarp, arrivedWg]
    exact ⟨_, rfl⟩
  obtain ⟨ws, held⟩ := heldWg
  exact ⟨_, _, exec_bar_arrives hm hd ha hq hr, by rw [frag?_hold (frag?_progress arrivedFrag)]; rfl, held,
    Wg.bar_modBar sc.isLt c.g (fun b => { b with arrived := b.arrived ++ [c.p.uid] })⟩

/-- A fragment whose barrier departed while it was saved goes on. -/
theorem bar_departed (hm : Marks h [] s c) (hd : (c.g.bar sc.toNat).departed.contains c.p.uid = true) :
    ∃ t, exec (.bar h sc) s = .next t ∧ Done t c := by
  have ran : exec (.bar h sc) s = .next (markOp h [] _ s) := rfl
  have frag : (acquire (s.modWgOf c.f (fun g => g.modBar sc.toNat (fun b => { b with departed := b.departed.filter (· != c.p.uid) }))) c.f
      (barScope sc.toNat)).frag? c.f = some c.p :=
    ((acquire_kept _ _ _).frag? c.f).trans ((frag?_modBar ..).trans hm.1.frag?)
  rw [ran, markOp_runs hm]
  simp only [hd, if_true]
  refine ⟨_, rfl, ?_⟩
  rw [Done, frag?_finish frag]
  rfl

end Arrival

/-! ### Departure of a workgroup (R144) -/

section Departure
variable {s : State} {i : Nat} {e : Nat × Nat} {g : Wg}

/-- A fragment that goes on as its barrier departs: it waits at the barrier, and is not saved. -/
def goesPast (i : Nat) (g : Wg) (w : Warp) (p : Frag) : Bool :=
  !w.entered && !w.swapped && p.occ && p.wait == .bar i && (g.bar i).arrived.contains p.uid

/-- The fragments that go on, with their slots. -/
def leavers (i : Nat) (e : Nat × Nat) (g : Wg) : List (FragRef × Nat) :=
  g.warps.flatMap (fun (w : Nat × Warp) => [false, true].filterMap (fun s1 =>
    if goesPast i g w.2 (w.2.slot s1) then some (⟨e.1, g.core, e.2, w.1, s1⟩, (w.2.slot s1).uid) else none))

/-- The barrier of a workgroup has departed, and is empty. -/
def Wg.departed (g : Wg) (i : Nat) (e : Nat × Nat) : Wg :=
  g.modBar i (fun b =>
    { inst := b.inst + 1, arrived := [], departed := b.departed ++ b.arrived.filter (fun u => !(leavers i e g).any (fun x => x.2 == u)) })

/-- A warp whose fragments have gone past their word where `p` says so. -/
def Warp.passed (p : Warp → Frag → Bool) (w : Warp) : Warp :=
  { w with s0 := if w.s0.occ && p w w.s0 then passFrag w.s0 else w.s0, s1 := if w.s1.occ && p w w.s1 then passFrag w.s1 else w.s1 }

theorem Warp.slot_passed (p : Warp → Frag → Bool) (w : Warp) (b : Bool) :
    (w.passed p).slot b = if (w.slot b).occ && p w (w.slot b) then passFrag (w.slot b) else w.slot b := by
  cases b <;> rfl

/-- A workgroup after its departure. -/
def Wg.wentPast (g : Wg) (i : Nat) (e : Nat × Nat) : Wg :=
  { g.departed i e with warps := g.warps.map (fun w => (w.1, w.2.passed (goesPast i g))) }

theorem barDepart_eq (hg : s.wg? e.1 e.2 = some g) :
    barDepart i s e = passAll ((leavers i e g).foldl (fun (s : State) (x : FragRef × Nat) => acquire s x.1 (barScope i))
      (s.modWg e.1 e.2 (fun g' => g'.modBar i (fun b =>
        { inst := b.inst + 1, arrived := [], departed := b.departed ++ b.arrived.filter (fun u => !(leavers i e g).any (fun x => x.2 == u)) }))))
      e.1 e.2 (goesPast i g) := by
  unfold barDepart
  simp only [hg]
  rfl

theorem barDepart_none (hg : s.wg? e.1 e.2 = none) : barDepart i s e = s := by
  unfold barDepart
  simp only [hg]

theorem acquires_kept (s : State) (l : List (FragRef × Nat)) (sc : Scope) :
    WgsKept s (l.foldl (fun (s : State) (x : FragRef × Nat) => acquire s x.1 sc) s) :=
  .foldl (fun s x => acquire_kept s x.1 sc) l s

theorem barDepart_grids (i : Nat) (s : State) (e : Nat × Nat) : GridsKept s (barDepart i s e) := by
  cases hg : s.wg? e.1 e.2 with
  | none => rw [barDepart_none hg]; exact .refl s
  | some g =>
    rw [barDepart_eq hg]
    exact (GridsKept.modWg ..).trans ((acquires_kept ..).toGridsKept.trans (GridsKept.modWg ..))

theorem wg?_barDepart_same (hg : s.wg? e.1 e.2 = some g) : (barDepart i s e).wg? e.1 e.2 = some (g.wentPast i e) := by
  rw [barDepart_eq hg, passAll, wg?_modWg, if_pos ⟨rfl, rfl⟩, (acquires_kept ..).wg?, wg?_modWg, if_pos ⟨rfl, rfl⟩, hg]
  rfl

theorem wg?_barDepart_of_ne {e' : Nat × Nat} (h : e ≠ e') : (barDepart i s e).wg? e'.1 e'.2 = s.wg? e'.1 e'.2 := by
  have other : ¬ (e.1 = e'.1 ∧ e.2 = e'.2) := fun k => h (Prod.ext k.1 k.2)
  cases hg : s.wg? e.1 e.2 with
  | none => rw [barDepart_none hg]
  | some g => rw [barDepart_eq hg, passAll, wg?_modWg, if_neg other, (acquires_kept ..).wg?, wg?_modWg, if_neg other]

theorem barDeparts_grids (i : Nat) (s : State) (ps : List (Nat × Nat)) : GridsKept s (ps.foldl (barDepart i) s) :=
  foldl_keeps (P := GridsKept s) (fun u e h => h.trans (barDepart_grids i u e)) ps s (.refl s)

theorem wg?_barDeparts_of_not_mem {ps : List (Nat × Nat)} (h : e ∉ ps) : (ps.foldl (barDepart i) s).wg? e.1 e.2 = s.wg? e.1 e.2 := by
  induction ps generalizing s with
  | nil => rfl
  | cons a ps ih =>
    rw [List.mem_cons, not_or] at h
    rw [List.foldl_cons, ih h.2, wg?_barDepart_of_ne (Ne.symm h.1)]

/-- Of participants that are there once, each has departed in its own turn. -/
theorem wg?_barDeparts {ps : List (Nat × Nat)} (hn : ps.Nodup) (he : e ∈ ps) (hg : s.wg? e.1 e.2 = some g) :
    (ps.foldl (barDepart i) s).wg? e.1 e.2 = some (g.wentPast i e) := by
  induction ps generalizing s with
  | nil => cases he
  | cons a ps ih =>
    obtain ⟨notIn, nodup⟩ := List.nodup_cons.mp hn
    rw [List.foldl_cons]
    by_cases h : a = e
    · subst h
      rw [wg?_barDeparts_of_not_mem notIn, wg?_barDepart_same hg]
    · have rest : e ∈ ps := (List.mem_cons.mp he).resolve_left (Ne.symm h)
      exact ih nodup rest ((wg?_barDepart_of_ne h).trans hg)

end Departure

/-! ### The phase boundary (R395) -/

section Phase
variable {s : State} {d id : Nat} {y : Grid}

/-- A grid in its next phase, with the best table of it. -/
def Grid.nextPhase (y : Grid) : Grid :=
  let ph := (y.phase + 1) % 16
  let cur := if y.hadTab then bestTab y (phaseTabs y ph) else (phaseTabs y ph).head?
  { y with phase := ph, curTab := cur, hadTab := cur.isSome, cost := [] }

/-- A workgroup that has fetched no part of the range that is dealt afresh. -/
def Wg.refetches (g : Wg) : Wg := { g with fetchPart := 0, fetchCur := none }

theorem refetch_kept (s : State) (d : Nat) (l : List Nat) : GridsKept s (l.foldl (fun (s : State) (t : Nat) => s.modWg d t Wg.refetches) s) :=
  foldl_keeps (P := GridsKept s) (fun _ _ h => h.trans (.modWg ..)) l s (.refl s)

theorem grid?_modGrid {g : Grid → Grid} (h : s.grid? d id = some y) (hg : ∀ x, x.id = id → (g x).id = id) : (s.modGrid d id g).grid? d id = some (g y) := by
  have hd : d < s.dies.length := by
    by_contra hd
    have absent : s.die d = default := by simp [State.die, hd]
    unfold State.grid? at h
    rw [absent] at h
    cases h
  have same : ((fun x : Grid => x.id == id) ∘ fun x => if x.id == id then g x else x) = fun x => x.id == id := by
    funext x
    simp only [Function.comp_apply]
    split
    · next hx => simpa [hg x (by simpa using hx)] using hx
    · rfl
  have here : (y.id == id) = true := by simpa using List.find?_some h
  unfold State.grid? at h ⊢
  rw [State.modGrid, die_modDie_same hd]
  simp only [List.find?_map, same, h, Option.map_some, here, if_true]

/-- The state in which the range of `y` is dealt afresh. -/
def dealtAfresh (s : State) (d id : Nat) (y : Grid) : State :=
  (y.wgs.foldl (fun (s : State) (t : Nat) => s.modWg d t Wg.refetches)
    (s.modGrid d id (fun z => { z with phase := y.nextPhase.phase, curTab := y.nextPhase.curTab, hadTab := y.nextPhase.hadTab, cost := [] }))).modStk y.cstk
      (fun k => { k with counters := Tab.put k.counters y.ctr 0 0 })

theorem phaseBoundary_eq (h : s.grid? d id = some y) :
    phaseBoundary s d id = if y.disp != 1 || y.mode == 0 || y.sch.isEmpty then s else dealtAfresh s d id y := by
  unfold phaseBoundary
  simp only [h]
  rfl

/-- At the end of a phase the range is dealt afresh, or nothing happens. -/
theorem phaseBoundary_cases (s : State) (d id : Nat) : phaseBoundary s d id = s ∨ ∃ y, phaseBoundary s d id = dealtAfresh s d id y := by
  cases h : s.grid? d id with
  | none =>
    left
    unfold phaseBoundary
    simp only [h]
  | some y =>
    rw [phaseBoundary_eq h]
    split
    · exact .inl rfl
    · exact .inr ⟨y, rfl⟩

/-- The grid's dispenser is in its next phase, and its counter at zero. -/
theorem phaseBoundary_deals (h : s.grid? d id = some y) (hd : y.disp = 1) (hm : y.mode ≠ 0) (hs : y.sch ≠ []) (hc : y.cstk < s.stks.length) :
    (phaseBoundary s d id).grid? d id = some y.nextPhase ∧ Tab.getD ((phaseBoundary s d id).stk y.cstk).counters y.ctr 0 = 0 := by
  have dealt := grid?_modGrid (g := fun z => { z with phase := y.nextPhase.phase, curTab := y.nextPhase.curTab, hadTab := y.nextPhase.hadTab, cost := [] })
    h (fun _ e => e)
  have kept := refetch_kept (s.modGrid d id (fun z => { z with phase := y.nextPhase.phase, curTab := y.nextPhase.curTab, hadTab := y.nextPhase.hadTab, cost := [] })) d y.wgs
  have deals : (y.disp != 1 || y.mode == 0 || y.sch.isEmpty) = false := by
    simp only [hd, bne_self_eq_false, Bool.false_or, Bool.or_eq_false_iff, beq_eq_false_iff_ne, List.isEmpty_eq_false_iff]
    exact ⟨hm, hs⟩
  rw [phaseBoundary_eq h, deals]
  refine ⟨(kept.grid? d id).trans dealt, ?_⟩
  rw [if_neg nofun, dealtAfresh, stk_modStk, if_pos ⟨rfl, by rw [kept.stks]; exact hc⟩]
  exact (Tab.getD_put _ _ _ (0 : W64) 0).trans (if_pos rfl)

/-- A phase boundary changes of the workgroups only what they have fetched. -/
theorem phaseBoundary_wg? {e w : Nat} {x : Wg} (hx : s.wg? e w = some x) (d id : Nat) :
    ∃ x', (phaseBoundary s d id).wg? e w = some x' ∧ x'.core = x.core ∧ x'.warps = x.warps ∧ x'.bars = x.bars := by
  obtain same | ⟨y, dealt⟩ := phaseBoundary_cases s d id
  · exact ⟨x, by rw [same]; exact hx, rfl, rfl, rfl⟩
  · rw [dealt]
    refine foldl_keeps (g := fun (s : State) (t : Nat) => s.modWg d t Wg.refetches)
      (P := fun t : State => ∃ x', t.wg? e w = some x' ∧ x'.core = x.core ∧ x'.warps = x.warps ∧ x'.bars = x.bars) ?_ y.wgs _ ⟨x, ?_, rfl, rfl, rfl⟩
    · rintro u t ⟨x', hx', hc, hw, hb⟩
      rw [wg?_modWg, hx']
      split
      · exact ⟨_, rfl, hc, hw, hb⟩
      · exact ⟨x', rfl, hc, hw, hb⟩
    · have wgs := die_modDie_keeps (s := s) (d := d) (e := e) (p := Die.wgs)
        (g := fun z => { z with grids := z.grids.map (fun z => if z.id == id then
          { z with phase := y.nextPhase.phase, curTab := y.nextPhase.curTab, hadTab := y.nextPhase.hadTab, cost := [] } else z) }) (fun _ => rfl)
      exact (congrArg (Tab.get? · w) wgs).trans hx

theorem phaseBoundary_mem (s : State) (d id : Nat) : (phaseBoundary s d id).mem = s.mem := by
  obtain same | ⟨y, dealt⟩ := phaseBoundary_cases s d id
  · rw [same]
  · rw [dealt]
    exact (refetch_kept _ d y.wgs).mem

end Phase

/-! ### A barrier departs (R144, R408) -/

section Complete
variable {s : State} {d k w : Nat} {sc : BitVec 2} {g : Wg}

/-- The state once the barrier has departed. -/
def barCompleted (s : State) (d w : Nat) (g : Wg) (sc : BitVec 2) : State :=
  let u := (barParts s d w g sc.toNat).foldl (barDepart sc.toNat) s
  if sc.toNat == 2 then phaseBoundary u d g.grid else u

theorem exec_barrierComplete (hg : s.wg? d w = some g) (hk : g.core = k) (ho : spanOpen s d g sc.toNat = false)
    (ha : ∀ e ∈ barParts s d w g sc.toNat, ∀ x, s.wg? e.1 e.2 = some x → wgArrived x sc.toNat = true) (hn : (g.bar sc.toNat).arrived ≠ []) :
    exec (.barrierComplete d k w sc) s = .next (barCompleted s d w g sc) := by
  have ready : (barParts s d w g sc.toNat).all (fun e => (s.wg? e.1 e.2).all (fun x => wgArrived x sc.toNat)) = true := by
    rw [List.all_eq_true]
    intro e he
    cases hx : s.wg? e.1 e.2 with
    | none => rfl
    | some x => exact ha e he x hx
  show execBarrierComplete d k w sc s = _
  unfold execBarrierComplete
  simp only [hg]
  exact congrArg _ (if_neg (by simp [hk, ho, ready, hn]))

theorem barrierComplete_waits {e : Nat × Nat} {x : Wg} (hg : s.wg? d w = some g) (he : e ∈ barParts s d w g sc.toNat) (hx : s.wg? e.1 e.2 = some x)
    (ha : wgArrived x sc.toNat = false) : exec (.barrierComplete d k w sc) s = .next s := by
  have unready : (barParts s d w g sc.toNat).all (fun e => (s.wg? e.1 e.2).all (fun x => wgArrived x sc.toNat)) = false :=
    List.all_eq_false.mpr ⟨e, he, by simp [hx, ha]⟩
  show execBarrierComplete d k w sc s = _
  unfold execBarrierComplete
  simp only [hg]
  exact congrArg _ (if_pos (by simp [unready]))

theorem barCompleted_mem (s : State) (d w : Nat) (g : Wg) (sc : BitVec 2) : (barCompleted s d w g sc).mem = s.mem := by
  have departed := (barDeparts_grids sc.toNat s (barParts s d w g sc.toNat)).mem
  unfold barCompleted
  dsimp only
  split
  · exact (phaseBoundary_mem _ _ _).trans departed
  · exact departed

/-- Each participant has the warps and the barriers that its departure leaves. -/
theorem wg?_barCompleted {e : Nat × Nat} {x : Wg} (hn : (barParts s d w g sc.toNat).Nodup) (he : e ∈ barParts s d w g sc.toNat)
    (hx : s.wg? e.1 e.2 = some x) : ∃ x', (barCompleted s d w g sc).wg? e.1 e.2 = some x' ∧ x'.core = x.core ∧
      x'.warps = (x.wentPast sc.toNat e).warps ∧ x'.bar sc.toNat = (x.wentPast sc.toNat e).bar sc.toNat := by
  have departed := wg?_barDeparts (i := sc.toNat) hn he hx
  unfold barCompleted
  dsimp only
  split
  · obtain ⟨x', hx', hc, hw, hb⟩ := phaseBoundary_wg? departed d g.grid
    exact ⟨x', hx', hc, hw, by simp only [Wg.bar, hb]⟩
  · exact ⟨_, departed, rfl, rfl, rfl⟩

/-- A fragment that waited at the barrier stands past it. -/
theorem frag?_wentPast {t : State} {i : Nat} {e : Nat × Nat} {x x' : Wg} {f : FragRef} {p : Frag} (hx : s.wg? e.1 e.2 = some x) (hx' : t.wg? e.1 e.2 = some x')
    (hc : x'.core = x.core) (hw : x'.warps = (x.wentPast i e).warps) (hd : f.die = e.1) (hk : f.core = x.core) (hwg : f.wg = e.2)
    (hp : s.frag? f = some p) (hwait : p.wait = .bar i) (live : ∀ y, s.warp? f = some y → y.entered = false ∧ y.swapped = false)
    (arr : (x.bar i).arrived.contains p.uid = true) : ∃ q, t.frag? f = some q ∧ q.pc = p.pc + 8 ∧ q.wait = .none := by
  have wgBefore : s.wgOf? f = some x := by
    unfold State.wgOf?
    rw [hd, hwg, hx]
    simp [hk]
  have wgAfter : t.wgOf? f = some x' := by
    unfold State.wgOf?
    rw [hd, hwg, hx']
    simp [hk, hc]
  cases hy : s.warp? f with
  | none => simp [State.frag?, hy] at hp
  | some y =>
    obtain ⟨occ, slot⟩ : (y.slot f.s1).occ = true ∧ y.slot f.s1 = p := by simpa [State.frag?, hy] using hp
    have was : Tab.get? x.warps f.warp = some y := by simpa [State.warp?, wgBefore] using hy
    have warpAfter : t.warp? f = some (y.passed (goesPast i x)) := by
      unfold State.warp?
      simp only [wgAfter, hw]
      exact (Tab.get?_map x.warps _ f.warp).trans (by rw [was]; rfl)
    have passes : ((y.slot f.s1).occ && goesPast i x y (y.slot f.s1)) = true := by
      obtain ⟨entered, swapped⟩ := live y hy
      rw [slot] at occ ⊢
      simpa [goesPast, entered, swapped, occ, hwait] using arr
    have slotAfter : (y.passed (goesPast i x)).slot f.s1 = passFrag p := by
      rw [Warp.slot_passed, if_pos passes, slot]
    have occAfter : (passFrag p).occ = true := by
      rw [← slot]
      exact occ
    exact ⟨passFrag p, by simp only [State.frag?, warpAfter, slotAfter, occAfter, if_true], rfl, rfl⟩

end Complete

/-- Settles O39: arrivals and departures each by the lemmas above. -/
theorem barriers : Obligations.Barriers := by
  unfold Obligations.Barriers
  refine ⟨fun h sc s c hm => ⟨bar_arrives hm, bar_departed hm⟩, ?departs, fun s d k w sc g x e => barrierComplete_waits⟩
  rintro s d k w sc g _ hg hk rfl ho hn ha hne
  refine ⟨_, exec_barrierComplete hg hk ho ha hne, barCompleted_mem s d w g sc, fun e he x hx => ?_, fun y h2 hy hd hm hs hc => ?_⟩
  · obtain ⟨x', hx', hcore, hwarps, hbar⟩ := wg?_barCompleted hn he hx
    have bar := Wg.bar_modBar sc.isLt x (fun b =>
      { inst := b.inst + 1, arrived := [], departed := b.departed ++ b.arrived.filter (fun u => !(leavers sc.toNat e x).any (fun z => z.2 == u)) })
    have bar' := hbar.trans bar
    refine ⟨x', hx', by rw [bar'], by rw [bar'], fun f p hd hc hw hp hwait live arr => frag?_wentPast hx hx' hcore hwarps hd hc hw hp hwait live arr⟩
  · have kept := barDeparts_grids sc.toNat s (barParts s d w g sc.toNat)
    have boundary : barCompleted s d w g sc = phaseBoundary ((barParts s d w g sc.toNat).foldl (barDepart sc.toNat) s) d g.grid := by
      subst h2
      rfl
    obtain ⟨grid, counter⟩ := phaseBoundary_deals ((kept.grid? d g.grid).trans hy) hd hm hs (by rw [kept.stks]; exact hc)
    rw [boundary]
    exact ⟨y.nextPhase, grid, rfl, rfl, rfl, counter⟩

end Sys2Proof.Machine
end

section
/-! PROOFS. Restore of a workgroup and `tret.ctx` (R139, R421, R425, R426, R436), and O48. -/

namespace Sys2Proof.Machine

/-! ### A warp at the restore entry (R421, R425) -/

theorem Warp.readK_writeK {i : Nat} (hi : i ≠ 0) (w : Warp) (v : W64) (po : Bool) : (w.writeK i v po).readK i = v := by
  unfold Warp.readK Warp.writeK
  rw [if_neg hi, if_neg hi]
  exact (Tab.getD_put w.k i i v 0).trans (if_pos rfl)

theorem Thr.put_live (x : Thr) (key : Nat) (v : W32) (po : Bool) : (x.put key v po).live = x.live := by
  unfold Thr.put
  split <;> rfl

/-- A restored warp's threads have lost their registers, and live as they did. -/
theorem Warp.scrambled_live (w : Warp) (ix i : Nat) : ((w.scrambled ix).thread i).live = (w.thread i).live := by
  have kept (l : List Nat) (x : Thr) (n : Nat) :
      (l.foldl (fun (y : Thr) (i : Nat) => y.put (regKey {} y.dep (i + 1)) (Config.freeWord (ix + 64 + 32 * n + i))) x).live = x.live :=
    foldl_keeps (g := fun (y : Thr) (i : Nat) => y.put (regKey {} y.dep (i + 1)) (Config.freeWord (ix + 64 + 32 * n + i)))
      (P := fun y : Thr => y.live = x.live) (fun y i h => (Thr.put_live y _ _ _).trans h) l x rfl
  unfold Warp.thread Warp.scrambled
  simp only [List.getElem?_map, List.getElem?_zipIdx]
  cases w.thr[i]? with
  | none => rfl
  | some x =>
    simp only [Option.map_some, Option.getD_some]
    rw [kept]

theorem Warp.liveMask_of_live {w x : Warp} (h : ∀ i, (x.thread i).live = (w.thread i).live) : x.liveMask = w.liveMask := by
  unfold Warp.liveMask
  simp only [h]

/-- The warp that a restore puts in a slot starts at the restore entry. -/
theorem handlerStart_restored (w : Warp) (ix uid : Nat) (pc area : W64) : HandlerStart w ((w.scrambled ix).inHandler uid pc area) pc :=
  ⟨rfl, rfl, Warp.liveMask_of_live (fun i => Warp.scrambled_live w ix i), rfl, rfl, rfl, rfl, rfl, rfl, rfl, rfl⟩

/-! ### The warps of a workgroup come back (R425) -/

section Warps
variable {s : State} {d w : Nat} {g : Wg}

/-- From `s` to `t` the warps `l` of a workgroup, which was `g`, have come back at the restore entry; memory and the cores are as they were. -/
structure WarpsBack (d w : Nat) (g : Wg) (l : List (Nat × Warp)) (s t : State) : Prop where
  mem : t.mem = s.mem
  cores : (t.die d).cores = (s.die d).cores
  vec : (t.die d).vec = (s.die d).vec
  back : ∃ ws, t.wg? d w = some { g with warps := ws } ∧
    ∀ e ∈ l, ∃ x, Tab.get? ws e.1 = some x ∧ ∃ e' ∈ l, e'.1 = e.1 ∧ HandlerStart e'.2 x ((s.die d).vec + 8)

theorem restoreWarp_puts {i : Nat} (hg : s.wg? d w = some g) (x : Warp) : ∃ y, HandlerStart x y ((s.die d).vec + 8) ∧
    (restoreWarp s d w i x).wg? d w = some { g with warps := Tab.set g.warps i y } ∧ (restoreWarp s d w i x).mem = s.mem ∧
    ((restoreWarp s d w i x).die d).cores = (s.die d).cores ∧ ((restoreWarp s d w i x).die d).vec = (s.die d).vec := by
  refine ⟨(x.scrambled s.freeIx).inHandler s.nextId ((s.die d).vec + 8) (warpArea s d g x.area), handlerStart_restored .., ?_⟩
  have eq : restoreWarp s d w i x = ({ s with nextId := s.nextId + 1, freeIx := s.freeIx + 2048 } : State).modWg d w (fun z =>
      { z with warps := Tab.set z.warps i ((x.scrambled s.freeIx).inHandler s.nextId ((s.die d).vec + 8) (warpArea s d g x.area)) }) := by
    unfold restoreWarp
    simp only [hg]
    rfl
  rw [eq]
  refine ⟨?_, rfl, die_modDie_keeps (p := Die.cores) (fun _ => rfl), die_modDie_keeps (p := Die.vec) (fun _ => rfl)⟩
  rw [wg?_modWg, if_pos ⟨rfl, rfl⟩, show ({ s with nextId := s.nextId + 1, freeIx := s.freeIx + 2048 } : State).wg? d w = some g from hg]
  rfl

theorem restoreWarps_back (hg : s.wg? d w = some g) (l : List (Nat × Warp)) :
    WarpsBack d w g l s (l.foldl (fun (s : State) (e : Nat × Warp) => restoreWarp s d w e.1 e.2) s) := by
  induction l using List.reverseRecOn with
  | nil => exact ⟨rfl, rfl, rfl, g.warps, hg, fun e he => absurd he List.not_mem_nil⟩
  | append_singleton l a ih =>
    obtain ⟨mem, cores, vec, ws, hws, back⟩ := ih
    rw [List.foldl_append, List.foldl_cons, List.foldl_nil]
    obtain ⟨y, start, put, mem', cores', vec'⟩ := restoreWarp_puts (i := a.1) hws a.2
    refine ⟨mem'.trans mem, cores'.trans cores, vec'.trans vec, _, put, fun e he => ?_⟩
    rw [vec] at start
    rw [Tab.get?_set]
    by_cases h : a.1 = e.1
    · exact ⟨y, if_pos h, a, List.mem_append_right _ List.mem_cons_self, h, start⟩
    · have before : e ∈ l := (List.mem_append.mp he).resolve_right fun k => h (by rw [List.mem_singleton.mp k])
      obtain ⟨x, hx, e', he', same, hs⟩ := back e before
      exact ⟨x, (if_neg h).trans hx, e', List.mem_append_left _ he', same, hs⟩

end Warps

/-! ### The workgroup's block (R426) -/

section Block
variable {b : List Byte} {g g' : Wg}

theorem rebin_eq (g : Wg) (now : Nat) : rebin g now = { g with bins := (rebin g now).bins, recSeq := (rebin g now).recSeq } := by
  unfold rebin
  exact foldl_keeps (P := fun x : Wg => x = { g with bins := x.bins, recSeq := x.recSeq }) (fun x a h => by rw [h]) _ _ rfl

theorem bar_wgFrom (b : List Byte) (g : Wg) {i : Nat} (hi : i < 4) :
    (wgFrom b g).bar i = barFrom (fieldAt b (360 + 2 * i) 1) (fieldAt b (361 + 2 * i) 1) (g.bar i) := by
  simp [wgFrom, Wg.bar, hi]

theorem queue_wgFrom (b : List Byte) (g : Wg) {i : Nat} (hi : i < 16) :
    (wgFrom b g).queue i = { port := fieldAt b (16 * i) 1, ring := fieldAt b (16 * i + 4) 4, head := fieldAt b (16 * i + 8) 4
                             tail := fieldAt b (16 * i + 12) 4, faulted := (g.queue i).faulted } := by
  simp [wgFrom, Wg.queue, hi]

theorem arrived_barFrom (inst cnt : Nat) (x : BarSt) :
    (barFrom inst cnt x).arrived = x.arrived.take cnt ∧ (cnt ≠ 0 → (barFrom inst cnt x).inst = x.inst / 256 * 256 + inst) := by
  unfold barFrom
  split
  · next h => exact ⟨by rw [h]; rfl, fun k => absurd h k⟩
  · exact ⟨rfl, fun _ => rfl⟩

/-- The allotment and the barriers of the block are those of any workgroup that has its fields of them. -/
theorem reloaded_of_fields (h : g'.fullHeld = (wgFrom b g).fullHeld ∧ g'.acqPend = (wgFrom b g).acqPend ∧ g'.nwin = (wgFrom b g).nwin ∧
    g'.bands = (wgFrom b g).bands ∧ g'.splen = (wgFrom b g).splen) (hb : g'.bars = (wgFrom b g).bars) : Reloaded b g g' := by
  obtain ⟨full, pend, nwin, bands, splen⟩ := h
  refine ⟨full, pend, nwin, bands, splen, fun i hi => ?_⟩
  have bar : g'.bar i = _ := (congrArg (fun l : List BarSt => (l[i]?).getD {}) hb).trans (bar_wgFrom b g hi)
  rw [bar]
  exact arrived_barFrom _ _ _

end Block

/-! ### A workgroup is restored (R139, R425) -/

section Restore
variable {s s1 : State} {d k w : Nat} {g : Wg} {b : List Byte} {po : Bool}

/-- The workgroup `g` as its block `b` restores it on core `k`. -/
def restoredWg (s : State) (d k : Nat) (b : List Byte) (g : Wg) : Wg :=
  rebin { wgFrom b g with core := k, resident := true, since := s.clock, restoring := true, outRot := 0, fwalk := false } (s.cycOf d k)

theorem restoredWg_eq (s : State) (d k : Nat) (b : List Byte) (g : Wg) : restoredWg s d k b g =
    { wgFrom b g with core := k, resident := true, since := s.clock, restoring := true, outRot := 0, fwalk := false
                      bins := (restoredWg s d k b g).bins, recSeq := (restoredWg s d k b g).recSeq } := rebin_eq _ _

/-- A core that takes a workgroup of another core has fetched none of its words. -/
def onCore (s : State) (d k : Nat) (g : Wg) : State := if k == g.core then s else s.modCore d k (fun c => { c with icache := [] })

/-- A pending request for an allotment is queued again, and asks leave where it has to. -/
def requeued (s : State) (d k w : Nat) (g : Wg) : State :=
  if g.acqPend then
    let s := s.modCore d k (fun c => { c with acqQ := c.acqQ ++ [w] })
    if acqAsks s d g then s.modDie d (fun x => { x with leaveQ := x.leaveQ ++ [(.acq k w, 0)] }) else s
  else s

theorem onCore_kept (s : State) (d k : Nat) (g : Wg) : WgsKept s (onCore s d k g) := by
  unfold onCore
  split
  · exact .refl s
  · exact modCore_kept ..

theorem onCore_vec (s : State) (d k e : Nat) (g : Wg) : ((onCore s d k g).die e).vec = (s.die e).vec := by
  unfold onCore
  split
  · rfl
  · exact die_modDie_keeps (p := Die.vec) (fun _ => rfl)

theorem requeued_kept (s : State) (d k w : Nat) (g : Wg) : WgsKept s (requeued s d k w g) := by
  unfold requeued
  dsimp only
  split
  · split
    · exact (modCore_kept ..).trans (.modDie (fun _ => rfl) (fun _ => rfl))
    · exact modCore_kept ..
  · exact .refl s

theorem requeued_vec (s : State) (d k w e : Nat) (g : Wg) : ((requeued s d k w g).die e).vec = (s.die e).vec := by
  have queued : ((s.modCore d k (fun c => { c with acqQ := c.acqQ ++ [w] })).die e).vec = (s.die e).vec := die_modDie_keeps (p := Die.vec) (fun _ => rfl)
  unfold requeued
  dsimp only
  split
  · split
    · exact (die_modDie_keeps (p := Die.vec) (g := fun x => { x with leaveQ := x.leaveQ ++ [(.acq k w, 0)] }) (fun _ => rfl)).trans queued
    · exact queued
  · rfl

theorem mem_acqQ_requeued (hd : d < s.dies.length) (hp : g.acqPend = true) : w ∈ ((requeued s d k w g).core d k).acqQ := by
  have queued : w ∈ ((s.modCore d k (fun c => { c with acqQ := c.acqQ ++ [w] })).core d k).acqQ := by
    rw [core_modCore_same hd]
    exact List.mem_append_right _ List.mem_cons_self
  unfold requeued
  rw [if_pos hp]
  dsimp only
  split
  · rw [core_modDie_of_keeps (g := fun x => { x with leaveQ := x.leaveQ ++ [(.acq k w, 0)] }) (fun _ => rfl)]
    exact queued
  · exact queued

/-- The state before the warps come back. -/
def blockReloaded (s1 : State) (d k w : Nat) (b : List Byte) (g : Wg) : State :=
  requeued ((onCore s1 d k g).modWg d w (restoredWg (onCore s1 d k g) d k b)) d k w (restoredWg (onCore s1 d k g) d k b g)

theorem wg?_reloading (hg1 : s1.wg? d w = some g) :
    ((onCore s1 d k g).modWg d w (restoredWg (onCore s1 d k g) d k b)).wg? d w = some (restoredWg (onCore s1 d k g) d k b g) := by
  rw [wg?_modWg, if_pos ⟨rfl, rfl⟩, (onCore_kept s1 d k g).wg?, hg1]
  rfl

theorem wg?_blockReloaded (hg1 : s1.wg? d w = some g) : (blockReloaded s1 d k w b g).wg? d w = some (restoredWg (onCore s1 d k g) d k b g) :=
  ((requeued_kept ..).wg? d w).trans (wg?_reloading hg1)

theorem blockReloaded_mem (s1 : State) (d k w : Nat) (b : List Byte) (g : Wg) : (blockReloaded s1 d k w b g).mem = s1.mem :=
  (requeued_kept ..).mem.trans (onCore_kept s1 d k g).mem

theorem blockReloaded_vec (s1 : State) (d k w : Nat) (b : List Byte) (g : Wg) : ((blockReloaded s1 d k w b g).die d).vec = (s1.die d).vec :=
  (requeued_vec ..).trans ((die_modDie_keeps (p := Die.vec) (g := fun x => { x with wgs := Tab.modify x.wgs w (restoredWg (onCore s1 d k g) d k b) })
    (fun _ => rfl)).trans (onCore_vec s1 d k d g))

theorem exec_workgroupRestore (hg : s.wg? d w = some g) (hm : mayRestore s d k w g = true) (hh : (s.die d).halt = false)
    (hv : vread s { die := d, core := some k, holds := g.fwalk, who := .former d w } (wgArea s d g) 368 = .ok (s1, b, po)) (hg1 : s1.wg? d w = some g) :
    exec (.workgroupRestore d k w) s =
      .next (g.warps.foldl (fun (s : State) (e : Nat × Warp) => restoreWarp s d w e.1 e.2) (blockReloaded s1 d k w b g)) := by
  have reloading := wg?_reloading (k := k) (b := b) hg1
  show execWorkgroupRestore d k w s = _
  unfold execWorkgroupRestore
  simp only [hg, hm, hh, hv, Bool.not_true, Bool.or_self, Bool.false_eq_true, if_false]
  unfold blockReloaded
  rw [← Option.getD_some (a := restoredWg (onCore s1 d k g) d k b g) (b := g), ← reloading]
  rfl

theorem workgroupRestore_restores (hg : s.wg? d w = some g) (hm : mayRestore s d k w g = true) (hh : (s.die d).halt = false)
    (hv : vread s { die := d, core := some k, holds := g.fwalk, who := .former d w } (wgArea s d g) 368 = .ok (s1, b, po)) (hg1 : s1.wg? d w = some g) :
    ∃ t g', exec (.workgroupRestore d k w) s = .next t ∧ t.wg? d w = some g' ∧ t.mem = s1.mem ∧ g'.resident = true ∧ g'.core = k ∧ Reloaded b g g' ∧
      (bitAt (fieldAt b 352 8) 4 = true → w ∈ (t.core d k).acqQ) ∧
      g'.slvk = BitVec.ofNat 64 (fieldAt b 336 8) ∧ g'.slvnorm = BitVec.ofNat 64 (fieldAt b 344 8) ∧
      g'.slv.opened = (fieldAt b 320 1 == 1) ∧ g'.slv.tau = BitVec.ofNat 64 (fieldAt b 328 8) ∧ g'.slv.desc = bytesAt b 256 64 ∧
      (∀ i, i < 16 → (g'.queue i).port = fieldAt b (16 * i) 1 ∧ (g'.queue i).ring = fieldAt b (16 * i + 4) 4 ∧
        (g'.queue i).head = fieldAt b (16 * i + 8) 4 ∧ (g'.queue i).tail = fieldAt b (16 * i + 12) 4) ∧
      ∀ e ∈ g.warps, ∃ x, Tab.get? g'.warps e.1 = some x ∧ ∃ e' ∈ g.warps, e'.1 = e.1 ∧ HandlerStart e'.2 x ((s1.die d).vec + 8) := by
  obtain ⟨mem, cores, -, ws, hws, back⟩ := restoreWarps_back (wg?_blockReloaded (k := k) (b := b) hg1) g.warps
  rw [blockReloaded_vec] at back
  rw [restoredWg_eq] at hws
  refine ⟨_, _, exec_workgroupRestore hg hm hh hv hg1, hws, mem.trans (blockReloaded_mem ..), rfl, rfl, reloaded_of_fields ⟨rfl, rfl, rfl, rfl, rfl⟩ rfl,
    fun pend => ?_, rfl, rfl, rfl, rfl, rfl, fun i hi => ?_, back⟩
  · have hd : d < ((onCore s1 d k g).modWg d w (restoredWg (onCore s1 d k g) d k b)).dies.length := die_lt_of_wg? (wg?_reloading hg1)
    have asked : (restoredWg (onCore s1 d k g) d k b g).acqPend = true := by
      rw [restoredWg_eq]
      exact pend
    unfold State.core
    rw [cores]
    exact mem_acqQ_requeued hd asked
  · have queue := queue_wgFrom b g hi
    exact ⟨congrArg QReg.port queue, congrArg QReg.ring queue, congrArg QReg.head queue, congrArg QReg.tail queue⟩

end Restore

/-! ### `tret.ctx` (R421, R426, R436) -/

section TretCtx
variable {s s1 : State} {c : Ctx} {h : Hdr} {a : Opd} {b : List Byte} {po : Bool}

/-- A warp with what its slot block holds. -/
def Warp.reloaded (b : List Byte) (w : Warp) : Warp :=
  let w := w.writeK 31 (BitVec.ofNat 64 (fieldAt b 176 8))
  { w with
    s0 := slotFrom (bytesAt b 0 80) w.sv0, s1 := slotFrom (bytesAt b 80 80) w.sv1, sv0 := {}, sv1 := {}
    srix := BitVec.ofNat 32 (fieldAt b 160 4), fpstat := BitVec.ofNat 5 (fieldAt b 164 1)
    spills := BitVec.ofNat 32 (fieldAt b 168 4), fills := BitVec.ofNat 32 (fieldAt b 172 4)
    kpend := BitVec.ofNat 32 (fieldAt b 184 4) &&& ~~~(1 : W32), entered := false, swapped := false }

theorem Warp.sv_writeK (w : Warp) (i : Nat) (v : W64) (po : Bool) : (w.writeK i v po).sv0 = w.sv0 ∧ (w.writeK i v po).sv1 = w.sv1 := by
  unfold Warp.writeK
  split
  · exact ⟨rfl, rfl⟩
  · exact ⟨rfl, rfl⟩

theorem slotFrom_sys (b : List Byte) (sv : Frag) : (slotFrom b sv).sys = false := by
  unfold slotFrom
  dsimp only
  split <;> rfl

/-- The fields of a resumed warp that its slot block gives. -/
structure Resumed (b : List Byte) (w x : Warp) : Prop where
  s0 : x.s0 = slotFrom (bytesAt b 0 80) w.sv0
  s1 : x.s1 = slotFrom (bytesAt b 80 80) w.sv1
  srix : x.srix = BitVec.ofNat 32 (fieldAt b 160 4)
  fpstat : x.fpstat = BitVec.ofNat 5 (fieldAt b 164 1)
  spills : x.spills = BitVec.ofNat 32 (fieldAt b 168 4)
  fills : x.fills = BitVec.ofNat 32 (fieldAt b 172 4)
  k31 : x.readK 31 = BitVec.ofNat 64 (fieldAt b 176 8)
  kpend : x.kpend = (BitVec.ofNat 32 (fieldAt b 184 4) &&& ~~~1)
  entered : x.entered = false

theorem reloaded_resumed (b : List Byte) (w : Warp) : Resumed b w (Warp.reloaded b w) := by
  obtain ⟨sv0, sv1⟩ := Warp.sv_writeK w 31 (BitVec.ofNat 64 (fieldAt b 176 8)) false
  have k31 := Warp.readK_writeK (i := 31) (by decide) w (BitVec.ofNat 64 (fieldAt b 176 8)) false
  unfold Warp.readK at k31
  constructor
  case s0 => rw [← sv0]; unfold Warp.reloaded; dsimp only
  case s1 => rw [← sv1]; unfold Warp.reloaded; dsimp only
  case k31 => unfold Warp.reloaded Warp.readK; dsimp only; exact k31
  all_goals unfold Warp.reloaded; dsimp only

/-- Cycles that a word spends leave of a warp all but its cost counts. -/
theorem warp?_spend {f : FragRef} {w : Warp} (hw : s.warp? f = some w) (n : Nat) :
    ∃ x y, (spend s f n).warp? f = some { w with issueCyc := x, costDue := y } := by
  unfold spend
  rw [warp?_modWarp, show (s.addCyc f.die f.core (n - 1)).warp? f = some w from hw]
  cases hb : w.bound with
  | none => exact ⟨w.issueCyc, w.costDue, by simp only [Option.map_some, hb]; rw [← hb]⟩
  | some b => exact ⟨(w.issueCyc + n) % 16, w.costDue + (w.issueCyc + n) / 16, by simp only [Option.map_some, hb]⟩

/-- The state that a slot block leaves, before the acquire. -/
def slotsReloaded (s : State) (f : FragRef) (b : List Byte) : State :=
  ((spend s f 1).modWarp f (Warp.reloaded b)).modWgOf f (fun g => { g with restoring := g.restoring && g.warps.any (fun e => e.2.entered) })

theorem exec_tretCtx (hu : UniRuns h [a] s c) : exec (.tretCtx h a) s = .next (if !c.p.sys then illegal s c.f
    else if resultsOut s c.p.uid then hold s c.f .marker
    else if ownHeld s c.f c.p.uid (kNat s c a) 192 false then hold s c.f .stall
    else match vread s (ownAgent s c.f) (kNat s c a) 192 with
      | .error (.busy x) => holdFor s c.f x
      | .error e => faultNow s c.f e.cause (kNat s c a)
      | .ok (s, b, _) => acquire (slotsReloaded s c.f b) c.f .die) := by
  have ran : exec (.tretCtx h a) s = .next (uniOp h [a] _ s) := rfl
  rw [ran, uniOp_runs hu]
  dsimp only
  split
  · rfl
  · split
    · rfl
    · split
      · rfl
      · unfold slotsReloaded Warp.reloaded
        generalize vread s (ownAgent s c.f) (kNat s c a) 192 = r
        match r with
        | .error e => cases e <;> rfl
        | .ok (s, b, _) => rfl

theorem tretCtx_traps (hu : UniRuns h [a] s c) (hs : c.p.sys = false) (hm : c.p.masked = false) :
    ∃ t, exec (.tretCtx h a) s = .next t ∧ Trapped t c 5 s.word c.p.pc false true := by
  have ran : exec (.tretCtx h a) s = .next (illegal s c.f) := by
    rw [exec_tretCtx hu, hs]
    rfl
  exact ⟨illegal s c.f, ran, trapAt_trapped hu.ctxOf hm 5 s.word⟩

theorem exec_tretCtx_reload (hu : UniRuns h [a] s c) (hs : c.p.sys = true) (hr : resultsOut s c.p.uid = false)
    (ho : ownHeld s c.f c.p.uid (kNat s c a) 192 false = false) (hv : vread s (ownAgent s c.f) (kNat s c a) 192 = .ok (s1, b, po)) :
    exec (.tretCtx h a) s = .next (acquire (slotsReloaded s1 c.f b) c.f .die) := by
  rw [exec_tretCtx hu, hs, hr, ho, hv]
  simp only [Bool.not_true, Bool.false_eq_true, if_false]

/-- The warp of a slot block, with the cost counts that the word leaves. -/
theorem warp?_slotsReloaded {f : FragRef} {w : Warp} (hw : s.warp? f = some w) (b : List Byte) :
    ∃ x y, (slotsReloaded s f b).warp? f = some (Warp.reloaded b { w with issueCyc := x, costDue := y }) := by
  obtain ⟨x, y, spent⟩ := warp?_spend hw 1
  refine ⟨x, y, ?_⟩
  have reloaded : ((spend s f 1).modWarp f (Warp.reloaded b)).warp? f = some (Warp.reloaded b { w with issueCyc := x, costDue := y }) := by
    rw [warp?_modWarp, spent]
    rfl
  unfold slotsReloaded
  unfold State.warp? at reloaded ⊢
  rw [wgOf?_modWgOf (g := fun g => { g with restoring := g.restoring && g.warps.any (fun e => e.2.entered) }) (fun _ => rfl)]
  cases hg : ((spend s f 1).modWarp f (Warp.reloaded b)).wgOf? f with
  | none => simp [hg] at reloaded
  | some g => simpa [hg] using reloaded

theorem die_lt_of_warp? {f : FragRef} {w : Warp} (hw : s.warp? f = some w) : f.die < s.dies.length := by
  cases hg : s.wgOf? f with
  | none => simp [State.warp?, hg] at hw
  | some g => exact die_lt_of_wg? (wg?_of_wgOf? hg).1

theorem slotsReloaded_mem (s : State) (f : FragRef) (b : List Byte) : (slotsReloaded s f b).mem = s.mem := rfl

theorem tretCtx_reloads (hu : UniRuns h [a] s c) (hs : c.p.sys = true) (hr : resultsOut s c.p.uid = false)
    (ho : ownHeld s c.f c.p.uid (kNat s c a) 192 false = false) (hv : vread s (ownAgent s c.f) (kNat s c a) 192 = .ok (s1, b, po))
    (hw : s1.warp? c.f = some c.w) :
    ∃ t w, exec (.tretCtx h a) s = .next t ∧ t.warp? c.f = some w ∧ t.mem = s1.mem ∧
      w.s0 = slotFrom (bytesAt b 0 80) c.w.sv0 ∧ w.s1 = slotFrom (bytesAt b 80 80) c.w.sv1 ∧ w.s0.sys = false ∧ w.s1.sys = false ∧
      w.srix = BitVec.ofNat 32 (fieldAt b 160 4) ∧ w.fpstat = BitVec.ofNat 5 (fieldAt b 164 1) ∧
      w.spills = BitVec.ofNat 32 (fieldAt b 168 4) ∧ w.fills = BitVec.ofNat 32 (fieldAt b 172 4) ∧
      w.readK 31 = BitVec.ofNat 64 (fieldAt b 176 8) ∧
      w.kpend = (BitVec.ofNat 32 (fieldAt b 184 4) &&& ~~~1) ∧ w.entered = false ∧ (t.core c.f.die c.f.core).l1 = [] := by
  obtain ⟨x, y, resumed⟩ := warp?_slotsReloaded hw b
  have kept := acquire_kept (slotsReloaded s1 c.f b) c.f .die
  obtain ⟨s0, s1, srix, fpstat, spills, fills, k31, kpend, entered⟩ := reloaded_resumed b { c.w with issueCyc := x, costDue := y }
  exact ⟨_, _, exec_tretCtx_reload hu hs hr ho hv, (kept.warp? c.f).trans resumed, kept.mem.trans (slotsReloaded_mem ..), s0, s1,
    (congrArg Frag.sys s0).trans (slotFrom_sys _ _), (congrArg Frag.sys s1).trans (slotFrom_sys _ _), srix, fpstat, spills, fills, k31, kpend, entered,
    l1_acquire_die (die_lt_of_warp? resumed)⟩

end TretCtx

/-- Settles O48: a restored workgroup and a resumed warp are what their blocks say, by the lemmas above. -/
theorem restoreAndResume : Obligations.RestoreAndResume := by
  unfold Obligations.RestoreAndResume
  exact ⟨fun s s1 d k w g b po => workgroupRestore_restores, fun h a s s1 c b po hu => ⟨tretCtx_traps hu, tretCtx_reloads hu⟩⟩

end Sys2Proof.Machine
end
